-- ==== Sys2Proof/Word.lean ====
section
/-!
DEFINITION. The word types and a sparse table keyed by numbers.

Words of the N7 are 64 bits (05 R116); bytes are 8 bits and little-endian (00 R5).
-/

namespace Sys2Proof

abbrev Word := BitVec 64
abbrev Byte := BitVec 8

/-- A sparse table: entries in rising key order, an absent key reading as a default that the reader supplies. -/
abbrev Tab (α : Type) := List (Nat × α)

/-- The entry at `k`, if one is listed. -/
def Tab.find? {α : Type} : Tab α → Nat → Option α
  | [], _ => none
  | (k', v) :: t, k => if k = k' then some v else Tab.find? t k

/-- The entry at `k`, or the default. -/
def Tab.get {α : Type} (t : Tab α) (dflt : α) (k : Nat) : α :=
  match t.find? k with
  | some v => v
  | none => dflt

/-- Write the entry at `k`. -/
def Tab.set {α : Type} : Tab α → Nat → α → Tab α
  | [], k, v => [(k, v)]
  | (k', v') :: t, k, v =>
    if k < k' then (k, v) :: (k', v') :: t
    else if k = k' then (k, v) :: t
    else (k', v') :: Tab.set t k v

/-- Remove the entry at `k`. -/
def Tab.del {α : Type} : Tab α → Nat → Tab α
  | [], _ => []
  | (k', v') :: t, k => if k = k' then Tab.del t k else (k', v') :: Tab.del t k

end Sys2Proof
end

