-- ==== Sys2Proof/Syntax.lean ====
section
/-!
DEFINITION. The syntax: every row of the opcode table as one constructor of `Instr`.

The 151 Sarurn instructions carry their operand fields (05 R123-R132 and the entries of chapters 06-09).
The 89 steps that no instruction word names carry the unit they act on (95_what_each_step_holds).
-/

namespace Sys2Proof

/-- 05 R124: the guard field; predicate 31 without negation means always. -/
structure Guard where
  neg  : Bool
  pred : BitVec 5
deriving DecidableEq, Repr

/-- The always guard. -/
abbrev Guard.always : Guard := ⟨false, 31#5⟩

/-- 05 R125: a register destination, or no write-back. -/
structure Dst where
  nwb : Bool
  n   : BitVec 6
deriving DecidableEq, Repr

/-- 05 R126: a source. -/
inductive Src where
  | reg (n : BitVec 6)
  | latch (j : BitVec 3)
  | ix
  | iy
  | iz
deriving DecidableEq, Repr

/-- 06 R142: the integer types of width 32 and 64. -/
inductive ITy where
  | i32
  | n32
  | i64
  | n64
deriving DecidableEq, Repr

/-- 06 R155: the floating-point types of vector arithmetic. -/
inductive FTy where
  | f16
  | bf16
  | f32
  | f64
deriving DecidableEq, Repr

/-- 04 R94: the format codes 0-14. -/
inductive Fmt where
  | i8
  | i16
  | i32
  | i64
  | n8
  | n16
  | n32
  | n64
  | f16
  | bf16
  | f32
  | f64
  | e4m3
  | e5m2
  | q4
deriving DecidableEq, Repr

/-- 04 R99: rounding modes. -/
inductive Rnd where
  | rne
  | rtz
  | rup
  | rdn
deriving DecidableEq, Repr

/-- 06 R151: integer relations. -/
inductive Rel where
  | eq
  | ne
  | lt
  | le
  | gt
  | ge
deriving DecidableEq, Repr

/-- 06 R158: floating-point relations. -/
inductive FRel where
  | eq
  | ne
  | lt
  | le
  | gt
  | ge
  | un
  | ord
deriving DecidableEq, Repr

/-- 07 R182: the types of RED and RDSUM. -/
inductive RTy where
  | i32
  | n32
  | i64
  | n64
  | f32
  | f64
deriving DecidableEq, Repr

/-- 07 R185: the lane operand of SHFL. -/
inductive LaneSel where
  | src (s : Src)
  | imm (y : BitVec 5)
deriving DecidableEq, Repr

/-- 07 R175: what FORM reads. -/
inductive FormWhat where
  | tag
  | predForm
  | threshold
deriving DecidableEq, Repr

structure G where
  g : Guard
deriving DecidableEq, Repr

structure RR where
  g  : Guard
  d  : Dst
  a  : Src
  b  : Src
  ty : ITy
deriving DecidableEq, Repr

structure RI where
  g   : Guard
  d   : Dst
  a   : Src
  w   : Bool
  s   : Bool
  imm : BitVec 32
deriving DecidableEq, Repr

structure RRR where
  g  : Guard
  d  : Dst
  a  : Src
  b  : Src
  c  : Src
  ty : ITy
deriving DecidableEq, Repr

structure R1 where
  g  : Guard
  d  : Dst
  a  : Src
  ty : ITy
deriving DecidableEq, Repr

structure SelO where
  g   : Guard
  d   : Dst
  a   : Src
  b   : Src
  ty  : ITy
  neg : Bool
  p   : BitVec 5
deriving DecidableEq, Repr

structure CmpO where
  g   : Guard
  p   : BitVec 6
  a   : Src
  b   : Src
  ty  : ITy
  rel : Rel
deriving DecidableEq, Repr

structure CmpIO where
  g   : Guard
  p   : BitVec 6
  a   : Src
  w   : Bool
  s   : Bool
  imm : BitVec 32
  rel : Rel
deriving DecidableEq, Repr

structure MoviO where
  g   : Guard
  d   : Dst
  w   : Bool
  s   : Bool
  imm : BitVec 32
deriving DecidableEq, Repr

structure MovhO where
  g   : Guard
  d   : Dst
  imm : BitVec 32
deriving DecidableEq, Repr

structure LeaO where
  g  : Guard
  d  : Dst
  a  : Src
  b  : Src
  ty : ITy
  sh : BitVec 4
deriving DecidableEq, Repr

structure FRR where
  g   : Guard
  d   : Dst
  a   : Src
  b   : Src
  ty  : FTy
  rnd : Rnd
deriving DecidableEq, Repr

structure FRRR where
  g   : Guard
  d   : Dst
  a   : Src
  b   : Src
  c   : Src
  ty  : FTy
  rnd : Rnd
deriving DecidableEq, Repr

structure FR1 where
  g   : Guard
  d   : Dst
  a   : Src
  ty  : FTy
  rnd : Rnd
deriving DecidableEq, Repr

structure FCmpO where
  g   : Guard
  p   : BitVec 6
  a   : Src
  b   : Src
  ty  : FTy
  rel : FRel
deriving DecidableEq, Repr

structure CvtO where
  g    : Guard
  d    : Dst
  a    : Src
  ty   : Fmt
  from_ : Fmt
  rnd  : Rnd
  ns   : Bool
  qsel : BitVec 3
deriving DecidableEq, Repr

structure Dot4O where
  g   : Guard
  d   : Dst
  a   : Src
  b   : Src
  c   : Src
  ta  : Fmt
  tb  : Fmt
  rnd : Rnd
deriving DecidableEq, Repr

structure PPP where
  g  : Guard
  p  : BitVec 6
  a  : BitVec 6
  b  : BitVec 6
  na : Bool
  nb : Bool
deriving DecidableEq, Repr

structure PP where
  g  : Guard
  p  : BitVec 6
  a  : BitVec 6
  na : Bool
deriving DecidableEq, Repr

structure VoteO where
  p   : BitVec 6
  a   : BitVec 6
  na  : Bool
  key : Src
deriving DecidableEq, Repr

structure PcntO where
  d   : Dst
  a   : BitVec 6
  na  : Bool
  key : Src
deriving DecidableEq, Repr

structure SelOut where
  g   : Guard
  d   : Dst
  sel : BitVec 3
deriving DecidableEq, Repr

structure FormO where
  g    : Guard
  d    : Dst
  what : FormWhat
  n    : BitVec 6
deriving DecidableEq, Repr

structure ExpandO where
  g : Guard
  r : Option (BitVec 6)
deriving DecidableEq, Repr

structure SplitO where
  p   : BitVec 6
  neg : Bool
deriving DecidableEq, Repr

structure PeelO where
  g  : Guard
  p  : BitVec 6
  a  : BitVec 6
  ty : ITy
deriving DecidableEq, Repr

structure FnewO where
  g   : Guard
  a   : Src
  b   : BitVec 6
  win : BitVec 3
deriving DecidableEq, Repr

structure SjoinO where
  p   : BitVec 6
  key : Src
deriving DecidableEq, Repr

structure KeyO where
  key : Src
deriving DecidableEq, Repr

structure RedO where
  g   : Guard
  a   : Src
  ty  : RTy
  s   : BitVec 4
  set : Bool
deriving DecidableEq, Repr

structure RdsumO where
  g  : Guard
  d  : Dst
  a  : Src
  ty : RTy
  s  : BitVec 4
deriving DecidableEq, Repr

structure ShflO where
  g    : Guard
  d    : Dst
  a    : Src
  y    : LaneSel
  mode : BitVec 2
deriving DecidableEq, Repr

structure BrO where
  g    : Guard
  disp : BitVec 32
deriving DecidableEq, Repr

structure BrcO where
  g    : Guard
  a    : Src
  rel  : Rel
  w    : Bool
  disp : BitVec 32
deriving DecidableEq, Repr

structure JmpO where
  g : Guard
  a : Src
deriving DecidableEq, Repr

structure CodeO where
  g    : Guard
  code : BitVec 10
deriving DecidableEq, Repr

structure LdO where
  g    : Guard
  d    : Dst
  base : Src
  off  : BitVec 20
  size : BitVec 4
  ord  : BitVec 2
  scp  : BitVec 2
  hnt  : BitVec 2
deriving DecidableEq, Repr

structure StO where
  g    : Guard
  data : Src
  base : Src
  off  : BitVec 20
  size : BitVec 4
  ord  : BitVec 2
  scp  : BitVec 2
  hnt  : BitVec 2
deriving DecidableEq, Repr

structure LdcO where
  g    : Guard
  d    : Dst
  base : Option Src
  off  : BitVec 20
  size : BitVec 4
deriving DecidableEq, Repr

structure PrefO where
  g    : Guard
  base : Src
  off  : BitVec 20
  hnt  : BitVec 2
deriving DecidableEq, Repr

structure AtomO where
  g   : Guard
  d   : Dst
  a   : Src
  b   : Src
  c   : Src
  ty  : ITy
  op  : BitVec 3
  ord : BitVec 2
  scp : BitVec 2
  w16 : Bool
deriving DecidableEq, Repr

structure FenceO where
  g   : Guard
  ord : BitVec 2
  scp : BitVec 2
deriving DecidableEq, Repr

structure PfenceO where
  g    : Guard
  prod : BitVec 4
  cons : BitVec 4
deriving DecidableEq, Repr

structure WaitaO where
  g    : Guard
  a    : Src
  b    : Src
  w64  : Bool
  rel  : BitVec 2
  spad : Bool
  scp  : BitVec 2
deriving DecidableEq, Repr

structure CopyO where
  g     : Guard
  grp   : BitVec 6
  tok   : BitVec 3
  insp  : BitVec 2
  outsp : BitVec 2
  cwsp  : Bool
  gran  : BitVec 2
deriving DecidableEq, Repr

structure CopyFO where
  c   : CopyO
  fmt : Fmt
deriving DecidableEq, Repr

structure ForkO where
  g   : Guard
  a   : Src
  b   : BitVec 6
  cnt : BitVec 3
deriving DecidableEq, Repr

structure LaunchO where
  g  : Guard
  nb : Bool
  p  : BitVec 6
  a  : Src
deriving DecidableEq, Repr

structure WaitcO where
  g : Guard
  a : Src
  b : Src
deriving DecidableEq, Repr

structure TcfgO where
  g   : Guard
  msk : BitVec 5
deriving DecidableEq, Repr

structure TmemO where
  g   : Guard
  t   : BitVec 7
  msk : BitVec 5
  sp  : Bool
  esz : BitVec 2
deriving DecidableEq, Repr

structure TfillO where
  g     : Guard
  grp   : BitVec 6
  row   : Src
  tile  : BitVec 7
  chunk : BitVec 3
deriving DecidableEq, Repr

structure TileO where
  g : Guard
  t : BitVec 7
deriving DecidableEq, Repr

structure TtrnO where
  g   : Guard
  d   : BitVec 7
  a   : BitVec 7
  esz : BitVec 2
deriving DecidableEq, Repr

structure TscaleO where
  g   : Guard
  d   : BitVec 7
  a   : BitVec 7
  exp : BitVec 8
  fmt : BitVec 4
deriving DecidableEq, Repr

structure TaddO where
  g  : Guard
  d  : BitVec 7
  a  : BitVec 7
  b  : BitVec 7
  na : Bool
  nb : Bool
deriving DecidableEq, Repr

structure MmaO where
  g     : Guard
  d     : BitVec 7
  a     : BitVec 7
  b     : BitVec 7
  c     : BitVec 7
  msk   : BitVec 5
  flags : BitVec 15
deriving DecidableEq, Repr

structure MstatO where
  g   : Guard
  d   : Dst
  clr : Bool
deriving DecidableEq, Repr

structure CsrO where
  g   : Guard
  d   : Dst
  a   : Src
  csr : BitVec 12
  w64 : Bool
deriving DecidableEq, Repr

structure FselO where
  g : Guard
  p : BitVec 6
  a : Src
deriving DecidableEq, Repr

structure FgetO where
  g : Guard
  d : Dst
  a : Src
deriving DecidableEq, Repr

structure FsetO where
  g : Guard
  p : BitVec 6
  a : Src
  b : Src
deriving DecidableEq, Repr

structure FresumeO where
  g    : Guard
  p    : BitVec 6
  part : Option (BitVec 6)
deriving DecidableEq, Repr

structure ReplayO where
  g    : Guard
  p    : BitVec 6
  core : Bool
deriving DecidableEq, Repr

structure TlbiO where
  g   : Guard
  sel : BitVec 2
  a   : Src
  b   : Src
deriving DecidableEq, Repr

structure RwloadO where
  g    : Guard
  d    : Dst
  a    : Src
  dflt : Bool
deriving DecidableEq, Repr

/-- 16 R336, R341, R343: a task record as it travels: its launch, tile number, sequence number, context and generation. -/
structure TaskMsg where
  launch : Nat
  tile   : Nat
  seq    : BitVec 32
  ctx    : Nat
  gen    : BitVec 8
deriving DecidableEq, Repr

/-- 19 R382: the messages a cluster's always-on interface answers while its cores are off. -/
inductive AlwaysOnMsg where
  | stealRequest (core thief : Nat)
  | promotion (from_ entry : Nat)
  | cancel (core ctx job : Nat)
  | token (ctx job : Nat)
deriving DecidableEq, Repr

/-- 19 R369: a host access through CXL.mem: a read of `len` bytes, or a write. -/
inductive HostAcc where
  | read (addr len : Nat)
  | write (addr : Nat) (data : List Byte)
deriving DecidableEq, Repr

/-- One constructor per row of the opcode table; the comment names the row and its rule. -/
inductive Instr where
  | nop (o : G)   -- R195 NOP
  | illegal   -- R138 ILLEGAL
  | iadd (o : RR)   -- R144 IADD
  | iaddImm (o : RI)   -- R144 IADD_IMM
  | isub (o : RR)   -- R144 ISUB
  | isubImm (o : RI)   -- R144 ISUB_IMM
  | imul (o : RR)   -- R144 IMUL
  | imulImm (o : RI)   -- R144 IMUL_IMM
  | imulh (o : RR)   -- R145 IMULH
  | imulhImm (o : RI)   -- R145 IMULH_IMM
  | imulw (o : RR)   -- R145 IMULW
  | imulwImm (o : RI)   -- R145 IMULW_IMM
  | imad (o : RRR)   -- R146 IMAD
  | ineg (o : R1)   -- R147 INEG
  | iabs (o : R1)   -- R147 IABS
  | imin (o : RR)   -- R144 IMIN
  | iminImm (o : RI)   -- R144 IMIN_IMM
  | imax (o : RR)   -- R144 IMAX
  | imaxImm (o : RI)   -- R144 IMAX_IMM
  | shl (o : RR)   -- R148 SHL
  | shlImm (o : RI)   -- R148 SHL_IMM
  | shr (o : RR)   -- R148 SHR
  | shrImm (o : RI)   -- R148 SHR_IMM
  | sar (o : RR)   -- R148 SAR
  | sarImm (o : RI)   -- R148 SAR_IMM
  | and_ (o : RR)   -- R144 AND
  | andImm (o : RI)   -- R144 AND_IMM
  | or_ (o : RR)   -- R144 OR
  | orImm (o : RI)   -- R144 OR_IMM
  | xor_ (o : RR)   -- R144 XOR
  | xorImm (o : RI)   -- R144 XOR_IMM
  | not_ (o : R1)   -- R147 NOT
  | andn (o : RR)   -- R144 ANDN
  | andnImm (o : RI)   -- R144 ANDN_IMM
  | clz (o : R1)   -- R147 CLZ
  | popc (o : R1)   -- R147 POPC
  | brev (o : R1)   -- R147 BREV
  | bfx (o : RR)   -- R149 BFX
  | bfi (o : RRR)   -- R149 BFI
  | sel (o : SelO)   -- R150 SEL
  | icmp (o : CmpO)   -- R151 ICMP
  | icmpImm (o : CmpIO)   -- R151 ICMP_IMM
  | mov (o : R1)   -- R152 MOV
  | movi (o : MoviO)   -- R152 MOVI
  | movh (o : MovhO)   -- R152 MOVH
  | lea (o : LeaO)   -- R153 LEA
  | fadd (o : FRR)   -- R156 FADD
  | fsub (o : FRR)   -- R156 FSUB
  | fmul (o : FRR)   -- R156 FMUL
  | ffma (o : FRRR)   -- R156 FFMA
  | fmin (o : FRR)   -- R157 FMIN
  | fmax (o : FRR)   -- R157 FMAX
  | fabs (o : FR1)   -- R157 FABS
  | fneg (o : FR1)   -- R157 FNEG
  | fcmp (o : FCmpO)   -- R158 FCMP
  | fclass (o : FR1)   -- R159 FCLASS
  | frcp (o : FR1)   -- R160 FRCP
  | frsq (o : FR1)   -- R160 FRSQ
  | fsqrt (o : FR1)   -- R160 FSQRT
  | fex2 (o : FR1)   -- R160 FEX2
  | flg2 (o : FR1)   -- R160 FLG2
  | fsin (o : FR1)   -- R160 FSIN
  | fcos (o : FR1)   -- R160 FCOS
  | frnd (o : FR1)   -- R161 FRND
  | fcvt (o : CvtO)   -- R162 FCVT
  | ftoi (o : CvtO)   -- R164 FTOI
  | itof (o : CvtO)   -- R164 ITOF
  | hadd2 (o : FRR)   -- R165 HADD2
  | hmul2 (o : FRR)   -- R165 HMUL2
  | hfma2 (o : FRRR)   -- R165 HFMA2
  | dot4 (o : Dot4O)   -- R166 DOT4
  | dot2h (o : FRRR)   -- R167 DOT2H
  | pand (o : PPP)   -- R171 PAND
  | por (o : PPP)   -- R171 POR
  | pxor (o : PPP)   -- R171 PXOR
  | pnot (o : PP)   -- R171 PNOT
  | pmov (o : PP)   -- R171 PMOV
  | pany (o : VoteO)   -- R172 PANY
  | pall (o : VoteO)   -- R172 PALL
  | pcnt (o : PcntO)   -- R172 PCNT
  | idx (o : SelOut)   -- R173 IDX
  | box (o : SelOut)   -- R174 BOX
  | form (o : FormO)   -- R175 FORM
  | expand (o : ExpandO)   -- R176 EXPAND
  | split (o : SplitO)   -- R177 SPLIT
  | peel (o : PeelO)   -- R178 PEEL
  | fnew (o : FnewO)   -- R179 FNEW
  | sjoin (o : SjoinO)   -- R181 SJOIN
  | sleave (o : KeyO)   -- R181 SLEAVE
  | sbar (o : KeyO)   -- R64 SBAR
  | red (o : RedO)   -- R182 RED
  | rdsum (o : RdsumO)   -- R183 RDSUM
  | shfl (o : ShflO)   -- R185 SHFL
  | bra (o : BrO)   -- R187 BRA
  | brc (o : BrcO)   -- R187 BRC
  | call (o : BrO)   -- R188 CALL
  | calli (o : JmpO)   -- R188 CALLI
  | ret (o : G)   -- R192 RET
  | jmpi (o : JmpO)   -- R188 JMPI
  | exit_ (o : G)   -- R193 EXIT
  | trap_ (o : CodeO)   -- R194 TRAP
  | brk (o : CodeO)   -- R194 BRK
  | yield (o : G)   -- R195 YIELD
  | ld (o : LdO)   -- R214 LD
  | st (o : StO)   -- R214 ST
  | lds (o : LdO)   -- R214 LDS
  | sts (o : StO)   -- R214 STS
  | ldc (o : LdcO)   -- R215 LDC
  | pref (o : PrefO)   -- R216 PREF
  | atom (o : AtomO)   -- R217 ATOM
  | atoms (o : AtomO)   -- R217 ATOMS
  | phase (o : G)   -- R219 PHASE
  | fence (o : FenceO)   -- R220 FENCE
  | pfence (o : PfenceO)   -- R221 PFENCE
  | promote (o : JmpO)   -- R222 PROMOTE
  | promotionRequest (owner : Nat) (from_ : Nat)   -- R87 PROMOTION_REQUEST
  | waita (o : WaitaO)   -- R223 WAITA
  | waitaSatisfied (core : Nat) (entry : Nat)   -- R91 WAITA_SATISFIED
  | loadDataArrival (core : Nat) (entry : Nat)   -- R226 LOAD_DATA_ARRIVAL
  | copy (o : CopyO)   -- R229 COPY
  | copyx (o : CopyFO)   -- R231 COPYX
  | copyc (o : CopyFO)   -- R231 COPYC
  | copyt (o : CopyO)   -- R230 COPYT
  | copyRun (core : Nat)   -- R229 COPY_RUN
  | tokenWaitEnd (core : Nat) (entry : Nat)   -- R233 TOKEN_WAIT_END
  | fork (o : ForkO)   -- R235 FORK
  | streamStart (core : Nat)   -- R68 STREAM_START
  | rdzv (o : G)   -- R236 RDZV
  | launch (o : LaunchO)   -- R237 LAUNCH
  | waitc (o : WaitcO)   -- R238 WAITC
  | swapDelayExpiry (core : Nat) (entry : Nat)   -- R239 SWAP_DELAY_EXPIRY
  | waitcResume (core : Nat) (entry : Nat)   -- R368 WAITC_RESUME
  | cancel (o : JmpO)   -- R240 CANCEL
  | cancelBroadcast (pos : Nat) (ctx : Nat) (job : Nat) (gen : Nat)   -- R347 CANCEL_BROADCAST
  | tcfg (o : TcfgO)   -- R249 TCFG
  | tload (o : TmemO)   -- R251 TLOAD
  | tstore (o : TmemO)   -- R251 TSTORE
  | tfill (o : TfillO)   -- R255 TFILL
  | tdrain (o : TfillO)   -- R255 TDRAIN
  | tzero (o : TileO)   -- R257 TZERO
  | ttrn (o : TtrnO)   -- R258 TTRN
  | tscale (o : TscaleO)   -- R259 TSCALE
  | tadd (o : TaddO)   -- R260 TADD
  | mma (o : MmaO)   -- R261 MMA
  | tlatch (o : TileO)   -- R271 TLATCH
  | tscl (o : TmemO)   -- R254 TSCL
  | mstat (o : MstatO)   -- R273 MSTAT
  | operandsConsumed (core : Nat) (ctx : Nat) (tile : Nat)   -- R247 OPERANDS_CONSUMED
  | rewriteWindow (core : Nat)   -- R286 REWRITE_WINDOW
  | csrr (o : CsrO)   -- R197 CSRR
  | csrw (o : CsrO)   -- R197 CSRW
  | csrs (o : CsrO)   -- R197 CSRS
  | csrc (o : CsrO)   -- R197 CSRC
  | csrWrite (cluster : Nat) (ctx : Nat) (csr : Nat) (value : Word)   -- R199 CSR_WRITE
  | fsel (o : FselO)   -- R204 FSEL
  | fget (o : FgetO)   -- R205 FGET
  | fset (o : FsetO)   -- R205 FSET
  | fresume (o : FresumeO)   -- R206 FRESUME
  | replay (o : ReplayO)   -- R207 REPLAY
  | tlbi (o : TlbiO)   -- R208 TLBI
  | eret (o : G)   -- R202 ERET
  | sleep (o : FgetO)   -- R203 SLEEP
  | sleepWake (cluster : Nat)   -- R203 SLEEP_WAKE
  | rwload (o : RwloadO)   -- R275 RWLOAD
  | clauseHeader (hdr : Word)   -- R119 CLAUSE_HEADER
  | knitHoldExpiry (core : Nat) (entry : Nat)   -- R56 KNIT_HOLD_EXPIRY
  | resourceRetry (core : Nat)   -- R54 RESOURCE_RETRY
  | resourceSwapOut (core : Nat)   -- R54 RESOURCE_SWAP_OUT
  | watchdog (core : Nat) (entry : Nat)   -- R71 WATCHDOG
  | heldTrapPush (cluster : Nat)   -- R348 HELD_TRAP_PUSH
  | pageWalkComplete (ctx : Nat) (va : Nat)   -- R361 PAGE_WALK_COMPLETE
  | replayComplete (core : Nat) (rec : Nat)   -- R357 REPLAY_COMPLETE
  | mcHandlerEntry (cluster : Nat)   -- R201 MC_HANDLER_ENTRY
  | trapCause (cluster : Nat) (value : Word)   -- R276 TRAP_CAUSE
  | trapWindowStore (cluster : Nat) (value : Byte)   -- R350 TRAP_WINDOW_STORE
  | mcEpc (cluster : Nat) (value : Word)   -- R202 MC_EPC
  | mcPtroot (cluster : Nat) (value : Word)   -- R402 MC_PTROOT
  | dispatchAdmit (die : Nat)   -- R336 DISPATCH_ADMIT
  | dispatchPlace (die : Nat)   -- R337 DISPATCH_PLACE
  | tileStart (core : Nat)   -- R337 TILE_START
  | launchFinish (launch : Nat)   -- R338 LAUNCH_FINISH
  | ctxDoorbell (ctx : Nat) (value : Word)   -- R334 CTX_DOORBELL
  | stealRequest (core : Nat)   -- R340 STEAL_REQUEST
  | stealRetryTimer (core : Nat)   -- R340 STEAL_RETRY_TIMER
  | stealVictim (victim : Nat) (thief : Nat)   -- R341 STEAL_VICTIM
  | lentRecord (thief : Nat) (victim : Nat) (task : TaskMsg)   -- R341 LENT_RECORD
  | stealAck (victim : Nat) (task : TaskMsg)   -- R341 STEAL_ACK
  | stealNone (thief : Nat)   -- R340 STEAL_NONE
  | traverseToken (ctx : Nat) (job : Nat)   -- R344 TRAVERSE_TOKEN
  | heldCompletionEntry (ctx : Nat)   -- R345 HELD_COMPLETION_ENTRY
  | drainNotice (core : Nat)   -- R346 DRAIN_NOTICE
  | contextSwitch (core : Nat) (ctx : Nat)   -- R365 CONTEXT_SWITCH
  | contextRestore (core : Nat) (ctx : Nat)   -- R365 CONTEXT_RESTORE
  | mbDb (cmd : BitVec 8) (req : Word) (value : Word)   -- R374 MB_DB
  | ctxCreate (req : Nat)   -- R375 CTX_CREATE
  | ctxReset (req : Nat)   -- R401 CTX_RESET
  | ctxDestroy (req : Nat)   -- R401 CTX_DESTROY
  | objLoad (req : Nat)   -- R325 OBJ_LOAD
  | measRead (req : Nat)   -- R377 MEAS_READ
  | mbClpm (req : Nat)   -- R374 MB_CLPM
  | haltInfo (req : Nat)   -- R374 HALT_INFO
  | mbUnknownCmd (cmd : Nat)   -- R374 MB_UNKNOWN_CMD
  | getVersion   -- R378 GET_VERSION
  | getCapabilities   -- R378 GET_CAPABILITIES
  | negotiateAlgorithms   -- R378 NEGOTIATE_ALGORITHMS
  | getDigests   -- R378 GET_DIGESTS
  | getCertificate (slot : Nat)   -- R378 GET_CERTIFICATE
  | getMeasurements (index : Nat)   -- R378 GET_MEASUREMENTS
  | moduleReset   -- R379 MODULE_RESET
  | clpmGo (cluster : Nat) (tgt : Nat)   -- R383 CLPM_GO
  | clpmStepDone (cluster : Nat)   -- R381 CLPM_STEP_DONE
  | flush (cluster : Nat)   -- R380 FLUSH
  | flushDone (cluster : Nat)   -- R381 FLUSH_DONE
  | estop (cluster : Nat) (on : Bool)   -- R380 ESTOP
  | dstop (cluster : Nat) (on : Bool)   -- R380 DSTOP
  | save (cluster : Nat)   -- R384 SAVE
  | saveDone (cluster : Nat)   -- R381 SAVE_DONE
  | restore (cluster : Nat)   -- R384 RESTORE
  | restoreDone (cluster : Nat)   -- R380 RESTORE_DONE
  | clpmWake (cluster : Nat)   -- R380 CLPM_WAKE
  | clpmWakeMirror (cluster : Nat)   -- R372 CLPM_WAKE_MIRROR
  | alwaysOnAnswer (cluster : Nat) (msg : AlwaysOnMsg)   -- R382 ALWAYS_ON_ANSWER
  | hostCxlMemAccess (acc : HostAcc)   -- R369 HOST_CXL_MEM_ACCESS
  | peerWrite (addr : Nat) (data : List Byte)   -- R371 PEER_WRITE
  | peerLinkTrained (port : Nat) (wsize : Nat)   -- R371 PEER_LINK_TRAINED
  | farLinkDown (port : Nat)   -- R363 FAR_LINK_DOWN
  | farCompletionTimeout (core : Nat) (entry : Nat)   -- R363 FAR_COMPLETION_TIMEOUT
  | farRetrainDone (port : Nat)   -- R363 FAR_RETRAIN_DONE
  | linkCrcFail (pch : Nat) (failures : Nat)   -- R386 LINK_CRC_FAIL
  | hbmRetrainDone (pch : Nat) (ok : Bool) (burstOk : Bool)   -- R386 HBM_RETRAIN_DONE
  | scrubRead   -- R390 SCRUB_READ
  | remapTableError (pch : Nat)   -- R392 REMAP_TABLE_ERROR
  | tableReloadDone (pch : Nat)   -- R392 TABLE_RELOAD_DONE
  | scrubCtl (value : Word)   -- R393 SCRUB_CTL
  | clr (pch : Nat)   -- R396 CLR
  | tileInstructionCompletion (core : Nat) (ctx : Nat)   -- R247 TILE_INSTRUCTION_COMPLETION
  | cancelAcknowledgement (core : Nat) (pos : Nat) (ctx : Nat) (job : Nat) (gen : Nat)   -- R347 CANCEL_ACKNOWLEDGEMENT
  | promotionReply (core : Nat) (entry : Nat)   -- R87 PROMOTION_REPLY
  | unstartedRecordReturn (die : Nat) (from_ : Nat) (tasks : List TaskMsg)   -- R346 UNSTARTED_RECORD_RETURN
  | peerWriteUndeliverable (core : Nat)   -- R234 PEER_WRITE_UNDELIVERABLE
deriving DecidableEq, Repr

end Sys2Proof
end

