-- ==== Sys2Proof/WellFormed.lean ====
section
/-!
DEFINITION. Well-formedness: the field values that the entries list (05 R124-R132; chapters 06-09).
A word whose fields fail these checks traps RESERVED_FIELD (05 R137).
-/

namespace Sys2Proof

/-- 05 R124: PRED 0-23, or 31 without NEG. -/
def Guard.wf (g : Guard) : Bool := g.pred.toNat < 24 || (g.pred == 31#5 && !g.neg)

/-- 05 R125: under NWB the number is zero. -/
def Dst.wf (d : Dst) : Bool := !d.nwb || d.n == 0#6

/-- 07 R168: predicate numbers 0-23. -/
def predOk (p : BitVec 6) : Bool := p.toNat < 24

/-- 06 R145: IMULW takes 32-bit types. -/
def ITy.is32 : ITy → Bool
  | .i32 => true
  | .n32 => true
  | _ => false

def ITy.signed : ITy → Bool
  | .i32 => true
  | .i64 => true
  | _ => false

def FTy.half : FTy → Bool
  | .f16 => true
  | .bf16 => true
  | _ => false

def FTy.wide : FTy → Bool
  | .f32 => true
  | .f64 => true
  | _ => false

def Fmt.isInt : Fmt → Bool
  | .i8 | .i16 | .i32 | .i64 | .n8 | .n16 | .n32 | .n64 => true
  | _ => false

def Fmt.isFloat : Fmt → Bool
  | .f16 | .bf16 | .f32 | .f64 => true
  | _ => false

def Fmt.isFp8 : Fmt → Bool
  | .e4m3 | .e5m2 => true
  | _ => false

/-- 06 R162: the pairs that FCVT converts. -/
def Fmt.cvtPair (ty src : Fmt) : Bool :=
  match ty with
  | .q4 => src == .f16 || src == .f32
  | .e4m3 | .e5m2 => src.isFloat
  | _ =>
    if ty.isFloat then src.isFp8 || (src.isFloat && src != ty)
    else src.isInt && src != ty

/-- 06 R162: RND is used only among the floating formats and towards FP8. -/
def Fmt.cvtRounds (ty src : Fmt) : Bool := src.isFloat && (ty.isFloat || ty.isFp8)

def CvtO.wfFcvt (o : CvtO) : Bool :=
  o.ty.cvtPair o.from_ && (o.ty.cvtRounds o.from_ || o.rnd == .rne)
    && (!o.ns || o.ty.isFp8)
    && (o.qsel == 0#3 || (o.ty == .q4 && 4 ≤ o.qsel.toNat))

def sizeOk (s : BitVec 4) : Bool := s.toNat ≤ 8
def hntOk (h : BitVec 2) : Bool := h.toNat ≤ 2

def G.wf (o : G) : Bool := o.g.wf
def RR.wf (o : RR) : Bool := o.g.wf && o.d.wf
def RI.wf (o : RI) : Bool := o.g.wf && o.d.wf
def RRR.wf (o : RRR) : Bool := o.g.wf && o.d.wf
def R1.wf (o : R1) : Bool := o.g.wf && o.d.wf
def SelO.wf (o : SelO) : Bool := o.g.wf && o.d.wf && o.p.toNat < 24
def CmpO.wf (o : CmpO) : Bool := o.g.wf && predOk o.p
def CmpIO.wf (o : CmpIO) : Bool := o.g.wf && predOk o.p
def MoviO.wf (o : MoviO) : Bool := o.g.wf && o.d.wf
def MovhO.wf (o : MovhO) : Bool := o.g.wf && o.d.wf
def LeaO.wf (o : LeaO) : Bool := o.g.wf && o.d.wf
def FRR.wf (o : FRR) : Bool := o.g.wf && o.d.wf
def FRRR.wf (o : FRRR) : Bool := o.g.wf && o.d.wf
def FR1.wf (o : FR1) : Bool := o.g.wf && o.d.wf
def FCmpO.wf (o : FCmpO) : Bool := o.g.wf && predOk o.p
def CvtO.wf (o : CvtO) : Bool := o.g.wf && o.d.wf
def Dot4O.wf (o : Dot4O) : Bool :=
  o.g.wf && o.d.wf &&
    (((o.ta == .i8 || o.ta == .n8) && (o.tb == .i8 || o.tb == .n8) && o.rnd == .rne) || (o.ta.isFp8 && o.tb.isFp8))
def PPP.wf (o : PPP) : Bool := o.g.wf && predOk o.p && predOk o.a && predOk o.b
def PP.wf (o : PP) : Bool := o.g.wf && predOk o.p && predOk o.a
def VoteO.wf (o : VoteO) : Bool := predOk o.p && predOk o.a
def PcntO.wf (o : PcntO) : Bool := o.d.wf && predOk o.a
def SelOut.wf (o : SelOut) : Bool := o.g.wf && o.d.wf
def FormO.wf (o : FormO) : Bool := o.g.wf && o.d.wf && (o.what == .tag || predOk o.n)
def ExpandO.wf (o : ExpandO) : Bool := o.g.wf
def SplitO.wf (o : SplitO) : Bool := predOk o.p
def PeelO.wf (o : PeelO) : Bool := o.g.wf && predOk o.p
def FnewO.wf (o : FnewO) : Bool := o.g.wf
def SjoinO.wf (o : SjoinO) : Bool := predOk o.p
def KeyO.wf (_ : KeyO) : Bool := true
def RedO.wf (o : RedO) : Bool := o.g.wf
def RdsumO.wf (o : RdsumO) : Bool := o.g.wf && o.d.wf
def ShflO.wf (o : ShflO) : Bool := o.g.wf && o.d.wf
def BrO.wf (o : BrO) : Bool := o.g.wf
def BrcO.wf (o : BrcO) : Bool := o.g.wf
def JmpO.wf (o : JmpO) : Bool := o.g.wf
def CodeO.wf (o : CodeO) : Bool := o.g.wf
/-- 08 R213: loads are relaxed or acquire. -/
def LdO.wf (o : LdO) : Bool := o.g.wf && o.d.wf && sizeOk o.size && hntOk o.hnt && o.ord.toNat ≤ 1
/-- 08 R213: stores are relaxed or release. -/
def StO.wf (o : StO) : Bool := o.g.wf && sizeOk o.size && hntOk o.hnt && (o.ord == 0#2 || o.ord == 2#2)
def LdcO.wf (o : LdcO) : Bool := o.g.wf && o.d.wf && sizeOk o.size
def PrefO.wf (o : PrefO) : Bool := o.g.wf && hntOk o.hnt
def Src.isLatch : Src → Bool
  | .latch _ => true
  | _ => false
def Src.isReg : Src → Bool
  | .reg _ => true
  | _ => false
/-- 08 R217: SC only for cas; W16 only with cas and type n64. Its 16-byte operands are register groups: R133 shuts latches out, and that
ix, iy and iz are refused too is the model's choice (log 100). -/
def AtomO.wf (o : AtomO) : Bool :=
  o.g.wf && o.d.wf && (o.op == 7#3 || o.c == .reg 0#6)
    && (!o.w16 || (o.op == 7#3 && o.ty == .n64 && o.b.isReg && o.c.isReg))
def FenceO.wf (o : FenceO) : Bool := o.g.wf && o.ord != 0#2 && o.scp.toNat ≤ 2
def PfenceO.wf (o : PfenceO) : Bool := o.g.wf && o.prod != 0#4 && o.cons != 0#4
def WaitaO.wf (o : WaitaO) : Bool := o.g.wf && o.rel.toNat ≤ 2
def CopyO.wf (o : CopyO) : Bool := o.g.wf && o.insp.toNat ≤ 2 && o.outsp.toNat ≤ 2 && o.gran.toNat ≤ 2
/-- 08 R228, R230: COPYT has OUTSP and GRAN zero and reads global memory or the scratchpad. -/
def CopyO.wfT (o : CopyO) : Bool := o.wf && o.insp.toNat ≤ 1 && o.outsp == 0#2 && o.gran == 0#2
/-- 08 R231: the element formats of COPYX and COPYC. -/
def CopyFO.wf (o : CopyFO) : Bool :=
  o.c.wf && (match o.fmt with
    | .i8 | .n8 | .e4m3 | .e5m2 | .i16 | .n16 | .f16 | .bf16 => true
    | _ => false)
def ForkO.wf (o : ForkO) : Bool := o.g.wf && o.cnt.toNat ≤ 4 && (o.cnt != 0#3 || o.b == 0#6)
def LaunchO.wf (o : LaunchO) : Bool := o.g.wf && (if o.nb then predOk o.p else o.p == 0#6)
def WaitcO.wf (o : WaitcO) : Bool := o.g.wf
def TcfgO.wf (o : TcfgO) : Bool := o.g.wf
/-- 09 R251: the descriptor starts at an even m register. -/
def TmemO.wf (o : TmemO) : Bool := o.g.wf && !(o.msk.getLsbD 0)
def TmemO.wfScl (o : TmemO) : Bool := o.g.wf && o.esz == 0#2
def TfillO.wf (o : TfillO) : Bool := o.g.wf && o.chunk.toNat ≤ 4
def TileO.wf (o : TileO) : Bool := o.g.wf
def TtrnO.wf (o : TtrnO) : Bool := o.g.wf
def TscaleO.wf (o : TscaleO) : Bool := o.g.wf
def TaddO.wf (o : TaddO) : Bool := o.g.wf
/-- 05 R132: FLAGS[0] is reserved. -/
def MmaO.wf (o : MmaO) : Bool := o.g.wf && !(o.flags.getLsbD 0)
def MstatO.wf (o : MstatO) : Bool := o.g.wf && o.d.wf
def CsrO.wf (o : CsrO) : Bool := o.g.wf && o.d.wf
def CsrO.wfR (o : CsrO) : Bool := o.wf && o.a == .reg 0#6
def FselO.wf (o : FselO) : Bool := o.g.wf && predOk o.p
def FgetO.wf (o : FgetO) : Bool := o.g.wf && o.d.wf
def FsetO.wf (o : FsetO) : Bool := o.g.wf && predOk o.p
def FresumeO.wf (o : FresumeO) : Bool := o.g.wf && predOk o.p
def ReplayO.wf (o : ReplayO) : Bool := o.g.wf && predOk o.p
/-- 07 R208. -/
def TlbiO.wf (o : TlbiO) : Bool :=
  o.g.wf && (match o.sel with
    | 0#2 => true
    | 1#2 => o.a == .reg 0#6
    | 2#2 => o.a == .reg 0#6 && o.b == .reg 0#6
    | _ => false)
def RwloadO.wf (o : RwloadO) : Bool := o.g.wf && o.d.wf && (!o.dflt || o.a == .reg 0#6)

/-- Every field holds a value its entry lists. Steps that no instruction word names carry none. The data of a 128-bit ST or STS is a
register group: R133 shuts latches out, and that ix, iy and iz are refused too is the model's choice (log 100). -/
def Instr.wf : Instr → Bool
  | .nop o => o.wf
  | .illegal => true
  | .iadd o => o.wf
  | .iaddImm o => o.wf
  | .isub o => o.wf
  | .isubImm o => o.wf
  | .imul o => o.wf
  | .imulImm o => o.wf
  | .imulh o => o.wf
  | .imulhImm o => o.wf
  | .imulw o => o.wf && o.ty.is32
  | .imulwImm o => o.wf && o.w
  | .imad o => o.wf
  | .ineg o => o.wf
  | .iabs o => o.wf && o.ty.signed
  | .imin o => o.wf
  | .iminImm o => o.wf
  | .imax o => o.wf
  | .imaxImm o => o.wf
  | .shl o => o.wf
  | .shlImm o => o.wf
  | .shr o => o.wf
  | .shrImm o => o.wf
  | .sar o => o.wf
  | .sarImm o => o.wf
  | .and_ o => o.wf
  | .andImm o => o.wf
  | .or_ o => o.wf
  | .orImm o => o.wf
  | .xor_ o => o.wf
  | .xorImm o => o.wf
  | .not_ o => o.wf
  | .andn o => o.wf
  | .andnImm o => o.wf
  | .clz o => o.wf
  | .popc o => o.wf
  | .brev o => o.wf
  | .bfx o => o.wf
  | .bfi o => o.wf
  | .sel o => o.wf
  | .icmp o => o.wf
  | .icmpImm o => o.wf
  | .mov o => o.wf
  | .movi o => o.wf
  | .movh o => o.wf
  | .lea o => o.wf
  | .fadd o => o.wf
  | .fsub o => o.wf
  | .fmul o => o.wf
  | .ffma o => o.wf
  | .fmin o => o.wf && o.rnd == .rne
  | .fmax o => o.wf && o.rnd == .rne
  | .fabs o => o.wf && o.rnd == .rne
  | .fneg o => o.wf && o.rnd == .rne
  | .fcmp o => o.wf
  | .fclass o => o.wf && o.rnd == .rne
  | .frcp o => o.wf && o.ty.wide
  | .frsq o => o.wf && o.ty.wide
  | .fsqrt o => o.wf && o.ty.wide
  | .fex2 o => o.wf && o.ty == .f32
  | .flg2 o => o.wf && o.ty == .f32
  | .fsin o => o.wf && o.ty == .f32
  | .fcos o => o.wf && o.ty == .f32
  | .frnd o => o.wf
  | .fcvt o => o.wf && o.wfFcvt
  | .ftoi o => o.wf && o.ty.isInt && o.from_.isFloat && !o.ns && o.qsel == 0#3
  | .itof o => o.wf && o.ty.isFloat && o.from_.isInt && !o.ns && o.qsel == 0#3
  | .hadd2 o => o.wf && o.ty.half
  | .hmul2 o => o.wf && o.ty.half
  | .hfma2 o => o.wf && o.ty.half
  | .dot4 o => o.wf
  | .dot2h o => o.wf && o.ty.half
  | .pand o => o.wf
  | .por o => o.wf
  | .pxor o => o.wf
  | .pnot o => o.wf
  | .pmov o => o.wf
  | .pany o => o.wf
  | .pall o => o.wf
  | .pcnt o => o.wf
  | .idx o => o.wf
  | .box o => o.wf
  | .form o => o.wf
  | .expand o => o.wf
  | .split o => o.wf
  | .peel o => o.wf
  | .fnew o => o.wf
  | .sjoin o => o.wf
  | .sleave o => o.wf
  | .sbar o => o.wf
  | .red o => o.wf
  | .rdsum o => o.wf
  | .shfl o => o.wf
  | .bra o => o.wf
  | .brc o => o.wf
  | .call o => o.wf
  | .calli o => o.wf
  | .ret o => o.wf
  | .jmpi o => o.wf
  | .exit_ o => o.wf
  | .trap_ o => o.wf
  | .brk o => o.wf
  | .yield o => o.wf
  | .ld o => o.wf
  | .st o => o.wf && (o.size != 8#4 || o.data.isReg)
  | .lds o => o.wf
  | .sts o => o.wf && (o.size != 8#4 || o.data.isReg)
  | .ldc o => o.wf
  | .pref o => o.wf
  | .atom o => o.wf
  | .atoms o => o.wf
  | .phase o => o.wf
  | .fence o => o.wf
  | .pfence o => o.wf
  | .promote o => o.wf
  | .promotionRequest _ _ => true
  | .waita o => o.wf
  | .waitaSatisfied _ _ => true
  | .loadDataArrival _ _ => true
  | .copy o => o.wf
  | .copyx o => o.wf
  | .copyc o => o.wf
  | .copyt o => o.wfT
  | .copyRun _ => true
  | .tokenWaitEnd _ _ => true
  | .fork o => o.wf
  | .streamStart _ => true
  | .rdzv o => o.wf
  | .launch o => o.wf
  | .waitc o => o.wf
  | .swapDelayExpiry _ _ => true
  | .waitcResume _ _ => true
  | .cancel o => o.wf
  | .cancelBroadcast _ _ _ _ => true
  | .tcfg o => o.wf
  | .tload o => o.wf
  | .tstore o => o.wf
  | .tfill o => o.wf
  | .tdrain o => o.wf
  | .tzero o => o.wf
  | .ttrn o => o.wf
  | .tscale o => o.wf
  | .tadd o => o.wf
  | .mma o => o.wf
  | .tlatch o => o.wf
  | .tscl o => o.wfScl
  | .mstat o => o.wf
  | .operandsConsumed _ _ _ => true
  | .rewriteWindow _ => true
  | .csrr o => o.wfR
  | .csrw o => o.wf
  | .csrs o => o.wf
  | .csrc o => o.wf
  | .csrWrite _ _ _ _ => true
  | .fsel o => o.wf
  | .fget o => o.wf
  | .fset o => o.wf
  | .fresume o => o.wf
  | .replay o => o.wf
  | .tlbi o => o.wf
  | .eret o => o.wf
  | .sleep o => o.wf
  | .sleepWake _ => true
  | .rwload o => o.wf
  | .clauseHeader _ => true
  | .knitHoldExpiry _ _ => true
  | .resourceRetry _ => true
  | .resourceSwapOut _ => true
  | .watchdog _ _ => true
  | .heldTrapPush _ => true
  | .pageWalkComplete _ _ => true
  | .replayComplete _ _ => true
  | .mcHandlerEntry _ => true
  | .trapCause _ _ => true
  | .trapWindowStore _ _ => true
  | .mcEpc _ _ => true
  | .mcPtroot _ _ => true
  | .dispatchAdmit _ => true
  | .dispatchPlace _ => true
  | .tileStart _ => true
  | .launchFinish _ => true
  | .ctxDoorbell _ _ => true
  | .stealRequest _ => true
  | .stealRetryTimer _ => true
  | .stealVictim _ _ => true
  | .lentRecord _ _ _ => true
  | .stealAck _ _ => true
  | .stealNone _ => true
  | .traverseToken _ _ => true
  | .heldCompletionEntry _ => true
  | .drainNotice _ => true
  | .contextSwitch _ _ => true
  | .contextRestore _ _ => true
  | .mbDb _ _ _ => true
  | .ctxCreate _ => true
  | .ctxReset _ => true
  | .ctxDestroy _ => true
  | .objLoad _ => true
  | .measRead _ => true
  | .mbClpm _ => true
  | .haltInfo _ => true
  | .mbUnknownCmd _ => true
  | .getVersion => true
  | .getCapabilities => true
  | .negotiateAlgorithms => true
  | .getDigests => true
  | .getCertificate _ => true
  | .getMeasurements _ => true
  | .moduleReset => true
  | .clpmGo _ _ => true
  | .clpmStepDone _ => true
  | .flush _ => true
  | .flushDone _ => true
  | .estop _ _ => true
  | .dstop _ _ => true
  | .save _ => true
  | .saveDone _ => true
  | .restore _ => true
  | .restoreDone _ => true
  | .clpmWake _ => true
  | .clpmWakeMirror _ => true
  | .alwaysOnAnswer _ _ => true
  | .hostCxlMemAccess _ => true
  | .peerWrite _ _ => true
  | .peerLinkTrained _ _ => true
  | .farLinkDown _ => true
  | .farCompletionTimeout _ _ => true
  | .farRetrainDone _ => true
  | .linkCrcFail _ _ => true
  | .hbmRetrainDone _ _ _ => true
  | .scrubRead => true
  | .remapTableError _ => true
  | .tableReloadDone _ => true
  | .scrubCtl _ => true
  | .clr _ => true
  | .tileInstructionCompletion _ _ => true
  | .cancelAcknowledgement _ _ _ _ _ => true
  | .promotionReply _ _ => true
  | .unstartedRecordReturn _ _ _ => true
  | .peerWriteUndeliverable _ => true

end Sys2Proof
end

