-- ==== Sys2Proof/Decode.lean ====
section
/-!
DEFINITION. The decoder and the encoder of instruction words (05 R123-R136 and the entries of chapters 06-09).

A word decodes to one instruction, or is rejected by name: an unlisted opcode (05 R137, R138) or a field that breaks
05 R124-R132. The class of the clause it stands in is checked where the word is executed (05 R137, check 1).
-/

namespace Sys2Proof

/-- Why a word is no instruction: the cause it traps. -/
inductive DecErr where
  | illegalOpcode
  | reservedField
deriving DecidableEq, Repr

/-- 05 R123: format C. -/
structure CF where
  opc : BitVec 10
  grd : BitVec 6
  dst : BitVec 8
  sa  : BitVec 8
  sb  : BitVec 8
  sc  : BitVec 8
  mod : BitVec 16
deriving DecidableEq, Repr

def CF.ofWord (w : Word) : CF :=
  ⟨w.extractLsb' 54 10, w.extractLsb' 48 6, w.extractLsb' 40 8, w.extractLsb' 32 8, w.extractLsb' 24 8,
   w.extractLsb' 16 8, w.extractLsb' 0 16⟩

def CF.toWord (f : CF) : Word := f.opc ++ f.grd ++ f.dst ++ f.sa ++ f.sb ++ f.sc ++ f.mod

def CF.ty (f : CF) : BitVec 4 := f.mod.extractLsb' 12 4
def CF.rnd (f : CF) : BitVec 2 := f.mod.extractLsb' 10 2
def CF.opx (f : CF) : BitVec 10 := f.mod.extractLsb' 0 10

def mkMod (ty : BitVec 4) (rnd : BitVec 2) (opx : BitVec 10) : BitVec 16 := ty ++ rnd ++ opx

/-- 05 R129: format I. -/
structure IF where
  opc : BitVec 10
  grd : BitVec 6
  nwb : BitVec 1
  w   : BitVec 1
  dst : BitVec 6
  l   : BitVec 1
  s   : BitVec 1
  sa  : BitVec 6
  imm : BitVec 32
deriving DecidableEq, Repr

def IF.ofWord (w : Word) : IF :=
  ⟨w.extractLsb' 54 10, w.extractLsb' 48 6, w.extractLsb' 47 1, w.extractLsb' 46 1, w.extractLsb' 40 6,
   w.extractLsb' 39 1, w.extractLsb' 38 1, w.extractLsb' 32 6, w.extractLsb' 0 32⟩

def IF.toWord (f : IF) : Word := f.opc ++ f.grd ++ f.nwb ++ f.w ++ f.dst ++ f.l ++ f.s ++ f.sa ++ f.imm

/-- 05 R130: format M. -/
structure MF where
  opc  : BitVec 10
  grd  : BitVec 6
  dst  : BitVec 8
  base : BitVec 8
  off  : BitVec 20
  size : BitVec 4
  ord  : BitVec 2
  scp  : BitVec 2
  hnt  : BitVec 2
  res  : BitVec 2
deriving DecidableEq, Repr

def MF.ofWord (w : Word) : MF :=
  ⟨w.extractLsb' 54 10, w.extractLsb' 48 6, w.extractLsb' 40 8, w.extractLsb' 32 8, w.extractLsb' 12 20,
   w.extractLsb' 8 4, w.extractLsb' 6 2, w.extractLsb' 4 2, w.extractLsb' 2 2, w.extractLsb' 0 2⟩

def MF.toWord (f : MF) : Word :=
  f.opc ++ f.grd ++ f.dst ++ f.base ++ f.off ++ f.size ++ f.ord ++ f.scp ++ f.hnt ++ f.res

/-- 05 R131: format B. -/
structure BF where
  opc  : BitVec 10
  grd  : BitVec 6
  disp : BitVec 32
  src  : BitVec 8
  cond : BitVec 3
  w    : BitVec 1
  res  : BitVec 4
deriving DecidableEq, Repr

def BF.ofWord (w : Word) : BF :=
  ⟨w.extractLsb' 54 10, w.extractLsb' 48 6, w.extractLsb' 16 32, w.extractLsb' 8 8, w.extractLsb' 5 3,
   w.extractLsb' 4 1, w.extractLsb' 0 4⟩

def BF.toWord (f : BF) : Word := f.opc ++ f.grd ++ f.disp ++ f.src ++ f.cond ++ f.w ++ f.res

/-- 05 R132: format T. -/
structure TF where
  opc   : BitVec 10
  grd   : BitVec 6
  d     : BitVec 7
  a     : BitVec 7
  b     : BitVec 7
  c     : BitVec 7
  msk   : BitVec 5
  flags : BitVec 15
deriving DecidableEq, Repr

def TF.ofWord (w : Word) : TF :=
  ⟨w.extractLsb' 54 10, w.extractLsb' 48 6, w.extractLsb' 41 7, w.extractLsb' 34 7, w.extractLsb' 27 7,
   w.extractLsb' 20 7, w.extractLsb' 15 5, w.extractLsb' 0 15⟩

def TF.toWord (f : TF) : Word := f.opc ++ f.grd ++ f.d ++ f.a ++ f.b ++ f.c ++ f.msk ++ f.flags

/-! Fields: each parser with the encoder it undoes. -/

def Guard.of (x : BitVec 6) : Guard := ⟨x.getLsbD 5, x.extractLsb' 0 5⟩
def Guard.enc (g : Guard) : BitVec 6 := BitVec.ofBool g.neg ++ g.pred

/-- 05 R125: bit 46 must be zero. -/
def Dst.of (x : BitVec 8) : Option Dst :=
  if x.getLsbD 6 then none else some ⟨x.getLsbD 7, x.extractLsb' 0 6⟩
def Dst.enc (d : Dst) : BitVec 8 := BitVec.ofBool d.nwb ++ 0#1 ++ d.n

/-- 05 R126. -/
def Src.of6 (l : Bool) (n : BitVec 6) : Option Src :=
  if l then
    if n.toNat < 8 then some (.latch (n.extractLsb' 0 3))
    else if n == 8#6 then some .ix
    else if n == 9#6 then some .iy
    else if n == 10#6 then some .iz
    else none
  else some (.reg n)

def Src.of (x : BitVec 8) : Option Src :=
  if x.getLsbD 6 then none else Src.of6 (x.getLsbD 7) (x.extractLsb' 0 6)

def Src.enc6 : Src → BitVec 6
  | .reg n => n
  | .latch j => 0#3 ++ j
  | .ix => 8#6
  | .iy => 9#6
  | .iz => 10#6

def Src.encL : Src → Bool
  | .reg _ => false
  | _ => true

def Src.enc (s : Src) : BitVec 8 := BitVec.ofBool s.encL ++ 0#1 ++ s.enc6

/-- A source field naming a register or predicate number with L = 0 and bit 38 zero. -/
def plain6 (x : BitVec 8) : Option (BitVec 6) :=
  if x.getLsbD 6 || x.getLsbD 7 then none else some (x.extractLsb' 0 6)
def enc6 (n : BitVec 6) : BitVec 8 := 0#2 ++ n

def ITy.of (x : BitVec 4) : Option ITy :=
  match x with
  | 2#4 => some .i32
  | 3#4 => some .i64
  | 6#4 => some .n32
  | 7#4 => some .n64
  | _ => none
def ITy.enc : ITy → BitVec 4
  | .i32 => 2#4
  | .i64 => 3#4
  | .n32 => 6#4
  | .n64 => 7#4

def FTy.of (x : BitVec 4) : Option FTy :=
  match x with
  | 8#4 => some .f16
  | 9#4 => some .bf16
  | 10#4 => some .f32
  | 11#4 => some .f64
  | _ => none
def FTy.enc : FTy → BitVec 4
  | .f16 => 8#4
  | .bf16 => 9#4
  | .f32 => 10#4
  | .f64 => 11#4

def Fmt.of (x : BitVec 4) : Option Fmt :=
  match x with
  | 0#4 => some .i8
  | 1#4 => some .i16
  | 2#4 => some .i32
  | 3#4 => some .i64
  | 4#4 => some .n8
  | 5#4 => some .n16
  | 6#4 => some .n32
  | 7#4 => some .n64
  | 8#4 => some .f16
  | 9#4 => some .bf16
  | 10#4 => some .f32
  | 11#4 => some .f64
  | 12#4 => some .e4m3
  | 13#4 => some .e5m2
  | 14#4 => some .q4
  | _ => none
def Fmt.enc : Fmt → BitVec 4
  | .i8 => 0#4
  | .i16 => 1#4
  | .i32 => 2#4
  | .i64 => 3#4
  | .n8 => 4#4
  | .n16 => 5#4
  | .n32 => 6#4
  | .n64 => 7#4
  | .f16 => 8#4
  | .bf16 => 9#4
  | .f32 => 10#4
  | .f64 => 11#4
  | .e4m3 => 12#4
  | .e5m2 => 13#4
  | .q4 => 14#4

def RTy.of (x : BitVec 4) : Option RTy :=
  match x with
  | 2#4 => some .i32
  | 3#4 => some .i64
  | 6#4 => some .n32
  | 7#4 => some .n64
  | 10#4 => some .f32
  | 11#4 => some .f64
  | _ => none
def RTy.enc : RTy → BitVec 4
  | .i32 => 2#4
  | .i64 => 3#4
  | .n32 => 6#4
  | .n64 => 7#4
  | .f32 => 10#4
  | .f64 => 11#4

def Rnd.of (x : BitVec 2) : Rnd :=
  match x with
  | 0#2 => .rne
  | 1#2 => .rtz
  | 2#2 => .rup
  | _ => .rdn
def Rnd.enc : Rnd → BitVec 2
  | .rne => 0#2
  | .rtz => 1#2
  | .rup => 2#2
  | .rdn => 3#2

def Rel.of (x : BitVec 3) : Option Rel :=
  match x with
  | 0#3 => some .eq
  | 1#3 => some .ne
  | 2#3 => some .lt
  | 3#3 => some .le
  | 4#3 => some .gt
  | 5#3 => some .ge
  | _ => none
def Rel.enc : Rel → BitVec 3
  | .eq => 0#3
  | .ne => 1#3
  | .lt => 2#3
  | .le => 3#3
  | .gt => 4#3
  | .ge => 5#3

/-- 05 R131: the conditions of BRC in their own order. -/
def Rel.ofCond (x : BitVec 3) : Option Rel :=
  match x with
  | 0#3 => some .eq
  | 1#3 => some .ne
  | 2#3 => some .lt
  | 3#3 => some .ge
  | 4#3 => some .gt
  | 5#3 => some .le
  | _ => none
def Rel.encCond : Rel → BitVec 3
  | .eq => 0#3
  | .ne => 1#3
  | .lt => 2#3
  | .ge => 3#3
  | .gt => 4#3
  | .le => 5#3

def FRel.of (x : BitVec 3) : FRel :=
  match x with
  | 0#3 => .eq
  | 1#3 => .ne
  | 2#3 => .lt
  | 3#3 => .le
  | 4#3 => .gt
  | 5#3 => .ge
  | 6#3 => .un
  | _ => .ord
def FRel.enc : FRel → BitVec 3
  | .eq => 0#3
  | .ne => 1#3
  | .lt => 2#3
  | .le => 3#3
  | .gt => 4#3
  | .ge => 5#3
  | .un => 6#3
  | .ord => 7#3

/-- Fields the entry leaves unused must be zero (05 R128). -/
def req (c : Bool) : Option Unit := if c then some () else none

/-! Operand groups: a parser from the format's fields and the encoder it undoes. -/

def G.of (f : CF) : Option G := do
  req (f.dst == 0#8 && f.sa == 0#8 && f.sb == 0#8 && f.sc == 0#8 && f.mod == 0#16)
  some ⟨Guard.of f.grd⟩
def G.enc (opc : BitVec 10) (o : G) : Word := (CF.mk opc o.g.enc 0#8 0#8 0#8 0#8 0#16).toWord

def RR.of (f : CF) : Option RR := do
  req (f.sc == 0#8 && f.rnd == 0#2 && f.opx == 0#10)
  some ⟨Guard.of f.grd, ← Dst.of f.dst, ← Src.of f.sa, ← Src.of f.sb, ← ITy.of f.ty⟩
def RR.enc (opc : BitVec 10) (o : RR) : Word :=
  (CF.mk opc o.g.enc o.d.enc o.a.enc o.b.enc 0#8 (mkMod o.ty.enc 0#2 0#10)).toWord

def RI.of (f : IF) : Option RI := do
  some ⟨Guard.of f.grd, ⟨f.nwb == 1#1, f.dst⟩, ← Src.of6 (f.l == 1#1) f.sa, f.w == 1#1, f.s == 1#1, f.imm⟩
def RI.enc (opc : BitVec 10) (o : RI) : Word :=
  (IF.mk opc o.g.enc (BitVec.ofBool o.d.nwb) (BitVec.ofBool o.w) o.d.n (BitVec.ofBool o.a.encL) (BitVec.ofBool o.s)
    o.a.enc6 o.imm).toWord

def RRR.of (f : CF) : Option RRR := do
  req (f.rnd == 0#2 && f.opx == 0#10)
  some ⟨Guard.of f.grd, ← Dst.of f.dst, ← Src.of f.sa, ← Src.of f.sb, ← Src.of f.sc, ← ITy.of f.ty⟩
def RRR.enc (opc : BitVec 10) (o : RRR) : Word :=
  (CF.mk opc o.g.enc o.d.enc o.a.enc o.b.enc o.c.enc (mkMod o.ty.enc 0#2 0#10)).toWord

def R1.of (f : CF) : Option R1 := do
  req (f.sb == 0#8 && f.sc == 0#8 && f.rnd == 0#2 && f.opx == 0#10)
  some ⟨Guard.of f.grd, ← Dst.of f.dst, ← Src.of f.sa, ← ITy.of f.ty⟩
def R1.enc (opc : BitVec 10) (o : R1) : Word :=
  (CF.mk opc o.g.enc o.d.enc o.a.enc 0#8 0#8 (mkMod o.ty.enc 0#2 0#10)).toWord

/-- 06 R150. -/
def SelO.of (f : CF) : Option SelO := do
  req (f.sc == 0#8 && f.rnd == 0#2 && f.opx.extractLsb' 6 4 == 0#4)
  some ⟨Guard.of f.grd, ← Dst.of f.dst, ← Src.of f.sa, ← Src.of f.sb, ← ITy.of f.ty, f.opx.getLsbD 5, f.opx.extractLsb' 0 5⟩
def SelO.enc (opc : BitVec 10) (o : SelO) : Word :=
  (CF.mk opc o.g.enc o.d.enc o.a.enc o.b.enc 0#8 (mkMod o.ty.enc 0#2 (0#4 ++ BitVec.ofBool o.neg ++ o.p))).toWord

/-- 06 R151. -/
def CmpO.of (f : CF) : Option CmpO := do
  req (f.sc == 0#8 && f.rnd == 0#2 && f.opx.extractLsb' 3 7 == 0#7)
  some ⟨Guard.of f.grd, ← plain6 f.dst, ← Src.of f.sa, ← Src.of f.sb, ← ITy.of f.ty, ← Rel.of (f.opx.extractLsb' 0 3)⟩
def CmpO.enc (opc : BitVec 10) (o : CmpO) : Word :=
  (CF.mk opc o.g.enc (enc6 o.p) o.a.enc o.b.enc 0#8 (mkMod o.ty.enc 0#2 (0#7 ++ o.rel.enc))).toWord

def CmpIO.of (f : IF) : Option CmpIO := do
  req (f.nwb == 0#1)
  some ⟨Guard.of f.grd, f.dst, ← Src.of6 (f.l == 1#1) f.sa, f.w == 1#1, f.s == 1#1, f.imm, ← Rel.of (f.opc.extractLsb' 0 3)⟩
def CmpIO.enc (o : CmpIO) : Word :=
  (IF.mk (12#7 ++ o.rel.enc) o.g.enc 0#1 (BitVec.ofBool o.w) o.p (BitVec.ofBool o.a.encL) (BitVec.ofBool o.s) o.a.enc6
    o.imm).toWord

/-- 06 R152. -/
def MoviO.of (f : IF) : Option MoviO := do
  req (f.l == 0#1 && f.sa == 0#6)
  some ⟨Guard.of f.grd, ⟨f.nwb == 1#1, f.dst⟩, f.w == 1#1, f.s == 1#1, f.imm⟩
def MoviO.enc (opc : BitVec 10) (o : MoviO) : Word :=
  (IF.mk opc o.g.enc (BitVec.ofBool o.d.nwb) (BitVec.ofBool o.w) o.d.n 0#1 (BitVec.ofBool o.s) 0#6 o.imm).toWord

def MovhO.of (f : IF) : Option MovhO := do
  req (f.w == 1#1 && f.l == 0#1 && f.s == 0#1 && f.sa == 0#6)
  some ⟨Guard.of f.grd, ⟨f.nwb == 1#1, f.dst⟩, f.imm⟩
def MovhO.enc (opc : BitVec 10) (o : MovhO) : Word :=
  (IF.mk opc o.g.enc (BitVec.ofBool o.d.nwb) 1#1 o.d.n 0#1 0#1 0#6 o.imm).toWord

/-- 06 R153. -/
def LeaO.of (f : CF) : Option LeaO := do
  req (f.sc == 0#8 && f.rnd == 0#2 && f.opx.extractLsb' 4 6 == 0#6)
  some ⟨Guard.of f.grd, ← Dst.of f.dst, ← Src.of f.sa, ← Src.of f.sb, ← ITy.of f.ty, f.opx.extractLsb' 0 4⟩
def LeaO.enc (opc : BitVec 10) (o : LeaO) : Word :=
  (CF.mk opc o.g.enc o.d.enc o.a.enc o.b.enc 0#8 (mkMod o.ty.enc 0#2 (0#6 ++ o.sh))).toWord

def FRR.of (f : CF) : Option FRR := do
  req (f.sc == 0#8 && f.opx == 0#10)
  some ⟨Guard.of f.grd, ← Dst.of f.dst, ← Src.of f.sa, ← Src.of f.sb, ← FTy.of f.ty, Rnd.of f.rnd⟩
def FRR.enc (opc : BitVec 10) (o : FRR) : Word :=
  (CF.mk opc o.g.enc o.d.enc o.a.enc o.b.enc 0#8 (mkMod o.ty.enc o.rnd.enc 0#10)).toWord

def FRRR.of (f : CF) : Option FRRR := do
  req (f.opx == 0#10)
  some ⟨Guard.of f.grd, ← Dst.of f.dst, ← Src.of f.sa, ← Src.of f.sb, ← Src.of f.sc, ← FTy.of f.ty, Rnd.of f.rnd⟩
def FRRR.enc (opc : BitVec 10) (o : FRRR) : Word :=
  (CF.mk opc o.g.enc o.d.enc o.a.enc o.b.enc o.c.enc (mkMod o.ty.enc o.rnd.enc 0#10)).toWord

def FR1.of (f : CF) : Option FR1 := do
  req (f.sb == 0#8 && f.sc == 0#8 && f.opx == 0#10)
  some ⟨Guard.of f.grd, ← Dst.of f.dst, ← Src.of f.sa, ← FTy.of f.ty, Rnd.of f.rnd⟩
def FR1.enc (opc : BitVec 10) (o : FR1) : Word :=
  (CF.mk opc o.g.enc o.d.enc o.a.enc 0#8 0#8 (mkMod o.ty.enc o.rnd.enc 0#10)).toWord

/-- 06 R158. -/
def FCmpO.of (f : CF) : Option FCmpO := do
  req (f.sc == 0#8 && f.rnd == 0#2 && f.opx.extractLsb' 3 7 == 0#7)
  some ⟨Guard.of f.grd, ← plain6 f.dst, ← Src.of f.sa, ← Src.of f.sb, ← FTy.of f.ty, FRel.of (f.opx.extractLsb' 0 3)⟩
def FCmpO.enc (opc : BitVec 10) (o : FCmpO) : Word :=
  (CF.mk opc o.g.enc (enc6 o.p) o.a.enc o.b.enc 0#8 (mkMod o.ty.enc 0#2 (0#7 ++ o.rel.enc))).toWord

/-- 06 R162. -/
def CvtO.of (f : CF) : Option CvtO := do
  req (f.sb == 0#8 && f.sc == 0#8 && f.opx.extractLsb' 8 2 == 0#2)
  some ⟨Guard.of f.grd, ← Dst.of f.dst, ← Src.of f.sa, ← Fmt.of f.ty, ← Fmt.of (f.opx.extractLsb' 0 4), Rnd.of f.rnd,
    f.opx.getLsbD 4, f.opx.extractLsb' 5 3⟩
def CvtO.enc (opc : BitVec 10) (o : CvtO) : Word :=
  (CF.mk opc o.g.enc o.d.enc o.a.enc 0#8 0#8
    (mkMod o.ty.enc o.rnd.enc (0#2 ++ o.qsel ++ BitVec.ofBool o.ns ++ o.from_.enc))).toWord

/-- 06 R166. -/
def Dot4O.of (f : CF) : Option Dot4O := do
  req (f.opx.extractLsb' 4 6 == 0#6)
  some ⟨Guard.of f.grd, ← Dst.of f.dst, ← Src.of f.sa, ← Src.of f.sb, ← Src.of f.sc, ← Fmt.of f.ty,
    ← Fmt.of (f.opx.extractLsb' 0 4), Rnd.of f.rnd⟩
def Dot4O.enc (opc : BitVec 10) (o : Dot4O) : Word :=
  (CF.mk opc o.g.enc o.d.enc o.a.enc o.b.enc o.c.enc (mkMod o.ta.enc o.rnd.enc (0#6 ++ o.tb.enc))).toWord

/-- 07 R171. -/
def PPP.of (f : CF) : Option PPP := do
  req (f.sc == 0#8 && f.ty == 0#4 && f.rnd == 0#2 && f.opx.extractLsb' 2 8 == 0#8)
  some ⟨Guard.of f.grd, ← plain6 f.dst, ← plain6 f.sa, ← plain6 f.sb, f.opx.getLsbD 0, f.opx.getLsbD 1⟩
def PPP.enc (opc : BitVec 10) (o : PPP) : Word :=
  (CF.mk opc o.g.enc (enc6 o.p) (enc6 o.a) (enc6 o.b) 0#8
    (mkMod 0#4 0#2 (0#8 ++ BitVec.ofBool o.nb ++ BitVec.ofBool o.na))).toWord

def PP.of (f : CF) : Option PP := do
  req (f.sb == 0#8 && f.sc == 0#8 && f.ty == 0#4 && f.rnd == 0#2 && f.opx.extractLsb' 1 9 == 0#9)
  some ⟨Guard.of f.grd, ← plain6 f.dst, ← plain6 f.sa, f.opx.getLsbD 0⟩
def PP.enc (opc : BitVec 10) (o : PP) : Word :=
  (CF.mk opc o.g.enc (enc6 o.p) (enc6 o.a) 0#8 0#8 (mkMod 0#4 0#2 (0#9 ++ BitVec.ofBool o.na))).toWord

/-- 07 R169: these instructions have the always guard. -/
def alwaysG (f : CF) : Bool := f.grd == 31#6

/-- 07 R172. -/
def VoteO.of (f : CF) : Option VoteO := do
  req (alwaysG f && f.sc == 0#8 && f.ty == 0#4 && f.rnd == 0#2 && f.opx.extractLsb' 1 9 == 0#9)
  some ⟨← plain6 f.dst, ← plain6 f.sa, f.opx.getLsbD 0, ← Src.of f.sb⟩
def VoteO.enc (opc : BitVec 10) (o : VoteO) : Word :=
  (CF.mk opc 31#6 (enc6 o.p) (enc6 o.a) o.key.enc 0#8 (mkMod 0#4 0#2 (0#9 ++ BitVec.ofBool o.na))).toWord

def PcntO.of (f : CF) : Option PcntO := do
  req (alwaysG f && f.sc == 0#8 && f.ty == 7#4 && f.rnd == 0#2 && f.opx.extractLsb' 1 9 == 0#9)
  some ⟨← Dst.of f.dst, ← plain6 f.sa, f.opx.getLsbD 0, ← Src.of f.sb⟩
def PcntO.enc (opc : BitVec 10) (o : PcntO) : Word :=
  (CF.mk opc 31#6 o.d.enc (enc6 o.a) o.key.enc 0#8 (mkMod 7#4 0#2 (0#9 ++ BitVec.ofBool o.na))).toWord

/-- 07 R173, R174. -/
def SelOut.of (f : CF) : Option SelOut := do
  req (f.sa == 0#8 && f.sb == 0#8 && f.sc == 0#8 && f.ty == 0#4 && f.rnd == 0#2 && f.opx.extractLsb' 3 7 == 0#7)
  some ⟨Guard.of f.grd, ← Dst.of f.dst, f.opx.extractLsb' 0 3⟩
def SelOut.enc (opc : BitVec 10) (o : SelOut) : Word :=
  (CF.mk opc o.g.enc o.d.enc 0#8 0#8 0#8 (mkMod 0#4 0#2 (0#7 ++ o.sel))).toWord

/-- 07 R175. -/
def FormWhat.of (x : BitVec 2) : Option FormWhat :=
  match x with
  | 0#2 => some .tag
  | 1#2 => some .predForm
  | 3#2 => some .threshold
  | _ => none
def FormWhat.enc : FormWhat → BitVec 2
  | .tag => 0#2
  | .predForm => 1#2
  | .threshold => 3#2
def FormO.of (f : CF) : Option FormO := do
  req (f.sb == 0#8 && f.sc == 0#8 && f.ty == 0#4 && f.rnd == 0#2 && f.opx.extractLsb' 2 8 == 0#8)
  some ⟨Guard.of f.grd, ← Dst.of f.dst, ← FormWhat.of (f.opx.extractLsb' 0 2), ← plain6 f.sa⟩
def FormO.enc (opc : BitVec 10) (o : FormO) : Word :=
  (CF.mk opc o.g.enc o.d.enc (enc6 o.n) 0#8 0#8 (mkMod 0#4 0#2 (0#8 ++ o.what.enc))).toWord

/-- An optional register operand marked by OPX[0] (07 R176, R206). -/
def optReg (present : Bool) (x : BitVec 8) : Option (Option (BitVec 6)) :=
  if present then (plain6 x).map some else if x == 0#8 then some none else none
def encOptReg : Option (BitVec 6) → BitVec 8
  | some n => enc6 n
  | none => 0#8

/-- 07 R176. -/
def ExpandO.of (f : CF) : Option ExpandO := do
  req (f.dst == 0#8 && f.sb == 0#8 && f.sc == 0#8 && f.ty == 0#4 && f.rnd == 0#2 && f.opx.extractLsb' 1 9 == 0#9)
  some ⟨Guard.of f.grd, ← optReg (f.opx.getLsbD 0) f.sa⟩
def ExpandO.enc (opc : BitVec 10) (o : ExpandO) : Word :=
  (CF.mk opc o.g.enc 0#8 (encOptReg o.r) 0#8 0#8 (mkMod 0#4 0#2 (0#9 ++ BitVec.ofBool o.r.isSome))).toWord

/-- 07 R177. -/
def SplitO.of (f : CF) : Option SplitO := do
  req (alwaysG f && f.dst == 0#8 && f.sb == 0#8 && f.sc == 0#8 && f.ty == 0#4 && f.rnd == 0#2
    && f.opx.extractLsb' 1 9 == 0#9)
  some ⟨← plain6 f.sa, f.opx.getLsbD 0⟩
def SplitO.enc (opc : BitVec 10) (o : SplitO) : Word :=
  (CF.mk opc 31#6 0#8 (enc6 o.p) 0#8 0#8 (mkMod 0#4 0#2 (0#9 ++ BitVec.ofBool o.neg))).toWord

/-- 07 R178. -/
def PeelO.of (f : CF) : Option PeelO := do
  req (f.sb == 0#8 && f.sc == 0#8 && f.rnd == 0#2 && f.opx == 0#10)
  some ⟨Guard.of f.grd, ← plain6 f.dst, ← plain6 f.sa, ← ITy.of f.ty⟩
def PeelO.enc (opc : BitVec 10) (o : PeelO) : Word :=
  (CF.mk opc o.g.enc (enc6 o.p) (enc6 o.a) 0#8 0#8 (mkMod o.ty.enc 0#2 0#10)).toWord

/-- 07 R179. -/
def FnewO.of (f : CF) : Option FnewO := do
  req (f.dst == 0#8 && f.sc == 0#8 && f.ty == 0#4 && f.rnd == 0#2 && f.opx.extractLsb' 3 7 == 0#7)
  some ⟨Guard.of f.grd, ← Src.of f.sa, ← plain6 f.sb, f.opx.extractLsb' 0 3⟩
def FnewO.enc (opc : BitVec 10) (o : FnewO) : Word :=
  (CF.mk opc o.g.enc 0#8 o.a.enc (enc6 o.b) 0#8 (mkMod 0#4 0#2 (0#7 ++ o.win))).toWord

/-- 07 R181. -/
def SjoinO.of (f : CF) : Option SjoinO := do
  req (alwaysG f && f.sb == 0#8 && f.sc == 0#8 && f.mod == 0#16)
  some ⟨← plain6 f.dst, ← Src.of f.sa⟩
def SjoinO.enc (opc : BitVec 10) (o : SjoinO) : Word :=
  (CF.mk opc 31#6 (enc6 o.p) o.key.enc 0#8 0#8 0#16).toWord

def KeyO.of (f : CF) : Option KeyO := do
  req (alwaysG f && f.dst == 0#8 && f.sb == 0#8 && f.sc == 0#8 && f.mod == 0#16)
  some ⟨← Src.of f.sa⟩
def KeyO.enc (opc : BitVec 10) (o : KeyO) : Word := (CF.mk opc 31#6 0#8 o.key.enc 0#8 0#8 0#16).toWord

/-- 07 R182. -/
def RedO.of (f : CF) : Option RedO := do
  req (f.dst == 0#8 && f.sb == 0#8 && f.sc == 0#8 && f.rnd == 0#2 && f.opx.extractLsb' 5 5 == 0#5)
  some ⟨Guard.of f.grd, ← Src.of f.sa, ← RTy.of f.ty, f.opx.extractLsb' 0 4, f.opx.getLsbD 4⟩
def RedO.enc (opc : BitVec 10) (o : RedO) : Word :=
  (CF.mk opc o.g.enc 0#8 o.a.enc 0#8 0#8 (mkMod o.ty.enc 0#2 (0#5 ++ BitVec.ofBool o.set ++ o.s))).toWord

/-- 07 R183. -/
def RdsumO.of (f : CF) : Option RdsumO := do
  req (f.sb == 0#8 && f.sc == 0#8 && f.rnd == 0#2 && f.opx.extractLsb' 4 6 == 0#6)
  some ⟨Guard.of f.grd, ← Dst.of f.dst, ← Src.of f.sa, ← RTy.of f.ty, f.opx.extractLsb' 0 4⟩
def RdsumO.enc (opc : BitVec 10) (o : RdsumO) : Word :=
  (CF.mk opc o.g.enc o.d.enc o.a.enc 0#8 0#8 (mkMod o.ty.enc 0#2 (0#6 ++ o.s))).toWord

/-- 07 R185: an immediate lane operand stands in OPX[9:5] with OPX[4] set and SB zero. -/
def LaneSel.of (imm : Bool) (y : BitVec 5) (sb : BitVec 8) : Option LaneSel :=
  if imm then (if sb == 0#8 then some (.imm y) else none)
  else if y == 0#5 then (Src.of sb).map .src else none
def LaneSel.encY : LaneSel → BitVec 5
  | .src _ => 0#5
  | .imm y => y
def LaneSel.encSb : LaneSel → BitVec 8
  | .src s => s.enc
  | .imm _ => 0#8
def LaneSel.isImm : LaneSel → Bool
  | .src _ => false
  | .imm _ => true
def ShflO.of (f : CF) : Option ShflO := do
  req (f.sc == 0#8 && f.ty == 6#4 && f.rnd == 0#2 && f.opx.extractLsb' 2 2 == 0#2)
  some ⟨Guard.of f.grd, ← Dst.of f.dst, ← Src.of f.sa, ← LaneSel.of (f.opx.getLsbD 4) (f.opx.extractLsb' 5 5) f.sb,
    f.opx.extractLsb' 0 2⟩
def ShflO.enc (opc : BitVec 10) (o : ShflO) : Word :=
  (CF.mk opc o.g.enc o.d.enc o.a.enc o.y.encSb 0#8
    (mkMod 6#4 0#2 (o.y.encY ++ BitVec.ofBool o.y.isImm ++ 0#2 ++ o.mode))).toWord

/-- 05 R131. -/
def BrO.of (f : BF) : Option BrO := do
  req (f.src == 0#8 && f.cond == 0#3 && f.w == 0#1 && f.res == 0#4)
  some ⟨Guard.of f.grd, f.disp⟩
def BrO.enc (opc : BitVec 10) (o : BrO) : Word := (BF.mk opc o.g.enc o.disp 0#8 0#3 0#1 0#4).toWord

def BrcO.of (f : BF) : Option BrcO := do
  req (f.res == 0#4)
  some ⟨Guard.of f.grd, ← Src.of f.src, ← Rel.ofCond f.cond, f.w == 1#1, f.disp⟩
def BrcO.enc (opc : BitVec 10) (o : BrcO) : Word :=
  (BF.mk opc o.g.enc o.disp o.a.enc o.rel.encCond (BitVec.ofBool o.w) 0#4).toWord

def JmpO.of (f : CF) : Option JmpO := do
  req (f.dst == 0#8 && f.sb == 0#8 && f.sc == 0#8 && f.mod == 0#16)
  some ⟨Guard.of f.grd, ← Src.of f.sa⟩
def JmpO.enc (opc : BitVec 10) (o : JmpO) : Word := (CF.mk opc o.g.enc 0#8 o.a.enc 0#8 0#8 0#16).toWord

def CodeO.of (f : CF) : Option CodeO := do
  req (f.dst == 0#8 && f.sa == 0#8 && f.sb == 0#8 && f.sc == 0#8 && f.ty == 0#4 && f.rnd == 0#2)
  some ⟨Guard.of f.grd, f.opx⟩
def CodeO.enc (opc : BitVec 10) (o : CodeO) : Word :=
  (CF.mk opc o.g.enc 0#8 0#8 0#8 0#8 (mkMod 0#4 0#2 o.code)).toWord

/-- 05 R130. -/
def LdO.of (f : MF) : Option LdO := do
  req (f.res == 0#2)
  some ⟨Guard.of f.grd, ← Dst.of f.dst, ← Src.of f.base, f.off, f.size, f.ord, f.scp, f.hnt⟩
def LdO.enc (opc : BitVec 10) (o : LdO) : Word :=
  (MF.mk opc o.g.enc o.d.enc o.base.enc o.off o.size o.ord o.scp o.hnt 0#2).toWord

/-- 05 R130: the data source has its L in bit 46 and a zero bit 47. -/
def StO.dataOf (x : BitVec 8) : Option Src :=
  if x.getLsbD 7 then none else Src.of6 (x.getLsbD 6) (x.extractLsb' 0 6)
def StO.dataEnc (s : Src) : BitVec 8 := 0#1 ++ BitVec.ofBool s.encL ++ s.enc6
def StO.of (f : MF) : Option StO := do
  req (f.res == 0#2)
  some ⟨Guard.of f.grd, ← StO.dataOf f.dst, ← Src.of f.base, f.off, f.size, f.ord, f.scp, f.hnt⟩
def StO.enc (opc : BitVec 10) (o : StO) : Word :=
  (MF.mk opc o.g.enc (StO.dataEnc o.data) o.base.enc o.off o.size o.ord o.scp o.hnt 0#2).toWord

/-- 08 R211: BASE 0x40 is a base of zero. -/
def LdcO.baseOf (x : BitVec 8) : Option (Option Src) :=
  if x == 0x40#8 then some none else (Src.of x).map some
def LdcO.baseEnc : Option Src → BitVec 8
  | none => 0x40#8
  | some s => s.enc
def LdcO.of (f : MF) : Option LdcO := do
  req (f.res == 0#2 && f.ord == 0#2 && f.scp == 0#2 && f.hnt == 0#2)
  some ⟨Guard.of f.grd, ← Dst.of f.dst, ← LdcO.baseOf f.base, f.off, f.size⟩
def LdcO.enc (opc : BitVec 10) (o : LdcO) : Word :=
  (MF.mk opc o.g.enc o.d.enc (LdcO.baseEnc o.base) o.off o.size 0#2 0#2 0#2 0#2).toWord

/-- 08 R216. -/
def PrefO.of (f : MF) : Option PrefO := do
  req (f.res == 0#2 && f.dst == 0#8 && f.size == 0#4 && f.ord == 0#2 && f.scp == 0#2)
  some ⟨Guard.of f.grd, ← Src.of f.base, f.off, f.hnt⟩
def PrefO.enc (opc : BitVec 10) (o : PrefO) : Word :=
  (MF.mk opc o.g.enc 0#8 o.base.enc o.off 0#4 0#2 0#2 o.hnt 0#2).toWord

/-- 08 R217. -/
def AtomO.of (f : CF) : Option AtomO := do
  req (f.rnd == 0#2 && !(f.opx.getLsbD 1) && !(f.opx.getLsbD 0))
  let w16 := f.opx.getLsbD 2
  some ⟨Guard.of f.grd, ← Dst.of f.dst, ← Src.of f.sa, ← Src.of f.sb, ← Src.of f.sc, ← ITy.of f.ty,
    f.opx.extractLsb' 7 3, f.opx.extractLsb' 5 2, f.opx.extractLsb' 3 2, w16⟩
def AtomO.enc (opc : BitVec 10) (o : AtomO) : Word :=
  (CF.mk opc o.g.enc o.d.enc o.a.enc o.b.enc o.c.enc
    (mkMod o.ty.enc 0#2 (o.op ++ o.ord ++ o.scp ++ BitVec.ofBool o.w16 ++ 0#2))).toWord

/-- 08 R220. -/
def FenceO.of (f : CF) : Option FenceO := do
  req (f.dst == 0#8 && f.sa == 0#8 && f.sb == 0#8 && f.sc == 0#8 && f.ty == 0#4 && f.rnd == 0#2
    && f.opx.extractLsb' 4 6 == 0#6)
  some ⟨Guard.of f.grd, f.opx.extractLsb' 0 2, f.opx.extractLsb' 2 2⟩
def FenceO.enc (opc : BitVec 10) (o : FenceO) : Word :=
  (CF.mk opc o.g.enc 0#8 0#8 0#8 0#8 (mkMod 0#4 0#2 (0#6 ++ o.scp ++ o.ord))).toWord

/-- 08 R221. -/
def PfenceO.of (f : CF) : Option PfenceO := do
  req (f.dst == 0#8 && f.sa == 0#8 && f.sb == 0#8 && f.sc == 0#8 && f.ty == 0#4 && f.rnd == 0#2
    && f.opx.extractLsb' 8 2 == 0#2)
  some ⟨Guard.of f.grd, f.opx.extractLsb' 0 4, f.opx.extractLsb' 4 4⟩
def PfenceO.enc (opc : BitVec 10) (o : PfenceO) : Word :=
  (CF.mk opc o.g.enc 0#8 0#8 0#8 0#8 (mkMod 0#4 0#2 (0#2 ++ o.cons ++ o.prod))).toWord

/-- 08 R223. -/
def WaitaO.of (f : CF) : Option WaitaO := do
  req (f.dst == 0#8 && f.sc == 0#8 && (f.ty == 6#4 || f.ty == 7#4) && f.rnd == 0#2 && f.opx.extractLsb' 5 5 == 0#5)
  some ⟨Guard.of f.grd, ← Src.of f.sa, ← Src.of f.sb, f.ty == 7#4, f.opx.extractLsb' 0 2, f.opx.getLsbD 2,
    f.opx.extractLsb' 3 2⟩
def WaitaO.enc (opc : BitVec 10) (o : WaitaO) : Word :=
  (CF.mk opc o.g.enc 0#8 o.a.enc o.b.enc 0#8
    (mkMod (if o.w64 then 7#4 else 6#4) 0#2 (0#5 ++ o.scp ++ BitVec.ofBool o.spad ++ o.rel))).toWord

/-- 08 R227, R228. -/
def CopyO.ofOpx (f : CF) : Option CopyO := do
  req (f.dst == 0#8 && f.sb == 0#8 && f.sc == 0#8 && f.rnd == 0#2)
  some ⟨Guard.of f.grd, ← plain6 f.sa, f.opx.extractLsb' 0 3, f.opx.extractLsb' 3 2, f.opx.extractLsb' 5 2,
    f.opx.getLsbD 7, f.opx.extractLsb' 8 2⟩
def CopyO.encTy (opc : BitVec 10) (ty : BitVec 4) (o : CopyO) : Word :=
  (CF.mk opc o.g.enc 0#8 (enc6 o.grp) 0#8 0#8
    (mkMod ty 0#2 (o.gran ++ BitVec.ofBool o.cwsp ++ o.outsp ++ o.insp ++ o.tok))).toWord
def CopyO.of (f : CF) : Option CopyO := do
  req (f.ty == 0#4)
  CopyO.ofOpx f
def CopyO.enc (opc : BitVec 10) (o : CopyO) : Word := o.encTy opc 0#4
def CopyFO.of (f : CF) : Option CopyFO := do
  some ⟨← CopyO.ofOpx f, ← Fmt.of f.ty⟩
def CopyFO.enc (opc : BitVec 10) (o : CopyFO) : Word := o.c.encTy opc o.fmt.enc

/-- 08 R227, R235. -/
def ForkO.of (f : CF) : Option ForkO := do
  req (f.dst == 0#8 && f.sc == 0#8 && f.ty == 0#4 && f.rnd == 0#2 && f.opx.extractLsb' 3 7 == 0#7)
  some ⟨Guard.of f.grd, ← Src.of f.sa, ← plain6 f.sb, f.opx.extractLsb' 0 3⟩
def ForkO.enc (opc : BitVec 10) (o : ForkO) : Word :=
  (CF.mk opc o.g.enc 0#8 o.a.enc (enc6 o.b) 0#8 (mkMod 0#4 0#2 (0#7 ++ o.cnt))).toWord

/-- 08 R237. -/
def LaunchO.of (f : CF) : Option LaunchO := do
  req (f.sb == 0#8 && f.sc == 0#8 && f.ty == 0#4 && f.rnd == 0#2 && f.opx.extractLsb' 1 9 == 0#9)
  some ⟨Guard.of f.grd, f.opx.getLsbD 0, ← plain6 f.dst, ← Src.of f.sa⟩
def LaunchO.enc (opc : BitVec 10) (o : LaunchO) : Word :=
  (CF.mk opc o.g.enc (enc6 o.p) o.a.enc 0#8 0#8 (mkMod 0#4 0#2 (0#9 ++ BitVec.ofBool o.nb))).toWord

def WaitcO.of (f : CF) : Option WaitcO := do
  req (f.dst == 0#8 && f.sc == 0#8 && f.mod == 0#16)
  some ⟨Guard.of f.grd, ← Src.of f.sa, ← Src.of f.sb⟩
def WaitcO.enc (opc : BitVec 10) (o : WaitcO) : Word :=
  (CF.mk opc o.g.enc 0#8 o.a.enc o.b.enc 0#8 0#16).toWord

/-- 09 R249. -/
def TcfgO.of (f : TF) : Option TcfgO := do
  req (f.d == 0#7 && f.a == 0#7 && f.b == 0#7 && f.c == 0#7 && f.flags == 0#15)
  some ⟨Guard.of f.grd, f.msk⟩
def TcfgO.enc (opc : BitVec 10) (o : TcfgO) : Word := (TF.mk opc o.g.enc 0#7 0#7 0#7 0#7 o.msk 0#15).toWord

/-- 09 R251, R254: SP in FLAGS[14], ESZ in FLAGS[13:12]; TLOAD and TSCL name the tile in D, TSTORE in A. -/
def TmemO.of (inA : Bool) (f : TF) : Option TmemO := do
  req ((if inA then f.d else f.a) == 0#7 && f.b == 0#7 && f.c == 0#7 && f.flags.extractLsb' 0 12 == 0#12)
  some ⟨Guard.of f.grd, if inA then f.a else f.d, f.msk, f.flags.getLsbD 14, f.flags.extractLsb' 12 2⟩
def TmemO.enc (inA : Bool) (opc : BitVec 10) (o : TmemO) : Word :=
  (TF.mk opc o.g.enc (if inA then 0#7 else o.t) (if inA then o.t else 0#7) 0#7 0#7 o.msk
    (BitVec.ofBool o.sp ++ o.esz ++ 0#12)).toWord

/-- 09 R255: TFILL has the group in SA and the row in SB; TDRAIN the group in DST and the row in SA. -/
def TfillO.of (drain : Bool) (f : CF) : Option TfillO := do
  req (f.sc == 0#8 && f.ty == 0#4 && f.rnd == 0#2 && (if drain then f.sb else f.dst) == 0#8)
  some ⟨Guard.of f.grd, ← plain6 (if drain then f.dst else f.sa), ← Src.of (if drain then f.sa else f.sb),
    f.opx.extractLsb' 0 7, f.opx.extractLsb' 7 3⟩
def TfillO.enc (drain : Bool) (opc : BitVec 10) (o : TfillO) : Word :=
  (CF.mk opc o.g.enc (if drain then enc6 o.grp else 0#8) (if drain then o.row.enc else enc6 o.grp)
    (if drain then 0#8 else o.row.enc) 0#8 (mkMod 0#4 0#2 (o.chunk ++ o.tile))).toWord

/-- 09 R257 (tile in D), R271 (tile in B). -/
def TileO.of (inB : Bool) (f : TF) : Option TileO := do
  req ((if inB then f.d else f.b) == 0#7 && f.a == 0#7 && f.c == 0#7 && f.msk == 0#5 && f.flags == 0#15)
  some ⟨Guard.of f.grd, if inB then f.b else f.d⟩
def TileO.enc (inB : Bool) (opc : BitVec 10) (o : TileO) : Word :=
  (TF.mk opc o.g.enc (if inB then 0#7 else o.t) 0#7 (if inB then o.t else 0#7) 0#7 0#5 0#15).toWord

/-- 09 R258. -/
def TtrnO.of (f : TF) : Option TtrnO := do
  req (f.b == 0#7 && f.c == 0#7 && f.msk == 0#5 && !(f.flags.getLsbD 14) && f.flags.extractLsb' 0 12 == 0#12)
  some ⟨Guard.of f.grd, f.d, f.a, f.flags.extractLsb' 12 2⟩
def TtrnO.enc (opc : BitVec 10) (o : TtrnO) : Word :=
  (TF.mk opc o.g.enc o.d o.a 0#7 0#7 0#5 (0#1 ++ o.esz ++ 0#12)).toWord

/-- 09 R259. -/
def TscaleO.of (f : TF) : Option TscaleO := do
  req (f.b == 0#7 && f.c == 0#7 && f.msk == 0#5 && f.flags.extractLsb' 5 2 == 0#2 && !(f.flags.getLsbD 0))
  some ⟨Guard.of f.grd, f.d, f.a, f.flags.extractLsb' 7 8, f.flags.extractLsb' 1 4⟩
def TscaleO.enc (opc : BitVec 10) (o : TscaleO) : Word :=
  (TF.mk opc o.g.enc o.d o.a 0#7 0#7 0#5 (o.exp ++ 0#2 ++ o.fmt ++ 0#1)).toWord

/-- 09 R260. -/
def TaddO.of (f : TF) : Option TaddO := do
  req (f.c == 0#7 && f.msk == 0#5 && !(f.flags.getLsbD 14) && f.flags.extractLsb' 0 12 == 0#12)
  some ⟨Guard.of f.grd, f.d, f.a, f.b, f.flags.getLsbD 13, f.flags.getLsbD 12⟩
def TaddO.enc (opc : BitVec 10) (o : TaddO) : Word :=
  (TF.mk opc o.g.enc o.d o.a o.b 0#7 0#5 (0#1 ++ BitVec.ofBool o.na ++ BitVec.ofBool o.nb ++ 0#12)).toWord

/-- 05 R132, 09 R261. -/
def MmaO.of (f : TF) : Option MmaO := some ⟨Guard.of f.grd, f.d, f.a, f.b, f.c, f.msk, f.flags⟩
def MmaO.enc (opc : BitVec 10) (o : MmaO) : Word := (TF.mk opc o.g.enc o.d o.a o.b o.c o.msk o.flags).toWord

/-- 09 R273. -/
def MstatO.of (f : CF) : Option MstatO := do
  req (f.sa == 0#8 && f.sb == 0#8 && f.sc == 0#8 && f.ty == 7#4 && f.rnd == 0#2 && f.opx.extractLsb' 1 9 == 0#9)
  some ⟨Guard.of f.grd, ← Dst.of f.dst, f.opx.getLsbD 0⟩
def MstatO.enc (opc : BitVec 10) (o : MstatO) : Word :=
  (CF.mk opc o.g.enc o.d.enc 0#8 0#8 0#8 (mkMod 7#4 0#2 (0#9 ++ BitVec.ofBool o.clr))).toWord

/-- 07 R197: MOD holds TYPE and the CSR number. -/
def CsrO.of (f : CF) : Option CsrO := do
  req (f.sb == 0#8 && f.sc == 0#8 && (f.ty == 6#4 || f.ty == 7#4))
  some ⟨Guard.of f.grd, ← Dst.of f.dst, ← Src.of f.sa, f.mod.extractLsb' 0 12, f.ty == 7#4⟩
def CsrO.enc (opc : BitVec 10) (o : CsrO) : Word :=
  (CF.mk opc o.g.enc o.d.enc o.a.enc 0#8 0#8 ((if o.w64 then 7#4 else 6#4) ++ o.csr)).toWord

/-- 07 R204-R208. -/
def FselO.of (f : CF) : Option FselO := do
  req (f.sb == 0#8 && f.sc == 0#8 && f.mod == 0#16)
  some ⟨Guard.of f.grd, ← plain6 f.dst, ← Src.of f.sa⟩
def FselO.enc (opc : BitVec 10) (o : FselO) : Word :=
  (CF.mk opc o.g.enc (enc6 o.p) o.a.enc 0#8 0#8 0#16).toWord

def FgetO.of (f : CF) : Option FgetO := do
  req (f.sb == 0#8 && f.sc == 0#8 && f.mod == 0#16)
  some ⟨Guard.of f.grd, ← Dst.of f.dst, ← Src.of f.sa⟩
def FgetO.enc (opc : BitVec 10) (o : FgetO) : Word :=
  (CF.mk opc o.g.enc o.d.enc o.a.enc 0#8 0#8 0#16).toWord

def FsetO.of (f : CF) : Option FsetO := do
  req (f.sc == 0#8 && f.mod == 0#16)
  some ⟨Guard.of f.grd, ← plain6 f.dst, ← Src.of f.sa, ← Src.of f.sb⟩
def FsetO.enc (opc : BitVec 10) (o : FsetO) : Word :=
  (CF.mk opc o.g.enc (enc6 o.p) o.a.enc o.b.enc 0#8 0#16).toWord

def FresumeO.of (f : CF) : Option FresumeO := do
  req (f.sb == 0#8 && f.sc == 0#8 && f.ty == 0#4 && f.rnd == 0#2 && f.opx.extractLsb' 1 9 == 0#9)
  some ⟨Guard.of f.grd, ← plain6 f.dst, ← optReg (f.opx.getLsbD 0) f.sa⟩
def FresumeO.enc (opc : BitVec 10) (o : FresumeO) : Word :=
  (CF.mk opc o.g.enc (enc6 o.p) (encOptReg o.part) 0#8 0#8 (mkMod 0#4 0#2 (0#9 ++ BitVec.ofBool o.part.isSome))).toWord

def ReplayO.of (f : CF) : Option ReplayO := do
  req (f.sa == 0#8 && f.sb == 0#8 && f.sc == 0#8 && f.ty == 0#4 && f.rnd == 0#2 && f.opx.extractLsb' 1 9 == 0#9)
  some ⟨Guard.of f.grd, ← plain6 f.dst, f.opx.getLsbD 0⟩
def ReplayO.enc (opc : BitVec 10) (o : ReplayO) : Word :=
  (CF.mk opc o.g.enc (enc6 o.p) 0#8 0#8 0#8 (mkMod 0#4 0#2 (0#9 ++ BitVec.ofBool o.core))).toWord

def TlbiO.of (f : CF) : Option TlbiO := do
  req (f.dst == 0#8 && f.sc == 0#8 && f.ty == 0#4 && f.rnd == 0#2 && f.opx.extractLsb' 2 8 == 0#8)
  some ⟨Guard.of f.grd, f.opx.extractLsb' 0 2, ← Src.of f.sa, ← Src.of f.sb⟩
def TlbiO.enc (opc : BitVec 10) (o : TlbiO) : Word :=
  (CF.mk opc o.g.enc 0#8 o.a.enc o.b.enc 0#8 (mkMod 0#4 0#2 (0#8 ++ o.sel))).toWord

/-- 09 R275. -/
def RwloadO.of (f : CF) : Option RwloadO := do
  req (f.sb == 0#8 && f.sc == 0#8 && f.ty == 0#4 && f.rnd == 0#2 && f.opx.extractLsb' 1 9 == 0#9)
  some ⟨Guard.of f.grd, ← Dst.of f.dst, ← Src.of f.sa, f.opx.getLsbD 0⟩
def RwloadO.enc (opc : BitVec 10) (o : RwloadO) : Word :=
  (CF.mk opc o.g.enc o.d.enc o.a.enc 0#8 0#8 (mkMod 0#4 0#2 (0#9 ++ BitVec.ofBool o.dflt))).toWord

/-- 05 R136: the instruction an opcode names, its fields parsed; `none` for an unlisted opcode, `some none` for a field that
no entry lists. -/
def decodeOp (opc : Nat) (w : Word) : Option (Option Instr) :=
  match opc with
  | 0x000 => some (some .illegal)
  | 0x001 => some ((G.of (CF.ofWord w)).map .nop)
  | 0x002 => some ((RR.of (CF.ofWord w)).map .iadd)
  | 0x003 => some ((RR.of (CF.ofWord w)).map .isub)
  | 0x004 => some ((RR.of (CF.ofWord w)).map .imul)
  | 0x005 => some ((RR.of (CF.ofWord w)).map .imulh)
  | 0x006 => some ((RR.of (CF.ofWord w)).map .imulw)
  | 0x007 => some ((RRR.of (CF.ofWord w)).map .imad)
  | 0x008 => some ((R1.of (CF.ofWord w)).map .ineg)
  | 0x009 => some ((R1.of (CF.ofWord w)).map .iabs)
  | 0x00A => some ((RR.of (CF.ofWord w)).map .imin)
  | 0x00B => some ((RR.of (CF.ofWord w)).map .imax)
  | 0x00C => some ((RR.of (CF.ofWord w)).map .shl)
  | 0x00D => some ((RR.of (CF.ofWord w)).map .shr)
  | 0x00E => some ((RR.of (CF.ofWord w)).map .sar)
  | 0x00F => some ((RR.of (CF.ofWord w)).map .and_)
  | 0x010 => some ((RR.of (CF.ofWord w)).map .or_)
  | 0x011 => some ((RR.of (CF.ofWord w)).map .xor_)
  | 0x012 => some ((R1.of (CF.ofWord w)).map .not_)
  | 0x013 => some ((RR.of (CF.ofWord w)).map .andn)
  | 0x014 => some ((R1.of (CF.ofWord w)).map .clz)
  | 0x015 => some ((R1.of (CF.ofWord w)).map .popc)
  | 0x016 => some ((R1.of (CF.ofWord w)).map .brev)
  | 0x017 => some ((RR.of (CF.ofWord w)).map .bfx)
  | 0x018 => some ((RRR.of (CF.ofWord w)).map .bfi)
  | 0x019 => some ((SelO.of (CF.ofWord w)).map .sel)
  | 0x01A => some ((CmpO.of (CF.ofWord w)).map .icmp)
  | 0x01B => some ((R1.of (CF.ofWord w)).map .mov)
  | 0x01C => some ((MoviO.of (IF.ofWord w)).map .movi)
  | 0x01D => some ((MovhO.of (IF.ofWord w)).map .movh)
  | 0x01E => some ((LeaO.of (CF.ofWord w)).map .lea)
  | 0x042 => some ((RI.of (IF.ofWord w)).map .iaddImm)
  | 0x043 => some ((RI.of (IF.ofWord w)).map .isubImm)
  | 0x044 => some ((RI.of (IF.ofWord w)).map .imulImm)
  | 0x045 => some ((RI.of (IF.ofWord w)).map .imulhImm)
  | 0x046 => some ((RI.of (IF.ofWord w)).map .imulwImm)
  | 0x04A => some ((RI.of (IF.ofWord w)).map .iminImm)
  | 0x04B => some ((RI.of (IF.ofWord w)).map .imaxImm)
  | 0x04C => some ((RI.of (IF.ofWord w)).map .shlImm)
  | 0x04D => some ((RI.of (IF.ofWord w)).map .shrImm)
  | 0x04E => some ((RI.of (IF.ofWord w)).map .sarImm)
  | 0x04F => some ((RI.of (IF.ofWord w)).map .andImm)
  | 0x050 => some ((RI.of (IF.ofWord w)).map .orImm)
  | 0x051 => some ((RI.of (IF.ofWord w)).map .xorImm)
  | 0x053 => some ((RI.of (IF.ofWord w)).map .andnImm)
  | 0x060 => some ((CmpIO.of (IF.ofWord w)).map .icmpImm)
  | 0x061 => some ((CmpIO.of (IF.ofWord w)).map .icmpImm)
  | 0x062 => some ((CmpIO.of (IF.ofWord w)).map .icmpImm)
  | 0x063 => some ((CmpIO.of (IF.ofWord w)).map .icmpImm)
  | 0x064 => some ((CmpIO.of (IF.ofWord w)).map .icmpImm)
  | 0x065 => some ((CmpIO.of (IF.ofWord w)).map .icmpImm)
  | 0x100 => some ((FRR.of (CF.ofWord w)).map .fadd)
  | 0x101 => some ((FRR.of (CF.ofWord w)).map .fsub)
  | 0x102 => some ((FRR.of (CF.ofWord w)).map .fmul)
  | 0x103 => some ((FRRR.of (CF.ofWord w)).map .ffma)
  | 0x104 => some ((FRR.of (CF.ofWord w)).map .fmin)
  | 0x105 => some ((FRR.of (CF.ofWord w)).map .fmax)
  | 0x106 => some ((FR1.of (CF.ofWord w)).map .fabs)
  | 0x107 => some ((FR1.of (CF.ofWord w)).map .fneg)
  | 0x108 => some ((FCmpO.of (CF.ofWord w)).map .fcmp)
  | 0x109 => some ((FR1.of (CF.ofWord w)).map .fclass)
  | 0x10A => some ((FR1.of (CF.ofWord w)).map .frcp)
  | 0x10B => some ((FR1.of (CF.ofWord w)).map .frsq)
  | 0x10C => some ((FR1.of (CF.ofWord w)).map .fsqrt)
  | 0x10D => some ((FR1.of (CF.ofWord w)).map .fex2)
  | 0x10E => some ((FR1.of (CF.ofWord w)).map .flg2)
  | 0x10F => some ((FR1.of (CF.ofWord w)).map .fsin)
  | 0x110 => some ((FR1.of (CF.ofWord w)).map .fcos)
  | 0x111 => some ((FR1.of (CF.ofWord w)).map .frnd)
  | 0x112 => some ((CvtO.of (CF.ofWord w)).map .fcvt)
  | 0x113 => some ((CvtO.of (CF.ofWord w)).map .ftoi)
  | 0x114 => some ((CvtO.of (CF.ofWord w)).map .itof)
  | 0x115 => some ((FRR.of (CF.ofWord w)).map .hadd2)
  | 0x116 => some ((FRR.of (CF.ofWord w)).map .hmul2)
  | 0x117 => some ((FRRR.of (CF.ofWord w)).map .hfma2)
  | 0x118 => some ((Dot4O.of (CF.ofWord w)).map .dot4)
  | 0x119 => some ((FRRR.of (CF.ofWord w)).map .dot2h)
  | 0x200 => some ((PPP.of (CF.ofWord w)).map .pand)
  | 0x201 => some ((PPP.of (CF.ofWord w)).map .por)
  | 0x202 => some ((PPP.of (CF.ofWord w)).map .pxor)
  | 0x203 => some ((PP.of (CF.ofWord w)).map .pnot)
  | 0x204 => some ((PP.of (CF.ofWord w)).map .pmov)
  | 0x205 => some ((VoteO.of (CF.ofWord w)).map .pany)
  | 0x206 => some ((VoteO.of (CF.ofWord w)).map .pall)
  | 0x207 => some ((PcntO.of (CF.ofWord w)).map .pcnt)
  | 0x210 => some ((SelOut.of (CF.ofWord w)).map .idx)
  | 0x211 => some ((SelOut.of (CF.ofWord w)).map .box)
  | 0x212 => some ((FormO.of (CF.ofWord w)).map .form)
  | 0x213 => some ((ExpandO.of (CF.ofWord w)).map .expand)
  | 0x214 => some ((SplitO.of (CF.ofWord w)).map .split)
  | 0x215 => some ((PeelO.of (CF.ofWord w)).map .peel)
  | 0x216 => some ((FnewO.of (CF.ofWord w)).map .fnew)
  | 0x217 => some ((SjoinO.of (CF.ofWord w)).map .sjoin)
  | 0x218 => some ((KeyO.of (CF.ofWord w)).map .sleave)
  | 0x219 => some ((KeyO.of (CF.ofWord w)).map .sbar)
  | 0x21A => some ((RedO.of (CF.ofWord w)).map .red)
  | 0x21B => some ((RdsumO.of (CF.ofWord w)).map .rdsum)
  | 0x21C => some ((ShflO.of (CF.ofWord w)).map .shfl)
  | 0x280 => some ((BrO.of (BF.ofWord w)).map .bra)
  | 0x281 => some ((BrcO.of (BF.ofWord w)).map .brc)
  | 0x282 => some ((BrO.of (BF.ofWord w)).map .call)
  | 0x283 => some ((JmpO.of (CF.ofWord w)).map .calli)
  | 0x284 => some ((G.of (CF.ofWord w)).map .ret)
  | 0x285 => some ((JmpO.of (CF.ofWord w)).map .jmpi)
  | 0x286 => some ((G.of (CF.ofWord w)).map .exit_)
  | 0x287 => some ((CodeO.of (CF.ofWord w)).map .trap_)
  | 0x288 => some ((CodeO.of (CF.ofWord w)).map .brk)
  | 0x289 => some ((G.of (CF.ofWord w)).map .yield)
  | 0x300 => some ((LdO.of (MF.ofWord w)).map .ld)
  | 0x301 => some ((StO.of (MF.ofWord w)).map .st)
  | 0x302 => some ((LdO.of (MF.ofWord w)).map .lds)
  | 0x303 => some ((StO.of (MF.ofWord w)).map .sts)
  | 0x304 => some ((LdcO.of (MF.ofWord w)).map .ldc)
  | 0x305 => some ((AtomO.of (CF.ofWord w)).map .atom)
  | 0x306 => some ((AtomO.of (CF.ofWord w)).map .atoms)
  | 0x307 => some ((G.of (CF.ofWord w)).map .phase)
  | 0x308 => some ((FenceO.of (CF.ofWord w)).map .fence)
  | 0x309 => some ((PfenceO.of (CF.ofWord w)).map .pfence)
  | 0x30A => some ((JmpO.of (CF.ofWord w)).map .promote)
  | 0x30B => some ((WaitaO.of (CF.ofWord w)).map .waita)
  | 0x30C => some ((PrefO.of (MF.ofWord w)).map .pref)
  | 0x380 => some ((CopyO.of (CF.ofWord w)).map .copy)
  | 0x381 => some ((CopyFO.of (CF.ofWord w)).map .copyx)
  | 0x382 => some ((CopyFO.of (CF.ofWord w)).map .copyc)
  | 0x383 => some ((CopyO.of (CF.ofWord w)).map .copyt)
  | 0x384 => some ((ForkO.of (CF.ofWord w)).map .fork)
  | 0x385 => some ((G.of (CF.ofWord w)).map .rdzv)
  | 0x386 => some ((LaunchO.of (CF.ofWord w)).map .launch)
  | 0x387 => some ((WaitcO.of (CF.ofWord w)).map .waitc)
  | 0x388 => some ((JmpO.of (CF.ofWord w)).map .cancel)
  | 0x3C0 => some ((TcfgO.of (TF.ofWord w)).map .tcfg)
  | 0x3C1 => some ((TmemO.of false (TF.ofWord w)).map .tload)
  | 0x3C2 => some ((TmemO.of true (TF.ofWord w)).map .tstore)
  | 0x3C3 => some ((TfillO.of false (CF.ofWord w)).map .tfill)
  | 0x3C4 => some ((TfillO.of true (CF.ofWord w)).map .tdrain)
  | 0x3C5 => some ((TileO.of false (TF.ofWord w)).map .tzero)
  | 0x3C6 => some ((TtrnO.of (TF.ofWord w)).map .ttrn)
  | 0x3C7 => some ((TscaleO.of (TF.ofWord w)).map .tscale)
  | 0x3C8 => some ((TaddO.of (TF.ofWord w)).map .tadd)
  | 0x3C9 => some ((MmaO.of (TF.ofWord w)).map .mma)
  | 0x3CA => some ((TileO.of true (TF.ofWord w)).map .tlatch)
  | 0x3CB => some ((TmemO.of false (TF.ofWord w)).map .tscl)
  | 0x3CC => some ((MstatO.of (CF.ofWord w)).map .mstat)
  | 0x3F0 => some ((CsrO.of (CF.ofWord w)).map .csrr)
  | 0x3F1 => some ((CsrO.of (CF.ofWord w)).map .csrw)
  | 0x3F2 => some ((CsrO.of (CF.ofWord w)).map .csrs)
  | 0x3F3 => some ((CsrO.of (CF.ofWord w)).map .csrc)
  | 0x3F4 => some ((FselO.of (CF.ofWord w)).map .fsel)
  | 0x3F5 => some ((FgetO.of (CF.ofWord w)).map .fget)
  | 0x3F6 => some ((FsetO.of (CF.ofWord w)).map .fset)
  | 0x3F7 => some ((FresumeO.of (CF.ofWord w)).map .fresume)
  | 0x3F8 => some ((ReplayO.of (CF.ofWord w)).map .replay)
  | 0x3F9 => some ((TlbiO.of (CF.ofWord w)).map .tlbi)
  | 0x3FA => some ((G.of (CF.ofWord w)).map .eret)
  | 0x3FB => some ((FgetO.of (CF.ofWord w)).map .sleep)
  | 0x3FC => some ((RwloadO.of (CF.ofWord w)).map .rwload)
  | _ => none

/-- Decode one 64-bit instruction word. -/
def decode (w : Word) : Except DecErr Instr :=
  match decodeOp (w.extractLsb' 54 10).toNat w with
  | none => .error .illegalOpcode
  | some none => .error .reservedField
  | some (some i) => if i.wf then .ok i else .error .reservedField

/-- The word of an instruction; none for a step that no word names. -/
def encode : Instr → Option Word
  | .nop o => some (G.enc 0x001#10 o)
  | .illegal => some 0#64
  | .iadd o => some (RR.enc 0x002#10 o)
  | .iaddImm o => some (RI.enc 0x042#10 o)
  | .isub o => some (RR.enc 0x003#10 o)
  | .isubImm o => some (RI.enc 0x043#10 o)
  | .imul o => some (RR.enc 0x004#10 o)
  | .imulImm o => some (RI.enc 0x044#10 o)
  | .imulh o => some (RR.enc 0x005#10 o)
  | .imulhImm o => some (RI.enc 0x045#10 o)
  | .imulw o => some (RR.enc 0x006#10 o)
  | .imulwImm o => some (RI.enc 0x046#10 o)
  | .imad o => some (RRR.enc 0x007#10 o)
  | .ineg o => some (R1.enc 0x008#10 o)
  | .iabs o => some (R1.enc 0x009#10 o)
  | .imin o => some (RR.enc 0x00A#10 o)
  | .iminImm o => some (RI.enc 0x04A#10 o)
  | .imax o => some (RR.enc 0x00B#10 o)
  | .imaxImm o => some (RI.enc 0x04B#10 o)
  | .shl o => some (RR.enc 0x00C#10 o)
  | .shlImm o => some (RI.enc 0x04C#10 o)
  | .shr o => some (RR.enc 0x00D#10 o)
  | .shrImm o => some (RI.enc 0x04D#10 o)
  | .sar o => some (RR.enc 0x00E#10 o)
  | .sarImm o => some (RI.enc 0x04E#10 o)
  | .and_ o => some (RR.enc 0x00F#10 o)
  | .andImm o => some (RI.enc 0x04F#10 o)
  | .or_ o => some (RR.enc 0x010#10 o)
  | .orImm o => some (RI.enc 0x050#10 o)
  | .xor_ o => some (RR.enc 0x011#10 o)
  | .xorImm o => some (RI.enc 0x051#10 o)
  | .not_ o => some (R1.enc 0x012#10 o)
  | .andn o => some (RR.enc 0x013#10 o)
  | .andnImm o => some (RI.enc 0x053#10 o)
  | .clz o => some (R1.enc 0x014#10 o)
  | .popc o => some (R1.enc 0x015#10 o)
  | .brev o => some (R1.enc 0x016#10 o)
  | .bfx o => some (RR.enc 0x017#10 o)
  | .bfi o => some (RRR.enc 0x018#10 o)
  | .sel o => some (SelO.enc 0x019#10 o)
  | .icmp o => some (CmpO.enc 0x01A#10 o)
  | .icmpImm o => some (CmpIO.enc o)
  | .mov o => some (R1.enc 0x01B#10 o)
  | .movi o => some (MoviO.enc 0x01C#10 o)
  | .movh o => some (MovhO.enc 0x01D#10 o)
  | .lea o => some (LeaO.enc 0x01E#10 o)
  | .fadd o => some (FRR.enc 0x100#10 o)
  | .fsub o => some (FRR.enc 0x101#10 o)
  | .fmul o => some (FRR.enc 0x102#10 o)
  | .ffma o => some (FRRR.enc 0x103#10 o)
  | .fmin o => some (FRR.enc 0x104#10 o)
  | .fmax o => some (FRR.enc 0x105#10 o)
  | .fabs o => some (FR1.enc 0x106#10 o)
  | .fneg o => some (FR1.enc 0x107#10 o)
  | .fcmp o => some (FCmpO.enc 0x108#10 o)
  | .fclass o => some (FR1.enc 0x109#10 o)
  | .frcp o => some (FR1.enc 0x10A#10 o)
  | .frsq o => some (FR1.enc 0x10B#10 o)
  | .fsqrt o => some (FR1.enc 0x10C#10 o)
  | .fex2 o => some (FR1.enc 0x10D#10 o)
  | .flg2 o => some (FR1.enc 0x10E#10 o)
  | .fsin o => some (FR1.enc 0x10F#10 o)
  | .fcos o => some (FR1.enc 0x110#10 o)
  | .frnd o => some (FR1.enc 0x111#10 o)
  | .fcvt o => some (CvtO.enc 0x112#10 o)
  | .ftoi o => some (CvtO.enc 0x113#10 o)
  | .itof o => some (CvtO.enc 0x114#10 o)
  | .hadd2 o => some (FRR.enc 0x115#10 o)
  | .hmul2 o => some (FRR.enc 0x116#10 o)
  | .hfma2 o => some (FRRR.enc 0x117#10 o)
  | .dot4 o => some (Dot4O.enc 0x118#10 o)
  | .dot2h o => some (FRRR.enc 0x119#10 o)
  | .pand o => some (PPP.enc 0x200#10 o)
  | .por o => some (PPP.enc 0x201#10 o)
  | .pxor o => some (PPP.enc 0x202#10 o)
  | .pnot o => some (PP.enc 0x203#10 o)
  | .pmov o => some (PP.enc 0x204#10 o)
  | .pany o => some (VoteO.enc 0x205#10 o)
  | .pall o => some (VoteO.enc 0x206#10 o)
  | .pcnt o => some (PcntO.enc 0x207#10 o)
  | .idx o => some (SelOut.enc 0x210#10 o)
  | .box o => some (SelOut.enc 0x211#10 o)
  | .form o => some (FormO.enc 0x212#10 o)
  | .expand o => some (ExpandO.enc 0x213#10 o)
  | .split o => some (SplitO.enc 0x214#10 o)
  | .peel o => some (PeelO.enc 0x215#10 o)
  | .fnew o => some (FnewO.enc 0x216#10 o)
  | .sjoin o => some (SjoinO.enc 0x217#10 o)
  | .sleave o => some (KeyO.enc 0x218#10 o)
  | .sbar o => some (KeyO.enc 0x219#10 o)
  | .red o => some (RedO.enc 0x21A#10 o)
  | .rdsum o => some (RdsumO.enc 0x21B#10 o)
  | .shfl o => some (ShflO.enc 0x21C#10 o)
  | .bra o => some (BrO.enc 0x280#10 o)
  | .brc o => some (BrcO.enc 0x281#10 o)
  | .call o => some (BrO.enc 0x282#10 o)
  | .calli o => some (JmpO.enc 0x283#10 o)
  | .ret o => some (G.enc 0x284#10 o)
  | .jmpi o => some (JmpO.enc 0x285#10 o)
  | .exit_ o => some (G.enc 0x286#10 o)
  | .trap_ o => some (CodeO.enc 0x287#10 o)
  | .brk o => some (CodeO.enc 0x288#10 o)
  | .yield o => some (G.enc 0x289#10 o)
  | .ld o => some (LdO.enc 0x300#10 o)
  | .st o => some (StO.enc 0x301#10 o)
  | .lds o => some (LdO.enc 0x302#10 o)
  | .sts o => some (StO.enc 0x303#10 o)
  | .ldc o => some (LdcO.enc 0x304#10 o)
  | .pref o => some (PrefO.enc 0x30C#10 o)
  | .atom o => some (AtomO.enc 0x305#10 o)
  | .atoms o => some (AtomO.enc 0x306#10 o)
  | .phase o => some (G.enc 0x307#10 o)
  | .fence o => some (FenceO.enc 0x308#10 o)
  | .pfence o => some (PfenceO.enc 0x309#10 o)
  | .promote o => some (JmpO.enc 0x30A#10 o)
  | .promotionRequest _ _ => none
  | .waita o => some (WaitaO.enc 0x30B#10 o)
  | .waitaSatisfied _ _ => none
  | .loadDataArrival _ _ => none
  | .copy o => some (CopyO.enc 0x380#10 o)
  | .copyx o => some (CopyFO.enc 0x381#10 o)
  | .copyc o => some (CopyFO.enc 0x382#10 o)
  | .copyt o => some (CopyO.enc 0x383#10 o)
  | .copyRun _ => none
  | .tokenWaitEnd _ _ => none
  | .fork o => some (ForkO.enc 0x384#10 o)
  | .streamStart _ => none
  | .rdzv o => some (G.enc 0x385#10 o)
  | .launch o => some (LaunchO.enc 0x386#10 o)
  | .waitc o => some (WaitcO.enc 0x387#10 o)
  | .swapDelayExpiry _ _ => none
  | .waitcResume _ _ => none
  | .cancel o => some (JmpO.enc 0x388#10 o)
  | .cancelBroadcast _ _ _ _ => none
  | .tcfg o => some (TcfgO.enc 0x3C0#10 o)
  | .tload o => some (TmemO.enc false 0x3C1#10 o)
  | .tstore o => some (TmemO.enc true 0x3C2#10 o)
  | .tfill o => some (TfillO.enc false 0x3C3#10 o)
  | .tdrain o => some (TfillO.enc true 0x3C4#10 o)
  | .tzero o => some (TileO.enc false 0x3C5#10 o)
  | .ttrn o => some (TtrnO.enc 0x3C6#10 o)
  | .tscale o => some (TscaleO.enc 0x3C7#10 o)
  | .tadd o => some (TaddO.enc 0x3C8#10 o)
  | .mma o => some (MmaO.enc 0x3C9#10 o)
  | .tlatch o => some (TileO.enc true 0x3CA#10 o)
  | .tscl o => some (TmemO.enc false 0x3CB#10 o)
  | .mstat o => some (MstatO.enc 0x3CC#10 o)
  | .operandsConsumed _ _ _ => none
  | .rewriteWindow _ => none
  | .csrr o => some (CsrO.enc 0x3F0#10 o)
  | .csrw o => some (CsrO.enc 0x3F1#10 o)
  | .csrs o => some (CsrO.enc 0x3F2#10 o)
  | .csrc o => some (CsrO.enc 0x3F3#10 o)
  | .csrWrite _ _ _ _ => none
  | .fsel o => some (FselO.enc 0x3F4#10 o)
  | .fget o => some (FgetO.enc 0x3F5#10 o)
  | .fset o => some (FsetO.enc 0x3F6#10 o)
  | .fresume o => some (FresumeO.enc 0x3F7#10 o)
  | .replay o => some (ReplayO.enc 0x3F8#10 o)
  | .tlbi o => some (TlbiO.enc 0x3F9#10 o)
  | .eret o => some (G.enc 0x3FA#10 o)
  | .sleep o => some (FgetO.enc 0x3FB#10 o)
  | .sleepWake _ => none
  | .rwload o => some (RwloadO.enc 0x3FC#10 o)
  | .clauseHeader _ => none
  | .knitHoldExpiry _ _ => none
  | .resourceRetry _ => none
  | .resourceSwapOut _ => none
  | .watchdog _ _ => none
  | .heldTrapPush _ => none
  | .pageWalkComplete _ _ => none
  | .replayComplete _ _ => none
  | .mcHandlerEntry _ => none
  | .trapCause _ _ => none
  | .trapWindowStore _ _ => none
  | .mcEpc _ _ => none
  | .mcPtroot _ _ => none
  | .dispatchAdmit _ => none
  | .dispatchPlace _ => none
  | .tileStart _ => none
  | .launchFinish _ => none
  | .ctxDoorbell _ _ => none
  | .stealRequest _ => none
  | .stealRetryTimer _ => none
  | .stealVictim _ _ => none
  | .lentRecord _ _ _ => none
  | .stealAck _ _ => none
  | .stealNone _ => none
  | .traverseToken _ _ => none
  | .heldCompletionEntry _ => none
  | .drainNotice _ => none
  | .contextSwitch _ _ => none
  | .contextRestore _ _ => none
  | .mbDb _ _ _ => none
  | .ctxCreate _ => none
  | .ctxReset _ => none
  | .ctxDestroy _ => none
  | .objLoad _ => none
  | .measRead _ => none
  | .mbClpm _ => none
  | .haltInfo _ => none
  | .mbUnknownCmd _ => none
  | .getVersion => none
  | .getCapabilities => none
  | .negotiateAlgorithms => none
  | .getDigests => none
  | .getCertificate _ => none
  | .getMeasurements _ => none
  | .moduleReset => none
  | .clpmGo _ _ => none
  | .clpmStepDone _ => none
  | .flush _ => none
  | .flushDone _ => none
  | .estop _ _ => none
  | .dstop _ _ => none
  | .save _ => none
  | .saveDone _ => none
  | .restore _ => none
  | .restoreDone _ => none
  | .clpmWake _ => none
  | .clpmWakeMirror _ => none
  | .alwaysOnAnswer _ _ => none
  | .hostCxlMemAccess _ => none
  | .peerWrite _ _ => none
  | .peerLinkTrained _ _ => none
  | .farLinkDown _ => none
  | .farCompletionTimeout _ _ => none
  | .farRetrainDone _ => none
  | .linkCrcFail _ _ => none
  | .hbmRetrainDone _ _ _ => none
  | .scrubRead => none
  | .remapTableError _ => none
  | .tableReloadDone _ => none
  | .scrubCtl _ => none
  | .clr _ => none
  | .tileInstructionCompletion _ _ => none
  | .cancelAcknowledgement _ _ _ _ _ => none
  | .promotionReply _ _ => none
  | .unstartedRecordReturn _ _ _ => none
  | .peerWriteUndeliverable _ => none

/-- 05 R136: the clause classes (0, 1, 2) in which a listed opcode is legal. -/
def opcodeClasses (opc : Nat) : Option (Bool × Bool × Bool) :=
  if opc ≤ 0x01E then some (true, true, true)
  else if (0x042 ≤ opc ∧ opc ≤ 0x046) ∨ (0x04A ≤ opc ∧ opc ≤ 0x051) ∨ opc = 0x053 then some (true, true, true)
  else if 0x060 ≤ opc ∧ opc ≤ 0x065 then some (true, true, true)
  else if 0x100 ≤ opc ∧ opc ≤ 0x119 then some (true, false, true)
  else if 0x200 ≤ opc ∧ opc ≤ 0x207 then some (true, true, true)
  else if 0x210 ≤ opc ∧ opc ≤ 0x21C then some (true, false, true)
  else if 0x280 ≤ opc ∧ opc ≤ 0x288 then some (true, true, true)
  else if opc = 0x289 then some (true, false, true)
  else if 0x300 ≤ opc ∧ opc ≤ 0x304 then some (true, false, true)
  else if 0x305 ≤ opc ∧ opc ≤ 0x30B then
    some (true, opc = 0x308 ∨ opc = 0x309 ∨ opc = 0x30B, true)
  else if opc = 0x30C then some (true, false, true)
  else if 0x380 ≤ opc ∧ opc ≤ 0x388 then some (true, opc = 0x385, true)
  else if opc = 0x3C3 ∨ opc = 0x3C4 then some (true, false, true)
  else if opc = 0x3CC then some (true, true, true)
  else if 0x3C0 ≤ opc ∧ opc ≤ 0x3CB then some (false, true, false)
  else if opc = 0x3FC then some (false, true, true)
  else if 0x3F0 ≤ opc ∧ opc ≤ 0x3FB then some (false, false, true)
  else none

/-- The decoder on the numbering of the opcode table: bit 0 is the least significant bit of the word, and every bit above
`nbits` is zero. The instruction word is 64 bits (05 R116), stored little-endian (00 R5). The all-zero opcode is the row
ILLEGAL (05 R138). -/
def decodeTableWord (nbits w : Nat) : Option Instr :=
  let word : Word := BitVec.ofNat 64 (w % 2 ^ (min nbits 64))
  match decode word with
  | .ok i => some i
  | .error _ => none

end Sys2Proof
end

