-- ==== Sys2Proof/Config.lean ====
section
/-!
DEFINITION. What the specification leaves open: free values with no body, and the constants it fixes.

Each opaque constant is applied to the operands it depends on or to the state's counters, so no proof can see its value.
-/

namespace Sys2Proof.Config

/-- Log 5: an undefined 64-bit value, fresh for each draw and each place in it (02 R55, 08 R239, 16 R337, 07 R179, 05 R133).
The draw is the counter `State.draw`, which every step advances. -/
opaque freeWord : Nat → Nat → Word

/-- Log 12: an undefined byte of a scratch allocation at tile start (03 R75). -/
opaque freeByte : Nat → Nat → Byte

/-- Log 13: which of the values that 03 R82 and R83 allow a load returns: the draw, the place or agent that loads, the address. -/
opaque pick : Nat → Nat → Nat → Nat

/-- Log 2: which agent or event goes next, where the specification states no order (22 R398). -/
opaque schedule : Nat → Nat

/-- Log 2: which of a core's copy commands goes on, where the specification states no order (08 R233). -/
opaque copyOrder : Nat → Nat

/-- Log 14: which of the values within one ulp FRCP and FRSQ return (04 R102), the same for the same input. -/
opaque frcpPick : Bool → Nat → Nat
opaque frsqPick : Bool → Nat → Nat

/-- Log 14: FEX2, FLG2, FSIN and FCOS on inputs for which 04 R102 states no exact result. -/
opaque fex2 : BitVec 32 → BitVec 32
opaque flg2 : BitVec 32 → BitVec 32
opaque fsin : BitVec 32 → BitVec 32
opaque fcos : BitVec 32 → BitVec 32

/-- Log 15: whether the core takes a merge or collapse that 02 R58-R60 permit (R61 lets it decline any). -/
opaque takeMerge : Nat → Bool

/-- Log 75: whether the accesses and the split MMA of the next step take more than that step (08 R226, 09 R270). -/
opaque isSlow : Nat → Bool

/-- Log 7: the boot ROM's verdict on the flash image: 0 accepted, 1 to 3 as BOOTSTAT codes it (19 R379). -/
opaque bootVerdict : BitVec 8

/-- Log 10: the clause header at which the management core of a cluster starts, in its own address space (19 R379). -/
opaque mcStart : Nat → Word

/-- Log 16: identity data of the module's security processor (19 R378). -/
opaque romHash : List Byte
opaque firmwareHash : List Byte
opaque securityVersion : Word
opaque identityChain : List Byte
opaque sign : List Byte → List Byte

/-- Log 17: which undefined byte a COPY leaves where its destination overlaps its source or itself (08 R229). -/
opaque overlapByte : Nat → Nat → Byte

/-- Log 27: the unwritten bytes of a save area and the number of retention blocks a SAVE uses (19 R380). -/
opaque retentionUsed : Nat → BitVec 8

/-- Log 18: a die-to-peer write's fate: whether the peer has acknowledged (19 R371). -/
opaque freeBit : Nat → Bool

/-- Log 30: where the request blocks of OBJ_LOAD, MEAS_READ, CLPM and HALT_INFO hold their fields (19 R374 gives no layout):
what is read from the block's first 64 bytes, and the offsets of results. -/
opaque reqCtx : List Byte → Nat
opaque reqImage : List Byte → Nat
opaque reqLength : List Byte → Nat
opaque reqCluster : List Byte → Nat
opaque reqState : List Byte → BitVec 2
opaque objOffset : Nat
opaque infoOffset : Nat
opaque measOffset : Nat
opaque haltOffset : Nat

/-- 00 R3: clusters, compute cores of the module, cores of a cluster. -/
abbrev numClusters : Nat := 24
abbrev numCores : Nat := 192
abbrev coresPerCluster : Nat := 8

/-- 00 R3: per-core capacities. -/
abbrev fibreEntries : Nat := 4096
abbrev formEntries : Nat := 65536
abbrev laneBlocks : Nat := 512
abbrev laneRows : Nat := 24576
abbrev fieldBookSize : Nat := 256
abbrev trapQueueSize : Nat := 256
abbrev maxSets : Nat := 256

/-- 02 R54: what a core keeps free when it starts a tile. -/
abbrev keepEntries : Nat := 256
abbrev keepForms : Nat := 16384
abbrev keepBlocks : Nat := 64
abbrev keepRows : Nat := 3072

/-- 17 R362: entries of a micro-TLB, a core's TLB and a die's TLB. -/
abbrev microTlb : Nat := 64
abbrev coreTlb : Nat := 1024
abbrev dieTlb : Nat := 32768

end Sys2Proof.Config
end

