-- ==== Sys2Proof/Machine/State.lean ====
section
/-!
DEFINITION. The machine's state as plain data: everything the specification gives the Nalesque N7.

INVENTORY.md lists each piece with its rule and reset value. Tables are sparse (`Tab`): an absent entry is the unit at its
reset value.
-/

namespace Sys2Proof.Machine

open Sys2Proof

/-! ### Boxes, forms and registers -/

inductive Axis where
  | x
  | y
  | z
deriving DecidableEq, Repr

/-- 02 R35: an index triple. -/
structure Idx where
  x : Nat
  y : Nat
  z : Nat
deriving DecidableEq, Repr

/-- 02 R35: [x0,x1)×[y0,y1)×[z0,z1), absolute in the grid box. -/
structure Box where
  x0 : Nat
  x1 : Nat
  y0 : Nat
  y1 : Nat
  z0 : Nat
  z1 : Nat
deriving DecidableEq, Repr

/-- The box of one index, (0, 0, 0): what a management core and a stream act as (07 R170, 09 R242). -/
abbrev Box.one : Box := ⟨0, 1, 0, 1, 0, 1⟩

/-- 02 R40: a register with its form tag. `u` and `a` of a joined pair hold the 64-bit base in the even register and the odd
one is `p`. `e` holds the lanes' 32-bit values. The marks are the poison of 08 R226. -/
inductive Reg where
  | u (b : Word) (poison : Bool)
  | a (b : Word) (sx sy sz : BitVec 32)
  | e (lanes : Tab (BitVec 32)) (poison : List Nat)
  | p
deriving DecidableEq, Repr

/-- 02 R44: a predicate with its form; `m` lists the lanes whose bit is 1. -/
inductive Pred where
  | t
  | f
  | c (axis : Axis) (thr : Nat) (ge : Bool)
  | m (lanes : List Nat)
deriving DecidableEq, Repr

/-- A value an operand takes over the indices of a fibre: uniform, affine, or one value for each lane (or, in a
field-book record of a range fibre, for each place of its box). -/
inductive FVal where
  | u (b : Word)
  | a (b : Word) (sx sy sz : BitVec 32)
  | e (lanes : Tab Word)
deriving DecidableEq, Repr

/-- 05 R133: a bypass latch with a result of 32 or 64 bits, and its poison marks. -/
structure Latch where
  w64     : Bool
  v       : FVal
  poison  : Bool
  poisonL : List Nat
deriving DecidableEq, Repr

/-- 07 R190: a return-stack entry: an address, or one address for each lane. -/
inductive REntry where
  | addr (a : Word)
  | lanes (t : Tab Word)
deriving DecidableEq, Repr

/-! ### Paths and launch records -/

/-- 03 paths. -/
inductive Path where
  | F
  | C
  | X
  | H
deriving DecidableEq, Repr

/-- 16 R330. -/
structure Variant where
  entoff : Nat
  cls    : Nat
  win    : Nat
  scrkb  : Nat
  valid  : Bool
deriving DecidableEq, Repr

/-- 16 R328-R330: a launch record. -/
structure LaunchRec where
  tset      : Bool
  nosteal   : Bool
  job       : BitVec 32
  obj       : Nat
  entoff    : Nat
  gx        : Nat
  gy        : Nat
  gz        : Nat
  tx        : Nat
  ty        : Nat
  tz        : Nat
  px        : Nat
  py        : Nat
  pz        : Nat
  window    : Nat
  priority  : Nat
  emax      : Nat
  scratch   : Nat
  localB    : Nat
  counter   : Word
  args      : Word
  localbase : Word
  csbase    : Word
  csslots   : Nat
  carry     : Nat
  variants  : List Variant
deriving DecidableEq, Repr

/-- 08 R237: an entry of a core's pending-launch queue. -/
structure PendRec where
  lr   : LaunchRec
  ctx  : Nat
  gen  : BitVec 8
  arrived : Nat
  hb   : List Nat
  /-- what its submitter's PFENCEs have made visible (03 R83) -/
  pv   : List (Nat × Path)
deriving DecidableEq, Repr

/-- 02 R38: the states of a fibre other than FREE, which is an absent entry. -/
inductive FState where
  | ready
  | wait
  | resourceWait
  | launchWait
  | replayWait
  | parked
  | swapped
deriving DecidableEq, Repr

/-! ### Traps -/

/-- 17 R351: the index set of a record. -/
inductive IndexSet where
  | none
  | box (b : Box)
  | lanes (jlo jhi : Nat) (mask : BitVec 32)
deriving DecidableEq, Repr

/-- 17 R351: a trap record, with the unit its DISP acts on. -/
structure TrapRec where
  seq    : BitVec 16
  peeled : Bool
  kind   : Nat
  cause  : BitVec 8
  handle : BitVec 32
  pc     : Word
  addr   : Word
  aux    : Word
  index  : IndexSet
  disp   : BitVec 2
  rule   : Nat
  tile   : Nat
  core   : Nat
  uid    : Nat
  /-- the positions (lanes, or linear places in the box) that took the cause -/
  who    : List Nat
  /-- the cause is replayable and a field-book record holds its indices -/
  fbv    : Option Nat
  /-- the cause is one that replay mends (08 R225) -/
  replay : Bool
deriving DecidableEq, Repr

/-- 05 R116, 03 R92: a clause as fetched: header address, header, instruction words, and the position reached. -/
structure Clause where
  addr  : Word
  hdr   : Word
  words : List Word
  pos   : Nat
  /-- the knit of the header is done (05 R119) -/
  begun : Bool
deriving DecidableEq, Repr

/-- One index that faults: its place, cause, address, the REASON, ACCESS_VIOLATION code or instruction code, the level of the walk,
and, for poison from a lost far-memory link, the port and whether its page is replayable. For MEM_POISON the code is 1 where an operand
is poisoned, not what the access reaches. -/
structure IdxFault where
  place  : Nat
  cause  : BitVec 8
  addr   : Word
  code   : Nat
  level  : Nat
  far    : Option (Nat × Bool)
deriving DecidableEq, Repr

/-- 17 R357: a field-book record. `pend` lists the pending lanes, or linear places in the box of a range fibre. -/
structure FbRec where
  level  : Nat
  port   : Nat
  ctx    : Nat
  entry  : Nat
  uid    : Nat
  replaying : Bool
  size   : Nat
  acc    : Nat
  cause  : BitVec 8
  farlink : Bool
  pc     : Word
  va     : Word
  instr  : Word
  pend   : List Nat
  /-- what each of them has met -/
  hits   : List IdxFault
  /-- store or atomic data in pieces of 64 bits, and the places whose data is poisoned (08 R226) -/
  data   : List FVal
  dbad   : List Nat
  addr   : FVal
  off    : Word
  /-- the clause at the faulting word and its latches, for a fibre peeled from it (17 R358) -/
  cl     : Option Clause
  latches : Tab Latch
  /-- the box whose places `pend` and the data number, and the `root` of the fibre at the word -/
  frame  : Box
  root   : Nat
deriving DecidableEq, Repr

/-- 02 R38: what a fibre in WAIT waits on, with what its completion needs. -/
inductive Why where
  | none
  /-- the places whose relation has held -/
  | waita (met : List Nat)
  /-- the carry mask, the counter's physical and virtual addresses, and the first store made after WAITC issued (18 R368) -/
  | waitc (carry : BitVec 32) (pa : Nat) (va : Word) (since : Nat)
  /-- LAUNCH_WAIT: the record that will enter the queue -/
  | launch (r : PendRec)
  | sbar (key : Nat)
  | vote (key : Nat) (instr : Instr)
  | rdsum
  | header
  | knitHold
  | rdzv
  | fork
  | fifth
  | loadData
  /-- replies outstanding, each place's owner core (03 R87), and the places of a WAITA whose relation has held -/
  | promote (left : Nat) (owners : Tab Nat) (met : List Nat)
  | promoted (owners : Tab Nat) (met : List Nat)
  /-- the positions that have not acknowledged -/
  | cancel (job : Nat) (left : List Nat)
  | resource
  /-- a piece of a cut fibre that waits for lane blocks (02 R53) -/
  | expand
  /-- faults that cannot be recorded until the fibre can be cut (17 R351), with the record of what faulted, and the state and the wait
  that the fibre was in -/
  | faults (fs : List IdxFault) (fb : FbRec) (st : FState) (was : Why)
  /-- traps that cannot be pushed until there are lanes to name their places (17 R351), raised while the fibre waited -/
  | held (was : Why)
  /-- FNEW resumes after this many creations (07 R180) -/
  | fnew (made : Nat)
  /-- DISP 1 of a record waits for resources (17 R352, R358), with the state and the wait that the fibre was in -/
  | peel (r : TrapRec) (st : FState) (was : Why)
deriving DecidableEq, Repr

/-- 03 R81: what a release publishes: its scope (0 core, 1 device, 2 system; 3: a completion word, which every acquire of the
module and every WAITA observes, R85), its agent, and the stores that happen before it, itself among them. -/
structure Release where
  scope : Nat
  core  : Nat
  hb    : List Nat
deriving DecidableEq, Repr

/-- 03 R81-R83: what an agent has observed: stores that happen before its next access, pairs made visible on a path by
PFENCE, the bytes of stores that its loads have returned, releases its loads have read (an acquire fence takes them), and the
scopes of its release fences (each later store is a release at them). -/
structure View where
  hb   : List Nat
  pv   : List (Nat × Path)
  seen : List (Nat × Nat)
  acq  : List Release
  rel  : List Nat
deriving DecidableEq, Repr

abbrev View.empty : View := ⟨[], [], [], [], []⟩

inductive Kind where
  | fibre
  | stream
  | mc
deriving DecidableEq, Repr

/-- One thread of control: a fibre (02 R38), a matrix stream (09 R241) or a management core (07 R170). -/
structure Thread where
  kind     : Kind
  uid      : Nat
  /-- the number of the fibre from which division has made it: its own at creation -/
  root     : Nat
  ctx      : Nat
  gen      : BitVec 8
  launch   : Nat
  /-- the started tile it belongs to; none for a fibre made by FNEW (07 R180) -/
  inst     : Option Nat
  /-- the box it was created with (07 R173) -/
  box0     : Box
  window   : Nat
  box      : Box
  pc       : Word
  clause   : Option Clause
  regs     : Tab Reg
  preds    : Tab Pred
  /-- the predicates made undefined and not written since (02 R55): FORM reports them as F (07 R175) -/
  undefP   : List Nat
  latches  : Tab Latch
  rs       : List REntry
  slot     : List REntry
  /-- the control-stack slot of its core's pool that it owns while `slot` is not empty (07 R190) -/
  slotNo   : Option Nat
  sets     : List Nat
  wdog     : Nat
  /-- a progress event has occurred in the running clause (02 R71) -/
  progress : Bool
  /-- the set of eight copy tokens it owns, and the tokens marked failed (08 R233, R234) -/
  tokId    : Nat
  failed   : Tab (BitVec 8)
  /-- the payload writes of the completed commands of each token (03 R85) -/
  tokHb    : Tab (List Nat)
  st       : FState
  why      : Why
  since    : Nat
  expanded : Bool
  exBox    : Box
  active   : List Nat
  blocks   : List Nat
  lcause   : BitVec 8
  tmask    : List Nat
  fbrec    : Option Nat
  /-- what every index of it has observed, and what single indices have, by linear number (03 R81) -/
  view     : View
  lviews   : Tab View
  /-- registers, and latches from 64 on, whose poison came from a lost far-memory link (17 R363) -/
  farMarks : List Nat
  /-- traps raised but not yet recordable, for want of lane blocks, and the state to enter then (17 R351) -/
  heldTraps : List TrapRec
  heldSt   : FState
  /-- the entries that were READY when it yielded and have not issued since (07 R195) -/
  behind   : List Nat
  peeled   : Bool
deriving DecidableEq, Repr

/-! ### Replay -/

/-- 08 R225: a record that waits for the field book to have room, with the traps it will push. -/
structure FbPend where
  book  : FbRec
  traps : List TrapRec
deriving DecidableEq, Repr

/-- 08 R226, 17 R363, 21 R392: an access on its way: a load whose data has not arrived, or a store to far memory that has not
been acknowledged. Its places with their physical and virtual addresses, their pages' entries and the owners of a promoting acquire;
a store's data; and the faults of its other places, which are recorded once nothing of it is outstanding. -/
structure OutAccess where
  entry : Nat
  uid   : Nat
  instr : Word
  pc    : Word
  pend  : List (Nat × Nat)
  vas   : Tab Word
  leaves : Tab Word
  own   : Tab Nat
  faults : List IdxFault
  base  : FVal
  data  : List FVal
  dbad  : List Nat
  /-- the clause at the word and its latches, for a record of what is lost (17 R358) -/
  cl    : Option Clause
  latches : Tab Latch
deriving DecidableEq, Repr

/-! ### Memory -/

/-- Bytes of a space: listed cells in strictly rising order, no listed byte zero (log 3). -/
abbrev Bytes := List Host.Cell

/-- How a store that happens before a load is seen: on its own path; on every path (16 R338); or, for a completion word, at once
by every load (03 R85). -/
inductive Vis where
  | own
  | every
  | atOnce
deriving DecidableEq, Repr

/-- 03 R81: one store in modification order, with the bytes it replaced and, for a release, what it publishes. -/
structure WriteRec where
  id    : Nat
  /-- none: physical memory; some (core, allocation): a scratch allocation -/
  space : Option (Nat × Nat)
  addr  : Nat
  len   : Nat
  /-- the bytes it replaced, and which of them were poisoned -/
  old   : List Byte
  oldBad : List Bool
  path  : Path
  core  : Nat
  /-- the launch whose payload it is -/
  launch : Option Nat
  /-- the releases it performs or carries -/
  rel   : List Release
  vis   : Vis
  /-- it is an atomic's: it follows at once the store that the atomic read -/
  rmw   : Bool
  /-- the step that made it -/
  tick  : Nat
  /-- the access that it belongs to, by address and length, where that is atomic as 03 R89 says -/
  unit  : Option (Nat × Nat)
deriving DecidableEq, Repr

structure Memory where
  cells  : Bytes
  /-- bytes stored with a poison mark (08 R226) -/
  pbytes : List Nat
  /-- 64-byte lines poisoned in memory (21 R388), by line number -/
  plines : List Nat
  /-- lines whose stored symbols have erred: 1 correctable, 2 not, which read as poison (21 R386, R387) -/
  flaws  : Tab Nat
deriving DecidableEq, Repr

/-- 03 R75: a tile's scratch allocation. -/
structure Scratch where
  ctx    : Nat
  size   : Nat
  bytes  : Tab Byte
  pbytes : List Nat
deriving DecidableEq, Repr

/-! ### Tiles and the matrix engine -/

/-- 09 R245, R246: a tile: 4,096 bytes, 32 scale bytes, the poison of its version, its version number. -/
structure Tile where
  bytes   : Bytes
  scale   : Bytes
  poison  : Bool
  version : Nat
deriving DecidableEq, Repr

abbrev Tile.zero : Tile := ⟨[], [], false, 0⟩

/-- 09 R249. -/
structure TCfg where
  bf0 : BitVec 4
  bf1 : BitVec 4
  bf2 : BitVec 4
  bf3 : BitVec 4
  acc : Bool
  kd  : Bool
  nd  : Bool
  md  : Bool
deriving DecidableEq, Repr

abbrev TCfg.reset : TCfg := ⟨8#4, 8#4, 8#4, 8#4, false, true, true, true⟩

/-- 09 R269: a held A operand, decoded. -/
structure MmaHold where
  tile  : BitVec 7
  afmt  : BitVec 4
  ta    : Bool
  na    : Bool
  src   : Tile
deriving DecidableEq, Repr

/-- 09 R247, R274: an admitted tile instruction that has not completed: its readers, the tile it writes, its sticky bits, and whether
it is an MMA that is still being computed (09 R270). -/
structure TileOp where
  reads  : List Nat
  writes : Option Nat
  rcnf   : Bool
  aovf   : Bool
  nano   : Bool
  running : Bool
  /-- the agent that has issued it -/
  uid    : Nat
deriving DecidableEq, Repr

/-- 02 R69: a reduction register, with the stores its REDs have released (07 R184). -/
structure SReg where
  value : Word
  seq   : BitVec 32
  hb    : List Nat
deriving DecidableEq, Repr

abbrev SReg.zero : SReg := ⟨0, 0, []⟩

/-- A core's state for one context (09 R241, 02 R69). -/
structure CoreCtx where
  tiles : Tab Tile
  cfg   : TCfg
  /-- the context has executed a TCFG on this core (19 R381) -/
  cfgSet : Bool
  rcnf  : Bool
  aovf  : Bool
  nano  : Bool
  hold  : Option MmaHold
  /-- resident B tiles with their block counts, earliest first (09 R271) -/
  resid : List (Nat × Nat)
  sregs : Tab SReg
  ops   : List TileOp
deriving DecidableEq, Repr

abbrev CoreCtx.reset : CoreCtx := ⟨[], TCfg.reset, false, false, false, false, none, [], [], []⟩

/-- 12 R286: what the rewrite stage decided for a tile instruction of the open window. -/
inductive PlanItem where
  | pass
  | drop (firstPc : Word)
  | emit (rule : Nat) (firstPc : Word) (out : List Instr) (first : Bool) (reads : List Nat)
deriving DecidableEq, Repr

/-- 09 R270: an MMA under way that may stop at a split boundary: the stages done, its operand tiles and D's old version as
admitted, and the running values, each with its overflow. -/
structure MmaRun where
  stage : Nat
  a     : Tile
  b     : Tile
  c     : Tile
  old   : Tile
  vals  : List (List (Nat × Bool))
deriving DecidableEq, Repr

/-- 09 R243: the stream a sequencer runs or holds parked. -/
structure Stream where
  th     : Thread
  inst   : Nat
  handle : BitVec 32
  tile   : Nat
  /-- plan by word address for the open window (12 R284-R288) -/
  plan   : List (Word × PlanItem)
  /-- thread as it was at the first original of the unit under way (12 R300) -/
  snap   : Option Thread
  /-- originals run unrewritten up to this word (12 R300) -/
  plainTo : Option Word
  /-- parked by a page fault of TLOAD or TSTORE: the address and level (09 R253) -/
  fault  : Option (Word × Nat)
  mma    : Option MmaRun
deriving DecidableEq, Repr

/-- A FORK not yet begun (02 R68). -/
structure ForkReq where
  inst   : Nat
  ctx    : Nat
  launch : Nat
  entry  : Word
  args   : List Word
  handle : BitVec 32
  tile   : Nat
deriving DecidableEq, Repr

/-! ### Copy engine -/

inductive CopyKind where
  | plain
  | expand
  | compact
  | toTile
deriving DecidableEq, Repr

inductive CopySt where
  | queued
  | running
  | stopped
  | tileWait
  | peerWait
deriving DecidableEq, Repr

/-- 08 R228-R234: a copy command that has not completed. -/
structure CopyCmd where
  id     : Nat
  kind   : CopyKind
  fmt    : Fmt
  insp   : Nat
  outsp  : Nat
  cwsp   : Bool
  gran   : Nat
  desc   : List (BitVec 32)
  tokId  : Nat
  tok    : Nat
  ctx    : Nat
  launch : Nat
  inst   : Nat
  handle : BitVec 32
  tile   : Nat
  st     : CopySt
  /-- destination bytes up to the boundary of a split granule that are written -/
  done   : Nat
  /-- the bytes written of each row of the granule after `done` (08 R229: the rows go in no stated order) -/
  gone   : Tab Nat
  fault  : Option (Word × Nat)
  view   : View
  /-- its own payload writes, and those of the earlier commands of its token -/
  wrote  : List Nat
  prior  : List Nat
  /-- COPYT: the bytes of the image read so far, each with its poison mark -/
  buf    : List (Byte × Bool)
  /-- the payload is in place: a COPYT's tile is written, or the peer has acknowledged -/
  placed : Bool
deriving DecidableEq, Repr

/-! ### Launches and tasks -/

/-- An admitted launch (16 R336-R338). -/
structure Launch where
  lr       : LaunchRec
  ctx      : Nat
  gen      : BitVec 8
  die      : Nat
  host     : Bool
  bank     : Bytes
  bankPois : List Nat
  /-- task records made and ended or discarded -/
  made     : Nat
  ended    : Nat
  finished : Bool
  cancelled : Bool
  /-- stores that happen before the submission (16 R337) -/
  hb       : List Nat
  /-- stores of its fibres, commands and streams (16 R338) -/
  stores   : List Nat
deriving DecidableEq, Repr

/-- 16 R337, R341: a task record in a core's backlog; `lent` names the thief. -/
structure Task where
  msg   : TaskMsg
  lent  : Option Nat
  order : Nat
deriving DecidableEq, Repr

/-- A started tile (02 R36, R62, R68; 03 R75). -/
structure TileInst where
  launch  : Nat
  ctx     : Nat
  tile    : Nat
  box     : Box
  scratch : Option Nat
  tset    : Option Nat
  /-- the FORK outstanding: none, or whether its RDZV has been executed (08 R236) -/
  fork    : Option Bool
  joinHb  : List Nat
  /-- swap-pool bytes reserved for it, and whether they are in use (16 R339) -/
  reserve : Nat
  reserveUsed : Bool
deriving DecidableEq, Repr

/-- 02 R62-R64, 07 R172: a set. -/
structure SetSt where
  ctx     : Nat
  arrived : Nat
  trues   : Nat
deriving DecidableEq, Repr

/-- 16 R340: a core's stealing state. -/
structure StealSt where
  asking : Option Nat
  asked  : Nat
  backoff : Bool
deriving DecidableEq, Repr

abbrev StealSt.idle : StealSt := ⟨none, 0, false⟩

/-- 08 R239, 16 R339: what a swap-out keeps of a fibre and where its record was drawn from. -/
structure SwapRec where
  th       : Thread
  bytes    : Nat
  fromReserve : Bool
  wasWaitc : Bool
deriving DecidableEq, Repr

/-- One compute core. -/
structure Core where
  fibres   : Tab Thread
  inClause : Option Nat
  follow   : List Nat
  insts    : Tab TileInst
  scratch  : Tab Scratch
  sets     : Tab SetSt
  cctx     : Tab CoreCtx
  stream   : Option Stream
  forkq    : List ForkReq
  copyq    : List CopyCmd
  book     : Tab FbRec
  bookq    : List FbPend
  loads    : List OutAccess
  pendq    : List PendRec
  backlog  : List Task
  handled  : List TaskMsg
  steal    : StealSt
  draining : Bool
  swaps    : Tab SwapRec
  /-- contexts being switched out: their tiles do not start (17 R365) -/
  stopped  : List Nat
  /-- cancel bits that have arrived: (context, job) (16 R347) -/
  cancelled : List (Nat × Nat)
  /-- the X-path stores of the streams that its sequencer has run, and what they have read (13 R305) -/
  xview    : View
deriving DecidableEq, Repr

abbrev Core.reset : Core :=
  ⟨[], none, [], [], [], [], [], none, [], [], [], [], [], [], [], [], StealSt.idle, false, [], [], [], View.empty⟩

/-! ### Management cores and clusters -/

/-- 17 R362: a TLB: the micro-TLB of a core's memory port (one for each path), a core's, a die's, or a management core's own. -/
inductive TlbUnit where
  | micro (core : Nat) (path : Path)
  | core (core : Nat)
  | die (die : Nat)
  | mc
deriving DecidableEq, Repr

/-- 17 R362: a valid leaf that a TLB holds: context, level (0 L2, 1 L1, 2 L0), the page's number at that level, the entry. -/
structure TlbEnt where
  unit  : TlbUnit
  ctx   : Nat
  level : Nat
  page  : Nat
  leaf  : Word
deriving DecidableEq, Repr

/-- 17 R362: a non-leaf entry in a die's cache: context, its level (0 L2, 1 L1), the number of the region it governs, the entry. -/
structure PtrEnt where
  die   : Nat
  ctx   : Nat
  level : Nat
  page  : Nat
  entry : Word
deriving DecidableEq, Repr

/-- 07 R202. -/
inductive Resume where
  | header
  | inClause (c : Clause)
deriving DecidableEq, Repr

/-- 07 R204: what FSEL has selected. -/
inductive Sel where
  | none
  | fibre (core entry uid : Nat)
  | stream (core ctx uid : Nat)
deriving DecidableEq, Repr

structure Mc where
  th     : Thread
  on     : Bool
  halted : Bool
  ie     : Bool
  inh    : Bool
  epc    : Word
  cause  : BitVec 8
  hvec   : Word
  ctxsel : BitVec 6
  root   : BitVec 36
  en     : Bool
  resume : Resume
  sel    : Sel
  /-- SLEEP under way: its mask and destination (07 R203) -/
  asleep : Option (BitVec 3 × Dst)
  /-- the leaves of its own address space (07 R402) -/
  tlb    : List TlbEnt
deriving DecidableEq, Repr

/-- 07 R198: the per-context CSRs KNIT_HOLD, WDOG_BUDGET, SWAP_DELAY and RWPERM. -/
structure CtxCsrs where
  knit  : BitVec 10
  wdog  : BitVec 32
  delay : BitVec 32
  rwF   : Bool
  rwR   : Bool
  rwEn  : Bool
deriving DecidableEq, Repr

/-- 19 R380, R381: a cluster's power registers and retention store. -/
structure Clpm where
  tgt     : BitVec 2
  go      : Bool
  estop   : Bool
  flush   : Bool
  dstop   : Bool
  err     : Bool
  retv    : Bool
  flushed : Bool
  busy    : Bool
  cur     : BitVec 2
  used    : BitVec 8
  rerr    : Bool
  restore : Bool
  save    : Bool
  pend    : Bool
  /-- the retention store's copy of the trap queue and of each context's CSRs; whether its CRC is good -/
  kept    : List TrapRec
  keptCsr : Tab CtxCsrs
  crcOk   : Bool
  /-- the state the step in progress leads to -/
  dest    : BitVec 2
deriving DecidableEq, Repr

abbrev Clpm.reset : Clpm :=
  ⟨0, false, false, false, false, false, false, false, false, 0, 0, false, false, false, false, [], [], true, 0⟩

structure Cluster where
  mc   : Mc
  trapq : List TrapRec
  held  : List TrapRec
  seq   : BitVec 16
  pm    : Clpm
deriving DecidableEq, Repr

/-! ### Contexts -/

/-- 14 R312-R320: a loaded object. -/
structure Obj where
  num      : Nat
  codeBase : Word
  codeSize : Nat
  dataBase : Word
  linkBase : Word
deriving DecidableEq, Repr

/-- 14 R321, R324: a name of the context's namespace with its directory cell. -/
structure Sym where
  name : List Byte
  cell : Nat
  addr : Word
  /-- whether it is defined, and whether weakly -/
  defd : Bool
  weak : Bool
deriving DecidableEq, Repr

/-- 16 R344: the traverse token of a job. -/
structure Token where
  at_   : Nat
  black : Bool
  sum   : Int
  clean : Nat
deriving DecidableEq, Repr

/-- 16 R344-R347: a job. -/
structure Job where
  status : BitVec 8
  counts : Tab Int
  black  : List Nat
  token  : Option Token
  /-- what its launches have stored and released (16 R338) -/
  hb     : List Nat
deriving DecidableEq, Repr

abbrev Job.fresh : Job := ⟨0, [], [], none, []⟩

/-- 17 R366: a core's saved area, and the tile state that FLUSH keeps (19 R381). -/
structure Saved where
  gen    : BitVec 8
  fibres : Tab Thread
  insts  : Tab TileInst
  scratch : Tab Scratch
  sets   : Tab SetSt
  cctx   : CoreCtx
  stream : Option Stream
  forkq  : List ForkReq
  copyq  : List CopyCmd
  book   : Tab FbRec
  bookq  : List FbPend
  swaps  : Tab SwapRec
deriving DecidableEq, Repr

structure Ctx where
  priv    : Bool
  gen     : BitVec 8
  root    : Word
  qdesc   : Word
  save    : Word
  pool    : Nat
  poolUsed : Nat
  rwF     : Bool
  rwR     : Bool
  rwEn    : Bool
  wdog    : BitVec 32
  knit    : BitVec 10
  swapDelay : BitVec 32
  arenaBase : Word
  arenaSize : Nat
  arenaUsed : Nat
  majors  : List (BitVec 16)
  rules   : List (List Word)
  meas    : List Byte
  objs    : List Obj
  syms    : List Sym
  tail    : BitVec 32
  /-- the doorbells whose records are not all admitted: the tail each wrote and when (16 R334) -/
  bells   : List (BitVec 32 × Nat)
  jobs    : Tab Job
  /-- held completion entries, with what each releases (16 R345) -/
  held    : List (Word × List Nat)
  saved   : Tab Saved
  flushed : Tab CoreCtx
  hostHb  : List Nat
  /-- the stores of its completed object loads (14 R326) -/
  loadHb  : List Nat
deriving DecidableEq, Repr

/-! ### Dispatchers, host, memory controllers -/

/-- One die's dispatcher (16 R336, R337). -/
structure Die where
  toPlace : List TaskMsg
  last    : Nat
  cancelled : List (Nat × Nat)
deriving DecidableEq, Repr

structure Mailbox where
  cmd    : BitVec 8
  req    : Word
  status : BitVec 8
  busy   : Bool
  halt   : Bool
  haltCluster : Nat
  /-- the state that a CLPM command takes a cluster to, step by step -/
  goal   : Option (Nat × BitVec 2)
deriving DecidableEq, Repr

/-- 19 R378: the SPDM responder's session and its last response. -/
structure Spdm where
  version : Bool
  caps    : Bool
  algs    : Bool
  response : List Byte
  signature : List Byte
deriving DecidableEq, Repr

structure HostSt where
  mb       : Mailbox
  booted   : Bool
  bootstat : BitVec 8
  peerup   : BitVec 16
  peerSize : Tab Nat
  peerMem  : Tab Bytes
  /-- the bytes that copies have written there with a poison mark -/
  peerBad  : Tab (List Nat)
  farDown  : List Nat
  /-- the capacity of the expander behind each far-memory port (19 R370); absent: 2^48 bytes (log 95) -/
  farSize  : Tab Nat
  msix     : List Nat
  spdm     : Spdm
  lastRead : List Byte
  lastReadPoison : Bool
  view     : View
deriving DecidableEq, Repr

/-- 21 R390, R396: a pseudo-channel's block. `map` lists the remapped rows with their spares, `shadowA` and `shadowB` its two
shadow copies with their generations, `events` each row's corrected events of the current pass, `fails` the retrains in a row
that have failed. -/
structure Pch where
  spare  : Nat
  oos    : Nat
  st     : Nat
  lc     : Nat
  lf     : Nat
  ac     : Nat
  au     : Nat
  rm     : Nat
  sc     : Nat
  rl     : Nat
  lastpa : Nat
  map    : Tab Nat
  shadowA : Tab Nat
  shadowB : Tab Nat
  genA   : Nat
  genB   : Nat
  events : Tab Nat
  fails  : Nat
deriving DecidableEq, Repr

abbrev Pch.reset : Pch := ⟨512, 0, 0, 0, 0, 0, 0, 0, 0, 0, 0, [], [], [], 0, 0, [], 0⟩

/-- 21 R392: an agent whose access a frozen or retraining pseudo-channel holds: its name and uid, and the pseudo-channels; and the event,
where it is one, that comes again. -/
structure Waiter where
  name : Nat
  uid  : Nat
  pchs : List Nat
  again : Option Instr
deriving DecidableEq, Repr

/-- 21 R393-R396: the scrubber's registers, the error log, the pseudo-channels, and the next line of the patrol. -/
structure Hbm where
  rmthr  : BitVec 8
  period : BitVec 8
  en     : Bool
  prog   : BitVec 16
  passes : BitVec 32
  head   : BitVec 16
  elog   : Tab (Word × Word)
  pchs   : Tab Pch
  cursor : Nat
  /-- held accesses in arrival order (R392) -/
  waiting : List Waiter
deriving DecidableEq, Repr

/-! ### The machine -/

/-- Who acts next (log 2). -/
inductive Turn where
  | fibre (core entry : Nat)
  | stream (core : Nat)
  | mc (cluster : Nat)
  | event (n : Nat)
  | input
  | idle
deriving DecidableEq, Repr

/-- 21 R389: a check that fails on the way: byte parity in a core, which poisons a lane of a register (or the whole of a U
register), or SECDED in the L2, which poisons a line. -/
inductive Upset where
  | lane (core entry reg place : Nat)
  | line (n : Nat)
deriving DecidableEq, Repr

structure State where
  mem      : Memory
  log      : List WriteRec
  nextId   : Nat
  cores    : Tab Core
  clusters : Tab Cluster
  ctxs     : Tab Ctx
  gens     : Tab (BitVec 8)
  launches : Tab Launch
  dies     : Tab Die
  tlb      : List TlbEnt
  ptrs     : List PtrEnt
  hbm      : Hbm
  host     : HostSt
  turn     : Turn
  agenda   : List Instr
  inputs   : List Instr
  upsets   : List Upset
  /-- what a fibre's load or a split MMA takes more than a moment: its data is on its way when the step ends (log 75) -/
  slow     : Bool
  draw     : Nat
  tick     : Nat
  fresh    : Nat
deriving DecidableEq, Repr

/-- The reasons the machine stops. -/
inductive Fault where
  /-- Raised by HOST_CXL_MEM_ACCESS and PEER_WRITE at an address outside the HBM range that the one HDM decoder decodes
  (19 R369, R370), or while CXL.mem is not decoded (19 R379). Safe: no such access exists on the device. -/
  | notDecoded (addr : Nat)
deriving DecidableEq, Repr

/-- The reasons an instruction has no meaning here. -/
inductive Refusal where
  /-- Raised by an arm of `exec` for an instruction that this model does not describe yet. Safe: nothing follows from it. -/
  | notModelled (mnemonic : String)
deriving DecidableEq, Repr

/-! ### Reset -/

/-- A thread with nothing in it. -/
abbrev Thread.blank (kind : Kind) : Thread :=
  { kind := kind, uid := 0, root := 0, ctx := 0, gen := 0, launch := 0, inst := none, box0 := Box.one, window := 64, box := Box.one
    pc := 0, clause := none, regs := [], preds := [], undefP := [], latches := [], rs := [], slot := [], sets := [], wdog := 0
    slotNo := none, progress := false, tokId := 0, failed := [], tokHb := [], st := .ready, why := .none, since := 0, expanded := false
    exBox := Box.one, active := [], blocks := [], lcause := 0, tmask := [], fbrec := none, view := View.empty
    lviews := [], farMarks := [], heldTraps := [], heldSt := .parked, behind := [], peeled := false }

/-- 07 R170, R200; registers without a stated reset value hold U 0, predicates F (log 9). -/
abbrev Mc.reset : Mc :=
  { th := Thread.blank .mc, on := false, halted := false, ie := false, inh := false, epc := 0, cause := 0, hvec := 0
    ctxsel := 0, root := 0, en := false, resume := .header, sel := .none, asleep := none, tlb := [] }

abbrev Cluster.reset : Cluster := ⟨Mc.reset, [], [], 0, Clpm.reset⟩

abbrev Die.reset : Die := ⟨[], 95, []⟩

/-- 21 R393-R395. -/
abbrev Hbm.reset : Hbm := ⟨4, 24, true, 0, 0, 0, [], [], 0, []⟩

/-- 19 R373, R374. -/
abbrev HostSt.reset : HostSt :=
  { mb := ⟨0, 0, 0, false, false, 0, none⟩, booted := false, bootstat := 3, peerup := 0, peerSize := [], peerMem := [], peerBad := []
    farDown := [], farSize := [], msix := [], spdm := ⟨false, false, false, [], []⟩, lastRead := [], lastReadPoison := false
    view := View.empty }

/-- The machine right after module reset: the boot ROM is the one step that is pending (19 R379). -/
def State.reset : State :=
  { mem := ⟨[], [], [], []⟩, log := [], nextId := 0, cores := [], clusters := [], ctxs := [], gens := [], launches := []
    dies := [], tlb := [], ptrs := [], hbm := Hbm.reset, host := HostSt.reset, turn := .event 0, agenda := [.moduleReset], inputs := []
    upsets := [], slow := false, draw := 0, tick := 0, fresh := 1 }

end Sys2Proof.Machine
end

