-- ==== Sys2Proof/Machine/Ops.lean ====
section
/-!
DEFINITION. Shared operations on the machine: units, indices, moving through a clause, taking a trap and returning.
-/

namespace Sys2Proof

/-- 05 R125: the type's width is 64 bits. -/
def ITy.is64 : ITy → Bool
  | .i64 | .n64 => true
  | _ => false
/-- 05 R130: registers of a memory operand. -/
def sizeRegs (size : BitVec 4) : Nat := if size = 8#4 then 4 else if size = 3#4 || size = 7#4 then 2 else 1

end Sys2Proof

namespace Sys2Proof.Machine

open Sys2Proof

/-- The outcome of a meaning. -/
abbrev Out := Host.Outcome State Fault Refusal

/-! ### 17 R349: trap causes -/

abbrev cIllegalOpcode : BitVec 8 := 0x01#8
abbrev cReservedField : BitVec 8 := 0x02#8
abbrev cIllegalClass : BitVec 8 := 0x03#8
abbrev cStaleLatch : BitVec 8 := 0x04#8
abbrev cOperandOverlap : BitVec 8 := 0x05#8
abbrev cNonuniform : BitVec 8 := 0x06#8
abbrev cRetUnderflow : BitVec 8 := 0x07#8
abbrev cStackLimit : BitVec 8 := 0x08#8
abbrev cPrivilege : BitVec 8 := 0x09#8
abbrev cPageFault : BitVec 8 := 0x10#8
abbrev cAccess : BitVec 8 := 0x11#8
abbrev cMisaligned : BitVec 8 := 0x12#8
abbrev cMemPoison : BitVec 8 := 0x13#8
abbrev cCopyRights : BitVec 8 := 0x14#8
abbrev cScratchRange : BitVec 8 := 0x15#8
abbrev cWatchdog : BitVec 8 := 0x18#8
abbrev cCancelled : BitVec 8 := 0x19#8
abbrev cBreakpoint : BitVec 8 := 0x1A#8
abbrev cTrapInstr : BitVec 8 := 0x1B#8
abbrev cMatrixConfig : BitVec 8 := 0x20#8
abbrev cTileRange : BitVec 8 := 0x21#8
abbrev cLaunchRecord : BitVec 8 := 0x30#8
abbrev cCounterFault : BitVec 8 := 0x31#8

/-! ### Lists without order -/

section
variable {α : Type} [BEq α]
def listInter (a b : List α) : List α := a.filter (b.contains ·)
def listDiff (a b : List α) : List α := a.filter (!b.contains ·)
def listUnion (a b : List α) : List α := a ++ b.filter (!a.contains ·)
end

/-- The lowest number below `n` that is not in `used`. -/
def lowestFree (used : List Nat) (n : Nat) : Option Nat := (List.range n).find? (!used.contains ·)

/-- The least element. -/
def listMin : List Nat → Option Nat
  | [] => none
  | x :: t => match listMin t with
    | none => some x
    | some y => some (min x y)

/-- Ascending order without repeats. -/
def insertAsc (x : Nat) : List Nat → List Nat
  | [] => [x]
  | y :: t => if x < y then x :: y :: t else if x = y then y :: t else y :: insertAsc x t
def sortAsc (l : List Nat) : List Nat := l.foldl (fun acc x => insertAsc x acc) []

def Tab.keys {α : Type} (t : Tab α) : List Nat := t.map Prod.fst
def Tab.vals {α : Type} (t : Tab α) : List α := t.map Prod.snd
/-- Write several entries. -/
def Tab.setAll {α : Type} (t : Tab α) (l : List (Nat × α)) : Tab α := l.foldl (fun t kv => Tab.set t kv.1 kv.2) t

/-! ### Units of the machine -/

/-- 03 R88: cores are numbered die × 96 + cluster × 8 + core. -/
def clusterOf (core : Nat) : Nat := core / 8
def dieOf (core : Nat) : Nat := core / 96

def State.core (s : State) (c : Nat) : Core := Tab.get s.cores Core.reset c
def State.setCore (s : State) (c : Nat) (x : Core) : State := { s with cores := Tab.set s.cores c x }
def State.cluster (s : State) (k : Nat) : Cluster := Tab.get s.clusters Cluster.reset k
def State.setCluster (s : State) (k : Nat) (x : Cluster) : State := { s with clusters := Tab.set s.clusters k x }
def State.mc (s : State) (k : Nat) : Mc := (s.cluster k).mc
def State.setMc (s : State) (k : Nat) (m : Mc) : State := s.setCluster k { s.cluster k with mc := m }
def State.setCtx (s : State) (k : Nat) (x : Ctx) : State := { s with ctxs := Tab.set s.ctxs k x }
def State.launch? (s : State) (l : Nat) : Option Launch := Tab.find? s.launches l
def State.setLaunch (s : State) (l : Nat) (x : Launch) : State := { s with launches := Tab.set s.launches l x }
def State.ctx? (s : State) (k : Nat) : Option Ctx := Tab.find? s.ctxs k
def State.die (s : State) (d : Nat) : Die := Tab.get s.dies Die.reset d
def State.setDie (s : State) (d : Nat) (x : Die) : State := { s with dies := Tab.set s.dies d x }
def State.post (s : State) (e : Instr) : State := { s with agenda := s.agenda ++ [e] }
/-- 16 R343: the generation of a context number. -/
def State.gen (s : State) (ctx : Nat) : BitVec 8 := Tab.get s.gens 0#8 ctx

/-- A core's state for a context; absent is the state at context start. -/
def Core.ctx (c : Core) (k : Nat) : CoreCtx := Tab.get c.cctx CoreCtx.reset k
def Core.setCtx (c : Core) (k : Nat) (x : CoreCtx) : Core := { c with cctx := Tab.set c.cctx k x }

def State.fibre? (s : State) (c e : Nat) : Option Thread := Tab.find? (s.core c).fibres e
def State.setFibre (s : State) (c e : Nat) (t : Thread) : State :=
  s.setCore c { s.core c with fibres := Tab.set (s.core c).fibres e t }
def State.delFibre (s : State) (c e : Nat) : State :=
  s.setCore c { s.core c with fibres := Tab.del (s.core c).fibres e }
def State.modFibre (s : State) (c e : Nat) (f : Thread → Thread) : State :=
  match s.fibre? c e with
  | some t => s.setFibre c e (f t)
  | none => s

/-- The thread of the agent whose turn it is. -/
def State.cur? (s : State) : Option Thread :=
  match s.turn with
  | .fibre c e => s.fibre? c e
  | .stream c => (s.core c).stream.map Stream.th
  | .mc k => some (s.mc k).th
  | _ => none

def State.setCur (s : State) (t : Thread) : State :=
  match s.turn with
  | .fibre c e => s.setFibre c e t
  | .stream c =>
    match (s.core c).stream with
    | some x => s.setCore c { s.core c with stream := some { x with th := t } }
    | none => s
  | .mc k => s.setMc k { s.mc k with th := t }
  | _ => s

/-- Run an operation of the current agent as another agent, the turn staying where it is. -/
def State.asTurn (s : State) (t : Turn) (f : State → State) : State :=
  { f { s with turn := t } with turn := s.turn }

/-- The core of the current agent; a management core has none. -/
def State.curCore (s : State) : Option Nat :=
  match s.turn with
  | .fibre c _ => some c
  | .stream c => some c
  | _ => none

/-- The identity of the matrix stream of a core, for scopes: it is no index of the core (03 R80). -/
def streamAgent (c : Nat) : Nat := 300 + c

/-- The identity under which the current agent stores (for scopes, 03 R80): the indices of a core are its number; management
cores are numbered from 192, streams from 300, the host and peers 1000. -/
def State.curAgent (s : State) : Nat :=
  match s.turn with
  | .fibre c _ => c
  | .stream c => streamAgent c
  | .mc k => 192 + k
  | _ => 1000

/-- The name of an agent in messages and lists: core × 8,192 plus its entry; 4,096 names the core's stream. -/
def State.curFrom (s : State) : Nat :=
  match s.turn with
  | .fibre c e => c * 8192 + e
  | .stream c => c * 8192 + 4096
  | .mc k => (192 + k) * 8192
  | _ => 0
/-- The turn of an agent so named. -/
def turnOf (core entry : Nat) : Turn :=
  if Config.numCores ≤ core then .mc (core - Config.numCores) else if entry = 4096 then .stream core else .fibre core entry
/-- The name of a core's copy engine, whose commands have their own numbers. -/
def copyName (core : Nat) : Nat := core * 8192 + 4100

/-! ### Boxes and indices (02 R35) -/

def Box.ex (b : Box) : Nat := b.x1 - b.x0
def Box.ey (b : Box) : Nat := b.y1 - b.y0
def Box.ez (b : Box) : Nat := b.z1 - b.z0
/-- 02 R35: the index count. -/
def Box.count (b : Box) : Nat := b.ex * b.ey * b.ez
/-- The index at a place of the box, places running in linear-number order, x fastest (02 R51). -/
def Box.idx (b : Box) (p : Nat) : Idx :=
  ⟨b.x0 + p % b.ex, b.y0 + p / b.ex % b.ey, b.z0 + p / (b.ex * b.ey)⟩
/-- The place of an index in the box. -/
def Box.place (b : Box) (i : Idx) : Nat := (i.x - b.x0) + b.ex * ((i.y - b.y0) + b.ey * (i.z - b.z0))
def Box.has (b : Box) (i : Idx) : Bool :=
  b.x0 ≤ i.x && i.x < b.x1 && b.y0 ≤ i.y && i.y < b.y1 && b.z0 ≤ i.z && i.z < b.z1
/-- A place of one box as a place of a smaller one. -/
def Box.remap (a b : Box) (p : Nat) : Option Nat := if b.has (a.idx p) then some (b.place (a.idx p)) else none
def Box.empty (b : Box) : Bool := b.x1 ≤ b.x0 || b.y1 ≤ b.y0 || b.z1 ≤ b.z0
def Box.lo (b : Box) : Axis → Nat
  | .x => b.x0
  | .y => b.y0
  | .z => b.z0
def Box.hi (b : Box) : Axis → Nat
  | .x => b.x1
  | .y => b.y1
  | .z => b.z1
def Box.setAxis (b : Box) (a : Axis) (lo hi : Nat) : Box :=
  match a with
  | .x => { b with x0 := lo, x1 := hi }
  | .y => { b with y0 := lo, y1 := hi }
  | .z => { b with z0 := lo, z1 := hi }
def Box.inter (a b : Box) : Box :=
  ⟨max a.x0 b.x0, min a.x1 b.x1, max a.y0 b.y0, min a.y1 b.y1, max a.z0 b.z0, min a.z1 b.z1⟩
def Idx.at_ (i : Idx) : Axis → Nat
  | .x => i.x
  | .y => i.y
  | .z => i.z

/-- 02 R51: the box whose enumeration fixes places: the box at expansion, or the fibre's own. -/
def Thread.frame (t : Thread) : Box := if t.expanded then t.exBox else t.box
def Thread.idxAt (t : Thread) (p : Nat) : Idx := t.frame.idx p
/-- The places of a fibre, in ascending linear number: its active lanes, or its whole box. -/
def Thread.places (t : Thread) : List Nat := if t.expanded then t.active else List.range t.box.count
/-- 02 R64: the fibre's index count, or its active lanes. -/
def Thread.count (t : Thread) : Nat := if t.expanded then t.active.length else t.box.count

/-- The grid box of the thread's launch. -/
def State.grid (s : State) (t : Thread) : Box :=
  match s.launch? t.launch with
  | some l => ⟨0, l.lr.gx, 0, l.lr.gy, 0, l.lr.gz⟩
  | none => t.box0
/-- 02 R35: the linear number of an index in the launch's grid. -/
def State.linOf (s : State) (t : Thread) (i : Idx) : Nat :=
  let g := s.grid t
  i.x + g.x1 * (i.y + g.y1 * i.z)
def State.lin (s : State) (t : Thread) (p : Nat) : Nat := s.linOf t (t.idxAt p)
/-- The lowest linear number of a fibre: of its lowest place. -/
def Thread.low (t : Thread) : Nat := match listMin t.places with
  | some p => p
  | none => 0

/-- Whether a list of places is one box, and which. -/
def Thread.boxOf (t : Thread) (ps : List Nat) : Option Box :=
  match ps with
  | [] => none
  | p :: _ =>
    let i0 := t.idxAt p
    let b := ps.foldl (fun (b : Box) q =>
      let i := t.idxAt q
      ⟨min b.x0 i.x, max b.x1 (i.x + 1), min b.y0 i.y, max b.y1 (i.y + 1), min b.z0 i.z, max b.z1 (i.z + 1)⟩)
      ⟨i0.x, i0.x + 1, i0.y, i0.y + 1, i0.z, i0.z + 1⟩
    if b.count = ps.length then some b else none

/-! ### Predicates (02 R44) -/

/-- 02 R44: normalise a cut to a box. -/
def Pred.norm (b : Box) : Pred → Pred
  | .c a thr ge => if thr ≤ b.lo a then (if ge then .t else .f) else if b.hi a ≤ thr then (if ge then .f else .t) else .c a thr ge
  | p => p

def Pred.neg (places : List Nat) : Pred → Pred
  | .t => .f
  | .f => .t
  | .c a thr ge => .c a thr (!ge)
  | .m l => .m (listDiff places l)

/-- The value of a predicate at a place. -/
def Thread.predAt (t : Thread) (p : Pred) (pl : Nat) : Bool :=
  match p with
  | .t => true
  | .f => false
  | .c a thr ge => let v := (t.idxAt pl).at_ a; if ge then thr ≤ v else v < thr
  | .m l => l.contains pl

def Thread.pred (t : Thread) (n : Nat) : Pred := Tab.get t.preds Pred.f n
def Thread.setPred (t : Thread) (n : Nat) (p : Pred) : Thread :=
  { t with preds := Tab.set t.preds n p, undefP := t.undefP.filter (· ≠ n) }

/-- Set a fibre's box, normalising its cuts (02 R44). -/
def Thread.setBox (t : Thread) (b : Box) : Thread :=
  { t with box := b, preds := t.preds.map fun kv => (kv.1, kv.2.norm b) }

/-- In an expanded fibre a predicate is T or F where its active lanes agree (02 R49). -/
def Thread.simplify (t : Thread) (p : Pred) : Pred :=
  match p with
  | .m l => if t.expanded then
      let yes := t.active.filter (l.contains ·)
      if yes.length = t.active.length then .t else if yes.isEmpty then .f else .m l
    else .m l
  | .c a thr ge => if t.expanded then
      let yes := t.active.filter (t.predAt (.c a thr ge) ·)
      if yes.length = t.active.length then .t else if yes.isEmpty then .f else .m yes
    else (Pred.c a thr ge).norm t.box
  | q => q

/-- 05 R124: the guard's predicate in the fibre. It keeps its form: under a guard M a destination becomes E or M whatever the
lanes' bits are (02 R43, 06 R143). -/
def Thread.guard (t : Thread) (g : Guard) : Pred :=
  if g.pred = 31#5 then .t
  else
    let p := t.pred g.pred.toNat
    match (if g.neg then p.neg t.active else p) with
    | .m l => .m l
    | q => t.simplify q

/-- What a guard lets through where only the indices it is true at matter: T or F where they agree (02 R49, 08 R227). -/
def Thread.guardAt (t : Thread) (g : Guard) : Pred := t.simplify (t.guard g)

/-! ### Moving through a clause (05 R116, R121; 02 R71) -/

/-- The address of the header after the clause. -/
def Clause.after (c : Clause) : Word := c.addr + BitVec.ofNat 64 (8 * (c.words.length + 1))

/-- Leave the clause for a header: the latches become undefined (05 R133) and the watchdog counts (02 R71). -/
def Thread.leave (t : Thread) (pc : Word) : Thread :=
  { t with pc := pc, clause := none, latches := [], wdog := if t.progress then t.wdog else t.wdog + 1, progress := false }

/-- The header after the current clause; with no clause, the next word. -/
def Thread.afterClause (t : Thread) : Word :=
  match t.clause with
  | some c => c.after
  | none => t.pc + 8

/-- Move past the current word: to the next word, or out of a clause that ends. -/
def Thread.advance (t : Thread) : Thread :=
  match t.clause with
  | some c => if c.pos + 1 < c.words.length then { t with pc := t.pc + 8, clause := some { c with pos := c.pos + 1 } }
      else t.leave c.after
  | none => { t with pc := t.pc + 8 }

/-- 02 R71: a progress event. -/
def Thread.progressed (t : Thread) : Thread := { t with wdog := 0, progress := true }

/-- The current agent moves past its word. -/
def State.advance (s : State) : State :=
  match s.cur? with
  | some t => s.setCur t.advance
  | none => s

/-- 05 R121: the current agent ends its clause and continues at the header after it. -/
def State.endClause (s : State) : State :=
  match s.cur? with
  | some t => s.setCur (t.leave t.afterClause)
  | none => s

/-- The current word of the running clause. -/
def Thread.word (t : Thread) : Word :=
  match t.clause with
  | some c => c.words.getD c.pos 0
  | none => 0

/-! ### Resources (02 R54): what the fibres of a core hold -/

/-- The lane rows that the fibres' E registers, per-lane return-stack entries and field-book records hold: 02 R52, 07 R190,
17 R357. Fibres that share a block share its rows. -/
def Thread.rowKeys (t : Thread) : List (Nat × Nat) :=
  if t.expanded then
    let eregs := t.regs.filterMap fun kv => match kv.2 with
      | .e _ _ => some kv.1
      | _ => none
    let stack := (List.range (t.rs.length + t.slot.length)).filterMap fun i =>
      match (t.rs ++ t.slot)[i]? with
      | some (.lanes _) => some i
      | _ => none
    t.blocks.flatMap fun b => eregs.map (fun r => (b, r)) ++ stack.flatMap (fun i => [(b, 1000 + 2 * i), (b, 1001 + 2 * i)])
  else []

def Core.threads (c : Core) : List Thread := Tab.vals c.fibres
def Core.usedBlocks (c : Core) : List Nat :=
  c.threads.foldl (fun acc t => if t.st = .swapped then acc else listUnion acc t.blocks) []
def Core.usedForms (c : Core) : Nat :=
  c.threads.foldl (fun acc t => if t.st = .swapped then acc else acc + t.window) 0
/-- Whether a record's lane bases, and its lane data, are 64 bits wide: such a value takes two lane rows a block (02 R52). -/
def FbRec.wides (f : FbRec) : Bool × Bool :=
  match decode f.instr with
  | .ok (.st o) => (true, 2 ≤ sizeRegs o.size)
  | .ok (.sts o) => (false, 2 ≤ sizeRegs o.size)
  | .ok (.atom o) => (true, o.w16 || o.ty.is64)
  | .ok (.atoms o) => (false, o.w16 || o.ty.is64)
  | .ok (.lds _) | .ok (.ldc _) => (false, false)
  | .ok (.waita o) => (!o.spad, o.w64)
  | _ => (true, false)
/-- The rows a field-book record keeps for its lane bases and data (17 R357). -/
def FbRec.rows (f : FbRec) : Nat :=
  let r (rows : Nat) : FVal → Nat
    | .e l => rows * ((l.length + 31) / 32)
    | _ => 0
  let (wide, two) := f.wides
  f.data.foldl (fun acc v => acc + r (if two then 2 else 1) v) (r (if wide then 2 else 1) f.addr)
def Core.usedRows (c : Core) : Nat :=
  (c.threads.foldl (fun (acc : List (Nat × Nat)) t =>
    if t.st = .swapped then acc else acc ++ t.rowKeys.filter (!acc.contains ·)) []).length
  + (Tab.vals c.book).foldl (fun acc f => acc + f.rows) 0
def Core.usedSlots (c : Core) (launch : Nat) : Nat :=
  (c.threads.filter fun t => t.launch = launch && !t.slot.isEmpty).length

/-- 02 R54: the core holds no more than it has, keeping `k` (entries, form entries, blocks, rows) free. -/
def Core.fits (c : Core) (k : Nat × Nat × Nat × Nat) : Bool :=
  c.fibres.length + k.1 ≤ Config.fibreEntries && c.usedForms + k.2.1 ≤ Config.formEntries
    && c.usedBlocks.length + k.2.2.1 ≤ Config.laneBlocks && c.usedRows + k.2.2.2 ≤ Config.laneRows

/-- 07 R191: every launch's slots on the core suffice. -/
def State.slotsFit (s : State) (c : Nat) : Bool :=
  (s.core c).threads.all fun t =>
    match s.launch? t.launch with
    | some l => (s.core c).usedSlots t.launch ≤ l.lr.csslots
    | none => t.slot.isEmpty

/-- 02 R54: the state `s'` that an operation of the current fibre makes, if the core has what it takes; else the fibre waits
before any effect. -/
def State.orWait (s s' : State) : State :=
  match s.turn with
  | .fibre c e => if (s'.core c).fits (0, 0, 0, 0) && s'.slotsFit c then s'
      else s.modFibre c e fun t => { t with st := .resourceWait, why := .resource, since := s.tick }
  | _ => s'

/-! ### Taking a trap (17 R348, R351; 07 R201; 05 R139) -/

/-- 07 R204: the handle of a fibre. -/
def handleOf (sq : Bool) (ctx core entry : Nat) : BitVec 32 :=
  BitVec.ofNat 32 ((if sq then 2 ^ 26 else 0) + ctx % 64 * 2 ^ 20 + core % 256 * 2 ^ 12 + entry % 4096)

/-- 17 R348: push a record, or hold it while the queue is full. -/
def State.pushTrap (s : State) (k : Nat) (r : TrapRec) : State :=
  let c := s.cluster k
  if c.trapq.length < Config.trapQueueSize && c.held.isEmpty then
    s.setCluster k { c with trapq := c.trapq ++ [{ r with seq := c.seq }], seq := c.seq + 1 }
  else (s.setCluster k { c with held := c.held ++ [r] }).post (.heldTrapPush k)

/-- 17 R351: the lane-block index set of a list of lanes. -/
def lanesSet (who : List Nat) : IndexSet :=
  match sortAsc who with
  | [] => .none
  | l =>
    let j0 := (l.headD 0) / 32
    let j1 := (l.getLastD 0) / 32
    .lanes j0 j1 (l.foldl (fun m p => if p / 32 = j0 then m ||| BitVec.ofNat 32 (2 ^ (p % 32)) else m) 0#32)

/-- 17 R351: the index set of the places that took a cause; none: every place of the fibre. -/
def Thread.indexSet (t : Thread) (who : Option (List Nat)) : Option IndexSet :=
  if t.expanded then some (lanesSet (who.getD t.active))
  else match who with
    | none => some (.box t.box)
    | some ps => (t.boxOf ps).map IndexSet.box

/-- The record of a trap of fibre (c, e). -/
def Thread.record (t : Thread) (c e : Nat) (cause : BitVec 8) (pc addr aux : Word) (ix : IndexSet) (who : List Nat)
    (fbv : Option Nat) : TrapRec :=
  { seq := 0, peeled := t.peeled, kind := 0, cause := cause, handle := handleOf false t.ctx c e, pc := pc, addr := addr
    aux := aux, index := ix, disp := 0, rule := 0, tile := 0, core := c, uid := t.uid, who := who, fbv := fbv, replay := false }

/-- 07 R201: a management core's own trap enters its handler, or halts it. `next`: MC_EPC is the next word (TRAP, BRK).
A halt shows in the mailbox (19 R374). -/
def State.mcTrap (s : State) (k : Nat) (cause : BitVec 8) (next : Bool) : State :=
  let m := s.mc k
  if m.inh then
    { s.setMc k { m with halted := true, cause := cause } with
      host := { s.host with mb := { s.host.mb with halt := true, haltCluster := k } } }
  else
    let t := m.th
    let t' := if next then t.advance else t
    let res : Resume := match t'.clause with
      | some c => if next || c.begun then .inClause c else .header
      | none => .header
    s.setMc k { m with epc := t'.pc, cause := cause, inh := true, resume := res
                       th := { t' with pc := m.hvec + 0x100, clause := none, latches := [] } }

/-- 17 R348, R351: the fibre of the turn takes a trap. `who`: the places that take it (none: all); `next`: the resume point is
the next word. The fibre parks, and a record enters its cluster's queue. -/
def State.fibreTrap (s : State) (c e : Nat) (t : Thread) (cause : BitVec 8) (addr aux : Word) (who : Option (List Nat))
    (next : Bool) : State :=
  let pc := t.pc
  let t1 := { (if next then t.advance else t) with st := .parked, why := .none, lcause := cause, tmask := if t.clause.isNone then [] else who.getD t.active }
  let ws := who.getD (if t.expanded && t.clause.isSome then t.active else [])
  -- a trap at a clause boundary and a header trap name no indices
  match (if t.clause.isNone then some IndexSet.none else t.indexSet who) with
  | some ix => (s.setFibre c e t1).pushTrap (clusterOf c) (t.record c e cause pc addr aux ix ws none)
  | none =>
    -- the record waits for the lane blocks that name its places (17 R351)
    (s.setFibre c e { t1 with st := .resourceWait, why := .resource, since := s.tick, heldSt := .parked
                              heldTraps := [t.record c e cause pc addr aux .none ws none] }).post (.resourceRetry c)

/-- 17 R351, KIND 1: a stream takes a trap and parks. -/
def State.streamTrap (s : State) (c : Nat) (x : Stream) (cause : BitVec 8) (addr aux : Word) (next : Bool) : State :=
  let t := { (if next then x.th.advance else x.th) with st := .parked, lcause := cause }
  (s.setCore c { s.core c with stream := some { x with th := t, plan := [] } }).pushTrap (clusterOf c)
    { seq := 0, peeled := false, kind := 1, cause := cause, handle := x.handle, pc := x.th.pc, addr := addr, aux := aux
      index := .none, disp := 0, rule := 0, tile := x.tile, core := c, uid := x.th.uid, who := [], fbv := none, replay := false }

/-- The one way in which the current agent takes a trap (05 R139, 07 R201, 17 R348). A management core resumes at the word for every cause
but that of TRAP and BRK. -/
def State.takeTrap (s : State) (cause : BitVec 8) (addr aux : Word) (who : Option (List Nat)) (next : Bool) : State :=
  match s.turn with
  | .fibre c e =>
    match s.fibre? c e with
    | some t => s.fibreTrap c e t cause addr aux who next
    | none => s
  | .stream c =>
    match (s.core c).stream with
    | some x => s.streamTrap c x cause addr aux next
    | none => s
  | .mc k => s.mcTrap k cause (next && (cause = cTrapInstr || cause = cBreakpoint))
  | _ => s

/-- A trap of the whole agent at its word, before any effect. -/
def State.trapAll (s : State) (cause : BitVec 8) : State := s.takeTrap cause 0 0 none false

/-- 07 R202: return from the management core's handler. The latches are undefined, and a header is fetched afresh. -/
def State.mcReturn (s : State) (k : Nat) : State :=
  let m := s.mc k
  match m.resume with
  | .header => s.setMc k { m with inh := false, th := { m.th.leave m.epc with clause := none } }
  | .inClause c =>
    let pos := (m.epc - c.addr).toNat / 8 - 1
    s.setMc k { m with inh := false, th := { m.th.leave m.epc with clause := some { c with pos := pos, begun := true } } }

/-! ### Clause headers, the watchdog's budget, cancellation -/

/-- The class of a clause header (05 R118). -/
def hdrClass (h : Word) : Nat := (h.extractLsb' 60 4).toNat

/-- 02 R72: the watchdog budget of a thread's context. -/
def State.budget (s : State) (t : Thread) : Nat :=
  match s.ctx? t.ctx with
  | some c => c.wdog.toNat
  | none => 0

/-- 16 R347: the thread's job is cancelled at its core. -/
def State.isCancelled (s : State) (c : Nat) (t : Thread) : Bool :=
  match s.launch? t.launch with
  | some l => (s.core c).cancelled.contains (t.ctx, l.lr.job.toNat)
  | none => false

/-- 02 R71: the count exceeds the budget. -/
def State.overBudget (s : State) (t : Thread) : Bool := 0 < s.budget t && s.budget t < t.wdog

/-! ### Waiting -/

/-- The current fibre leaves READY; it holds no place in issue (05 R117). One that waits already goes on with its wait, which began
when it did (02 R54). -/
def State.waitCur (s : State) (st : FState) (why : Why) : State :=
  match s.cur? with
  | some t => s.setCur { t with st := st, why := why, since := if t.st = st then t.since else s.tick }
  | none => s

/-- A READY agent that is inside an instruction which has not completed: a load whose data is on its way, a promoting acquire, a
CANCEL. 02 R38 and 05 R117 name no wait for these, so the agent stays READY and keeps its place in issue (05 R116). -/
def Why.stalls : Why → Bool
  | .loadData | .promote _ _ _ | .cancel _ _ => true
  | _ => false

/-- The agent may execute its next word. -/
def Thread.runs (t : Thread) : Bool := t.st = .ready && !t.why.stalls

/-- A fibre in RESOURCE_WAIT for what a record of it needs, as it stood before (17 R351, R352, R358). -/
def Thread.under (t : Thread) : Thread :=
  match t.why with
  | .peel _ st w | .faults _ _ st w => { t with st := st, why := w }
  | .held w => { t with st := t.heldSt, why := w }
  | _ => t
/-- The same fibre where what stood before has become `u`. -/
def Thread.over (t u : Thread) : Thread :=
  match t.why with
  | .peel r _ _ => { u with st := t.st, why := .peel r u.st u.why }
  | .faults fs fb _ _ => { u with st := t.st, why := .faults fs fb u.st u.why }
  | .held _ => { u with st := t.st, heldSt := u.st, why := .held u.why }
  | _ => u
/-- What a fibre waits on, beside resources. -/
def Thread.waitsOn (t : Thread) : Why := t.under.why

/-- A waiting fibre becomes READY at the next word. -/
def Thread.resumeNext (t : Thread) : Thread := { t.advance with st := .ready, why := .none }

/-- 02 R54: what frees resources lets a waiting fibre of the core retry. -/
def State.resourcesFreed (s : State) (c : Nat) : State :=
  if (s.core c).threads.any (fun t => t.st = .resourceWait) && !s.agenda.contains (.resourceRetry c)
  then s.post (.resourceRetry c) else s

end Sys2Proof.Machine
end

