-- ==== Sys2Proof/Machine/Fibres.lean ====
section
/-!
DEFINITION. Fibres as a whole: what they have observed, sets and barriers, splitting, cutting, expansion, ending (02 R47-R65).
-/

namespace Sys2Proof.Machine

open Sys2Proof

/-! ### What agents have observed (03 R81) -/

/-- The union of two views. -/
def View.join (a b : View) : View :=
  if b = View.empty then a
  else { hb := listUnion a.hb b.hb, pv := a.pv ++ b.pv.filter (!a.pv.contains ·), seen := listUnion a.seen b.seen
         acq := a.acq ++ b.acq, rel := a.rel ++ b.rel }

/-- An acquire of stores. -/
def View.gain (v : View) (hb : List Nat) : View := { v with hb := listUnion v.hb hb }

/-- The view of one index of a thread: what all of it has observed and what this index alone has. -/
def State.viewAt (s : State) (t : Thread) (p : Nat) : View :=
  match t.lviews with
  | [] => t.view
  | l => t.view.join (Tab.get l View.empty (s.lin t p))

/-- Change the view of one index; a thread of one index keeps one view. -/
def State.modViewAt (s : State) (t : Thread) (p : Nat) (f : View → View) : Thread :=
  if t.count = 1 then { t with view := f (s.viewAt t p), lviews := [] }
  else { t with lviews := Tab.set t.lviews (s.lin t p) (f (s.viewAt t p)) }

/-- What some places of a thread together may not pass over, and the thread with the views of those places changed: of an access that
one of them makes on behalf of all (08 R212). -/
def State.viewOf (s : State) (t : Thread) (ps : List Nat) : View :=
  match t.lviews with
  | [] => t.view
  | _ => ps.foldl (fun v p => v.join (s.viewAt t p)) View.empty
def State.modViewOf (s : State) (t : Thread) (ps : List Nat) (f : View → View) : Thread :=
  if 1 < ps.length && ps.length = t.count then { t with view := f t.view, lviews := t.lviews.map fun kv => (kv.1, f kv.2) }
  else ps.foldl (fun t p => s.modViewAt t p f) t

/-- The views that single indices of the thread have; those of indices it no longer holds play no part. -/
def State.ownViews (s : State) (t : Thread) : List View :=
  match t.lviews with
  | [] => []
  | l => let ls := t.places.map (s.lin t)
    (l.filter fun kv => ls.contains kv.1).map Prod.snd

/-- The view of a load that every index of the thread makes at once: it passes over nothing that one of them may not. -/
def State.viewAll (s : State) (t : Thread) : View := (s.ownViews t).foldl View.join t.view

/-- Everything that some index of the thread has observed. -/
def State.hbAll (s : State) (t : Thread) : List Nat := (s.ownViews t).foldl (fun acc v => listUnion acc v.hb) t.view.hb

/-- An acquire by every index. -/
def Thread.gain (t : Thread) (hb : List Nat) : Thread :=
  { t with view := t.view.gain hb, lviews := t.lviews.map fun kv => (kv.1, kv.2.gain hb) }

/-- 03 R80: both agents lie in a scope. Numbers below 192 are the indices of a core, below 1000 other agents of the module. -/
def inScope (scope a b : Nat) : Bool :=
  match scope with
  | 0 => a = b && a < 192
  | 1 => a < 1000 && b < 1000
  | _ => true

/-! ### Sets (02 R62-R65, 07 R172) -/

/-- The set that a key names for a fibre: 0xFFFF its tile's set. Where the launch has pre-joined no tile set, 02 R62 does not say
what SJOIN 0xFFFF does; here it creates and joins the tile's set (log 46). -/
def setId (t : Thread) (key : Nat) : Option Nat :=
  if key = 0xFFFF then t.inst.map fun i => t.ctx * 2 ^ 40 + 0x10000 + i else some (t.ctx * 2 ^ 40 + key)

/-- 02 R64: the member count. -/
def Core.members (c : Core) (k : Nat) : Nat :=
  c.threads.foldl (fun acc t => if t.sets.contains k then acc + t.count else acc) 0

/-- Whether a fibre waits at the barrier of a set. -/
def Thread.atBarrier (t : Thread) (k : Nat) : Bool :=
  match t.waitsOn with
  | .sbar k' => k = k'
  | .vote k' _ => k = k'
  | _ => false

/-- A U result written by an event into a waiting fibre's pair, or in class 1 into an m register (07 R172). -/
def Thread.putPairU (t : Thread) (n : Nat) (v : Word) : Thread :=
  if t.kind = .stream then { t with regs := Tab.set t.regs n (.u v false) }
  else { t with regs := Tab.set (Tab.set t.regs n (.u v false)) (n + 1) .p }

/-- 07 R172: what a completed vote writes, from the totals; SBAR writes nothing. The waiting fibre goes on at the next word. -/
def Thread.voteResult (t : Thread) (i : Instr) (arrived trues : Nat) : Thread :=
  match i with
  | .pany o => t.setPred o.p.toNat (if 0 < trues then .t else .f)
  | .pall o => t.setPred o.p.toNat (if trues = arrived then .t else .f)
  | .pcnt o =>
    let v : Word := BitVec.ofNat 64 trues
    let t1 := if o.d.nwb then t else t.putPairU o.d.n.toNat v
    match t.clause with
    | some c => { t1 with latches := Tab.set t1.latches (c.pos % 8) ⟨true, .u v, false, []⟩ }
    | none => t1
  | _ => t

/-- 08 R239: what stands in the entry of a fibre that is swapped out: of its window, its lanes and its latches the core holds nothing. -/
def Thread.placeholder (t : Thread) : Thread := { t with st := .swapped, regs := [], preds := [], latches := [], blocks := [] }

/-- Fibre (c, e), swapped out with the record `r`, as the thread `t`: in its record and in its entry. -/
def State.setSwapped (s : State) (c e : Nat) (r : SwapRec) (t : Thread) : State :=
  s.setCore c { s.core c with swaps := Tab.set (s.core c).swaps e { r with th := t }
                              fibres := Tab.set (s.core c).fibres e t.placeholder }

/-- Change a fibre, in its entry or, swapped out, in its swap record. -/
def State.modThread (s : State) (c e : Nat) (f : Thread → Thread) : State :=
  match Tab.find? (s.core c).swaps e with
  | some r => s.setSwapped c e r (f r.th)
  | none => s.modFibre c e f

/-- The wait of a fibre ends as `f` has it; a swapped fibre then waits to be resumed. -/
def State.wake (s : State) (c e : Nat) (f : Thread → Thread) : State :=
  let s1 := s.modThread c e fun t => t.over (f t.under)
  if (Tab.find? (s.core c).swaps e).isSome then s1.post (.waitcResume c e) else s1

/-- 02 R64, R65: complete the barrier of a set if all have arrived; dissolve a set without members. -/
def State.checkSet (s : State) (c k : Nat) : State :=
  let x := s.core c
  match Tab.find? x.sets k with
  | none => s
  | some st =>
    let n := x.members k
    if n = 0 then s.setCore c { x with sets := Tab.del x.sets k }
    else if 0 < st.arrived && st.arrived = n then
      let ws := x.fibres.filter fun kv => kv.2.sets.contains k && kv.2.atBarrier k
      let hb := ws.foldl (fun acc kv => listUnion acc (s.hbAll kv.2)) []
      let s1 := s.setCore c { x with sets := Tab.set x.sets k { st with arrived := 0, trues := 0 } }
      (ws.foldl (fun s kv => s.wake c kv.1 fun t =>
        let t1 := match t.why with
          | .vote _ i => t.voteResult i st.arrived st.trues
          | _ => t
        (t1.gain hb).resumeNext) s1).resourcesFreed c
    else s

/-! ### Entries, splitting and cutting -/

/-- Put a new fibre into the lowest free entry, with tokens of its own, all idle (02 R47). The number of an entry is not
given by 02 R47: log 19. -/
def State.addFibre (s : State) (c : Nat) (t : Thread) : State × Nat :=
  let e := (lowestFree (Tab.keys (s.core c).fibres) (Config.fibreEntries + 1)).getD Config.fibreEntries
  ({ s.setFibre c e { t with
      uid := s.fresh, tokId := s.fresh, failed := [], tokHb := [], fbrec := none, peeled := false, slotNo := none } with
      fresh := s.fresh + 1 }, e)

/-- 02 R47, R48: the entries that complete the current clause next, without a fibre switch. -/
def State.followWith (s : State) (c : Nat) (es : List Nat) : State :=
  s.setCore c { s.core c with follow := es ++ (s.core c).follow }

/-- The thread restricted to the places `ps` of an expanded fibre (02 R49). -/
def Thread.onLanes (t : Thread) (ps : List Nat) : Thread :=
  { t with active := ps, preds := t.preds.map fun kv => (kv.1, match kv.2 with
      | .m l => .m (listInter ps l)
      | p => p) }

/-- The two parts of a fibre where a predicate is true and where it is false (02 R47, R49). -/
def Thread.parts (t : Thread) (p : Pred) : Thread × Thread :=
  match p with
  | .c a thr ge =>
    let lo := t.setBox (t.box.setAxis a (t.box.lo a) thr)
    let hi := t.setBox (t.box.setAxis a thr (t.box.hi a))
    if ge then (hi, lo) else (lo, hi)
  | .m l => (t.onLanes (t.active.filter (l.contains ·)), t.onLanes (t.active.filter (!l.contains ·)))
  | _ => (t, t)

/-- Whether the true part holds the lowest linear number. -/
def Thread.trueLow (t : Thread) (p : Pred) : Bool :=
  match p with
  | .c _ _ ge => !ge
  | .m l => l.contains t.low
  | .t => true
  | .f => false

/-- Replace fibre (c, e) by two: the one with the lowest linear number keeps the entry and the tokens, the other takes a new
entry (02 R47). Answers the new entry. -/
def State.splitTwo (s : State) (c e : Nat) (low other : Thread) : State × Nat :=
  (s.setFibre c e low).addFibre c other

/-- 02 R48: split the current fibre at its word on a predicate that is neither T nor F. The true part goes on with `run`; the
false part passes the word, with the effect `pass` that a passed word may still have. The part with the lowest linear number
completes the clause first. -/
def State.splitAt (s : State) (p : Pred) (run : State → State) (pass : State → State := id) : State :=
  match s.turn, s.cur? with
  | .fibre c e, some t =>
    let (yes, no) := t.parts p
    if t.trueLow p then
      let (s1, e') := s.splitTwo c e yes no.advance
      s.orWait (pass (run (s1.followWith c [e'])))
    else
      let (s1, e') := s.splitTwo c e no.advance yes
      s.orWait (pass (s1.followWith c [e']))
  | _, _ => s

/-- 02 R43, R48, 06 R143: act under a guard where the word has a destination: on every place (`none`), or on the lanes whose
guard bit is true, be they none; under guard F, pass the word. -/
def State.guardedDst (s : State) (g : Guard) (run : Option (List Nat) → State → State) : State :=
  match s.cur? with
  | none => s
  | some t =>
    match t.guard g with
    | .t => run none s
    | .f => s.advance
    | .m l => run (some (t.active.filter (l.contains ·))) s
    | .c a thr ge => s.splitAt (.c a thr ge) (run none)

/-- 02 R43, R48: act under a guard where the word only acts: on every place (`none`), on the lanes whose guard bit is true, or,
where no index has a true guard, pass the word. -/
def State.guarded (s : State) (g : Guard) (run : Option (List Nat) → State → State) : State :=
  match s.cur? with
  | none => s
  | some t =>
    match t.guardAt g with
    | .t => run none s
    | .f => s.advance
    | .m l => run (some (t.active.filter (l.contains ·))) s
    | .c a thr ge => s.splitAt (.c a thr ge) (run none)

/-- The pieces of an interval, at most `k` long each. -/
def cutRange (lo hi k : Nat) : List (Nat × Nat) :=
  (List.range ((hi - lo + k - 1) / k)).map fun i => (lo + i * k, min hi (lo + (i + 1) * k))

/-- 02 R53: cut a box into pieces of at most `m` indices, in ascending order of their lowest linear number. -/
def Box.cutX (b : Box) (m : Nat) : List Box := (cutRange b.x0 b.x1 m).map fun r => b.setAxis .x r.1 r.2
def Box.cutY (b : Box) (m : Nat) : List Box :=
  if b.ey ≤ 1 then b.cutX m
  else if b.ex ≤ m then (cutRange b.y0 b.y1 (m / b.ex)).map fun r => b.setAxis .y r.1 r.2
  else (cutRange b.y0 b.y1 1).flatMap fun r => (b.setAxis .y r.1 r.2).cutX m
def Box.cut (b : Box) (m : Nat) : List Box :=
  if b.count ≤ m then [b]
  else if b.ez ≤ 1 then b.cutY m
  else if b.ex * b.ey ≤ m then (cutRange b.z0 b.z1 (m / (b.ex * b.ey))).map fun r => b.setAxis .z r.1 r.2
  else (cutRange b.z0 b.z1 1).flatMap fun r => (b.setAxis .z r.1 r.2).cutY m

/-- 02 R51: the thread with lanes for its whole box: cuts become per-lane bits; U and A registers stay as they are. -/
def Thread.expandIn (t : Thread) (blocks : List Nat) : Thread :=
  let ps := List.range t.box.count
  { t with expanded := true, exBox := t.box, active := ps, blocks := blocks
           preds := t.preds.map fun kv => (kv.1, match kv.2 with
             | .c a thr ge => .m (ps.filter (t.predAt (.c a thr ge) ·))
             | p => p) }

/-- 02 R53: the launch's E_MAX. -/
def State.emax (s : State) (t : Thread) : Nat :=
  match s.launch? t.launch with
  | some l => l.lr.emax
  | none => 4096

/-- 02 R51: fibre (c, e), as `t`, takes lane blocks for its box. The blocks taken may be beyond what the core has (02 R54). -/
def State.grow (s : State) (c e : Nat) (t : Thread) : State :=
  let n := (t.box.count + 31) / 32
  let free := ((List.range (Config.laneBlocks + n)).filter (!(s.core c).usedBlocks.contains ·)).take n
  s.setFibre c e (t.expandIn free)

/-- 02 R53: fibre (c, e), as `t`, is cut where it exceeds E_MAX. The piece that stays is answered; the others wait for lane
blocks, in which the core expands them in ascending order. -/
def State.cutUp (s : State) (c : Nat) (t : Thread) : State × Thread :=
  let pieces := t.box.cut (s.emax t)
  let s1 := pieces.tail.foldl (fun (s : State) b =>
    (s.addFibre c { t.setBox b with st := .resourceWait, why := .expand, since := s.tick }).1) s
  (if pieces.tail.isEmpty then s1 else s1.post (.resourceRetry c), t.setBox (pieces.headD t.box))

/-- 02 R51, R53: the current fibre expands, cut first where it exceeds E_MAX, and goes on with `k` as its first piece; the
other pieces wait at the same word. Where the core has not what it takes the fibre waits before any effect (02 R54). -/
def State.expandThen (s : State) (k : State → State) : State :=
  match s.turn, s.cur? with
  | .fibre c e, some t =>
    if t.expanded then k s
    else
      let (s1, first) := s.cutUp c t
      s.orWait (k (s1.grow c e first))
  | _, _ => k s

/-! ### Ending -/

/-- Something of the launch's work on a core (16 R338). -/
def Core.hasLaunch (c : Core) (l : Nat) : Bool :=
  c.threads.any (fun t => t.launch = l) || c.copyq.any (fun q => q.launch = l) || c.forkq.any (fun f => f.launch = l)
    || (match c.stream with
      | some x => x.th.launch = l
      | none => false)
    || (Tab.vals c.insts).any (fun i => i.launch = l)

/-- Work of the launch that a context switch has saved has not ended either. -/
def Saved.hasLaunch (v : Saved) (l : Nat) : Bool :=
  (Tab.vals v.fibres).any (fun t => t.launch = l) || v.copyq.any (fun q => q.launch = l) || v.forkq.any (fun f => f.launch = l)
    || v.stream.any (fun x => x.th.launch = l) || (Tab.vals v.insts).any (fun i => i.launch = l)

/-- Some work of the launch has not ended, on a core or in a save area (16 R338). -/
def State.hasLaunch (s : State) (l : Nat) : Bool :=
  (Tab.vals s.cores).any (·.hasLaunch l) || (Tab.vals s.ctxs).any fun k => (Tab.vals k.saved).any (·.hasLaunch l)

/-- Post the finish of a launch whose work has all ended (16 R338). -/
def State.checkLaunch (s : State) (l : Nat) : State :=
  match s.launch? l with
  | some x =>
    if !x.finished && x.ended = x.made && !s.hasLaunch l && !s.agenda.contains (.launchFinish l)
    then s.post (.launchFinish l) else s
  | none => s

def Core.instFibres (c : Core) (i : Nat) : Bool := c.threads.any fun t => t.inst = some i
def Core.instBusy (c : Core) (i : Nat) : Bool :=
  c.instFibres i || c.copyq.any (fun q => q.inst = i) || c.forkq.any (fun f => f.inst = i)
    || (match c.stream with
      | some x => x.inst = i
      | none => false)

/-- 03 R75, 16 R338, R339: when the last fibre of a tile has ended its swap reserve returns; when its commands have completed
too, its scratch is freed and its task record has ended. -/
def State.checkInst (s : State) (c i : Nat) : State :=
  let x := s.core c
  match Tab.find? x.insts i with
  | none => s
  | some ti =>
    let s1 := if x.instFibres i || ti.reserve = 0 then s else
      match s.ctx? ti.ctx with
      | some k => (s.setCtx ti.ctx { k with poolUsed := k.poolUsed - ti.reserve }).setCore c
          { x with insts := Tab.set x.insts i { ti with reserve := 0 } }
      | none => s
    if x.instBusy i then s1
    else
      let y := s1.core c
      let y1 := { y with insts := Tab.del y.insts i
                         scratch := match ti.scratch with
                           | some a => Tab.del y.scratch a
                           | none => y.scratch }
      let s2 := s1.setCore c y1
      let s3 := match s2.launch? ti.launch with
        | some l => s2.setLaunch ti.launch { l with ended := l.ended + 1 }
        | none => s2
      (s3.checkLaunch ti.launch).post (.tileStart c)

/-- 16 R338: what the launch's work has stored, as an ending agent of it has observed it. -/
def State.addStores (s : State) (launch : Nat) (hb : List Nat) : State :=
  match s.launch? launch with
  | some l => s.setLaunch launch { l with stores := listUnion l.stores hb }
  | none => s

/-- The same for the places of a thread that end before the others. -/
def State.endStores (s : State) (t : Thread) (ps : List Nat) : State := s.addStores t.launch (listUnion t.view.hb (s.viewOf t ps).hb)

/-- A fibre ends: it leaves every set, its entry is freed, and what that completes is completed (07 R193, R181). -/
def State.endFibre (s : State) (c e : Nat) : State :=
  match s.fibre? c e with
  | none => s
  | some t =>
    let x := s.core c
    let s := s.addStores t.launch (s.hbAll t)
    let s1 := s.setCore c { x with fibres := Tab.del x.fibres e, swaps := Tab.del x.swaps e
                                   follow := x.follow.filter (· ≠ e) }
    let s2 := t.sets.foldl (fun s k => s.checkSet c k) s1
    let s3 := match t.inst with
      | some i => s2.checkInst c i
      | none => s2.checkLaunch t.launch
    s3.resourcesFreed c

/-- 07 R193: the places `ps` of fibre (c, e) end; with none left the fibre ends. A set whose count falls may complete. -/
def State.endLanes (s : State) (c e : Nat) (ps : List Nat) : State :=
  match s.fibre? c e with
  | none => s
  | some t =>
    let left := listDiff t.active ps
    if left.isEmpty then s.endFibre c e
    else t.sets.foldl (fun s k => s.checkSet c k) ((s.endStores t ps).setFibre c e (t.onLanes left))

end Sys2Proof.Machine
end

