-- ==== Sys2Proof/Machine/Mem.lean ====
section
/-!
DEFINITION. Memory: bytes in canonical form, the stores in modification order, which value a load returns (03 R81-R86), and
translation (17 R361, R362, R399; 19 R370; 07 R402), and where HBM keeps an address (21 R385).
-/

namespace Sys2Proof.Machine

open Sys2Proof

/-! ### Bytes in canonical form -/

/-- The byte at an address; an unlisted byte reads zero (log 3). -/
def Bytes.get : Bytes → Nat → Byte
  | [], _ => 0
  | (a, v) :: t, k => if k = a then v else Bytes.get t k

/-- Write a byte: zero removes the cell. -/
def Bytes.put : Bytes → Nat → Byte → Bytes
  | [], k, v => if v = 0 then [] else [(k, v)]
  | (a, w) :: t, k, v =>
    if k < a then (if v = 0 then (a, w) :: t else (k, v) :: (a, w) :: t)
    else if k = a then (if v = 0 then t else (k, v) :: t)
    else (a, w) :: Bytes.put t k v

/-- The canonical form: strictly rising addresses and no zero byte. -/
def Bytes.wf : Bytes → Bool
  | [] => true
  | [(_, v)] => v ≠ 0
  | (a, v) :: (b, w) :: t => v ≠ 0 && a < b && Bytes.wf ((b, w) :: t)

/-- Memory in canonical form. -/
def Memory.wf (m : Memory) : Bool := Bytes.wf m.cells

def Bytes.read (m : Bytes) (a n : Nat) : List Byte := (List.range n).map fun i => Bytes.get m (a + i)
def Bytes.write (m : Bytes) (a : Nat) : List Byte → Bytes
  | [] => m
  | b :: t => Bytes.write (Bytes.put m a b) (a + 1) t

/-- The bytes of a list from an address on, in canonical form. -/
def Bytes.pack (a : Nat) : List Byte → Bytes
  | [] => []
  | b :: t => if b = 0 then Bytes.pack (a + 1) t else (a, b) :: Bytes.pack (a + 1) t

/-- 00 R5: little-endian. -/
def leNat : List Byte → Nat
  | [] => 0
  | b :: t => b.toNat + 256 * leNat t
def leBytes : Nat → Nat → List Byte
  | 0, _ => []
  | n + 1, v => BitVec.ofNat 8 v :: leBytes n (v / 256)

/-! ### The two kinds of space: physical memory and scratch allocations -/

/-- none: physical memory; (core, allocation): scratch. -/
abbrev Space := Option (Nat × Nat)

/-- A scratch byte; one that nothing has written is undefined (03 R75; log 12). -/
def Scratch.get (x : Scratch) (al a : Nat) : Byte := Tab.get x.bytes (Config.freeByte al a) a

def State.readByte (s : State) (sp : Space) (a : Nat) : Byte :=
  match sp with
  | none => Bytes.get s.mem.cells a
  | some (c, al) => match Tab.find? (s.core c).scratch al with
    | some x => x.get al a
    | none => 0
/-- The bytes now last in modification order. -/
def State.readBytes (s : State) (sp : Space) (a n : Nat) : List Byte := (List.range n).map fun i => s.readByte sp (a + i)

/-! ### HBM: lines, rows and pseudo-channels (21 R385, R388, R392) -/

/-- 21 R388: the 64-byte line of an address. -/
def lineOf (a : Nat) : Nat := a / 64

/-- 19 R370: the range of each kind of memory. -/
def inHbm (pa : Nat) : Bool := pa < 2 ^ 39
def inFar (pa : Nat) : Bool := 2 ^ 50 ≤ pa && pa < 2 ^ 50 + 2 ^ 49
def inHost (pa : Nat) : Bool := 2 ^ 51 ≤ pa && pa < 2 ^ 52
/-- 19 R370: the far-memory port of an address. -/
def farPort (pa : Nat) : Nat := (pa - 2 ^ 50) / 2 ^ 48
/-- 19 R370: memory stands behind the address: an expander is mapped from the start of its port's range. -/
def State.populated (s : State) (pa : Nat) : Bool :=
  inHbm pa || inHost pa || (inFar pa && (pa - 2 ^ 50) % 2 ^ 48 < Tab.get s.host.farSize (2 ^ 48) (farPort pa))
/-- 17 R363: the access does not reach far memory, its port being down. -/
def State.farLost (s : State) (pa : Nat) : Bool := inFar pa && s.host.farDown.contains (farPort pa)

/-- 21 R385: the stack, the pseudo-channel and the row of an address. -/
def granuleOf (pa : Nat) : Nat := pa / 256 % 2 ^ 31
def stackOf (pa : Nat) : Nat := granuleOf pa % 8
def pchNumOf (pa : Nat) : Nat := granuleOf pa / 8 % 160
def pchOf (pa : Nat) : Nat := 160 * stackOf pa + pchNumOf pa
def rowOf (pa : Nat) : Nat := granuleOf pa / 1280 / 4

def State.pch (s : State) (k : Nat) : Pch := Tab.get s.hbm.pchs Pch.reset k
def State.setPch (s : State) (k : Nat) (x : Pch) : State := { s with hbm := { s.hbm with pchs := Tab.set s.hbm.pchs k x } }

/-- The lines of a range. -/
def linesOf (pa n : Nat) : List Nat := if n = 0 then [] else (List.range (lineOf (pa + n - 1) - lineOf pa + 1)).map (lineOf pa + ·)

/-- The parts of a range that lie in one line each: address and length. -/
def lineParts (pa n : Nat) : List (Nat × Nat) :=
  (linesOf pa n).map fun l => (max pa (64 * l), min (pa + n) (64 * l + 64) - max pa (64 * l))

/-- 21 R392: the pseudo-channels of a range in a given state. -/
def State.pchIn (s : State) (pa n st : Nat) : Bool :=
  inHbm pa && (linesOf pa n).any fun l => (s.pch (pchOf (64 * l))).st = st

/-- 21 R392, R386: an access to a frozen or retraining pseudo-channel is held. -/
def State.heldAt (s : State) (pa n : Nat) : Bool := s.pchIn pa n 1 || s.pchIn pa n 2

/-- 21 R392: reads of an out-of-service pseudo-channel return poison, and stores to it are discarded. -/
def State.deadAt (s : State) (pa n : Nat) : Bool := s.pchIn pa n 3

/-- 21 R387: the line's stored symbols are beyond correction. -/
def State.lineBad (s : State) (line : Nat) : Bool :=
  match Tab.find? s.mem.flaws line with
  | some n => n ≠ 1
  | none => false

/-- 08 R226, 21 R387, R388: the byte reads as poison. -/
def State.poisonAt (s : State) (sp : Space) (a : Nat) : Bool :=
  match sp with
  | none => s.mem.pbytes.contains a || s.mem.plines.contains (lineOf a) || s.lineBad (lineOf a)
  | some (c, al) => match Tab.find? (s.core c).scratch al with
    | some x => x.pbytes.contains a
    | none => false
def State.poisonIn (s : State) (sp : Space) (a n : Nat) : Bool := (List.range n).any fun i => s.poisonAt sp (a + i)

/-- The range reads as poison: a marked byte, a bad line, or a pseudo-channel out of service. -/
def State.badRead (s : State) (sp : Space) (a n : Nat) : Bool := s.poisonIn sp a n || (sp.isNone && s.deadAt a n)

/-- 21 R388: a write of a whole line makes it good again. -/
def wholeLines (a n : Nat) : List Nat :=
  (List.range (n / 64 + 2)).filterMap fun i =>
    let l := lineOf a + i
    if a ≤ 64 * l && 64 * l + 64 ≤ a + n then some l else none

/-- Write bytes, setting or clearing their poison marks. A write of a whole line leaves nothing of its poison or its bad symbols;
of less than a whole bad line it changes no byte (21 R388, R391). Poison of less than a line is a mark on each byte, which a clean store
of the byte clears (log 123). -/
def State.writeBytes (s : State) (sp : Space) (a : Nat) (data : List Byte) (poison : List Bool) : State :=
  let n := data.length
  let marks := (List.range n).filterMap fun i => if poison.getD i false then some (a + i) else none
  let keep (l : List Nat) : List Nat := l.filter fun x => !(a ≤ x && x < a + n)
  match sp with
  | none =>
    let m := s.mem
    let left := listDiff m.plines (wholeLines a n)
    let flaws := m.flaws.filter fun kv => !(wholeLines a n).contains kv.1
    let stuck := left ++ (flaws.filter fun kv => kv.2 ≠ 1).map Prod.fst
    let cells := if stuck.any (fun l => a < 64 * l + 64 && 64 * l < a + n) then
        (List.range n).foldl (fun c i => if stuck.contains (lineOf (a + i)) then c else Bytes.put c (a + i) (data.getD i 0)) m.cells
      else Bytes.write m.cells a data
    { s with mem := { m with cells := cells, pbytes := keep m.pbytes ++ marks, plines := left, flaws := flaws } }
  | some (c, al) =>
    match Tab.find? (s.core c).scratch al with
    | some x =>
      let x' := { x with bytes := Tab.setAll x.bytes ((List.range n).map fun i => (a + i, data.getD i 0))
                         pbytes := keep x.pbytes ++ marks }
      s.setCore c { s.core c with scratch := Tab.set (s.core c).scratch al x' }
    | none => s

/-! ### Stores in modification order, and what a load returns -/

/-- Perform a store: the newest in the modification order of its bytes. `rel`: what it releases. -/
def State.store (s : State) (sp : Space) (a : Nat) (data : List Byte) (poison : List Bool) (path : Path) (agent : Nat)
    (rel : List Release) : State :=
  let w : WriteRec := { id := s.nextId, space := sp, addr := a, len := data.length, old := s.readBytes sp a data.length
                        oldBad := (List.range data.length).map fun i => s.poisonAt sp (a + i)
                        path := path, core := agent, launch := none, rel := rel, vis := .own, rmw := false, tick := s.tick
                        unit := some (a, data.length) }
  { s.writeBytes sp a data poison with log := w :: s.log, nextId := s.nextId + 1 }

/-- What a store by an agent releases: its own release at a scope, and at the scopes of its earlier release fences, at which the
store counts as the release (03 R81). -/
def View.releases (v : View) (agent id : Nat) (scope : Option Nat) : List Release :=
  (scope.toList ++ v.rel).map fun k => ⟨k, agent, id :: v.hb⟩

/-- Complete the record of the store that led from `before`; a store that was discarded has none. -/
def State.markStore (s before : State) (f : WriteRec → WriteRec) : State :=
  if s.nextId = before.nextId then s else { s with log := match s.log with
    | w :: rest => f w :: rest
    | [] => [] }

/-- A store by an agent with a view; the view then holds it. -/
def State.storeBy (s : State) (v : View) (sp : Space) (a : Nat) (data : List Byte) (poison : List Bool) (path : Path)
    (agent : Nat) (scope : Option Nat) : State × View :=
  (s.store sp a data poison path agent (v.releases agent s.nextId scope), { v with hb := listUnion [s.nextId] v.hb })

def WriteRec.covers (w : WriteRec) (sp : Space) (a n : Nat) : Bool := w.space = sp && w.addr < a + n && a < w.addr + w.len
/-- The store writes the byte. -/
def WriteRec.hasByte (w : WriteRec) (a : Nat) : Bool := w.addr ≤ a && a < w.addr + w.len

/-- 03 R82, R83: byte `a` of a store is visible to a load on a path; one that the index has read is not passed over either, nor
by a load at the home (`home`) one that was made on its path. -/
def View.stops (v : View) (path : Path) (home : Bool) (w : WriteRec) (a : Nat) : Bool :=
  w.vis = .atOnce || v.seen.contains (w.id, a) || (home && w.path = path) || (v.hb.contains w.id && (w.path = path || w.vis = .every || v.pv.contains (w.id, path)))

/-- The byte, and whether it is poisoned, with the newest stores `ws` undone. -/
def undoByte (a : Nat) (b : Byte × Bool) : List WriteRec → Byte × Bool
  | [] => b
  | w :: t => undoByte a (if w.hasByte a then (w.old.getD (a - w.addr) 0, w.oldBad.getD (a - w.addr) false) else b) t

/-- What a load found: its bytes with their poison, the store that each byte came from, and the releases it read. -/
structure Got where
  bytes : List Byte
  bads  : List Bool
  from_ : List (Nat × Nat)
  rels  : List Release

def Got.join (gs : List Got) : Got :=
  ⟨gs.flatMap Got.bytes, gs.flatMap Got.bads, gs.flatMap Got.from_, gs.flatMap Got.rels⟩
/-- Some byte of it is poisoned (08 R226). -/
def Got.bad (g : Got) : Bool := g.bads.any id

/-- One byte with the `k` newest of the stores `cov` passed over. Poison goes with the version of the byte (21 R388). -/
def State.versionAt (s : State) (sp : Space) (cov : List WriteRec) (a k : Nat) : Got :=
  let rest := (cov.drop k).filter (·.hasByte a)
  let b := undoByte a (s.readByte sp a, s.poisonAt sp a) (cov.take k)
  ⟨[b.1], [b.2], (rest.take 1).map fun w => (w.id, a), rest.flatMap WriteRec.rel⟩

/-- The same as a load reads it: a pseudo-channel that is out of service gives poison whatever is read (21 R392). -/
def State.readAt (s : State) (sp : Space) (cov : List WriteRec) (a k : Nat) : Got :=
  let g := s.versionAt sp cov a k
  if sp.isNone && s.deadAt a 1 then { g with bads := [true] } else g

/-- What is last in modification order: what is read at the home (03 R90, R91). -/
def State.readHome (s : State) (sp : Space) (a n : Nat) : Got :=
  let cov := s.log.filter (·.covers sp a n)
  Got.join ((List.range n).map fun i => s.readAt sp cov (a + i) 0)

/-- A choice among 0 to n. -/
def upTo (n x : Nat) : Nat := if n = 0 then 0 else x % (n + 1)

/-- 03 R82, R83, R89: a load of n bytes on a path by an agent with view `v`, named `who` for the choices that are left open. Each
byte returns a store that no visible one follows. Where the bytes belong to an atomic access of `whole` (address and size), a
store of that very access on the same path, or made visible on it, is returned in all of them or passed over in all. `home`: no snapshot holds the bytes. -/
def State.readChoice (s : State) (v : View) (path : Path) (home : Bool) (sp : Space) (a n : Nat) (who : Nat)
    (whole : Option (Nat × Nat)) : Got :=
  let cov := s.log.filter (·.covers sp a n)
  let reach (b : Nat) : Nat := (cov.takeWhile fun w => !(w.hasByte b && v.stops path home w b)).length
  let bs := (List.range n).map (a + ·)
  let all := bs.foldl (fun m b => min m (reach b)) cov.length
  let same (i : Nat) : Bool := (cov[i]?).any fun w => whole.isSome && whole = w.unit
    && (w.path = path || w.vis ≠ .own || v.pv.contains (w.id, path))
  let cuts := (List.range all).filter same
  let lo := (0 :: cuts.map (· + 1)).getD (upTo cuts.length (Config.pick s.draw (2 * who) a)) 0
  let hi := ((List.range cov.length).find? fun i => lo ≤ i && same i).getD cov.length
  Got.join (bs.map fun b =>
    s.readAt sp cov b (lo + upTo (min hi (reach b) - lo) (Config.pick s.draw (2 * who + 1) b)))

/-- 03 R81, R85, R87: the stores that an acquire gains from the releases it read; a completion word is acquired at device scope
whatever the scope of the access. `owner`: the core a promoting acquire names. -/
def acquired (rels : List Release) (scope agent : Nat) (owner : Option Nat) : List Nat :=
  rels.foldl (fun acc r =>
    if (if r.scope = 3 then inScope 1 r.core agent else inScope r.scope r.core agent && inScope scope r.core agent)
        || owner = some r.core then listUnion acc r.hb else acc) []

/-- A load's effect on a view: what it read, and for an acquire what it gains. -/
def View.afterLoad (v : View) (g : Got) (agent : Nat) (acq : Option Nat) (owner : Option Nat) : View :=
  let v1 := { v with seen := listUnion v.seen g.from_, acq := listUnion v.acq g.rels }
  match acq with
  | some scope => v1.gain (acquired g.rels scope agent owner)
  | none => v1

/-- 03 R81: an acquire fence takes what earlier loads have read; a release fence makes later stores releases. -/
def View.fence (v : View) (agent : Nat) (acq rel : Bool) (scope : Nat) : View :=
  let v1 := if acq then v.gain (acquired v.acq scope agent none) else v
  if rel then { v1 with rel := listUnion v1.rel [scope] } else v1

/-- 03 R83, 08 R221: PFENCE. -/
def State.pfenceView (s : State) (v : View) (prod cons : List Path) : View :=
  let ids := (s.log.filter fun w => v.hb.contains w.id && prod.contains w.path).map WriteRec.id
  { v with pv := v.pv ++ (ids.flatMap fun i => cons.map fun q => (i, q)).filter (!v.pv.contains ·) }

def pathsOf (m : BitVec 4) : List Path :=
  (if m.getLsbD 0 then [.F] else []) ++ (if m.getLsbD 1 then [.C] else []) ++ (if m.getLsbD 2 then [.X] else [])
    ++ (if m.getLsbD 3 then [.H] else [])

/-! ### Translation -/

/-- What an access needs of its page (17 R361). -/
inductive Perm where
  | r
  | w
  | rw
  | x
deriving DecidableEq, Repr

/-- The outcome of a translation: a physical address with its leaf, or a cause with REASON or the ACCESS_VIOLATION code, and
the level at which the walk stopped. -/
inductive Xlat where
  | ok (pa : Nat) (level : Nat) (leaf : Word)
  | fault (cause : BitVec 8) (reason level : Nat)
deriving DecidableEq, Repr

def leafFar (l : Word) : Bool := l.getLsbD 7
def leafRpl (l : Word) : Bool := l.getLsbD 6
def leafSys (l : Word) : Bool := l.getLsbD 8
/-- 17 R361, 19 R369: a page of which no snapshot is kept in an L1: its loads read the home. -/
def leafHome (l : Word) : Bool := leafSys l || !l.getLsbD 5
def leafPa (l : Word) : Nat := (l.extractLsb' 16 36).toNat * 2 ^ 16

/-- Bits of the page offset at each level: 0 L2, 1 L1, 2 L0. -/
def levelBits (level : Nat) : Nat := 42 - 13 * level

/-- 17 R361, 19 R370: what is wrong with a leaf at a level. -/
def State.leafBad (s : State) (level : Nat) (l : Word) : Bool :=
  l.extractLsb' 52 12 ≠ 0#12 || l.extractLsb' 9 7 ≠ 0#7 || (leafRpl l && !leafFar l) || (leafFar l && leafSys l)
    || (level < 2 && leafPa l % 2 ^ levelBits level ≠ 0)
    || !(s.populated (leafPa l) && (if leafFar l then inFar (leafPa l) else if leafSys l then inHost (leafPa l) else inHbm (leafPa l)))

/-- The address of the entry that a walk reads in a table at a level. -/
def entryAt (va table level : Nat) : Nat := table + 8 * (va / 2 ^ levelBits level % 2 ^ 13)

/-- A failed walk's code for an entry that reads as poison, beside the REASONs of 17 R351. -/
abbrev walkPoison : Nat := 4

/-- The walk from a table at a level: an L2, L1 or L0 leaf, or the REASON of the failure and its level. What a walk does with a
poisoned entry is not stated: it takes it for no entry, and the access meets poison (log 76). -/
def State.walk (s : State) (va : Nat) : Nat → Nat → Nat → Except (Nat × Nat) (Nat × Word)
  | 0, _, level => .error (3, level)
  | n + 1, table, level =>
    let at_ := entryAt va table level
    let e : Word := BitVec.ofNat 64 (leNat (Bytes.read s.mem.cells at_ 8))
    if s.badRead none at_ 8 then .error (walkPoison, level)
    else if !e.getLsbD 0 then .error (level, level)
    else if e.getLsbD 1 then (if s.leafBad level e then .error (3, level) else .ok (level, e))
    else if level = 2 || e.extractLsb' 52 12 ≠ 0#12 || e.extractLsb' 9 7 ≠ 0#7 || (leafRpl e && !leafFar e)
        || (leafFar e && leafSys e) then .error (3, level)
    else s.walk va n (leafPa e) (level + 1)

/-- The entries that the walk reads: level, address, entry; the last is the leaf, or what the walk fails at. -/
def State.walkPath (s : State) (va : Nat) : Nat → Nat → Nat → List (Nat × Nat × Word)
  | 0, _, _ => []
  | n + 1, table, level =>
    let at_ := entryAt va table level
    let e : Word := BitVec.ofNat 64 (leNat (Bytes.read s.mem.cells at_ 8))
    (level, at_, e) :: (if s.badRead none at_ 8 || !e.getLsbD 0 || e.getLsbD 1 then [] else s.walkPath va n (leafPa e) (level + 1))

def permOk (p : Perm) (l : Word) : Bool :=
  match p with
  | .r => l.getLsbD 2
  | .w => l.getLsbD 3
  | .rw => l.getLsbD 2 && l.getLsbD 3
  | .x => l.getLsbD 4
/-- 17 R351: AUX of an ACCESS_VIOLATION for a missing permission: 1 no R, 2 no W, 3 no X. -/
def permCode (p : Perm) (l : Word) : Nat :=
  match p with
  | .r => 1
  | .w => 2
  | .rw => if l.getLsbD 2 then 2 else 1
  | .x => 3

/-- The address spaces that are translated: a context's, as one of the units reaches it, or a management core's own (07 R402). -/
inductive VSpace where
  | ctx (n : Nat) (unit : TlbUnit)
  | mc (k : Nat)
deriving DecidableEq, Repr

/-- 17 R362: the TLBs that serve a unit: its own, its core's, its die's. -/
def TlbUnit.chain : TlbUnit → List TlbUnit
  | .micro c p => [.micro c p, .core c, .die (dieOf c)]
  | .core c => [.core c, .die (dieOf c)]
  | u => [u]
def TlbUnit.dieNo : TlbUnit → Nat
  | .micro c _ | .core c => dieOf c
  | .die d => d
  | .mc => 0
/-- 17 R362: the entries that a TLB holds. A management core's own is taken as a core's. -/
def TlbUnit.size : TlbUnit → Nat
  | .micro _ _ => Config.microTlb
  | .die _ => Config.dieTlb
  | _ => Config.coreTlb

/-- The leaves that the TLBs of a space hold for an address. -/
def State.tlbHits (s : State) (sp : VSpace) (va : Nat) : List TlbEnt :=
  (match sp with
    | .ctx n u => s.tlb.filter fun e : TlbEnt => e.ctx = n && u.chain.contains e.unit
    | .mc k => (s.mc k).tlb).filter fun e : TlbEnt => e.page = va / 2 ^ levelBits e.level

/-- The cached pointers from which a walk for an address may start (17 R362). -/
def State.ptrHits (s : State) (sp : VSpace) (va : Nat) : List PtrEnt :=
  match sp with
  | .ctx n u => s.ptrs.filter fun e => e.ctx = n && e.die = u.dieNo && e.page = va / 2 ^ levelBits e.level
  | .mc _ => []

/-- The table root, or none where the space does not exist or, on a management core with EN = 0, is not translated (07 R402). -/
def State.rootOf (s : State) : VSpace → Option Nat
  | .ctx n _ => (s.ctx? n).map fun c => c.root.toNat
  | .mc k => if (s.mc k).en then some ((s.mc k).root.toNat * 2 ^ 16) else none

/-- A leaf as a translation, with its permission check. An address in the leaf's range with no memory behind it is as malformed
as a leaf that lies there (19 R370). -/
def State.xlatLeaf (s : State) (va : Nat) (p : Perm) (level : Nat) (l : Word) : Xlat :=
  let pa := leafPa l / 2 ^ levelBits level * 2 ^ levelBits level + va % 2 ^ levelBits level
  if !permOk p l then .fault cAccess (permCode p l) level
  else if s.populated pa then .ok pa level l
  else .fault cPageFault 3 level

/-- The end of a walk as a translation. -/
def State.xlatWalk (s : State) (va : Nat) (p : Perm) (w : Except (Nat × Nat) (Nat × Word)) : Xlat :=
  match w with
  | .ok (level, l) => s.xlatLeaf va p level l
  | .error (reason, level) => if reason = walkPoison then .fault cMemPoison 0 level else .fault cPageFault reason level

/-- 17 R361, R362: translate one address. A TLB, or the cache of non-leaf entries, may still hold what the table no longer has;
which of them serves the access is not specified (log 22). -/
def State.xlat (s : State) (sp : VSpace) (va : Nat) (p : Perm) : Xlat :=
  match sp, s.rootOf sp with
  | .ctx _ _, none => .fault cPageFault 0 0
  | .mc _, none =>
    if 2 ^ 52 ≤ va then .fault cAccess 0 0
    else if s.populated va then .ok va 2 0x3F#64
    else .fault cPageFault 3 0
  | _, some root => go root
where
  go (root : Nat) : Xlat :=
    if 2 ^ 55 ≤ va then .fault cAccess 0 0
    else
      let walked := s.xlatWalk va p (s.walk va 3 root 0)
      let held := (s.tlbHits sp va).map fun e => s.xlatLeaf va p e.level e.leaf
      let from_ := (s.ptrHits sp va).map fun e => s.xlatWalk va p (s.walk va (2 - e.level) (leafPa e.entry) (e.level + 1))
      let others := (held ++ from_).filter (· ≠ walked)
      (walked :: others).getD (upTo others.length (Config.pick s.draw 0 (va / 2 ^ 16))) walked

/-- 17 R362: a TLB takes a leaf; a full one gives up another, which is not specified (log 22). -/
def tlbInsert (draw : Nat) (e : TlbEnt) (l : List TlbEnt) : List TlbEnt :=
  if l.contains e then l
  else
    let own := l.filter fun x => x.unit = e.unit
    e :: (if own.length < e.unit.size then l else
      match own[Config.pick draw 1 e.page % own.length]? with
      | some x => l.filter (· ≠ x)
      | none => l)

/-- 17 R362: the TLBs of a unit hold the leaf that served an access, and the die's cache the entries that led to it. -/
def State.fillTlb (s : State) (sp : VSpace) (va level : Nat) (leaf : Word) : State :=
  match sp with
  | .ctx n u =>
    if (s.tlbHits sp va).any fun e => e.unit = u && e.leaf = leaf then s
    else
      let ptrs := ((s.walkPath va 3 ((s.rootOf sp).getD 0) 0).filter fun x => x.2.2.getLsbD 0 && !x.2.2.getLsbD 1).map fun x =>
        (⟨u.dieNo, n, x.1, va / 2 ^ levelBits x.1, x.2.2⟩ : PtrEnt)
      { s with tlb := u.chain.foldl (fun l u => tlbInsert s.draw ⟨u, n, level, va / 2 ^ levelBits level, leaf⟩ l) s.tlb
               ptrs := listUnion ptrs s.ptrs }
  | .mc k => if !(s.mc k).en then s
      else s.setMc k { s.mc k with tlb := tlbInsert s.draw ⟨.mc, 64, level, va / 2 ^ levelBits level, leaf⟩ (s.mc k).tlb }

/-- 17 R399: the pieces of a range that lie in one 64 KiB page each: virtual address and length. -/
def pagesOf (va n : Nat) : List (Nat × Nat) :=
  (List.range ((va % 2 ^ 16 + n + 2 ^ 16 - 1) / 2 ^ 16)).map fun i =>
    let a := if i = 0 then va else (va / 2 ^ 16 + i) * 2 ^ 16
    let b := min (va + n) ((va / 2 ^ 16 + i + 1) * 2 ^ 16)
    (a, b - a)

/-! ### The trap window's place (07 R402) -/

/-- 17 R350: the trap window's place in a management core's own address space. -/
abbrev windowBase : Nat := 0x100000
def inWindow (va n : Nat) : Bool := windowBase ≤ va && va + n ≤ windowBase + 64

/-- The parts of a range that lie in memory: in a management core's own space, what is below and above the trap window. -/
def offWindow (sp : VSpace) (va n : Nat) : List (Nat × Nat) :=
  match sp with
  | .ctx _ _ => [(va, n)]
  | .mc _ => [(va, min (va + n) windowBase - va),
      (max va (windowBase + 64), va + n - max va (windowBase + 64))].filter fun r => 0 < r.2

/-- A translated piece of a range: its physical address and length, whether its page is read at the home, and whether
its lost accesses are replayable (17 R363). -/
structure Piece where
  pa   : Nat
  n    : Nat
  home : Bool
  rpl  : Bool
deriving DecidableEq, Repr

/-- Translate a range page by page: the physical pieces, or the lowest failing page with the lowest byte of the range in it.
An address past the top of the space wraps modulo 2^64 (05 R130). -/
def State.xlatRange (s : State) (sp : VSpace) (va n : Nat) (p : Perm) : Except (Nat × Xlat) (List Piece) :=
  (pagesOf va n).foldr (fun an acc =>
    match s.xlat sp (an.1 % 2 ^ 64) p with
    | .ok pa _ leaf => acc.map (⟨pa, an.2, leafHome leaf, leafRpl leaf⟩ :: ·)
    | .fault c r l => .error (an.1 % 2 ^ 64, .fault c r l)) (.ok [])

/-- A context's space as a port of a core reaches it, and as a die's dispatcher does. -/
abbrev VSpace.port (ctx core : Nat) (path : Path) : VSpace := .ctx ctx (.micro core path)
abbrev VSpace.hub (ctx die : Nat) : VSpace := .ctx ctx (.die die)

/-- The address space of the current agent. -/
def State.curSpace (s : State) (t : Thread) : VSpace :=
  match s.turn with
  | .mc k => .mc k
  | .stream c => .port t.ctx c .X
  | .fibre c _ => .port t.ctx c .F
  | _ => .hub t.ctx 0

/-- Read bytes of physical pieces as one relaxed load on a path; such a load is atomic in no more than a byte (03 R89). -/
def State.readPieces (s : State) (v : View) (path : Path) (ps : List Piece) (who : Nat) : Got :=
  Got.join (ps.map fun q => s.readChoice v path q.home none q.pa q.n who none)

/-- Words of 8 bytes. -/
def wordsOf : Nat → List Byte → List Word
  | 0, _ => []
  | n + 1, bs => BitVec.ofNat 64 (leNat (bs.take 8)) :: wordsOf n (bs.drop 8)

end Sys2Proof.Machine
end

