-- ==== Sys2Proof/Machine/Operands.lean ====
section
/-!
DEFINITION. Operands: what a source reads, in which form, and how a result is written (02 R40-R43, 05 R125-R127, R133, R137).
-/

namespace Sys2Proof

/-! ### What a word names -/

/-- A register group: its first register and its size in registers. -/
abbrev Grp := Nat × Nat

def Grp.overlapPart (a b : Grp) : Bool :=
  let share := a.1 < b.1 + b.2 && b.1 < a.1 + a.2
  share && !(a.1 = b.1 && a.2 = b.2)

def Src.grp (x : Src) (n : Nat) : List Grp :=
  match x with
  | .reg r => [(r.toNat, n)]
  | _ => []
def Dst.grp (d : Dst) (n : Nat) : List Grp := if d.nwb then [] else [(d.n.toNat, n)]
def ITy.n (ty : ITy) : Nat := if ty.is64 then 2 else 1
def FTy.n (ty : FTy) : Nat := if ty = .f64 then 2 else 1
def Fmt.n (f : Fmt) : Nat :=
  match f with
  | .i64 | .n64 | .f64 => 2
  | _ => 1
def RTy.n (ty : RTy) : Nat :=
  match ty with
  | .i64 | .n64 | .f64 => 2
  | _ => 1
/-- 05 R130: bytes of a memory operand. -/
def sizeBytes (size : BitVec 4) : Nat := if size = 8#4 then 16 else 2 ^ (size.toNat % 4)

def w1 (b : Bool) : Nat := if b then 2 else 1

/-- 05 R127: the register groups of a word, pairs as in classes 0 and 2. -/
def Instr.groups : Instr → List Grp
  | .iadd o | .isub o | .imul o | .imulh o | .imin o | .imax o | .and_ o | .or_ o | .xor_ o | .andn o =>
    o.d.grp o.ty.n ++ o.a.grp o.ty.n ++ o.b.grp o.ty.n
  | .imulw o => o.d.grp 2 ++ o.a.grp 1 ++ o.b.grp 1
  | .shl o | .shr o | .sar o | .bfx o => o.d.grp o.ty.n ++ o.a.grp o.ty.n ++ o.b.grp 1
  | .iaddImm o | .isubImm o | .imulImm o | .imulhImm o | .iminImm o | .imaxImm o | .shlImm o | .shrImm o | .sarImm o
  | .andImm o | .orImm o | .xorImm o | .andnImm o => o.d.grp (w1 o.w) ++ o.a.grp (w1 o.w)
  | .imulwImm o => o.d.grp 2 ++ o.a.grp 1
  | .imad o => o.d.grp o.ty.n ++ o.a.grp o.ty.n ++ o.b.grp o.ty.n ++ o.c.grp o.ty.n
  | .bfi o => o.d.grp o.ty.n ++ o.a.grp o.ty.n ++ o.b.grp o.ty.n ++ o.c.grp 1
  | .ineg o | .iabs o | .not_ o | .brev o | .mov o => o.d.grp o.ty.n ++ o.a.grp o.ty.n
  | .clz o | .popc o => o.d.grp 1 ++ o.a.grp o.ty.n
  | .sel o => o.d.grp o.ty.n ++ o.a.grp o.ty.n ++ o.b.grp o.ty.n
  | .icmp o => o.a.grp o.ty.n ++ o.b.grp o.ty.n
  | .icmpImm o => o.a.grp (w1 o.w)
  | .movi o => o.d.grp (w1 o.w)
  | .movh o => o.d.grp 2
  | .lea o => o.d.grp 2 ++ o.a.grp 2 ++ o.b.grp o.ty.n
  | .fadd o | .fsub o | .fmul o | .fmin o | .fmax o => o.d.grp o.ty.n ++ o.a.grp o.ty.n ++ o.b.grp o.ty.n
  | .ffma o => o.d.grp o.ty.n ++ o.a.grp o.ty.n ++ o.b.grp o.ty.n ++ o.c.grp o.ty.n
  | .fabs o | .fneg o | .frcp o | .frsq o | .fsqrt o | .fex2 o | .flg2 o | .fsin o | .fcos o | .frnd o =>
    o.d.grp o.ty.n ++ o.a.grp o.ty.n
  | .fclass o => o.d.grp 1 ++ o.a.grp o.ty.n
  | .fcmp o => o.a.grp o.ty.n ++ o.b.grp o.ty.n
  | .fcvt o | .ftoi o | .itof o => o.d.grp o.ty.n ++ o.a.grp o.from_.n
  | .hadd2 o | .hmul2 o => o.d.grp 1 ++ o.a.grp 1 ++ o.b.grp 1
  | .hfma2 o | .dot2h o => o.d.grp 1 ++ o.a.grp 1 ++ o.b.grp 1 ++ o.c.grp 1
  | .dot4 o => o.d.grp 1 ++ o.a.grp 1 ++ o.b.grp 1 ++ o.c.grp 1
  | .pany o | .pall o => o.key.grp 1
  | .pcnt o => o.d.grp 2 ++ o.key.grp 1
  | .idx o => o.d.grp (if o.sel = 0#3 then 2 else 1)
  | .box o => o.d.grp (if o.sel = 6#3 then 2 else 1)
  | .form o => o.d.grp 1 ++ (if o.what = .tag then [(o.n.toNat, 1)] else [])
  | .expand o => (match o.r with
    | some n => [(n.toNat, 1)]
    | none => [])
  | .peel o => [(o.a.toNat, o.ty.n)]
  | .fnew o => o.a.grp 2 ++ [(o.b.toNat, 8)]
  | .sjoin o => o.key.grp 1
  | .sleave o | .sbar o => o.key.grp 1
  | .red o => o.a.grp o.ty.n
  | .rdsum o => o.d.grp o.ty.n ++ o.a.grp 1
  | .shfl o => o.d.grp 1 ++ o.a.grp 1 ++ (match o.y with
    | .src x => x.grp 1
    | .imm _ => [])
  | .brc o => o.a.grp (w1 o.w)
  | .calli o | .jmpi o | .promote o => o.a.grp 2
  | .cancel o => o.a.grp 1
  | .ld o => o.d.grp (sizeRegs o.size) ++ o.base.grp 2
  | .lds o => o.d.grp (sizeRegs o.size) ++ o.base.grp 1
  | .st o => o.data.grp (sizeRegs o.size) ++ o.base.grp 2
  | .sts o => o.data.grp (sizeRegs o.size) ++ o.base.grp 1
  | .ldc o => o.d.grp (sizeRegs o.size) ++ (match o.base with
    | some x => x.grp 1
    | none => [])
  | .pref o => o.base.grp 2
  | .atom o => let n := if o.w16 then 4 else o.ty.n
    o.d.grp n ++ o.a.grp 2 ++ o.b.grp n ++ (if o.op = 7#3 then o.c.grp n else [])
  | .atoms o => let n := if o.w16 then 4 else o.ty.n
    o.d.grp n ++ o.a.grp 1 ++ o.b.grp n ++ (if o.op = 7#3 then o.c.grp n else [])
  | .waita o => o.a.grp (if o.spad then 1 else 2) ++ o.b.grp (w1 o.w64)
  | .copy o | .copyt o => [(o.grp.toNat, 16)]
  | .copyx o | .copyc o => [(o.c.grp.toNat, 16)]
  | .fork o => o.a.grp 2 ++ (if o.cnt = 0#3 then [] else [(o.b.toNat, 2 ^ o.cnt.toNat)])
  | .launch o => o.a.grp 2
  | .waitc o => o.a.grp 2 ++ o.b.grp 1
  | .tcfg o => [(o.msk.toNat, 1)]
  | .tload o | .tstore o => [(o.msk.toNat, 2)]
  | .tscl o => [(o.msk.toNat, 1)]
  | .mma o => [(o.msk.toNat, 1)]
  | .tfill o | .tdrain o => [(o.grp.toNat, 8)] ++ o.row.grp 1
  | .mstat o => o.d.grp 2
  | .csrr o | .csrw o | .csrs o | .csrc o => o.d.grp (w1 o.w64) ++ o.a.grp (w1 o.w64)
  | .fsel o => o.a.grp 1
  | .fget o => o.d.grp 2 ++ o.a.grp 1
  | .fset o => o.a.grp 1 ++ o.b.grp 2
  | .fresume o => (match o.part with
    | some n => [(n.toNat, 8)]
    | none => [])
  | .tlbi o => (if o.sel = 0#2 then o.a.grp 2 ++ o.b.grp 1 else if o.sel = 1#2 then o.b.grp 1 else [])
  | .sleep o => o.d.grp 1 ++ o.a.grp 1
  | .rwload o => o.d.grp 1 ++ (if o.dflt then [] else o.a.grp 2)
  | _ => []

/-- The sources of a word. -/
def Instr.srcs : Instr → List Src
  | .iadd o | .isub o | .imul o | .imulh o | .imulw o | .imin o | .imax o | .and_ o | .or_ o | .xor_ o | .andn o
  | .shl o | .shr o | .sar o | .bfx o => [o.a, o.b]
  | .iaddImm o | .isubImm o | .imulImm o | .imulhImm o | .imulwImm o | .iminImm o | .imaxImm o | .shlImm o | .shrImm o
  | .sarImm o | .andImm o | .orImm o | .xorImm o | .andnImm o => [o.a]
  | .imad o | .bfi o => [o.a, o.b, o.c]
  | .ineg o | .iabs o | .not_ o | .brev o | .mov o | .clz o | .popc o => [o.a]
  | .sel o => [o.a, o.b]
  | .icmp o => [o.a, o.b]
  | .icmpImm o => [o.a]
  | .lea o => [o.a, o.b]
  | .fadd o | .fsub o | .fmul o | .fmin o | .fmax o | .hadd2 o | .hmul2 o => [o.a, o.b]
  | .ffma o | .hfma2 o | .dot2h o => [o.a, o.b, o.c]
  | .fabs o | .fneg o | .frcp o | .frsq o | .fsqrt o | .fex2 o | .flg2 o | .fsin o | .fcos o | .frnd o | .fclass o => [o.a]
  | .fcmp o => [o.a, o.b]
  | .fcvt o | .ftoi o | .itof o => [o.a]
  | .dot4 o => [o.a, o.b, o.c]
  | .pany o | .pall o => [o.key]
  | .pcnt o => [o.key]
  | .fnew o => [o.a]
  | .sjoin o => [o.key]
  | .sleave o | .sbar o => [o.key]
  | .red o => [o.a]
  | .rdsum o => [o.a]
  | .shfl o => (match o.y with
    | .src x => [o.a, x]
    | .imm _ => [o.a])
  | .brc o => [o.a]
  | .calli o | .jmpi o | .promote o | .cancel o => [o.a]
  | .ld o | .lds o => [o.base]
  | .st o | .sts o => [o.data, o.base]
  | .ldc o => o.base.toList
  | .pref o => [o.base]
  | .atom o | .atoms o => [o.a, o.b] ++ (if o.op = 7#3 then [o.c] else [])
  | .waita o => [o.a, o.b]
  | .fork o => [o.a]
  | .launch o => [o.a]
  | .waitc o => [o.a, o.b]
  | .tfill o | .tdrain o => [o.row]
  | .csrr _ => []
  | .csrw o | .csrs o | .csrc o => [o.a]
  | .fsel o => [o.a]
  | .fget o | .sleep o => [o.a]
  | .fset o => [o.a, o.b]
  | .tlbi o => (if o.sel = 0#2 then [o.a, o.b] else if o.sel = 1#2 then [o.b] else [])
  | .rwload o => (if o.dflt then [] else [o.a])
  | _ => []

/-- 05 R133: an instruction with a general-register or m-register result; TDRAIN has none. -/
def Instr.hasResult : Instr → Bool
  | .iadd _ | .iaddImm _ | .isub _ | .isubImm _ | .imul _ | .imulImm _ | .imulh _ | .imulhImm _ | .imulw _ | .imulwImm _
  | .imad _ | .ineg _ | .iabs _ | .imin _ | .iminImm _ | .imax _ | .imaxImm _ | .shl _ | .shlImm _ | .shr _ | .shrImm _
  | .sar _ | .sarImm _ | .and_ _ | .andImm _ | .or_ _ | .orImm _ | .xor_ _ | .xorImm _ | .not_ _ | .andn _ | .andnImm _
  | .clz _ | .popc _ | .brev _ | .bfx _ | .bfi _ | .sel _ | .mov _ | .movi _ | .movh _ | .lea _ | .fadd _ | .fsub _
  | .fmul _ | .ffma _ | .fmin _ | .fmax _ | .fabs _ | .fneg _ | .fclass _ | .frcp _ | .frsq _ | .fsqrt _ | .fex2 _
  | .flg2 _ | .fsin _ | .fcos _ | .frnd _ | .fcvt _ | .ftoi _ | .itof _ | .hadd2 _ | .hmul2 _ | .hfma2 _ | .dot4 _
  | .dot2h _ | .pcnt _ | .idx _ | .box _ | .form _ | .rdsum _ | .shfl _ | .ld _ | .lds _ | .ldc _ | .atom _ | .atoms _
  | .mstat _ | .csrr _ | .csrw _ | .csrs _ | .csrc _ | .fget _ | .sleep _ | .rwload _ => true
  | _ => false

/-- 05 R126, R127: in class 1 a pair is one m register, below 32, and there are no indices. -/
def Instr.regsOk (i : Instr) (cls window : Nat) : Bool :=
  if cls = 1 then
    i.groups.all (fun g => g.1 < 32) && i.srcs.all (fun x => match x with
      | .ix | .iy | .iz => false
      | _ => true)
  else i.groups.all fun g => g.1 + g.2 ≤ window && g.1 % g.2 = 0

/-- 05 R135: two operands of the word share some registers but not all. In class 1 the only groups are TLOAD's and TSTORE's. -/
def Instr.overlaps (i : Instr) (cls : Nat) : Bool :=
  if cls = 1 then false
  else i.groups.any fun a => i.groups.any fun b => Grp.overlapPart a b

/-- 05 R134: every latch the word names is fresh: the latest earlier position of that latch in the clause holds an
instruction with a result, and no WAITC stands after it. -/
def latchFresh (words : List Word) (q j : Nat) : Bool :=
  let ps := (List.range q).filter (· % 8 = j)
  match ps.getLast? with
  | none => false
  | some p =>
    (match decode (words.getD p 0) with
      | .ok i => i.hasResult
      | .error _ => false)
    && ((List.range q).filter (fun k => p < k)).all fun k =>
      match decode (words.getD k 0) with
      | .ok (.waitc _) => false
      | _ => true

def Instr.stale (i : Instr) (words : List Word) (q : Nat) : Bool :=
  i.srcs.any fun x => match x with
    | .latch j => !latchFresh words q j.toNat
    | _ => false

end Sys2Proof

namespace Sys2Proof.Machine

open Sys2Proof

/-- 02 R40: the form of a value an instruction reads or makes: uniform, affine, or one value for each index. -/
inductive Form where
  | u (b : Word)
  | a (b : Word) (sx sy sz : Int)
  | e
deriving DecidableEq, Repr

/-- An operand or a result: its form, its value at each place, and its poison (08 R226), of all or of the places listed. -/
structure Opd where
  form : Form
  val  : Nat → Word
  pAll : Bool
  pL   : List Nat

/-- The low `w` bits of an integer. -/
def wordOf (w64 : Bool) (v : Int) : Word :=
  if w64 then BitVec.ofInt 64 v else (BitVec.ofInt 32 v).setWidth 64
def low32 (v : Word) : Word := (v.setWidth 32).setWidth 64
/-- An affine value at a place (02 R40). -/
def Thread.affAt (t : Thread) (w64 : Bool) (b : Word) (sx sy sz : Int) (p : Nat) : Word :=
  let i := t.idxAt p
  wordOf w64 (b.toNat + sx * i.x + sy * i.y + sz * i.z)

def Opd.ofU (b : Word) (poison : Bool := false) : Opd := ⟨.u b, fun _ => b, poison, []⟩
/-- 02 R41: an A whose strides are all zero counts as U. -/
def Opd.ofA (t : Thread) (w64 : Bool) (b : Word) (sx sy sz : Int) : Opd :=
  if sx = 0 && sy = 0 && sz = 0 then Opd.ofU (if w64 then b else low32 b)
  else ⟨.a (if w64 then b else low32 b) sx sy sz, t.affAt w64 b sx sy sz, false, []⟩
/-- A value that is neither U nor A. -/
def Opd.ofE (f : Nat → Word) (pL : List Nat) : Opd := ⟨.e, f, false, pL⟩

def Opd.isU (o : Opd) : Bool :=
  match o.form with
  | .u _ => true
  | _ => false
/-- The value of a uniform operand. -/
def Opd.u (o : Opd) : Word :=
  match o.form with
  | .u b => b
  | _ => 0

def Thread.reg (t : Thread) (n : Nat) : Reg := Tab.get t.regs (Reg.u 0 false) n

/-- 02 R40, R42: a register read at 32 bits. In class 1 an m register's low bits (05 R127). -/
def Thread.read32 (t : Thread) (n : Nat) : Opd :=
  match t.reg n with
  | .u b po => Opd.ofU (low32 b) po
  | .a b sx sy sz => Opd.ofA t false b sx.toInt sy.toInt sz.toInt
  | .e l po => Opd.ofE (fun p => (Tab.get l 0#32 p).setWidth 64) po
  | .p =>
    match t.reg (n - 1) with
    | .u b po => Opd.ofU (b >>> 32) po
    | .a b sx sy sz => Opd.ofE (fun p => t.affAt true b sx.toInt sy.toInt sz.toInt p >>> 32) []
    | _ => Opd.ofU 0

/-- Two 32-bit halves as one 64-bit operand: U if both are U and E otherwise (02 R42). -/
def Opd.pair (lo hi : Opd) : Opd :=
  match lo.form, hi.form with
  | .u a, .u b => Opd.ofU (b <<< 32 ||| a) (lo.pAll || hi.pAll)
  | _, _ => ⟨.e, fun p => hi.val p <<< 32 ||| lo.val p, lo.pAll || hi.pAll, listUnion lo.pL hi.pL⟩

/-- A pair, or in class 1 one m register, read at 64 bits. -/
def Thread.read64 (t : Thread) (n : Nat) : Opd :=
  if t.kind = .stream then
    match t.reg n with
    | .u b po => Opd.ofU b po
    | _ => Opd.ofU 0
  else
    match t.reg (n + 1), t.reg n with
    | .p, .u b po => Opd.ofU b po
    | .p, .a b sx sy sz => Opd.ofA t true b sx.toInt sy.toInt sz.toInt
    | _, _ => (t.read32 n).pair (t.read32 (n + 1))

/-- 05 R133: a latch read at the source's width. Bits above a narrower result, and a latch that holds nothing defined, are
undefined: free values of the draw. -/
def Thread.readLatch (t : Thread) (draw : Nat) (j : Nat) (w64 : Bool) : Opd :=
  match Tab.find? t.latches j with
  | none => Opd.ofU (if w64 then Config.freeWord draw j else low32 (Config.freeWord draw j))
  | some l =>
    let wide := w64 && !l.w64
    let ext (v : Word) : Word := if wide then (Config.freeWord draw j <<< 32) ||| low32 v else if w64 then v else low32 v
    match l.v with
    | .u b => Opd.ofU (ext b) l.poison
    | .a b sx sy sz =>
      if wide then Opd.ofE (fun p => ext (t.affAt false b sx.toInt sy.toInt sz.toInt p)) []
      else Opd.ofA t w64 b sx.toInt sy.toInt sz.toInt
    | .e lanes => ⟨.e, fun p => ext (Tab.get lanes 0#64 p), l.poison, l.poisonL⟩

/-- 05 R126: a source, at 32 or 64 bits. A management core acts as one index, (0, 0, 0) (07 R170). -/
def Thread.src (t : Thread) (draw : Nat) (x : Src) (w64 : Bool) : Opd :=
  match x with
  | .reg n => if w64 then t.read64 n.toNat else t.read32 n.toNat
  | .latch j => t.readLatch draw j.toNat w64
  | .ix => if t.kind = .fibre then Opd.ofA t w64 0 1 0 0 else Opd.ofU 0
  | .iy => if t.kind = .fibre then Opd.ofA t w64 0 0 1 0 else Opd.ofU 0
  | .iz => if t.kind = .fibre then Opd.ofA t w64 0 0 0 1 else Opd.ofU 0

/-! ### Combining operands -/

/-- 02 R41, "any other" row: U if all inputs are U and E otherwise. -/
def Opd.map1 (f : Word → Word) (x : Opd) : Opd :=
  match x.form with
  | .u a => Opd.ofU (f a) x.pAll
  | _ => ⟨.e, fun p => f (x.val p), x.pAll, x.pL⟩
def Opd.map2 (f : Word → Word → Word) (x y : Opd) : Opd :=
  match x.form, y.form with
  | .u a, .u b => Opd.ofU (f a b) (x.pAll || y.pAll)
  | _, _ => ⟨.e, fun p => f (x.val p) (y.val p), x.pAll || y.pAll, listUnion x.pL y.pL⟩
def Opd.map3 (f : Word → Word → Word → Word) (x y z : Opd) : Opd :=
  match x.form, y.form, z.form with
  | .u a, .u b, .u c => Opd.ofU (f a b c) (x.pAll || y.pAll || z.pAll)
  | _, _, _ => ⟨.e, fun p => f (x.val p) (y.val p) (z.val p), x.pAll || y.pAll || z.pAll,
      listUnion x.pL (listUnion y.pL z.pL)⟩

/-- 02 R41: a stride at width w: reduced at 32 bits, limited at 64. -/
def strideOk (w64 : Bool) (s : Int) : Bool := !w64 || (-(2 ^ 31) ≤ s && s < 2 ^ 31)
def strideOf (w64 : Bool) (s : Int) : Int := if w64 then s else (BitVec.ofInt 32 s).toInt

/-- 02 R41: the result of an operation that keeps affine forms: A with the combined base and strides where those are in
limits, else the per-index values. -/
def Opd.affine (t : Thread) (w64 : Bool) (b : Word) (sx sy sz : Int) (vals : Nat → Word) (pAll : Bool) (pL : List Nat) : Opd :=
  if strideOk w64 sx && strideOk w64 sy && strideOk w64 sz then
    let sx := strideOf w64 sx
    let sy := strideOf w64 sy
    let sz := strideOf w64 sz
    ⟨.a b sx sy sz, t.affAt w64 b sx sy sz, pAll, pL⟩
  else ⟨.e, vals, pAll, pL⟩

/-- Base and strides of a U or A operand. -/
def Opd.lin (o : Opd) : Option (Word × Int × Int × Int) :=
  match o.form with
  | .u b => some (b, 0, 0, 0)
  | .a b sx sy sz => some (b, sx, sy, sz)
  | .e => none

/-- 02 R41: IADD and ISUB (`sub`). -/
def Opd.addSub (t : Thread) (w64 sub : Bool) (x y : Opd) : Opd :=
  let f (a b : Word) : Word := if w64 then (if sub then a - b else a + b) else low32 (if sub then a - b else a + b)
  match x.form, y.form with
  | .u a, .u b => Opd.ofU (f a b) (x.pAll || y.pAll)
  | _, _ =>
    match x.lin, y.lin with
    | some (a, ax, ay, az), some (b, bx, by_, bz) =>
      let g (m n : Int) : Int := if sub then m - n else m + n
      Opd.affine t w64 (f a b) (g ax bx) (g ay by_) (g az bz) (fun p => f (x.val p) (y.val p)) (x.pAll || y.pAll)
        (listUnion x.pL y.pL)
    | _, _ => Opd.map2 f x y

/-- 02 R41: A times a U factor, read as `k` (IMUL reads the multiplier as two's complement, SHL its power as it is). -/
def Opd.scale (t : Thread) (w64 : Bool) (x : Opd) (k : Int) (pAll : Bool) : Opd :=
  let f (a : Word) : Word := wordOf w64 (a.toNat * k)
  match x.form with
  | .u a => Opd.ofU (f a) (x.pAll || pAll)
  | .a b sx sy sz => Opd.affine t w64 (f b) (sx * k) (sy * k) (sz * k) (fun p => f (x.val p)) (x.pAll || pAll) x.pL
  | .e => ⟨.e, fun p => f (x.val p), x.pAll || pAll, x.pL⟩

/-- A w-bit value as two's complement. -/
def signedOf (w64 : Bool) (v : Word) : Int := if w64 then v.toInt else (v.setWidth 32).toInt
/-- A w-bit value read as its type. -/
def typedOf (w64 signed : Bool) (v : Word) : Int := if signed then signedOf w64 v else if w64 then v.toNat else (low32 v).toNat

/-- 02 R41: IMUL. -/
def Opd.mul (t : Thread) (w64 : Bool) (x y : Opd) : Opd :=
  match x.form, y.form with
  | _, .u b => x.scale t w64 (signedOf w64 b) y.pAll
  | .u a, _ => y.scale t w64 (signedOf w64 a) x.pAll
  | _, _ => Opd.map2 (fun a b => wordOf w64 (a.toNat * b.toNat)) x y

/-! ### Writing results -/

/-- 05 R127, R133: the width of a result: 32 bits (with the extension an m register takes) or 64. -/
inductive RW where
  | w32 (sext : Bool)
  | w64
deriving DecidableEq, Repr
def RW.is64 : RW → Bool
  | .w64 => true
  | .w32 _ => false
def RW.ofTy : ITy → RW
  | .i32 => .w32 true
  | .n32 => .w32 false
  | _ => .w64
/-- The lane table of a per-index value. -/
def lanesOf {α : Type} (ps : List Nat) (f : Nat → α) : Tab α := ps.foldl (fun t p => Tab.set t p (f p)) []

/-- 02 R42: separate a joined pair before a 32-bit write of a half. -/
def Thread.separate (t : Thread) (n : Nat) : Thread :=
  let e := n / 2 * 2
  match t.reg (e + 1), t.reg e with
  | .p, .u b po => { t with regs := Tab.set (Tab.set t.regs e (.u (low32 b) po)) (e + 1) (.u (b >>> 32) po) }
  | .p, .a b sx sy sz =>
    let hi := (t.read32 (e + 1)).val
    { t with regs := Tab.set (Tab.set t.regs e (.a (low32 b) sx sy sz)) (e + 1) (.e (lanesOf t.active fun p => (hi p).setWidth 32) []) }
  | _, _ => t

def bvInt32 (i : Int) : BitVec 32 := BitVec.ofInt 32 i

/-- The lanes of `ps` at which an operand is poisoned. -/
def Opd.bads (o : Opd) (ps : List Nat) : List Nat := if o.pAll then ps else if o.pL.isEmpty then [] else listInter ps o.pL

/-- The value with the lanes of `all` outside `ms` kept from `old`, marks and all (02 R43). -/
def Opd.masked (new old : Opd) (all ms : List Nat) : Opd :=
  ⟨.e, fun p => if ms.contains p then new.val p else old.val p, false, new.bads ms ++ old.bads (listDiff all ms)⟩

/-- Write 32 bits to register n of a fibre. -/
def Thread.write32 (t : Thread) (n : Nat) (r : Opd) : Thread :=
  let t1 := t.separate n
  let v : Reg := match r.form with
    | .u b => .u (low32 b) r.pAll
    | .a b sx sy sz => .a (low32 b) (bvInt32 sx) (bvInt32 sy) (bvInt32 sz)
    | .e => .e (lanesOf t.active fun p => (r.val p).setWidth 32) (r.bads t.active)
  { t1 with regs := Tab.set t1.regs n v }

/-- Write 64 bits to the pair at n. -/
def Thread.write64 (t : Thread) (n : Nat) (r : Opd) : Thread :=
  match r.form with
  | .u b => { t with regs := Tab.set (Tab.set t.regs n (.u b r.pAll)) (n + 1) .p }
  | .a b sx sy sz => { t with regs := Tab.set (Tab.set t.regs n (.a b (bvInt32 sx) (bvInt32 sy) (bvInt32 sz))) (n + 1) .p }
  | .e =>
    let po := r.bads t.active
    let lo : Reg := .e (lanesOf t.active fun p => (r.val p).setWidth 32) po
    let hi : Reg := .e (lanesOf t.active fun p => (r.val p >>> 32).setWidth 32) po
    { t with regs := Tab.set (Tab.set t.regs n lo) (n + 1) hi }

/-- 02 R43, 05 R127: write a result to register n, on every place or on the lanes of a mask. -/
def Thread.writeReg (t : Thread) (n : Nat) (w : RW) (mask : Option (List Nat)) (r : Opd) : Thread :=
  let t := if t.farMarks.isEmpty || mask.isSome then t
    else { t with farMarks := t.farMarks.filter fun k => k ≠ n && !(w.is64 && k = n + 1) }
  if t.kind = .stream then
    let v : Word := match w with
      | .w64 => r.u
      | .w32 true => (r.u.setWidth 32).signExtend 64
      | .w32 false => low32 r.u
    { t with regs := Tab.set t.regs n (.u v r.pAll) }
  else
    let r' := match mask with
      | none => r
      | some ms => r.masked (if w.is64 then t.read64 n else t.read32 n) t.active ms
    if w.is64 then t.write64 n r' else t.write32 n r'

/-- The value as plain data, over the places `ps`. -/
def Opd.toFVal (r : Opd) (ps : List Nat) : FVal :=
  match r.form with
  | .u b => .u b
  | .a b sx sy sz => .a b (bvInt32 sx) (bvInt32 sy) (bvInt32 sz)
  | .e => .e (lanesOf ps r.val)

/-- A 32-bit result in a latch of 64 bits: the bits above it are undefined (05 R133). -/
def Opd.widen (draw j : Nat) (r : Opd) : Opd :=
  ⟨.e, fun p => (Config.freeWord draw (2 ^ 20 * (j + 1) + p) <<< 32) ||| low32 (r.val p), r.pAll, r.pL⟩

/-- 05 R133: the result at position p goes to latch p mod 8; lanes outside the mask keep their part whole, so a latch that held
64 bits goes on holding 64. -/
def Thread.writeLatch (t : Thread) (draw : Nat) (w : RW) (mask : Option (List Nat)) (r : Opd) : Thread :=
  match t.clause with
  | none => t
  | some c =>
    let j := c.pos % 8
    let w64 := w.is64 || (mask.isSome && (Tab.find? t.latches j).any Latch.w64)
    let r' := match mask with
      | none => r
      | some ms => (if w64 = w.is64 then r else r.widen draw j).masked (t.readLatch draw j w64) t.active ms
    { t with latches := Tab.set t.latches j ⟨w64, r'.toFVal t.active, r'.pAll, r'.bads t.active⟩
             farMarks := if t.farMarks.isEmpty || mask.isSome then t.farMarks else t.farMarks.filter (· ≠ 64 + j) }

/-- Register and latch of a result. -/
def Thread.putResult (t : Thread) (draw : Nat) (d : Dst) (w : RW) (mask : Option (List Nat)) (r : Opd) : Thread :=
  (if d.nwb then t else t.writeReg d.n.toNat w mask r).writeLatch draw w mask r

/-- 02 R42, R51: whether writing the result needs lanes: the result is E, or the write separates an affine pair. -/
def Thread.needsLanes (t : Thread) (d : Dst) (w : RW) (r : Opd) : Bool :=
  t.kind = .fibre &&
    ((match r.form with
      | .e => true
      | _ => false)
    || (!d.nwb && !w.is64 &&
        (match t.reg (d.n.toNat / 2 * 2 + 1), t.reg (d.n.toNat / 2 * 2) with
        | .p, .a _ _ _ _ => true
        | _, _ => false)))

/-- The registers and latches that a word's sources name, latches from 64 on. -/
def srcMarks (i : Instr) : List Nat :=
  i.srcs.flatMap fun x => match x with
    | .reg n => [n.toNat, n.toNat + 1]
    | .latch j => [64 + j.toNat]
    | _ => []

/-- 17 R363: a source of the thread's word has its poison from a lost far-memory link. -/
def Thread.readsFar (t : Thread) : Bool :=
  !t.farMarks.isEmpty && (match decode t.word with
    | .ok i => (srcMarks i).any (t.farMarks.contains ·)
    | .error _ => false)

/-- The registers and the latch of a result, as `farMarks` numbers them. -/
def Thread.resultMarks (t : Thread) (d : Dst) (w : RW) : List Nat :=
  (if d.nwb then [] else if w.is64 then [d.n.toNat, d.n.toNat + 1] else [d.n.toNat]) ++ (t.clause.toList.map fun c => 64 + c.pos % 8)

/-- 08 R226, 17 R363: the result of a word that carries poison on, with where the poison came from. -/
def Thread.putCarried (t : Thread) (draw : Nat) (d : Dst) (w : RW) (mask : Option (List Nat)) (r : Opd) : Thread :=
  let t1 := t.putResult draw d w mask r
  if t.readsFar && !(r.bads t.places).isEmpty then { t1 with farMarks := listUnion t1.farMarks (t.resultMarks d w) } else t1

/-- 08 R226, 17 R351, R363: the trap of the places that read a poisoned value; FARLINK where the poison came from a lost
far-memory link. -/
def State.poisonTrap (s : State) (who : Option (List Nat)) (next : Bool) : State :=
  let far := s.cur?.any Thread.readsFar
  s.takeTrap cMemPoison 0 (if far then 2 ^ 14 else 0) who next

/-- 08 R224-R226, R141: deliver a result to the current agent. The places that read a poisoned value trap MEM_POISON and keep
their destination; the others complete. `carry`: the mark is carried, not trapped (MOV). -/
def State.deliver (s : State) (d : Dst) (w : RW) (mask : Option (List Nat)) (carry : Bool) (r : Opd) : State :=
  match s.cur? with
  | none => s
  | some t =>
    if !r.pAll && r.pL.isEmpty then s.setCur (t.putResult s.draw d w mask r).advance
    else if carry then s.setCur (t.putCarried s.draw d w mask r).advance
    else
      let ps := mask.getD t.places
      let bad := r.bads ps
      let good := listDiff ps bad
      if bad.isEmpty then s.setCur (t.putResult s.draw d w mask r).advance
      else if good.isEmpty then s.poisonTrap (if mask.isNone then none else some bad) true
      else (s.setCur (t.putResult s.draw d w (some good) r)).poisonTrap (some bad) true

/-- 06 R140, R143: an instruction whose one effect is its result, under its guard. A result that needs lanes expands a fibre
that has none, and does so before a poisoned source traps: which of the two comes first R139 to R141 do not say (log 101). -/
def State.result (s : State) (g : Guard) (d : Dst) (w : RW) (carry : Bool) (f : State → Thread → Opd) : State :=
  s.guardedDst g fun mask s =>
    match s.cur? with
    | none => s
    | some t =>
      let r := f s t
      if t.needsLanes d w r then
        s.orWait (s.expandThen fun s =>
          match s.cur? with
          | some t => s.deliver d w mask carry (f s t)
          | none => s)
      else if mask.isSome then s.orWait (s.deliver d w mask carry r)
      else s.deliver d w mask carry r

/-- 02 R42: act with a result that is U: where its register is half of an affine pair, which the write separates, the fibre expands
before any effect. -/
def State.forU (s : State) (d : Dst) (w : RW) (k : State → State) : State :=
  match s.cur? with
  | none => s
  | some t => if t.needsLanes d w (Opd.ofU 0) then s.orWait (s.expandThen k) else k s

/-- A predicate destination (06 R143): under a mask only those lanes take the new bit, and the result is M. -/
def Thread.putPred (t : Thread) (n : Nat) (mask : Option (List Nat)) (p : Pred) : Thread :=
  match mask with
  | none => t.setPred n p
  | some ms => t.setPred n (.m (t.active.filter fun l => if ms.contains l then t.predAt p l else t.predAt (t.pred n) l))

/-- An instruction whose one effect is a predicate, with the poison of the sources it read. -/
def State.predResult (s : State) (g : Guard) (n : Nat) (f : State → Thread → Pred × Opd) : State :=
  s.guardedDst g fun mask s =>
    match s.cur? with
    | none => s
    | some t =>
      let put (s : State) : State :=
        match s.cur? with
        | none => s
        | some t =>
          let (p, o) := f s t
          if !o.pAll && o.pL.isEmpty then s.setCur (t.putPred n mask p).advance
          else
            let ps := mask.getD t.places
            let bad := o.bads ps
            let good := listDiff ps bad
            if bad.isEmpty then s.setCur (t.putPred n mask p).advance
            else if good.isEmpty then s.poisonTrap (if mask.isNone then none else some bad) true
            else (s.setCur (t.putPred n (some good) p)).poisonTrap (some bad) true
      match (f s t).1 with
      | .m _ => if t.expanded then put s else s.expandThen put
      | _ => put s

/-- A source that must be uniform: NONUNIFORM before any effect where it is not (07 R169, 08 R227), MEM_POISON where it is marked
(08 R226; `next`: the resume point is the next word). -/
def State.needU (s : State) (x : Src) (w64 next : Bool) (k : Word → State → State) : State :=
  match s.cur? with
  | none => s
  | some t =>
    let o := t.src s.draw x w64
    match o.form with
    | .u b => if o.pAll then s.poisonTrap none next else k b s
    | _ => s.trapAll cNonuniform

/-- A progress event of the current agent (02 R71). -/
def State.progressed (s : State) : State :=
  match s.cur? with
  | some t => s.setCur t.progressed
  | none => s

/-! ### The checks of a word (05 R127, R134, R135, R137) -/

/-- 07 R198: the numbers assigned, in the ranges that a fibre and a management core may reach. -/
def csrListed (mc : Bool) (csr : Nat) : Bool :=
  [0x010, 0x011, 0x012, 0x020, 0x021].contains csr
    || (mc && [0x100, 0x200, 0x201, 0x202, 0x203, 0x204, 0x205, 0x300, 0x301, 0x302, 0x303].contains csr)

/-- 07 R198, 05 R137 check 2: a CSR number that the agent may name. -/
def csrOk (mc : Bool) : Instr → Bool
  | .csrr o | .csrw o | .csrs o | .csrc o => csrListed mc o.csr.toNat
  | _ => true

/-- 05 R137, checks 1 to 5 on a word of a clause of class `cls`: the instruction, or the cause it traps. `mc`: the agent is a
management core, on which the engine and tile opcodes trap ILLEGAL_CLASS in every class (05 R120). -/
def checkWord (mc : Bool) (cls window : Nat) (words : List Word) (pos : Nat) (w : Word) : Except (BitVec 8) Instr :=
  let opc := (w.extractLsb' 54 10).toNat
  match opcodeClasses opc with
  | none => .error cIllegalOpcode
  | some (c0, c1, c2) =>
    if cls = 0 && 0x3F0 ≤ opc then .error cPrivilege
    else if !(if cls = 0 then c0 else if cls = 1 then c1 else c2) then .error cIllegalClass
    else if mc && ((0x380 ≤ opc && opc ≤ 0x388) || (0x3C0 ≤ opc && opc ≤ 0x3CC)) then .error cIllegalClass
    else
      match decode w with
      | .error .illegalOpcode => .error cIllegalOpcode
      | .error .reservedField => .error cReservedField
      | .ok i =>
        if !csrOk mc i || !i.regsOk cls window then .error cReservedField
        else if i.overlaps cls then .error cOperandOverlap
        else if i.stale words pos then .error cStaleLatch
        else .ok i

end Sys2Proof.Machine
end

