-- ==== Sys2Proof/Machine/Faults.lean ====
section
/-!
DEFINITION. Faults of a fibre's memory instructions: partial completion, trap records by cause, field-book records
(08 R224, R225; 17 R351, R357).
-/

namespace Sys2Proof.Machine

open Sys2Proof

/-- 08 R225: causes that replay mends. -/
def IdxFault.replayable (f : IdxFault) : Bool :=
  f.cause = cPageFault || (match f.far with
    | some (_, rpl) => rpl
    | none => false)

/-- 17 R351: AUX for a cause. -/
def faultAux (f : IdxFault) (rec_ : Option Nat) : Word :=
  let fb : Nat := match rec_ with
    | some r => r + 256
    | none => 0
  if f.cause = cPageFault then BitVec.ofNat 64 (fb + f.code * 4096)
  else if f.cause = cMemPoison then BitVec.ofNat 64 (fb + (if f.far.isSome then 16384 else 0))
  else if f.cause = cAccess || f.cause = cTrapInstr || f.cause = cBreakpoint then BitVec.ofNat 64 f.code
  else 0

/-- The causes present, in ascending code order (08 R225). -/
def causesOf (fs : List IdxFault) : List (BitVec 8) :=
  (sortAsc (fs.map fun f => f.cause.toNat)).map fun n => BitVec.ofNat 8 n

/-- The fault at the lowest place. -/
def lowestFault (fs : List IdxFault) : Option IdxFault :=
  fs.foldl (fun acc f => match acc with
    | none => some f
    | some g => if f.place < g.place then some f else some g) none

/-- The trap records of the causes of `fs`, the index sets left to fill; a fault at a clause boundary (`bound`) names no
indices (17 R351). -/
def Thread.faultTraps (t : Thread) (c e : Nat) (pc : Word) (bound : Bool) (fs : List IdxFault) (rec_ : Option Nat) : List TrapRec :=
  (causesOf fs).filterMap fun cause =>
    let gs := fs.filter (·.cause = cause)
    match lowestFault gs with
    | none => none
    | some f =>
      let fb := if f.replayable then rec_ else none
      some { t.record c e cause pc f.addr (faultAux f fb) .none (if bound then [] else gs.map IdxFault.place) fb with
        replay := f.replayable }

/-- 17 R351: expand a range fibre so that a record can name lanes; none where the core lacks what it takes. -/
def State.expandFor (s : State) (c e : Nat) : Option State :=
  match s.fibre? c e with
  | none => none
  | some t =>
    if t.expanded then some s
    else
      let s' := s.grow c e t
      if (s'.core c).fits (0, 0, 0, 0) then some s' else none

/-- Push records for fibre (c, e), whose index sets are filled from the places that took the causes, and enter `st`. A set
that is no box needs lanes; where those are short the records are held and the fibre waits (17 R351). A fibre that stays in its state
stays at what it does, and at what it waits for. -/
def State.pushFaults (s : State) (c e : Nat) (rs : List TrapRec) (st : FState) : State :=
  match s.fibre? c e with
  | none => s
  | some t =>
    let go (s : State) (t : Thread) : State :=
      let cause := (rs.getLast?.map TrapRec.cause).getD t.lcause
      let s1 := s.setFibre c e { t with st := st, heldTraps := [], lcause := cause, tmask := (rs.getLast?.map TrapRec.who).getD t.tmask
                                        why := match t.why with
                                          | .held w => w
                                          | w => if t.st = st then w else .none }
      rs.foldl (fun s r => s.pushTrap (clusterOf c) { r with index := if r.who.isEmpty then .none else (t.indexSet (some r.who)).getD .none }) s1
    if rs.all fun r => r.who.isEmpty || (t.indexSet (some r.who)).isSome then go s t
    else
      match s.expandFor c e with
      | some s1 => match s1.fibre? c e with
        | some t1 => go s1 t1
        | none => s1
      | none => (s.setFibre c e { t with st := .resourceWait, since := s.tick, heldTraps := rs, heldSt := st
                                         why := match t.why with
                                           | .held w => .held w
                                           | w => if t.st = st then .held w else .resource }).post (.resourceRetry c)

/-- 08 R225: a record enters the field book, or waits for a place in it; with it its traps, those of causes
that no record holds among them (log 114). A fibre may have several: one
that was resumed before its record had completed (07 R206). -/
def State.bookRecord (s : State) (c e : Nat) (r : FbRec) (mk : Option Nat → List TrapRec) (st : FState) : State :=
  let x := s.core c
  match lowestFree (Tab.keys x.book) Config.fieldBookSize with
  | some k =>
    let s1 := s.setCore c { x with book := Tab.set x.book k r }
    (s1.modFibre c e fun t => { t with fbrec := some k }).pushFaults c e (mk (some k)) st
  | none =>
    (s.setCore c { x with bookq := x.bookq ++ [⟨r, mk none⟩] }).modFibre c e fun t =>
      { t with st := st, why := if t.st = st then t.why else .none }

/-- An empty field-book record for fibre (c, e) at a word. -/
def Thread.fbTemplate (t : Thread) (e : Nat) (acc size : Nat) (pc instr : Word) : FbRec :=
  { level := 0, port := 0, ctx := t.ctx, entry := e, uid := t.uid, replaying := false, size := size, acc := acc, cause := 0
    farlink := false, pc := pc, va := 0, instr := instr, pend := [], hits := [], data := [], dbad := [], addr := .u 0, off := 0, cl := t.clause
    latches := t.latches, frame := t.frame, root := t.root }

/-- 17 R357: a record's cause, level, address and port, by the lowest index that pends. -/
def FbRec.headed (r : FbRec) : FbRec :=
  match lowestFault r.hits with
  | none => r
  | some f => { r with level := if f.cause = cPageFault then f.level else 0, cause := f.cause, va := f.addr
                       farlink := f.far.isSome, port := (f.far.map Prod.fst).getD 0 }

/-- 08 R224, R225: fibre (c, e) stands after its instruction, whose other indices have completed; the faulting ones are
recorded, with those that pend already. Only replayable causes: it enters `enter`, at first REPLAY_WAIT; any other: PARKED. -/
def State.recordFaults (s : State) (c e : Nat) (pc : Word) (fs : List IdxFault) (r : FbRec) (enter : FState) : State :=
  match s.fibre? c e with
  | none => s
  | some t =>
    let rep := fs.filter (·.replayable)
    let st : FState := if fs.all (·.replayable) then enter else .parked
    let r1 := { r with hits := rep, pend := if r.pend.isEmpty then rep.map IdxFault.place else sortAsc (rep.map IdxFault.place ++ r.pend) }
    if r1.pend.isEmpty then s.pushFaults c e (t.faultTraps c e pc (r.acc = 4) fs none) st
    else s.bookRecord c e r1.headed (fun k => t.faultTraps c e pc (r.acc = 4) fs k) st

/-- The faults of the places of one piece of a cut fibre, and its part of what faulted. -/
def faultsIn (a b : Box) (fs : List IdxFault) : List IdxFault :=
  fs.filterMap fun f => (a.remap b f.place).map fun p => { f with place := p }
def FVal.remap (a b : Box) : FVal → FVal
  | .e l => .e (l.filterMap fun kv => (a.remap b kv.1).map fun q => (q, kv.2))
  | v => v
def FbRec.inBox (r : FbRec) (a b : Box) : FbRec :=
  { r with pend := r.pend.filterMap (a.remap b), hits := faultsIn a b r.hits, data := r.data.map (·.remap a b), addr := r.addr.remap a b
           dbad := r.dbad.filterMap (a.remap b), frame := b }

/-! ### The records of a fibre that has been divided (02 R47, R53; 17 R357) -/

/-- What a fibre holds of a record's pending indices, numbered as it numbers its places. -/
def FbRec.partOf (r : FbRec) (e : Nat) (t : Thread) : FbRec :=
  let r1 := if r.frame = t.frame then r else r.inBox r.frame t.frame
  { r1 with entry := e, uid := t.uid, pend := r1.pend.filter (t.places.contains ·)
            hits := r1.hits.filter fun f => t.places.contains f.place }.headed

/-- The traps that wait with a record, their places numbered in another frame. -/
def TrapRec.inFrame (a b : Box) (r : TrapRec) : TrapRec := if a = b then r else { r with who := r.who.filterMap (a.remap b) }

/-- The fibre that a record names holds every index that pends. -/
def Core.holdsAll (x : Core) (b : FbRec) : Bool :=
  (Tab.find? x.fibres b.entry).any fun t => t.uid = b.uid && t.frame = b.frame && b.pend.all (t.places.contains ·)

/-- The parts of a record: of the fibre that it names, then of those that division has made beside it. -/
def Core.recordParts (x : Core) (b : FbRec) : List FbRec :=
  let ps := x.fibres.filterMap fun (kv : Nat × Thread) => if kv.2.root ≠ b.root then none
    else
      let r := b.partOf kv.1 kv.2
      if r.pend.isEmpty then none else some r
  ps.filter (fun r => r.uid = b.uid) ++ ps.filter fun r => r.uid ≠ b.uid

/-- A record takes place k of the book; one that is replaying is re-issued there. -/
def State.putRecord (s : State) (c k : Nat) (r : FbRec) : State :=
  let x := s.core c
  let s1 := (s.setCore c { x with book := Tab.set x.book k r }).modFibre c r.entry fun t => { t with fbrec := t.fbrec.or (some k) }
  if r.replaying then s1.post (.replayComplete c k) else s1

/-- A record for a part of a fibre, with no trap of its own. -/
def State.addRecord (s : State) (c : Nat) (r : FbRec) : State :=
  let x := s.core c
  match lowestFree (Tab.keys x.book) Config.fieldBookSize with
  | some k => s.putRecord c k r
  | none => s.setCore c { x with bookq := x.bookq ++ [⟨r, []⟩] }

/-- The faults need lanes to be named: those of some cause are no box (17 R351). -/
def Thread.namesLanes (t : Thread) (fs : List IdxFault) : Bool :=
  !t.expanded && (causesOf fs).any fun c => (t.boxOf ((fs.filter (·.cause = c)).map IdxFault.place)).isNone

/-- What a wait of a fibre holds of its places, numbered in another box. -/
def Why.inBox (a b : Box) : Why → Why
  | .waita met => .waita (met.filterMap (a.remap b))
  | .promote n own met => .promote n (own.filterMap fun kv => (a.remap b kv.1).map fun q => (q, kv.2)) (met.filterMap (a.remap b))
  | .promoted own met => .promoted (own.filterMap fun kv => (a.remap b kv.1).map fun q => (q, kv.2)) (met.filterMap (a.remap b))
  | w => w
/-- A range fibre over a part of its box. -/
def Thread.toBox (t : Thread) (b : Box) : Thread :=
  { t.setBox b with tmask := t.tmask.filterMap (t.box.remap b), why := t.why.inBox t.box b }

/-- 17 R351, 02 R53: as `recordFaults`; a range fibre above E_MAX whose faults need lanes is cut first, and each piece records its
own. Where the core lacks what the cut takes, the fibre waits with its faults held. -/
def State.fibreFaults (s : State) (c e : Nat) (pc : Word) (fs : List IdxFault) (r : FbRec) (enter : FState := .replayWait) : State :=
  match s.fibre? c e with
  | none => s
  | some t =>
    if r.acc = 4 || !t.namesLanes fs || t.box.count ≤ s.emax t then s.recordFaults c e pc fs r enter
    else
      let pieces := t.box.cut (s.emax t)
      let (s1, es) := pieces.tail.foldl (fun (acc : State × List (Box × Nat)) b =>
        let (s, e') := acc.1.addFibre c (t.toBox b)
        (s, acc.2 ++ [(b, e')])) (s.setFibre c e (t.toBox (pieces.headD t.box)), [(pieces.headD t.box, e)])
      if !(s1.core c).fits (0, 0, 0, 0) || !s1.slotsFit c then
        (s.setFibre c e { t with st := .resourceWait, why := .faults fs r t.st t.why, heldSt := enter, since := s.tick }).post (.resourceRetry c)
      else es.foldl (fun s be =>
        match faultsIn t.box be.1 fs, r.inBox t.box be.1, s.fibre? c be.2 with
        | [], r', some u => if r'.pend.isEmpty then s else s.addRecord c { r' with entry := be.2, uid := u.uid }
        | fs', r', some u => s.recordFaults c be.2 pc fs' { r' with entry := be.2, uid := u.uid } enter
        | _, _, none => s) s1

/-- 17 R351: the PC that firmware sees: while a trap is held, the trapping word. -/
def Thread.shownPc (t : Thread) : Word :=
  match t.heldTraps, t.why with
  | r :: _, _ => r.pc
  | [], .faults _ fb _ _ => fb.pc
  | [], _ => t.pc

/-- A fault of the current agent's own access as a whole (a fetch, a stream's tile access, a management core's access), at
its word. -/
def State.agentFault (s : State) (f : IdxFault) : State := s.takeTrap f.cause f.addr (faultAux f none) none false

end Sys2Proof.Machine
end

