-- ==== Sys2Proof/Machine/Fp.lean ====
section
/-!
DEFINITION. Floating point: exact values and one rounding (04 R98-R108).
-/

namespace Sys2Proof

/-- 04 R94: the width of a format. -/
def Fmt.bits : Fmt → Nat
  | .i8 | .n8 | .e4m3 | .e5m2 => 8
  | .i16 | .n16 | .f16 | .bf16 => 16
  | .i64 | .n64 | .f64 => 64
  | .q4 => 4
  | _ => 32
def Fmt.signed : Fmt → Bool
  | .i8 | .i16 | .i32 | .i64 => true
  | _ => false

end Sys2Proof

namespace Sys2Proof.Machine

open Sys2Proof

/-- A binary format: exponent bits, fraction bits, bias, and whether it is e4m3 (no infinities, 04 R103). -/
structure FpFmt where
  eb   : Nat
  fb   : Nat
  bias : Nat
  e4   : Bool
deriving DecidableEq, Repr

abbrev fpF16 : FpFmt := ⟨5, 10, 15, false⟩
abbrev fpBf16 : FpFmt := ⟨8, 7, 127, false⟩
abbrev fpF32 : FpFmt := ⟨8, 23, 127, false⟩
abbrev fpF64 : FpFmt := ⟨11, 52, 1023, false⟩
abbrev fpE4m3 : FpFmt := ⟨4, 3, 7, true⟩
abbrev fpE5m2 : FpFmt := ⟨5, 2, 15, false⟩

def fpOf : FTy → FpFmt
  | .f16 => fpF16
  | .bf16 => fpBf16
  | .f32 => fpF32
  | .f64 => fpF64
/-- The format of a code; integers and q4 are not asked for. -/
def fpOfFmt : Fmt → FpFmt
  | .f16 => fpF16
  | .bf16 => fpBf16
  | .f64 => fpF64
  | .e4m3 => fpE4m3
  | .e5m2 => fpE5m2
  | _ => fpF32

def FpFmt.width (f : FpFmt) : Nat := 1 + f.eb + f.fb

/-- A value: NaN, an infinity, or ±m·2^e. -/
inductive Num where
  | nan
  | inf (neg : Bool)
  | fin (neg : Bool) (m : Nat) (e : Int)
deriving DecidableEq, Repr

/-- 04 R98, R103: the value of a bit pattern. -/
def FpFmt.dec (f : FpFmt) (v : Nat) : Num :=
  let frac := v % 2 ^ f.fb
  let ex := v / 2 ^ f.fb % 2 ^ f.eb
  let neg := v / 2 ^ (f.fb + f.eb) % 2 = 1
  if ex = 2 ^ f.eb - 1 && !f.e4 then (if frac = 0 then .inf neg else .nan)
  else if f.e4 && ex = 15 && frac = 7 then .nan
  else if ex = 0 then .fin neg frac (1 - f.bias - f.fb)
  else .fin neg (2 ^ f.fb + frac) (ex - f.bias - f.fb)

def FpFmt.sign (f : FpFmt) (neg : Bool) : Nat := if neg then 2 ^ (f.eb + f.fb) else 0
/-- 04 R100: canonical NaN. -/
def FpFmt.qnan (f : FpFmt) : Nat := if f.e4 then 0x7F else (2 ^ f.eb - 1) * 2 ^ f.fb + 2 ^ (f.fb - 1)
def FpFmt.infBits (f : FpFmt) (neg : Bool) : Nat := f.sign neg + (2 ^ f.eb - 1) * 2 ^ f.fb
/-- The largest finite magnitude's bits. -/
def FpFmt.maxBits (f : FpFmt) : Nat := if f.e4 then 0x7E else (2 ^ f.eb - 1) * 2 ^ f.fb - 1

/-- Divide by 2^k with a rounding mode: `neg` is the sign of the value. -/
def roundShift (r : Rnd) (neg : Bool) (m k : Nat) : Nat :=
  let q := m / 2 ^ k
  let rem := m % 2 ^ k
  let up := match r with
    | .rne => 2 ^ k < 2 * rem || (2 * rem = 2 ^ k && q % 2 = 1)
    | .rtz => false
    | .rup => !neg && rem ≠ 0
    | .rdn => neg && rem ≠ 0
  if rem ≠ 0 && up then q + 1 else q

/-- ±m·2^e, m positive, rounded to `fb + 1` significant bits with least exponent `emin`: the significand and the exponent of
its last bit. -/
def roundSig (fb : Nat) (emin : Int) (r : Rnd) (neg : Bool) (m : Nat) (e : Int) : Nat × Int :=
  let q : Int := max (emin - fb) (m.log2 + e - fb)
  let n := if q ≤ e then m * 2 ^ (e - q).toNat else roundShift r neg m (q - e).toNat
  if n = 2 ^ (fb + 1) then (2 ^ fb, q + 1) else (n, q)

/-- 04 R99: what an overflowing result gives. -/
def overflowInf (r : Rnd) (neg : Bool) : Bool :=
  match r with
  | .rne => true
  | .rtz => false
  | .rup => !neg
  | .rdn => neg

/-- 04 R99: round ±m·2^e once to an IEEE format. -/
def FpFmt.round (f : FpFmt) (r : Rnd) (neg : Bool) (m : Nat) (e : Int) : Nat :=
  if m = 0 then f.sign neg
  else
    let (n, q) := roundSig f.fb (1 - f.bias) r neg m e
    let ex : Int := q + f.fb + f.bias
    if n < 2 ^ f.fb then f.sign neg + n
    else if 2 ^ f.eb - 1 ≤ ex then (if overflowInf r neg then f.infBits neg else f.sign neg + f.maxBits)
    else f.sign neg + ex.toNat * 2 ^ f.fb + (n - 2 ^ f.fb)

/-- Encode a value, rounding it. -/
def FpFmt.enc (f : FpFmt) (r : Rnd) : Num → Nat
  | .nan => f.qnan
  | .inf neg => f.infBits neg
  | .fin neg m e => f.round r neg m e

/-! ### Exact arithmetic -/

def Num.int (m : Nat) (neg : Bool) : Int := if neg then -(m : Int) else m

/-- Exact sum; `rdn` gives an exact zero of opposite signs its minus (06 R156). -/
def Num.add (rdn : Bool) : Num → Num → Num
  | .nan, _ => .nan
  | _, .nan => .nan
  | .inf a, .inf b => if a = b then .inf a else .nan
  | .inf a, _ => .inf a
  | _, .inf b => .inf b
  | .fin na ma ea, .fin nb mb eb =>
    if ma = 0 && mb = 0 then .fin (if na = nb then na else rdn) 0 0
    else
      let e := min ea eb
      let v := Num.int ma na * 2 ^ (ea - e).toNat + Num.int mb nb * 2 ^ (eb - e).toNat
      if v = 0 then .fin rdn 0 0 else .fin (decide (v < 0)) v.natAbs e

def Num.neg : Num → Num
  | .nan => .nan
  | .inf a => .inf (!a)
  | .fin a m e => .fin (!a) m e

def Num.mul : Num → Num → Num
  | .nan, _ => .nan
  | _, .nan => .nan
  | .inf a, .inf b => .inf (a != b)
  | .inf a, .fin b m _ => if m = 0 then .nan else .inf (a != b)
  | .fin a m _, .inf b => if m = 0 then .nan else .inf (a != b)
  | .fin a m e, .fin b n f => .fin (a != b) (m * n) (e + f)

/-- Order of finite and infinite values; equal for zeros. -/
def Num.lt : Num → Num → Bool
  | .nan, _ => false
  | _, .nan => false
  | .inf a, .inf b => a && !b
  | .inf a, _ => a
  | _, .inf b => !b
  | .fin na ma ea, .fin nb mb eb =>
    let e := min ea eb
    decide (Num.int ma na * 2 ^ (ea - e).toNat < Num.int mb nb * 2 ^ (eb - e).toNat)
def Num.isNan : Num → Bool
  | .nan => true
  | _ => false
def Num.isNeg : Num → Bool
  | .nan => false
  | .inf a => a
  | .fin a _ _ => a
def Num.isZero : Num → Bool
  | .fin _ 0 _ => true
  | _ => false

/-! ### Operations on bit patterns -/

def FpFmt.op2 (f : FpFmt) (r : Rnd) (g : Num → Num → Num) (a b : Nat) : Nat := f.enc r (g (f.dec a) (f.dec b))
def FpFmt.add (f : FpFmt) (r : Rnd) (a b : Nat) : Nat := f.op2 r (Num.add (r = .rdn)) a b
def FpFmt.sub (f : FpFmt) (r : Rnd) (a b : Nat) : Nat := f.op2 r (fun x y => Num.add (r = .rdn) x y.neg) a b
def FpFmt.mul (f : FpFmt) (r : Rnd) (a b : Nat) : Nat := f.op2 r Num.mul a b
def FpFmt.fma (f : FpFmt) (r : Rnd) (a b c : Nat) : Nat :=
  f.enc r (Num.add (r = .rdn) ((f.dec a).mul (f.dec b)) (f.dec c))

/-- 04 R101. -/
def FpFmt.minMax (f : FpFmt) (mx : Bool) (a b : Nat) : Nat :=
  let x := f.dec a
  let y := f.dec b
  if x.isNan && y.isNan then f.qnan
  else if x.isNan then b
  else if y.isNan then a
  else
    let less := if x.isZero && y.isZero then x.isNeg && !y.isNeg else x.lt y
    if mx then (if less then b else a) else (if less then a else b)

/-- 06 R158. -/
def fcmp (f : FpFmt) (rel : FRel) (a b : Nat) : Bool :=
  let x := f.dec a
  let y := f.dec b
  let un := x.isNan || y.isNan
  match rel with
  | .un => un
  | .ord => !un
  | .ne => un || x.lt y || y.lt x
  | .eq => !un && !x.lt y && !y.lt x
  | .lt => x.lt y
  | .le => !un && !y.lt x
  | .gt => y.lt x
  | .ge => !un && !x.lt y

/-- 06 R159. -/
def fclass (f : FpFmt) (v : Nat) : Nat :=
  let frac := v % 2 ^ f.fb
  let ex := v / 2 ^ f.fb % 2 ^ f.eb
  let neg := v / 2 ^ (f.fb + f.eb) % 2 = 1
  let bit := if ex = 2 ^ f.eb - 1 then
      (if frac = 0 then (if neg then 0 else 7) else if frac / 2 ^ (f.fb - 1) = 1 then 9 else 8)
    else if ex = 0 then (if frac = 0 then (if neg then 3 else 4) else if neg then 2 else 5)
    else if neg then 1 else 6
  2 ^ bit

/-- The integer nearest ±m·2^e in a mode, as a magnitude. -/
def roundInt (r : Rnd) (neg : Bool) (m : Nat) (e : Int) : Nat :=
  if 0 ≤ e then m * 2 ^ e.toNat else roundShift r neg m (-e).toNat

/-- 06 R161. -/
def FpFmt.rnd (f : FpFmt) (r : Rnd) (v : Nat) : Nat :=
  match f.dec v with
  | .nan => f.qnan
  | .inf _ => v
  | .fin neg m e => f.round .rne neg (roundInt r neg m e) 0

/-! ### Functions (04 R102) -/

/-- The integer square root: binary digits from bit k down. -/
def isqrt : Nat → Nat → Nat → Nat
  | 0, _, r => r
  | k + 1, n, r => isqrt k n (if (r + 2 ^ k) * (r + 2 ^ k) ≤ n then r + 2 ^ k else r)

/-- m·2^e as r·2^q with r its root's integer part and a sticky bit appended. -/
def sqrtSticky (m : Nat) (e : Int) : Nat × Int :=
  let (m, e) := if e % 2 = 0 then (m, e) else (2 * m, e - 1)
  let m' := m * 2 ^ 128
  let r := isqrt (m'.log2 / 2 + 1) m' 0
  (2 * r + (if r * r = m' then 0 else 1), e / 2 - 65)

def FpFmt.sqrt (f : FpFmt) (r : Rnd) (v : Nat) : Nat :=
  match f.dec v with
  | .nan => f.qnan
  | .inf neg => if neg then f.qnan else v
  | .fin neg m e =>
    if m = 0 then v
    else if neg then f.qnan
    else let (n, q) := sqrtSticky m e
      f.round r false n q

/-- The next bit pattern of larger magnitude, at most the infinity, and of smaller magnitude. -/
def stepUp (f : FpFmt) (neg : Bool) (v : Nat) : Nat := if v % 2 ^ (f.eb + f.fb) < (2 ^ f.eb - 1) * 2 ^ f.fb then v + 1 else f.infBits neg
def stepDown (v : Nat) (f : FpFmt) : Nat := if v % 2 ^ (f.eb + f.fb) = 0 then v else v - 1

/-- The magnitude of a value of the format as a multiple of 2^base; an infinity counts as the power of two above the largest. -/
def FpFmt.magAt (f : FpFmt) (base : Int) (v : Nat) : Nat :=
  match f.dec v with
  | .nan => 0
  | .inf _ => 2 ^ (2 ^ f.eb - 1 - f.bias - base).toNat
  | .fin _ m e => m * 2 ^ (e - base).toNat

/-- 04 R102: the value of bits `v` lies within one ulp of n·2^q, an ulp being that of the format in the exact value's binade. An
infinity stands for what lies above the largest finite value. -/
def FpFmt.withinUlp (f : FpFmt) (n : Nat) (q : Int) (v : Nat) : Bool :=
  let least : Int := 1 - f.bias - f.fb
  let base := min q (least - 1)
  let x := n * 2 ^ (q - base).toNat
  let ulp := 2 ^ (max (n.log2 + q - f.fb) least - base).toNat
  let y := f.magAt base v
  y ≤ x + ulp && (x ≤ y + ulp || (match f.dec v with
    | .inf _ => true
    | _ => false))

/-- The values within one ulp of ±n·2^q, where `n` has a sticky last bit, one of them taken by `k` (log 14). -/
def ulpPick (f : FpFmt) (k : Nat) (neg : Bool) (n : Nat) (q : Int) : Nat :=
  let lo := f.round .rtz neg n q
  let hi := f.round (if neg then .rdn else .rup) neg n q
  let near := [lo, hi, stepDown lo f, stepDown (stepDown lo f) f, stepUp f neg hi].filter (f.withinUlp n q)
  (near[k % near.length]?).getD hi

/-- 04 R102: FRCP, within one ulp of 1/x. -/
def FpFmt.rcp (f : FpFmt) (v : Nat) : Nat :=
  match f.dec v with
  | .nan => f.qnan
  | .inf neg => f.sign neg
  | .fin neg m e =>
    if m = 0 then f.infBits neg
    else
      let n := 2 ^ 128 / m
      ulpPick f (Config.frcpPick (f.eb = 11) v) neg (2 * n + (if n * m = 2 ^ 128 then 0 else 1)) (-e - 129)

/-- 04 R102: FRSQ, within one ulp of 1/√x. -/
def FpFmt.rsq (f : FpFmt) (v : Nat) : Nat :=
  match f.dec v with
  | .nan => f.qnan
  | .inf neg => if neg then f.qnan else f.sign false
  | .fin neg m e =>
    if m = 0 then f.infBits neg
    else if neg then f.qnan
    else
      let (m, e) := if e % 2 = 0 then (m, e) else (2 * m, e - 1)
      let d := 2 ^ 256 / m
      let r := isqrt 129 d 0
      let exact := r * r = d && d * m = 2 ^ 256
      ulpPick f (Config.frsqPick (f.eb = 11) v) false (2 * r + (if exact then 0 else 1)) (-e / 2 - 129)

/-! Exact function values in fixed point, 256 bits after the point, for the bounds of 04 R102: sums of the functions' series,
each with terms enough for more than 200 correct bits. -/

abbrev fxOne : Nat := 2 ^ 256

/-- Σ ± t·x^j / (k+1)…(k+2j), alternating: the sine's series from k = 1 and t = r, the cosine's from k = 0 and t = 1, with
x = r². -/
def trigSeries : Nat → Nat → Nat → Nat → Int
  | 0, _, _, _ => 0
  | n + 1, x, k, t => (t : Int) - trigSeries n x (k + 2) (t * x / fxOne / ((k + 1) * (k + 2)))

/-- Σ t·x^j / (k+1)…(k+j): the exponential's series from k = 0 and t = 1. -/
def expSeries : Nat → Nat → Nat → Nat → Nat
  | 0, _, _, _ => 0
  | n + 1, x, k, t => t + expSeries n x (k + 1) (t * x / fxOne / (k + 1))

/-- Σ z^(2j+1) / (2j+1): the series of the inverse hyperbolic tangent, from k = 1 and t = z, with x = z². -/
def atanhSeries : Nat → Nat → Nat → Nat → Nat
  | 0, _, _, _ => 0
  | n + 1, x, k, t => t / k + atanhSeries n x (k + 2) (t * x / fxOne)

/-- The arc tangent of 1/d with 512 bits after the point, from k = 1 and t = 1/d. -/
def atanInv : Nat → Nat → Nat → Nat → Int
  | 0, _, _, _ => 0
  | n + 1, d, k, t => ((t / k : Nat) : Int) - atanInv n d (k + 2) (t / (d * d))

/-- π with 512 bits after the point: 16·atan(1/5) − 4·atan(1/239). -/
def piFx : Nat := (16 * atanInv 120 5 1 (2 ^ 512 / 5) - 4 * atanInv 40 239 1 (2 ^ 512 / 239)).toNat

/-- ln 2: 2·artanh(1/3). -/
def ln2Fx : Nat := 2 * atanhSeries 90 (fxOne / 9) 1 (fxOne / 3)

/-- sin, and with `quarter` 1 cos, of x = X·2^-256: reduced by multiples of π/2. -/
def sinFx (quarter X : Nat) : Int :=
  let q := X * 2 ^ 257 / piFx
  let r := X - q * piFx / 2 ^ 257
  let x := r * r / fxOne
  let j := (q + quarter) % 4
  let v := if j % 2 = 0 then trigSeries 60 x 1 r else trigSeries 60 x 0 fxOne
  if j < 2 then v else -v

/-- 2^f for f in 0 to 1. -/
def exp2Fx (f : Nat) : Nat := expSeries 80 (f * ln2Fx / fxOne) 0 fxOne

/-- log2 of m·2^e. -/
def log2Fx (m : Nat) (e : Int) : Int :=
  let k := m.log2
  -- m / 2^k lies in 1 to 2; z = (m − 2^k) / (m + 2^k)
  let z := (m - 2 ^ k) * fxOne / (m + 2 ^ k)
  (e + k) * fxOne + 2 * atanhSeries 90 (z * z / fxOne) 1 z * fxOne / ln2Fx

/-- 04 R102: the free value `c` where it meets the bound: within 2 ulp of y = Y·2^-257, or within `tol`·2^-257 where that is
larger; else the value nearest to y (log 14). An infinity counts as 2^128. An odd Y says on which side of the even one y lies. -/
def boundF32 (c : BitVec 32) (Y : Int) (tol : Nat) : BitVec 32 :=
  let ulp := 2 ^ (max Y.natAbs.log2 131 - 23)
  let scaled : Option Int := match fpF32.dec c.toNat with
    | .nan => none
    | .inf neg => some (if neg then -2 ^ 385 else 2 ^ 385)
    | .fin neg m e => let v : Int := (m * 2 ^ (e + 257).toNat : Nat)
      some (if neg then -v else v)
  match scaled with
  | some v => if (v - Y).natAbs ≤ max (2 * ulp) tol then c else BitVec.ofNat 32 (fpF32.round .rne (Y < 0) Y.natAbs (-257))
  | none => BitVec.ofNat 32 (fpF32.round .rne (Y < 0) Y.natAbs (-257))

/-- 04 R102: FEX2 of an f32, exact at the stated inputs; elsewhere a free value within the bound. -/
def fex2 (v : BitVec 32) : BitVec 32 :=
  match fpF32.dec v.toNat with
  | .nan => 0x7FC00000#32
  | .inf neg => if neg then 0 else v
  | .fin neg m e =>
    let i := Num.int (roundInt .rtz neg m e) neg
    let exact := 0 ≤ e || m % 2 ^ (-e).toNat = 0
    if m = 0 then 0x3F800000#32
    else if exact && -149 ≤ i && i ≤ 127 then BitVec.ofNat 32 (fpF32.round .rne false 1 i)
    else
      -- x = i + f with i its floor and f in 0 to 1; outside −400 to 400 the value is past every bound
      let X : Int := (if neg then -1 else 1) * (m * 2 ^ (e + 256).toNat : Nat)
      let i := X / fxOne
      if 400 < i then 0x7F800000#32
      else if i < -250 then boundF32 (Config.fex2 v) 1 0
      else boundF32 (Config.fex2 v) (2 * (exp2Fx (X % fxOne).toNat * 2 ^ (i + 250).toNat / 2 ^ 250) : Nat) 0

def flg2 (v : BitVec 32) : BitVec 32 :=
  match fpF32.dec v.toNat with
  | .nan => 0x7FC00000#32
  | .inf neg => if neg then 0x7FC00000#32 else v
  | .fin neg m e =>
    if m = 0 then 0xFF800000#32
    else if neg then 0x7FC00000#32
    else if v = 0x3F800000#32 then 0
    else boundF32 (Config.flg2 v) (2 * log2Fx m e) 0

/-- A sine or cosine at 2^-256, that of no f32 but 0 being 1 or -1, at 2^-257. -/
def belowOne (y : Int) : Int := if (fxOne : Int) ≤ y then 2 * fxOne - 1 else if y ≤ -fxOne then 1 - 2 * fxOne else 2 * y

def fsin (v : BitVec 32) : BitVec 32 :=
  match fpF32.dec v.toNat with
  | .nan => 0x7FC00000#32
  | .inf _ => 0x7FC00000#32
  | .fin neg m e =>
    if m = 0 then v
    else
      let y := sinFx 0 (m * 2 ^ (e + 256).toNat)
      boundF32 (Config.fsin v) (belowOne (if neg then -y else y)) (2 ^ 235)

def fcos (v : BitVec 32) : BitVec 32 :=
  match fpF32.dec v.toNat with
  | .nan => 0x7FC00000#32
  | .inf _ => 0x7FC00000#32
  | .fin _ m e =>
    if m = 0 then 0x3F800000#32
    else boundF32 (Config.fcos v) (belowOne (sinFx 1 (m * 2 ^ (e + 256).toNat))) (2 ^ 235)

/-! ### Conversions (04 R104-R108) -/

/-- 04 R104: to e4m3 or e5m2: round with the exponent unbounded above, then saturate or not. -/
def toFp8 (f : FpFmt) (r : Rnd) (nosat : Bool) (x : Num) : Nat :=
  let sat (neg : Bool) : Nat := f.sign neg + f.maxBits
  let inf (neg : Bool) : Nat := if f.e4 then f.qnan else f.infBits neg
  match x with
  | .nan => f.qnan
  | .inf neg => if f.e4 then (if nosat then f.qnan else sat neg) else f.infBits neg
  | .fin neg m e =>
    if m = 0 then f.sign neg
    else
      let (n, q) := roundSig f.fb (1 - f.bias) r neg m e
      let ex : Int := q + f.fb + f.bias
      if n < 2 ^ f.fb then f.sign neg + n
      else
        let bits : Int := ex * 2 ^ f.fb + (n - 2 ^ f.fb)
        if (f.maxBits : Int) < bits then (if nosat then inf neg else sat neg) else f.sign neg + bits.toNat

/-- 04 R95: place the low bits of a value of a format in a register or pair. -/
def placeFmt (f : Fmt) (v : Nat) : Word :=
  let n := f.bits
  let u := v % 2 ^ n
  if f.signed && n < 32 && 2 ^ (n - 1) ≤ u then low32v (BitVec.ofNat 64 (2 ^ 32 - 2 ^ n + u)) else BitVec.ofNat 64 u
where low32v (w : Word) : Word := (w.setWidth 32).setWidth 64

/-- The value of an integer format held in the low bits of a word. -/
def intOfFmt (f : Fmt) (w : Word) : Int :=
  let n := f.bits
  let u : Nat := w.toNat % 2 ^ n
  if f.signed && 2 ^ (n - 1) ≤ u then (u : Int) - (2 ^ n : Nat) else (u : Int)

/-- 04 R106: to an integer type, saturating. -/
def ftoi (src : FpFmt) (dst : Fmt) (r : Rnd) (v : Nat) : Int :=
  let lo : Int := if dst.signed then -(2 ^ (dst.bits - 1)) else 0
  let hi : Int := if dst.signed then 2 ^ (dst.bits - 1) - 1 else 2 ^ dst.bits - 1
  match src.dec v with
  | .nan => 0
  | .inf neg => if neg then lo else hi
  | .fin neg m e => max lo (min hi (Num.int (roundInt r neg m e) neg))

/-- 04 R107. -/
def itof (dst : FpFmt) (r : Rnd) (v : Int) : Nat := dst.round r (decide (v < 0)) v.natAbs 0

/-- 06 R162: FCVT between formats other than q4. -/
def fcvt (dst src : Fmt) (r : Rnd) (nosat : Bool) (w : Word) : Word :=
  let v := w.toNat % 2 ^ src.bits
  if dst.isInt then placeFmt dst (intOfFmt src w % ((2 ^ dst.bits : Nat) : Int)).toNat
  else if dst.isFp8 then BitVec.ofNat 64 (toFp8 (fpOfFmt dst) r nosat ((fpOfFmt src).dec v))
  else BitVec.ofNat 64 ((fpOfFmt dst).enc r ((fpOfFmt src).dec v))

/-! ### Rounding steps of the matrix and dot products (04 R113, R114) -/

/-- 04 R114: one rounding step over a running value and products; an exact zero sum is −0 only if every term is −0, or in
.rdn by the rule of 06 R156 (log 21). -/
def oneStep (f : FpFmt) (r : Rnd) (z : Num) (ps : List Num) : Nat :=
  let terms := z :: ps
  if terms.any Num.isNan || (terms.contains (.inf true) && terms.contains (.inf false)) then f.qnan
  else if terms.contains (.inf false) then f.infBits false
  else if terms.contains (.inf true) then f.infBits true
  else f.enc r (ps.foldl (Num.add (r = .rdn)) z)

/-! ### q4 blocks (04 R109-R112) -/

/-- 04 R110: decode a code, in eighths. -/
def q4Dec (ty : Nat) (c : Nat) : Option Int :=
  let mag : Nat → Int := fun k => match ty with
    | 1 => ([0, 4, 8, 12, 16, 24, 32, 48][k]?).getD 0
    | 2 => ([0, 1, 2, 4, 8, 16, 32, 64][k]?).getD 0
    | _ => ([0, 8, 16, 24, 32, 48, 64, 96][k]?).getD 0
  if ty = 0 then some (8 * (if 8 ≤ c then (c : Int) - 16 else c))
  else if c = 8 then (if ty = 3 then none else some 0)
  else some (if 8 ≤ c then -(mag (c - 8)) else mag c)

/-- 04 R110: an element's exact value. -/
def q4Val (scale code : Nat) : Num :=
  let ty := scale / 64 % 4
  let e : Int := (scale % 64 : Nat)
  if scale % 256 = 0x3F then .nan
  else match q4Dec ty code with
    | none => .nan
    | some v => .fin (if v = 0 then ty = 1 && code = 8 else v < 0) v.natAbs (e - 35)

/-- 04 R112: the code of type `ty` nearest to x·8, x given as n/2^d eighths: num/den eighths. -/
def q4Code (ty : Nat) (neg : Bool) (num den : Nat) : Nat :=
  -- magnitude codes in ascending magnitude
  let mags : List Nat := if ty = 0 then [0, 8, 16, 24, 32, 40, 48, 56] ++ (if neg then [64] else [])
    else (List.range 8).map fun k => ((q4Dec ty k).getD 0).toNat
  let dist (m : Nat) : Nat := if num ≤ m * den then m * den - num else num - m * den
  let best := (List.range mags.length).foldl (fun (b : Nat) k =>
    let db := dist ((mags[b]?).getD 0)
    let dk := dist ((mags[k]?).getD 0)
    if dk < db || (dk = db && b ≠ k && k % 2 = 0) then k else b) 0
  if best = 0 then (if ty = 1 && neg then 8 else 0)
  else if ty = 0 then (if neg then 16 - best else best)
  else if neg then 8 + best else best

/-- 04 R111: E of a type for a greatest magnitude m·2^e. -/
def q4Exp (ty : Nat) (m : Nat) (e : Int) : Nat :=
  let qmax := ([7, 6, 8, 12][ty]?).getD 7
  -- m·2^e ≤ qmax·2^(E−32)
  let ok (E : Nat) : Bool :=
    let k : Int := e - ((E : Int) - 32)
    if 0 ≤ k then m * 2 ^ k.toNat ≤ qmax else m ≤ qmax * 2 ^ (-k).toNat
  ((List.range 63).find? ok).getD 62

/-- 04 R111, R112: encode a block: the scale byte and the codes. `sel`: the type named, or none for AUTO. -/
def q4Encode (sel : Option Nat) (xs : List Num) : Nat × List Nat :=
  if xs.any fun x => match x with
    | .fin _ _ _ => false
    | _ => true
  then (0x3F, xs.map fun _ => 0)
  else
    let fin (x : Num) : Bool × Nat × Int := match x with
      | .fin n m e => (n, m, e)
      | _ => (false, 0, 0)
    let amax := xs.foldl (fun (a : Nat × Int) x =>
      let (_, m, e) := fin x
      if Num.lt (.fin false a.1 a.2) (.fin false m e) then (m, e) else a) (0, 0)
    let enc (ty : Nat) : Nat × List Nat × Num :=
      let E := q4Exp ty amax.1 amax.2
      let codes := xs.map fun x =>
        let (n, m, e) := fin x
        -- |x|·8 / 2^(E−32) as num/den
        let k : Int := e + 3 - ((E : Int) - 32)
        if 0 ≤ k then q4Code ty n (m * 2 ^ k.toNat) 1 else q4Code ty n m (2 ^ (-k).toNat)
      let sc := ty * 64 + E
      let err := (xs.zip codes).foldl (fun (acc : Num) xc =>
        let d := Num.add false xc.1 (q4Val sc xc.2).neg
        Num.add false acc (d.mul d)) (.fin false 0 0)
      (sc, codes, err)
    let cands := match sel with
      | some ty => [enc ty]
      | none => [enc 0, enc 1, enc 2, enc 3]
    match cands with
    | [] => (0, [])
    | c :: cs =>
      let b := cs.foldl (fun b x => if Num.lt x.2.2 b.2.2 then x else b) c
      (b.1, b.2.1)

end Sys2Proof.Machine
end

