-- ==== Sys2Proof/Machine/Flags.lean ====
section
/-!
DEFINITION. Predicates computed: compares with the endpoint check (02 R45) and predicate logic (02 R46).
-/

namespace Sys2Proof.Machine

open Sys2Proof

/-- 06 R151: a relation on exact values. -/
def Rel.holds (r : Rel) (a b : Int) : Bool :=
  match r with
  | .eq => a = b
  | .ne => a ≠ b
  | .lt => a < b
  | .le => a ≤ b
  | .gt => b < a
  | .ge => b ≤ a

/-- 02 R45, rule 5: the relation with its operands swapped. -/
def Rel.swap : Rel → Rel
  | .eq => .eq
  | .ne => .ne
  | .lt => .gt
  | .le => .ge
  | .gt => .lt
  | .ge => .le

def boolPred (b : Bool) : Pred := if b then .t else .f

/-- The range of an integer type. -/
def tyMin (w64 signed : Bool) : Int := if signed then (if w64 then -(2 ^ 63) else -(2 ^ 31)) else 0
def tyMax (w64 signed : Bool) : Int :=
  match w64, signed with
  | true, true => 2 ^ 63 - 1
  | true, false => 2 ^ 64 - 1
  | false, true => 2 ^ 31 - 1
  | false, false => 2 ^ 32 - 1

/-- The first coordinate of [lo, hi) at which `f` holds; `f` false then true. -/
def firstTrue (f : Int → Bool) : Nat → Int → Int → Int
  | 0, _, hi => hi
  | n + 1, lo, hi =>
    if hi ≤ lo then hi
    else
      let m := (lo + hi) / 2
      if f m then firstTrue f n lo m else firstTrue f n (m + 1) hi

/-- A per-index predicate as M, over the places of an expanded fibre. -/
def Thread.predM (t : Thread) (f : Nat → Bool) : Pred := .m (t.places.filter f)

/-- 02 R45: fold strides on axes of extent 1 into the base. -/
def foldStrides (bx : Box) (w64 : Bool) (b : Word) (sx sy sz : Int) : Word × Int × Int × Int :=
  let fx := bx.ex = 1
  let fy := bx.ey = 1
  let fz := bx.ez = 1
  let d : Int := (if fx then sx * bx.x0 else 0) + (if fy then sy * bx.y0 else 0) + (if fz then sz * bx.z0 else 0)
  (wordOf w64 (b.toNat + d), if fx then 0 else sx, if fy then 0 else sy, if fz then 0 else sz)

/-- The one axis with a nonzero stride. -/
def oneAxis (sx sy sz : Int) : Option (Axis × Int) :=
  if sx ≠ 0 && sy = 0 && sz = 0 then some (.x, sx)
  else if sx = 0 && sy ≠ 0 && sz = 0 then some (.y, sy)
  else if sx = 0 && sy = 0 && sz ≠ 0 then some (.z, sz)
  else none

/-- 02 R45, rule 3: the compare of b + s·coordinate against u on one axis, none of whose values wraps. -/
def cutCompare (bx : Box) (a : Axis) (rel : Rel) (b s u : Int) : Option Pred :=
  let lo : Int := bx.lo a
  let hi : Int := bx.hi a
  let f (c : Int) : Bool := Rel.holds rel (b + s * c) u
  match rel with
  | .eq | .ne =>
    let q := (u - b) / s
    if (u - b) % s = 0 && lo ≤ q && q < hi then none else some (boolPred (rel = .ne))
  | _ =>
    let f0 := f lo
    if f (hi - 1) = f0 then some (boolPred f0)
    else
      let thr := firstTrue (fun c => f c != f0) 64 lo hi
      some ((Pred.c a thr.toNat (!f0)).norm bx)

/-- 02 R45: the integer compare of v against u, of one type. In an expanded fibre a cut becomes per-lane bits (02 R51;
log 20). -/
def Thread.compare (t : Thread) (w64 signed : Bool) (rel : Rel) (x y : Opd) : Pred :=
  let at_ (p : Nat) : Bool := Rel.holds rel (typedOf w64 signed (x.val p)) (typedOf w64 signed (y.val p))
  let m : Pred := t.predM at_
  let go (b : Word) (sx sy sz : Int) (rel : Rel) (u : Word) : Pred :=
    let (b, sx, sy, sz) := foldStrides t.frame w64 b sx sy sz
    if sx = 0 && sy = 0 && sz = 0 then boolPred (Rel.holds rel (typedOf w64 signed b) (typedOf w64 signed u))
    else match oneAxis sx sy sz with
      | none => m
      | some (ax, st) =>
        let bi := typedOf w64 signed b
        let e0 := bi + st * t.frame.lo ax
        let e1 := bi + st * (t.frame.hi ax - 1)
        let ok (v : Int) : Bool := tyMin w64 signed ≤ v && v ≤ tyMax w64 signed
        if ok e0 && ok e1 then
          match cutCompare t.frame ax rel bi st (typedOf w64 signed u) with
          | some (.c a thr ge) => if t.expanded then t.predM (t.predAt (.c a thr ge)) else .c a thr ge
          | some p => p
          | none => m
        else m
  match x.form, y.form with
  | .u a, .u b => boolPred (Rel.holds rel (typedOf w64 signed a) (typedOf w64 signed b))
  | .a b sx sy sz, .u u => go b sx sy sz rel u
  | .u u, .a b sx sy sz => go b sx sy sz (Rel.swap rel) u
  | _, _ => m

/-- 02 R46: whether a set of indices is the whole box, none of it, or one cut of it, tried at the thresholds of the operands. -/
def Thread.asCut (t : Thread) (cands : List (Axis × Nat)) (f : Idx → Bool) : Option Pred :=
  -- the operands are constant between the thresholds, so one probe for each region decides
  let pts (a : Axis) : List Nat :=
    (t.box.lo a :: (cands.filter (fun c => c.1 = a)).map Prod.snd).filter fun v => t.box.lo a ≤ v && v < t.box.hi a
  let probes : List Idx := (pts .x).flatMap fun x => (pts .y).flatMap fun y => (pts .z).map fun z => ⟨x, y, z⟩
  if probes.all f then some .t
  else if probes.all fun i => !f i then some .f
  else cands.findSome? fun (a, v) =>
    if probes.all fun i => f i == decide (i.at_ a < v) then some (.c a v false)
    else if probes.all fun i => f i == decide (v ≤ i.at_ a) then some (.c a v true)
    else none

def Pred.cuts : Pred → List (Axis × Nat)
  | .c a v _ => [(a, v)]
  | _ => []
def Pred.isM : Pred → Bool
  | .m _ => true
  | _ => false

/-- The value of a predicate without lanes at an index. -/
def Pred.atIdx (p : Pred) (i : Idx) : Bool :=
  match p with
  | .t => true
  | .c a thr ge => if ge then thr ≤ i.at_ a else i.at_ a < thr
  | _ => false

/-- 02 R46: a logical operation on two predicates. -/
def Thread.logic (t : Thread) (f : Bool → Bool → Bool) (a b : Pred) : Pred :=
  if t.expanded || a.isM || b.isM then
    match a, b with
    | .t, .t => boolPred (f true true)
    | .t, .f => boolPred (f true false)
    | .f, .t => boolPred (f false true)
    | .f, .f => boolPred (f false false)
    | _, _ => t.predM fun p => f (t.predAt a p) (t.predAt b p)
  else
    match t.asCut (a.cuts ++ b.cuts) (fun i => f (a.atIdx i) (b.atIdx i)) with
    | some p => p.norm t.box
    | none => t.predM fun p => f (t.predAt a p) (t.predAt b p)

/-- A source predicate with its negation. -/
def Thread.psrc (t : Thread) (n : BitVec 6) (neg : Bool) : Pred :=
  let p := t.pred n.toNat
  if neg then p.neg t.active else p

end Sys2Proof.Machine
end

