-- ==== Sys2Proof/Machine/Int.lean ====
section
/-!
DEFINITION. Integer and address instructions (06 R140-R154), NOP and ILLEGAL (07 R195, 05 R138).
-/

namespace Sys2Proof.Machine

open Sys2Proof

/-! ### Values -/

def w32or (w64 : Bool) (v : Word) : Word := if w64 then v else low32 v
/-- The bits of a type's width. -/
def bitsOf (w64 : Bool) : Nat := if w64 then 64 else 32

/-- 06 R144: the smaller or larger of two values of a type. -/
def minMaxV (mx w64 sg : Bool) (a b : Word) : Word :=
  if decide (typedOf w64 sg a < typedOf w64 sg b) = mx then w32or w64 b else w32or w64 a

/-- 06 R145: the upper half of the exact product. -/
def mulhV (w64 sg : Bool) (a b : Word) : Word := wordOf w64 (typedOf w64 sg a * typedOf w64 sg b / 2 ^ bitsOf w64)

/-- 06 R145: the exact 64-bit product of two 32-bit values. -/
def mulwV (sg : Bool) (a b : Word) : Word := wordOf true (typedOf false sg a * typedOf false sg b)

/-- 06 R148: SHR (`sg`: the vacated bits copy the sign, as SAR's always do). -/
def shrV (w64 sg : Bool) (a c : Word) : Word :=
  let n := (low32 c).toNat
  wordOf w64 (typedOf w64 sg a / 2 ^ min n (bitsOf w64))

/-- 06 R149: position and length of a field. -/
def fieldOf (w64 : Bool) (spec : Word) : Nat × Nat :=
  let p := min (spec.toNat % 256) (bitsOf w64)
  (p, min (spec.toNat / 256 % 256) (bitsOf w64 - p))

def bfxV (w64 sg : Bool) (x spec : Word) : Word :=
  let (p, l) := fieldOf w64 spec
  let f := (w32or w64 x).toNat / 2 ^ p % 2 ^ l
  if l = 0 then 0
  else if sg && 2 ^ (l - 1) ≤ f then wordOf w64 ((f : Int) - (2 ^ l : Nat)) else BitVec.ofNat 64 f

def bfiV (w64 : Bool) (x y spec : Word) : Word :=
  let (p, l) := fieldOf w64 spec
  let msk : Word := BitVec.ofNat 64 ((2 ^ l - 1) * 2 ^ p)
  w32or w64 ((x &&& ~~~msk) ||| ((y <<< p) &&& msk))

def clzV (w64 : Bool) (x : Word) : Word :=
  let v := (w32or w64 x).toNat
  BitVec.ofNat 64 (if v = 0 then bitsOf w64 else bitsOf w64 - 1 - v.log2)
def popcV (w64 : Bool) (x : Word) : Word :=
  BitVec.ofNat 64 ((List.range (bitsOf w64)).countP fun i => x.getLsbD i)
def brevV (w64 : Bool) (x : Word) : Word :=
  BitVec.ofNat 64 ((List.range (bitsOf w64)).foldl (fun acc i => 2 * acc + (if x.getLsbD i then 1 else 0)) 0)

/-! ### Shapes -/

/-- A two-source operation: its value on a width and signedness, from the operands. -/
abbrev Op2 := Thread → Bool → Bool → Opd → Opd → Opd

def anyOp (f : Bool → Bool → Word → Word → Word) : Op2 := fun _ w64 sg x y => Opd.map2 (f w64 sg) x y
def opAdd : Op2 := fun t w64 _ x y => Opd.addSub t w64 false x y
def opSub : Op2 := fun t w64 _ x y => Opd.addSub t w64 true x y
def opMul : Op2 := fun t w64 _ x y => Opd.mul t w64 x y
def opShl : Op2 := fun t w64 _ x y =>
  match y.form with
  | .u c => x.scale t w64 (2 ^ min (low32 c).toNat 64) y.pAll
  | _ => Opd.map2 (fun a c => wordOf w64 (a.toNat * 2 ^ min (low32 c).toNat 64)) x y

/-- Format C, SA and SB of the type's width. -/
def State.aluRR (s : State) (o : RR) (f : Op2) : State :=
  s.result o.g o.d (RW.ofTy o.ty) false fun s t =>
    f t o.ty.is64 o.ty.signed (t.src s.draw o.a o.ty.is64) (t.src s.draw o.b o.ty.is64)

/-- Format C with a 32-bit SB: shift counts and field specs (06 R148, R149). -/
def State.aluRC (s : State) (o : RR) (f : Op2) : State :=
  s.result o.g o.d (RW.ofTy o.ty) false fun s t =>
    f t o.ty.is64 o.ty.signed (t.src s.draw o.a o.ty.is64) (t.src s.draw o.b false)

/-- 06 R142: the immediate of format I. -/
def immOf (w sg : Bool) (imm : BitVec 32) : Word := if w && sg then imm.signExtend 64 else imm.setWidth 64

def riRW (w sg : Bool) : RW := if w then .w64 else .w32 sg

/-- Format I. -/
def State.aluRI (s : State) (o : RI) (f : Op2) : State :=
  s.result o.g o.d (riRW o.w o.s) false fun s t =>
    f t o.w o.s (t.src s.draw o.a o.w) (Opd.ofU (immOf o.w o.s o.imm))

/-- Format I whose immediate is a count read as n32, whatever S is (06 R148). -/
def State.aluRIC (s : State) (o : RI) (f : Op2) : State :=
  s.result o.g o.d (riRW o.w o.s) false fun s t =>
    f t o.w o.s (t.src s.draw o.a o.w) (Opd.ofU (o.imm.setWidth 64))

/-- One source. -/
def State.alu1 (s : State) (o : R1) (w : RW) (f : Thread → Bool → Bool → Opd → Opd) : State :=
  s.result o.g o.d w false fun s t => f t o.ty.is64 o.ty.signed (t.src s.draw o.a o.ty.is64)

/-! ### Meanings -/

/-- 07 R195. -/
def execNop (_o : G) (s : State) : Out := .next s.advance
/-- 05 R138. -/
def execIllegal (s : State) : Out := .next (s.trapAll cIllegalOpcode)

def execIadd (o : RR) (s : State) : Out := .next (s.aluRR o opAdd)
def execIaddImm (o : RI) (s : State) : Out := .next (s.aluRI o opAdd)
def execIsub (o : RR) (s : State) : Out := .next (s.aluRR o opSub)
def execIsubImm (o : RI) (s : State) : Out := .next (s.aluRI o opSub)
def execImul (o : RR) (s : State) : Out := .next (s.aluRR o opMul)
def execImulImm (o : RI) (s : State) : Out := .next (s.aluRI o opMul)
def execImulh (o : RR) (s : State) : Out := .next (s.aluRR o (anyOp mulhV))
def execImulhImm (o : RI) (s : State) : Out := .next (s.aluRI o (anyOp mulhV))
def execImin (o : RR) (s : State) : Out := .next (s.aluRR o (anyOp (minMaxV false)))
def execIminImm (o : RI) (s : State) : Out := .next (s.aluRI o (anyOp (minMaxV false)))
def execImax (o : RR) (s : State) : Out := .next (s.aluRR o (anyOp (minMaxV true)))
def execImaxImm (o : RI) (s : State) : Out := .next (s.aluRI o (anyOp (minMaxV true)))
def execAnd (o : RR) (s : State) : Out := .next (s.aluRR o (anyOp fun _ _ a b => a &&& b))
def execAndImm (o : RI) (s : State) : Out := .next (s.aluRI o (anyOp fun _ _ a b => a &&& b))
def execOr (o : RR) (s : State) : Out := .next (s.aluRR o (anyOp fun _ _ a b => a ||| b))
def execOrImm (o : RI) (s : State) : Out := .next (s.aluRI o (anyOp fun _ _ a b => a ||| b))
def execXor (o : RR) (s : State) : Out := .next (s.aluRR o (anyOp fun _ _ a b => a ^^^ b))
def execXorImm (o : RI) (s : State) : Out := .next (s.aluRI o (anyOp fun _ _ a b => a ^^^ b))
def execAndn (o : RR) (s : State) : Out := .next (s.aluRR o (anyOp fun _ _ a b => a &&& ~~~b))
def execAndnImm (o : RI) (s : State) : Out := .next (s.aluRI o (anyOp fun _ _ a b => a &&& ~~~b))
def execShl (o : RR) (s : State) : Out := .next (s.aluRC o opShl)
def execShlImm (o : RI) (s : State) : Out := .next (s.aluRIC o opShl)
def execShr (o : RR) (s : State) : Out := .next (s.aluRC o (anyOp shrV))
def execShrImm (o : RI) (s : State) : Out := .next (s.aluRIC o (anyOp shrV))
def execSar (o : RR) (s : State) : Out := .next (s.aluRC o (anyOp fun w _ a c => shrV w true a c))
def execSarImm (o : RI) (s : State) : Out := .next (s.aluRIC o (anyOp fun w _ a c => shrV w true a c))
def execBfx (o : RR) (s : State) : Out := .next (s.aluRC o (anyOp bfxV))

/-- 06 R145: IMULW: 32-bit sources, a 64-bit result. -/
def execImulw (o : RR) (s : State) : Out :=
  .next (s.result o.g o.d .w64 false fun s t =>
    Opd.map2 (mulwV o.ty.signed) (t.src s.draw o.a false) (t.src s.draw o.b false))
def execImulwImm (o : RI) (s : State) : Out :=
  .next (s.result o.g o.d .w64 false fun s t =>
    Opd.map2 (mulwV o.s) (t.src s.draw o.a false) (Opd.ofU (o.imm.setWidth 64)))

/-- 02 R41: an A whose strides are zero counts as U as the input of a next step. -/
def Opd.norm (o : Opd) : Opd :=
  match o.form with
  | .a b 0 0 0 => ⟨.u b, o.val, o.pAll, o.pL⟩
  | _ => o

/-- 06 R146. -/
def execImad (o : RRR) (s : State) : Out :=
  .next (s.result o.g o.d (RW.ofTy o.ty) false fun s t =>
    let w := o.ty.is64
    Opd.addSub t w false (Opd.mul t w (t.src s.draw o.a w) (t.src s.draw o.b w)).norm (t.src s.draw o.c w))

/-- 06 R149. -/
def execBfi (o : RRR) (s : State) : Out :=
  .next (s.result o.g o.d (RW.ofTy o.ty) false fun s t =>
    Opd.map3 (bfiV o.ty.is64) (t.src s.draw o.a o.ty.is64) (t.src s.draw o.b o.ty.is64) (t.src s.draw o.c false))

/-- 06 R147, 02 R41: INEG is 0 − x. -/
def execIneg (o : R1) (s : State) : Out :=
  .next (s.alu1 o (RW.ofTy o.ty) fun t w _ x => Opd.addSub t w true (Opd.ofU 0) x)
def execIabs (o : R1) (s : State) : Out :=
  .next (s.alu1 o (RW.ofTy o.ty) fun _ w _ x => Opd.map1 (fun a => wordOf w (signedOf w a).natAbs) x)
def execNot (o : R1) (s : State) : Out :=
  .next (s.alu1 o (RW.ofTy o.ty) fun _ w _ x => Opd.map1 (fun a => w32or w (~~~a)) x)
def execBrev (o : R1) (s : State) : Out :=
  .next (s.alu1 o (RW.ofTy o.ty) fun _ w _ x => Opd.map1 (brevV w) x)
/-- 06 R147: the result is n32 in a single register. -/
def execClz (o : R1) (s : State) : Out := .next (s.alu1 o (.w32 false) fun _ w _ x => Opd.map1 (clzV w) x)
def execPopc (o : R1) (s : State) : Out := .next (s.alu1 o (.w32 false) fun _ w _ x => Opd.map1 (popcV w) x)

/-- 06 R150: a T or F selector keeps the selected operand's form; any other gives per-index values. -/
def selOpd (t : Thread) (q : Pred) (x y : Opd) : Opd :=
  let pAll := x.pAll || y.pAll
  let pL := listUnion x.pL y.pL
  match q with
  | .t => ⟨x.form, x.val, pAll, pL⟩
  | .f => ⟨y.form, y.val, pAll, pL⟩
  | q => ⟨.e, fun p => if t.predAt q p then x.val p else y.val p, pAll, pL⟩

def execSel (o : SelO) (s : State) : Out :=
  .next (s.result o.g o.d (RW.ofTy o.ty) false fun s t =>
    selOpd t (t.psrc (o.p.setWidth 6) o.neg) (t.src s.draw o.a o.ty.is64) (t.src s.draw o.b o.ty.is64))

/-- The poison of two operands read. -/
def poisonOf (x y : Opd) : Opd := ⟨.u 0, fun _ => 0, x.pAll || y.pAll, listUnion x.pL y.pL⟩

/-- 06 R151, 02 R45. -/
def execIcmp (o : CmpO) (s : State) : Out :=
  .next (s.predResult o.g o.p.toNat fun s t =>
    let x := t.src s.draw o.a o.ty.is64
    let y := t.src s.draw o.b o.ty.is64
    (t.compare o.ty.is64 o.ty.signed o.rel x y, poisonOf x y))
def execIcmpImm (o : CmpIO) (s : State) : Out :=
  .next (s.predResult o.g o.p.toNat fun s t =>
    let x := t.src s.draw o.a o.w
    let y := Opd.ofU (immOf o.w o.s o.imm)
    (t.compare o.w o.s o.rel x y, poisonOf x y))

/-- 06 R152: MOV carries form and poison. -/
def execMov (o : R1) (s : State) : Out :=
  .next (s.result o.g o.d (RW.ofTy o.ty) true fun s t => t.src s.draw o.a o.ty.is64)
def execMovi (o : MoviO) (s : State) : Out :=
  .next (s.result o.g o.d (riRW o.w o.s) false fun _ _ => Opd.ofU (immOf o.w o.s o.imm))
/-- 06 R152: the high register takes IMM and the even one keeps its value. -/
def execMovh (o : MovhO) (s : State) : Out :=
  .next (s.result o.g o.d .w64 false fun _ t =>
    Opd.map1 (fun lo => (o.imm.setWidth 64 <<< 32) ||| lo) (t.read32 o.d.n.toNat))

/-- 06 R154, step 1: a 32-bit index extended to 64 bits. -/
def leaExt (t : Thread) (sg : Bool) (y : Opd) : Opd :=
  let ext (v : Word) : Word := wordOf true (typedOf false sg v)
  match y.form with
  | .u b => Opd.ofU (ext b) y.pAll
  | .a b sx sy sz =>
    let bi := typedOf false sg b
    let lo (st : Int) (a : Axis) : Int := min (st * t.frame.lo a) (st * (t.frame.hi a - 1))
    let hi (st : Int) (a : Axis) : Int := max (st * t.frame.lo a) (st * (t.frame.hi a - 1))
    let mn := bi + lo sx .x + lo sy .y + lo sz .z
    let mx := bi + hi sx .x + hi sy .y + hi sz .z
    if tyMin false sg ≤ mn && mx ≤ tyMax false sg then ⟨.a (wordOf true bi) sx sy sz, fun p => ext (y.val p), y.pAll, y.pL⟩
    else ⟨.e, fun p => ext (y.val p), y.pAll, y.pL⟩
  | .e => ⟨.e, fun p => ext (y.val p), y.pAll, y.pL⟩

/-- 06 R153, R154. -/
def execLea (o : LeaO) (s : State) : Out :=
  .next (s.result o.g o.d .w64 false fun s t =>
    let y := t.src s.draw o.b o.ty.is64
    let e := if o.ty.is64 then y else leaExt t o.ty.signed y
    Opd.addSub t true false (t.src s.draw o.a true) (e.scale t true (2 ^ o.sh.toNat) false).norm)

end Sys2Proof.Machine
end

