-- ==== Sys2Proof/Machine/Float.lean ====
section
/-!
DEFINITION. Floating-point, conversion, packed and dot-product instructions (06 R155-R167).
-/

namespace Sys2Proof.Machine

open Sys2Proof

def FTy.is64 (ty : FTy) : Bool := ty = .f64
def Fmt.is64 (f : Fmt) : Bool := f.n = 2
def rwOf (w64 : Bool) : RW := if w64 then .w64 else .w32 false

/-- The bits of a floating value in a register (04 R95). -/
def fbits (f : FpFmt) (w : Word) : Nat := w.toNat % 2 ^ f.width

def fOp1 (ty : FTy) (g : FpFmt → Nat → Nat) (x : Word) : Word := BitVec.ofNat 64 (g (fpOf ty) (fbits (fpOf ty) x))
def fOp2 (ty : FTy) (g : FpFmt → Nat → Nat → Nat) (x y : Word) : Word :=
  BitVec.ofNat 64 (g (fpOf ty) (fbits (fpOf ty) x) (fbits (fpOf ty) y))
def fOp3 (ty : FTy) (g : FpFmt → Nat → Nat → Nat → Nat) (x y z : Word) : Word :=
  BitVec.ofNat 64 (g (fpOf ty) (fbits (fpOf ty) x) (fbits (fpOf ty) y) (fbits (fpOf ty) z))

/-- 06 R155: U when every input is U and E otherwise. -/
def State.flt2 (s : State) (o : FRR) (g : FpFmt → Rnd → Nat → Nat → Nat) : State :=
  s.result o.g o.d (rwOf (FTy.is64 o.ty)) false fun s t =>
    Opd.map2 (fOp2 o.ty fun f a b => g f o.rnd a b) (t.src s.draw o.a (FTy.is64 o.ty)) (t.src s.draw o.b (FTy.is64 o.ty))
def State.flt1 (s : State) (o : FR1) (g : FpFmt → Rnd → Nat → Nat) : State :=
  s.result o.g o.d (rwOf (FTy.is64 o.ty)) false fun s t =>
    Opd.map1 (fOp1 o.ty fun f a => g f o.rnd a) (t.src s.draw o.a (FTy.is64 o.ty))

def execFadd (o : FRR) (s : State) : Out := .next (s.flt2 o FpFmt.add)
def execFsub (o : FRR) (s : State) : Out := .next (s.flt2 o FpFmt.sub)
def execFmul (o : FRR) (s : State) : Out := .next (s.flt2 o FpFmt.mul)
def execFmin (o : FRR) (s : State) : Out := .next (s.flt2 o fun f _ a b => f.minMax false a b)
def execFmax (o : FRR) (s : State) : Out := .next (s.flt2 o fun f _ a b => f.minMax true a b)

def execFfma (o : FRRR) (s : State) : Out :=
  .next (s.result o.g o.d (rwOf (FTy.is64 o.ty)) false fun s t =>
    let w := FTy.is64 o.ty
    Opd.map3 (fOp3 o.ty fun f a b c => f.fma o.rnd a b c) (t.src s.draw o.a w) (t.src s.draw o.b w) (t.src s.draw o.c w))

/-- 06 R157: sign operations keep every other bit. -/
def execFabs (o : FR1) (s : State) : Out := .next (s.flt1 o fun f _ a => a % 2 ^ (f.eb + f.fb))
def execFneg (o : FR1) (s : State) : Out :=
  .next (s.flt1 o fun f _ a => if a < 2 ^ (f.eb + f.fb) then a + 2 ^ (f.eb + f.fb) else a - 2 ^ (f.eb + f.fb))

/-- 06 R158, 02 R45: T or F for U operands and M otherwise. -/
def execFcmp (o : FCmpO) (s : State) : Out :=
  .next (s.predResult o.g o.p.toNat fun s t =>
    let x := t.src s.draw o.a (FTy.is64 o.ty)
    let y := t.src s.draw o.b (FTy.is64 o.ty)
    let h (a b : Word) : Bool := fcmp (fpOf o.ty) o.rel (fbits (fpOf o.ty) a) (fbits (fpOf o.ty) b)
    (match x.form, y.form with
      | .u a, .u b => boolPred (h a b)
      | _, _ => t.predM fun p => h (x.val p) (y.val p), poisonOf x y))

/-- 06 R159. -/
def execFclass (o : FR1) (s : State) : Out :=
  .next (s.result o.g o.d (.w32 false) false fun s t =>
    Opd.map1 (fOp1 o.ty fclass) (t.src s.draw o.a (FTy.is64 o.ty)))

def execFrcp (o : FR1) (s : State) : Out := .next (s.flt1 o fun f _ a => f.rcp a)
def execFrsq (o : FR1) (s : State) : Out := .next (s.flt1 o fun f _ a => f.rsq a)
def execFsqrt (o : FR1) (s : State) : Out := .next (s.flt1 o fun f r a => f.sqrt r a)
def execFex2 (o : FR1) (s : State) : Out := .next (s.flt1 o fun _ _ a => (fex2 (BitVec.ofNat 32 a)).toNat)
def execFlg2 (o : FR1) (s : State) : Out := .next (s.flt1 o fun _ _ a => (flg2 (BitVec.ofNat 32 a)).toNat)
def execFsin (o : FR1) (s : State) : Out := .next (s.flt1 o fun _ _ a => (fsin (BitVec.ofNat 32 a)).toNat)
def execFcos (o : FR1) (s : State) : Out := .next (s.flt1 o fun _ _ a => (fcos (BitVec.ofNat 32 a)).toNat)
def execFrnd (o : FR1) (s : State) : Out := .next (s.flt1 o fun f r a => f.rnd r a)

/-! ### Conversions -/

def qselType (q : BitVec 3) : Option Nat := if q = 0#3 then none else some (q.toNat - 4)

/-- 06 R163: one lane's result of a q4 block. -/
def q4Lane (sel : Option Nat) (xs : List Num) (l : Nat) : Word :=
  let (sc, codes) := q4Encode sel xs
  BitVec.ofNat 64 (sc * 256 + codes.getD l 0)

/-- 06 R163: FCVT to q4 over the lane blocks; lanes that supply no value count as +0. Of a block with a poisoned lane that lane traps,
and its value still counts in the block (log 84). -/
def q4Opd (t : Thread) (o : CvtO) (x : Opd) (mask : Option (List Nat)) : Opd :=
  let f := fpOfFmt o.from_
  let num (v : Word) : Num := f.dec (fbits f v)
  match x.form with
  | .u b => Opd.ofU (q4Lane (qselType o.qsel) (List.replicate 32 (num b)) 0) x.pAll
  | _ =>
    let on := mask.getD t.active
    ⟨.e, fun p =>
      q4Lane (qselType o.qsel) ((List.range 32).map fun l =>
        let q := p / 32 * 32 + l
        if on.contains q then num (x.val q) else .fin false 0 0) (p % 32), x.pAll, x.pL⟩

/-- 06 R162, R163. -/
def execFcvt (o : CvtO) (s : State) : Out :=
  .next (s.result o.g o.d (rwOf (Fmt.is64 o.ty)) false fun s t =>
    let x := t.src s.draw o.a (Fmt.is64 o.from_)
    if o.ty = .q4 then q4Opd t o x (match t.guard o.g with
      | .m l => some (t.active.filter (l.contains ·))
      | _ => none)
    else Opd.map1 (fcvt o.ty o.from_ o.rnd o.ns) x)

/-- 06 R164, 04 R106. -/
def execFtoi (o : CvtO) (s : State) : Out :=
  .next (s.result o.g o.d (rwOf (Fmt.is64 o.ty)) false fun s t =>
    let f := fpOfFmt o.from_
    Opd.map1 (fun v => placeFmt o.ty ((ftoi f o.ty o.rnd (fbits f v)) % ((2 ^ o.ty.bits : Nat) : Int)).toNat)
      (t.src s.draw o.a (Fmt.is64 o.from_)))

/-- 06 R164, 04 R107. -/
def execItof (o : CvtO) (s : State) : Out :=
  .next (s.result o.g o.d (rwOf (Fmt.is64 o.ty)) false fun s t =>
    Opd.map1 (fun v => BitVec.ofNat 64 (itof (fpOfFmt o.ty) o.rnd (intOfFmt o.from_ v)))
      (t.src s.draw o.a (Fmt.is64 o.from_)))

/-! ### Packed and dot products -/

/-- 04 R95: element j of n-bit elements. -/
def elem (n j : Nat) (v : Word) : Nat := v.toNat / 2 ^ (n * j) % 2 ^ n
def pack2 (f : Nat → Nat) : Word := BitVec.ofNat 64 (f 0 + f 1 * 2 ^ 16)

/-- 06 R165. -/
def execHadd2 (o : FRR) (s : State) : Out :=
  .next (s.result o.g o.d (.w32 false) false fun s t =>
    Opd.map2 (fun a b => pack2 fun j => (fpOf o.ty).add o.rnd (elem 16 j a) (elem 16 j b))
      (t.src s.draw o.a false) (t.src s.draw o.b false))
def execHmul2 (o : FRR) (s : State) : Out :=
  .next (s.result o.g o.d (.w32 false) false fun s t =>
    Opd.map2 (fun a b => pack2 fun j => (fpOf o.ty).mul o.rnd (elem 16 j a) (elem 16 j b))
      (t.src s.draw o.a false) (t.src s.draw o.b false))
def execHfma2 (o : FRRR) (s : State) : Out :=
  .next (s.result o.g o.d (.w32 false) false fun s t =>
    Opd.map3 (fun a b c => pack2 fun j => (fpOf o.ty).fma o.rnd (elem 16 j a) (elem 16 j b) (elem 16 j c))
      (t.src s.draw o.a false) (t.src s.draw o.b false) (t.src s.draw o.c false))

/-- 06 R166. -/
def dot4V (ta tb : Fmt) (r : Rnd) (x y z : Word) : Word :=
  if ta.isInt then
    let prod (j : Nat) : Int := intOfFmt ta (BitVec.ofNat 64 (elem 8 j x)) * intOfFmt tb (BitVec.ofNat 64 (elem 8 j y))
    wordOf false ((low32 z).toNat + prod 0 + prod 1 + prod 2 + prod 3)
  else
    let prod (j : Nat) : Num := ((fpOfFmt ta).dec (elem 8 j x)).mul ((fpOfFmt tb).dec (elem 8 j y))
    BitVec.ofNat 64 (oneStep fpF32 r (fpF32.dec (fbits fpF32 z)) [prod 0, prod 1, prod 2, prod 3])
def execDot4 (o : Dot4O) (s : State) : Out :=
  .next (s.result o.g o.d (.w32 o.ta.isInt) false fun s t =>
    Opd.map3 (dot4V o.ta o.tb o.rnd) (t.src s.draw o.a false) (t.src s.draw o.b false) (t.src s.draw o.c false))

/-- 06 R167. -/
def dot2hV (ty : FTy) (r : Rnd) (x y z : Word) : Word :=
  let prod (j : Nat) : Num := ((fpOf ty).dec (elem 16 j x)).mul ((fpOf ty).dec (elem 16 j y))
  BitVec.ofNat 64 (oneStep fpF32 r (fpF32.dec (fbits fpF32 z)) [prod 0, prod 1])
def execDot2h (o : FRRR) (s : State) : Out :=
  .next (s.result o.g o.d (.w32 false) false fun s t =>
    Opd.map3 (dot2hV o.ty o.rnd) (t.src s.draw o.a false) (t.src s.draw o.b false) (t.src s.draw o.c false))

end Sys2Proof.Machine
end

