-- ==== Sys2Proof/Machine/Pred.lean ====
section
/-!
DEFINITION. Predicate logic, votes and sets (07 R168-R172, R181).
-/

namespace Sys2Proof.Machine

open Sys2Proof

/-- No source that could be poisoned. -/
def noPoison : Opd := Opd.ofU 0

/-- 07 R171, 02 R46: a logical operation on two source predicates. -/
def State.predLogic (s : State) (o : PPP) (f : Bool → Bool → Bool) : State :=
  s.predResult o.g o.p.toNat fun _ t => (t.logic f (t.psrc o.a o.na) (t.psrc o.b o.nb), noPoison)

def execPand (o : PPP) (s : State) : Out := .next (s.predLogic o fun a b => a && b)
def execPor (o : PPP) (s : State) : Out := .next (s.predLogic o fun a b => a || b)
def execPxor (o : PPP) (s : State) : Out := .next (s.predLogic o fun a b => a != b)

/-- 07 R171: NOT of the source; of a cut, the cut with the opposite sense. -/
def execPnot (o : PP) (s : State) : Out :=
  .next (s.predResult o.g o.p.toNat fun _ t => (t.psrc o.a (!o.na), noPoison))

/-- 07 R171, 02 R41: PMOV keeps its source's form. -/
def execPmov (o : PP) (s : State) : Out :=
  .next (s.predResult o.g o.p.toNat fun _ t => (t.psrc o.a o.na, noPoison))

/-- 02 R64, 07 R172: the fibre of the turn arrives at the barrier of set k with `trues` of its indices true, and waits. -/
def State.arrive (s : State) (k trues : Nat) (why : Why) : State :=
  match s.turn, s.cur? with
  | .fibre c _, some t =>
    let x := s.core c
    let st := Tab.get x.sets ⟨t.ctx, 0, 0⟩ k
    let s1 := s.setCore c
      { x with sets := Tab.set x.sets k { st with arrived := st.arrived + t.count, trues := st.trues + trues } }
    (s1.waitCur .wait why).checkSet c k
  | _, _ => s

/-- The set a key register names, where the fibre is a member of it (02 R62). -/
def Thread.memberOf (t : Thread) (kv : Word) : Option Nat :=
  match setId t (kv.toNat % 2 ^ 16) with
  | some k => if t.sets.contains k then some k else none
  | none => none

/-- 07 R170, R172: a vote. An agent of one index writes its own value; a fibre that is no member of the set completes at once
with the totals zero; a member arrives and waits. -/
def State.vote (s : State) (a : BitVec 6) (na : Bool) (key : Src) (i : Instr) : State :=
  s.needU key false true fun kv s =>
    match s.cur?.map (fun t => if t.kind = .fibre then t.progressed else t) with
    | none => s
    | some t =>
      let s := s.setCur t
      let q := t.psrc a na
      let trues := (t.places.filter (t.predAt q ·)).length
      if t.kind ≠ .fibre then s.setCur (t.voteResult i 1 trues).advance
      else match t.memberOf kv with
      | some k => s.arrive k trues (.vote k i)
      | none => s.setCur (t.voteResult i 0 0).advance

def execPany (o : VoteO) (s : State) : Out := .next (s.vote o.a o.na o.key (.pany o))
def execPall (o : VoteO) (s : State) : Out := .next (s.vote o.a o.na o.key (.pall o))
def execPcnt (o : PcntO) (s : State) : Out := .next (s.vote o.a o.na o.key (.pcnt o))

/-- 02 R63, 07 R181, R170: SJOIN joins or creates the set; T on success; F where 256 sets exist, on a management core, and
where the key names a tile set of a fibre that has no tile. -/
def execSjoin (o : SjoinO) (s : State) : Out :=
  .next (s.needU o.key false true fun kv s =>
    match s.turn, s.cur? with
    | .fibre c e, some t =>
      let x := s.core c
      match setId t (kv.toNat % 2 ^ 16) with
      | none => s.setCur (t.setPred o.p.toNat .f).advance
      | some k =>
        if t.sets.contains k then s.setCur (t.setPred o.p.toNat .t).advance
        else if (Tab.find? x.sets k).isNone && Config.maxSets ≤ x.sets.length then
          s.setCur (t.setPred o.p.toNat .f).advance
        else
          let x1 := { x with sets := if (Tab.find? x.sets k).isNone then Tab.set x.sets k ⟨t.ctx, 0, 0⟩ else x.sets }
          (s.setCore c x1).setFibre c e ({ t with sets := insertAsc k t.sets }.setPred o.p.toNat .t).advance
    | _, some t => s.setCur (t.setPred o.p.toNat .f).advance
    | _, none => s)

/-- 02 R63, 07 R181: SLEAVE; the barrier of the set may complete as the member count falls. -/
def execSleave (o : KeyO) (s : State) : Out :=
  .next (s.needU o.key false true fun kv s =>
    match s.turn, s.cur? with
    | .fibre c _, some t =>
      (match t.memberOf kv with
        | some k => (s.setCur { t with sets := t.sets.filter (· ≠ k) }).checkSet c k
        | none => s).advance
    | _, _ => s.advance)

/-- 02 R64, R65, 07 R170, R181: SBAR; without membership it completes at once and orders nothing. -/
def execSbar (o : KeyO) (s : State) : Out :=
  .next (s.needU o.key false true fun kv s =>
    let s := s.progressed
    match s.turn, s.cur? with
    | .fibre _ _, some t =>
      match t.memberOf kv with
      | some k => s.arrive k 0 (.sbar k)
      | none => s.advance
    | _, _ => s.advance)

end Sys2Proof.Machine
end

