-- ==== Sys2Proof/Machine/FibreOps.lean ====
section
/-!
DEFINITION. Reading and reshaping the fibre, new fibres, reduction registers and SHFL (07 R173-R185).
-/

namespace Sys2Proof.Machine

open Sys2Proof

/-! ### Reading the fibre -/

/-- 07 R173: a uniform value of IDX. A fibre of FNEW has no tile; of a management core R173 does not say what .tile gives: 0xFFFFFFFF
as where there is no tile (log 47). -/
def State.idxValue (s : State) (t : Thread) (sel : Nat) : Word :=
  let g := s.grid t
  match sel with
  | 1 => BitVec.ofNat 64 g.x1
  | 2 => BitVec.ofNat 64 g.y1
  | 3 => BitVec.ofNat 64 g.z1
  | 4 => BitVec.ofNat 64 t.box0.x0
  | 5 => BitVec.ofNat 64 t.box0.y0
  | 6 => BitVec.ofNat 64 t.box0.z0
  | _ =>
    match s.curCore, t.inst with
    | some c, some i => match Tab.find? (s.core c).insts i with
      | some ti => BitVec.ofNat 64 ti.tile
      | none => 0xFFFFFFFF#64
    | _, _ => 0xFFFFFFFF#64

/-- 07 R173: the linear number, affine with strides 1, X and X·Y, a stride on an axis of grid extent 1 being zero. -/
def State.linOpd (s : State) (t : Thread) : Opd :=
  let g := s.grid t
  let z (e v : Nat) : Int := if e = 1 then 0 else v
  if t.kind = .fibre then
    Opd.affine t true 0 (z g.x1 1) (z g.y1 g.x1) (z g.z1 (g.x1 * g.y1)) (fun p => BitVec.ofNat 64 (s.lin t p)) false []
  else Opd.ofU 0

def execIdx (o : SelOut) (s : State) : Out :=
  .next (s.result o.g o.d (if o.sel = 0#3 then .w64 else .w32 false) false fun s t =>
    if o.sel = 0#3 then s.linOpd t else Opd.ofU (low32 (s.idxValue t o.sel.toNat)))

/-- 07 R174: the fibre shares lane blocks with another of its core. -/
def State.shares (s : State) (t : Thread) : Bool :=
  match s.curCore with
  | some c => (s.core c).threads.any fun u => u.uid ≠ t.uid && t.blocks.any (u.blocks.contains ·)
  | none => false

/-- 07 R174: the value of BOX. -/
def State.boxValue (s : State) (t : Thread) (sel : Nat) : Word :=
  match sel with
  | 0 => BitVec.ofNat 64 t.box.x0
  | 1 => BitVec.ofNat 64 t.box.x1
  | 2 => BitVec.ofNat 64 t.box.y0
  | 3 => BitVec.ofNat 64 t.box.y1
  | 4 => BitVec.ofNat 64 t.box.z0
  | 5 => BitVec.ofNat 64 t.box.z1
  | 6 => BitVec.ofNat 64 t.count
  | _ => BitVec.ofNat 64 ((if t.expanded then 1 else 0) + (if s.shares t then 2 else 0))

def execBox (o : SelOut) (s : State) : Out :=
  .next (s.result o.g o.d (if o.sel = 6#3 then .w64 else .w32 false) false fun s t =>
    Opd.ofU (if o.sel = 6#3 then s.boxValue t 6 else low32 (s.boxValue t o.sel.toNat)))

/-- 02 R40: the form tag of a register. -/
def Reg.tag : Reg → Nat
  | .u _ _ => 0
  | .a _ _ _ _ => 1
  | .e _ _ => 2
  | .p => 3

/-- 07 R175: the form of a predicate, a cut's axis in [5:4] and its sense in [6]. -/
def Pred.code : Pred → Nat
  | .t => 0
  | .f => 1
  | .c a _ ge => 2 + 16 * (match a with
      | .x => 0
      | .y => 1
      | .z => 2) + (if ge then 64 else 0)
  | .m _ => 3

def Pred.threshold : Pred → Nat
  | .c _ thr _ => thr
  | _ => 0

/-- 07 R175: a predicate made undefined at a knit has form F. -/
def Thread.formValue (t : Thread) (what : FormWhat) (n : Nat) : Nat :=
  match what with
  | .tag => (t.reg n).tag
  | .predForm => if t.undefP.contains n then 1 else (t.pred n).code
  | .threshold => if t.undefP.contains n then 0 else (t.pred n).threshold

def execForm (o : FormO) (s : State) : Out :=
  .next (s.result o.g o.d (.w32 false) false fun _ t => Opd.ofU (BitVec.ofNat 64 (t.formValue o.what o.n.toNat)))

/-! ### Reshaping -/

/-- 07 R176: register n becomes E with the values it has, poison marks with them. -/
def Thread.toLanes (t : Thread) (n : Nat) : Thread :=
  let r := t.read32 n
  t.write32 n ⟨.e, r.val, r.pAll, r.pL⟩

/-- 07 R176: EXPAND. An agent that is no fibre holds U registers only (07 R170) and stays as it is. -/
def execExpand (o : ExpandO) (s : State) : Out :=
  .next (s.guardedDst o.g fun _ s =>
    match s.cur? with
    | none => s
    | some t =>
      if t.kind ≠ .fibre then s.advance
      else s.orWait (s.expandThen fun s =>
        match s.cur? with
        | none => s
        | some t => match o.r with
          | some n => s.setCur (t.toLanes n.toNat).advance
          | none => s.advance))

/-- 07 R177: SPLIT on a predicate that is a cut or has disagreeing lanes; both parts go on with the next instruction, the part
of the lowest linear number first. -/
def State.splitBoth (s : State) (p : Pred) (onYes onNo : Thread → Thread) : State :=
  match s.turn, s.cur? with
  | .fibre c e, some t =>
    let (yes, no) := t.parts p
    let y := onYes yes
    let n := onNo no
    let (s1, e') := if t.trueLow p then s.splitTwo c e y n else s.splitTwo c e n y
    s.orWait (s1.followWith c [e'])
  | _, _ => s

def execSplit (o : SplitO) (s : State) : Out :=
  .next (match s.cur? with
    | none => s
    | some t =>
      match t.simplify (t.psrc o.p o.neg) with
      | .t | .f => s.advance
      | p => s.splitBoth p Thread.advance Thread.advance)

/-- 07 R178: write x := U v0 on the lanes of a mask. -/
def Thread.putPeeled (t : Thread) (o : PeelO) (mask : Option (List Nat)) (v0 : Word) : Thread :=
  t.writeReg o.a.toNat (rwOf o.ty.is64) mask (Opd.ofU v0)

/-- 07 R178: the division of PEEL in an expanded fibre. Lanes whose guard is false keep predicate and register. -/
def State.peel (s : State) (o : PeelO) (mask : Option (List Nat)) : State :=
  match s.cur? with
  | none => s
  | some t =>
    let x := t.src s.draw (.reg o.a) o.ty.is64
    let ls := mask.getD t.active
    let bad := x.bads ls
    if !bad.isEmpty then
      -- the lanes that read a poisoned value trap, and the others keep theirs (08 R224, R226)
      s.poisonTrap (some bad) true
    else
      match sortAsc ls with
      | [] => s.setCur ((t.putPeeled o mask 0).putPred o.p.toNat mask .t).advance
      | l0 :: _ =>
        let v0 := x.val l0
        let same := ls.filter fun l => x.val l = v0
        if same.length = ls.length then
          s.setCur ((t.putPeeled o mask v0).putPred o.p.toNat mask .t).advance
        else
          s.splitBoth (.m same)
            (fun y => ((y.putPeeled o none v0).setPred o.p.toNat .t).advance)
            (fun n => (n.putPred o.p.toNat (mask.map fun _ => listDiff ls same) .f).advance)

def execPeel (o : PeelO) (s : State) : Out :=
  .next (s.guardedDst o.g fun mask s =>
    match s.cur? with
    | none => s
    | some t =>
      let x := t.src s.draw (.reg o.a) o.ty.is64
      if x.isU then
        if x.pAll && mask ≠ some [] then s.poisonTrap mask true
        else s.setCur (t.putPred o.p.toNat mask .t).advance
      else s.orWait (s.expandThen fun s => s.peel o mask))

/-! ### New fibres (07 R179, R180; 02 R55, R77) -/

/-- 02 R55: registers without a defined value: U with a free base each. -/
def undefRegs (draw uid : Nat) (ns : List Nat) : Tab Reg :=
  ns.map fun n => (n, .u (Config.freeWord draw (1024 + 64 * uid + n)) false)

/-- 03 R77: the local frame of a launch, for g62:g63. -/
def LaunchRec.frame (r : LaunchRec) : Option Reg :=
  if r.localB = 0 then none
  else
    let st := (r.localB + 15) / 16 * 16
    let z (e v : Nat) : BitVec 32 := if e = 1 then 0 else BitVec.ofNat 32 v
    some (.a r.localbase (z r.gx st) (z r.gy (r.gx * st)) (z r.gz (r.gx * r.gy * st)))

/-- A fibre as it starts: every register undefined but the local frame, k0-k23 F, empty stack, no set, tokens idle. -/
def State.freshFibre (s : State) (ctx : Nat) (gen : BitVec 8) (launch : Nat) (inst : Option Nat) (box : Box) (window : Nat)
    (pc : Word) (hb : List Nat) : Thread :=
  let regs := undefRegs s.draw s.fresh (List.range window)
  let regs := match s.launch? launch with
    | some l => if window = 64 then match l.lr.frame with
        | some r => Tab.set (Tab.set regs 62 r) 63 .p
        | none => regs
      else regs
    | none => regs
  { Thread.blank .fibre with
    root := s.fresh, ctx := ctx, gen := gen, launch := launch, inst := inst, box0 := box, box := box, window := window, pc := pc
    regs := regs, view := View.empty.gain hb }

/-- 07 R180, 02 R54: room for one more fibre of a window beyond the reserve of entries. -/
def Core.roomFor (x : Core) (window : Nat) : Bool :=
  x.fibres.length + Config.keepEntries < Config.fibreEntries && x.usedForms + window ≤ Config.formEntries

/-- 07 R179: one creation, by the index at place p. -/
def State.fnewOne (s : State) (c : Nat) (o : FnewO) (t : Thread) (p : Nat) : State :=
  let rd (k : Nat) : Nat := ((t.read32 (o.b.toNat + k)).val p).toNat
  let b := (Box.mk (rd 0) (rd 1) (rd 2) (rd 3) (rd 4) (rd 5)).inter (s.grid t)
  if b.empty then s
  else
    let w := (o.win.toNat + 1) * 8
    let f := s.freshFibre t.ctx t.gen t.launch none b w ((t.src s.draw o.a true).val p) (s.viewAt t p).hb
    let arg := (t.read64 (o.b.toNat + 6)).val p
    (s.addFibre c { f with regs := Tab.set (Tab.set f.regs 0 (.u arg false)) 1 .p }).1

/-- The creations of the places `ps`, `k` of which are done; where no entry is free the fibre waits and resumes with the next
index. Answers whether all are done. -/
def State.fnewAll (s : State) (c e : Nat) (o : FnewO) (t : Thread) : List Nat → Nat → State × Bool
  | [], _ => (s.modFibre c e fun t => { t with why := .none }, true)
  | p :: ps, k =>
    if (s.core c).roomFor ((o.win.toNat + 1) * 8) then (s.fnewOne c o t p).fnewAll c e o t ps (k + 1)
    else (s.modFibre c e fun t => { t with st := .resourceWait, why := .fnew k, since := s.tick }, false)

/-- The places at which some operand of FNEW is poisoned. -/
def fnewBads (o : FnewO) (draw : Nat) (t : Thread) (ps : List Nat) : List Nat :=
  (List.range 8).foldl (fun acc k => listUnion acc ((t.read32 (o.b.toNat + k)).bads ps)) ((t.src draw o.a true).bads ps)

/-- 07 R179: FNEW, once for each index whose guard is true, in ascending linear number. A management core has no launch and so
no grid box to clip to: it creates nothing (log 23). -/
def execFnew (o : FnewO) (s : State) : Out :=
  .next (s.guarded o.g fun mask s =>
    match s.turn, s.cur? with
    | .fibre c e, some t =>
      let ps := sortAsc (mask.getD t.places)
      let k := match t.why with
        | .fnew k => k
        | _ => 0
      let bad := fnewBads o s.draw t ps
      let (s1, all) := s.fnewAll c e o t ((listDiff ps bad).drop k) k
      if !all then s1
      else if bad.isEmpty then s1.advance
      else s1.poisonTrap (some bad) true
    | _, _ => s.advance)

/-! ### Reduction registers (02 R69, 07 R182-R184) -/

def redIs64 (ty : RTy) : Bool := ty.n = 2

/-- 07 R182: one addition in the RED's type. -/
def redAdd (ty : RTy) (a x : Word) : Word :=
  match ty with
  | .f32 => BitVec.ofNat 64 (fpF32.add .rne (a.toNat % 2 ^ 32) (x.toNat % 2 ^ 32))
  | .f64 => BitVec.ofNat 64 (fpF64.add .rne a.toNat x.toNat)
  | _ => w32or (redIs64 ty) (a + x)

/-- 07 R182, 04 R95: the register's 64 bits for a value of the type. -/
def redPlace (ty : RTy) (v : Word) : Word :=
  match ty with
  | .i32 => (v.setWidth 32).signExtend 64
  | .n32 | .f32 => low32 v
  | _ => v

/-- The context whose reduction registers an agent uses; a management core has registers of its own (log 23). -/
def State.redCore (s : State) : Nat := s.curCore.getD s.curAgent
def State.redCtx (s : State) (t : Thread) : CoreCtx := (s.core s.redCore).ctx t.ctx
def State.setRedCtx (s : State) (t : Thread) (x : CoreCtx) : State :=
  s.setCore s.redCore ((s.core s.redCore).setCtx t.ctx x)

/-- 02 R69: the condition of RDSUM. -/
def seqMet (seq : BitVec 32) (expected : Word) : Bool := (seq - expected.setWidth 32).toNat < 2 ^ 31

/-- The places of RDSUM's guard and the state of its wait. -/
def Thread.rdsumMet (t : Thread) (draw : Nat) (x : CoreCtx) : Bool :=
  match decode t.word with
  | .ok (.rdsum o) =>
    let r := Tab.get x.sregs SReg.zero o.s.toNat
    let exp := t.src draw o.a false
    let ps := match t.guard o.g with
      | .m l => t.active.filter (l.contains ·)
      | _ => t.places
    ps.all fun p => seqMet r.seq (exp.val p)
  | _ => false

/-- The thread of a fibre, a swapped-out one's as its swap record has it (02 R54). -/
def Core.heldThread (x : Core) (e : Nat) (t : Thread) : Thread :=
  match Tab.find? x.swaps e with
  | some r => r.th
  | none => t

/-- 02 R69: fibres whose RDSUM the register now satisfies go on with it. -/
def State.wakeRdsum (s : State) (c ctx : Nat) : State :=
  (s.core c).fibres.foldl (fun s kv =>
    if kv.2.waitsOn = .rdsum && kv.2.ctx = ctx && ((s.core c).heldThread kv.1 kv.2).rdsumMet s.draw ((s.core c).ctx ctx)
    then (s.wake c kv.1 fun t => { t with st := .ready, why := .none }).resourcesFreed c
    else s) s

/-- 07 R182: RED by the places `ps`. -/
def State.redBy (s : State) (o : RedO) (t : Thread) (ps : List Nat) : State :=
  let x := s.redCtx t
  let r := Tab.get x.sregs SReg.zero o.s.toNat
  let v := t.src s.draw o.a (redIs64 o.ty)
  let start := if o.set then 0 else w32or (redIs64 o.ty) r.value
  let sum := ps.foldl (fun acc p => redAdd o.ty acc (v.val p)) start
  let hb := ps.foldl (fun acc p => listUnion acc (s.viewAt t p).hb) r.hb
  let s1 := s.setRedCtx t { x with sregs := Tab.set x.sregs o.s.toNat ⟨redPlace o.ty sum, r.seq + 1, hb⟩ }
  s1.wakeRdsum s.redCore t.ctx

/-- RED by the places of the current agent that its guard lets through. -/
def State.redAll (s : State) (o : RedO) (mask : Option (List Nat)) : State :=
  let s := s.progressed
  match s.cur? with
  | none => s
  | some t =>
    let ps := sortAsc (mask.getD t.places)
    let bad := (t.src s.draw o.a (redIs64 o.ty)).bads ps
    let good := listDiff ps bad
    if bad.isEmpty then (s.redBy o t ps).advance
    else
      let s1 := if good.isEmpty then s else s.redBy o t good
      s1.poisonTrap (if good.isEmpty && mask.isNone then none else some bad) true

/-- 07 R182: a RED that adds nothing, by the half of a split fibre whose guard is false, still counts: each half counts as one RED. -/
def State.redCount (s : State) (o : RedO) (t : Thread) : State :=
  let x := s.redCtx t
  let r := Tab.get x.sregs SReg.zero o.s.toNat
  (s.setRedCtx t { x with sregs := Tab.set x.sregs o.s.toNat { r with seq := r.seq + 1 } }).wakeRdsum s.redCore t.ctx

def execRed (o : RedO) (s : State) : Out :=
  .next (match s.cur? with
    | none => s
    | some t => match t.guardAt o.g with
      | .c a thr ge => s.splitAt (.c a thr ge) (·.redAll o none) (·.redCount o t)
      | _ => s.guarded o.g fun mask s => s.redAll o mask)

/-- 07 R183, R184: RDSUM waits until the sequence number has reached every index's expected one, then takes the value; an
acquire of every RED the register has taken. -/
def execRdsum (o : RdsumO) (s : State) : Out :=
  .next (s.guardedDst o.g fun mask s =>
    match s.cur? with
    | none => s
    | some t =>
      if mask = some [] then s.orWait (s.deliver o.d (rwOf (redIs64 o.ty)) mask false (Opd.ofU 0)) else
      let ps := mask.getD t.places
      let exp := t.src s.draw o.a false
      let bad := exp.bads ps
      let good := listDiff ps bad
      if !bad.isEmpty && good.isEmpty then s.poisonTrap (if mask.isNone then none else some bad) true
      else
        let r := Tab.get (s.redCtx t).sregs SReg.zero o.s.toNat
        if !(good.all fun p => seqMet r.seq (exp.val p)) then s.waitCur .wait .rdsum
        else
          let v := Opd.ofU (w32or (redIs64 o.ty) r.value)
          let w := rwOf (redIs64 o.ty)
          let s1 := s.setCur (t.progressed.gain r.hb)
          let put (s : State) : State :=
            s.deliver o.d w mask false (if bad.isEmpty then v else ⟨.e, v.val, false, bad⟩)
          s.orWait (if !bad.isEmpty || t.needsLanes o.d w v then s1.expandThen put else put s1))

/-! ### SHFL (07 R185) -/

/-- The source lane, 0 to 31, if there is one. -/
def shflLane (mode : Nat) (l : Nat) (y : Word) : Option Nat :=
  let n := (low32 y).toNat
  match mode with
  | 0 => some (n % 32)
  | 1 => if n ≤ l then some (l - n) else none
  | 2 => if l + n < 32 then some (l + n) else none
  | _ => some (l ^^^ (n % 32))

/-- The lane position that supplies a lane's value. -/
def Thread.shflFrom (t : Thread) (mode : Nat) (y : Nat → Word) (p : Nat) : Nat :=
  match shflLane mode (p % 32) (y p) with
  | some l => let q := p / 32 * 32 + l
    if t.active.contains q then q else p
  | none => p

def execShfl (o : ShflO) (s : State) : Out :=
  .next (s.guardedDst o.g fun mask s =>
    s.orWait (s.expandThen fun s =>
      match s.cur? with
      | none => s
      | some t =>
        let x := t.src s.draw o.a false
        let y : Opd := match o.y with
          | .src y => t.src s.draw y false
          | .imm n => Opd.ofU (n.setWidth 64)
        if t.kind ≠ .fibre then s.deliver o.d (.w32 false) none false (Opd.ofU x.u (x.pAll || y.pAll))
        else
          let src := t.shflFrom o.mode.toNat y.val
          let xb := x.bads t.active
          let yb := y.bads t.active
          s.deliver o.d (.w32 false) mask false
            (Opd.ofE (fun p => x.val (src p)) (t.active.filter fun p => xb.contains (src p) || yb.contains p))))

end Sys2Proof.Machine
end

