-- ==== Sys2Proof/Machine/Clause.lean ====
section
/-!
DEFINITION. Beginning a clause: header checks, knit points, header waits (05 R118-R120, 02 R55-R61); the watchdog; retry of
resource waits (02 R54, R71).
-/

namespace Sys2Proof.Machine

open Sys2Proof

/-! ### The header (05 R118-R120) -/

def hdrTokw (h : Word) : List Nat := (List.range 8).filter fun j => h.getLsbD (48 + j)
def hdrRdzw (h : Word) : Bool := h.getLsbD 47
def hdrKnit (h : Word) : Bool := h.getLsbD 46
def hdrSeq (h : Word) : Bool := h.getLsbD 45
/-- 05 R118: the registers and predicates that a knit leaves defined. -/
def hdrLiveReg (h : Word) (n : Nat) : Bool := h.getLsbD (n / 2)
def hdrLivePred (h : Word) (n : Nat) : Bool := n < 12 && h.getLsbD (32 + n)

/-- 05 R119, R120: what a header traps, if anything. -/
def headerCause (kind : Kind) (priv : Bool) (h : Word) : Option (BitVec 8) :=
  let cls := hdrClass h
  let own : Option (BitVec 8) := match kind with
    | .fibre => if cls = 0 then none else if cls = 2 then (if priv then none else some cPrivilege) else some cIllegalClass
    | .stream => if cls = 1 then none else some cIllegalClass
    | .mc => if cls = 0 || cls = 2 then none else some cIllegalClass
  match own with
  | some c => some c
  | none =>
    let live := h.extractLsb' 0 44
    if h.getLsbD 44 then some cReservedField
    else if !hdrKnit h && live ≠ 0#44 then some cReservedField
    else if cls = 1 && (!(hdrTokw h).isEmpty || hdrRdzw h || hdrKnit h) then some cReservedField
    else none

def State.isPriv (s : State) (ctx : Nat) : Bool :=
  match s.ctx? ctx with
  | some k => k.priv
  | none => false

/-! ### Header waits (05 R119, 08 R233, R234) -/

/-- 08 R233: a token is busy while a command issued on it has not completed. -/
def Core.tokenBusy (x : Core) (id j : Nat) : Bool := x.copyq.any fun q => q.tokId = id && q.tok = j
def Core.anyToken (x : Core) (id : Nat) : Bool := x.copyq.any fun q => q.tokId = id

/-- 08 R236: the tile's FORK is outstanding. -/
def Core.forkOut (x : Core) (inst : Option Nat) : Bool :=
  match inst with
  | some i => match Tab.find? x.insts i with
    | some ti => ti.fork.isSome
    | none => false
  | none => false

/-- 08 R225, 17 R357: the field-book records of a fibre, those that wait for a place among them: its faulted accesses that have not
completed. -/
def Core.pendingOf (x : Core) (uid : Nat) : List FbRec :=
  ((Tab.vals x.book).filter fun b => b.uid = uid) ++ (x.bookq.map FbPend.book).filter fun b => b.uid = uid

/-- A fibre's memory instructions have all completed: no access is outstanding and none waits for replay. -/
def Core.memDone (x : Core) (uid : Nat) : Bool := (x.pendingOf uid).isEmpty && !x.loads.any fun o => o.uid = uid

/-- 05 R118: every earlier instruction of the agent has written back: of a stream its tile instructions, of a fibre its memory
instructions and its TFILLs and TDRAINs. A management core's have when it stands at a header. -/
def Core.writtenBack (x : Core) (t : Thread) : Bool :=
  match t.kind with
  | .stream => (x.ctx t.ctx).ops.isEmpty
  | .fibre => x.memDone t.uid && !(x.ctx t.ctx).ops.any fun o => o.uid = t.uid
  | .mc => true

/-- The waits of a header, met at once. -/
def State.headerMet (s : State) (t : Thread) (h : Word) : Bool :=
  match s.curCore with
  | none => true
  | some c =>
    let x := s.core c
    ((hdrTokw h).all fun j => !x.tokenBusy t.tokId j) && (!hdrRdzw h || !x.forkOut t.inst)
      && (!hdrSeq h || x.writtenBack t)

/-- The first instruction of the clause comes next. -/
def Thread.begin (t : Thread) : Thread :=
  match t.clause with
  | some c => { t with clause := some { c with begun := true }, pc := c.addr + 8, st := .ready, why := .none }
  | none => { t with st := .ready, why := .none }

/-- The waits of the current agent's header: a token marked failed traps (08 R234); waits not met keep it in WAIT; else the
clause begins, with the acquire of the tokens waited on (03 R85). -/
def State.headerWaits (s : State) : State :=
  match s.cur? with
  | none => s
  | some t =>
    match t.clause with
    | none => s
    | some c =>
      let toks := hdrTokw c.hdr
      match toks.findSome? fun j => (Tab.find? t.failed j).map fun cause => (j, cause) with
      | some (j, cause) =>
        (s.setCur { t with failed := Tab.del t.failed j, clause := none, st := .ready, why := .none }).trapAll cause
      | none =>
        if s.headerMet t c.hdr then
          s.setCur (t.gain (toks.foldl (fun acc j => listUnion acc (Tab.get t.tokHb [] j)) [])).begin
        else s.waitCur .wait .header

/-- Fibres of a core whose header wait or fifth command a change of its tokens or FORKs may end. -/
def State.tokensChanged (s : State) (c : Nat) : State :=
  (s.core c).fibres.foldl (fun s kv =>
    if (kv.2.why = .header || kv.2.why = .fifth) && !s.agenda.contains (.tokenWaitEnd c kv.1) then s.post (.tokenWaitEnd c kv.1)
    else s) s

/-- Of a fibre whose memory instructions are no longer what they were: a header wait of it may have ended. -/
def State.memChanged (s : State) (c uid : Nat) : State :=
  match List.find? (fun (kv : Nat × Thread) => kv.2.uid = uid && kv.2.why = .header) (s.core c).fibres with
  | some kv => if s.agenda.contains (.tokenWaitEnd c kv.1) then s else s.post (.tokenWaitEnd c kv.1)
  | none => s

/-- 08 R233: a token is idle, or has room: a header wait ends when all its waits are met at once, and a fifth command is tried
again at its word. -/
def execTokenWaitEnd (core entry : Nat) (s : State) : Out :=
  .next (match s.fibre? core entry with
    | none => s
    | some t => match t.why with
      | .header => (s.asTurn (.fibre core entry) State.headerWaits).resourcesFreed core
      | .fifth => (s.setFibre core entry { t with st := .ready, why := .none }).resourcesFreed core
      | _ => s)

/-! ### Knit points (02 R55-R61) -/

/-- 02 R55: what the header does not name becomes undefined in value and form. -/
def Thread.knitUndef (t : Thread) (draw : Nat) (h : Word) : Thread :=
  let dead := (List.range t.window).filter fun n => !hdrLiveReg h n
  let deadP := (List.range 24).filter fun n => !hdrLivePred h n
  { t with regs := Tab.setAll t.regs (undefRegs draw t.uid dead)
           preds := Tab.setAll t.preds (deadP.map fun n => (n, if Config.freeBit (draw * 64 + n) then Pred.t else Pred.f))
           undefP := listUnion t.undefP deadP }

def liveRegs (t : Thread) (h : Word) : List Nat := (List.range t.window).filter (hdrLiveReg h ·)
def livePreds (h : Word) : List Nat := (List.range 12).filter (hdrLivePred h ·)

/-- 02 R58: a register with the strides of axes of extent 1 folded into its base. `joined`: the even half of a joined pair. -/
def Reg.fold (bx : Box) (joined : Bool) : Reg → Reg
  | .a b sx sy sz =>
    let (b', x, y, z) := foldStrides bx joined b sx.toInt sy.toInt sz.toInt
    if x = 0 && y = 0 && z = 0 then .u b' false else .a b' (bvInt32 x) (bvInt32 y) (bvInt32 z)
  | r => r
def Thread.joined (t : Thread) (n : Nat) : Bool := t.reg (n + 1) = .p && n % 2 = 0
def Reg.isE : Reg → Bool
  | .e _ _ => true
  | _ => false

/-- 02 R58, R59: what every merge needs. Fibres of different tiles, launches or windows are not merged (R61 lets the core
decline any merge). -/
def Core.mayMerge (x : Core) (a b : Thread) : Bool :=
  a.uid ≠ b.uid && a.ctx = b.ctx && a.inst = b.inst && a.launch = b.launch && a.window = b.window && a.box0 = b.box0
    && a.sets = b.sets && x.memDone a.uid && x.memDone b.uid && a.rs.length = b.rs.length && a.slot.length = b.slot.length
    && !(x.anyToken a.tokId && x.anyToken b.tokId)

/-- 02 R58: the union of two boxes adjacent along one axis and equal on the others. -/
def Box.union? (a b : Box) : Option Box :=
  [Axis.x, Axis.y, Axis.z].findSome? fun ax =>
    if ([Axis.x, Axis.y, Axis.z].filter (· ≠ ax)).all (fun q => a.lo q = b.lo q && a.hi q = b.hi q) then
      if a.hi ax = b.lo ax then some (a.setAxis ax (a.lo ax) (b.hi ax))
      else if b.hi ax = a.lo ax then some (a.setAxis ax (b.lo ax) (a.hi ax))
      else none
    else none

/-- What each index of two fibres has observed. -/
def State.joinViews (s : State) (a b : Thread) : View × Tab View :=
  if a.view = b.view && a.lviews.isEmpty && b.lviews.isEmpty then (a.view, [])
  else (View.empty, Tab.setAll [] ((a.places.map fun p => (s.lin a p, s.viewAt a p)) ++
    (b.places.map fun p => (s.lin b p, s.viewAt b p))))

/-- The tokens of the merged fibre: of whichever fibre had active ones, else of the first. What becomes of the other fibre's
failed-token marks is not stated; they go with its tokens (log 80). -/
def Core.mergeTokens (x : Core) (a b m : Thread) : Thread :=
  if x.anyToken b.tokId then { m with tokId := b.tokId, failed := b.failed, tokHb := b.tokHb }
  else { m with tokId := a.tokId, failed := a.failed, tokHb := a.tokHb }

/-- 02 R58: the merge of range fibres a and b, a holding the lower linear number. -/
def State.mergeRange (s : State) (x : Core) (h : Word) (a b : Thread) : Option Thread :=
  match a.box.union? b.box with
  | none => none
  | some bx =>
    let fa (n : Nat) : Reg := (a.reg n).fold bx (a.joined n)
    let fb (n : Nat) : Reg := (b.reg n).fold bx (b.joined n)
    let same := (liveRegs a h).all (fun n => fa n = fb n)
      && (livePreds h).all (fun n => a.pred n = b.pred n && (a.pred n = .t || a.pred n = .f))
      && a.rs = b.rs && a.slot = b.slot
    if !a.expanded && !b.expanded && same && x.mayMerge a b then
      let (v, lv) := s.joinViews a b
      let m := { a.setBox bx with
        regs := Tab.setAll a.regs ((liveRegs a h).map fun n => (n, fa n)), wdog := 0, view := v, lviews := lv }
      some (x.mergeTokens a b m)
    else none

/-- 02 R59: a register half of the merged fibre: the common U or A register, or lanes. -/
def mergeHalf (a b : Thread) (n : Nat) (keep : Bool) : Reg :=
  if keep && a.reg n = b.reg n && !(a.reg n).isE then a.reg n
  else
    let va := (a.read32 n)
    let vb := (b.read32 n)
    .e (Tab.setAll (lanesOf a.active fun p => (va.val p).setWidth 32) (b.active.map fun p => (p, (vb.val p).setWidth 32)))
      (va.bads a.active ++ vb.bads b.active)

def mergePair (a b : Thread) (n : Nat) : List (Nat × Reg) :=
  let jn := a.joined n || b.joined n
  let eq := a.reg n = b.reg n && a.reg (n + 1) = b.reg (n + 1)
  [(n, mergeHalf a b n (!jn || eq)), (n + 1, mergeHalf a b (n + 1) (!jn || eq))]

def mergeEntry (a b : Thread) (p q : REntry) : REntry :=
  if p = q then p
  else
    let at_ (e : REntry) (l : Nat) : Word := match e with
      | .addr w => w
      | .lanes t => Tab.get t 0 l
    .lanes (Tab.setAll (lanesOf a.active (at_ p)) (b.active.map fun l => (l, at_ q l)))

/-- 02 R59: the merge of fibres that share lane blocks, a holding the lowest active lane. -/
def State.mergeLanes (s : State) (x : Core) (h : Word) (a b : Thread) : Option Thread :=
  if a.expanded && b.expanded && a.blocks = b.blocks && a.exBox = b.exBox && (listInter a.active b.active).isEmpty
      && x.mayMerge a b then
    let pairs := (List.range (a.window / 2)).filter fun i => hdrLiveReg h (2 * i)
    let (v, lv) := s.joinViews a b
    let m := { a with
      active := sortAsc (a.active ++ b.active)
      regs := Tab.setAll a.regs (pairs.flatMap fun i => mergePair a b (2 * i))
      preds := Tab.setAll a.preds ((livePreds h).map fun n =>
        (n, if a.pred n = b.pred n && (a.pred n = .t || a.pred n = .f) then a.pred n
            else Pred.m ((a.active.filter (a.predAt (a.pred n) ·)) ++ (b.active.filter (b.predAt (b.pred n) ·)))))
      rs := (a.rs.zip b.rs).map fun pq => mergeEntry a b pq.1 pq.2
      slot := (a.slot.zip b.slot).map fun pq => mergeEntry a b pq.1 pq.2
      wdog := 0, view := v, lviews := lv }
    some (x.mergeTokens a b m)
  else none

/-- 02 R58, R59: merge fibre (c, e) with one that is held at the same knit clause: of several with which it could merge, the one of the
lowest entry (log 111). Answers the entry that remains. -/
def State.mergeAt (s : State) (c e : Nat) (h : Word) : Option (State × Nat) :=
  let x := s.core c
  match s.fibre? c e with
  | none => none
  | some t =>
    x.fibres.findSome? fun kv =>
      if kv.1 ≠ e && kv.2.why = .knitHold && kv.2.clause.map Clause.addr = t.clause.map Clause.addr then
        let first := s.lin t t.low < s.lin kv.2 kv.2.low
        let (a, ea, b, eb) := if first then (t, e, kv.2, kv.1) else (kv.2, kv.1, t, e)
        match (s.mergeRange x h a b).orElse fun _ => s.mergeLanes x h a b with
        | none => none
        | some m =>
          let x1 := { x with fibres := Tab.set (Tab.del x.fibres eb) ea { m with st := .ready, why := .none, clause := t.clause }
                             follow := x.follow.filter (· ≠ eb), inClause := some ea }
          if x1.fits (0, 0, 0, 0) then some ((s.setCore c x1).resourcesFreed c, ea) else none
      else none

/-- 02 R60: the detector's tag of a lane block's values, its active lanes being all of the block's lanes: first value and step. -/
def blockTag (vs : List (BitVec 32)) : Option (BitVec 32 × BitVec 32) :=
  match vs with
  | [] => none
  | v0 :: rest =>
    if rest.all (· = v0) then some (v0, 0)
    else
      let d := (vs.getD 1 0) - v0
      if (List.range vs.length).all fun i => vs.getD i 0 = v0 + d * BitVec.ofNat 32 i then some (v0, d) else none

/-- 02 R60: a live E register as U or A over the whole box, if it can be recognised. -/
def Thread.recognise (t : Thread) (lanes : Tab (BitVec 32)) : Option Reg :=
  let vs := t.active.map fun p => Tab.get lanes 0#32 p
  let n := (vs.length + 31) / 32
  let tags := (List.range n).map fun j => blockTag ((vs.drop (32 * j)).take 32)
  match tags with
  | some (v0, d) :: _ =>
    if tags.all (· = some (v0, 0#32)) then some (.u (v0.setWidth 64) false)
    else if t.exBox.ey = 1 && t.exBox.ez = 1
        && (List.range n).all (fun j => tags[j]? = some (some (v0 + d * BitVec.ofNat 32 (32 * j), d))) then
      some (.a ((v0 - d * BitVec.ofNat 32 t.exBox.x0).setWidth 64) d 0 0)
    else none
  | _ => none

/-- 02 R60: collapse; none where something live cannot be recognised. -/
def Thread.collapse (t : Thread) (h : Word) : Option Thread :=
  if !t.expanded || t.active.length ≠ t.exBox.count then none
  else
    let regs := (liveRegs t h).map fun n => match t.reg n with
      | .e l po => if po.isEmpty then (t.recognise l).map fun r => (n, r) else none
      | r => some (n, r)
    let preds := (livePreds h).map fun n => match t.simplify (t.pred n) with
      | .t => some (n, Pred.t)
      | .f => some (n, Pred.f)
      | _ => none
    let entry (r : REntry) : Option REntry := match r with
      | .addr a => some (.addr a)
      | .lanes l => match t.active with
        | [] => none
        | p :: _ => if t.active.all (fun q => Tab.get l 0 q = Tab.get l 0 p) then some (.addr (Tab.get l 0 p)) else none
    let rs := t.rs.map entry
    let slot := t.slot.map entry
    if regs.all Option.isSome && preds.all Option.isSome && rs.all Option.isSome && slot.all Option.isSome then
      some (({ t with expanded := false, active := [], blocks := []
                      regs := Tab.setAll t.regs (regs.filterMap id), preds := Tab.setAll t.preds (preds.filterMap id)
                      rs := rs.filterMap id, slot := slot.filterMap id } : Thread).setBox t.exBox)
    else none

/-- 02 R56: another fibre of the core could still arrive at the knit clause. -/
def State.partnerAhead (s : State) (c : Nat) (t : Thread) : Bool :=
  match s.ctx? t.ctx with
  | none => false
  | some k =>
    let inObj (o : Obj) (pc : Word) : Bool := o.codeBase.toNat ≤ pc.toNat && pc.toNat < o.codeBase.toNat + o.codeSize
    (s.core c).threads.any fun u => u.uid ≠ t.uid && u.ctx = t.ctx && u.sets = t.sets && u.pc.toNat < t.pc.toNat
      && k.objs.any fun o => inObj o t.pc && inObj o u.pc

/-- 02 R57: the hold of the context. -/
def State.knitHold (s : State) (t : Thread) : Nat :=
  match s.ctx? t.ctx with
  | some k => k.knit.toNat
  | none => 0

/-- 02 R55-R61: the knit of the current agent. Whether the core takes a collapse, a merge or a hold that is permitted is open
(R61; R56 says 'may be held'). -/
def State.knit (s : State) (h : Word) : State :=
  match s.cur? with
  | none => s
  | some t0 =>
    let t := (t0.knitUndef s.draw h).progressed
    match s.turn with
    | .fibre c e =>
      let t1 := match t.collapse h with
        | some u => if !s.shares t && (s.core c).memDone t.uid && Config.takeMerge (3 * s.draw) then u else t
        | none => t
      let s1 := (s.setFibre c e t1).resourcesFreed c
      match s1.mergeAt c e h with
      | some (s2, e') =>
        if Config.takeMerge (3 * s.draw + 1) then s2.asTurn (.fibre c e') State.headerWaits else s1.headerWaits
      | none =>
        if 0 < s.knitHold t1 && s1.partnerAhead c t1 && Config.takeMerge (3 * s.draw + 2) then
          (s1.waitCur .wait .knitHold).post (.knitHoldExpiry c e)
        else s1.headerWaits
    | _ => (s.setCur t).headerWaits

/-- 05 R119: an agent begins a clause. -/
def execClauseHeader (hdr : Word) (s : State) : Out :=
  .next (match s.cur? with
    | none => s
    | some t =>
      match headerCause t.kind (s.isPriv t.ctx) hdr with
      | some cause => (s.setCur { t with clause := none }).trapAll cause
      | none => if hdrKnit hdr then s.knit hdr else s.headerWaits)

/-- 02 R56: a hold ends when no fibre remains for which it could be worth waiting. -/
def State.endHolds (s : State) : State :=
  s.cores.foldl (fun s kc => kc.2.fibres.foldl (fun s kv =>
    if kv.2.why = .knitHold && !s.partnerAhead kc.1 kv.2 then
      (s.asTurn (.fibre kc.1 kv.1) State.headerWaits).resourcesFreed kc.1 else s) s) s

/-- 02 R56: a knit hold runs out. -/
def execKnitHoldExpiry (core entry : Nat) (s : State) : Out :=
  .next (match s.fibre? core entry with
    | some t => if t.why = .knitHold then (s.asTurn (.fibre core entry) State.headerWaits).resourcesFreed core else s
    | none => s)

/-! ### The watchdog -/

/-- 02 R71: a fibre, or with entry 4,096 the core's stream, whose count exceeds the budget traps at the clause boundary. -/
def execWatchdog (core entry : Nat) (s : State) : Out :=
  .next (if entry = Config.fibreEntries then
      match (s.core core).stream with
      | some x => if x.th.st = .ready && x.th.clause.isNone && s.overBudget x.th then
          s.asTurn (.stream core) fun s => s.takeTrap cWatchdog 0 (BitVec.ofNat 64 (x.th.wdog % 2 ^ 32)) none false else s
      | none => s
    else
      match s.fibre? core entry with
      | some t => if t.st = .ready && t.clause.isNone && s.overBudget t then
          s.asTurn (.fibre core entry) fun s => s.takeTrap cWatchdog 0 (BitVec.ofNat 64 (t.wdog % 2 ^ 32)) none false else s
      | none => s)

end Sys2Proof.Machine
end

