-- ==== Sys2Proof/Machine/Launch.lean ====
section
/-!
DEFINITION. Launch records: their layout and acceptance (16 R328-R332, 03 R77); jobs and pending-launch queues.
-/

namespace Sys2Proof.Machine

open Sys2Proof

/-- A little-endian field of a block of bytes. -/
def fieldAt (bs : List Byte) (off n : Nat) : Nat := leNat ((bs.drop off).take n)

/-- 16 R330. -/
def parseVariant (w : Nat) : Variant :=
  ⟨w / 2 ^ 32, w / 2 ^ 27 % 32, w / 2 ^ 24 % 8, w / 2 ^ 12 % 4096, w % 2 = 1⟩

/-- 16 R332: a record of major 2 is read as a 3.0 record whose bytes 88 to 127 are zero. -/
def recordBytes (bs : List Byte) : List Byte :=
  if fieldAt bs 1 1 = 2 then bs.take 88 ++ List.replicate 40 0#8 else bs

/-- 16 R328: the record that 128 bytes hold. -/
def parseRecord (raw : List Byte) : LaunchRec :=
  let bs := recordBytes raw
  let st := fieldAt bs 88 8
  { tset := fieldAt bs 2 2 % 2 = 1, nosteal := fieldAt bs 2 2 / 2 % 2 = 1
    job := BitVec.ofNat 32 (fieldAt bs 4 4), obj := fieldAt bs 8 4, entoff := fieldAt bs 12 4
    gx := fieldAt bs 16 4, gy := fieldAt bs 20 4, gz := fieldAt bs 24 4
    tx := fieldAt bs 28 4, ty := fieldAt bs 32 4, tz := fieldAt bs 36 4
    px := fieldAt bs 40 4, py := fieldAt bs 44 4, pz := fieldAt bs 48 4
    window := fieldAt bs 52 1, priority := fieldAt bs 53 1, emax := fieldAt bs 54 2, scratch := fieldAt bs 56 4
    localB := fieldAt bs 60 4, counter := BitVec.ofNat 64 (fieldAt bs 64 8), args := BitVec.ofNat 64 (fieldAt bs 72 8)
    localbase := BitVec.ofNat 64 (fieldAt bs 80 8), csbase := BitVec.ofNat 64 (st / 2 ^ 16 * 2 ^ 16)
    csslots := st / 64 % 1024, carry := st % 64
    variants := (List.range 4).map fun i => parseVariant (fieldAt bs (96 + 8 * i) 8) }

/-- 16 R330: a variant entry as the record may hold it. -/
def variantOk (w : Nat) : Bool :=
  if w % 2 = 0 then w = 0 else w / 2 % 2048 = 0 && w / 2 ^ 12 % 4096 ≤ 2048

/-- 03 R77: the strides of the local frame. -/
def LaunchRec.localStrides (r : LaunchRec) : List Nat :=
  let st := (r.localB + 15) / 16 * 16
  [if r.gx = 1 then 0 else st, if r.gy = 1 then 0 else r.gx * st, if r.gz = 1 then 0 else r.gx * r.gy * st]

/-- 16 R331: the record is accepted in a context. A minor of an accepted major is accepted whatever it is (19 R375). -/
def recordOk (k : Ctx) (raw : List Byte) : Bool :=
  let bs := recordBytes raw
  let r := parseRecord raw
  let major := fieldAt raw 1 1
  let ext (n : Nat) : Bool := 1 ≤ n && n ≤ 2 ^ 31
  let vs := r.variants.filter Variant.valid
  (major = 3 || major = 2) && fieldAt bs 2 2 < 4
    && ext r.gx && ext r.gy && ext r.gz && ext r.tx && ext r.ty && ext r.tz
    && r.px < r.tx && r.py < r.ty && r.pz < r.tz
    && 8 ≤ r.window && r.window ≤ 64 && r.window % 8 = 0 && r.priority ≤ 3
    && 32 ≤ r.emax && r.emax ≤ 4096 && r.emax % 32 = 0 && r.scratch ≤ 2097152
    && r.counter.toNat % 8 = 0 && r.args.toNat % 16 = 0 && r.localbase.toNat % 16 = 0
    && (r.localB ≠ 0 || r.localbase = 0)
    && fieldAt bs 88 8 < 2 ^ 55 && r.carry ≤ 32
    && (List.range 4).all (fun i => variantOk (fieldAt bs (96 + 8 * i) 8))
    && (match k.objs.find? fun o => o.num = r.obj with
      | some o => r.entoff % 8 = 0 && r.entoff < o.codeSize && vs.all fun v => v.entoff % 8 = 0 && v.entoff < o.codeSize
      | none => false)
    && (r.localB = 0 || (r.window = 64 && vs.all (fun v => v.win = 7) && r.localStrides.all (· ≤ 2 ^ 31 - 1)))

/-- 16 R344: the job of a record, started afresh where it is not under way; the token sets out. -/
def State.touchJob (s : State) (ctx job : Nat) : State :=
  match s.ctx? ctx with
  | none => s
  | some k =>
    let s1 := if (Tab.find? k.jobs job).isSome then s else s.setCtx ctx { k with jobs := Tab.set k.jobs job Job.fresh }
    if s1.agenda.contains (.traverseToken ctx job) then s1 else s1.post (.traverseToken ctx job)

/-- Change a job that exists. -/
def State.modJob (s : State) (ctx job : Nat) (f : Job → Job) : State :=
  match s.ctx? ctx with
  | none => s
  | some k => match Tab.find? k.jobs job with
    | some j => s.setCtx ctx { k with jobs := Tab.set k.jobs job (f j) }
    | none => s

/-- 16 R345: an event of a job raises its status to the code, if it is higher. -/
def State.jobStatus (s : State) (ctx job : Nat) (code : BitVec 8) : State :=
  s.modJob ctx job fun j => if j.status.toNat < code.toNat then { j with status := code } else j

/-- Let a die's dispatcher look at its queues. -/
def State.postAdmit (s : State) (die : Nat) : State :=
  if s.agenda.contains (.dispatchAdmit die) then s else s.post (.dispatchAdmit die)

/-- 08 R237: a record enters the core's pending-launch queue. -/
def State.enqueue (s : State) (c : Nat) (r : PendRec) : State :=
  let x := s.core c
  ((s.setCore c { x with pendq := x.pendq ++ [{ r with arrived := s.tick }] }).touchJob r.ctx r.lr.job.toNat).postAdmit (dieOf c)

end Sys2Proof.Machine
end

