-- ==== Sys2Proof/Machine/Hbm.lean ====
section
/-!
DEFINITION. HBM: error classes, remapping, the error log, held accesses (21 R386-R396).
-/

namespace Sys2Proof.Machine

open Sys2Proof

/-- 21 R396: counters saturate. -/
def satInc (n : Nat) : Nat := if n < 0xFFFFFFFF then n + 1 else n

/-- 21 R395: an entry of the error log; the module's time is not modelled, so TIME is a free value. -/
def State.logError (s : State) (cls pa k : Nat) (noSpare : Bool) : State :=
  let w0 := (if noSpare then 2 ^ 63 else 0) + cls * 2 ^ 52 + pa / 64 * 64
  let time := (Config.freeWord s.draw 500).toNat % 2 ^ 48
  let w1 := time * 2 ^ 16 + k / 160 * 256 + k % 160
  let h := s.hbm
  { s with hbm := { h with elog := Tab.set h.elog (h.head.toNat % 256) (BitVec.ofNat 64 w0, BitVec.ofNat 64 w1), head := h.head + 1 }
           host := { s.host with msix := s.host.msix ++ [1] } }

/-- 21 R390: a row is remapped to the next free spare: the inactive shadow copy takes the new table with the next generation. A row in a spare moves on to the next.
Addresses stay as they are, so no byte moves in the model's memory. -/
def State.remap (s : State) (k row pa : Nat) : State :=
  let x := s.pch k
  if x.spare = 0 then s.logError 5 pa k true
  else
    let m := Tab.set x.map row (512 - x.spare)
    let x1 := { x with map := m, spare := x.spare - 1, rm := satInc x.rm, events := Tab.set x.events row 0 }
    let x2 := if x.genB ≤ x.genA then { x1 with shadowB := m, genB := x.genA + 1 } else { x1 with shadowA := m, genA := x.genB + 1 }
    (s.setPch k x2).logError 5 pa k false

/-- 21 R387, R390: one symbol of a line is corrected, by the scrubber (`scrub`) or a demand read; the line is good again. -/
def State.corrected (s : State) (pa : Nat) (scrub : Bool) : State :=
  let k := pchOf pa
  let x := s.pch k
  let row := rowOf pa
  let n := Tab.get x.events 0 row + 1
  let x1 := { x with events := Tab.set x.events row n, lastpa := pa / 64 * 64 }
  let x2 := if scrub then { x1 with sc := satInc x.sc } else { x1 with ac := satInc x.ac }
  let s1 := { s.setPch k x2 with mem := { s.mem with flaws := Tab.del s.mem.flaws (lineOf pa) } }
  if 0 < s.hbm.rmthr.toNat && s.hbm.rmthr.toNat ≤ n then s1.remap k row pa else s1

/-- The space under whose name the log keeps what a line held before it was poisoned: no store of any agent lies there, and no load
reads there. What a waiting WAITC may have seen is found with it (18 R368). -/
abbrev lostSpace : Nat × Nat := (Config.numCores, 0)

/-- 21 R387, R388: a line is written back poisoned, its data symbols zero. -/
def State.poisonLine (s : State) (line : Nat) : State :=
  let was : WriteRec := { id := s.nextId, space := some lostSpace, addr := 64 * line, len := 64, old := s.readBytes none (64 * line) 64
                          oldBad := (List.range 64).map fun i => s.poisonAt none (64 * line + i)
                          path := .H, core := 1002, launch := none, rel := [], vis := .own, rmw := false, tick := s.tick
                          unit := none }
  { s with log := was :: s.log, nextId := s.nextId + 1
           mem := { s.mem with cells := Bytes.write s.mem.cells (64 * line) (List.replicate 64 0#8)
                               plines := insertAsc line s.mem.plines, flaws := Tab.del s.mem.flaws line
                               pbytes := s.mem.pbytes.filter fun a => lineOf a ≠ line } }

/-- 21 R387, R390: an uncorrectable line. -/
def State.uncorrected (s : State) (pa : Nat) : State :=
  let k := pchOf pa
  let x := s.pch k
  let s1 := (s.setPch k { x with au := satInc x.au, lastpa := pa / 64 * 64 }).poisonLine (lineOf pa)
  (s1.logError 3 pa k false).remap k (rowOf pa) pa

/-- 21 R387: reading one line meets what its symbols hold; a poisoned line is left as it is. -/
def State.readLine (s : State) (line : Nat) (scrub : Bool) : State :=
  if s.mem.plines.contains line then s
  else match Tab.find? s.mem.flaws line with
  | some 1 => s.corrected (64 * line) scrub
  | some _ => s.uncorrected (64 * line)
  | none => s

/-- 21 R387: demand reads of lines; a pseudo-channel that is out of service has none to correct (R392). -/
def State.readLines (s : State) (ls : List Nat) : State :=
  ls.foldl (fun s l => if s.deadAt (64 * l) 1 then s else s.readLine l false) s

/-- 21 R387: a demand read of HBM. -/
def State.demand (s : State) (pa n : Nat) : State :=
  if s.mem.flaws.isEmpty || !inHbm pa then s else s.readLines (linesOf pa n)

/-- A read of HBM that returned `g`: the lines whose bytes it took as memory has them now are read there; an older version of a byte is a
snapshot's, and memory is not read for it (log 124). -/
def State.demandGot (s : State) (pa n : Nat) (g : Got) : State :=
  if s.mem.flaws.isEmpty || !inHbm pa then s
  else
    let h := s.readHome none pa n
    let from_ (g : Got) (b : Nat) : Option (Nat × Nat) := g.from_.find? fun x => x.2 = b
    s.readLines ((linesOf pa n).filter fun l => (List.range n).any fun i => lineOf (pa + i) = l && from_ g (pa + i) = from_ h (pa + i))

/-- The same of the pieces of a range. -/
def State.demandPieces (s : State) (ps : List Piece) (g : Got) : State := ps.foldl (fun s p => s.demandGot p.pa p.n g) s

/-- What a store of bytes with their marks leaves: the bytes that lie in a pseudo-channel out of service are discarded (21 R392). -/
def State.kept (s : State) (a : Nat) (data : List Byte) (poison : List Bool) : List (Byte × Bool) :=
  (List.range data.length).map fun i =>
    if s.deadAt (a + i) 1 then (s.readByte none (a + i), s.poisonAt none (a + i)) else (data.getD i 0, poison.getD i false)

/-- A store by an agent as memory takes it: discarded where the pseudo-channel is out of service (21 R392). A store of part of a
line finds what the line's symbols hold, as a read of it does (21 R387). -/
def State.storeAt (s : State) (v : View) (sp : Space) (a : Nat) (data : List Byte) (poison : List Bool) (path : Path)
    (agent : Nat) (scope : Option Nat) : State × View :=
  let s1 := if sp.isSome || s.mem.flaws.isEmpty || !inHbm a then s
    else s.readLines (listDiff (linesOf a data.length) (wholeLines a data.length))
  if sp.isNone && s.deadAt a data.length then
    (if (linesOf a data.length).all fun l => s.deadAt (64 * l) 1 then (s1, v)
    else
      let k := s1.kept a data poison
      s1.storeBy v sp a (k.map Prod.fst) (k.map Prod.snd) path agent scope)
  else s1.storeBy v sp a data poison path agent scope

/-- The same of a store that is payload of a launch (16 R338). -/
def State.storeFor (s : State) (launch : Option Nat) (v : View) (sp : Space) (a : Nat) (data : List Byte) (poison : List Bool)
    (path : Path) (agent : Nat) (scope : Option Nat) : State × View :=
  let (s1, v1) := s.storeAt v sp a data poison path agent scope
  (s1.markStore s fun w => { w with launch := launch }, v1)

/-! ### The place of a store in modification order (03 R81, 22 R398) -/

/-- Nothing orders the store of record `w` before a store of n bytes at `a` made now by an agent of view `v`: it is in no order before
it (03 R81), the agent has read none of these bytes from it (R82), it is no completion word (R85), and it is of another
instruction (02 R39). -/
def WriteRec.passable (w : WriteRec) (v : View) (tick a n : Nat) : Bool :=
  !v.hb.contains w.id && !v.seen.any (fun x => x.1 = w.id && a ≤ x.2 && x.2 < a + n) && w.vis ≠ .atOnce && w.tick ≠ tick

/-- The stores that one of n bytes at `a` precedes in modification order, newest first: some of the newest which nothing orders
before it; which, is left open (22 R398; log 90). An atomic follows at once the store that it read. `after`: stores that it must follow. -/
def State.passes (s : State) (v : View) (after : WriteRec → Bool) (sp : Space) (a n : Nat) : List WriteRec :=
  let cov := s.log.filter (·.covers sp a n)
  let most := (cov.takeWhile fun w => w.passable v s.tick a n && !after w).length
  let fits (k : Nat) : Bool := (List.range n).all fun i => !((cov.take k).filter (·.hasByte (a + i))).getLast?.any WriteRec.rmw
  let ks := (List.range (most + 1)).filter fits
  cov.take (ks.getD (upTo (ks.length - 1) (Config.pick s.draw (2 ^ 64 + s.nextId) a)) 0)

/-- A record put beneath the k newest of those that share bytes with it. -/
def WriteRec.below (w : WriteRec) : Nat → List WriteRec → List WriteRec
  | 0, l => w :: l
  | _ + 1, [] => [w]
  | k + 1, r :: t => r :: w.below (if r.covers w.space w.addr w.len then k else k + 1) t

/-- A store beneath those of `newer` in modification order: what they wrote stays, and the oldest of them at each byte now replaces
what this store wrote. -/
def State.storeUnder (s : State) (newer : List WriteRec) (launch : Option Nat) (v : View) (sp : Space) (a : Nat) (data : List Byte)
    (poison : List Bool) (path : Path) (agent : Nat) (scope : Option Nat) : State × View :=
  let last (b : Nat) : Option WriteRec := (newer.filter (·.hasByte b)).getLast?
  let mine (i : Nat) : Byte × Bool := (data.getD i 0, poison.getD i false)
  let now := (List.range data.length).map fun i =>
    if (last (a + i)).isSome then (s.readByte sp (a + i), s.poisonAt sp (a + i)) else mine i
  let (s1, v1) := s.storeFor launch v sp a (now.map Prod.fst) (now.map Prod.snd) path agent scope
  let then_ (r : WriteRec) : WriteRec :=
    if !newer.any (·.id = r.id) then r
    else
      let bs := (List.range r.len).map fun j =>
        let b := r.addr + j
        if a ≤ b && b < a + data.length && (last b).any (·.id = r.id) then mine (b - a) else (r.old.getD j 0, r.oldBad.getD j false)
      { r with old := bs.map Prod.fst, oldBad := bs.map Prod.snd }
  (match s1.log with
    | w :: rest =>
      let was := (List.range w.len).map fun i => match last (a + i) with
        | some r => (r.old.getD (a + i - r.addr) 0, r.oldBad.getD (a + i - r.addr) false)
        | none => (w.old.getD i 0, w.oldBad.getD i false)
      { s1 with log := ({ w with old := was.map Prod.fst, oldBad := was.map Prod.snd }).below newer.length (rest.map then_) }
    | [] => s1, v1)

/-- 03 R89: the parts of a store that take their places each for itself, as offsets and lengths: the halves of 16 bytes, a smaller access
as a whole, and of a command's row every byte. -/
def moParts (atomic : Bool) (n : Nat) : List (Nat × Nat) :=
  if !atomic then (List.range n).map fun i => (i, 1) else if n = 16 then [(0, 8), (8, 8)] else [(0, n)]

/-- A store that takes a place in modification order, which is open where nothing orders it after others. `atomic`: an access of an
index (03 R89), no row of a command. In bytes that read as poison it is the newest. -/
def State.storeMo (s : State) (after : WriteRec → Bool) (atomic : Bool) (launch : Option Nat) (v : View) (sp : Space)
    (a : Nat) (data : List Byte) (poison : List Bool) (path : Path) (agent : Nat) (scope : Option Nat) : State × View :=
  let parts := moParts atomic data.length
  let unit := if atomic then some (a, data.length) else none
  let overs := parts.map fun p => (p, s.passes v after sp (a + p.1) p.2)
  if overs.all (fun x => x.2.isEmpty) || s.badRead sp a data.length then
    let (s1, v1) := s.storeFor launch v sp a data poison path agent scope
    (s1.markStore s fun w => { w with unit := unit }, v1)
  else
    -- each part is of one store: it publishes all of them
    let all := { v with hb := listUnion ((List.range parts.length).map (s.nextId + ·)) v.hb }
    overs.foldl (fun (acc : State × View) x =>
      let (s1, v1) := acc.1.storeUnder x.2 launch all sp (a + x.1.1) ((data.drop x.1.1).take x.1.2) ((poison.drop x.1.1).take x.1.2)
        path agent scope
      ({ s1 with log := s1.log.map fun w => if w.id = acc.1.nextId then { w with unit := unit } else w }, { acc.2 with hb := listUnion acc.2.hb v1.hb })) (s, v)

/-- The launch whose payload a thread's stores are; a management core's are none's. -/
def Thread.payer (t : Thread) : Option Nat := if t.kind = .mc then none else some t.launch

/-! ### Accesses that a pseudo-channel holds (21 R386, R392) -/

/-- The pseudo-channels of a range. -/
def pchsOf (pa n : Nat) : List Nat := if inHbm pa then sortAsc ((linesOf pa n).map fun l => pchOf (64 * l)) else []

def State.frozen (s : State) (k : Nat) : Bool := (s.pch k).st = 1 || (s.pch k).st = 2

/-- No pseudo-channel holds anything. -/
def State.flowing (s : State) : Bool := s.hbm.waiting.isEmpty && s.hbm.pchs.all fun kv => kv.2.st ≠ 1 && kv.2.st ≠ 2

/-- A pseudo-channel holds accesses to one of the ranges, each an address and a length. -/
def State.held (s : State) (ps : List (Nat × Nat)) : Bool := !s.flowing && ps.any fun p => (pchsOf p.1 p.2).any s.frozen
/-- 21 R387: demand reads of the ranges. -/
def State.demands (s : State) (ps : List (Nat × Nat)) : State :=
  if s.mem.flaws.isEmpty then s else ps.foldl (fun s p => s.demand p.1 p.2) s
/-- The entries that a walk for an address reads, as ranges. -/
def State.walkReads (s : State) (root va : Nat) : List (Nat × Nat) := (s.walkPath va 3 root 0).map fun x => (x.2.1, 8)
/-- The pseudo-channels that the walk for an address reads, where no TLB serves it. -/
def State.walkPchs (s : State) (sp : VSpace) (va : Nat) : List Nat :=
  if !(s.tlbHits sp va).isEmpty then []
  else match s.rootOf sp with
  | none => []
  | some root => (s.walkReads root va).flatMap fun r => pchsOf r.1 r.2

/-- The pseudo-channels that an access of n bytes at a virtual address reaches. -/
def State.vaPchs (s : State) (sp : VSpace) (va n : Nat) (p : Perm) : List Nat :=
  (offWindow sp va n).flatMap fun r => (pagesOf r.1 r.2).flatMap fun an => s.walkPchs sp (an.1 % 2 ^ 64) ++ (match s.xlat sp (an.1 % 2 ^ 64) p with
    | .ok pa _ _ => pchsOf pa an.2
    | .fault _ _ _ => [])

/-- The held access is that of the named agent, or of the event. -/
def Waiter.of (w : Waiter) (name uid : Nat) (again : Option Instr) : Bool := w.name = name && w.uid = uid && w.again = again
/-- A held access comes last. -/
def State.joinQueue (s : State) (w : Waiter) : State := { s with hbm := { s.hbm with waiting := s.hbm.waiting ++ [w] } }
/-- A held access comes last, or keeps its place with what it now reaches. -/
def State.queueUp (s : State) (w : Waiter) : State :=
  if s.hbm.waiting.any (·.of w.name w.uid w.again) then
    { s with hbm := { s.hbm with waiting := s.hbm.waiting.map fun x => if x.of w.name w.uid w.again then w else x } }
  else s.joinQueue w

/-- A held access is still wanted: its agent has not ended, or its event is still to come. -/
def State.wants (s : State) (w : Waiter) : Bool :=
  match w.again with
  | some i => s.agenda.contains i
  | none =>
  let c := w.name / 8192
  match turnOf c (w.name % 8192) with
  | .fibre c e => if Config.fibreEntries < e then (s.core c).copyq.any fun q => q.id = w.uid
      else (s.fibre? c e).any fun t => t.uid = w.uid
  | .stream c => (s.core c).stream.any fun x => x.th.uid = w.uid
  | _ => true

/-- A pseudo-channel holds the access of the named agent: one that it reaches is not in service, or an access to it that came
before still waits (R392). `again`: of an event that tries again, the event. -/
def State.mustWait (s : State) (name uid : Nat) (ks : List Nat) (again : Option Instr := none) : Bool :=
  let ahead := (s.hbm.waiting.takeWhile fun w => !w.of name uid again).filter s.wants
  !s.flowing && (ks.any s.frozen || ahead.any fun w => !(listInter w.pchs ks).isEmpty)

/-- Go on with `k` where no pseudo-channel holds the access of the named agent. Else the access is held, nothing happens, and the
agent tries again. -/
def State.served (s : State) (name uid : Nat) (ks : List Nat) (k : State → State) (again : Option Instr := none) : State :=
  if s.flowing then k s
  else if s.mustWait name uid ks again then
    if s.hbm.waiting.any (·.of name uid again) then s else s.joinQueue ⟨name, uid, ks, again⟩
  else k { s with hbm := { s.hbm with waiting := s.hbm.waiting.eraseP (·.of name uid again) } }

/-- The name of firmware and of the other units behind an event. -/
abbrev eventName : Nat := 602 * 8192

/-- Go on with `k` where no pseudo-channel holds the event's accesses to the pseudo-channels `ks`; else the event comes again. An event
keeps its place in the order of arrival until it has made all its accesses. -/
def State.holding (s : State) (again : Instr) (ks : List Nat) (k : State → State) : State :=
  if s.mustWait eventName 0 ks (some again) then (s.queueUp ⟨eventName, 0, ks, some again⟩).post again else k s

/-- The same of an event that reads the ranges. -/
def State.reading (s : State) (again : Instr) (ps : List (Nat × Nat)) (k : State → State) : State :=
  s.holding again (ps.flatMap fun p => pchsOf p.1 p.2) fun s => k (s.demands ps)

/-- Held accesses that are not wanted any more leave the queue. -/
def State.pruneQueue (s : State) : State :=
  if s.hbm.waiting.isEmpty then s else { s with hbm := { s.hbm with waiting := s.hbm.waiting.filter s.wants } }

/-- The same for the agent of the turn. -/
def State.curServed (s : State) (ks : State → List Nat) (k : State → State) : State :=
  if s.flowing then k s else s.served s.curFrom (match s.cur? with
    | some t => t.uid
    | none => 0) (ks s) k

/-- 21 R387: a walk's reads meet what the table's lines hold. Where a TLB serves the access there is no walk. -/
def State.demandWalk (s : State) (sp : VSpace) (va : Nat) : State :=
  if s.mem.flaws.isEmpty || !(s.tlbHits sp va).isEmpty then s
  else match s.rootOf sp with
  | none => s
  | some root => (s.walkPath va 3 root 0).foldl (fun s x => s.demand x.2.1 8) s

/-- The walks for the pages of a range: they meet what their lines hold, and the TLBs take what they find (17 R362). -/
def State.walkRange (s : State) (sp : VSpace) (va n : Nat) (p : Perm) : State :=
  ((offWindow sp va n).flatMap fun r => pagesOf r.1 r.2).foldl (fun s an =>
    let a := an.1 % 2 ^ 64
    let s1 := s.demandWalk sp a
    match s.xlat sp a p with
    | .ok _ level leaf => s1.fillTlb sp a level leaf
    | .fault _ _ _ => s1) s

end Sys2Proof.Machine
end

