-- ==== Sys2Proof/Machine/Streams.lean ====
section
/-!
DEFINITION. The matrix stream as an agent: completion of tile instructions, the join with fibres, its end (09 R243, R269, R274;
08 R236; 02 R68).
-/

namespace Sys2Proof.Machine

open Sys2Proof

/-- 17 R364, 09 R270, 12 R285: the stream stands at a point where a pre-emption may stop it: a clause boundary, a split boundary of
a running MMA, or the place before or after an MMA that no rewrite window holds. -/
def Stream.atPoint (x : Stream) : Bool :=
  match x.th.clause with
  | none => true
  | some c =>
    let isMma (i : Nat) : Bool := (c.words[i]?).any fun w => w.extractLsb' 54 10 = 0x3C9#10
    !c.begun || x.mma.isSome || (x.snap.isNone && !x.plan.any (fun p => x.th.pc ≤ p.1) && (isMma c.pos || (0 < c.pos && isMma (c.pos - 1))))

/-- 17 R364: a context switch finds the stream at such a point, or waiting in WAITA or PARKED, whose wait it does not see out (log 97). -/
def Stream.canStop (x : Stream) : Bool := x.th.st ≠ .ready || x.atPoint
/-- 19 R380, R383: under ESTOP the stream has stopped: at such a point, or PARKED. A WAITA inside a clause goes on to the next point. -/
def Stream.stopped (x : Stream) : Bool := x.th.st = .parked || x.atPoint

/-- 19 R380: ESTOP stops the cluster's copy engines and sequencers. -/
def State.enginesRun (s : State) (c : Nat) : Bool := !(s.cluster (clusterOf c)).pm.estop

/-- 17 R364, 19 R380: the core's stream stays where it stands: at such a point, its engine being stopped or its context being switched
out. What it waits for there does not move it. -/
def State.streamHolds (s : State) (c : Nat) (x : Stream) : Bool :=
  x.atPoint && !(s.enginesRun c && !(s.core c).stopped.contains x.th.ctx)

/-- 09 R274: a tile instruction completes: its sticky bits are set. -/
def CoreCtx.complete (k : CoreCtx) (o : TileOp) : CoreCtx :=
  { k with rcnf := k.rcnf || o.rcnf, aovf := k.aovf || o.aovf, nano := k.nano || o.nano }

/-- Every tile instruction admitted in the context completes, but for an MMA that is still being computed. An agent that waits for
them takes this as part of its own step (log 24). -/
def State.completeOps (s : State) (c ctx : Nat) : State :=
  let x := s.core c
  let k := x.ctx ctx
  s.setCore c (x.setCtx ctx { (k.ops.filter (!·.running)).foldl CoreCtx.complete k with ops := k.ops.filter (·.running) })

/-- 09 R247: the earliest admitted tile instruction of the context completes. -/
def State.completeOne (s : State) (c ctx : Nat) : State :=
  let x := s.core c
  let k := x.ctx ctx
  match k.ops.find? (!·.running) with
  | none => s
  | some o => s.setCore c (x.setCtx ctx { k.complete o with ops := k.ops.eraseP (!·.running) })

/-- Whether an admitted instruction still reads or writes a tile (09 R247). -/
def CoreCtx.tileBusy (k : CoreCtx) (tile : Nat) : Bool :=
  k.ops.any fun o => o.reads.contains tile || o.writes = some tile

/-- An MMA that is still being computed writes the tile. -/
def CoreCtx.forming (k : CoreCtx) (tile : Nat) : Bool := k.ops.any fun o => o.running && o.writes = some tile

def CoreCtx.tile (k : CoreCtx) (n : Nat) : Tile := Tab.get k.tiles Tile.zero n

/-- 09 R247, R253, R271: a new version of a tile; its B residency ends. -/
def CoreCtx.putTile (k : CoreCtx) (n : Nat) (bytes scale : Bytes) (poison : Bool) : CoreCtx :=
  { k with tiles := Tab.set k.tiles n ⟨bytes, scale, poison, (k.tile n).version + 1⟩
           resid := k.resid.filter fun r => r.1 ≠ n }

/-- 08 R236, 03 R85: every fibre of the tile that waits in RDZV continues, having acquired the stream's work. -/
def State.wakeRdzv (s : State) (c inst : Nat) (hb : List Nat) : State :=
  ((s.core c).fibres.foldl (fun s kv =>
    if kv.2.waitsOn = .rdzv && kv.2.inst = some inst then s.wake c kv.1 fun t => (t.gain hb).resumeNext else s) s).resourcesFreed c

/-- 02 R68: a FORK that waits for the tile's outstanding one is tried again. -/
def State.wakeFork (s : State) (c inst : Nat) : State :=
  (s.core c).fibres.foldl (fun s kv =>
    if kv.2.why = .fork && kv.2.inst = some inst then s.modFibre c kv.1 fun t => { t with st := .ready, why := .none } else s) s

/-- Change a started tile's record. -/
def State.modInst (s : State) (c i : Nat) (f : TileInst → TileInst) : State :=
  let x := s.core c
  match Tab.find? x.insts i with
  | some ti => s.setCore c { x with insts := Tab.set x.insts i (f ti) }
  | none => s

/-- 13 R305: what the later streams of a sequencer follow: the X-path stores that a stream of view `v` has made, and what it has read. -/
def State.xKeep (s : State) (c : Nat) (v : View) : View :=
  let own := (s.log.filter fun w => w.path = .X && w.core = streamAgent c && v.hb.contains w.id).map WriteRec.id
  { View.empty with hb := own, seen := v.seen }

/-- 08 R236, 09 R269: the core's stream ends: its instructions have completed, the MMA hold ends, its FORK is joined, and the
next FORKed stream may start. -/
def State.streamEnd (s : State) (c : Nat) : State :=
  match (s.core c).stream with
  | none => s
  | some x =>
    let ctx := x.th.ctx
    let hb := s.hbAll x.th
    let s1 := (s.completeOps c ctx).addStores x.th.launch hb
    let y := s1.core c
    let s2 := s1.setCore c ({ y with stream := none, xview := y.xview.join (s1.xKeep c x.th.view) }.setCtx ctx { y.ctx ctx with hold := none })
    let s3 := (s2.modInst c x.inst fun ti => { ti with fork := none, joinHb := hb }).wakeRdzv c x.inst hb
    (((s3.wakeFork c x.inst).tokensChanged c).checkInst c x.inst).post (.streamStart c)

end Sys2Proof.Machine
end

