-- ==== Sys2Proof/Machine/Control.lean ====
section
/-!
DEFINITION. Control transfers, traps by instruction, EXIT and YIELD (07 R186-R195).
-/

namespace Sys2Proof.Machine

open Sys2Proof

/-! ### Transfers under a predicate (07 R186) -/

/-- 07 R186: where the predicate is true the transfer `go` is performed; elsewhere the clause ends. A predicate that is neither
splits the fibre (02 R47, R49). -/
def State.transferOn (s : State) (q : Pred) (go : State → State) : State :=
  match q with
  | .t => go s
  | .f => s.endClause
  | q =>
    match s.turn, s.cur? with
    | .fibre c e, some t =>
      let (yes, no) := t.parts q
      let no' := no.leave no.afterClause
      if t.trueLow q then s.orWait (go (s.splitTwo c e yes no').1)
      else
        let (s1, e') := s.splitTwo c e no' yes
        s.orWait (s1.asTurn (.fibre c e') go)
    | _, _ => s

/-- A transfer under the word's guard. -/
def State.transfer (s : State) (g : Guard) (go : State → State) : State :=
  match s.cur? with
  | none => s
  | some t => s.transferOn (t.guardAt g) go

/-- The current agent leaves its clause for an address. -/
def State.jump (s : State) (a : Word) : State :=
  match s.cur? with
  | some t => s.setCur (t.leave a)
  | none => s

/-- 05 R131: the target of a format-B word: DISP words from its own clause header. -/
def Thread.target (t : Thread) (disp : BitVec 32) : Word :=
  (match t.clause with
    | some c => c.addr
    | none => t.pc) + 8 * disp.signExtend 64

/-- 07 R187. -/
def execBra (o : BrO) (s : State) : Out :=
  .next (s.transfer o.g fun s =>
    match s.cur? with
    | some t => s.jump (t.target o.disp)
    | none => s)

/-- 07 R187: the compare of SRC with 0, signed, combined with the guard. -/
def Thread.brcPred (t : Thread) (draw : Nat) (o : BrcO) : Pred :=
  t.simplify (t.logic (fun a b => a && b) (t.guard o.g) (t.compare o.w true o.rel (t.src draw o.a o.w) (Opd.ofU 0)))

/-- 07 R187. A poisoned source traps its indices before any effect (08 R226; log 25). -/
def execBrc (o : BrcO) (s : State) : Out :=
  .next (match s.cur? with
    | none => s
    | some t =>
      let ps := t.places.filter (t.predAt (t.guard o.g) ·)
      let bad := (t.src s.draw o.a o.w).bads ps
      if !bad.isEmpty then s.poisonTrap (some bad) false
      else
        let go (s : State) : State :=
          match s.cur? with
          | none => s
          | some t => s.transferOn (t.brcPred s.draw o) fun s =>
              match s.cur? with
              | some t => s.jump (t.target o.disp)
              | none => s
        match t.brcPred s.draw o with
        | .m _ => if t.expanded then go s else s.orWait (s.expandThen go)
        | _ => go s)

/-! ### The return stack (07 R190, R191) -/

/-- 07 R191: push an entry; none: STACK_LIMIT. Newest entries come first; `slotFree`: the launch has a free slot on the core. -/
def Thread.push (t : Thread) (a : REntry) (slotFree : Bool) : Option Thread :=
  if t.rs.length < 16 then some { t with rs := a :: t.rs }
  else if t.kind ≠ .fibre then none
  else if (t.slot.isEmpty && slotFree) || (!t.slot.isEmpty && t.slot.length < 128) then
    match t.rs.getLast? with
    | some old => some { t with rs := a :: t.rs.dropLast, slot := old :: t.slot }
    | none => none
  else none

/-- 07 R191: pop, with refill from the slot; none: RET_UNDERFLOW. -/
def Thread.pop (t : Thread) : Option (REntry × Thread) :=
  match t.rs, t.slot with
  | [], [] => none
  | [], e :: sl => some (e, { t with slot := sl })
  | e :: r, [] => some (e, { t with rs := r })
  | e :: r, x :: sl => some (e, { t with rs := r ++ [x], slot := sl })

/-- Whether a fibre's launch has a free control-stack slot on the core (14 R330: CSSLOTS). -/
def State.slotFree (s : State) (t : Thread) : Bool :=
  match s.curCore, s.launch? t.launch with
  | some c, some l => (s.core c).usedSlots t.launch < l.lr.csslots
  | _, _ => false

/-! ### The control-stack slot in memory (07 R190, 16 R330) -/

/-- A slot's entries, the oldest first: an address, or the name of a per-lane entry's rows, which has bit 0 set and is otherwise
not specified (log 65). -/
def stackBytes (uid : Nat) (slot : List REntry) : List Byte :=
  let n := slot.length
  (List.range n).flatMap fun i => leBytes 8 (match slot.getD (n - 1 - i) (.addr 0) with
    | .addr a => a
    | .lanes _ => Config.freeWord uid (900 + i) ||| 1#64).toNat

/-- The lowest slot of the launch's pool on the core that no fibre of it owns. -/
def Core.freeSlot (x : Core) (launch : Nat) : Nat :=
  let used := (x.threads.filter fun t => t.launch = launch).filterMap Thread.slotNo
  (lowestFree used (used.length + 1)).getD 0

/-- 16 R330: the virtual address of a slot in core c's pool. -/
def LaunchRec.slotAt (lr : LaunchRec) (c n : Nat) : Nat := lr.csbase.toNat + 1024 * lr.csslots * c + 1024 * n

/-- The spilled entries of a fibre lie in its slot, once no pseudo-channel holds their write (21 R392); a slot that empties is free. These accesses are ordered with no program access
(R330): no store of modification order is made. -/
def State.spillOne (s : State) (c e : Nat) (t : Thread) : State :=
  if t.slot.isEmpty then (if t.slotNo.isSome then s.setFibre c e { t with slotNo := none } else s)
  else match s.launch? t.launch with
  | none => s
  | some l =>
    let n := t.slotNo.getD ((s.core c).freeSlot t.launch)
    let s1 := if t.slotNo.isSome then s else s.setFibre c e { t with slotNo := some n }
    let bs := stackBytes t.uid t.slot
    match s1.xlatRange (.port t.ctx c .F) (l.lr.slotAt c n) bs.length .w with
    | .error _ => s1
    | .ok ps => ((ps.flatMap fun p => lineParts p.pa p.n).foldl (fun (acc : State × List Byte) p =>
        let b := acc.2.take p.2
        (if acc.1.deadAt p.1 p.2 || acc.1.heldAt p.1 p.2 || Bytes.read acc.1.mem.cells p.1 p.2 = b then acc.1
          else (acc.1.demand p.1 p.2).writeBytes none p.1 b (List.replicate p.2 false), acc.2.drop p.2)) (s1, bs)).1

/-- The slot entry that a RET of the thread takes back: its core, and its virtual address. -/
def State.slotTop (s : State) (t : Thread) : Option (Nat × Nat) :=
  match s.curCore, s.launch? t.launch, t.slotNo with
  | some c, some l, some n => if t.slot.isEmpty then none else some (c, l.lr.slotAt c n + 8 * (t.slot.length - 1))
  | _, _, _ => none

/-- 21 R388: the slot entry that a RET of the thread takes back is poisoned in memory. -/
def State.slotBad (s : State) (t : Thread) : Bool :=
  match s.slotTop t with
  | some (c, a) => (match s.xlat (.port t.ctx c .F) a .r with
    | .ok pa _ _ => s.badRead none pa 8
    | .fault _ _ _ => false)
  | none => false

/-- Go on with `k` where a RET finds its slot entry, once no pseudo-channel holds the read of it (21 R392); the read meets what the line's
symbols hold (R387). -/
def State.slotRead (s : State) (k : State → State) : State :=
  match s.cur?.bind fun t => (s.slotTop t).map fun ca => (VSpace.port t.ctx ca.1 .F, ca.2) with
  | none => k s
  | some (sp, a) => s.curServed (fun s => s.vaPchs sp a 8 .r) fun s =>
    let s1 := s.walkRange sp a 8 .r
    k (match s1.xlat sp a .r with
      | .ok pa _ _ => s1.demand pa 8
      | .fault _ _ _ => s1)

/-- Every slot of every core holds its fibre's spilled entries. -/
def State.spill (s : State) : State :=
  s.cores.foldl (fun s kx => kx.2.fibres.foldl (fun s kt =>
    if kt.2.slot.isEmpty && kt.2.slotNo.isNone then s else s.spillOne kx.1 kt.1 kt.2) s) s

/-- 07 R188, R191: push the address of the header after the clause and jump; STACK_LIMIT with nothing changed. -/
def State.callTo (s : State) (a : Word) : State :=
  match s.cur? with
  | none => s
  | some t =>
    match t.push (.addr t.afterClause) (s.slotFree t) with
    | some t1 => s.setCur (t1.leave a)
    | none => s.trapAll cStackLimit

/-- The target of an indirect transfer at the thread's lowest index, and the places whose target differs. -/
def Thread.targetOf (t : Thread) (v : Opd) : Word × List Nat :=
  let a := v.val t.low
  (a, if v.isU then [] else t.places.filter fun p => v.val p ≠ a)

/-- 07 R188: go on to the target, or trap the indices that differ. -/
def State.goTarget (s : State) (x : Src) (k : Word → State → State) : State :=
  match s.cur? with
  | none => s
  | some t =>
    let (a, differ) := t.targetOf (t.src s.draw x true)
    if differ.isEmpty then k a s else s.takeTrap cNonuniform a 0 (some differ) false

/-- 07 R188: the indices that execute an indirect transfer must agree on its target. A range fibre whose differing indices are no box
expands first, to name them (17 R351), cut where it exceeds E_MAX (02 R53). -/
def State.withTarget (s : State) (x : Src) (k : Word → State → State) : State :=
  match s.cur? with
  | none => s
  | some t =>
    let v := t.src s.draw x true
    let bad := v.bads t.places
    if !bad.isEmpty then s.poisonTrap (some bad) false
    else
      let differ := (t.targetOf v).2
      if !differ.isEmpty && !t.expanded && t.kind = .fibre && (t.boxOf differ).isNone then s.expandThen fun s => s.goTarget x k
      else s.goTarget x k

/-- 07 R188, 09 R275: the same for a value at the places of a mask: go on with it, and whether it is poisoned, or trap NONUNIFORM as an
indirect call does. -/
def State.agreeing (s : State) (x : Thread → Nat → Opd) (mask : Option (List Nat)) (k : Word → Bool → State → State) : State :=
  let look (s : State) (t : Thread) : Word × List Nat × Bool :=
    let v := x t s.draw
    let ps := mask.getD t.places
    let a := v.val ((listMin ps).getD 0)
    (a, if v.isU then [] else ps.filter fun p => v.val p ≠ a, !(v.bads ps).isEmpty)
  let go (s : State) : State :=
    match s.cur? with
    | none => s
    | some t =>
      let (a, differ, bad) := look s t
      if differ.isEmpty then k a bad s else s.takeTrap cNonuniform a 0 (some differ) false
  match s.cur? with
  | none => s
  | some t =>
    let differ := (look s t).2.1
    if !differ.isEmpty && !t.expanded && t.kind = .fibre && (t.boxOf differ).isNone then s.expandThen go else go s

/-- 07 R188. -/
def execCall (o : BrO) (s : State) : Out :=
  .next (s.transfer o.g fun s =>
    match s.cur? with
    | some t => s.callTo (t.target o.disp)
    | none => s)
def execCalli (o : JmpO) (s : State) : Out := .next (s.transfer o.g fun s => s.withTarget o.a fun a s => s.callTo a)
def execJmpi (o : JmpO) (s : State) : Out := .next (s.transfer o.g fun s => s.withTarget o.a fun a s => s.jump a)

/-- The lanes of a per-lane entry grouped by their address, in ascending order of their lowest lane (07 R192). -/
def laneGroups (lanes : List Nat) (l : Tab Word) : List (Word × List Nat) :=
  lanes.foldl (fun (acc : List (Word × List Nat)) p =>
    let a := Tab.get l 0 p
    if acc.any (fun g => g.1 = a) then acc.map fun g => if g.1 = a then (g.1, g.2 ++ [p]) else g
    else acc ++ [(a, [p])]) []

/-- 07 R192: RET with the current agent's stack. The groups of a per-lane entry go on lowest first: each waits for those before it
to issue. -/
def State.retNow (s : State) : State :=
  match s.cur? with
  | none => s
  | some t =>
    if s.slotBad t then s.poisonTrap none false
    else match t.pop with
    | none => s.trapAll cRetUnderflow
    | some (.addr a, t1) => s.setCur (t1.leave a)
    | some (.lanes l, t1) =>
      match laneGroups (sortAsc t1.active) l, s.turn with
      | (a, ps) :: rest, .fibre c e =>
        let s1 := s.setCur ((t1.onLanes ps).leave a)
        s.orWait (rest.foldl (fun (acc : State × List Nat) g =>
          let (s2, e2) := acc.1.addFibre c { (t1.onLanes g.2).leave g.1 with behind := listUnion acc.2 t1.behind }
          (s2, acc.2 ++ [e2])) (s1, [e])).1
      | _, _ => s.setCur (t1.leave t1.afterClause)

def State.ret (s : State) : State := s.slotRead State.retNow
def execRet (o : G) (s : State) : Out := .next (s.transfer o.g State.ret)

/-! ### EXIT, TRAP, BRK, YIELD -/

/-- 07 R193: the current agent ends; on a management core, which is no fibre and runs no stream, EXIT ends the clause (log 26). -/
def State.exitAll (s : State) : State :=
  match s.turn with
  | .fibre c e => s.endFibre c e
  | .stream c => s.streamEnd c
  | _ => s.endClause

def execExit (o : G) (s : State) : Out := .next (s.transfer o.g State.exitAll)

/-- 07 R194, 17 R351: the indices whose guard is true trap, with the code in the record; the resume point is the next word. -/
def State.trapCode (s : State) (g : Guard) (cause : BitVec 8) (code : BitVec 10) : State :=
  s.guarded g fun mask s => s.takeTrap cause 0 (code.setWidth 64) mask true

def execTrap (o : CodeO) (s : State) : Out := .next (s.trapCode o.g cTrapInstr o.code)
def execBrk (o : CodeO) (s : State) : Out := .next (s.trapCode o.g cBreakpoint o.code)

/-- 07 R195: YIELD ends its clause; the fibre waits until every other fibre of the core that is READY now has issued. A guard
splits as every control transfer's does (R186). -/
def execYield (o : G) (s : State) : Out :=
  .next (s.transfer o.g fun s =>
    match s.turn, s.cur? with
    | .fibre c e, some t =>
      let others := ((s.core c).fibres.filter fun kv => kv.1 ≠ e && kv.2.st = .ready).map Prod.fst
      s.setFibre c e { t.leave t.afterClause with behind := others }
    | _, _ => s.endClause)

end Sys2Proof.Machine
end

