-- ==== Sys2Proof/Machine/Window.lean ====
section
/-!
DEFINITION. Trap records as eight words, field-book records as sixteen, and the trap window of a management core (17 R350, R351,
R357; 07 R402).
-/

namespace Sys2Proof.Machine

open Sys2Proof

def IndexSet.form : IndexSet → Nat
  | .none => 0
  | .box _ => 1
  | .lanes _ _ _ => 2

/-- 17 R351: words 4 to 6. -/
def IndexSet.words : IndexSet → Nat × Nat × Nat
  | .none => (0, 0, 0)
  | .box b => (b.x0 + b.x1 * 2 ^ 32, b.y0 + b.y1 * 2 ^ 32, b.z0 + b.z1 * 2 ^ 32)
  | .lanes lo hi m => (lo + hi * 2 ^ 16, m.toNat, 0)

/-- 17 R351: the record as eight words. -/
def TrapRec.words (r : TrapRec) : List Nat :=
  let (i4, i5, i6) := r.index.words
  [ r.handle.toNat + r.cause.toNat * 2 ^ 32 + r.kind * 2 ^ 40 + r.index.form * 2 ^ 44 + (if r.peeled then 2 ^ 46 else 0)
      + r.seq.toNat * 2 ^ 48,
    r.pc.toNat, r.addr.toNat, r.aux.toNat, i4, i5, i6,
    r.tile % 2 ^ 32 + r.rule % 64 * 2 ^ 32 + r.disp.toNat * 2 ^ 62 ]

def TrapRec.bytes (r : TrapRec) : List Byte := r.words.flatMap fun w => leBytes 8 w

/-- 17 R357: the form of recorded operand data, and its three words. What the words of E data hold is not given (log 78). -/
def FVal.code : FVal → Nat
  | .u _ => 0
  | .a _ _ _ _ => 1
  | .e _ => 2
def FVal.words (uid k : Nat) : FVal → List Nat
  | .u b => [b.toNat, 0, 0]
  | .a b sx sy sz => [b.toNat, sx.toNat + 2 ^ 32 * sy.toNat, sz.toNat]
  | .e _ => (List.range 3).map fun i => (Config.freeWord uid (k + i)).toNat

/-- 17 R357: a field-book record as sixteen words, its pending indices named by `ix`. Words 14 and 15 are not given (log 78). -/
def FbRec.words (f : FbRec) (ix : IndexSet) : List Nat :=
  let (i4, i5, i6) := ix.words
  let d := f.data.headD (.u 0)
  [ f.level * 2 ^ 46 + f.port * 2 ^ 38 + f.ctx % 64 * 2 ^ 32 + f.entry % 4096 * 2 ^ 20 + ix.form * 2 ^ 18
      + (if f.replaying then 2 else 1) * 2 ^ 16 + f.size % 16 * 2 ^ 12 + f.acc % 16 * 2 ^ 8 + f.cause.toNat,
    f.pc.toNat, f.va.toNat, i4, i5, i6, f.instr.toNat, d.code + f.addr.code * 4 ]
  ++ d.words f.uid 600 ++ f.addr.words f.uid 610 ++ (List.range 2).map fun i => (Config.freeWord f.uid (620 + i)).toNat
def FbRec.bytes (f : FbRec) (ix : IndexSet) : List Byte := (f.words ix).flatMap fun w => leBytes 8 w

/-- Recorded operand data from its form and its words; E data stays as it was. -/
def FVal.ofWords (v : FVal) (code : Nat) (w : Nat → Word) : FVal :=
  match code, v with
  | _, .e l => .e l
  | 0, _ => .u (w 0)
  | 1, _ => .a (w 0) ((w 1).setWidth 32) ((w 1 >>> 32).setWidth 32) ((w 2).setWidth 32)
  | _, v => v

/-- 17 R357, R366: a record as the words of a save area have it. What pends and what has no word stay as they were (log 60). -/
def FbRec.ofWords (f : FbRec) (w : Nat → Word) : FbRec :=
  let h := (w 0).toNat
  let tags := (w 7).toNat
  { f with
    level := h / 2 ^ 46 % 4, port := h / 2 ^ 38 % 2 ^ 8, replaying := h / 2 ^ 16 % 4 = 2, size := h / 2 ^ 12 % 16, acc := h / 2 ^ 8 % 16
    cause := BitVec.ofNat 8 h, pc := w 1, va := w 2, instr := w 6
    data := match f.data with
      | d :: rest => d.ofWords (tags % 4) (fun i => w (8 + i)) :: rest
      | [] => []
    addr := f.addr.ofWords (tags / 4 % 4) fun i => w (11 + i) }

/-- 17 R350: bytes of the trap window of a cluster: the head record, or zero. -/
def State.windowBytes (s : State) (k off n : Nat) : List Byte :=
  match (s.cluster k).trapq with
  | [] => List.replicate n 0#8
  | r :: _ => (r.bytes.drop off).take n

/-- 07 R402: the bytes of a range that lie in a management core's trap window. -/
def State.windowPart (s : State) (sp : VSpace) (va n : Nat) : List Byte :=
  match sp with
  | .mc k => let a := max va windowBase
    s.windowBytes k (a - windowBase) (min (va + n) (windowBase + 64) - a)
  | .ctx _ _ => []

/-- The physical pieces of what of a range lies in memory, or the lowest failing page: the trap window needs no translation. -/
def State.xlatOff (s : State) (sp : VSpace) (va n : Nat) (p : Perm) : Except (Nat × Xlat) (List Piece) :=
  (offWindow sp va n).foldr (fun r acc => match s.xlatRange sp r.1 r.2 p, acc with
    | .error e, _ => .error e
    | .ok _, .error e => .error e
    | .ok l, .ok ls => .ok (l ++ ls)) (.ok [])

/-- Translate and read n bytes of a space as one relaxed load: the physical pieces and what was read, the trap window's bytes in their
place. -/
def State.readSpace (s : State) (v : View) (path : Path) (sp : VSpace) (va n : Nat) (p : Perm) :
    Except (Nat × Xlat) (List Piece × Got) :=
  (s.xlatOff sp va n p).map fun ps =>
    let g := s.readPieces v path ps 0
    let w := s.windowPart sp va n
    let k := windowBase - va
    (ps, if w.isEmpty then g else
      { g with bytes := g.bytes.take k ++ w ++ g.bytes.drop k, bads := g.bads.take k ++ List.replicate w.length false ++ g.bads.drop k })

/-- 17 R350: a store to byte 63 of the window sets DISP of the head record. -/
def State.setDisp (s : State) (k : Nat) (v : Byte) : State :=
  let c := s.cluster k
  match c.trapq with
  | [] => s
  | r :: rest => s.setCluster k { c with trapq := { r with disp := v.extractLsb' 6 2 } :: rest }

/-- A store to the window: only byte 63 has an effect. -/
def State.windowStore (s : State) (k off : Nat) (data : List Byte) : State :=
  if off ≤ 63 && 63 < off + data.length then s.setDisp k (data.getD (63 - off) 0) else s

end Sys2Proof.Machine
end

