-- ==== Sys2Proof/Machine/MemOps.lean ====
section
/-!
DEFINITION. One index's memory access: its request, its checks, its effect (08 R210-R226, 03 R78-R91).
-/

namespace Sys2Proof.Machine

open Sys2Proof

/-- What a memory instruction asks for each index. `acc` as 17 R357 codes it. -/
structure Req where
  acc  : Nat
  spad : Bool
  bank : Bool
  n    : Nat
  acq  : Option Nat
  rel  : Option Nat
  prom : Bool
  op   : Nat
  ty   : ITy
deriving DecidableEq, Repr

/-- 08 R213: scope 3 acts as device scope but for a promoting acquire's own rule. -/
def scopeNat (scp : BitVec 2) : Nat := if scp = 3#2 then 1 else scp.toNat

def mkReq (acc : Nat) (spad : Bool) (n : Nat) (ord scp : BitVec 2) : Req :=
  { acc := acc, spad := spad, bank := false, n := n
    acq := if ord.getLsbD 0 then some (scopeNat scp) else none
    rel := if ord.getLsbD 1 then some (scopeNat scp) else none
    prom := ord.getLsbD 0 && scp = 3#2 && !spad, op := 0, ty := .n32 }

def atomReq (spad : Bool) (o : AtomO) : Req :=
  { mkReq 2 spad (if o.w16 then 16 else if o.ty.is64 then 8 else 4) o.ord o.scp with op := o.op.toNat, ty := o.ty }

/-- The request of an instruction. -/
def reqOf : Instr → Option Req
  | .ld o => some (mkReq 0 false (sizeBytes o.size) o.ord o.scp)
  | .lds o => some (mkReq 0 true (sizeBytes o.size) o.ord o.scp)
  | .ldc o => some { mkReq 0 false (sizeBytes o.size) 0 0 with bank := true }
  | .st o => some (mkReq 1 false (sizeBytes o.size) o.ord o.scp)
  | .sts o => some (mkReq 1 true (sizeBytes o.size) o.ord o.scp)
  | .atom o => some (atomReq false o)
  | .atoms o => some (atomReq true o)
  | .waita o => some { mkReq 3 o.spad (if o.w64 then 8 else 4) 1 o.scp with op := o.rel.toNat }
  | .promote _ => some (mkReq 7 false 4 1 3)
  | _ => none

/-- What the checks of one index find. -/
inductive Chk where
  | ok (sp : Space) (a level : Nat) (leaf : Word)
  | window (off : Nat)
  | bank (off : Nat)
  | fault (f : IdxFault)

/-- What the access needs of its page. -/
def Req.perm (r : Req) : Perm := if r.acc = 1 then .w else if r.acc = 2 then .rw else .r

/-- 03 R78, R87: a promoting access lies in the lower 8 bytes of its granule. -/
def Req.aligned (r : Req) (a : Nat) : Bool := a % r.n = 0 && (!r.prom || a % 16 + r.n ≤ 8)

/-- The scratch allocation that the current agent's thread reaches, with its SCRATCH bytes (03 R75). -/
def State.scratchOf (s : State) (t : Thread) : Option (Nat × Nat × Nat) :=
  match s.curCore, t.inst with
  | some c, some i => match Tab.find? (s.core c).insts i with
    | some ti => match ti.scratch with
      | some al => (Tab.find? (s.core c).scratch al).map fun x => (c, al, x.size)
      | none => none
    | none => none
  | _, _ => none

/-- 03 R74, 07 R402: an address that no space has: bits [63:55], and on an untranslated management core bits [63:52]. -/
def State.addrBad (s : State) (a : Nat) : Bool :=
  2 ^ 55 ≤ a || (match s.turn with
    | .mc k => !(s.mc k).en && 2 ^ 52 ≤ a
    | _ => false)

/-- 16 R404: bytes of the constant bank of a launch are poisoned. -/
def Launch.bankBad (l : Launch) (off n : Nat) : Bool := (List.range n).any fun i => l.bankPois.contains (off + i)

/-- 08 R224: the checks of one index's access, in order. `bad`: an operand it needs is poisoned; FARLINK tells where its poison came from
(17 R351). -/
def State.chk (s : State) (t : Thread) (p : Nat) (r : Req) (va : Word) (bad : Bool) : Chk :=
  let fl (cause : BitVec 8) (code : Nat) : Chk := .fault ⟨p, cause, va, code, 0, none⟩
  let poisoned : Chk := .fault ⟨p, cMemPoison, va, 1, 0, if t.readsFar then some (0, false) else none⟩
  if r.bank then
    let off := va.toNat % 2 ^ 32
    match s.launch? t.launch with
    | none => fl cAccess 4
    | some l =>
      if 65536 < off + r.n then fl cAccess 4
      else if off % r.n ≠ 0 then fl cMisaligned 0
      else if bad then poisoned
      else if l.bankBad off r.n then fl cMemPoison 0
      else .bank off
  else if r.spad then
    let off := va.toNat % 2 ^ 32
    match s.scratchOf t with
    | none => fl cScratchRange 0
    | some (c, al, size) =>
      if 2 ^ 21 ≤ off || size < off + r.n then fl cScratchRange 0
      else if !r.aligned off then fl cMisaligned 0
      else if bad then poisoned
      else if (r.acc = 2 || r.acc = 3) && s.badRead (some (c, al)) off r.n then fl cMemPoison 0
      else .ok (some (c, al)) off 2 0
  else
    let a := va.toNat
    if s.addrBad a then fl cAccess 0
    else if !r.aligned a then fl cMisaligned 0
    else if t.kind = .mc && inWindow a r.n then (if bad then poisoned else .window (a - windowBase))
    else match s.xlat (s.curSpace t) a r.perm with
    | .fault cause code level => .fault ⟨p, cause, va, code, level, none⟩
    | .ok pa level leaf =>
      let port := if inFar pa then some (farPort pa) else none
      if bad then poisoned
      else match port with
      | some q =>
        -- a load's value is poison, and a fibre's store is on its way until it is acknowledged (17 R363)
        if (r.acc = 2 || r.acc = 3 || (r.acc = 1 && t.kind ≠ .fibre)) && s.host.farDown.contains q then .fault ⟨p, cMemPoison, va, 0, 0, some (q, leafRpl leaf)⟩
        else if (r.acc = 2 || r.acc = 3) && s.badRead none pa r.n then fl cMemPoison 0
        else .ok none pa level leaf
      | none =>
        if (r.acc = 2 || r.acc = 3) && s.badRead none pa r.n then fl cMemPoison 0 else .ok none pa level leaf

/-! ### Effects -/

/-- 19 R369: accesses to host memory are at system scope. -/
def Req.onLeaf (r : Req) (leaf : Word) : Req :=
  if leafSys leaf then { r with acq := r.acq.map fun _ => 2, rel := r.rel.map fun _ => 2 } else r

/-- 03 R89: a load of place p: an access of 16 bytes is atomic in each 8-byte half only. -/
def State.readLoad (s : State) (v : View) (path : Path) (sp : Space) (a n who : Nat) (home : Bool) : Got :=
  if n = 16 then
    Got.join [s.readChoice v path home sp a 8 who (some (a, 16)), s.readChoice v path home sp (a + 8) 8 who (some (a, 16))]
  else s.readChoice v path home sp a n who (some (a, n))

/-- The path of the current agent's accesses (03, 09 R244). -/
def Thread.path (t : Thread) : Path := if t.kind = .stream then .X else .F

/-- One load on behalf of the places `ps`: what it returns and whether it is poisoned. It passes over nothing that one of them may
not, and each of them has then read what it read (08 R212). WAITA reads at the home (03 R91). -/
def State.load1 (s : State) (t : Thread) (ps : List Nat) (r : Req) (sp : Space) (a : Nat) (own : Option Nat) (leaf : Word) :
    State × Thread × List Byte × Bool :=
  let read (s : State) : Got := s.readLoad (s.viewOf t ps) t.path sp a r.n (ps.headD 0) (leafHome leaf)
  let s1 := if sp.isSome then s else if r.acc = 3 then s.demand a r.n else s.demandGot a r.n (read s)
  let g := if r.acc = 3 then s1.readHome sp a r.n else read s1
  (s1, s1.modViewOf t ps fun v => v.afterLoad g s1.curAgent (r.onLeaf leaf).acq own, g.bytes, g.bad)

/-- One store by place p. `late`: one that sets out anew or arrives late, which is the newest. -/
def State.store1 (s : State) (t : Thread) (p : Nat) (r : Req) (sp : Space) (a : Nat) (data : List Byte) (poison late : Bool)
    (leaf : Word) : State × Thread :=
  let bad := List.replicate data.length poison
  let (s1, v) := if late then s.storeFor t.payer (s.viewAt t p) sp a data bad t.path s.curAgent (r.onLeaf leaf).rel
    else s.storeMo (fun _ => false) true t.payer (s.viewAt t p) sp a data bad t.path s.curAgent (r.onLeaf leaf).rel
  (s1, s1.modViewAt t p fun _ => v)

/-- 08 R217: what an atomic stores; none: a cas that fails. -/
def atomNew (op : Nat) (ty : ITy) (n : Nat) (old y z : Nat) : Option Nat :=
  let w := 8 * n
  let sg (v : Nat) : Int := if ty.signed && 2 ^ (w - 1) ≤ v then (v : Int) - (2 ^ w : Nat) else v
  match op with
  | 0 => some ((old + y) % 2 ^ w)
  | 1 => some (if sg y < sg old then y else old)
  | 2 => some (if sg old < sg y then y else old)
  | 3 => some (old &&& y)
  | 4 => some (old ||| y)
  | 5 => some (old ^^^ y)
  | 6 => some y
  | _ => if old = y then some z else none

/-- One atomic by place p at the home (03 R90): the old value. -/
def State.atom1 (s : State) (t : Thread) (p : Nat) (r : Req) (sp : Space) (a : Nat) (y z : Nat) (own : Option Nat)
    (leaf : Word) : State × Thread × List Byte :=
  let s1 := if sp.isNone then s.demand a r.n else s
  let v := s1.viewAt t p
  let g := s1.readHome sp a r.n
  let v1 := v.afterLoad g s1.curAgent (r.onLeaf leaf).acq own
  match atomNew r.op r.ty r.n (leNat g.bytes) y z with
  | some new =>
    let (s2, v2) := s1.storeFor t.payer v1 sp a (leBytes r.n new) (List.replicate r.n false) t.path s1.curAgent (r.onLeaf leaf).rel
    (s2.markStore s1 fun w => { w with rmw := true }, s2.modViewAt t p fun _ => v2, g.bytes)
  | none => (s1, s1.modViewAt t p fun _ => v1, g.bytes)

/-- 03 R91: the relation of WAITA. -/
def waitMet (rel n : Nat) (word v : Nat) : Bool :=
  let w := 8 * n
  match rel with
  | 0 => word = v % 2 ^ w
  | 1 => word ≠ v % 2 ^ w
  | _ => (word + 2 ^ w - v % 2 ^ w) % 2 ^ w < 2 ^ (w - 1)

/-- 03 R87, R88: the owner core that an owner word names. -/
def ownerOf (w : Nat) : Option Nat := if 2 ^ 63 ≤ w && w % 256 < Config.numCores then some (w % 256) else none

/-- 03 R87: the read of the owner word of an address on behalf of the places `ps`, a device-scope acquire. A poisoned owner word is taken as not valid, which
03 R87 does not say (log 79). -/
def State.readOwner (s : State) (t : Thread) (ps : List Nat) (pa : Nat) (leaf : Word) : State × Thread × Option Nat :=
  let a := pa / 16 * 16 + 8
  let read (s : State) : Got := s.readLoad (s.viewOf t ps) t.path none a 8 (ps.headD 0) (leafHome leaf)
  let s1 := s.demandGot a 8 (read s)
  let g := read s1
  (s1, s1.modViewOf t ps fun v => v.afterLoad g s1.curAgent (some 1) none, if g.bad then none else ownerOf (leNat g.bytes))

/-! ### Many indices -/

/-- What the indices of one instruction have done. `vals`: the words loaded, low and high; `outs`: the places whose access is on its
way, with the physical address, and their virtual addresses and leaves. -/
structure MemRes where
  s      : State
  t      : Thread
  vals   : Tab (Word × Word)
  pois   : List Nat
  faults : List IdxFault
  outs   : List (Nat × Nat)
  outVas : Tab Word
  leaves : Tab Word
  unmet  : List Nat

def MemRes.start (s : State) (t : Thread) : MemRes := ⟨s, t, [], [], [], [], [], [], []⟩

/-- The operands of one index: its address, whether an operand it needs is poisoned, and its data with its poison. -/
structure IdxOps where
  va    : Word
  bad   : Bool
  y     : Nat
  z     : Nat
  dbad  : Bool

def bytesVal (bs : List Byte) : Word × Word := (BitVec.ofNat 64 (leNat (bs.take 8)), BitVec.ofNat 64 (leNat (bs.drop 8)))

/-- 21 R387: what a checked access has met that faults: the entries of its walk where that failed, and the lines of an atomic or WAITA
that found poison in them. -/
def State.demandFault (s : State) (sp : VSpace) (r : Req) (va : Nat) (f : IdxFault) (bad : Bool) : State :=
  if s.mem.flaws.isEmpty || r.bank || r.spad || f.cause = cMisaligned || s.addrBad va then s
  else
    let s1 := s.demandWalk sp va
    if f.cause ≠ cMemPoison || bad || f.far.isSome then s1
    else match s1.xlat sp va r.perm with
    | .ok pa _ _ => s1.demand pa r.n
    | .fault _ _ _ => s1

/-- The values of the places `ps`, poisoned or not. -/
def MemRes.put (m : MemRes) (ps : List Nat) (v : Word × Word) (bad : Bool) : MemRes :=
  { m with vals := Tab.setAll m.vals (ps.map fun p => (p, v)), pois := if bad then m.pois ++ ps else m.pois }

/-- The access of the places `ps` sets out and its end comes later (17 R363; 08 R226). -/
def MemRes.out (m : MemRes) (ps : List Nat) (a : Nat) (va leaf : Word) : MemRes :=
  { m with outs := m.outs ++ ps.map fun p => (p, a), outVas := Tab.setAll m.outVas (ps.map fun p => (p, va))
           leaves := Tab.setAll m.leaves (ps.map fun p => (p, leaf)) }

/-- One access on behalf of the places `ps`, most often a single one, with the effects of those before it. `now`: a replay, whose
accesses end with it (17 R357). -/
def MemRes.one (m : MemRes) (r : Req) (now : Bool) (own : Tab Nat) (ps : List Nat) (o : IdxOps) : MemRes :=
  let cl := match m.s.turn with
    | .mc k => k
    | _ => 0
  let p := ps.headD 0
  let late := m.t.kind = .fibre && !now
  let failed (m : MemRes) (f : IdxFault) : MemRes := { m with faults := m.faults ++ ps.map fun p => { f with place := p } }
  -- where the access is checked, its lines have not been read: what they hold decides
  match m.s.chk m.t p r o.va o.bad with
  | .fault f => failed { m with s := m.s.demandFault (m.s.curSpace m.t) r o.va.toNat f o.bad } f
  | .bank off =>
    match m.s.launch? m.t.launch with
    | some l => m.put ps (bytesVal (Bytes.read l.bank off r.n)) false
    | none => m
  | .window off =>
    let bs := m.s.windowBytes cl off r.n
    match r.acc with
    | 1 => { m with s := m.s.windowStore cl off (leBytes r.n o.y) }
    | 2 =>
      let m1 := m.put ps (bytesVal bs) false
      match atomNew r.op r.ty r.n (leNat bs) o.y o.z with
      | some v => { m1 with s := m.s.windowStore cl off (leBytes r.n v) }
      | none => m1
    | 3 => if waitMet r.op r.n (leNat bs) o.y then m else { m with unmet := m.unmet ++ ps }
    | _ => m.put ps (bytesVal bs) false
  | .ok sp a level leaf =>
    let m := if sp.isNone then
        { m with s := (m.s.demandWalk (m.s.curSpace m.t) o.va.toNat).fillTlb (m.s.curSpace m.t) o.va.toNat level leaf } else m
    let ow := Tab.find? own p
    let lost := failed m ⟨p, cMemPoison, o.va, 0, 0, some (farPort a, leafRpl leaf)⟩
    match r.acc with
    | 1 =>
      -- a store to far memory is complete when the expander acknowledges it
      if sp.isNone && late && inFar a then m.out ps a o.va leaf
      else if sp.isNone && m.s.farLost a then lost
      else
        let (s1, t1) := m.s.store1 m.t p r sp a (leBytes r.n o.y) o.dbad now leaf
        { m with s := s1, t := t1 }
    | 2 =>
      let (s1, t1, bs) := m.s.atom1 m.t p r sp a o.y o.z ow leaf
      { m with s := s1, t := t1 }.put ps (bytesVal bs) false
    | 3 =>
      let (s1, t1, bs, _) := m.s.load1 m.t ps r sp a ow leaf
      if waitMet r.op r.n (leNat bs) o.y then { m with s := s1, t := t1 }
      else { m with s := s1, unmet := m.unmet ++ ps }
    | _ =>
      -- a load from far memory stays outstanding, and any other may: its data is on its way
      if sp.isNone && late && (inFar a || m.s.slow) then m.out ps a o.va leaf
      else if sp.isNone && m.s.farLost a then (if leafRpl leaf && m.t.kind = .fibre then lost else m.put ps (0, 0) true)
      else
        let (s1, t1, bs, bad) := m.s.load1 m.t ps r sp a ow leaf
        { m with s := s1, t := t1 }.put ps (bytesVal bs) bad

/-- One access by each of the groups of places `gs`, in order, each by its first place on behalf of all. -/
def State.access (s : State) (t : Thread) (r : Req) (now : Bool) (own : Tab Nat) (gs : List (List Nat)) (ops : Nat → IdxOps) :
    MemRes :=
  gs.foldl (fun m ps => m.one r now own ps (ops (ps.headD 0))) (MemRes.start s t)
/-- Each place for itself. -/
def singles (ps : List Nat) : List (List Nat) := ps.map fun p => [p]

/-- 21 R392: go on with `k` where no pseudo-channel holds an access of the places `ps`. -/
def State.memServed (s : State) (r : Req) (ps : List Nat) (ops : Nat → IdxOps) (k : State → State) : State :=
  if r.bank || r.spad then k s
  else s.curServed (fun s => match s.cur? with
    | some t => ps.flatMap fun p => s.vaPchs (s.curSpace t) (ops p).va.toNat r.n r.perm
    | none => []) k

/-- The value of recorded operand data at a place. -/
def Thread.fvalAt (t : Thread) (w64 : Bool) (v : FVal) (p : Nat) : Word :=
  match v with
  | .u b => b
  | .a b sx sy sz => t.affAt w64 b sx.toInt sy.toInt sz.toInt p
  | .e l => Tab.get l 0 p

/-- The values of pieces of 64 bits at a place as one number. -/
def Thread.fvalsAt (t : Thread) (vs : List FVal) (p : Nat) : Nat :=
  vs.foldr (fun v acc => (t.fvalAt true v p).toNat + 2 ^ 64 * acc) 0

/-! ### Results of loads and atomics -/

/-- 08 R214, 04 R95: a loaded value in the destination's width. -/
def extendV (size : BitVec 4) (v : Word) : Word :=
  if size = 0#4 then low32 ((v.setWidth 8).signExtend 64)
  else if size = 1#4 then low32 ((v.setWidth 16).signExtend 64)
  else if size = 2#4 ∨ size = 6#4 then low32 v
  else if size = 4#4 then (v.setWidth 8).setWidth 64
  else if size = 5#4 then (v.setWidth 16).setWidth 64
  else v

/-- Registers a result takes. -/
def sizeRW (size : BitVec 4) : RW := if sizeRegs size = 1 then .w32 (size = 0#4 || size = 1#4 || size = 2#4) else .w64

/-- 05 R133, 08 R214: write a result of one, two or four registers; the latch holds the low 64 bits. -/
def Thread.putGroup (t : Thread) (draw : Nat) (d : Dst) (w : RW) (four : Bool) (mask : Option (List Nat)) (lo hi : Opd) :
    Thread :=
  let t1 := t.putResult draw d w mask lo
  if four && !d.nwb then t1.writeReg (d.n.toNat + 2) .w64 mask hi else t1

/-- Destination of a load or atomic: its field, its result width, and whether it takes four registers. -/
def destOf : Instr → Option (Dst × RW × Bool)
  | .ld o | .lds o => some (o.d, sizeRW o.size, o.size = 8#4)
  | .ldc o => some (o.d, sizeRW o.size, o.size = 8#4)
  | .atom o | .atoms o => some (o.d, if o.w16 || o.ty.is64 then .w64 else .w32 o.ty.signed, o.w16)
  | _ => none

/-- 05 R130, 17 R357: the SIZE code of an access. -/
def sizeCode (i : Instr) (r : Req) : Nat :=
  match i with
  | .ld o | .lds o => o.size.toNat
  | .ldc o => o.size.toNat
  | .st o | .sts o => o.size.toNat
  | _ => if r.n = 16 then 8 else if r.n = 8 then 7 else 6

/-- The value of an access in the destination's width. -/
def extendOf : Instr → Word → Word
  | .ld o => extendV o.size
  | .lds o => extendV o.size
  | .ldc o => extendV o.size
  | _ => id

/-- Results of places that complete later (17 R357): the destination that the word names, as it stands now, and the latch if
the clause still runs. `uni`: one value for all of them (08 R212). -/
def Thread.lateResult (t : Thread) (draw : Nat) (i : Instr) (pc : Word) (vals : Tab (Word × Word)) (pois : List Nat)
    (uni far : Bool) : Thread :=
  match destOf i with
  | none => t
  | some (d, w, four) =>
    let ps := Tab.keys vals
    let v0 := match vals with
      | (_, v) :: _ => v
      | [] => (0, 0)
    let one := uni || t.kind ≠ .fibre
    let lo : Opd := if one then Opd.ofU (extendOf i v0.1) (!pois.isEmpty)
      else Opd.ofE (fun p => extendOf i (Tab.get vals (0, 0) p).1) pois
    let hi : Opd := if one then Opd.ofU v0.2 (!pois.isEmpty) else Opd.ofE (fun p => (Tab.get vals (0, 0) p).2) pois
    let mask := if t.expanded && !t.active.all (ps.contains ·) then some ps else none
    let t1 := if d.nwb then t else t.writeReg d.n.toNat w mask lo
    let t2 := if four && !d.nwb then t1.writeReg (d.n.toNat + 2) .w64 mask hi else t1
    let pos := (pc - (match t.clause with
      | some c => c.addr
      | none => 0)).toNat / 8 - 1
    let t3 := match t.clause with
      | some c => if c.addr.toNat < pc.toNat && pos < c.pos && c.pos ≤ pos + 8 then
          ({ t2 with clause := some { c with pos := pos } }.writeLatch draw w mask lo)
        else t2
      | none => t2
    { t3 with clause := t.clause
              farMarks := if far && !pois.isEmpty then listUnion t3.farMarks
                  ((if d.nwb then [] else (List.range (if four then 4 else if w.is64 then 2 else 1)).map (d.n.toNat + ·)) ++ [64 + pos % 8]) else t3.farMarks }

end Sys2Proof.Machine
end

