-- ==== Sys2Proof/Machine/MemInstr.lean ====
section
/-!
DEFINITION. Loads, stores, atomics, fences, promotion and waiting (08 R210-R226).
-/

namespace Sys2Proof.Machine

open Sys2Proof

/-! ### Promotion (03 R87) -/

/-- 03 R87: the reads of the owner words of a promoting acquire, one for each of the groups of places `gs`, and the owners by the
groups' first places. -/
def State.readOwners (s : State) (t : Thread) (r : Req) (gs : List (List Nat)) (ops : Nat → IdxOps) : State × Thread × Tab Nat :=
  gs.foldl (fun (acc : State × Thread × Tab Nat) ps =>
    let (s, t, own) := acc
    let p := ps.headD 0
    match s.chk t p r (ops p).va (ops p).bad with
    | .ok none pa _ leaf =>
      if s.farLost pa then acc
      else
        let (s1, t1, o) := s.readOwner t ps pa leaf
        (s1, t1, match o with
          | some c => Tab.set own p c
          | none => own)
    | _ => acc) (s, t, [])

/-- 03 R87: a promoting acquire first reads the owner words and asks the owners, then performs its own access. -/
def State.withOwners (s : State) (r : Req) (gs : List (List Nat)) (ops : Nat → IdxOps) (k : Tab Nat → State → State) : State :=
  match s.cur? with
  | none => s
  | some t =>
    s.memServed r (gs.map (·.headD 0)) ops fun s =>
    if !r.prom then k [] s
    else match t.why with
    | .promoted own _ => k own (s.setCur { t with why := .none })
    | _ =>
      let met : List Nat := match t.why with
        | .waita met => met
        | _ => []
      let (s1, t1, own) := s.readOwners t r gs ops
      let s2 := s1.setCur t1
      let cores := sortAsc (Tab.vals own)
      if cores.isEmpty then k [] s2
      else cores.foldl (fun s c => s.post (.promotionRequest c s.curFrom)) (s2.waitCur (if r.acc = 3 then .wait else .ready) (.promote cores.length own met))

/-- 03 R87: the owner core has written back its core-scope releases, which the model's memory always holds, and replies. -/
def execPromotionRequest (_owner from_ : Nat) (s : State) : Out :=
  .next (s.post (.promotionReply (from_ / 8192) (from_ % 8192)))

/-- Run an operation of a waiting agent; of a swapped-out fibre, on the thread in its swap record (02 R54). -/
def State.asWaiter (s : State) (core entry : Nat) (f : State → State) : State :=
  match Tab.find? (s.core core).swaps entry, turnOf core entry with
  | some r, .fibre c e =>
    let s1 := (s.setFibre c e r.th).asTurn (.fibre c e) f
    match s1.fibre? c e with
    | some t => s1.setSwapped c e r t
    | none => s1
  | _, turn => s.asTurn turn f

/-- The places of a WAITA that have been met, while its agent waits to look at its words, be it swapped out. One that stays where it
stands has to ask the owners anew when it goes on. -/
def State.waitaMet (s : State) (core entry : Nat) : Option (List Nat) :=
  match ({ s with turn := turnOf core entry }).cur? with
  | some t => match t.why with
    | .waita met => some met
    | .promoted _ met => if t.st = .ready then none else some met
    | _ => none
  | none => none

/-- The agent is a stream that stays where it stands. -/
def State.holdsAt (s : State) (core entry : Nat) : Bool :=
  entry = 4096 && (s.core core).stream.any (s.streamHolds core)

/-- 03 R87: a reply arrives; with the last one the acquire performs its own access: a WAITA where it waits, swapped out or not, any other
at its word. -/
def execPromotionReply (core entry : Nat) (s : State) : Out :=
  let s1 := s.asWaiter core entry fun s =>
    match s.cur? with
    | none => s
    | some t => match t.why with
      | .promote n own met =>
        s.setCur { t with why := if 1 < n then .promote (n - 1) own met
                                 else if s.holdsAt core entry then .waita met else .promoted own met }
      | _ => s
  .next (if (s.waitaMet core entry).isNone && (s1.waitaMet core entry).isSome then s1.post (.waitaSatisfied core entry)
    else s1.resourcesFreed core)

/-! ### Finishing -/

/-- 08 R225, 17 R357: the record of an instruction's faulting indices. -/
def fbOf (t : Thread) (e : Nat) (r : Req) (base : Opd) (off : Word) (data : List Opd) : FbRec :=
  let size := match decode t.word with
    | .ok i => sizeCode i r
    | .error _ => 0
  { t.fbTemplate e r.acc size t.pc t.word with
    addr := base.toFVal t.places, off := off, data := data.map fun d => d.toFVal t.places
    dbad := data.foldl (fun acc d => listUnion acc (d.bads t.places)) [] }

/-- The end of a memory instruction: `t1` holds the results of the indices that completed. What faulted is recorded once no access of
the instruction is outstanding (log 71). Faults of a management core and of a stream are taken at the word with no effect. -/
def State.memEnd (s : State) (m : MemRes) (t1 : Thread) (r : Req) (own : Tab Nat) (base : Opd) (off : Word) (data : List Opd) :
    State :=
  match s.turn, s.cur? with
  | .fibre c e, some t =>
    let s1 := m.s.setFibre c e t1.advance
    if m.outs.isEmpty then
      (if m.faults.isEmpty then s1 else s1.fibreFaults c e t.pc m.faults (fbOf t e r base off data))
    else
      let f := fbOf t e r base off data
      let o : OutAccess := { entry := e, uid := t.uid, instr := t.word, pc := t.pc, pend := m.outs, vas := m.outVas, leaves := m.leaves
                             own := own, faults := m.faults, base := f.addr, data := f.data, dbad := f.dbad, cl := t.clause
                             latches := t.latches }
      ((s1.setCore c { s1.core c with loads := (s1.core c).loads ++ [o] }).modFibre c e fun t =>
        { t with why := .loadData, since := s.tick }).post (.loadDataArrival c e)
  | _, _ =>
    match m.faults with
    | f :: _ => s.agentFault f
    | [] => m.s.setCur t1.advance

/-! ### Loads -/

/-- The address operand of a memory instruction: pairs for global memory, single registers for the scratchpad and the bank
(08 R210). -/
def addrOps (b : Opd) (w64 : Bool) (off : Word) (y z : Nat → Nat) (bad dbad : Nat → Bool) (p : Nat) : IdxOps :=
  ⟨if w64 then b.val p + off else low32 (b.val p + off), b.pAll || b.pL.contains p || bad p, y p, z p, dbad p⟩

/-- 08 R212, R214, R215: a load from a uniform address: once, by the lowest index on behalf of all, with a uniform result. -/
def State.loadU (s : State) (i : Instr) (r : Req) (mask : Option (List Nat)) (b : Opd) (w64 : Bool) (off : Word) : State :=
  match s.cur? with
  | none => s
  | some t =>
    let ps := sortAsc (mask.getD t.places)
    let p0 := ps.headD 0
    let ops := addrOps b w64 off (fun _ => 0) (fun _ => 0) (fun _ => false) (fun _ => false)
    s.withOwners r [ps] ops fun own s =>
      match s.cur? with
      | none => s
      | some t =>
        let m := s.access t r false own [ps] ops
        let t2 := match Tab.find? m.vals p0, destOf i with
          | some (lo, hi), some (d, w, four) =>
            let pz := m.pois.contains p0
            m.t.putGroup s.draw d w four mask (Opd.ofU (extendOf i lo) pz) (Opd.ofU hi pz)
          | _, _ => m.t
        s.memEnd m t2 r own b off []

/-- 08 R212, R214: a load of the indices each at its own address, in an expanded fibre. -/
def State.loadE (s : State) (i : Instr) (r : Req) (mask : Option (List Nat)) (base : Src) (w64 : Bool) (off : Word) : State :=
  match s.cur? with
  | none => s
  | some t =>
    let b := t.src s.draw base w64
    let ps := sortAsc (mask.getD t.active)
    let ops := addrOps b w64 off (fun _ => 0) (fun _ => 0) (fun _ => false) (fun _ => false)
    s.withOwners r (singles ps) ops fun own s =>
      match s.cur? with
      | none => s
      | some t =>
        let m := s.access t r false own (singles ps) ops
        let done := Tab.keys m.vals
        let t2 := match destOf i with
          | some (d, w, four) =>
            if done.isEmpty then m.t
            else m.t.putGroup s.draw d w four (if done.length = t.active.length then none else some done)
              (Opd.ofE (fun p => extendOf i (Tab.get m.vals (0, 0) p).1) m.pois)
              (Opd.ofE (fun p => (Tab.get m.vals (0, 0) p).2) m.pois)
          | none => m.t
        s.memEnd m t2 r own b off []

/-- 02 R43: under a guard M that is true in no lane nothing is read, and the destination becomes E. -/
def State.loadNone (s : State) (i : Instr) : State :=
  match s.cur?, destOf i with
  | some t, some (d, w, four) =>
    s.orWait (s.setCur (t.putGroup s.draw d w four (some []) (Opd.ofU 0) (Opd.ofU 0)).advance)
  | _, _ => s

/-- Act with the one result of an instruction's destination (02 R42). -/
def State.forDest (s : State) (i : Instr) (k : State → State) : State :=
  match destOf i with
  | some (d, w, _) => s.forU d w k
  | none => k s

/-- LD, LDS, LDC: a uniform address loads once; any other expands the fibre first. -/
def State.load (s : State) (i : Instr) (g : Guard) (base : Option Src) (w64 : Bool) (off : Word) : State :=
  match reqOf i with
  | none => s
  | some r =>
    s.guardedDst g fun mask s =>
      if mask = some [] then s.loadNone i else
      match s.cur?, base with
      | none, _ => s
      | some _, none =>
        if mask.isSome then s.orWait (s.loadU i r mask (Opd.ofU 0) w64 off)
        else s.forDest i fun s => s.loadU i r mask (Opd.ofU 0) w64 off
      | some t, some x =>
        let b := t.src s.draw x w64
        if b.isU then
          (if mask.isSome then s.orWait (s.loadU i r mask b w64 off) else s.forDest i fun s => s.loadU i r mask b w64 off)
        else s.orWait (s.expandThen fun s => s.loadE i r mask x w64 off)

def execLd (o : LdO) (s : State) : Out := .next (s.load (.ld o) o.g (some o.base) true (o.off.signExtend 64))
def execLds (o : LdO) (s : State) : Out := .next (s.load (.lds o) o.g (some o.base) false (o.off.signExtend 64))
def execLdc (o : LdcO) (s : State) : Out := .next (s.load (.ldc o) o.g o.base false (o.off.signExtend 64))

/-! ### Stores -/

/-- The data of a store as pieces: 32 or 64 bits, or two pairs. -/
def dataOpds (t : Thread) (draw : Nat) (x : Src) (size : BitVec 4) : List Opd :=
  match x with
  | .reg n => if size = 8#4 then [t.read64 n.toNat, t.read64 (n.toNat + 2)] else [t.src draw x (sizeRegs size = 2)]
  | x => [t.src draw x (sizeRegs size = 2)]

def piecesVal (ds : List Opd) (p : Nat) : Nat := ds.foldr (fun d acc => (d.val p).toNat + 2 ^ 64 * acc) 0
def piecesBad (ds : List Opd) (p : Nat) : Bool := ds.any fun d => d.pAll || d.pL.contains p

/-- ST, STS: in ascending linear number, without expanding (08 R212). -/
def State.storeInstr (s : State) (i : Instr) (o : StO) (w64 : Bool) : State :=
  match reqOf i with
  | none => s
  | some r =>
    s.guarded o.g fun mask s =>
      let s := s.progressed
      match s.cur? with
      | none => s
      | some t =>
        let b := t.src s.draw o.base w64
        let ds := dataOpds t s.draw o.data o.size
        let off := o.off.signExtend 64
        let ops := addrOps b w64 off (piecesVal ds) (fun _ => 0) (fun _ => false) (piecesBad ds)
        s.memServed r (sortAsc (mask.getD t.places)) ops fun s =>
          let m := s.access t r false [] (singles (sortAsc (mask.getD t.places))) ops
          s.memEnd m m.t r [] b off ds

def execSt (o : StO) (s : State) : Out := .next (s.storeInstr (.st o) o true)
def execSts (o : StO) (s : State) : Out := .next (s.storeInstr (.sts o) o false)

/-- 08 R216: PREF changes no value and never traps; a request that would fault is dropped. -/
def execPref (o : PrefO) (s : State) : Out := .next (s.guarded o.g fun _ s => s.advance)

/-! ### Atomics -/

/-- An atomic operand of 4, 8 or 16 bytes. -/
def atomOpds (t : Thread) (draw : Nat) (x : Src) (o : AtomO) : List Opd :=
  if o.w16 then (match x with
    | .reg n => [t.read64 n.toNat, t.read64 (n.toNat + 2)]
    | x => [t.src draw x true])
  else [t.src draw x o.ty.is64]

/-- 08 R217, R218: the atomics of the places `ps`; the result is E where the fibre holds more than one index. -/
def State.atomics (s : State) (i : Instr) (o : AtomO) (r : Req) (mask : Option (List Nat)) (w64 : Bool) : State :=
  match s.cur? with
  | none => s
  | some t =>
    let b := t.src s.draw o.a w64
    let y := atomOpds t s.draw o.b o
    let z := if o.op = 7#3 then atomOpds t s.draw o.c o else []
    let ps := sortAsc (mask.getD t.places)
    let ops := addrOps b w64 0 (piecesVal y) (piecesVal z) (fun p => piecesBad y p || piecesBad z p) (fun _ => false)
    s.withOwners r (singles ps) ops fun own s =>
      match s.cur? with
      | none => s
      | some t =>
        let m := s.access t r false own (singles ps) ops
        let done := Tab.keys m.vals
        let t2 := match destOf i with
          | some (d, w, four) =>
            if done.isEmpty then m.t
            else if t.count = 1 && mask.isNone then
              let v := Tab.get m.vals (0, 0) (done.headD 0)
              m.t.putGroup s.draw d w four none (Opd.ofU v.1) (Opd.ofU v.2)
            else m.t.putGroup s.draw d w four (if done.length = t.active.length then none else some done)
              (Opd.ofE (fun p => (Tab.get m.vals (0, 0) p).1) []) (Opd.ofE (fun p => (Tab.get m.vals (0, 0) p).2) [])
          | none => m.t
        s.memEnd m t2 r own b 0 (y ++ z)

def State.atomInstr (s : State) (i : Instr) (o : AtomO) (w64 : Bool) : State :=
  match reqOf i with
  | none => s
  | some r =>
    s.guardedDst o.g fun mask s =>
      if mask = some [] then s.loadNone i else
      let s := s.progressed
      match s.cur? with
      | none => s
      | some t =>
        if t.kind = .fibre && t.count ≠ 1 then s.orWait (s.expandThen fun s => s.atomics i o r mask w64)
        else if mask.isSome then s.orWait (s.atomics i o r mask w64)
        else s.forDest i fun s => s.atomics i o r mask w64

def execAtom (o : AtomO) (s : State) : Out := .next (s.atomInstr (.atom o) o true)
def execAtoms (o : AtomO) (s : State) : Out := .next (s.atomInstr (.atoms o) o false)

/-! ### Fences and promotion -/

/-- Change the view of every index whose guard is true. -/
def State.modViews (s : State) (mask : Option (List Nat)) (f : View → View) : State :=
  match s.cur? with
  | none => s
  | some t =>
    match mask with
    | none => s.setCur { t with view := f t.view, lviews := t.lviews.map fun kv => (kv.1, f kv.2) }
    | some ps => s.setCur (ps.foldl (fun t p => s.modViewAt t p f) t)

/-- 08 R219: a release fence and an acquire fence at device scope. -/
def execPhase (o : G) (s : State) : Out :=
  .next (s.guarded o.g fun mask s => (s.progressed.modViews mask fun v => v.fence s.curAgent true true 1).advance)

/-- 08 R220: in class 1 every scope acts as device. -/
def execFence (o : FenceO) (s : State) : Out :=
  .next (s.guarded o.g fun mask s =>
    let stream : Bool := match s.cur? with
      | some t => decide (t.kind = .stream)
      | none => false
    let scope := if stream = true then 1 else o.scp.toNat
    (s.progressed.modViews mask fun v => v.fence s.curAgent (o.ord.getLsbD 0) (o.ord.getLsbD 1) scope).advance)

/-- 08 R221: in class 1 the consuming set must be X alone. -/
def execPfence (o : PfenceO) (s : State) : Out :=
  .next (match s.cur? with
    | none => s
    | some t =>
      if t.kind = .stream && o.cons ≠ 4#4 then s.trapAll cReservedField
      else s.guarded o.g fun mask s =>
        (s.progressed.modViews mask fun v => s.pfenceView v (pathsOf o.prod) (pathsOf o.cons)).advance)

/-- 08 R222: a 4-byte acquire load with scope 3 whose value is discarded. -/
def State.promoteInstr (s : State) (o : JmpO) : State :=
  match reqOf (.promote o) with
  | none => s
  | some r =>
    s.guarded o.g fun mask s =>
      let s := s.progressed
      match s.cur? with
      | none => s
      | some t =>
        let b := t.src s.draw o.a true
        let ps := sortAsc (mask.getD t.places)
        let ops := addrOps b true 0 (fun _ => 0) (fun _ => 0) (fun _ => false) (fun _ => false)
        s.withOwners r (singles ps) ops fun own s =>
          match s.cur? with
          | none => s
          | some t =>
            let m := s.access t r false own (singles ps) ops
            s.memEnd m m.t r own b 0 []

def execPromote (o : JmpO) (s : State) : Out := .next (s.promoteInstr o)

/-! ### WAITA (08 R223, 03 R91) -/

/-- WAITA by the places `ps` that have not been met: with all met, or recorded as faulting, it completes; else the agent waits.
`poll`: the agent is waiting already. -/
def State.waitOn (s : State) (o : WaitaO) (r : Req) (mask : Option (List Nat)) (met : List Nat) : State :=
  match s.cur? with
  | none => s
  | some t =>
    let w64 := !o.spad && t.kind ≠ .stream || t.kind = .stream
    let b0 := t.src s.draw o.a w64
    -- class 1: a scratchpad address is the low 21 bits (08 R223)
    let b := if t.kind = .stream && o.spad then Opd.map1 (fun a => a &&& 0x1FFFFF#64) b0 else b0
    let v := t.src s.draw o.b o.w64
    let ps := listDiff (sortAsc (mask.getD t.places)) met
    let ops := addrOps b w64 0 (fun p => (v.val p).toNat) (fun _ => 0) (fun p => v.pAll || v.pL.contains p) (fun _ => false)
    s.withOwners r (singles ps) ops fun own s =>
      match s.cur? with
      | none => s
      | some t =>
        let m := s.access t r false own (singles ps) ops
        if m.unmet.isEmpty then s.memEnd m { m.t with why := .none, st := .ready } r own b 0 [v]
        else if t.kind ≠ .fibre && !m.faults.isEmpty then s.memEnd m m.t r own b 0 [v]
        else
          let bad := m.faults.map IdxFault.place
          let met' := met ++ ps.filter fun p => !m.unmet.contains p && !bad.contains p
          (m.s.setCur m.t).waitCur .wait (.waita met')

def execWaita (o : WaitaO) (s : State) : Out :=
  .next (match reqOf (.waita o) with
    | none => s
    | some r =>
      s.guarded o.g fun mask s =>
        let s1 := s.progressed.waitOn o r mask []
        match s1.cur? with
        | some t => (match t.why with
          | .waita _ => s1.post (.waitaSatisfied (s1.curFrom / 8192) (s1.curFrom % 8192))
          | _ => s1)
        | none => s1)

/-- The lanes under the guard of a word that waits: a cut has split the fibre before it waited. -/
def Thread.maskOf (t : Thread) (g : Guard) : Option (List Nat) :=
  match t.guard g with
  | .m l => some (t.active.filter (l.contains ·))
  | _ => none

/-- What an agent waits on. -/
def State.whyOf (s : State) (core entry : Nat) : Why :=
  match ({ s with turn := turnOf core entry }).cur? with
  | some t => t.why
  | none => .none

/-- 03 R91: the waiting agent looks at its words again; with all met it goes on. A swapped-out fibre is resumed then. -/
def execWaitaSatisfied (core entry : Nat) (s : State) : Out :=
  .next (match s.waitaMet core entry with
    | some met =>
      if s.holdsAt core entry then s.post (.waitaSatisfied core entry) else
      let s1 := s.asWaiter core entry fun s =>
        match s.cur? with
        | none => s
        | some t =>
          match decode t.word with
          | .ok (.waita o) => match reqOf (.waita o) with
            | some r => s.waitOn o r (t.maskOf o.g) met
            | none => s
          | _ => s
      match s1.whyOf core entry with
      | .waita _ | .promoted _ _ => s1.post (.waitaSatisfied core entry)
      | .promote _ _ _ => s1
      | _ => if (Tab.find? (s1.core core).swaps entry).isSome then s1.post (.waitcResume core entry) else s1.resourcesFreed core
    | none => s)

/-! ### Outstanding accesses (08 R226, 17 R363, 21 R392) -/

/-- The field-book record of what an outstanding access has at fault, without the faults. -/
def OutAccess.book (o : OutAccess) (t : Thread) (i : Instr) (r : Req) : FbRec :=
  let off : Word := match i with
    | .ld l | .lds l => l.off.signExtend 64
    | .st l | .sts l => l.off.signExtend 64
    | _ => 0
  { t.fbTemplate o.entry r.acc (sizeCode i r) o.pc o.instr with
    addr := o.base, off := off, data := o.data, dbad := o.dbad, cl := o.cl, latches := o.latches }

/-- The outstanding access is one load on behalf of all its places (08 R212). -/
def OutAccess.uniform (o : OutAccess) : Bool :=
  match o.base with
  | .u _ => true
  | _ => false

/-- 17 R363: of a fibre's stores lost with a far-memory link, those on pages without RPL, for which one record is pushed; the fibre is
not parked. Answers the other faults. -/
def State.pushLost (s : State) (c e : Nat) (pc : Word) (r : Req) (fs : List IdxFault) : State × List IdxFault :=
  let (gone, left) := fs.partition fun f => r.acc = 1 && f.code = 0 && f.far.any fun q => !q.2
  match lowestFault gone, s.fibre? c e with
  | some f, some t => (s.pushTrap (clusterOf c) (t.record c e cMemPoison pc f.addr (2 ^ 14) .none [] none), left)
  | _, _ => (s, left)

/-- Nothing of an access is outstanding any more: the fibre goes on, or its faults are recorded. -/
def State.outEnd (s : State) (c e : Nat) (o : OutAccess) (i : Instr) (r : Req) : State :=
  let s1 := s.modFibre c e fun t => if t.why = .loadData && t.st = .ready then { t with why := .none } else t
  let (s2, fs) := (s1.memChanged c o.uid).pushLost c e o.pc r o.faults
  match s2.fibre? c e with
  | some t => if fs.isEmpty then s2 else s2.fibreFaults c e o.pc fs (o.book t i r)
  | none => s2

/-- The stores of the places `ps` of an outstanding access reach memory. -/
def State.landStores (s : State) (o : OutAccess) (r : Req) (ps : List (Nat × Nat)) : State :=
  ps.foldl (fun s pa => match s.cur? with
    | some t =>
      let (s1, t1) := s.store1 t pa.1 r none pa.2 (leBytes r.n (t.fvalsAt o.data pa.1)) (o.dbad.contains pa.1) true (Tab.get o.leaves 0 pa.1)
      s1.setCur t1
    | none => s) s

/-- 17 R363: the places `ps` of an outstanding access are lost with their far-memory link: on a replayable page they are at fault;
elsewhere a load completes with poison, and a store is at fault. A store that was not acknowledged may or may not have reached the
expander. Answers the faults. -/
def State.lose (s : State) (o : OutAccess) (i : Instr) (r : Req) (ps : List (Nat × Nat)) : State × List IdxFault :=
  match s.cur? with
  | none => (s, [])
  | some t =>
    let rpl (p : Nat) : Bool := leafRpl (Tab.get o.leaves 0 p)
    let fault (pa : Nat × Nat) : IdxFault := ⟨pa.1, cMemPoison, Tab.get o.vas 0 pa.1, 0, 0, some (farPort pa.2, rpl pa.1)⟩
    if r.acc = 1 then (s.landStores o r (ps.filter fun pa => Config.freeBit (s.draw * 4096 + pa.1)), ps.map fault)
    else
      let (rep, gone) := ps.partition fun pa => rpl pa.1
      let vals : Tab (Word × Word) := Tab.setAll [] (gone.map fun pa => (pa.1, (0, 0)))
      (if gone.isEmpty then s else s.setCur (t.lateResult s.draw i o.pc vals (gone.map Prod.fst) o.uniform true), rep.map fault)

/-- The data of outstanding places of the current fibre arrives, or the acknowledgements of its stores; `poison`: the reads were in
an array that is lost (21 R392). -/
def State.landed (s : State) (o : OutAccess) (i : Instr) (r : Req) (ps : List (Nat × Nat)) (poison : Bool) : State :=
  match s.cur? with
  | none => s
  | some t =>
    if r.acc = 1 then s.landStores o r ps
    else
      let gs := if o.uniform then [ps.map Prod.fst] else singles (ps.map Prod.fst)
      let m := gs.foldl (fun (m : MemRes) qs =>
        let p := qs.headD 0
        let (s1, t1, bs, bad) := m.s.load1 m.t qs r none (Tab.get ps 0 p) (Tab.find? o.own p) (Tab.get o.leaves 0 p)
        { m with s := s1, t := t1 }.put qs (bytesVal bs) (bad || poison)) (MemRes.start s t)
      m.s.setCur (m.t.lateResult s.draw i o.pc m.vals m.pois o.uniform false)

/-- The end of the places `ps` of an outstanding access of fibre (c, e), the others staying outstanding: as `k` has it, with the faults
that it answers. -/
def State.settleOut (s : State) (c e : Nat) (o : OutAccess) (ps : List (Nat × Nat))
    (k : Instr → Req → State → State × List IdxFault) : State :=
  match decode o.instr with
  | .ok i => match reqOf i with
    | some r =>
      let (s1, fs) := k i r { s with turn := .fibre c e }
      let o1 := { o with pend := listDiff o.pend ps, faults := o.faults ++ fs }
      let x := s1.core c
      let s2 := { s1.setCore c { x with loads := x.loads.flatMap fun q =>
        if q ≠ o then [q] else if o1.pend.isEmpty then [] else [o1] } with turn := s.turn }
      if o1.pend.isEmpty then s2.outEnd c e o1 i r else s2
    | none => s
  | .error _ => s

def State.loseAt (s : State) (c e : Nat) (o : OutAccess) (ps : List (Nat × Nat)) : State :=
  s.settleOut c e o ps fun i r s => s.lose o i r ps
def State.landAt (s : State) (c e : Nat) (o : OutAccess) (ps : List (Nat × Nat)) (poison : Bool) : State :=
  s.settleOut c e o ps fun i r s => (s.landed o i r ps poison, [])

/-- Whatever is outstanding of a fibre ends now: before it is divided, and before its records are replayed (log 71). -/
def State.endOuts (s : State) (c uid : Nat) : State :=
  ((s.core c).loads.filter fun o => o.uid = uid).foldl (fun s o =>
    let (gone, ready) := o.pend.partition fun pa => s.farLost pa.2
    let s1 := if gone.isEmpty then s else s.loseAt c o.entry o gone
    if ready.isEmpty then s1
    else match (s1.core c).loads.find? fun q => q.uid = uid with
      | some q => s1.landAt c o.entry q ready false
      | none => s1) s

/-- 08 R226: the data of the fibre's outstanding access arrives, once its pseudo-channels are in service. With a port down it
cannot arrive, and its completion timeout runs (17 R363). -/
def execLoadDataArrival (core entry : Nat) (s : State) : Out :=
  .next (match (s.core core).loads.find? fun o => o.entry = entry with
    | none => s
    | some o =>
      let (stuck, ready) := o.pend.partition fun pa => s.farLost pa.2 || s.heldAt pa.2 1
      let s1 := if ready.isEmpty then s else s.landAt core entry o ready false
      if stuck.isEmpty then s1
      else
        let s2 := s1.post (.loadDataArrival core entry)
        if stuck.any (fun pa => s.farLost pa.2) && !s.agenda.contains (.farCompletionTimeout core entry) then
          s2.post (.farCompletionTimeout core entry) else s2)

end Sys2Proof.Machine
end

