-- ==== Sys2Proof/Machine/Copy.lean ====
section
/-!
DEFINITION. The copy engine: descriptors, issue, running, completion and faults (08 R228-R234).
-/

namespace Sys2Proof.Machine

open Sys2Proof

/-! ### Descriptors (08 R228-R231) -/

def CopyCmd.d (q : CopyCmd) (i : Nat) : Nat := (q.desc.getD i 0#32).toNat
def CopyCmd.d64 (q : CopyCmd) (i : Nat) : Nat := q.d i + 2 ^ 32 * q.d (i + 1)
/-- A stride: i32. -/
def CopyCmd.ds (q : CopyCmd) (i : Nat) : Int := (q.desc.getD i 0#32).toInt

/-- 08 R231: the bytes of an element; none: a format that COPYX and COPYC do not take. -/
def structBytes (f : Fmt) : Option Nat :=
  match f with
  | .i8 | .n8 | .e4m3 | .e5m2 => some 1
  | .i16 | .n16 | .f16 | .bf16 => some 2
  | _ => none
def CopyCmd.es (q : CopyCmd) : Nat := (structBytes q.fmt).getD 1

/-- A set of rows of bytes in a space (0 global, 1 scratchpad, 2 peer window): base, row length, row and plane strides and
counts. -/
structure Rect where
  sp   : Nat
  base : Nat
  len  : Nat
  sy   : Int
  yn   : Nat
  sz   : Int
  zn   : Nat
deriving DecidableEq, Repr

/-- The first and last byte of a rectangle, not wrapped. -/
def Rect.lo (r : Rect) : Int := r.base + min 0 (r.sy * (r.yn - 1 : Nat)) + min 0 (r.sz * (r.zn - 1 : Nat))
def Rect.hi (r : Rect) : Int := r.base + max 0 (r.sy * (r.yn - 1 : Nat)) + max 0 (r.sz * (r.zn - 1 : Nat)) + r.len - 1
/-- The address of a byte; global addresses wrap modulo 2^64 (08 R229). -/
def Rect.at_ (r : Rect) (p y b : Nat) : Nat := ((r.base + r.sz * p + r.sy * y + b) % (2 ^ 64 : Nat)).toNat
def Rect.rows (r : Rect) : List (Nat × Nat × Nat) :=
  (List.range (r.zn * r.yn)).map fun i => (r.sp, r.at_ (i / r.yn) (i % r.yn) 0, r.len)

/-- The ranges of a command in descriptor register order: those it reads and those it writes. -/
def CopyCmd.inRects (q : CopyCmd) : List Rect :=
  match q.kind with
  | .plain => [⟨q.insp, q.d64 0, q.d 4, q.ds 8, q.d 5, q.ds 9, q.d 6⟩]
  | .toTile => [⟨q.insp, q.d64 0, q.d 4, q.ds 8, q.d 5, 0, 1⟩]
  | .expand => [⟨q.insp, q.d64 2, q.d 4 / 2 * q.es, q.ds 9, q.d 5, 0, 1⟩, ⟨q.insp, q.d64 10, q.d 4 / 8, q.ds 7, q.d 5, 0, 1⟩]
  | .compact => [⟨q.insp, q.d64 0, q.d 4 * q.es, q.ds 8, q.d 5, 0, 1⟩]
def CopyCmd.outRects (q : CopyCmd) : List Rect :=
  match q.kind with
  | .plain => [⟨q.outsp, q.d64 2, q.d 4, q.ds 10, q.d 5, q.ds 11, q.d 6⟩]
  | .toTile => []
  | .expand => [⟨q.outsp, q.d64 0, q.d 4 * q.es, q.ds 8, q.d 5, 0, 1⟩]
  | .compact => [⟨q.outsp, q.d64 2, q.d 4 / 2 * q.es, q.ds 9, q.d 5, 0, 1⟩, ⟨q.outsp, q.d64 10, q.d 4 / 8, q.ds 7, q.d 5, 0, 1⟩]
/-- The completion word, and its value. -/
def CopyCmd.cw (q : CopyCmd) : Nat := q.d64 12
def CopyCmd.cwRect (q : CopyCmd) : List Rect := if q.cw = 0 then [] else [⟨if q.cwsp then 1 else 0, q.cw, 8, 0, 1, 0, 1⟩]
def CopyCmd.rects (q : CopyCmd) : List Rect :=
  (if q.kind = .expand then q.outRects ++ q.inRects else q.inRects ++ q.outRects) ++ q.cwRect

/-- 08 R229-R231: the descriptor's limits and reserved fields. -/
def CopyCmd.limitsOk (q : CopyCmd) : Bool :=
  let inR (v lo hi : Nat) : Bool := lo ≤ v && v ≤ hi
  (match q.kind with
  | .plain => inR (q.d 4) 1 (2 ^ 24) && inR (q.d 5) 1 65536 && inR (q.d 6) 1 65536 && q.d 7 = 0
  | .toTile => q.d 2 < 128 && inR (q.d 4) 1 4096 && inR (q.d 5) 1 4096 && q.d 4 * q.d 5 ≤ 4096
      && [3, 6, 7, 9, 10, 11].all fun i => q.d i = 0
  | .expand | .compact => q.d 4 % 8 = 0 && inR (q.d 4) 8 (2 ^ 20) && inR (q.d 5) 1 65536 && q.d 6 = 0)
  && (q.inRects ++ q.outRects).all fun r => r.sp ≠ 2 || r.base / 2 ^ 52 % 256 = 0

/-- The misaligned address of a descriptor, if it has one. -/
def CopyCmd.misaligned (q : CopyCmd) : Option Nat :=
  let two := q.kind = .expand || q.kind = .compact
  if two && q.d64 0 % q.es ≠ 0 then some (q.d64 0)
  else if two && q.d64 2 % q.es ≠ 0 then some (q.d64 2)
  else if q.cw % 8 ≠ 0 then some q.cw
  else none

/-- 08 R228, 03 R74, R75, 19 R371: what is wrong with a range: cause and AUX. -/
def State.rectBad (s : State) (t : Thread) (r : Rect) : Option (BitVec 8 × Nat) :=
  if r.sp = 0 then (if 0 ≤ r.lo && r.hi < 2 ^ 55 then none else some (cAccess, 0))
  else if r.sp = 1 then
    match s.scratchOf t with
    | some (_, _, size) => if 0 ≤ r.lo && r.hi < size then none else some (cScratchRange, 0)
    | none => some (cScratchRange, 0)
  else
    let port : Nat := r.base / 2 ^ 60
    let top : Int := (port * 2 ^ 60 : Nat)
    if s.host.peerup.getLsbD port && top ≤ r.lo && r.hi - top < Tab.get s.host.peerSize 0 port then none
    else some (cAccess, 5)

/-- 08 R228: the issue checks, in order: cause, address, AUX. -/
def State.copyBad (s : State) (t : Thread) (q : CopyCmd) : Option (BitVec 8 × Nat × Nat) :=
  if !q.limitsOk then some (cReservedField, 0, 0)
  else match q.misaligned with
  | some a => some (cMisaligned, a, 0)
  | none => q.rects.findSome? fun r => (s.rectBad t r).map fun ca => (ca.1, r.base, ca.2)

/-! ### Running -/

/-- Where a byte lies: physical memory (`home`: read at the home), a scratch allocation, or a peer's window. -/
inductive CLoc where
  | mem (pa : Nat) (home : Bool)
  | scr (c al a : Nat)
  | peer (port off : Nat)
deriving DecidableEq, Repr

def CLoc.plus (l : CLoc) (n : Nat) : CLoc :=
  match l with
  | .mem pa h => .mem (pa + n) h
  | .scr c al a => .scr c al (a + n)
  | .peer p o => .peer p (o + n)
/-- The byte `b` lies within `n` bytes from `l`. -/
def CLoc.covers (l : CLoc) (n : Nat) (b : CLoc) : Bool :=
  match l, b with
  | .mem x _, .mem y _ => x ≤ y && y < x + n
  | .scr c al x, .scr c' al' y => c = c' && al = al' && x ≤ y && y < x + n
  | .peer p x, .peer p' y => p = p' && x ≤ y && y < x + n
  | _, _ => false

/-- The places of a range: pieces with their lengths, or the failing address with its failure. -/
def State.copyLocs (s : State) (c : Nat) (q : CopyCmd) (sp addr len : Nat) (p : Perm) : Except (Nat × Xlat) (List (CLoc × Nat)) :=
  if sp = 0 then (s.xlatRange (.port q.ctx c .C) addr len p).map fun l => l.map fun x => (CLoc.mem x.pa x.home, x.n)
  else if sp = 1 then
    match (Tab.find? (s.core c).insts q.inst).bind TileInst.scratch with
    | some al => .ok [(.scr c al addr, len)]
    | none => .ok []
  else .ok [(.peer (addr / 2 ^ 60) (addr % 2 ^ 52), len)]

/-- The places of rows that translate. -/
def State.extent (s : State) (c : Nat) (q : CopyCmd) (rs : List Rect) (p : Perm) : List (CLoc × Nat) :=
  (rs.flatMap Rect.rows).flatMap fun r => match s.copyLocs c q r.1 r.2.1 r.2.2 p with
    | .ok l => l
    | .error _ => []

/-- One indivisible piece of a command: its first destination byte, ranges read, ranges written, and what the bytes become. -/
structure CUnit where
  off  : Nat
  srcs : List (Nat × Nat × Nat)
  dsts : List (Nat × Nat × Nat)
  f    : List (Byte × Bool) → List (Byte × Bool)

/-- 08 R232: magnitude of an element; all NaNs rank alike, above every other value. -/
def magnitude (f : Fmt) (v : Nat) : Nat :=
  match f with
  | .i8 => if 128 ≤ v then 256 - v else v
  | .i16 => if 32768 ≤ v then 65536 - v else v
  | .f16 => if 0x7C00 < v % 32768 then 65536 else v % 32768
  | .bf16 => if 0x7F80 < v % 32768 then 65536 else v % 32768
  | .e4m3 => if v % 128 = 127 then 65536 else v % 128
  | .e5m2 => if 0x7C < v % 128 then 65536 else v % 128
  | _ => v

abbrev PByte := Byte × Bool
def pVal (bs : List PByte) : Nat := leNat (bs.map Prod.fst)
def pBad (bs : List PByte) : Bool := bs.any Prod.snd
def pMark (bad : Bool) (bs : List PByte) : List PByte := bs.map fun b => (b.1, b.2 || bad)
/-- Element i of s bytes. -/
def elemAt (s i : Nat) (bs : List PByte) : List PByte := (bs.drop (i * s)).take s

/-- 08 R232: a dense group of four from two values and a nibble of metadata. -/
def expandGroup (s nib : Nat) (v0 v1 : List PByte) : List PByte :=
  (List.range 4).flatMap fun i =>
    if i = nib / 4 % 4 then v1 else if i = nib % 4 then v0 else List.replicate s (0#8, false)
/-- 08 R232: the positions of the two elements of greatest magnitude, the lower position winning ties. -/
def keepTwo (f : Fmt) (es : List (List PByte)) : Nat × Nat :=
  let m (i : Nat) : Nat := magnitude f (pVal (es.getD i []))
  let best (ps : List Nat) : Nat := ps.foldl (fun b i => if m b < m i then i else b) (ps.headD 0)
  let a := best [0, 1, 2, 3]
  let b := best ([0, 1, 2, 3].filter (· ≠ a))
  (min a b, max a b)

/-- 08 R231, R232: eight dense elements from four values and one byte of metadata. -/
def expandEight (s : Nat) (bs : List PByte) : List PByte :=
  let mt := elemAt 1 (4 * s) bs
  let m := pVal mt
  pMark (pBad mt) (expandGroup s (m % 16) (elemAt s 0 bs) (elemAt s 1 bs) ++ expandGroup s (m / 16) (elemAt s 2 bs) (elemAt s 3 bs))
/-- 08 R231, R232: four values and one byte of metadata from eight dense elements. A poisoned element marks what its group gives. -/
def compactEight (f : Fmt) (s : Nat) (bs : List PByte) : List PByte :=
  let grp (g : Nat) : List (List PByte) := (List.range 4).map fun i => elemAt s (4 * g + i) bs
  let one (g : Nat) : Nat × List PByte :=
    let es := grp g
    let (a, b) := keepTwo f es
    (a + 4 * b, pMark (es.any pBad) (es.getD a [] ++ es.getD b []))
  let (n0, v0) := one 0
  let (n1, v1) := one 1
  v0 ++ v1 ++ [(BitVec.ofNat 8 (n0 + 16 * n1), pBad bs)]

/-- Bytes left in the 64 KiB page of an address. -/
def pageLeft (a : Nat) : Nat := 2 ^ 16 - a % 2 ^ 16

/-- The piece at destination byte `o`, none of it beyond `lim`, and the destination bytes it makes. -/
def CopyCmd.unitAt (q : CopyCmd) (o lim : Nat) : CUnit × Nat :=
  match q.kind, q.inRects, q.outRects with
  | .plain, [i], [u] =>
    let row := o / i.len
    let b := o % i.len
    let src := i.at_ (row / i.yn) (row % i.yn) b
    let dst := u.at_ (row / i.yn) (row % i.yn) b
    let n := min (min (i.len - b) (lim - o)) (min (pageLeft src) (pageLeft dst))
    (⟨o, [(q.insp, src, n)], [(q.outsp, dst, n)], fun b => b⟩, n)
  | .toTile, [i], _ =>
    let src := i.at_ 0 (o / i.len) (o % i.len)
    let n := min (min (i.len - o % i.len) (lim - o)) (pageLeft src)
    (⟨o, [(q.insp, src, n)], [], fun b => b⟩, n)
  | .expand, [v, m], [d] =>
    let k := o / (8 * q.es)
    let row := k / (q.d 4 / 8)
    let g := k % (q.d 4 / 8)
    (⟨o, [(q.insp, v.at_ 0 row (4 * q.es * g), 4 * q.es), (q.insp, m.at_ 0 row g, 1)],
      [(q.outsp, d.at_ 0 row (8 * q.es * g), 8 * q.es)], expandEight q.es⟩, 8 * q.es)
  | .compact, [d], [v, m] =>
    -- a granule may end within a pair of groups: its bytes b to b + n - 1, of which vn are values
    let k := o / (4 * q.es + 1)
    let b := o % (4 * q.es + 1)
    let n := min (4 * q.es + 1 - b) (lim - o)
    let vn := min (b + n) (4 * q.es) - b
    let row := k / (q.d 4 / 8)
    let g := k % (q.d 4 / 8)
    (⟨o, [(q.insp, d.at_ 0 row (8 * q.es * g), 8 * q.es)],
      [(q.outsp, v.at_ 0 row (4 * q.es * g + b), vn), (q.outsp, m.at_ 0 row g, n - vn)].filter fun r => 0 < r.2.2,
      fun bs => ((compactEight q.fmt q.es bs).drop b).take n⟩, n)
  | _, _, _ => (⟨o, [], [], fun b => b⟩, 1)

/-- Destination bytes of the whole command. -/
def CopyCmd.total (q : CopyCmd) : Nat :=
  match q.kind with
  | .plain => q.d 4 * q.d 5 * q.d 6
  | .toTile => q.d 4 * q.d 5
  | .expand => q.d 5 * (q.d 4 / 8) * (8 * q.es)
  | .compact => q.d 5 * (q.d 4 / 8) * (4 * q.es + 1)
/-- 08 R228: the next split-granule boundary. -/
def CopyCmd.boundary (q : CopyCmd) : Nat :=
  let g := if q.gran = 1 then 2 ^ 16 else 2 ^ 20
  if q.gran = 0 then q.total else min q.total ((q.done / g + 1) * g)

/-- The destination bytes of a row of a command, the rows going in no stated order (08 R229); COPYX and COPYC go by pairs of groups. -/
def CopyCmd.rowLen (q : CopyCmd) : Nat :=
  match q.kind with
  | .plain | .toTile => q.d 4
  | .expand => 8 * q.es
  | .compact => 4 * q.es + 1
/-- The first byte of row k that is not written, and the first beyond the row, both within the granule that `done` begins. -/
def CopyCmd.rowLeft (q : CopyCmd) (k : Nat) : Nat × Nat :=
  (max q.done (k * q.rowLen) + Tab.get q.gone 0 k, min q.boundary ((k + 1) * q.rowLen))
/-- 08 R229: where the command goes on, a row of its granule that is not specified (log 37), and in a row its first byte that is not
written: the row and that byte. -/
def CopyCmd.nextAt (q : CopyCmd) (draw : Nat) : Nat × Nat :=
  let k0 := q.done / q.rowLen
  let rows := (q.boundary - 1) / q.rowLen + 1 - k0
  let left (k : Nat) : Bool := (q.rowLeft k).1 < (q.rowLeft k).2
  let k := k0 + upTo (rows - 1) (Config.pick draw 3 q.id)
  let k := if left k then k else (((List.range (q.gone.length + 1)).map (k0 + ·)).find? left).getD k0
  (k, (q.rowLeft k).1)
/-- `n` bytes more of row k are written: with the granule's last, `done` moves on. -/
def CopyCmd.took (q : CopyCmd) (k n : Nat) : CopyCmd :=
  let gone := Tab.set q.gone k (Tab.get q.gone 0 k + n)
  if q.boundary ≤ q.done + (gone.map Prod.snd).sum then { q with done := q.boundary, gone := [] } else { q with gone := gone }

/-- 17 R364: the command stands inside a split granule, or after its payload, and goes on to its next boundary or its end. -/
def CopyCmd.midway (q : CopyCmd) : Bool :=
  q.st = .tileWait || q.st = .peerWait || (q.st = .running &&
    (q.total ≤ q.done || !q.gone.isEmpty))

/-- 08 R229: a byte that the command itself has overwritten reads as it was. -/
def State.beforeOwn (s : State) (q : CopyCmd) (sp : Space) (a : Nat) : Option PByte :=
  ((s.log.filter fun w => q.wrote.contains w.id && w.covers sp a 1).getLast?).map fun w =>
    (w.old.getD (a - w.addr) 0#8, w.oldBad.getD (a - w.addr) false)

/-- Read a piece on the C path, each byte with its poison mark. What a peer's memory holds, and whether it arrives poisoned, is not
known: free values (log 38). -/
def State.copyRead (s : State) (q : CopyCmd) (l : CLoc) (n : Nat) : State × List PByte :=
  let own (sp : Space) (a : Nat) (g : Got) (lost : Bool) : List PByte :=
    (List.range n).map fun i =>
      let b := (s.beforeOwn q sp (a + i)).getD (g.bytes.getD i 0#8, g.bads.getD i false)
      (b.1, b.2 || lost)
  match l with
  | .mem pa home =>
    let s1 := s.demandGot pa n (s.readChoice q.view .C home none pa n q.id none)
    (s1, own none pa (s1.readChoice q.view .C home none pa n q.id none) (s.farLost pa))
  | .scr c al a => (s, own (some (c, al)) a (s.readChoice q.view .C false (some (c, al)) a n q.id none) false)
  | .peer _ o => (s, (List.range n).map fun i =>
      ((Config.freeWord s.draw (5000 + o + i)).setWidth 8, Config.freeBit (s.draw * 4096 + o + i)))

/-- A peer's window takes bytes with their marks. -/
def HostSt.peerPut (h : HostSt) (p o : Nat) (data : List Byte) (marks : List Bool) : HostSt :=
  let bad := (Tab.get h.peerBad [] p).filter fun a => !(o ≤ a && a < o + data.length)
  { h with peerMem := Tab.set h.peerMem p (Bytes.write (Tab.get h.peerMem [] p) o data)
           peerBad := Tab.set h.peerBad p (bad ++ (List.range data.length).filterMap fun i =>
             if marks.getD i false then some (o + i) else none) }

/-- Write a piece on the C path, each byte with its mark (08 R226). A byte that is also a source byte, or is written twice, becomes
undefined (08 R229; log 17). -/
def State.copyWrite (s : State) (c : Nat) (q : CopyCmd) (ext : List (CLoc × Nat) × List (CLoc × Nat)) (l : CLoc)
    (bs : List PByte) : State × CopyCmd :=
  let hits (xs : List (CLoc × Nat)) (b : CLoc) : Nat := (xs.filter fun x => x.1.covers x.2 b).length
  let undef (i : Nat) : Bool := 0 < hits ext.1 (l.plus i) || 1 < hits ext.2 (l.plus i)
  let data := (List.range bs.length).map fun i => if undef i then Config.overlapByte s.draw i else (bs.getD i (0#8, false)).1
  let marks := bs.map Prod.snd
  let put (sp : Space) (a : Nat) : State × CopyCmd :=
    let (s1, v) := s.storeMo (fun _ => false) false (some q.launch) q.view sp a data marks .C c none
    (s1, { q with view := v, wrote := q.wrote ++ (List.range (s1.nextId - s.nextId)).map (s.nextId + ·) })
  match l with
  | .mem pa _ => put none pa
  | .scr c al a => put (some (c, al)) a
  | .peer p o => ({ s with host := s.host.peerPut p o data marks }, q)

/-- How a run of a command ends. -/
inductive CEnd where
  | ok
  | lost (addr : Nat)
  | fault (addr : Nat) (x : Xlat)

/-- The places of several ranges. -/
def State.manyLocs (s : State) (c : Nat) (q : CopyCmd) (rs : List (Nat × Nat × Nat)) (p : Perm) :
    Except (Nat × Xlat) (List (CLoc × Nat)) :=
  rs.foldr (fun r acc => match s.copyLocs c q r.1 r.2.1 r.2.2 p, acc with
    | .error e, _ => .error e
    | .ok _, .error e => .error e
    | .ok l, .ok m => .ok (l ++ m)) (.ok [])

/-- A far-memory port or a peer that is down. -/
def State.locLost (s : State) (l : CLoc × Nat) : Bool :=
  match l.1 with
  | .mem pa _ => s.farLost pa
  | .peer p _ => !s.host.peerup.getLsbD p
  | _ => false

/-- The walks for a piece's ranges. -/
def State.unitWalks (s : State) (c : Nat) (q : CopyCmd) (u : CUnit) : State :=
  let walk (p : Perm) (s : State) (r : Nat × Nat × Nat) : State :=
    if r.1 = 0 then s.walkRange (.port q.ctx c .C) r.2.1 r.2.2 p else s
  u.dsts.foldl (walk .w) (u.srcs.foldl (walk .r) s)

/-- One piece: every range is translated before any byte moves. -/
def State.copyUnit (s : State) (c : Nat) (q : CopyCmd) (ext : List (CLoc × Nat) × List (CLoc × Nat)) (u : CUnit) :
    State × CopyCmd × CEnd :=
  let s0 := s.unitWalks c q u
  match s.manyLocs c q u.srcs .r, s.manyLocs c q u.dsts .w with
  | .error (a, x), _ => (s0, q, .fault a x)
  | .ok _, .error (a, x) => (s0, q, .fault a x)
  | .ok ls, .ok ds =>
    let s := s0
    -- the first byte of a range that is not delivered
    let lost (r : Nat × Nat × Nat) : Option Nat := match s.copyLocs c q r.1 r.2.1 r.2.2 .w with
      | .ok l => if l.any s.locLost then some (r.2.1 + ((l.takeWhile (!s.locLost ·)).foldl (fun n x => n + x.2) 0)) else none
      | .error _ => none
    if ds.any s.locLost then (s, q, .lost ((u.dsts.findSome? lost).getD 0))
    else
      let (s1, bs) := ls.foldl (fun (acc : State × List PByte) l =>
        let (s1, b) := acc.1.copyRead q l.1 l.2
        (s1, acc.2 ++ b)) (s, [])
      let out := u.f bs
      if q.kind = .toTile then
        let b := q.buf ++ List.replicate (u.off - q.buf.length) (0#8, false)
        (s1, { q with buf := b.take u.off ++ out ++ b.drop (u.off + out.length) }, .ok)
      else
        let (s2, q2, _) := ds.foldl (fun (acc : State × CopyCmd × Nat) l =>
          let (s1, q1) := acc.1.copyWrite c acc.2.1 ext l.1 ((out.drop acc.2.2).take l.2)
          (s1, q1, acc.2.2 + l.2)) (s1, q, 0)
        (s2, q2, .ok)

/-! ### The queue (08 R233) -/

def State.setCopy (s : State) (c : Nat) (q : CopyCmd) : State :=
  let x := s.core c
  s.setCore c { x with copyq := x.copyq.map fun k => if k.id = q.id then q else k }

/-- The commands that may run: the first of their token, queued or running. Where the engine stops, or the context is being
switched out, those go on that stand between two points of 17 R364. -/
def State.runnable (s : State) (c : Nat) : List CopyCmd :=
  let x := s.core c
  x.copyq.filter fun q => (q.st = .queued || q.st = .running) && (q.midway || (s.enginesRun c && !x.stopped.contains q.ctx))
    && ((x.copyq.find? fun k => k.tokId = q.tokId && k.tok = q.tok).map CopyCmd.id) = some q.id

/-- Let the copy engine run while it has something to run. -/
def State.kickCopies (s : State) (c : Nat) : State :=
  if (s.runnable c).isEmpty || s.agenda.contains (.copyRun c) then s else s.post (.copyRun c)

/-- 17 R351: a trap record of KIND 2. -/
def State.copyTrap (s : State) (c : Nat) (q : CopyCmd) (cause : BitVec 8) (addr aux : Nat) : State :=
  s.pushTrap (clusterOf c)
    { seq := 0, peeled := false, kind := 2, cause := cause, handle := q.handle, pc := 0, addr := BitVec.ofNat 64 addr
      aux := BitVec.ofNat 64 (aux + q.tok), index := .none, disp := 0, rule := 0, tile := q.tile, core := c, uid := q.id
      who := [], fbv := none, replay := false }

/-- 08 R233: a command leaves the queue. -/
def State.copyGone (s : State) (c : Nat) (q : CopyCmd) : State :=
  let x := s.core c
  let s1 := s.setCore c { x with copyq := x.copyq.filter fun k => k.id ≠ q.id }
  (((s1.addStores q.launch q.wrote).tokensChanged c).checkInst c q.inst).kickCopies c

/-- 08 R233: a command completes: what waits on its token acquires its writes, and the token's later commands follow them. -/
def State.copyDone (s : State) (c : Nat) (q : CopyCmd) : State :=
  let x := s.core c
  let own := x.fibres.map fun kv => (kv.1, if kv.2.tokId = q.tokId then
    { kv.2 with tokHb := Tab.set kv.2.tokHb q.tok (listUnion (Tab.get kv.2.tokHb [] q.tok) q.wrote) } else kv.2)
  let later := x.copyq.map fun k => if k.tokId = q.tokId && k.tok = q.tok then
    { k with view := k.view.gain q.wrote, prior := listUnion k.prior q.wrote } else k
  (s.setCore c { x with fibres := own, copyq := later }).copyGone c q

/-- 03 R85, 11 R277: the completion word: a store at its home that every load sees at once, and a release of the payload writes of
its command and of the token's earlier ones. -/
def State.storeCw (s : State) (c : Nat) (q : CopyCmd) (sp : Space) (a : Nat) : State × CopyCmd :=
  let id := s.nextId
  let (s1, _) := s.storeFor (some q.launch) q.view sp a (leBytes 8 (q.d64 14)) (List.replicate 8 false) .C c none
  (s1.markStore s fun w => { w with vis := .atOnce, rel := [⟨3, c, id :: listUnion q.wrote q.prior⟩] },
    if s1.nextId = id then q else { q with wrote := q.wrote ++ [id] })

/-- A command stops at a fault, with its record (08 R234). A fault other than a PAGE_FAULT is of its own 64 KiB page (07 R208). -/
def State.copyStop (s : State) (c : Nat) (q : CopyCmd) (a : Nat) (x : Xlat) : State :=
  match x with
  | .ok _ _ _ => s
  | .fault cause code level =>
    (s.setCopy c { q with st := .stopped, fault := some (BitVec.ofNat 64 a, if cause = cPageFault then level else 2) }).copyTrap c q
      cause a (if cause = cPageFault then code * 4096 else 0)

/-- 08 R234: a write of a command cannot be delivered: it stops, with a record. -/
def State.copyLost (s : State) (c : Nat) (q : CopyCmd) (a : Nat) (peer : Bool) : State :=
  (s.setCopy c { q with st := .stopped, fault := some (BitVec.ofNat 64 a, 2) }).copyTrap c q cMemPoison a
    (if peer then 0 else 2 ^ 14)

/-- 16 R347: the command's job is cancelled at its core. -/
def State.copyCancelled (s : State) (c : Nat) (q : CopyCmd) : Bool :=
  match s.launch? q.launch with
  | some l => (s.core c).cancelled.contains (q.ctx, l.lr.job.toNat)
  | none => false

/-- The completion word, then the end. A cancelled command stores none (16 R347). -/
def State.copyFinish (s : State) (c : Nat) (q : CopyCmd) : State :=
  if s.copyCancelled c q then s.copyGone c q
  else if q.cw = 0 then s.copyDone c q
  else if q.cwsp then
    match s.copyLocs c q 1 q.cw 8 .w with
    | .ok ((.scr c' al a, _) :: _) => let (s1, q1) := s.storeCw c q (some (c', al)) a
      s1.copyDone c q1
    | _ => s.copyDone c q
  else
    let sp : VSpace := .port q.ctx c .C
    s.served (copyName c) q.id (s.vaPchs sp q.cw 8 .w) fun s0 =>
      let s := s0.walkRange sp q.cw 8 .w
      match s0.copyLocs c q 0 q.cw 8 .w with
      | .error (a, x) => s.copyStop c q a x
      | .ok ((.mem pa _, _) :: _) =>
        if s.farLost pa then s.copyLost c q q.cw false
        else
          let (s1, q1) := s.storeCw c q none pa
          s1.copyDone c q1
      | .ok _ => s.copyDone c q

/-- 08 R230, 09 R247: the image becomes the tile's new version once nothing reads the old one. -/
def State.copyTile (s : State) (c : Nat) (q : CopyCmd) : State :=
  let k := (s.core c).ctx q.ctx
  if k.tileBusy (q.d 2) then (s.setCopy c { q with st := .tileWait }).post (.operandsConsumed c q.ctx (q.d 2))
  else
    let bytes := Bytes.pack 0 (q.buf.map Prod.fst)
    let q1 := { q with st := .running, placed := true }
    (((s.setCore c ((s.core c).setCtx q.ctx (k.putTile (q.d 2) bytes [] (pBad q.buf)))).setCopy c q1).copyFinish c q1).kickCopies c

/-- A command whose payload is written: a tile image is put in place, and writes to a peer wait for its acknowledgement (19 R371;
log 18). -/
def State.copyPayload (s : State) (c : Nat) (q : CopyCmd) : State :=
  if q.placed then s.copyFinish c q
  else if q.kind = .toTile then s.copyTile c q
  else if q.outsp ≠ 2 then s.copyFinish c q
  else if Config.freeBit s.draw then
    let q1 := { q with placed := true }
    (s.setCopy c q1).copyFinish c q1
  else (s.setCopy c { q with st := .peerWait }).post (.peerWriteUndeliverable c)

/-- The pseudo-channels that the ranges of a piece reach. -/
def State.unitPchs (s : State) (c : Nat) (q : CopyCmd) (u : CUnit) : List Nat :=
  let of (p : Perm) (r : Nat × Nat × Nat) : List Nat := if r.1 = 0 then s.vaPchs (.port q.ctx c .C) r.2.1 r.2.2 p else []
  u.srcs.flatMap (of .r) ++ u.dsts.flatMap (of .w)

/-- A piece of a command that is not specified which, or, its payload being written, its end. -/
def State.copyStep (s : State) (c : Nat) (q : CopyCmd) : State :=
  if q.total ≤ q.done then s.copyPayload c q
  else
    let same := q.inRects.any fun i => q.outRects.any fun o => i.sp = o.sp
    let ext := (if same then s.extent c q q.inRects .r else [], s.extent c q q.outRects .w)
    let (k, o) := q.nextAt s.draw
    let (u, n) := q.unitAt o q.boundary
    s.served (copyName c) q.id (s.unitPchs c q u) fun s =>
      match s.copyUnit c q ext u with
      | (s1, q1, .ok) => s1.setCopy c (q1.took k n)
      | (s1, q1, .lost a) => s1.copyLost c q1 a (q1.outsp = 2)
      | (s1, q1, .fault a x) => s1.copyStop c q1 a x

/-- 08 R229-R234: the copy engine takes a command one piece further; which command that may run goes next is not specified (log 2).
A cancelled one goes no further than its next split-granule boundary (16 R347). -/
def execCopyRun (core : Nat) (s : State) : Out :=
  .next (let cs := s.runnable core
    match cs[Config.copyOrder s.tick % (cs.length + 1)]?.orElse fun _ => cs.head? with
    | none => s
    | some q =>
      if s.copyCancelled core q && !q.midway then s.copyGone core q
      else
        let q1 := { q with st := .running, fault := none }
        ((s.setCopy core q1).copyStep core q1).kickCopies core)

/-- 09 R247, 03 R93: nothing reads a tile's old version any more: a COPYT that waits for it writes. -/
def execOperandsConsumed (core ctx tile : Nat) (s : State) : Out :=
  .next (match (s.core core).copyq.find? fun q => q.st = .tileWait && q.ctx = ctx && q.d 2 = tile with
    | none => s
    | some q => s.copyTile core q)

/-- 08 R234, 19 R371: writes of a command to a peer could not be delivered: it stops, with a record, whose faulting address, where no
byte is known, is the base of the command's first destination range (log 113). -/
def execPeerWriteUndeliverable (core : Nat) (s : State) : Out :=
  .next (match (s.core core).copyq.find? fun q => q.st = .peerWait with
    | none => s
    | some q => s.copyLost core q ((q.outRects.head?.map Rect.base).getD 0) true)

/-- 08 R234: a command is declared fatal: it and the later ones of its token end without their completion words, and the token is
marked failed. -/
def State.copyFatal (s : State) (c : Nat) (q : CopyCmd) (cause : BitVec 8) : State :=
  let x := s.core c
  let dead (k : CopyCmd) : Bool := k.tokId = q.tokId && k.tok = q.tok
  let s1 := s.setCore c { x with
    copyq := x.copyq.filter fun k => !dead k
    fibres := x.fibres.map fun kv => (kv.1, if kv.2.tokId = q.tokId then { kv.2 with failed := Tab.set kv.2.failed q.tok cause } else kv.2) }
  let gone := x.copyq.filter dead
  let s2 := gone.foldl (fun s k => s.addStores k.launch k.wrote) s1
  (gone.foldl (fun s k => s.checkInst c k.inst) (s2.tokensChanged c)).kickCopies c

/-- 08 R234: stopped commands resume. -/
def State.resumeCopies (s : State) (c : Nat) (f : CopyCmd → Bool) : State :=
  let x := s.core c
  (s.setCore c { x with copyq := x.copyq.map fun q => if q.st = .stopped && f q then { q with st := .queued, fault := none } else q }).kickCopies c

/-! ### Engine commands (08 R227) -/

/-- 02 R67: the thread's box is the single producer index of its tile. A fibre that shares lane blocks keeps its box beside its lane
mask (R38). -/
def State.isProducer (s : State) (t : Thread) : Bool :=
  match s.curCore, t.inst with
  | some c, some i =>
    match Tab.find? (s.core c).insts i, s.launch? t.launch with
    | some ti, some l =>
      t.frame.count = 1 && t.idxAt 0 = ⟨ti.box.x0 + l.lr.px, ti.box.y0 + l.lr.py, ti.box.z0 + l.lr.pz⟩
    | _, _ => false
  | _, _ => false

/-- 08 R227: the checks of an engine command, in order, then the command; with a guard false at every index, nothing. No
management core executes one (05 R120). -/
def State.engine (s : State) (g : Guard) (rights : Bool) (ops : Thread → Nat → List Opd) (k : State → State) : State :=
  if s.curCore.isNone then s.trapAll cIllegalClass
  else s.guarded g fun mask s =>
    match s.cur? with
    | none => s
    | some t =>
      let os := ops t s.draw
      if rights && !s.isProducer t then s.trapAll cCopyRights
      else if mask.isSome || os.any (fun o => !o.isU) then s.trapAll cNonuniform
      else if os.any Opd.pAll then s.poisonTrap none false
      else k s

/-- The registers of a group, each at 32 bits. -/
def groupOpds (n k : Nat) (t : Thread) (_ : Nat) : List Opd := (List.range k).map fun i => t.read32 (n + i)

/-- 08 R228, R233: the command that the descriptor in a group of 16 registers makes. Its reads see what its issuer has made visible
on their path, and what the token's earlier commands wrote. -/
def State.copyCmd (s : State) (c e : Nat) (t : Thread) (kind : CopyKind) (fmt : Fmt) (o : CopyO) : CopyCmd :=
  { id := s.fresh, kind := kind, fmt := fmt, insp := o.insp.toNat, outsp := o.outsp.toNat, cwsp := o.cwsp
    gran := o.gran.toNat, desc := (groupOpds o.grp.toNat 16 t 0).map fun v => v.u.setWidth 32, tokId := t.tokId
    tok := o.tok.toNat, ctx := t.ctx, launch := t.launch, inst := t.inst.getD 0, handle := handleOf false t.ctx c e
    tile := ((t.inst.bind (Tab.find? (s.core c).insts ·)).map TileInst.tile).getD 0, st := .queued, done := 0, gone := [], fault := none
    view := { View.empty with hb := listUnion (s.viewAt t t.low).hb (Tab.get t.tokHb [] o.tok.toNat), pv := (s.viewAt t t.low).pv }
    wrote := [], prior := Tab.get t.tokHb [] o.tok.toNat, buf := [], placed := false }

/-- 08 R228, R233: a copy command: its checks, then a place on its token, or a wait. -/
def State.copyIssue (s : State) (kind : CopyKind) (fmt : Fmt) (o : CopyO) : State :=
  s.engine o.g true (groupOpds o.grp.toNat 16) fun s =>
    match s.turn, s.cur? with
    | .fibre c e, some t =>
      let q := s.copyCmd c e t kind fmt o
      match s.copyBad t q with
      | some (cause, a, aux) => s.takeTrap cause (BitVec.ofNat 64 a) (BitVec.ofNat 64 aux) none false
      | none =>
        let x := s.core c
        if 4 ≤ (x.copyq.filter fun k => k.tokId = t.tokId && k.tok = q.tok).length then s.waitCur .wait .fifth
        else
          let s1 := { s.setCore c { x with copyq := x.copyq ++ [q] } with fresh := s.fresh + 1 }
          (s1.progressed.advance).kickCopies c
    | _, _ => s

def execCopy (o : CopyO) (s : State) : Out := .next (s.copyIssue .plain .n8 o)
def execCopyt (o : CopyO) (s : State) : Out := .next (s.copyIssue .toTile .n8 o)
/-- 08 R231: a format that COPYX and COPYC do not take is refused by the decoder. -/
def execCopyx (o : CopyFO) (s : State) : Out := .next (s.copyIssue .expand o.fmt o.c)
def execCopyc (o : CopyFO) (s : State) : Out := .next (s.copyIssue .compact o.fmt o.c)

end Sys2Proof.Machine
end

