-- ==== Sys2Proof/Machine/Swap.lean ====
section
/-!
DEFINITION. Swapping fibres out and in (02 R54, 08 R239, 16 R339, 18 R367, R368).
-/

namespace Sys2Proof.Machine

open Sys2Proof

/-- 08 R239: what a WAITC carries: the pairs its mask names inside the window. Other registers, all predicates and the latches
become undefined, and with no E value and every lane active the fibre is a range fibre again. -/
def Thread.carryOf (t : Thread) (draw : Nat) (m : BitVec 32) : Thread :=
  let dead := (List.range t.window).filter fun n => !m.getLsbD (n / 2)
  let regs := Tab.setAll t.regs (undefRegs draw t.uid dead)
  let ks := List.range 24
  let preds : Tab Pred := ks.map fun n => (n, if Config.freeBit (draw * 64 + n) then Pred.t else Pred.f)
  let t1 := { t with regs := regs, preds := preds, undefP := ks, latches := [], farMarks := t.farMarks.filter fun n => n < 64 && m.getLsbD (n / 2) }
  let lanes := regs.any (fun kv => kv.2.isE) || (t.rs ++ t.slot).any fun e => match e with
    | .lanes _ => true
    | .addr _ => false
  if t.expanded && !lanes && t.active.length = t.exBox.count then
    { t1 with expanded := false, box := t.exBox, active := [], blocks := [] }
  else t1

/-- 16 R339: the bytes of a swap record: `ns` the even registers of the pairs carried; predicates and latches where `all`. -/
def Thread.swapBytes (t : Thread) (ns : List Nat) (all : Bool) : Nat :=
  let nb := t.blocks.length
  let pairs := ns.foldl (fun acc n => acc + 32 + (if (t.reg n).isE || (t.reg (n + 1)).isE then 256 * nb else 0)) 0
  let preds := if all then (List.range 24).foldl (fun acc n => acc + 8 + (match t.pred n with
    | .m _ => 4 * nb
    | _ => 0)) 0 else 0
  let latches := if all then t.latches.foldl (fun acc kv => acc + 32 + (match kv.2.v with
    | .e _ => 256 * nb
    | _ => 0)) 0 else 0
  let stack := (t.rs ++ t.slot).foldl (fun acc e => acc + (match e with
    | .lanes _ => 256 * nb
    | .addr _ => 0)) 0
  64 + pairs + preds + latches + stack

/-- Bytes of the context's pool that nothing has reserved or drawn. -/
def State.poolFree (s : State) (ctx : Nat) : Nat :=
  match s.ctx? ctx with
  | some k => k.pool - k.poolUsed
  | none => 0
def State.drawPool (s : State) (ctx n : Nat) : State :=
  match s.ctx? ctx with
  | some k => s.setCtx ctx { k with poolUsed := k.poolUsed + n }
  | none => s
def State.returnPool (s : State) (ctx n : Nat) : State :=
  match s.ctx? ctx with
  | some k => s.setCtx ctx { k with poolUsed := k.poolUsed - n }
  | none => s

/-- The record of a fibre's swap-out and where it is drawn from; none where it cannot be had, and while a memory instruction of the
fibre has not completed, whose record names its registers (log 99). `wc`: by SWAP_DELAY, with the carry
mask and the tile's reserved area; else from the unreserved rest. -/
def State.swapRecord (s : State) (c : Nat) (t : Thread) (wc : Bool) : Option SwapRec :=
  let mask := match t.why with
    | .waitc m _ _ _ => some m
    | _ => none
  let pairs := (List.range (t.window / 2)).filter fun i => match mask with
    | some m => m.getLsbD i
    | none => true
  let n := t.swapBytes (pairs.map (2 * ·)) mask.isNone
  let th := match mask with
    | some m => t.carryOf s.draw m
    | none => t
  let carry := match s.launch? t.launch with
    | some l => l.lr.carry
    | none => 0
  let own := match t.inst.bind (Tab.find? (s.core c).insts ·) with
    | some ti => wc && n ≤ ti.reserve && !ti.reserveUsed
    | none => false
  if (s.core c).anyToken t.tokId || !(s.core c).memDone t.uid || (wc && carry < pairs.length) then none
  else if own then some ⟨th, n, true, mask.isSome⟩
  else if n ≤ s.poolFree t.ctx then some ⟨th, n, false, mask.isSome⟩
  else none

/-- 08 R239: the fibre enters SWAPPED; its form window, lane blocks and lane rows are free. -/
def State.swapOut (s : State) (c e : Nat) (t : Thread) (r : SwapRec) : State :=
  let s1 := if r.fromReserve then
      (match t.inst with
        | some i => s.modInst c i fun ti => { ti with reserveUsed := true }
        | none => s)
    else s.drawPool t.ctx r.bytes
  let x := s1.core c
  (s1.setCore c { x with
    swaps := Tab.set x.swaps e r
    fibres := Tab.set x.fibres e t.placeholder }).resourcesFreed c

/-- A swapped fibre comes back as its record has it, if the core has what it takes; its record returns to where it came from. -/
def State.swapIn (s : State) (c e : Nat) (r : SwapRec) : Option State :=
  let x := s.core c
  let n := if r.th.expanded then (r.th.exBox.count + 31) / 32 else 0
  let free := ((List.range (Config.laneBlocks + n)).filter (!x.usedBlocks.contains ·)).take n
  let x1 := { x with fibres := Tab.set x.fibres e { r.th with blocks := free }, swaps := Tab.del x.swaps e }
  if !x1.fits (0, 0, 0, 0) then none
  else
    let s1 := s.setCore c x1
    some (if r.fromReserve then (match r.th.inst with
        | some i => s1.modInst c i fun ti => { ti with reserveUsed := false }
        | none => s1)
      else s1.returnPool r.th.ctx r.bytes)

/-- 02 R54: the fibre that the core would swap out for want of resources: the longest in WAIT whose record can be had. Which states
are wait states R54 does not list: every state but READY and RESOURCE_WAIT counts as one, PARKED among them (log 96). -/
def State.swapChoice (s : State) (c : Nat) : Option (Nat × Thread × SwapRec) :=
  let x := s.core c
  let waits (t : Thread) : Bool := t.st = .wait && (match t.why with
    | .waita _ | .promote _ _ _ | .promoted _ _ | .waitc _ _ _ _ | .sbar _ | .vote _ _ | .rdsum | .rdzv => true
    | _ => false)
  if x.threads.all (fun t => t.st ≠ .resourceWait) || x.threads.any (fun t => t.st = .ready) then none
  else x.fibres.foldl (fun (best : Option (Nat × Thread × SwapRec)) kv =>
    if !waits kv.2 || (match best with
      | some b => b.2.1.since ≤ kv.2.since
      | none => false) then best
    else match s.swapRecord c kv.2 false with
      | some r => some (kv.1, kv.2, r)
      | none => best) none

/-- 02 R54: where every fibre that does not wait is in RESOURCE_WAIT, the core swaps one out. -/
def execResourceSwapOut (core : Nat) (s : State) : Out :=
  .next (match s.swapChoice core with
    | some (e, t, r) => s.swapOut core e t r
    | none => s)

/-- 08 R239: a fibre in WAITC is due to be swapped out. With a busy token, or memory instructions that have not completed (log 99), it is
looked at again later; where its record cannot be had it keeps waiting. -/
def State.swapDue (s : State) (c e : Nat) : State :=
  match s.fibre? c e with
  | none => s
  | some t => match t.st, t.why with
    | .wait, .waitc _ _ _ _ =>
      if (s.core c).anyToken t.tokId || !(s.core c).memDone t.uid then s.post (.swapDelayExpiry c e)
      else match s.swapRecord c t true with
        | some r => s.swapOut c e t r
        | none => s
    | _, _ => s

/-- 08 R239: a fibre has waited SWAP_DELAY in WAITC. -/
def execSwapDelayExpiry (core entry : Nat) (s : State) : Out := .next (s.swapDue core entry)

/-- 18 R367: SWAP_DELAY of a context. -/
def State.swapDelay (s : State) (ctx : Nat) : BitVec 32 :=
  match s.ctx? ctx with
  | some k => k.swapDelay
  | none => 0

/-! ### WAITC (08 R238) -/

/-- What a look at a counter's home finds. -/
inductive Counter where
  | zero (hb : List Nat)
  | nonzero
  | bad
deriving DecidableEq, Repr

/-- 08 R238, 18 R368, 03 R85: the counter at a physical address as its home has it, or has had it at some moment from the store
`since` on; with what its zero lets a reader acquire. A poisoned zero is none (08 R226). What the line held before it was poisoned,
or its pseudo-channel left service, counts (21 R387, R392). -/
def State.counterAt (s : State) (agent pa since : Nat) : Counter :=
  let cov := s.log.filter fun w => w.covers none pa 8 || w.covers (some lostSpace) pa 8
  let later := (cov.takeWhile fun w => since ≤ w.id).length
  let at_ (k : Nat) : Got := Got.join ((List.range 8).map fun i => s.versionAt none cov (pa + i) k)
  let dead := s.deadAt pa 8
  let was := (List.range (later + 1)).find? fun k => leNat (at_ k).bytes = 0 && !(at_ k).bad && (0 < later || !dead)
  match was with
  | some k => .zero (acquired (at_ k).rels 1 agent none)
  | none => if (at_ 0).bad || dead then .bad else .nonzero

/-- WAITC of fibre (c, e), which stands after its word: it goes on, waits, or faults. It waits on the counter's physical address as it
is translated here: a later change of the page is not followed (log 103). -/
def State.waitcOn (s : State) (c e : Nat) (pc : Word) (r : FbRec) (a : Word) (carry : BitVec 32) : State :=
  match s.fibre? c e with
  | none => s
  | some t =>
    let fail (cause : BitVec 8) (code level : Nat) (far : Option (Nat × Bool)) : State :=
      s.fibreFaults c e pc [⟨t.low, cause, a, code, level, far⟩] r
    let sp : VSpace := .port t.ctx c .F
    match s.xlat sp a.toNat .r with
    | .fault cause code level => fail cause code level none
    | .ok pa _ leaf =>
      if s.farLost pa then fail cMemPoison 0 0 (some (farPort pa, leafRpl leaf))
      else
        let s1 := (s.walkRange sp a.toNat 8 .r).demand pa 8
        match s1.counterAt c pa s.nextId with
        | .bad => s1.fibreFaults c e pc [⟨t.low, cMemPoison, a, 0, 0, none⟩] r
        | .zero hb => s1.modFibre c e fun t => { t.gain hb with st := .ready, why := .none }
        | .nonzero =>
          let s2 := s1.modFibre c e fun t => { t with st := .wait, why := .waitc carry pa a s.nextId, since := s.tick }
          (if s.swapDelay t.ctx = 0 then s2.swapDue c e else s2.post (.swapDelayExpiry c e)).post (.waitcResume c e)

/-- The field-book record of an engine command's own access, by the lowest index. -/
def Thread.fbEngine (t : Thread) (e acc : Nat) (a : Word) (data : List FVal) : FbRec :=
  { t.fbTemplate e acc 7 t.pc t.word with addr := .u a, data := data }

def execWaitc (o : WaitcO) (s : State) : Out :=
  .next (s.engine o.g false (fun t d => [t.src d o.a true, t.src d o.b false]) fun s =>
    match s.turn, s.cur? with
    | .fibre c e, some t =>
      let a := (t.src s.draw o.a true).u
      let m := (t.src s.draw o.b false).u
      if a.toNat % 8 ≠ 0 then s.takeTrap cMisaligned a 0 none false
      else s.curServed (fun s => s.vaPchs (.port t.ctx c .F) a.toNat 8 .r) fun s =>
        (s.setFibre c e t.progressed.advance).waitcOn c e t.pc (t.fbEngine e 6 a [.u m]) a (m.setWidth 32)
    | _, _ => s)

/-- 08 R239, 18 R368: a counter is looked at for a fibre in WAITC, and a swapped fibre whose wait has ended is resumed on its core,
once the core has what it takes. A poisoned counter traps MEM_POISON. -/
def execWaitcResume (core entry : Nat) (s : State) : Out :=
  .next (
    let again (s : State) : State := s.post (.waitcResume core entry)
    let poison (va : Word) (s : State) : State := match s.fibre? core entry with
      | some t => s.fibreFaults core entry (t.pc - 8) [⟨t.low, cMemPoison, va, 0, 0, none⟩] (t.fbTemplate entry 6 7 0 0)
      | none => s
    let goOn (t : Thread) : Thread := { t with st := .ready, why := .none }
    -- a look at the counter for thread t, and the end of its wait
    let look (t : Thread) (pa : Nat) (va : Word) (from_ : Nat) (back : Thread → State → (State → State) → State) : State :=
      if s.heldAt pa 8 then again s
      else
        let s := s.demand pa 8
        match s.counterAt core pa from_ with
        | .zero hb => back (goOn (t.gain hb)) s id
        | .nonzero => again s
        | .bad => back (goOn t) s (poison va)
    match Tab.find? (s.core core).swaps entry, s.fibre? core entry with
    | some r, _ =>
      let back (t : Thread) (s : State) (k : State → State) : State := match s.swapIn core entry { r with th := t } with
        | some s1 => (k s1).resourcesFreed core
        | none => again s
      (match r.th.st, r.th.why with
        | .wait, .waitc _ pa va from_ => look r.th pa va from_ back
        | .wait, _ => s
        | _, _ => back r.th s id)
    | none, some t => (match t.st, t.why with
      | .wait, .waitc _ pa va from_ => look t pa va from_ fun t s k => (k (s.setFibre core entry t)).resourcesFreed core
      | _, _ => s)
    | none, none => s)

end Sys2Proof.Machine
end

