-- ==== Sys2Proof/Machine/Engine.lean ====
section
/-!
DEFINITION. FORK, RDZV, LAUNCH and CANCEL; the start of a matrix stream (08 R235-R240, 02 R68).
-/

namespace Sys2Proof.Machine

open Sys2Proof

/-! ### FORK and RDZV -/

/-- The number of registers in a FORK's group (08 R235). -/
def forkRegs (o : ForkO) : Nat := if o.cnt = 0#3 then 0 else 2 ^ o.cnt.toNat

/-- The pairs a FORK copies into m0 and onward. -/
def forkOpds (o : ForkO) (t : Thread) : List Opd := (List.range (forkRegs o / 2)).map fun i => t.read64 (o.b.toNat + 2 * i)

/-- Let the core's sequencer begin the next stream. -/
def State.postStream (s : State) (c : Nat) : State :=
  if s.agenda.contains (.streamStart c) then s else s.post (.streamStart c)

/-- 08 R235, 02 R68: one outstanding FORK for each tile; a second waits. -/
def execFork (o : ForkO) (s : State) : Out :=
  .next (s.engine o.g true (fun t d => t.src d o.a true :: forkOpds o t) fun s =>
    match s.turn, s.cur? with
    | .fibre c e, some t =>
      if (s.core c).forkOut t.inst then s.waitCur .wait .fork
      else
        let i := t.inst.getD 0
        let r : ForkReq :=
          { inst := i, ctx := t.ctx, launch := t.launch, entry := (t.src s.draw o.a true).u, args := (forkOpds o t).map Opd.u
            handle := handleOf false t.ctx c e, tile := ((Tab.find? (s.core c).insts i).map TileInst.tile).getD 0 }
        let s1 := s.modInst c i fun ti => { ti with fork := some false, joinHb := [] }
        let x := s1.core c
        (((s1.setCore c { x with forkq := x.forkq ++ [r] }).progressed).advance).postStream c
    | _, _ => s)

/-- 08 R235: a stream as it begins. `v`: what the earlier streams of its sequencer have done and read (13 R305). -/
def ForkReq.start (r : ForkReq) (uid : Nat) (gen : BitVec 8) (v : View) : Stream :=
  { th := { Thread.blank .stream with
      uid := uid, ctx := r.ctx, gen := gen, launch := r.launch, inst := some r.inst, pc := r.entry, view := v
      regs := (List.range r.args.length).map fun i => (i, Reg.u (r.args.getD i 0) false) }
    inst := r.inst, handle := r.handle, tile := r.tile, plan := [], snap := none, plainTo := none, fault := none, mma := none }

/-- 02 R68: the sequencer takes the next FORK in issue order, where it runs and holds no stream. -/
def execStreamStart (core : Nat) (s : State) : Out :=
  .next (let x := s.core core
    match x.stream, x.forkq with
    | none, r :: rest =>
      if !s.enginesRun core || x.stopped.contains r.ctx then s
      else { s.setCore core { x with forkq := rest, stream := some (r.start s.fresh (s.gen r.ctx) x.xview) } with fresh := s.fresh + 1 }
    | _, _ => s)

/-- 08 R236: in class 1, the join point of the stream; by a fibre, a wait for it, which none outstanding ends at once. -/
def execRdzv (o : G) (s : State) : Out :=
  .next (match s.turn with
    | .stream c => s.guarded o.g fun _ s =>
        match (s.core c).stream with
        | none => s
        | some x =>
          let s1 := (s.completeOps c x.th.ctx).progressed
          let hb := s.hbAll x.th
          ((s1.modInst c x.inst fun ti => { ti with fork := some true, joinHb := hb }).wakeRdzv c x.inst hb).advance
    | _ => s.engine o.g false (fun _ _ => []) fun s =>
        match s.turn, s.progressed.cur? with
        | .fibre c e, some t =>
          (match (t.inst.bind (Tab.find? (s.core c).insts ·)) with
            | some ti => match ti.fork with
              | some false => (s.setFibre c e t).waitCur .wait .rdzv
              | some true => s.setFibre c e (t.gain ti.joinHb).advance
              | none => s.setFibre c e (t.gain ti.joinHb).advance
            | none => s.setFibre c e t.advance)
        | _, _ => s)

/-! ### LAUNCH (08 R237) -/

/-- The record enters the queue, or the fibre, which stands after its word, waits in LAUNCH_WAIT. -/
def State.launchRec (s : State) (c e : Nat) (o : LaunchO) (r : PendRec) : State :=
  if (s.core c).pendq.length < 4 then
    (s.modFibre c e fun t => { (if o.nb then t.setPred o.p.toNat .t else t) with st := .ready, why := .none }).enqueue c r
  else if o.nb then s.modFibre c e fun t => { t.setPred o.p.toNat .f with st := .ready, why := .none }
  else s.modFibre c e fun t => { t with st := .launchWait, why := .launch r, since := s.tick }

/-- LAUNCH by fibre (c, e), which follows the object loads that have completed (14 R326), standing after its word at `pc`: read, check, enter. A record that fails its checks traps with the
resume point that `back` sets. -/
def State.launchOn (s : State) (c e : Nat) (pc : Word) (fb : FbRec) (a : Word) (o : LaunchO) (back : Thread → Thread) : State :=
  match s.fibre? c e with
  | none => s
  | some t =>
    let sp : VSpace := .port t.ctx c .F
    match s.xlatRange sp a.toNat 128 .r with
    | .error (va, .fault cause code level) => s.fibreFaults c e pc [⟨t.low, cause, BitVec.ofNat 64 va, code, level, none⟩] fb
    | .error (_, .ok _ _ _) => s
    | .ok ps =>
      let s0 := s.walkRange sp a.toNat 128 .r
      let s1 := s0.demandPieces ps (s0.readPieces (s0.viewAt t t.low) .F ps t.low)
      if let some p := ps.find? fun p => s1.farLost p.pa then
        s1.fibreFaults c e pc [⟨t.low, cMemPoison, a, 0, 0, some (farPort p.pa, p.rpl)⟩] fb
      else
        let v := s1.viewAt t t.low
        let g := s1.readPieces v .F ps t.low
        if g.bad then s1.fibreFaults c e pc [⟨t.low, cMemPoison, a, 0, 0, none⟩] fb else
        let s2 := s1.setFibre c e (s1.modViewAt t t.low fun v => v.afterLoad g c none none)
        match s2.ctx? t.ctx with
        | none => s2
        | some k =>
          if recordOk k g.bytes then
            s2.launchRec c e o ⟨parseRecord g.bytes, t.ctx, s2.gen t.ctx, 0, listUnion k.loadHb v.hb, v.pv⟩
          else (s2.modFibre c e back).pushFaults c e [t.record c e cLaunchRecord pc 0 0 .none t.places none] .parked

/-- 08 R237. A LAUNCH.NB that finds the queue full counts as R71's progress event too: what R237 calls no other effect is of the
submission (log 81). -/
def execLaunch (o : LaunchO) (s : State) : Out :=
  .next (s.engine o.g false (fun t d => [t.src d o.a true]) fun s =>
    match s.turn, s.cur? with
    | .fibre c e, some t =>
      let a := (t.src s.draw o.a true).u
      if a.toNat % 128 ≠ 0 then s.takeTrap cMisaligned a 0 none false
      else s.curServed (fun s => s.vaPchs (.port t.ctx c .F) a.toNat 128 .r) fun s =>
        (s.setFibre c e t.progressed.advance).launchOn c e t.pc (t.fbEngine e 5 a []) a o fun _ => t
    | _, _ => s)

/-- 16 R336: the oldest fibre in LAUNCH_WAIT on the core enters the queue when an entry is free. A record whose context has been reset
since is discarded (R343). -/
def State.launchWaiter1 (s : State) (c : Nat) : State :=
  if 4 ≤ (s.core c).pendq.length then s
  else
    let ws := (s.core c).fibres.filter fun kv => kv.2.st = .launchWait
    match ws.foldl (fun (b : Option (Nat × Thread)) kv => match b with
      | some w => if w.2.since ≤ kv.2.since then some w else some kv
      | none => some kv) none with
    | some (e, t) => (match t.why with
      | .launch r =>
        let s1 := s.setFibre c e { t with st := .ready, why := .none }
        (if s.gen r.ctx = r.gen then s1.enqueue c r else s1).resourcesFreed c
      | _ => s)
    | none => s

/-- The same for every waiter that finds an entry. -/
def State.launchWaiter (s : State) (c : Nat) : State :=
  ((s.core c).fibres.filter fun kv => kv.2.st = .launchWait).foldl (fun s _ => s.launchWaiter1 c) s

/-! ### CANCEL (08 R240, 16 R347) -/

/-- 16 R344: position 0 is the die-0 dispatcher, 1 to 96 cores 0 to 95, 97 the die-1 dispatcher, 98 to 193 cores 96 to 191. -/
abbrev numPositions : Nat := 194
def posOfCore (c : Nat) : Nat := if c < 96 then c + 1 else c + 2
def coreOfPos (p : Nat) : Option Nat :=
  if p = 0 || p = 97 then none else if p < 97 then some (p - 1) else some (p - 2)
def dieOfPos (p : Nat) : Option Nat := if p = 0 then some 0 else if p = 97 then some 1 else none

/-- 08 R240: the cancel bit sets out to every position; the fibre, standing after its word, goes on when all have acknowledged. -/
def execCancel (o : JmpO) (s : State) : Out :=
  .next (s.engine o.g false (fun t d => [t.src d o.a false]) fun s =>
    match s.turn, s.cur? with
    | .fibre c e, some t =>
      let job := (t.src s.draw o.a false).u.toNat
      let ps := List.range numPositions
      let s1 := s.setFibre c e { t.progressed.advance with why := .cancel job ps, since := s.tick }
      ps.foldl (fun s p => s.post (.cancelBroadcast p t.ctx job (s.gen t.ctx).toNat)) s1
    | _, _ => s)

end Sys2Proof.Machine
end

