-- ==== Sys2Proof/Machine/Matrix.lean ====
section
/-!
DEFINITION. The matrix engine: tile configuration, tile moves, tile arithmetic, MMA, MSTAT (09 R241-R274, R403).
-/

namespace Sys2Proof

/-- The flags of MMA (05 R132). -/
def MmaO.flag (o : MmaO) (i : Nat) : Bool := o.flags.getLsbD i
def MmaO.afmt (o : MmaO) : BitVec 4 := o.flags.extractLsb' 1 4

end Sys2Proof

namespace Sys2Proof.Machine

open Sys2Proof

/-! ### Admission (09 R247) -/

/-- A tile instruction of the stream of the turn, under its guard. Nothing else executes one (05 R136). -/
def State.onStream (s : State) (g : Guard) (k : Nat → Stream → State → State) : State :=
  match s.turn with
  | .stream c => s.guarded g fun _ s => match (s.core c).stream with
      | some x => k c x s
      | none => s
  | _ => s.trapAll cIllegalClass

/-- A tile instruction is admitted: `k` is the context's state with its effect, `o` what is pending until it completes. -/
def State.admitOp (s : State) (c ctx : Nat) (k : CoreCtx) (o : TileOp) : State :=
  let uid := (s.cur?.map Thread.uid).getD 0
  (s.setCore c ((s.core c).setCtx ctx { k with ops := k.ops ++ [{ o with uid := uid }] })).post (.tileInstructionCompletion c ctx)

def tileOp (reads : List Nat) (writes : Option Nat) : TileOp := ⟨reads, writes, false, false, false, false, 0⟩

/-- An m register of the stream. -/
def Stream.m (x : Stream) (n : Nat) : Word := (x.th.read64 n).u

/-- 09 R274, R247: the earliest admitted tile instruction completes; what waited for that goes on: a COPYT, a stream at a header, which
stays where it is stopped there, and the fibres whose headers wait (05 R118). -/
def execTileInstructionCompletion (core ctx : Nat) (s : State) : Out :=
  .next (
    let s1 := s.completeOne core ctx
    let k := (s1.core core).ctx ctx
    let s2 := (s1.core core).copyq.foldl (fun s q =>
      if q.st = .tileWait && q.ctx = ctx && !k.tileBusy (q.d 2) && !s.agenda.contains (.operandsConsumed core ctx (q.d 2)) then
        s.post (.operandsConsumed core ctx (q.d 2)) else s) s1
    let s3 := s2.tokensChanged core
    match (s3.core core).stream with
    | some x => if x.th.st = .wait && x.th.why = .header && !s3.streamHolds core x then s3.asTurn (.stream core) State.headerWaits else s3
    | none => s3)

/-! ### TCFG (09 R249, R250) -/

/-- 09 R249: the configuration block, if it may be set. -/
def TCfg.ofBlock (w : Word) : Option TCfg :=
  let acc := w.getLsbD 3
  let bf (i : Nat) : BitVec 4 := w.extractLsb' (12 + 4 * i) 4
  let ok (f : BitVec 4) : Bool := if acc then f = 0#4 || f = 4#4 else [8#4, 9#4, 12#4, 13#4, 14#4].contains f
  if w.extractLsb' 28 36 ≠ 0#36 || w.extractLsb' 4 8 ≠ 0#8 || !(List.range 4).all (fun i => ok (bf i)) then none
  else some ⟨bf 0, bf 1, bf 2, bf 3, acc, w.getLsbD 2, w.getLsbD 1, w.getLsbD 0⟩

def execTcfg (o : TcfgO) (s : State) : Out :=
  .next (s.onStream o.g fun c x s =>
    match TCfg.ofBlock (x.m o.msk.toNat) with
    | none => s.trapAll cMatrixConfig
    | some f =>
      let s1 := s.completeOps c x.th.ctx
      let k := (s1.core c).ctx x.th.ctx
      let k1 := (List.range 128).foldl (fun k n => k.putTile n [] [] false) k
      (s1.setCore c ((s1.core c).setCtx x.th.ctx { k1 with cfg := f, cfgSet := true, hold := none, resid := [] })).advance)

/-! ### TLOAD, TSTORE, TSCL (09 R251-R254) -/

/-- Bytes of a range in a space of the current stream: pieces with their lengths. -/
def State.tileLocs (s : State) (t : Thread) (sp : Bool) (a n : Nat) (p : Perm) : Except (Nat × Xlat) (List (CLoc × Nat)) :=
  if sp then
    match s.scratchOf t with
    | some (c, al, _) => .ok [(.scr c al a, n)]
    | none => .ok []
  else (s.xlatRange (s.curSpace t) a n p).map fun l => l.map fun x => (CLoc.mem x.pa x.home, x.n)

/-- Go on with `k` where no pseudo-channel holds the stream's access to some rows; the walks for them are made (21 R392). -/
def State.rowsServed (s : State) (t : Thread) (sp : Bool) (p : Perm) (rows : List (Nat × Nat)) (k : State → State) : State :=
  if sp then k s
  else s.curServed (fun s => rows.flatMap fun r => s.vaPchs (s.curSpace t) r.1 r.2 p) fun s =>
    k (rows.foldl (fun s r => s.walkRange (s.curSpace t) r.1 r.2 p) s)

/-- Every row's pieces, or the lowest byte whose page failed to translate (09 R253). -/
def State.rowLocs (s : State) (t : Thread) (sp : Bool) (p : Perm) (rows : List (Nat × Nat)) :
    Except (Nat × Xlat) (List (List (CLoc × Nat))) :=
  rows.foldr (fun r acc =>
    match s.tileLocs t sp r.1 r.2 p, acc with
    | .ok l, .ok ls => .ok (l :: ls)
    | .ok _, .error e => .error e
    | .error e, .ok _ => .error e
    | .error e, .error e' => if e'.1 < e.1 then .error e' else .error e) (.ok [])

/-- 09 R253: a failed translation parks the stream at the instruction, to be resumed by what covers the address; what is no
PAGE_FAULT is of its own 64 KiB page (07 R208). -/
def State.streamFault (s : State) (c : Nat) (a : Nat) (x : Xlat) : State :=
  match x with
  | .ok _ _ _ => s
  | .fault cause code level =>
    let s1 := s.agentFault ⟨0, cause, BitVec.ofNat 64 a, code, level, none⟩
    match (s1.core c).stream with
    | some y => s1.setCore c { s1.core c with stream := some { y with
        fault := some (BitVec.ofNat 64 a, if cause = cPageFault then level else 2) } }
    | none => s1

/-- Read pieces on the X path: the bytes with their poison marks. -/
def State.xRead (s : State) (ls : List (CLoc × Nat)) : State × List PByte :=
  ls.foldl (fun (acc : State × List PByte) l =>
    let (s, bs) := acc
    match s.cur?, l.1 with
    | some t, .mem pa home =>
      let s1 := s.demandGot pa l.2 (s.readChoice t.view .X home none pa l.2 0 none)
      let g := s1.readChoice t.view .X home none pa l.2 0 none
      (s1.setCur { t with view := t.view.afterLoad g s.curAgent none none },
        bs ++ (List.range l.2).map fun i => (g.bytes.getD i 0#8, s.farLost pa || g.bads.getD i false))
    | some t, .scr c' al a =>
      let g := s.readChoice t.view .X false (some (c', al)) a l.2 0 none
      (s.setCur { t with view := t.view.afterLoad g s.curAgent none none },
        bs ++ (List.range l.2).map fun i => (g.bytes.getD i 0#8, g.bads.getD i false))
    | _, _ => acc) (s, [])

/-- Write pieces on the X path, after the earlier writes of the core's streams (13 R305). A store to a far-memory port that is down is not acknowledged (17 R363). -/
def State.xWrite (s : State) (ls : List (CLoc × Nat)) (bs : List PByte) : State :=
  (ls.foldl (fun (acc : State × List PByte) l =>
    let (s, bs) := acc
    let d := bs.take l.2
    let put (t : Thread) (sp : Space) (a : Nat) : State :=
      let (s1, v) := s.storeMo (fun w => w.path = .X && w.core = s.curAgent) false t.payer t.view sp a (d.map Prod.fst)
        (d.map Prod.snd) .X s.curAgent none
      s1.setCur { t with view := v }
    (match s.cur?, l.1 with
      | some t, .mem pa _ => if s.locLost l then s else put t none pa
      | some t, .scr c' al a => put t (some (c', al)) a
      | _, _ => s, bs.drop l.2)) (s, bs)).1

/-- 17 R363: stores of the core's stream to a lost far-memory link push a record, and the stream goes on. -/
def State.streamNotice (s : State) (c : Nat) (x : Stream) (a : Nat) : State :=
  s.pushTrap (clusterOf c)
    { seq := 0, peeled := false, kind := 1, cause := cMemPoison, handle := x.handle, pc := x.th.pc, addr := BitVec.ofNat 64 a
      aux := 2 ^ 14, index := .none, disp := 0, rule := 0, tile := x.tile, core := c, uid := 0, who := [], fbv := none
      replay := false }

/-- 09 R251: a tile descriptor with the bytes of a row. -/
structure TDesc where
  addr  : Nat
  rows  : Nat
  cols  : Nat
  pitch : Int
  bytes : Nat
deriving DecidableEq, Repr

def TDesc.of (lo hi : Word) (esz : Nat) : TDesc :=
  let cols := (hi.extractLsb' 40 7).toNat
  ⟨lo.toNat, (hi.extractLsb' 32 7).toNat, cols, (hi.extractLsb' 0 32).toInt, if esz = 3 then cols / 2 else cols * 2 ^ esz⟩

/-- The rows moved: address and length. -/
def TDesc.lines (d : TDesc) : List (Nat × Nat) :=
  if d.bytes = 0 then [] else (List.range d.rows).map fun (i : Nat) => (((d.addr + d.pitch * (i : Int)) % 2 ^ 64).toNat, d.bytes)

/-- 09 R252: the checks in order: cause and address. -/
def State.tmemBad (s : State) (t : Thread) (o : TmemO) (hi : Word) (d : TDesc) : Option (BitVec 8 × Nat × Nat) :=
  let al := if o.esz = 3#2 then 16 else 2 ^ o.esz.toNat
  if hi.extractLsb' 47 17 ≠ 0#17 || hi.getLsbD 39 then some (cMatrixConfig, 0, 0)
  else if 32 < d.rows || 32 < d.cols then some (cTileRange, 0, 0)
  else if o.esz = 3#2 && d.cols ≠ 0 && d.cols ≠ 32 then some (cMatrixConfig, 0, 0)
  else if d.addr % al ≠ 0 || d.pitch % al ≠ 0 then some (cMisaligned, d.addr, 0)
  else if d.lines.isEmpty then none
  else (s.rectBad t ⟨if o.sp then 1 else 0, d.addr, d.bytes, d.pitch, d.rows, 0, 1⟩).map fun ca => (ca.1, d.addr, ca.2)

def State.tmemTrap (s : State) (b : BitVec 8 × Nat × Nat) : State :=
  s.takeTrap b.1 (BitVec.ofNat 64 b.2.1) (BitVec.ofNat 64 b.2.2) none false

def execTload (o : TmemO) (s : State) : Out :=
  .next (s.onStream o.g fun c x s =>
    let hi := x.m (o.msk.toNat + 1)
    let d := TDesc.of (x.m o.msk.toNat) hi o.esz.toNat
    match s.tmemBad x.th o hi d with
    | some b => s.tmemTrap b
    | none => s.rowsServed x.th o.sp .r d.lines fun s =>
      match s.rowLocs x.th o.sp .r d.lines with
      | .error (a, f) => s.streamFault c a f
      | .ok rows =>
        let (s1, image, bad) := (List.range 32).foldl (fun (acc : State × List Byte × Bool) i =>
          let (s1, bs) := acc.1.xRead (rows.getD i [])
          (s1, acc.2.1 ++ bs.map Prod.fst ++ List.replicate (128 - bs.length) 0#8, acc.2.2 || pBad bs)) (s, [], false)
        let k := (s1.core c).ctx x.th.ctx
        (s1.admitOp c x.th.ctx (k.putTile o.t.toNat (Bytes.pack 0 image) [] bad) (tileOp [] (some o.t.toNat))).advance)

def execTstore (o : TmemO) (s : State) : Out :=
  .next (s.onStream o.g fun c x s =>
    let hi := x.m (o.msk.toNat + 1)
    let d := TDesc.of (x.m o.msk.toNat) hi o.esz.toNat
    match s.tmemBad x.th o hi d with
    | some b => s.tmemTrap b
    | none => s.rowsServed x.th o.sp .w d.lines fun s =>
      match s.rowLocs x.th o.sp .w d.lines with
      | .error (a, f) => s.streamFault c a f
      | .ok rows =>
        let k := (s.core c).ctx x.th.ctx
        let t := k.tile o.t.toNat
        let s0 := (List.range rows.length).foldl (fun s i =>
          s.xWrite (rows.getD i []) ((Bytes.read t.bytes (128 * i) d.bytes).map fun b => (b, t.poison))) s.progressed
        let lost := (d.lines.zip rows).filter fun r => r.2.any s.locLost
        let s1 := match listMin (lost.map fun r => r.1.1) with
          | some a => s0.streamNotice c x a
          | none => s0
        (s1.admitOp c x.th.ctx ((s1.core c).ctx x.th.ctx) (tileOp [o.t.toNat] none)).advance)

/-- 09 R254: what TSCL traps before any effect: its cause, address and code. -/
def State.tsclBad (s : State) (t : Thread) (o : TmemO) : Option (BitVec 8 × Nat × Nat) :=
  let a := (t.read64 o.msk.toNat).u.toNat
  if a % 32 ≠ 0 then some (cMisaligned, a, 0)
  else (s.rectBad t ⟨if o.sp then 1 else 0, a, 32, 0, 1, 0, 1⟩).map fun b => (b.1, a, b.2)

/-- 09 R254. The lines that TSCL keeps keep their poison, which 09 R253 does not say (log 40). -/
def execTscl (o : TmemO) (s : State) : Out :=
  .next (s.onStream o.g fun c x s =>
    let a := (x.m o.msk.toNat).toNat
    match s.tsclBad x.th o with
    | some b => s.tmemTrap b
    | none => s.rowsServed x.th o.sp .r [(a, 32)] fun s =>
      match s.rowLocs x.th o.sp .r [(a, 32)] with
      | .error (f, e) => s.streamFault c f e
      | .ok rows =>
        let (s1, bs) := s.xRead (rows.headD [])
        let k := (s1.core c).ctx x.th.ctx
        let t := k.tile o.t.toNat
        (s1.admitOp c x.th.ctx (k.putTile o.t.toNat t.bytes (Bytes.pack 0 (bs.map Prod.fst)) (t.poison || pBad bs))
          (tileOp [o.t.toNat] (some o.t.toNat))).advance)

/-! ### TZERO, TTRN, TSCALE, TADD, TLATCH -/

def execTzero (o : TileO) (s : State) : Out :=
  .next (s.onStream o.g fun c x s =>
    let k := (s.core c).ctx x.th.ctx
    (s.admitOp c x.th.ctx (k.putTile o.t.toNat [] [] false) (tileOp [] (some o.t.toNat))).advance)

/-- Element (i, j) of n bytes. -/
def Tile.elem (t : Tile) (n i j : Nat) : Nat := leNat (Bytes.read t.bytes (128 * i + n * j) n)
/-- An image of 32 lines from the bytes of each line. -/
def imageOf (line : Nat → List Byte) : List Byte :=
  (List.range 32).flatMap fun i => let l := line i
    l ++ List.replicate (128 - l.length) 0#8

/-- 09 R258. The element size is checked before poison (log 115). -/
def execTtrn (o : TtrnO) (s : State) : Out :=
  .next (s.onStream o.g fun c x s =>
    let k := (s.core c).ctx x.th.ctx
    let t := k.tile o.a.toNat
    if o.esz = 3#2 then s.trapAll cMatrixConfig
    else if t.poison then s.trapAll cMemPoison
    else
      let n := 2 ^ o.esz.toNat
      let img := imageOf fun i => (List.range 32).flatMap fun j => Bytes.read t.bytes (128 * j + n * i) n
      (s.admitOp c x.th.ctx (k.putTile o.d.toNat (Bytes.pack 0 img) [] false) (tileOp [o.a.toNat] (some o.d.toNat))).advance)

/-- x · 2^e. -/
def Num.scale (e : Int) : Num → Num
  | .fin n m f => .fin n m (f + e)
  | v => v

/-- 09 R259: an element of a format scaled: overflow saturates in e4m3 and e5m2. -/
def scaleElem (f : Fmt) (e : Int) (v : Nat) : Nat :=
  let x := ((fpOfFmt f).dec v).scale e
  if f = .e4m3 || f = .e5m2 then toFp8 (fpOfFmt f) .rne false x else (fpOfFmt f).enc .rne x

/-- 09 R259: a q4 scale byte scaled; none where E leaves 0 to 62. A void block's byte 0x3F stays. -/
def scaleByte (e : Int) (b : Nat) : Option Nat :=
  if b = 0x3F then some b
  else
    let v : Int := (b % 64 : Nat) + e
    if 0 ≤ v && v ≤ 62 then some (b / 64 * 64 + v.toNat) else none

def fmtOf4 (c : BitVec 4) : Option Fmt :=
  match c.toNat with
  | 0 => some .i8
  | 4 => some .n8
  | 8 => some .f16
  | 9 => some .bf16
  | 10 => some .f32
  | 12 => some .e4m3
  | 13 => some .e5m2
  | 14 => some .q4
  | _ => none

/-- 09 R253, R259. The format is checked first, then poison, then what a scale byte would become: R253 gives MEM_POISON and MATRIX_CONFIG
no order (log 115). -/
def execTscale (o : TscaleO) (s : State) : Out :=
  .next (s.onStream o.g fun c x s =>
    let k := (s.core c).ctx x.th.ctx
    let t := k.tile o.a.toNat
    let e := o.exp.toInt
    let put (bytes scale : Bytes) : State :=
      (s.admitOp c x.th.ctx (k.putTile o.d.toNat bytes scale false) (tileOp [o.a.toNat] (some o.d.toNat))).advance
    match fmtOf4 o.fmt with
    | none | some .i8 | some .n8 => s.trapAll cMatrixConfig
    | some .q4 =>
      let sc := (List.range 32).map fun i => scaleByte e (Bytes.get t.scale i).toNat
      if t.poison then s.trapAll cMemPoison
      else if sc.any Option.isNone then s.trapAll cMatrixConfig
      else put (Bytes.pack 0 (imageOf fun i => Bytes.read t.bytes (128 * i) 16)) (Bytes.pack 0 (sc.map fun v => BitVec.ofNat 8 (v.getD 0)))
    | some f =>
      if t.poison then s.trapAll cMemPoison
      else
        let n := f.bits / 8
        put (Bytes.pack 0 (imageOf fun i => (List.range 32).flatMap fun j => leBytes n (scaleElem f e (t.elem n i j)))) t.scale)

/-- A rounding of finite operands that gives an infinity (09 R403). -/
def f32Over (terms : List Num) (r : Nat) : Bool :=
  terms.all (fun x => match x with
    | .fin _ _ _ => true
    | _ => false) && (match fpF32.dec r with
    | .inf _ => true
    | _ => false)
def f32Nan (r : Nat) : Bool := (fpF32.dec r).isNan

/-- 09 R260, R403. -/
def execTadd (o : TaddO) (s : State) : Out :=
  .next (s.onStream o.g fun c x s =>
    let k := (s.core c).ctx x.th.ctx
    let a := k.tile o.a.toNat
    let b := k.tile o.b.toNat
    if a.poison || b.poison then s.trapAll cMemPoison
    else
      let cell (i j : Nat) : Nat × Bool × Bool :=
        let u := a.elem 4 i j
        let v := b.elem 4 i j
        if k.cfg.acc then
          let sg (n : Bool) (w : Nat) : Int := if n then -(w : Int) else w
          (((sg o.na u + sg o.nb v) % (2 ^ 32 : Nat)).toNat, false, false)
        else
          let p := if o.na then (fpF32.dec u).neg else fpF32.dec u
          let q := if o.nb then (fpF32.dec v).neg else fpF32.dec v
          let r := fpF32.enc .rne (Num.add false p q)
          (r, f32Over [p, q] r, f32Nan r && !p.isNan && !q.isNan)
      let rows := (List.range 32).map fun i => (List.range 32).map (cell i)
      let bytes := Bytes.pack 0 (rows.flatMap fun r => r.flatMap fun v => leBytes 4 v.1)
      let op : TileOp := ⟨[o.a.toNat, o.b.toNat], some o.d.toNat, false, rows.any (·.any fun v => v.2.1), rows.any (·.any fun v => v.2.2), false, 0⟩
      (s.admitOp c x.th.ctx (k.putTile o.d.toNat bytes [] false) op).advance)

/-- Dimensions of the configuration: M, N, K. -/
def TCfg.dims (f : TCfg) : Nat × Nat × Nat := (if f.md then 32 else 16, if f.nd then 32 else 16, if f.kd then 32 else 16)

/-- 09 R271: the pads hold twelve blocks; the tiles latched earliest are released for room. -/
def makeRoom (n : Nat) : List (Nat × Nat) → List (Nat × Nat)
  | [] => []
  | r :: rest => if (r :: rest).foldl (fun acc p => acc + p.2) 0 + n ≤ 12 then r :: rest else makeRoom n rest

def execTlatch (o : TileO) (s : State) : Out :=
  .next (s.onStream o.g fun c x s =>
    let k := (s.core c).ctx x.th.ctx
    if (k.tile o.t.toNat).poison then s.trapAll cMemPoison
    else
      let (_, nn, kk) := k.cfg.dims
      let n := nn / 16 * (kk / 16)
      let rest := makeRoom n (k.resid.filter fun r => r.1 ≠ o.t.toNat)
      (s.admitOp c x.th.ctx { k with resid := rest ++ [(o.t.toNat, n)] } (tileOp [o.t.toNat] none)).advance)

/-! ### TFILL, TDRAIN (09 R255, R256) -/

/-- The byte offset of a chunk of a row, in the lines or, for chunk 4, in the scale area. -/
def chunkBytes (t : Tile) (chunk row : Nat) : List Byte :=
  if chunk = 4 then Bytes.read t.scale 0 32 else Bytes.read t.bytes (128 * row + 32 * chunk) 32
def chunkPut (t : Tile) (chunk row : Nat) (bs : List Byte) : Tile :=
  if chunk = 4 then { t with scale := Bytes.write t.scale 0 bs } else { t with bytes := Bytes.write t.bytes (128 * row + 32 * chunk) bs }
def rowOk (chunk row : Nat) : Bool := if chunk = 4 then row = 0 else row < 32

/-- The places of a TFILL or TDRAIN that trap: a poisoned operand, or a row outside its range. -/
def tileFaults (far : Bool) (chunk : Nat) (row : Opd) (bad : List Nat) (ps : List Nat) : List IdxFault :=
  ps.filterMap fun p =>
    if bad.contains p then some ⟨p, cMemPoison, 0, 1, 0, if far then some (0, false) else none⟩
    else if rowOk chunk (row.val p).toNat then none else some ⟨p, cTileRange, 0, 0, 0, none⟩

/-- The end of a TFILL or TDRAIN by the fibre of the turn: the next word, with the traps of the places that failed. -/
def State.tileEnd (s : State) (pc : Word) (fs : List IdxFault) : State :=
  match s.turn, s.cur? with
  | .fibre c e, some t =>
    let s1 := s.setFibre c e t.advance
    if fs.isEmpty then s1 else s1.fibreFaults c e pc fs (t.fbTemplate e 0 0 pc t.word)
  | _, _ => s

/-- 09 R255. The bytes that TFILL keeps keep their poison, which 09 R253 does not say (log 40). An MMA that is still being computed
into the tile comes first (R247). -/
def execTfill (o : TfillO) (s : State) : Out :=
  .next (if s.curCore.isNone then s.trapAll cIllegalClass else s.guarded o.g fun mask s0 =>
    let s := s0.progressed
    match s.curCore, s.cur? with
    | some c, some t =>
      let row := t.src s.draw o.row false
      let grp := (List.range 8).map fun i => t.read32 (o.grp.toNat + i)
      let ps := sortAsc (mask.getD t.places)
      let bad := grp.foldl (fun acc g => listUnion acc (g.bads ps)) (row.bads ps)
      let fs := tileFaults t.readsFar o.chunk.toNat row bad ps
      let good := listDiff ps (fs.map IdxFault.place)
      if ((s.core c).ctx t.ctx).forming o.tile.toNat then s0
      else if good.isEmpty then s.tileEnd t.pc fs
      else
        let k := (s.core c).ctx t.ctx
        let n := o.tile.toNat
        let old := k.tile n
        let new := good.foldl (fun u p => chunkPut u o.chunk.toNat (row.val p).toNat (grp.flatMap fun g => leBytes 4 (g.val p).toNat)) old
        (s.admitOp c t.ctx (k.putTile n new.bytes new.scale old.poison) (tileOp [n] (some n))).tileEnd t.pc fs
    | _, _ => s)

/-- TDRAIN by the places `ps`; those in `fs` take their traps. -/
def State.drain (s : State) (c : Nat) (o : TfillO) (mask : Option (List Nat)) : State :=
  match s.cur? with
  | none => s
  | some t =>
    let row := t.src s.draw o.row false
    let ps := sortAsc (mask.getD t.places)
    let fs := tileFaults t.readsFar o.chunk.toNat row (row.bads ps) ps
    let good := listDiff ps (fs.map IdxFault.place)
    if mask = some [] then
      (s.setCur ((List.range 8).foldl (fun t i => t.writeReg (o.grp.toNat + i) (.w32 false) mask (Opd.ofU 0)) t)).advance
    else if good.isEmpty then s.tileEnd t.pc fs
    else
      let k := (s.core c).ctx t.ctx
      let u := k.tile o.tile.toNat
      let m := if fs.isEmpty then mask else some good
      let word (i p : Nat) : Word := BitVec.ofNat 64 (leNat (((chunkBytes u o.chunk.toNat (row.val p).toNat).drop (4 * i)).take 4))
      let t1 := (List.range 8).foldl (fun t i =>
        t.writeReg (o.grp.toNat + i) (.w32 false) m
          (if row.isU then Opd.ofU (word i (good.headD 0)) u.poison else Opd.ofE (word i) (if u.poison then good else []))) t
      ((s.setCur t1).admitOp c t.ctx k (tileOp [o.tile.toNat] none)).tileEnd t.pc fs

def execTdrain (o : TfillO) (s : State) : Out :=
  .next (if s.curCore.isNone then s.trapAll cIllegalClass else s.guardedDst o.g fun mask s =>
    match s.curCore, s.cur? with
    | some c, some t =>
      if ((s.core c).ctx t.ctx).forming o.tile.toNat then s
      else if (t.src s.draw o.row false).isU then s.orWait (s.drain c o mask) else s.orWait (s.expandThen fun s => s.drain c o mask)
    | _, _ => s)

/-! ### MMA (09 R261-R270, R403; 04 R113-R115) -/

/-- 09 R249, R262: the format of a B tile. -/
def TCfg.bfmt (f : TCfg) (tile : Nat) : BitVec 4 :=
  match tile / 32 with
  | 0 => f.bf0
  | 1 => f.bf1
  | 2 => f.bf2
  | _ => f.bf3

/-- 09 R245, R246, R262: element (i, k) of an operand tile; a q4 element lies in line i. -/
def Tile.num (t : Tile) (f : Fmt) (i k : Nat) : Num :=
  match f with
  | .q4 => q4Val (Bytes.get t.scale i).toNat ((Bytes.get t.bytes (128 * i + k / 2)).toNat / (if k % 2 = 0 then 1 else 16) % 16)
  | .i8 | .n8 => let v := intOfFmt f (BitVec.ofNat 64 (t.elem 1 i k))
    .fin (v < 0) v.natAbs 0
  | f => (fpOfFmt f).dec (t.elem (f.bits / 8) i k)

/-- Exact zero, for elements outside the mask (09 R264). -/
abbrev Num.zero : Num := .fin false 0 0

/-- The rows of A, and the columns of B, after transposition, negation and mask zeroing. -/
def rowsOfA (t : Tile) (f : Fmt) (ta na : Bool) (m kk mm km : Nat) : List (List Num) :=
  (List.range m).map fun i => (List.range kk).map fun k =>
    if mm ≤ i || km ≤ k then Num.zero
    else let v := if ta then t.num f k i else t.num f i k
      if na then v.neg else v
def colsOfB (t : Tile) (f : Fmt) (tb nb : Bool) (n kk nm km : Nat) : List (List Num) :=
  (List.range n).map fun j => (List.range kk).map fun k =>
    if nm ≤ j || km ≤ k then Num.zero
    else let v := if f = .q4 then t.num f j k else if tb then t.num f j k else t.num f k j
      if nb then v.neg else v

/-- What an output element gets: its bits and whether it sets AOVF. -/
abbrev Cell := Nat × Bool

def prods (a b : List Num) : List Num := (a.zip b).map fun ab => ab.1.mul ab.2

/-- 04 R113, R114: one output element in classical order. -/
def classicalCell : Nat → List Num → List Num → Cell → Cell
  | 0, _, _, acc => acc
  | n + 1, a, b, acc =>
    let ps := prods (a.take 16) (b.take 16)
    let z := fpF32.dec acc.1
    let r := oneStep fpF32 .rne z ps
    classicalCell n (a.drop 16) (b.drop 16) (r, acc.2 || f32Over (z :: ps) r)

/-- 04 R115. -/
def intCell (c : Nat) (a b : List Num) : Nat :=
  let v (x : Num) : Int := match x with
    | .fin n m _ => Num.int m n
    | _ => 0
  (((a.zip b).foldl (fun (acc : Int) ab => acc + v ab.1 * v ab.2) c) % (2 ^ 32 : Nat)).toNat

/-- 09 R267: the pre-sum format of an operand format. -/
def preFmt (f : Fmt) : FpFmt :=
  match f with
  | .e4m3 => ⟨5, 5, 15, false⟩
  | .e5m2 => ⟨6, 4, 31, false⟩
  | .f16 => ⟨6, 12, 31, false⟩
  | _ => ⟨9, 9, 255, false⟩

/-- A 16×16 block as a list of rows. -/
abbrev Blk := List (List Num)
def Blk.at_ (b : Blk) (i j : Nat) : Num := (b.getD i []).getD j Num.zero
def blkOf (m : List (List Num)) (r c : Nat) : Blk := ((m.drop (16 * r)).take 16).map fun l => (l.drop (16 * c)).take 16
def Blk.zip (f : Num → Num → Num) (a b : Blk) : Blk := List.zipWith (List.zipWith f) a b

/-- 09 R266, R267: a pre-sum or pre-difference, each element rounded once. -/
def preSum (f : FpFmt) (sub : Bool) (a b : Blk) : Blk :=
  Blk.zip (fun x y => f.dec (f.enc .rne (Num.add false x (if sub then y.neg else y)))) a b

def finite (x : Num) : Bool :=
  match x with
  | .fin _ _ _ => true
  | _ => false
def infinite (x : Num) : Bool :=
  match x with
  | .inf _ => true
  | _ => false

/-- 09 R266: a product of blocks (rows of a, columns of b): exact 16-term dot products, each rounded once; and whether one
overflowed from finite values (09 R268). -/
def blkMul (a b : Blk) : Blk × Bool :=
  let cells := a.map fun r => b.map fun c =>
    let ps := prods r c
    let v := fpF32.dec (oneStep fpF32 .rne Num.zero ps)
    (v, ps.all finite && infinite v)
  (cells.map fun r => r.map Prod.fst, cells.any fun r => r.any Prod.snd)

/-- A post-addition of blocks, each element rounded to f32, with whether a sum on its way has overflowed (09 R403). -/
def blkAdd (sub : Bool) (a b : List (List (Num × Bool))) : List (List (Num × Bool)) :=
  List.zipWith (List.zipWith fun x y =>
    let z := if sub then y.1.neg else y.1
    let v := fpF32.dec (fpF32.enc .rne (Num.add false x.1 z))
    (v, x.2 || y.2 || (finite x.1 && finite z && infinite v))) a b

/-- 09 R266: a recombined MMA on rows of A, columns of B and the rows of C: the rows of D as bits, whether a product overflowed,
and for each output whether one of its post-additions did. -/
def recombined (fa fb : Fmt) (a b c : List (List Num)) : List (List Nat) × Bool × List (List Bool) :=
  let pa := preFmt fa
  let pb := preFmt fb
  let A (r q : Nat) : Blk := blkOf a r q
  -- B by columns: block (k, j) has the columns of j over the depth k
  let B (q r : Nat) : Blk := blkOf b r q
  let sums (b : Blk) : List (List (Num × Bool)) := b.map fun r => r.map fun v => (v, false)
  let C (r q : Nat) : List (List (Num × Bool)) := sums (blkOf c r q)
  let m1 := blkMul (preSum pa false (A 0 0) (A 1 1)) (preSum pb false (B 0 0) (B 1 1))
  let m2 := blkMul (preSum pa false (A 1 0) (A 1 1)) (B 0 0)
  let m3 := blkMul (A 0 0) (preSum pb true (B 0 1) (B 1 1))
  let m4 := blkMul (A 1 1) (preSum pb true (B 1 0) (B 0 0))
  let m5 := blkMul (preSum pa false (A 0 0) (A 0 1)) (B 1 1)
  let m6 := blkMul (preSum pa true (A 1 0) (A 0 0)) (preSum pb false (B 0 0) (B 0 1))
  let m7 := blkMul (preSum pa true (A 0 1) (A 1 1)) (preSum pb false (B 1 0) (B 1 1))
  let M (m : Blk × Bool) : List (List (Num × Bool)) := sums m.1
  let d11 := blkAdd false (C 0 0) (blkAdd false (blkAdd true (blkAdd false (M m1) (M m4)) (M m5)) (M m7))
  let d12 := blkAdd false (C 0 1) (blkAdd false (M m3) (M m5))
  let d21 := blkAdd false (C 1 0) (blkAdd false (M m2) (M m4))
  let d22 := blkAdd false (C 1 1) (blkAdd false (blkAdd false (blkAdd true (M m1) (M m2)) (M m3)) (M m6))
  let all := List.zipWith (· ++ ·) d11 d12 ++ List.zipWith (· ++ ·) d21 d22
  (all.map fun r => r.map fun v => fpF32.enc .rne v.1, m1.2 || m2.2 || m3.2 || m4.2 || m5.2 || m6.2 || m7.2,
    all.map fun r => r.map Prod.snd)

/-- 09 R264: the mask register: M, N and K limits, or none where it is malformed. -/
def maskOf (w : Word) : Option (Nat × Nat × Nat) :=
  let f (i : Nat) : Nat := (w.extractLsb' i 6).toNat
  if w.extractLsb' 22 42 ≠ 0#42 || w.extractLsb' 14 2 ≠ 0#2 || w.extractLsb' 6 2 ≠ 0#2 || 32 < f 0 || 32 < f 8 || 32 < f 16 then none
  else some (f 0, f 8, f 16)

/-- 09 R262, R263: the operand formats, or none: MATRIX_CONFIG. -/
def mmaFormats (o : MmaO) (f : TCfg) : Option (Fmt × Fmt) :=
  match fmtOf4 o.afmt, fmtOf4 (f.bfmt o.b.toNat) with
  | some a, some b =>
    let ok := if f.acc then a = .i8 || a = .n8 else a ≠ .i8 && a ≠ .n8 && a ≠ .f32
    if !ok || (o.flag 8 && a = .q4) || (o.flag 7 && b = .q4) then none else some (a, b)
  | _, _ => none

/-- 09 R265: the MMA is recombined. -/
def mmaRecombines (o : MmaO) (f : TCfg) (a b : Fmt) : Bool :=
  let ok (x : Fmt) : Bool := x = .e4m3 || x = .e5m2 || x = .f16 || x = .bf16
  !f.acc && f.md && f.nd && f.kd && ok a && ok b && !o.flag 10

/-- What an MMA writes inside its mask (rows of bits), and its sticky bits RCNF, AOVF, NANO. -/
structure MmaRes where
  rows : List (List Nat)
  rcnf : Bool
  aovf : Bool
  nano : Bool
deriving DecidableEq, Repr

/-- 09 R403: what an MMA of running sums leaves: the sums' bits, and NANO and AOVF by the outputs inside the mask. -/
def sumsRes (o : MmaO) (lim : Nat × Nat × Nat) (a b : List (List Num)) (c : Nat → Nat → Nat) (cells : List (List Cell)) : MmaRes :=
  let inside (i j : Nat) : Bool := i < lim.1 && j < lim.2.1
  let any (f : Nat → Nat → Cell → Bool) : Bool := (List.range cells.length).any fun i =>
    (List.range (cells.getD i []).length).any fun j => inside i j && f i j ((cells.getD i []).getD j (0, false))
  ⟨cells.map fun r => r.map Prod.fst, false, any (fun _ _ v => v.2),
    any (fun i j v => f32Nan v.1 && !(a.getD i []).any Num.isNan && !(b.getD j []).any Num.isNan && (o.flag 11 || !f32Nan (c i j)))⟩

/-- The rows of A, the columns of B and the elements of C that an MMA takes (09 R264, R265). -/
def mmaTaken (o : MmaO) (f : TCfg) (fa fb : Fmt) (lim : Nat × Nat × Nat) (ta tb tc : Tile) :
    List (List Num) × List (List Num) × (Nat → Nat → Nat) :=
  let (m, n, kk) := f.dims
  (rowsOfA ta fa (o.flag 8) (o.flag 13) m kk lim.1 lim.2.2, colsOfB tb fb (o.flag 7) (o.flag 12) n kk lim.2.1 lim.2.2,
    fun i j => if o.flag 11 then 0 else tc.elem 4 i j)

/-- 09 R262-R268, R403: the values of an MMA. -/
def mmaValues (o : MmaO) (f : TCfg) (fa fb : Fmt) (lim : Nat × Nat × Nat) (ta : Tile) (tb : Tile) (tc : Tile) : MmaRes :=
  let (m, n, kk) := f.dims
  let (a, b, c) := mmaTaken o f fa fb lim ta tb tc
  if f.acc then
    ⟨(List.range m).map fun i => (List.range n).map fun j => intCell (c i j) (a.getD i []) (b.getD j []), false, false, false⟩
  else if mmaRecombines o f fa fb then
    let cs := (List.range 32).map fun i => (List.range 32).map fun j => fpF32.dec (c i j)
    let (rows, prodOver, ovs) := recombined fa fb a b cs
    let nans (l : List (List Num)) (i : Nat) : Bool :=
      ((l.getD (i % 16) []) ++ (l.getD (i % 16 + 16) [])).any Num.isNan
    let inside (p : Nat → Nat → Bool) : Bool := (List.range 32).any fun i => (List.range 32).any fun j =>
      i < lim.1 && j < lim.2.1 && p i j
    let nano := inside fun i j =>
      f32Nan ((rows.getD i []).getD j 0) && !nans a i && !nans b j && (o.flag 11 || !f32Nan (c i j))
    ⟨rows, prodOver || ovs.any (·.any id) || a.any (·.any fun v => !finite v) || b.any (·.any fun v => !finite v),
      inside (fun i j => (ovs.getD i []).getD j false), nano⟩
  else sumsRes o lim a b c ((List.range m).map fun i => (List.range n).map fun j =>
    classicalCell (kk / 16) (a.getD i []) (b.getD j []) (c i j, false))

/-- 09 R270: the stages of an MMA between its split boundaries. -/
def mmaStages (o : MmaO) (f : TCfg) (fa fb : Fmt) : Nat :=
  let (m, n, kk) := f.dims
  if mmaRecombines o f fa fb then 1
  else match (o.flags.extractLsb' 5 2).toNat with
  | 0 => 1
  | 1 => kk / 16
  | 2 => m / 16 * (n / 16)
  | _ => m / 16 * (n / 16) * (kk / 16)

/-- 09 R270: stage `st` of an MMA on its running sums: one 16-block of K for every output, one block of D, or one pad operation. -/
def mmaStage (o : MmaO) (f : TCfg) (a b : List (List Num)) (st : Nat) (vals : List (List Cell)) : List (List Cell) :=
  let (m, n, kk) := f.dims
  let sg := (o.flags.extractLsb' 5 2).toNat
  let kb := kk / 16
  let here (i j : Nat) : Bool := sg = 1 || i / 16 * (n / 16) + j / 16 = (if sg = 2 then st else st / kb)
  let qs := if sg = 1 then [st] else if sg = 2 then List.range kb else [st % kb]
  let add (i j : Nat) (v : Cell) (q : Nat) : Cell :=
    let x := ((a.getD i []).drop (16 * q)).take 16
    let y := ((b.getD j []).drop (16 * q)).take 16
    if f.acc then (intCell v.1 x y, false) else classicalCell 1 x y v
  (List.range m).map fun i => (List.range n).map fun j =>
    let v := (vals.getD i []).getD j (0, false)
    if here i j then qs.foldl (add i j) v else v

/-- 09 R269: the hold that an MMA uses. -/
def mmaHeld (o : MmaO) (k : CoreCtx) : Option MmaHold :=
  match k.hold with
  | some h => if h.tile = o.a && h.afmt = o.afmt && h.ta = o.flag 8 && h.na = o.flag 13 then some h else none
  | none => none

/-- 09 R264: D's new lines: the values inside the mask, the old elements outside it. -/
def mmaLines (f : TCfg) (lim : Nat × Nat × Nat) (td : Tile) (rows : List (List Nat)) : Bytes :=
  let (m, n, _) := f.dims
  Bytes.pack 0 (imageOf fun i => (List.range 32).flatMap fun j =>
    leBytes 4 (if i < min m lim.1 && j < min n lim.2.1 then (rows.getD i []).getD j 0 else td.elem 4 i j))

/-- 09 R270: a split MMA goes on: by a stage, or, where nothing delays it further, to its end. -/
def State.mmaGo (s : State) (c : Nat) (o : MmaO) (f : TCfg) (fa fb : Fmt) (lim : Nat × Nat × Nat) (r : MmaRun) : State :=
  match (s.core c).stream with
  | none => s
  | some x =>
    let (a, b, cc) := mmaTaken o f fa fb lim r.a r.b r.c
    let n := mmaStages o f fa fb
    let vals := mmaStage o f a b r.stage r.vals
    if s.slow && r.stage + 1 < n then
      s.setCore c { s.core c with stream := some { x with mma := some { r with stage := r.stage + 1, vals := vals } } }
    else
      let all := (List.range (n - (r.stage + 1))).foldl (fun v i => mmaStage o f a b (r.stage + 1 + i) v) vals
      let res := if f.acc then ⟨all.map fun l => l.map Prod.fst, false, false, false⟩ else sumsRes o lim a b cc all
      let s1 := s.setCore c { s.core c with stream := some { x with mma := none } }
      let k := (s1.core c).ctx x.th.ctx
      let k1 := { k.putTile o.d.toNat (mmaLines f lim r.old res.rows) r.old.scale false with
        ops := k.ops.map fun q => if q.running then ⟨q.reads, q.writes, res.rcnf, res.aovf, res.nano, false, q.uid⟩ else q }
      ((s1.setCore c ((s1.core c).setCtx x.th.ctx k1)).post (.tileInstructionCompletion c x.th.ctx)).advance

/-- A split MMA of the core's stream goes on to its end. -/
def State.finishMma (s : State) (c : Nat) : State :=
  match (s.core c).stream with
  | some x => (match x.mma, decode x.th.word with
    | some r, .ok (.mma o) => (match mmaFormats o ((s.core c).ctx x.th.ctx).cfg, maskOf (x.m o.msk.toNat) with
      | some (fa, fb), some lim =>
        { (({ s with slow := false } : State).asTurn (.stream c) fun s => s.mmaGo c o ((s.core c).ctx x.th.ctx).cfg fa fb lim r) with
          slow := s.slow }
      | _, _ => s)
    | _, _ => s)
  | none => s

/-- 09 R261-R270. The hold ends after an MMA with RU clear, whether it matched the hold or not (log 82). D's old poison traps when
the mask keeps part of it (log 40), after MATRIX_CONFIG (log 115). -/
def execMma (o : MmaO) (s : State) : Out :=
  .next (s.onStream o.g fun c x s =>
    let k := (s.core c).ctx x.th.ctx
    match mmaFormats o k.cfg, maskOf (x.m o.msk.toNat) with
    | some (fa, fb), some lim =>
      match x.mma with
      | some r => s.mmaGo c o k.cfg fa fb lim r
      | none =>
      let h := mmaHeld o k
      let ta := match h with
        | some h => h.src
        | none => k.tile o.a.toNat
      let tb := k.tile o.b.toNat
      let tc := k.tile o.c.toNat
      let td := k.tile o.d.toNat
      let (m, n, _) := k.cfg.dims
      let whole := 32 ≤ min m lim.1 && 32 ≤ min n lim.2.1
      if (h.isNone && ta.poison) || tb.poison || (!o.flag 11 && tc.poison) || (!whole && td.poison) then s.trapAll cMemPoison
      else
        let hold : Option MmaHold := if o.flag 14 then (match h with
            | some h => some h
            | none => some ⟨o.a, o.afmt, o.flag 8, o.flag 13, ta⟩)
          else none
        let reads := (if h.isSome then [] else [o.a.toNat]) ++ [o.b.toNat] ++ (if o.flag 11 then [] else [o.c.toNat])
        if s.slow && 1 < mmaStages o k.cfg fa fb then
          let sums := (List.range m).map fun i => (List.range n).map fun j => (if o.flag 11 then 0 else tc.elem 4 i j, false)
          (s.setCore c ((s.core c).setCtx x.th.ctx { k with
            hold := hold, ops := k.ops ++ [⟨reads, some o.d.toNat, false, false, false, true, x.th.uid⟩] })).mmaGo c o k.cfg fa fb lim
              ⟨0, ta, tb, tc, td, sums⟩
        else
          let r := mmaValues o k.cfg fa fb lim ta tb tc
          (s.admitOp c x.th.ctx { k.putTile o.d.toNat (mmaLines k.cfg lim td r.rows) td.scale false with hold := hold }
            ⟨reads, some o.d.toNat, r.rcnf, r.aovf, r.nano, false, 0⟩).advance
    | _, _ => s.trapAll cMatrixConfig)

/-! ### MSTAT (09 R273) -/

/-- 09 R273: the status word. -/
def CoreCtx.mstat (k : CoreCtx) : Word :=
  let b (i : Nat) (x : Bool) : Nat := if x then 2 ^ i else 0
  BitVec.ofNat 64 (k.resid.foldl (fun acc r => acc + r.2) 0 * 2 ^ 12 + b 11 k.hold.isSome + b 10 (!k.ops.isEmpty)
    + b 2 k.nano + b 1 k.aovf + b 0 k.rcnf)

/-- Clear the sticky bits of a mask: bits 0 to 2. -/
def CoreCtx.clearSticky (k : CoreCtx) (w : Word) : CoreCtx :=
  { k with rcnf := k.rcnf && !w.getLsbD 0, aovf := k.aovf && !w.getLsbD 1, nano := k.nano && !w.getLsbD 2 }

def execMstat (o : MstatO) (s : State) : Out :=
  .next (if s.curCore.isNone then s.trapAll cIllegalClass else s.guardedDst o.g fun mask s =>
    match s.curCore, s.cur? with
    | some c, some t =>
      -- 09 R274: in class 1 every earlier instruction of the stream has completed
      let s1 := if t.kind = .stream then s.completeOps c t.ctx else s
      let k := (s1.core c).ctx t.ctx
      let s2 := if o.clr && mask ≠ some [] then s1.setCore c ((s1.core c).setCtx t.ctx (k.clearSticky k.mstat)) else s1
      s.orWait (s2.deliver o.d .w64 mask false (Opd.ofU k.mstat))
    | _, _ => s)

end Sys2Proof.Machine
end

