-- ==== Sys2Proof/Machine/Traps.lean ====
section
/-!
DEFINITION. The trap queue and DISP, peeling, the field book's replay, TLB invalidation (17 R348-R362, 07 R207-R209); retry of
resource waits (02 R54).
-/

namespace Sys2Proof.Machine

open Sys2Proof

/-! ### The trap queue (17 R348) -/

/-- 17 R348: held records enter the queue, in order, while it has room. -/
def pushHeld (c : Cluster) : Nat → Cluster
  | 0 => c
  | n + 1 => match c.held with
    | r :: rest => if c.trapq.length < Config.trapQueueSize then
        pushHeld { c with trapq := c.trapq ++ [{ r with seq := c.seq }], seq := c.seq + 1, held := rest } n else c
    | [] => c

def execHeldTrapPush (cluster : Nat) (s : State) : Out :=
  .next (let c := s.cluster cluster
    s.setCluster cluster (pushHeld c c.held.length))

/-! ### The field book -/

/-- A record that a fibre may have named is gone: it names another of its records, if it has one (`other`), and a trap that waits to be
pushed names none. -/
def Thread.unbook (t : Thread) (k : Nat) (other : Option Nat) : Thread :=
  { t with
    fbrec := if t.fbrec = some k then other else t.fbrec
    heldTraps := t.heldTraps.map fun r =>
      if r.fbv = some k then { r with fbv := none, aux := r.aux - BitVec.ofNat 64 (256 + k) } else r }

/-- The first record that waits for a place in the book takes place k, and its traps are pushed (08 R225). -/
def State.fillBook (s : State) (c k : Nat) : State :=
  match (s.core c).bookq.dropWhile fun p => (s.fibre? c p.book.entry).map Thread.uid ≠ some p.book.uid with
  | [] => s.setCore c { s.core c with bookq := [] }
  | p :: rest =>
    let s1 := (s.setCore c { s.core c with bookq := rest }).putRecord c k p.book
    let e := p.book.entry
    let rs := p.traps.map fun r => if r.replay then { r with fbv := some k, aux := r.aux + BitVec.ofNat 64 (256 + k) } else r
    match rs, s1.fibre? c e with
    | [], _ => s1
    | rs, some t =>
      if t.heldTraps.isEmpty then s1.pushFaults c e rs t.st else s1.setFibre c e { t with heldTraps := t.heldTraps ++ rs }
    | _, none => s1

/-- A record leaves the book, and what waits for that goes on. -/
def State.freeBook (s : State) (c k : Nat) : State :=
  let x := s.core c
  let book := Tab.del x.book k
  let other (uid : Nat) : Option Nat := (List.find? (fun (kv : Nat × FbRec) => kv.2.uid = uid) book).map Prod.fst
  let s1 := (s.setCore c { x with book := book, fibres := x.fibres.map fun kv => (kv.1, kv.2.unbook k (other kv.2.uid)) }).fillBook c k
  (match Tab.find? x.book k with
    | some b => s1.memChanged c b.uid
    | none => s1).resourcesFreed c

/-- 17 R357: the last pending index of record k has completed: the record is freed, and a fibre that waits for its replay is READY. -/
def State.bookDone (s : State) (c e k : Nat) : State :=
  let waits := (s.fibre? c e).any fun t => t.st = .replayWait && t.fbrec = some k
  let s1 := s.freeBook c k
  if waits then (s1.modFibre c e fun t => { t with st := .ready, why := .none }).resourcesFreed c else s1

/-- Record k, where the fibre that it names does not hold all of its pending indices any more: it is divided as the fibre was. -/
def State.settleRecord (s : State) (c k : Nat) : State :=
  match Tab.find? (s.core c).book k with
  | none => s
  | some b =>
    if (s.core c).holdsAll b then s
    else match (s.core c).recordParts b with
      | [] => s.freeBook c k
      | r :: rs =>
        let x := s.core c
        let s1 := s.setCore c { x with
          book := Tab.set x.book k r
          fibres := x.fibres.map fun (kv : Nat × Thread) =>
            (kv.1, if kv.1 = r.entry then { kv.2 with fbrec := kv.2.fbrec.or (some k) } else kv.2.unbook k none) }
        rs.foldl (fun s r => s.addRecord c r) s1

/-- The same of the records that wait for a place. -/
def State.settleQueue (s : State) (c : Nat) : State :=
  let x := s.core c
  let parts (p : FbPend) : List FbPend :=
    if x.holdsAll p.book then [p]
    else match x.recordParts p.book with
      | [] => []
      | r :: rs => ⟨r, p.traps.map (·.inFrame p.book.frame r.frame)⟩ :: rs.map fun r => ⟨r, []⟩
  s.setCore c { x with bookq := x.bookq.flatMap parts }

/-- A fibre that waits for the replay of records that it no longer has is READY. -/
def State.settleWaits (s : State) (c : Nat) : State :=
  (s.core c).fibres.foldl (fun s kv =>
    if kv.2.st = .replayWait && ((s.core c).pendingOf kv.2.uid).isEmpty then
      (s.setFibre c kv.1 { kv.2 with st := .ready, why := .none }).resourcesFreed c
    else s) s

/-- The field books follow what has become of the fibres (02 R47, R53; 17 R357). -/
def State.settleBooks (s : State) : State :=
  s.cores.foldl (fun s kc =>
    if kc.2.book.isEmpty && kc.2.bookq.isEmpty then s
    else (((Tab.keys kc.2.book).foldl (fun s k => s.settleRecord kc.1 k) s).settleQueue kc.1).settleWaits kc.1) s

/-- A fibre ends before its time (16 R347): its outstanding loads are dropped, and its field-book records go with it. -/
def State.killFibre (s : State) (c e : Nat) : State :=
  match s.fibre? c e with
  | none => s
  | some t =>
    let full := match Tab.find? (s.core c).swaps e with
      | some r => { t with view := r.th.view, lviews := r.th.lviews }
      | none => t
    let s1 := match Tab.find? (s.core c).swaps e with
      | some r => if r.fromReserve then (match t.inst with
          | some i => s.modInst c i fun ti => { ti with reserveUsed := false }
          | none => s) else s.returnPool t.ctx r.bytes
      | none => s
    let x := s1.core c
    -- an arrival that the fibre has made at a barrier no longer counts
    let back (st : SetSt) (n tr : Nat) : SetSt := { st with arrived := st.arrived - n, trues := st.trues - tr }
    let sets := match t.waitsOn with
      | .sbar k => (match Tab.find? x.sets k with
        | some st => Tab.set x.sets k (back st t.count 0)
        | none => x.sets)
      | .vote k i => (match Tab.find? x.sets k with
        | some st =>
          let q : Pred := match i with
            | .pany o | .pall o => full.simplify (if o.na then (full.pred o.a.toNat).neg full.active else full.pred o.a.toNat)
            | .pcnt o => full.simplify (if o.na then (full.pred o.a.toNat).neg full.active else full.pred o.a.toNat)
            | _ => .f
          Tab.set x.sets k (back st t.count (full.places.filter (full.predAt q ·)).length)
        | none => x.sets)
      | _ => x.sets
    let s3 := s1.setCore c { x with sets := sets, loads := x.loads.filter fun o => o.uid ≠ t.uid }
    (s3.setFibre c e full).endFibre c e

/-! ### Peeling (17 R358) -/

/-- 17 R358: what remains of a box around an inner one: z below, z above, y below, y above, x below, x above. -/
def Box.around (b i : Box) : List Box :=
  let z := [b.setAxis .z b.z0 i.z0, b.setAxis .z i.z1 b.z1]
  let bz := b.setAxis .z i.z0 i.z1
  let y := [bz.setAxis .y bz.y0 i.y0, bz.setAxis .y i.y1 bz.y1]
  let by_ := bz.setAxis .y i.y0 i.y1
  let x := [by_.setAxis .x by_.x0 i.x0, by_.setAxis .x i.x1 by_.x1]
  (z ++ y ++ x).filter fun b => !b.empty

/-- Replace fibre (c, e) by pieces over boxes: the one with the lowest linear number keeps the entry and the tokens. Answers the
entry of each piece. -/
def State.intoBoxes (s : State) (c e : Nat) (t : Thread) (bs : List Box) : State × List (Box × Nat) :=
  let low (b : Box) : Nat := s.linOf t ⟨b.x0, b.y0, b.z0⟩
  match bs with
  | [] => (s, [])
  | b0 :: _ =>
    let first := bs.foldl (fun m b => if low b < low m then b else m) b0
    (bs.filter (· ≠ first)).foldl (fun (acc : State × List (Box × Nat)) b =>
      let (s1, e') := acc.1.addFibre c (t.toBox b)
      (s1, acc.2 ++ [(b, e')])) (s.setFibre c e (t.toBox first), [(first, e)])

/-- What a fibre waits for is looked at again: of one that comes back to a core, or that division has made. -/
def State.rearm (s : State) (c e : Nat) (t : Thread) : State :=
  let again (s : State) : State := if s.agenda.contains (.resourceRetry c) then s else s.post (.resourceRetry c)
  match t.st, t.why with
  | .swapped, .waita _ | .swapped, .promoted _ _ => s.post (.waitaSatisfied c e)
  | .swapped, _ => s.post (.waitcResume c e)
  | .resourceWait, _ => again s
  | .launchWait, _ => s.launchWaiter c
  | .wait, .waita _ | .wait, .promoted _ _ => s.post (.waitaSatisfied c e)
  | .wait, .promote _ _ met => (s.setFibre c e { t with why := .waita met }).post (.waitaSatisfied c e)
  | .wait, .waitc _ _ _ _ => (s.post (.swapDelayExpiry c e)).post (.waitcResume c e)
  | .wait, .knitHold => s.post (.knitHoldExpiry c e)
  | .wait, .header => s.post (.tokenWaitEnd c e)
  | .wait, .fifth => s.post (.tokenWaitEnd c e)
  | .ready, .promote _ _ _ | .ready, .cancel _ _ => s.setFibre c e { t with why := .none }
  | _, _ => s

/-- The fibres of core c that `s0` did not have. -/
def State.rearmNew (s s0 : State) (c : Nat) : State :=
  (s.core c).fibres.foldl (fun s kv => if (Tab.keys (s0.core c).fibres).contains kv.1 then s else s.rearm c kv.1 kv.2) s

/-- DISP 1 of a record waits for what dividing fibre (c, e) takes (17 R352, R358). -/
def State.dispWait (s : State) (c e : Nat) (t : Thread) (r : TrapRec) : State :=
  s.setFibre c e { t with st := .resourceWait, why := .peel r t.st t.why, since := s.tick }

/-- The part of a fibre that a peel takes, standing PARKED at the faulting word. -/
def Thread.peeledOf (t : Thread) (b : FbRec) : Thread :=
  { t with pc := b.pc, clause := b.cl, latches := b.latches, st := .parked, why := .none, fbrec := none, lcause := b.cause }

/-- The rest of a fibre that is peeled: it goes on. -/
def Thread.restOf (t : Thread) : Thread := if t.st = .replayWait || t.st = .parked then { t with st := .ready, why := .none } else t

/-- 17 R358: fibre (c, e), which holds the part `b` of the record of trap `r`, is peeled. What that takes may be beyond what the core has. -/
def State.peelOne (s : State) (c e : Nat) (b : FbRec) (r : TrapRec) : State :=
  match s.fibre? c e with
  | none => s
  | some t0 =>
    let s0 := if t0.expanded || (t0.boxOf b.pend).isSome then s else s.grow c e t0
    match s0.fibre? c e with
    | none => s
    | some t =>
      let left := listDiff t.places b.pend
      let i := (t.boxOf b.pend).getD t.box
      let made := if t.expanded then t.onLanes b.pend else t.toBox i
      let s1 := if left.isEmpty then s0.setCore c { s0.core c with fibres := Tab.del (s0.core c).fibres e }
        else if t.expanded then s0.setFibre c e (t.restOf.onLanes left)
        else (s0.intoBoxes c e t.restOf (t.box.around i)).1
      let (s2, e') := s1.addFibre c (made.peeledOf b)
      match s2.fibre? c e' with
      | some u =>
        let u := { u with peeled := true }
        (s2.setFibre c e' u).pushFaults c e'
          [{ u.record c e' r.cause b.pc b.va (r.aux &&& 0x7E00#64) .none u.places none with replay := true }] .parked
      | none => s2

/-- 17 R358: the pending indices of the record that a trap names move into PARKED fibres, and the rest goes on. A range fibre above
E_MAX whose pending indices are no box is cut first, to be expanded (02 R53), and each piece is peeled. Where the core lacks what that
takes the fibre waits before any effect. A record that has gone, or is another's by now, is not peeled. -/
def State.peelPending (s : State) (c e : Nat) (r : TrapRec) : State :=
  match s.fibre? c e, r.fbv.bind fun k => (Tab.find? (s.core c).book k).map fun b => (k, b) with
  | some t, some (k, b) =>
    if b.uid ≠ t.uid || b.pc ≠ r.pc then s
    else
      let whole := t.expanded || t.box.count ≤ s.emax t || (t.boxOf (b.partOf e t).pend).isSome
      let (s1, es) := if whole then (s, [e]) else
        let (s1, ps) := s.intoBoxes c e t (t.box.cut (s.emax t))
        (s1, ps.map Prod.snd)
      let s2 := es.foldl (fun s e => match s.fibre? c e with
        | some u =>
          let p := b.partOf e u
          if p.pend.isEmpty then s.setFibre c e u.restOf else s.peelOne c e p r
        | none => s) s1
      if (s2.core c).fits (0, 0, 0, 0) && s2.slotsFit c then (s2.freeBook c k).rearmNew s c else s.dispWait c e t r
  | _, _ => s

/-! ### DISP (17 R352) -/

/-- 17 R352: DISP 1 on a record of a fibre for a cause that replay does not mend: the trapped indices end as by EXIT. Where the core
lacks what dividing a range fibre takes, the fibre waits before any effect (02 R54). Of a record that names no indices, a lost store's
among them (17 R363), the whole fibre ends, be it PARKED or not, which R352 does not say (log 119). -/
def State.endTrapped (s : State) (c e : Nat) (t : Thread) (r : TrapRec) : State :=
  match r.index with
  | .none => s.killFibre c e
  | .lanes _ _ _ => if (listDiff t.active r.who).isEmpty then s.killFibre c e else s.endLanes c e (listInter t.active r.who)
  | .box b =>
    let ps := t.places.filter fun p => b.has (t.idxAt p)
    if ps.length = t.places.length then s.killFibre c e
    else if t.expanded then s.endLanes c e ps
    else match t.boxOf ps with
      | some i =>
        let s1 := ((s.endStores t ps).intoBoxes c e t (t.box.around i)).1
        if (s1.core c).fits (0, 0, 0, 0) && s1.slotsFit c then (t.sets.foldl (fun s k => s.checkSet c k) s1).rearmNew s c
        else s.dispWait c e t r
      | none => s

/-- DISP 1 acts on fibre (c, e). -/
def State.dispFibre (s : State) (c e : Nat) (r : TrapRec) : State :=
  match s.fibre? c e with
  | some t => if r.fbv.isSome then s.peelPending c e r else if r.replay then s else s.endTrapped c e t r
  | none => s

/-- The same of a fibre that may be swapped out: it comes back first, which R352 does not say (log 120); where the core lacks what that
takes it waits in its swap record. -/
def State.dispAt (s : State) (c e : Nat) (r : TrapRec) : State :=
  match Tab.find? (s.core c).swaps e with
  | none => s.dispFibre c e r
  | some x => match s.swapIn c e x with
    | some s1 => s1.dispFibre c e r
    | none => (s.setSwapped c e x { x.th with st := .resourceWait, why := .peel r x.th.st x.th.why }).post (.waitcResume c e)

/-- The entry of the fibre that a record names, if it has not ended. -/
def State.recEntry (s : State) (r : TrapRec) : Option (Nat × Thread) :=
  List.find? (fun (kv : Nat × Thread) => kv.2.uid = r.uid) (s.core r.core).fibres

/-- 17 R352: the core acts on the DISP of a record that leaves the queue, unless the agent has ended. What the fibre has outstanding
ends before it is divided (log 71). -/
def State.disp (s : State) (r : TrapRec) : State :=
  if r.disp ≠ 1#2 then s
  else match r.kind with
  | 0 =>
    let s := if (s.recEntry r).isSome then s.endOuts r.core r.uid else s
    match s.recEntry r with
    | some (e, _) => s.dispAt r.core e r
    | none => s
  | 1 => match (s.core r.core).stream with
    | some x => if x.th.uid = r.uid then (s.finishMma r.core).streamEnd r.core else s
    | none => s
  | _ => match (s.core r.core).copyq.find? fun q => q.id = r.uid with
    | some q => s.copyFatal r.core q r.cause
    | none => s

/-- 07 R276: a write of VALID removes the head record; the core acts on its DISP. -/
def State.popTrap (s : State) (k : Nat) : State :=
  let c := s.cluster k
  match c.trapq with
  | [] => s
  | r :: rest =>
    let s1 := s.setCluster k { c with trapq := rest }
    (if c.held.isEmpty then s1 else s1.post (.heldTrapPush k)).disp r

/-- 17 R276: a write of TRAP_CAUSE: VALID is W1C, the rest RO. -/
def execTrapCause (cluster : Nat) (value : Word) (s : State) : Out :=
  .next (if value.getLsbD 8 then s.popTrap cluster else s)

/-- 17 R350. -/
def execTrapWindowStore (cluster : Nat) (value : Byte) (s : State) : Out := .next (s.setDisp cluster value)

/-! ### Resource retries (02 R54) -/

/-- The fibres of a core in RESOURCE_WAIT, longest first; pieces of one cut in ascending order of their lowest linear number
(02 R53). -/
def State.resourceWaiters (s : State) (c : Nat) : List Nat :=
  let ws := (s.core c).fibres.filter fun kv => kv.2.st = .resourceWait
  let key (t : Thread) : Nat × Nat := (t.since, s.lin t t.low)
  let before (a b : Nat × Thread) : Bool :=
    (key a.2).1 < (key b.2).1 || ((key a.2).1 = (key b.2).1 && (key a.2).2 < (key b.2).2)
  (ws.foldl (fun (acc : List (Nat × Thread)) w =>
    let (lo, hi) := acc.span fun v => before v w
    lo ++ w :: hi) []).map Prod.fst

/-- The state in which a fibre stops that was to wait for a replay: READY where the replay is over. -/
def State.stopAt (s : State) (c uid : Nat) (st : FState) : FState :=
  if st = .replayWait && ((s.core c).pendingOf uid).isEmpty then .ready else st

/-- One waiter's retry: held trap records are pushed, a piece of a cut fibre expands (02 R53), faults are recorded; any other tries
its word again. -/
def State.retryOne (s : State) (c e : Nat) : State :=
  match s.fibre? c e with
  | none => s
  | some t =>
    let back (s : State) : State := match s.fibre? c e with
      | some u => if u.st = .wait || (u.st = .resourceWait && u.waitsOn = u.why) then s.rearm c e u else s
      | none => s
    if !t.heldTraps.isEmpty then back (s.pushFaults c e t.heldTraps (s.stopAt c t.uid t.heldSt))
    else match t.why with
    | .peel r st _ => back ((s.setFibre c e { t.under with st := s.stopAt c t.uid st }).dispFibre c e r)
    | .faults fs fb st _ => back ((s.setFibre c e { t.under with st := s.stopAt c t.uid st }).fibreFaults c e fb.pc fs fb t.heldSt)
    | .expand =>
      let s1 := s.grow c e { t with st := .ready, why := .none }
      if (s1.core c).fits (0, 0, 0, 0) && s1.slotsFit c then s1.setCore c { s1.core c with follow := (s1.core c).follow ++ [e] } else s
    | _ =>
      let why : Why := match t.why with
        | .fnew k => .fnew k
        | _ => .none
      let s1 := s.setFibre c e { t with st := .ready, why := why }
      s1.setCore c { s1.core c with follow := (s1.core c).follow.filter (· ≠ e) ++ [e] }

/-- What names the pieces of one cut that wait to expand. -/
def Thread.cutName (t : Thread) : Option (Nat × Nat) := if t.why = .expand then some (t.root, t.since) else none

/-- 02 R54: the fibres in RESOURCE_WAIT retry, in order. Of the pieces of one cut a later one does not expand before an earlier one
(02 R53). -/
def execResourceRetry (core : Nat) (s : State) : Out :=
  .next ((s.resourceWaiters core).foldl (fun (acc : State × List (Nat × Nat)) e =>
    let name (s : State) : Option (Nat × Nat) := (s.fibre? core e).bind Thread.cutName
    match name acc.1 with
    | none => (acc.1.retryOne core e, acc.2)
    | some n =>
      if acc.2.contains n then acc
      else
        let s1 := acc.1.retryOne core e
        (s1, if (name s1).isSome then n :: acc.2 else acc.2)) (s, [])).1

/-! ### Replay (17 R357, R359; 07 R207-R209) -/

/-- Start the replay of record k of a core, with the release of the management core that asked for it (07 R209). -/
def State.startReplay (s : State) (c k : Nat) (hb : List Nat) : State :=
  match Tab.find? (s.core c).book k with
  | none => s
  | some b =>
    if b.replaying then s
    else
      let x := s.core c
      ((s.setCore c { x with book := Tab.set x.book k { b with replaying := true } }).modThread c b.entry fun t =>
        if t.uid = b.uid then t.gain hb else t).post (.replayComplete c k)

/-- Whether the base of a recorded address is 64 bits wide. -/
def wideBase : Instr → Bool
  | .lds _ | .sts _ | .atoms _ | .ldc _ => false
  | _ => true

/-- How many recorded pieces are the data of a store, or an atomic's first operand. -/
def dataPieces : Instr → Nat
  | .atom o | .atoms o => if o.w16 then 2 else 1
  | .st o | .sts o => if o.size = 8#4 then 2 else 1
  | _ => 1

/-- The record's access is one load on behalf of all its indices (08 R212). -/
def FbRec.oneLoad (b : FbRec) (i : Instr) : Bool :=
  match i, b.addr with
  | .ld _, .u _ | .lds _, .u _ => true
  | _, _ => false

/-- Record k goes on with the places `pend`, what faulted anew among them as its cause. -/
def FbRec.again (b : FbRec) (fs : List IdxFault) (unmet : List Nat) : FbRec :=
  let rep := fs.filter (·.replayable)
  { b with pend := sortAsc (rep.map IdxFault.place ++ unmet), hits := rep, replaying := fs.isEmpty }.headed

/-- 02 R53: fibre (c, e) is cut before lanes name these faults. -/
def State.cutsFor (s : State) (c e : Nat) (fs : List IdxFault) : Bool :=
  (s.fibre? c e).any fun t => t.namesLanes fs && s.emax t < t.box.count

/-- 17 R357: the pending indices of a memory instruction are re-issued with the recorded operands; each access ends with the replay. -/
def State.reissue (s : State) (c k : Nat) (b : FbRec) (i : Instr) (r : Req) : State :=
  let e := b.entry
  match s.fibre? c e with
  | none => s
  | some t =>
    let ps := sortAsc (listInter b.pend t.places)
    let gs := if b.oneLoad i then [ps] else singles ps
    let w := wideBase i
    let n := dataPieces i
    let ops (p : Nat) : IdxOps :=
      ⟨if w then t.fvalAt true b.addr p + b.off else low32 (t.fvalAt false b.addr p + b.off), false,
        t.fvalsAt (b.data.take n) p, t.fvalsAt (b.data.drop n) p, b.dbad.contains p⟩
    -- a promoting acquire reads the owner words again
    let (s0, t0, own) := if r.prom then s.readOwners t r gs ops else (s, t, [])
    let m := s0.access t0 r true own gs ops
    let uni := b.oneLoad i || (r.acc = 2 && t.count = 1)
    -- poison of a lost link is told apart (17 R351: FARLINK)
    let lost (p : Nat) : Bool := m.pois.contains p && !r.spad && (match m.s.xlat (m.s.curSpace t) (ops p).va.toNat r.perm with
      | .ok pa _ _ => m.s.farLost pa
      | .fault _ _ _ => false)
    let late (t : Thread) (far : Bool) : Thread :=
      let vs := m.vals.filter fun kv => lost kv.1 = far
      if vs.isEmpty then t else t.lateResult s.draw i b.pc vs (m.pois.filter fun p => lost p = far) uni far
    let (s1, fs) := (m.s.setFibre c e (late (late m.t false) true)).pushLost c e b.pc r m.faults
    if fs.isEmpty && m.unmet.isEmpty then s1.bookDone c e k
    else if s1.cutsFor c e fs then
      -- a range fibre above E_MAX whose new faults need lanes is cut, and each piece records its own (02 R53)
      (s1.freeBook c k).fibreFaults c e b.pc fs { b with pend := m.unmet, hits := [], replaying := false } ((s1.fibre? c e).elim .parked Thread.st)
    else
      let b1 := b.again fs m.unmet
      let s2 := if b1.pend.isEmpty then s1.freeBook c k else s1.setCore c { s1.core c with book := Tab.set (s1.core c).book k b1 }
      if fs.isEmpty then s2.post (.replayComplete c k)
      else match s2.fibre? c e with
        | some u => s2.pushFaults c e (u.faultTraps c e b.pc false fs (some k)) (if fs.all (·.replayable) then u.st else .parked)
        | none => s2

/-- The pseudo-channels that a re-issued access reaches. -/
def State.replayPchs (s : State) (b : FbRec) : List Nat :=
  match s.cur? with
  | none => []
  | some t =>
    let sp := s.curSpace t
    match b.acc, decode b.instr with
    | 6, _ => s.vaPchs sp (t.fvalAt true b.addr 0).toNat 8 .r
    | 5, _ => s.vaPchs sp (t.fvalAt true b.addr 0).toNat 128 .r
    | 4, _ | _, .error _ => []
    | _, .ok i => match reqOf i with
      | some r => if r.spad || r.bank then [] else
        (listInter b.pend t.places).flatMap fun p => s.vaPchs sp (t.fvalAt true b.addr p + b.off).toNat r.n r.perm
      | none => []

/-- 17 R357: a replaying record is re-issued, by what faulted. What its fibre has outstanding ends first (log 71), and a record whose
fibre has been divided is divided before; held by a pseudo-channel, it tries again (21 R392). -/
def execReplayComplete (core rec : Nat) (s : State) : Out :=
  .next (match Tab.find? (s.core core).book rec with
    | none => s
    | some b =>
      let e := b.entry
      let again (s : State) : State := s.post (.replayComplete core rec)
      let s := if b.replaying then s.endOuts core b.uid else s
      if !b.replaying then s
      else if !(s.core core).holdsAll b || (Tab.find? (s.core core).swaps e).isSome then again s
      else s.asTurn (.fibre core e) fun s =>
        let ks := s.replayPchs b
        if s.mustWait s.curFrom b.uid ks then again (s.served s.curFrom b.uid ks id)
        else s.served s.curFrom b.uid ks fun s =>
        let base := match b.addr with
          | .u a => a
          | _ => 0
        let mask := match b.data with
          | .u m :: _ => m.setWidth 32
          | _ => 0#32
        let waits := (s.fibre? core e).any fun t => t.st = .replayWait
        if b.acc = 4 then s.bookDone core e rec
        else if b.acc = 6 then
          (if waits then (s.freeBook core rec).waitcOn core e b.pc b base mask else s.freeBook core rec)
        else match decode b.instr with
          | .ok (.launch o) => (s.freeBook core rec).launchOn core e b.pc b base o fun t =>
              { t with pc := b.pc, clause := b.cl, latches := b.latches }
          | .ok i => (match reqOf i with
            | some r => s.reissue core rec b i r
            | none => s.freeBook core rec)
          | .error _ => s.freeBook core rec)

/-- 17 R362, 03 R92: a walk for a context's address finishes: a leaf enters the TLBs of the dies; a fault enters none. -/
def execPageWalkComplete (ctx va : Nat) (s : State) : Out :=
  .next (match s.rootOf (.hub ctx 0) with
    | none => s
    | some root => if 2 ^ 55 ≤ va then s else s.reading (.pageWalkComplete ctx va) (s.walkReads root va) fun s => match s.walk va 3 root 0 with
      | .ok (level, l) => (s.fillTlb (.hub ctx 0) va level l).fillTlb (.hub ctx 1) va level l
      | .error _ => s)

/-! ### TLBI (07 R208) -/

/-- 07 R208: TLBI .page of address a covers a fault at f whose walk stopped at a level. -/
def coversPage (a f : Nat) (level : Nat) : Bool :=
  a / 2 ^ 16 = f / 2 ^ 16 || (level < 2 && a / 2 ^ levelBits level = f / 2 ^ levelBits level)

/-- What a TLBI names: a context and one of its pages, a context, or everything. -/
structure TlbiSel where
  ctx : Option Nat
  va  : Option Nat
deriving DecidableEq, Repr

def TlbiSel.covers (x : TlbiSel) (ctx : Nat) (f : Nat) (level : Nat) : Bool :=
  (match x.ctx with
    | some c => c = ctx
    | none => true) && (match x.va with
    | some a => coversPage a f level
    | none => true)

/-- A stream parked by a page fault runs again (09 R253). -/
def State.resumeStream (s : State) (c : Nat) (hb : List Nat) : State :=
  match (s.core c).stream with
  | some x => s.setCore c { s.core c with stream := some { x with fault := none, th := { x.th.gain hb with st := .ready } } }
  | none => s

/-- 17 R360: an instruction of which some index has faulted as `p` says, while others are outstanding, ends now, and what has faulted is
recorded (log 71). -/
def State.endFaulted (s : State) (p : IdxFault → Bool) : State :=
  s.cores.foldl (fun s kc => (kc.2.loads.filter fun o => o.faults.any p).foldl (fun s o => s.endOuts kc.1 o.uid) s) s

/-- 07 R208: the walks that are under way finish; the entries are dropped; what the TLBI covers is replayed or resumed. A fault that
still waits for a free record of the field book (08 R225) is not covered (log 112). What a core has saved of a context that is switched out
is not covered: R208 does not say whether it is (log 102). -/
def State.tlbiDo (s : State) (x : TlbiSel) (hb : List Nat) : State :=
  let drop (e : TlbEnt) : Bool := (match x.ctx with
      | some c => e.ctx = c
      | none => true) && (match x.va with
      | some a => e.page = a / 2 ^ levelBits e.level
      | none => true)
  let dropPtr (e : PtrEnt) : Bool := (match x.ctx with
      | some c => e.ctx = c
      | none => true) && (match x.va with
      | some a => e.page = a / 2 ^ levelBits e.level
      | none => true)
  let s0 := s.endFaulted fun f => f.replayable
  let s1 := { s0 with tlb := s0.tlb.filter fun e => !drop e, ptrs := s0.ptrs.filter fun e => !dropPtr e }
  (Tab.keys s1.cores).foldl (fun s c =>
    let s2 := (s.core c).book.foldl (fun s kb =>
      if x.covers kb.2.ctx kb.2.va.toNat (if kb.2.cause = cPageFault then kb.2.level else 2) then s.startReplay c kb.1 hb else s) s
    let s3 := s2.resumeCopies c fun q => match q.fault with
      | some (f, level) => x.covers q.ctx f.toNat level
      | none => x.va.isNone && (match x.ctx with
        | some k => k = q.ctx
        | none => true)
    match (s3.core c).stream with
    | some y => (match y.fault with
      | some (f, level) => if x.covers y.th.ctx f.toNat level then s3.resumeStream c hb else s3
      | none => s3)
    | none => s3) s1

end Sys2Proof.Machine
end

