-- ==== Sys2Proof/Machine/Tasks.lean ====
section
/-!
DEFINITION. The task system: host rings, admission, placement, tile start, completion, stealing, the traverse token, draining,
cancellation (16 R333-R347, R404, R405).
-/

namespace Sys2Proof.Machine

open Sys2Proof

/-! ### Tiles of a launch (02 R36, 07 R173) -/

def ceilDiv (a b : Nat) : Nat := (a + b - 1) / b
def LaunchRec.nx (r : LaunchRec) : Nat := ceilDiv r.gx r.tx
def LaunchRec.ny (r : LaunchRec) : Nat := ceilDiv r.gy r.ty
def LaunchRec.nz (r : LaunchRec) : Nat := ceilDiv r.gz r.tz
def LaunchRec.numTiles (r : LaunchRec) : Nat := r.nx * r.ny * r.nz
/-- 02 R36: the box of a tile by its number. -/
def LaunchRec.tileBox (r : LaunchRec) (n : Nat) : Box :=
  let a := n % r.nx
  let b := n / r.nx % r.ny
  let c := n / (r.nx * r.ny)
  ⟨a * r.tx, min ((a + 1) * r.tx) r.gx, b * r.ty, min ((b + 1) * r.ty) r.gy, c * r.tz, min ((c + 1) * r.tz) r.gz⟩

/-- 16 R337: the valid variant of smallest CLASS that serves n indices, the lowest number winning a tie. -/
def LaunchRec.variantFor (r : LaunchRec) (n : Nat) : Option Variant :=
  r.variants.foldl (fun (b : Option Variant) v =>
    if !v.valid || 2 ^ v.cls < n then b
    else match b with
      | some w => if v.cls < w.cls then some v else some w
      | none => some v) none

/-- 16 R337: entry, window and scratch of a tile. -/
def LaunchRec.choice (r : LaunchRec) (tile : Nat) : Nat × Nat × Nat :=
  let n := (r.tileBox tile).count
  match (if n < r.tx * r.ty * r.tz then r.variantFor n else none) with
  | some v => (v.entoff, 8 * (v.win + 1), 1024 * v.scrkb)
  | none => (r.entoff, r.window, r.scratch)

/-! ### Positions: counts and colours (16 R344) -/

def posOfDie (d : Nat) : Nat := if d = 0 then 0 else 97
/-- 16 R344: position `src` sends a task record of a job to `dst`. -/
def State.sent (s : State) (ctx job src dst : Nat) : State :=
  s.modJob ctx job fun j => { j with counts := Tab.set j.counts src (Tab.get j.counts 0 src + 1)
                                     black := if dst < src then insertAsc src j.black else j.black }
def State.received (s : State) (ctx job dst : Nat) : State :=
  s.modJob ctx job fun j => { j with counts := Tab.set j.counts dst (Tab.get j.counts 0 dst - 1) }

/-- The job of a launch. -/
def State.jobOf (s : State) (launch : Nat) : Option (Nat × Nat) :=
  (s.launch? launch).map fun l => (l.ctx, l.lr.job.toNat)
/-- 16 R343: the message's context has been reset or destroyed since. -/
def State.stale (s : State) (m : TaskMsg) : Bool := s.gen m.ctx ≠ m.gen
def State.msgJob (s : State) (m : TaskMsg) : Nat := ((s.jobOf m.launch).map Prod.snd).getD 0

/-! ### The host queue (16 R333-R335) -/

/-- A number at a physical address, as last stored. -/
def State.phys (s : State) (a n : Nat) : Nat := leNat (Bytes.read s.mem.cells a n)

/-- The agent number of a die's dispatcher (for scopes, 03 R80). -/
def dispAgent (die : Nat) : Nat := 216 + die

/-- A dispatcher's store to what the host reads: a release at system scope on the path H, of `hb`. -/
def State.hubStore (s : State) (die a n v : Nat) (hb : List Nat) : State :=
  (s.storeAt { View.empty with hb := hb } none a (leBytes n v) (List.replicate n false) .H (dispAgent die) (some 2)).1
/-- 21 R392: no pseudo-channel holds an access of a dispatcher to a range. -/
def State.hubFree (s : State) (a n : Nat) : Bool := s.flowing || !(pchsOf a n).any s.frozen

def Ctx.q (k : Ctx) : Nat := k.qdesc.toNat
/-- What is read of a context's queue in memory: its descriptor, and the record in a slot of the ring. -/
def Ctx.qRange (k : Ctx) : Nat × Nat := (k.q, 48)
def State.qRing (s : State) (k : Ctx) : Nat := s.phys k.q 8
def State.qSize (s : State) (k : Ctx) : Nat := s.phys (k.q + 8) 4
def State.qHead (s : State) (k : Ctx) : Nat := s.phys (k.q + 12) 4
def State.qDone (s : State) (k : Ctx) : Nat := s.phys (k.q + 16) 8
def State.qDsize (s : State) (k : Ctx) : Nat := s.phys (k.q + 24) 4
def State.qDtail (s : State) (k : Ctx) : Nat := s.phys (k.q + 28) 4
def State.qDhead (s : State) (k : Ctx) : Nat := s.phys (k.q + 32) 4
/-- 16 R333: ERRCNT saturates at 255. -/
def State.countError (s : State) (ctx : Nat) (k : Ctx) : State :=
  s.hubStore (ctx % 2) (k.q + 40) 1 (min 255 (s.phys (k.q + 40) 1 + 1)) []
/-- 16 R333: the ring slot of an index. -/
def State.slotAt (s : State) (k : Ctx) (n : Nat) : Nat := s.qRing k + 128 * (n % s.qSize k)

/-- 16 R345, R333: the completion ring has room, and its pseudo-channels are in service (21 R392). -/
def State.doneRoom (s : State) (k : Ctx) : Bool :=
  (s.qDtail k + 2 ^ 32 - s.qDhead k) % 2 ^ 32 ≠ s.qDsize k && s.hubFree k.q 48
    && s.hubFree (s.qDone k + 8 * (s.qDtail k % s.qDsize k)) 8

/-- 16 R345: write a completion entry, advance DTAIL and raise the context's vector. -/
def State.writeEntry (s : State) (ctx : Nat) (k : Ctx) (entry : Word) (hb : List Nat) : State :=
  let d := ctx % 2
  let n := s.qDtail k
  let s1 := s.hubStore d (s.qDone k + 8 * (n % s.qDsize k)) 8 entry.toNat hb
  let s2 := s1.hubStore d (k.q + 28) 4 ((n + 1) % 2 ^ 32) hb
  { s2 with host := { s2.host with msix := s2.host.msix ++ [8 + ctx] } }

/-- 16 R345: a completion entry, held while the ring is full. -/
def State.complete (s : State) (ctx job : Nat) (status : BitVec 8) (hb : List Nat) : State :=
  match s.ctx? ctx with
  | none => s
  | some k =>
    let w : Word := BitVec.ofNat 64 (job * 2 ^ 32 + status.toNat * 2 ^ 24)
    if k.held.isEmpty && s.doneRoom k then s.writeEntry ctx k w hb
    else (s.setCtx ctx { k with held := k.held ++ [(w, hb)] }).post (.heldCompletionEntry ctx)

/-- 16 R345: held entries are written as the host makes room. -/
def execHeldCompletionEntry (ctx : Nat) (s : State) : Out :=
  .next (match s.ctx? ctx with
    | none => s
    | some k => match k.held with
      | [] => s
      | w :: rest => s.reading (.heldCompletionEntry ctx) [k.qRange] fun s =>
        if s.doneRoom k then
          let s1 := (s.setCtx ctx { k with held := rest }).writeEntry ctx { k with held := rest } w.1 w.2
          if rest.isEmpty then s1 else s1.post (.heldCompletionEntry ctx)
        else s.post (.heldCompletionEntry ctx))

/-- 16 R334: a doorbell. A record keeps the arrival of the first one that names it. -/
def execCtxDoorbell (ctx : Nat) (value : Word) (s : State) : Out :=
  .next (match s.ctx? ctx with
    | none => s
    | some k => s.reading (.ctxDoorbell ctx value) [k.qRange] fun s =>
      let tail := value.toNat % 2 ^ 32
      let head := s.qHead k
      let dist (n : Nat) : Nat := (n + 2 ^ 32 - head) % 2 ^ 32
      if s.qSize k < dist tail then s.countError ctx k
      else
        let named := k.bells.any fun b => dist tail ≤ dist b.1.toNat
        let host := (s.log.filter fun w => w.core = 1000).map WriteRec.id
        (s.setCtx ctx { k with tail := BitVec.ofNat 32 tail
                               bells := if dist tail = 0 || named then k.bells else k.bells ++ [(BitVec.ofNat 32 tail, s.tick)]
                               hostHb := listUnion k.hostHb (listUnion host s.host.view.hb) }).postAdmit (ctx % 2))

/-! ### Completion (16 R338, R405) -/

/-- 16 R338: a launch's payload becomes visible to loads on every path. -/
def State.makeVisible (s : State) (launch : Nat) : State :=
  { s with log := s.log.map fun w => if w.launch = some launch && w.vis = .own then { w with vis := .every } else w }

/-- 16 R338, R405: the decrement of COUNTER: an atomic add at the home, releasing the launch's stores; a counter that fails its
checks is left alone. -/
def State.decrement (s : State) (die ctx job : Nat) (counter : Word) (scope : Nat) (hb : List Nat) : State :=
  if counter = 0 then s
  else
    let bad := s.jobStatus ctx job cCounterFault
    if counter.toNat % 8 ≠ 0 then bad
    else match s.xlat (.hub ctx die) counter.toNat .rw with
    | .fault _ _ _ => bad
    | .ok pa _ _ =>
      let s1 := (s.walkRange (.hub ctx die) counter.toNat 8 .rw).demand pa 8
      if s1.badRead none pa 8 || s1.farLost pa then s1.jobStatus ctx job cCounterFault
      else
        let v := (s1.phys pa 8 + 2 ^ 64 - 1) % 2 ^ 64
        (s1.storeAt { View.empty with hb := hb } none pa (leBytes 8 v) (List.replicate 8 false) .F (dispAgent die) (some scope)).1.markStore s1
          fun w => { w with rmw := true }

/-- The stores made from one state to a later one. -/
def State.storesSince (s before : State) : List Nat := (List.range (s.nextId - before.nextId)).map (before.nextId + ·)

/-- 16 R338: a launch finishes, on the dispatcher that admitted it. The job's completion follows its stores and the add (R345). Its counter's pseudo-channel may hold the add (21 R392). -/
def execLaunchFinish (launch : Nat) (s : State) : Out :=
  .next (match s.launch? launch with
    | none => s
    | some l =>
      if l.ended ≠ l.made || s.hasLaunch launch then s
      else if s.gen l.ctx ≠ l.gen then
        -- R343: nothing of an old generation is counted
        let s1 := s.makeVisible launch
        { s1 with launches := Tab.del s1.launches launch }
      else
        let job := l.lr.job.toNat
        let ks := if l.lr.counter = 0 then [] else s.vaPchs (.hub l.ctx l.die) l.lr.counter.toNat 8 .rw
        s.holding (.launchFinish launch) ks fun s =>
        let s1 := s.makeVisible launch
        let s2 := s1.decrement l.die l.ctx job l.lr.counter (if l.host then 2 else 1) l.stores
        let s3 := s2.modJob l.ctx job fun j => { j with hb := listUnion j.hb (l.stores ++ s2.storesSince s1) }
        { s3 with launches := Tab.del s3.launches launch })

/-! ### Admission (16 R336, R404) -/

/-- Where a record to be admitted stands. -/
inductive Source where
  | pend (core : Nat)
  | ring (ctx : Nat)
deriving DecidableEq, Repr

/-- A record that may be admitted next: its priority, arrival, rank among equal arrivals, and place. -/
structure Cand where
  prio : Nat
  arrived : Nat
  rank : Nat
  src  : Source
deriving DecidableEq, Repr

/-- 16 R336: the order of admission. -/
def Cand.before (a b : Cand) : Bool :=
  b.prio < a.prio || (a.prio = b.prio && (a.arrived < b.arrived || (a.arrived = b.arrived && a.rank < b.rank)))

/-- 16 R336: the heads of the die's pending-launch queues and of the host rings of its contexts. -/
def State.cands (s : State) (die : Nat) : List Cand :=
  (s.cores.filterMap fun kv => if dieOf kv.1 ≠ die then none else match kv.2.pendq with
    | r :: _ => some ⟨r.lr.priority, r.arrived, kv.1, .pend kv.1⟩
    | [] => none)
  ++ (s.ctxs.filterMap fun kv =>
    if kv.1 % 2 ≠ die || s.qHead kv.2 = kv.2.tail.toNat then none
    else some ⟨s.phys (s.slotAt kv.2 (s.qHead kv.2) + 53) 1, (kv.2.bells.head?.map Prod.snd).getD 0, 1000 + kv.1, .ring kv.1⟩)
/-- What the choice among them reads. -/
def State.queueReads (s : State) (die : Nat) : List (Nat × Nat) :=
  s.ctxs.flatMap fun kv => if kv.1 % 2 ≠ die || s.qHead kv.2 = kv.2.tail.toNat then [] else [kv.2.qRange, (s.slotAt kv.2 (s.qHead kv.2) + 53, 1)]
def State.nextCand (s : State) (die : Nat) : Option Cand :=
  (s.cands die).foldl (fun (b : Option Cand) c => match b with
    | some d => if c.before d then some c else some d
    | none => some c) none

/-- 16 R404: the constant bank at ARGS, with its poisoned offsets; none where a page fails. The path that the dispatcher of a die
reads on is not stated: F (log 83). -/
def State.readBank (s : State) (die ctx : Nat) (args : Word) (v : View) : Option (State × Bytes × List Nat) :=
  if args = 0 then some (s, [], [])
  else match s.xlatRange (.hub ctx die) args.toNat (2 ^ 16) .r with
  | .error _ => none
  | .ok ps =>
    let s0 := s.walkRange (.hub ctx die) args.toNat (2 ^ 16) .r
    let s1 := s0.demandPieces ps (s0.readPieces v .F ps 0)
    let g := s1.readPieces v .F ps 0
    let lost := ps.flatMap fun p => List.replicate p.n (s1.farLost p.pa)
    some (s1, Bytes.pack 0 g.bytes, (List.range lost.length).filter fun i => g.bads.getD i false || lost.getD i false)

/-- Let a die's dispatcher hand out its records. -/
def State.postPlace (s : State) (die : Nat) : State :=
  if (s.die die).toPlace.isEmpty || s.agenda.contains (.dispatchPlace die) then s else s.post (.dispatchPlace die)

/-- A launch with its number and no task record: it is finished once nothing of it remains. -/
def State.addLaunch (s : State) (l : Launch) : State × Nat :=
  ({ s.setLaunch s.fresh l with fresh := s.fresh + 1 }, s.fresh)

/-- 16 R336, R404, R347: a record is admitted: its bank is read, its tiles become task records of both dies; or it is discarded. -/
def State.admit1 (s : State) (die : Nat) (lr : LaunchRec) (ctx : Nat) (gen : BitVec 8) (host : Bool) (hb : List Nat)
    (pv : List (Nat × Path)) (cancelled : Bool) (err : State → State) : State :=
  let job := lr.job.toNat
  let s := s.touchJob ctx job
  let base : Launch :=
    { lr := lr, ctx := ctx, gen := gen, die := die, host := host, bank := [], bankPois := [], made := 0, ended := 0
      finished := false, cancelled := cancelled, hb := hb, stores := [] }
  if cancelled then
    let (s1, n) := (s.jobStatus ctx job cCancelled).addLaunch base
    s1.checkLaunch n
  else match s.readBank die ctx lr.args { View.empty with hb := hb, pv := pv } with
  | none =>
    let (s1, n) := ((err s).jobStatus ctx job cLaunchRecord).addLaunch base
    s1.checkLaunch n
  | some (s0, bank, pois) =>
    let n := lr.numTiles
    let (s1, id) := s0.addLaunch { base with bank := bank, bankPois := pois, made := n }
    let own := (n + 1) / 2
    let msg (i : Nat) : TaskMsg := ⟨id, i, 0, ctx, gen⟩
    let other := 1 - die
    let s2 := s1.setDie die { s1.die die with toPlace := (s1.die die).toPlace ++ (List.range own).map msg }
    let s3 := s2.setDie other { s2.die other with
      toPlace := (s2.die other).toPlace ++ (List.range (n - own)).map fun i => msg (own + i) }
    (s3.postPlace die).postPlace other

/-- 16 R334: a record of a host ring is read, and HEAD advances. The doorbell's release makes what the host wrote before it visible to
the reads of the record and its bank, on whatever path they are. -/
def State.admitRing (s : State) (die ctx : Nat) (k : Ctx) : State :=
  let n := s.qHead k
  let a := s.slotAt k n
  let v : View := { View.empty with hb := k.hostHb, pv := k.hostHb.map fun i => (i, .F) }
  let slot : List Piece := [⟨a, 128, false, false⟩]
  let s0 := s.demandPieces slot (s.readPieces v .F slot 0)
  let g := s0.readPieces v .F slot 0
  let raw := g.bytes
  let head := (n + 1) % 2 ^ 32
  let s1 := (s0.hubStore die (k.q + 12) 4 head []).setCtx ctx { k with bells := k.bells.filter fun b => b.1.toNat ≠ head }
  let r := parseRecord raw
  let job := r.job.toNat
  let err (s : State) : State := (s.hubStore die (k.q + 36) 4 n []).countError ctx k
  if g.bad || !recordOk k raw then
    -- R335: the record is skipped
    let s2 := (err s1).jobStatus ctx job cLaunchRecord
    let s3 := s2.decrement die ctx job r.counter 2 []
    s3.complete ctx job cLaunchRecord (s3.storesSince s2)
  else s1.admit1 die r ctx (s1.gen ctx) true k.hostHb v.pv ((s1.die die).cancelled.contains (ctx, job)) err

/-- The pseudo-channels that the admission of a record reaches. -/
def State.admitPchs (s : State) (die : Nat) (cd : Cand) : List Nat :=
  let bank (ctx : Nat) (args : Word) : List Nat := if args = 0 then [] else s.vaPchs (.hub ctx die) args.toNat (2 ^ 16) .r
  match cd.src with
  | .pend c => (match (s.core c).pendq with
    | r :: _ => bank r.ctx r.lr.args
    | [] => [])
  | .ring x => match s.ctx? x with
    | some k =>
      let a := s.slotAt k (s.qHead k)
      let raw := Bytes.read s.mem.cells a 128
      let r := parseRecord raw
      -- of a record that is skipped the counter is decremented
      let count := if r.counter = 0 || recordOk k raw then [] else s.vaPchs (.hub x die) r.counter.toNat 8 .rw
      pchsOf a 128 ++ pchsOf k.q 48 ++ bank x r.args ++ count
    | none => []

/-- 16 R336: the dispatcher admits the next record, once no pseudo-channel holds what it reads (21 R392). -/
def execDispatchAdmit (die : Nat) (s : State) : Out :=
  .next (s.reading (.dispatchAdmit die) (s.queueReads die) fun s =>
    match s.nextCand die with
    | none => s
    | some cd =>
      s.holding (.dispatchAdmit die) (if s.flowing then [] else s.admitPchs die cd) fun s =>
      let s1 := match cd.src with
        | .pend c => (match (s.core c).pendq with
          | r :: rest =>
            let s1 := (s.setCore c { s.core c with pendq := rest }).launchWaiter c
            let key := (r.ctx, r.lr.job.toNat)
            if s1.gen r.ctx ≠ r.gen then s1
            else s1.admit1 die r.lr r.ctx r.gen false r.hb r.pv
              ((s1.core c).cancelled.contains key || (s1.die die).cancelled.contains key) id
          | [] => s)
        | .ring x => (match s.ctx? x with
          | some k => s.admitRing die x k
          | none => s)
      if (s1.nextCand die).isSome then s1.postAdmit die else s1)

/-! ### Placement (16 R337, R346) -/

/-- 19 R380, R381: the core's cluster is in C0 and not stepping. -/
def State.inC0 (s : State) (c : Nat) : Bool :=
  let p := (s.cluster (clusterOf c)).pm
  p.cur = 0#2 && !p.busy

/-- 16 R337, R346, 19 R380: the core takes a record from its dispatcher. A place is kept for the record a thief has asked for. -/
def State.takesTask (s : State) (c : Nat) : Bool :=
  let x := s.core c
  !x.draining && s.inC0 c && !(s.cluster (clusterOf c)).pm.dstop
    && x.backlog.length + (if x.steal.asking.isSome then 1 else 0) < 16

/-- 16 R337: the core served next: round-robin after the one served last. -/
def State.nextCore (s : State) (die : Nat) : Option Nat :=
  ((List.range 96).map fun i => 96 * die + ((s.die die).last + 1 + i) % 96).find? (s.takesTask ·)

/-- Let a core start a tile. -/
def State.postStart (s : State) (c : Nat) : State :=
  if s.agenda.contains (.tileStart c) then s else s.post (.tileStart c)

/-- A task record is discarded: it has ended (16 R338, R347). -/
def State.discard (s : State) (m : TaskMsg) : State :=
  match s.launch? m.launch with
  | some l => ((s.setLaunch m.launch { l with ended := l.ended + 1, cancelled := true }).jobStatus l.ctx l.lr.job.toNat
      cCancelled).checkLaunch m.launch
  | none => s

/-- 16 R340: a core may ask for a record. -/
def State.canSteal (s : State) (c : Nat) : Bool :=
  let x := s.core c
  x.backlog.isEmpty && !x.draining && x.steal.asking.isNone && !x.steal.backoff && s.inC0 c
def State.postSteal (s : State) (c : Nat) : State :=
  if s.canSteal c && !s.agenda.contains (.stealRequest c) then s.post (.stealRequest c) else s
/-- The records of a backlog that are not lent. -/
def Core.unlent (x : Core) : List Task := x.backlog.filter fun t => t.lent.isNone

/-- 16 R340: the cores that ask of their own accord: those of a die on which a record could be lent. A round on any other die finds
nothing and changes nothing else. -/
def State.thieves (s : State) : List Nat :=
  [0, 1].flatMap fun d =>
    if s.cores.any fun kv => dieOf kv.1 = d && 2 ≤ kv.2.unlent.length then
      ((List.range 96).map (96 * d + ·)).filter (s.canSteal ·)
    else []

/-- 16 R337: the dispatcher gives out its next record. -/
def execDispatchPlace (die : Nat) (s : State) : Out :=
  .next (let d := s.die die
    match d.toPlace with
    | [] => s
    | m :: rest =>
      let s0 := s.setDie die { d with toPlace := rest }
      if s.stale m then s0.postPlace die
      else
        let job := s.msgJob m
        if d.cancelled.contains (m.ctx, job) then (s0.discard m).postPlace die
        else match s.nextCore die with
        | none => s
        | some c =>
          let s1 := s0.setDie die { d with toPlace := rest, last := c % 96 }
          let x := s1.core c
          let s2 := s1.setCore c { x with backlog := x.backlog ++ [⟨m, none, s.tick⟩] }
          (((s2.sent m.ctx job (posOfDie die) (posOfCore c)).received m.ctx job (posOfCore c)).postStart c).postPlace die)

/-! ### Tile start (16 R337, R339, 02 R54, R62, 03 R75) -/

/-- The record a core would start next: highest priority, oldest first; contexts that are being switched out wait (17 R365). -/
def State.nextTask (s : State) (c : Nat) : Option (Task × Launch) :=
  let x := s.core c
  x.backlog.foldl (fun (b : Option (Task × Launch)) t =>
    if t.lent.isSome || x.stopped.contains t.msg.ctx then b
    else match s.launch? t.msg.launch with
      | none => b
      | some l => match b with
        | some w => if w.2.lr.priority < l.lr.priority then some (t, l) else some w
        | none => some (t, l)) none

/-- 16 R339. -/
def LaunchRec.reserve (r : LaunchRec) : Nat := 64 + r.carry * (32 + 256 * (r.emax / 32))
def round32 (n : Nat) : Nat := (n + 31) / 32 * 32

/-- The state with the tile started: its fibre, its scratch allocation, its tile set and its swap reserve. -/
def State.startTile (s : State) (c : Nat) (t : Task) (l : Launch) : State :=
  let r := l.lr
  let (entoff, window, scratch) := r.choice t.msg.tile
  let bx := r.tileBox t.msg.tile
  let base := match (s.ctx? l.ctx).bind fun k => k.objs.find? fun o => o.num = r.obj with
    | some o => o.codeBase
    | none => 0
  let i := s.fresh
  let set := l.ctx * 2 ^ 40 + 0x10000 + i
  let x := s.core c
  let inst : TileInst :=
    { launch := t.msg.launch, ctx := l.ctx, tile := t.msg.tile, box := bx, scratch := some i, tset := if r.tset then some set else none
      fork := none, joinHb := [], reserve := r.reserve, reserveUsed := false }
  let x1 := { x with
    backlog := x.backlog.filter (· ≠ t), insts := Tab.set x.insts i inst
    scratch := Tab.set x.scratch i ⟨l.ctx, scratch, [], []⟩
    sets := if r.tset then Tab.set x.sets set ⟨l.ctx, 0, 0⟩ else x.sets }
  let s1 := ({ s.setCore c x1 with fresh := s.fresh + 1 }).drawPool l.ctx r.reserve
  let f := s1.freshFibre l.ctx l.gen t.msg.launch (some i) bx window (base + BitVec.ofNat 64 entoff) l.hb
  (s1.addFibre c { f with sets := if r.tset then [set] else [] }).1

/-- 16 R337, R339, 02 R54, R62: the core has what the tile takes. -/
def State.tileFits (s : State) (c : Nat) (t : Task) (l : Launch) : Bool :=
  let s1 := s.startTile c t l
  (s1.core c).fits (Config.keepEntries, Config.keepForms, Config.keepBlocks, Config.keepRows)
    && (s1.core c).sets.length ≤ Config.maxSets
    && (Tab.vals (s1.core c).scratch).foldl (fun n x => n + round32 x.size) 0 ≤ 2097152
    && l.lr.reserve ≤ s.poolFree l.ctx && s.inC0 c

/-- 16 R347: the bit of a task record's job has arrived at the core. -/
def State.taskCancelled (s : State) (c : Nat) (t : Task) : Bool :=
  (s.core c).cancelled.contains (t.msg.ctx, s.msgJob t.msg)

/-- Whether the core would start or discard a record now. -/
def State.startable (s : State) (c : Nat) : Bool :=
  match s.nextTask c with
  | some (t, l) => s.taskCancelled c t || s.tileFits c t l
  | none => false

/-- 16 R337: a core starts the next record of its backlog. -/
def execTileStart (core : Nat) (s : State) : Out :=
  .next (match s.nextTask core with
    | none => s
    | some (t, l) =>
      let done (s : State) : State := (if s.startable core then s.postStart core else s.postSteal core).postPlace (dieOf core)
      if s.taskCancelled core t then
        let x := s.core core
        done ((s.setCore core { x with backlog := x.backlog.filter (· ≠ t) }).discard t.msg)
      else if s.tileFits core t l then done (s.startTile core t l)
      else s)

/-! ### Stealing (16 R340, R341) -/

/-- 16 R340: the cores a thief asks, in order. -/
def stealOrder (c : Nat) : List Nat :=
  let k := c / 8 * 8
  let d := c / 96 * 96
  ((List.range 7).map fun i => k + (c - k + 1 + i) % 8) ++ (List.range 88).map fun i => d + (k - d + 8 + i) % 96

def State.modSteal (s : State) (c : Nat) (f : StealSt → StealSt) : State :=
  s.setCore c { s.core c with steal := f (s.core c).steal }

/-- 16 R340: a core asks the next core of its round. -/
def execStealRequest (core : Nat) (s : State) : Out :=
  .next (if !s.canSteal core then s
    else match (stealOrder core)[(s.core core).steal.asked]? with
    | some v => (s.modSteal core fun x => { x with asking := some v }).post (.stealVictim v core)
    | none => s)

/-- 16 R341: the record a victim lends: the one without NOSTEAL that it would start last. -/
def State.lendable (s : State) (c : Nat) : Option Task :=
  let ok := (s.core c).unlent.filterMap fun t => match s.launch? t.msg.launch with
    | some l => if l.lr.nosteal then none else some (t, l.lr.priority)
    | none => none
  (ok.foldl (fun (b : Option (Task × Nat)) x => match b with
    | some w => if w.2 < x.2 then some w else some x
    | none => some x) none).map Prod.fst

/-- 16 R341, R346, 19 R382: a victim lends a record or answers "none". -/
def execStealVictim (victim thief : Nat) (s : State) : Out :=
  .next (let x := s.core victim
    let none_ := s.post (.stealNone thief)
    if x.draining || !s.inC0 victim || x.unlent.length < 2 then none_
    else match s.lendable victim with
    | none => none_
    | some t =>
      let m : TaskMsg := { t.msg with seq := t.msg.seq + 1 }
      let t' : Task := { t with msg := m, lent := some thief }
      let s1 := s.setCore victim { x with backlog := x.backlog.map fun u => if u = t then t' else u }
      (s1.sent m.ctx (s.msgJob m) (posOfCore victim) (posOfCore thief)).post (.lentRecord thief victim m))

/-- 16 R340: nothing was to be had; after a whole round the core waits before it asks again. A round that a
record of the dispatcher has interrupted goes on where it stopped (log 116). -/
def execStealNone (thief : Nat) (s : State) : Out :=
  .next (
    let x := (s.core thief).steal
    if x.asked + 1 < (stealOrder thief).length then
      (s.modSteal thief fun x => { x with asking := none, asked := x.asked + 1 }).postSteal thief
    else (s.modSteal thief fun _ => ⟨none, 0, true⟩).post (.stealRetryTimer thief))

/-- 16 R340: 1,024 clocks have passed: the core asks again. -/
def execStealRetryTimer (core : Nat) (s : State) : Out :=
  .next ((s.modSteal core fun x => { x with backoff := false }).postSteal core)

/-- 16 R346: the core drains: its unstarted records go back to its die's dispatcher. -/
def State.drainCore (s : State) (c : Nat) : State :=
  let x := s.core c
  let d := dieOf c
  let ts := x.unlent.map Task.msg
  let s1 := s.setCore c { x with draining := true, backlog := x.backlog.filter fun t => t.lent.isSome }
  let s2 := ts.foldl (fun s m => s.sent m.ctx (s.msgJob m) (posOfCore c) (posOfDie d)) s1
  if ts.isEmpty then s2 else s2.post (.unstartedRecordReturn d c ts)

/-- The same launch, tile and sequence number. -/
def sameTask (a b : TaskMsg) : Bool := a.launch = b.launch && a.tile = b.tile && a.seq = b.seq

/-- 16 R341, R343: the thief takes the record and acknowledges; one it holds or has handled is discarded. A core that drains sends
it on to its dispatcher (R346). -/
def execLentRecord (thief victim : Nat) (task : TaskMsg) (s : State) : Out :=
  .next (
    let s0 := s.modSteal thief fun _ => StealSt.idle
    let x := s0.core thief
    if s.stale task || x.handled.any (sameTask task ·) || x.backlog.any (fun t => sameTask task t.msg) then s0
    else
      let s1 := s0.setCore thief { x with backlog := x.backlog ++ [⟨task, none, s.tick⟩], handled := x.handled ++ [task] }
      let s2 := (s1.received task.ctx (s.msgJob task) (posOfCore thief)).post (.stealAck victim task)
      if x.draining then s2.drainCore thief else s2.postStart thief)

/-- 16 R341: the victim retires the lent record. -/
def execStealAck (victim : Nat) (task : TaskMsg) (s : State) : Out :=
  .next (let x := s.core victim
    if s.stale task || !x.backlog.any (fun t => t.lent.isSome && sameTask task t.msg) then s
    else
      let s1 := s.setCore victim { x with backlog := x.backlog.filter fun t => !(t.lent.isSome && sameTask task t.msg) }
      (s1.postSteal victim).postPlace (dieOf victim))

/-! ### The traverse token (16 R344, R345; 19 R382) -/

/-- An unadmitted record of the ring is of the job. -/
def State.ringHas (s : State) (ctx job : Nat) : Bool :=
  match s.ctx? ctx with
  | some k =>
    let n := (k.tail.toNat + 2 ^ 32 - s.qHead k) % 2 ^ 32
    (List.range n).any fun i => s.phys (s.slotAt k (s.qHead k + i) + 4) 4 = job
  | none => false

/-- What a look for the job's records in the ring reads. -/
def State.ringReads (s : State) (k : Ctx) : List (Nat × Nat) :=
  k.qRange :: (List.range ((k.tail.toNat + 2 ^ 32 - s.qHead k) % 2 ^ 32)).map fun i => (s.slotAt k (s.qHead k + i) + 4, 4)

/-- The core holds work of the job. -/
def State.coreHasJob (s : State) (c ctx job : Nat) : Bool :=
  let x := s.core c
  let is (launch : Nat) : Bool := s.jobOf launch = some (ctx, job)
  x.backlog.any (fun t => is t.msg.launch) || x.pendq.any (fun r => r.ctx = ctx && r.lr.job.toNat = job)
    || x.threads.any (fun t => is t.launch) || x.copyq.any (fun q => is q.launch) || x.forkq.any (fun f => is f.launch)
    || (match x.stream with
      | some y => is y.th.launch
      | none => false)
    || (match (s.ctx? ctx).bind fun k => Tab.find? k.saved c with
      | some v => (Tab.vals v.fibres).any (fun t => is t.launch) || v.copyq.any (fun q => is q.launch)
          || v.forkq.any (fun f => is f.launch) || v.stream.any (fun y => is y.th.launch)
      | none => false)

/-- 16 R344, R338: a position is passive for a job; a dispatcher with a launch that it admitted and that has not finished is not. -/
def State.passive (s : State) (pos ctx job : Nat) : Bool :=
  match dieOfPos pos, coreOfPos pos with
  | some d, _ =>
    !(s.die d).toPlace.any (fun m => s.jobOf m.launch = some (ctx, job)) && !(ctx % 2 = d && s.ringHas ctx job)
      && !(Tab.vals s.launches).any (fun l => l.die = d && l.ctx = ctx && l.lr.job.toNat = job)
      && !s.agenda.any fun i => match i with
        | .unstartedRecordReturn e _ ts => e = d && ts.any fun m => s.jobOf m.launch = some (ctx, job)
        | _ => false
  | none, some c => !s.coreHasJob c ctx job
  | none, none => true

/-- 16 R345: the job completes; its cancel bit clears. -/
def State.completeJob (s : State) (ctx job : Nat) (k : Ctx) (j : Job) : State :=
  let s1 := s.setCtx ctx { k with jobs := Tab.del k.jobs job }
  let s2 := { s1 with
    cores := s1.cores.map fun (kv : Nat × Core) => (kv.1, { kv.2 with cancelled := kv.2.cancelled.filter (· ≠ (ctx, job)) })
    dies := s1.dies.map fun (kv : Nat × Die) => (kv.1, { kv.2 with cancelled := kv.2.cancelled.filter (· ≠ (ctx, job)) }) }
  s2.complete ctx job j.status j.hb

/-- The token leaves a position: its count is added, its blackness passes on, it turns white. An always-on interface adds the
count and does not blacken (19 R382). -/
def Job.passToken (j : Job) (t : Token) (asleep : Bool) : Job :=
  let black := j.black.contains t.at_ && !asleep
  { j with token := some { t with at_ := (t.at_ + 1) % numPositions, sum := t.sum + Tab.get j.counts 0 t.at_, black := t.black || black }
           black := j.black.filter (· ≠ t.at_) }

/-- 16 R344, R345: the token moves on by one position, or a round begins or ends at position 0. -/
def State.moveToken (s : State) (ctx job : Nat) (k : Ctx) (j : Job) : State :=
  let put (j : Job) : State := (s.setCtx ctx { k with jobs := Tab.set k.jobs job j }).post (.traverseToken ctx job)
  let start (clean : Nat) : State := put { j with token := some ⟨1, false, 0, clean⟩, black := j.black.filter (· ≠ 0) }
  match j.token with
  | none => start 0
  | some t =>
    if t.at_ = 0 then
      (if !t.black && t.sum + Tab.get j.counts 0 0 = 0 then
        (if t.clean = 1 then s.completeJob ctx job k j else start (t.clean + 1))
      else start 0)
    else put (j.passToken t (match coreOfPos t.at_ with
      | some c => !s.inC0 c
      | none => false))

def execTraverseToken (ctx job : Nat) (s : State) : Out :=
  .next (match s.ctx? ctx with
    | none => s
    | some k => match Tab.find? k.jobs job with
      | none => s
      | some j =>
        let pos := (j.token.map Token.at_).getD 0
        s.reading (.traverseToken ctx job) (if dieOfPos pos = some (ctx % 2) then s.ringReads k else []) fun s =>
        if s.passive pos ctx job then s.moveToken ctx job k j else s.post (.traverseToken ctx job))

/-! ### Draining (16 R346) -/

/-- 16 R346, 19 R380: the notice to drain reaches a core; one that DSTOP no longer asks for has no effect. -/
def execDrainNotice (core : Nat) (s : State) : Out :=
  .next (if (s.cluster (clusterOf core)).pm.dstop then s.drainCore core else s)

/-- A record goes back to its place in the dispatcher's order: ascending tile number within its launch. -/
def insertTask (m : TaskMsg) : List TaskMsg → List TaskMsg
  | [] => [m]
  | x :: t => if x.launch = m.launch && m.tile < x.tile then m :: x :: t else x :: insertTask m t

/-- 16 R346, R343: returned records reach the dispatcher. -/
def execUnstartedRecordReturn (die from_ : Nat) (tasks : List TaskMsg) (s : State) : Out :=
  .next (if from_ / 96 ≠ die then s
    else
      let live := tasks.filter fun m => !s.stale m
      let s1 := live.foldl (fun s m =>
        (s.setDie die { s.die die with toPlace := insertTask m (s.die die).toPlace }).received m.ctx (s.msgJob m) (posOfDie die)) s
      s1.postPlace die)

/-! ### Cancellation (16 R347) -/

/-- 16 R347: the copy commands of a job on a core end, without completion words, their tokens idle; but one inside a split granule
goes on to its boundary. -/
def State.cancelCopies (s : State) (c : Nat) (is : Nat → Bool) : State :=
  ((s.core c).copyq.filter fun q => is q.launch && !q.midway).foldl (fun s q => s.copyGone c q) s

/-- 16 R347: FORKs of a job that have not begun are dropped, and its stream, where it does not run, ends. -/
def State.cancelStreams (s : State) (c : Nat) (is : Nat → Bool) : State :=
  let fs := (s.core c).forkq.filter fun f => is f.launch
  let s1 := s.setCore c { s.core c with forkq := (s.core c).forkq.filter fun f => !is f.launch }
  let s2 := fs.foldl (fun s f => (((s.modInst c f.inst fun ti => { ti with fork := none }).wakeFork c f.inst).checkInst c f.inst)) s1
  match (s2.core c).stream with
  | some x => if is x.th.launch && x.th.st ≠ .ready then s2.streamEnd c else s2
  | none => s2

/-- 16 R347: where the bit has arrived, what waits ends at once; what runs ends at its next boundary. -/
def State.cancelWork (s : State) (c ctx job : Nat) : State :=
  let is (launch : Nat) : Bool := s.jobOf launch = some (ctx, job)
  let es := (s.core c).fibres.filterMap fun kv => if is kv.2.launch && kv.2.st ≠ .ready then some kv.1 else none
  ((es.foldl (fun s e => s.killFibre c e) s).cancelCopies c is).cancelStreams c is
def State.cancelAt (s : State) (c ctx job : Nat) : State := (s.cancelWork c ctx job).postStart c

/-- 16 R347: what has begun to wait since its job's bit arrived ends. -/
def State.cancelSweep (s : State) : State :=
  s.cores.foldl (fun s kc => kc.2.cancelled.foldl (fun s k => s.cancelWork kc.1 k.1 k.2) s) s

/-- The fibres on a core that wait for CANCEL of a job. -/
def Thread.cancels (t : Thread) (ctx job : Nat) : Bool :=
  t.ctx = ctx && match t.why with
    | .cancel j _ => j = job
    | _ => false

/-- 16 R347: the bit arrives at a position, which acts on it and acknowledges to every core that waits. -/
def State.cancelArrive (s : State) (pos ctx job : Nat) (gen : Nat) : State :=
  let key := (ctx, job)
  let s1 := match dieOfPos pos, coreOfPos pos with
    | some d, _ => s.setDie d { s.die d with cancelled := if (s.die d).cancelled.contains key then (s.die d).cancelled
        else (s.die d).cancelled ++ [key] }
    | none, some c => s.setCore c { s.core c with cancelled := if (s.core c).cancelled.contains key then (s.core c).cancelled
        else (s.core c).cancelled ++ [key] }
    | none, none => s
  let live := (Tab.vals s.launches).any fun l => l.ctx = ctx && l.lr.job.toNat = job
  let s2 := if live then s1.jobStatus ctx job cCancelled else s1
  let s3 := match coreOfPos pos with
    | some c => s2.cancelAt c ctx job
    | none => s2
  (Tab.keys s3.cores).foldl (fun s c =>
    if (s.core c).threads.any (·.cancels ctx job) then s.post (.cancelAcknowledgement c pos ctx job gen) else s) s3

/-- 16 R347, R343. -/
def execCancelBroadcast (pos ctx job gen : Nat) (s : State) : Out :=
  .next (if (s.gen ctx).toNat ≠ gen then s else s.cancelArrive pos ctx job gen)

/-- 16 R347: a position has acknowledged; CANCEL completes with the last. -/
def execCancelAcknowledgement (core pos ctx job gen : Nat) (s : State) : Out :=
  .next (if (s.gen ctx).toNat ≠ gen then s
    else (s.core core).fibres.foldl (fun s kv => match kv.2.why with
      | .cancel j left =>
        if kv.2.ctx ≠ ctx || j ≠ job then s
        else
          let left := left.filter (· ≠ pos)
          if left.isEmpty then (s.setFibre core kv.1 { kv.2 with st := .ready, why := .none }).resourcesFreed core
          else s.setFibre core kv.1 { kv.2 with why := .cancel j left }
      | _ => s) s)

end Sys2Proof.Machine
end

