-- ==== Sys2Proof/Machine/Power.lean ====
section
/-!
DEFINITION. Cluster power states: the CLPM registers, steps, FLUSH, SAVE and RESTORE, the always-on interface (19 R380-R384).
-/

namespace Sys2Proof.Machine

open Sys2Proof

/-- The cores of a cluster. -/
def coresOf (k : Nat) : List Nat := (List.range 8).map fun i => 8 * k + i

/-! ### What the registers read (19 R380) -/

/-- 19 R380: the core holds no fibre, stream or record, no copy command that has not completed, and no lend is open. -/
def Core.idle (x : Core) : Bool :=
  x.fibres.isEmpty && x.stream.isNone && x.forkq.isEmpty && x.backlog.isEmpty && x.pendq.isEmpty && x.copyq.isEmpty

def State.idleMask (s : State) (k : Nat) : Nat :=
  (List.range 8).foldl (fun n i => if (s.core (8 * k + i)).idle then n + 2 ^ i else n) 0

/-- 17 R364, 19 R380: the core's copy engine and sequencer stand at points where they can stop. -/
def Core.engineStopped (x : Core) : Bool :=
  !x.copyq.any CopyCmd.midway && !x.stream.any (!·.stopped)

/-- 19 R383: ESTOPPED. -/
def State.estopped (s : State) (k : Nat) : Bool :=
  (s.cluster k).pm.estop && (coresOf k).all fun c => (s.core c).engineStopped

def Clpm.ctl (p : Clpm) : Word :=
  BitVec.ofNat 64 (p.tgt.toNat * 16 + p.go.toNat * 8 + p.estop.toNat * 4 + p.flush.toNat * 2 + p.dstop.toNat)
def State.clpmStat (s : State) (k : Nat) : Word :=
  let p := (s.cluster k).pm
  BitVec.ofNat 64 (s.idleMask k * 256 + p.err.toNat * 128 + p.retv.toNat * 64 + p.flushed.toNat * 32 + (s.estopped k).toNat * 16
    + p.busy.toNat * 8 + p.cur.toNat)
def Clpm.retn (p : Clpm) : Word :=
  BitVec.ofNat 64 (p.used.toNat * 4096 + p.rerr.toNat * 4 + p.restore.toNat * 2 + p.save.toNat)
def Clpm.wake (p : Clpm) : Word := BitVec.ofNat 64 p.pend.toNat

/-! ### Writes -/

def State.setPm (s : State) (k : Nat) (p : Clpm) : State := s.setCluster k { s.cluster k with pm := p }

/-- 19 R381, R383: whether a GO is refused. -/
def State.goRefused (s : State) (k : Nat) (tgt : BitVec 2) : Bool :=
  let p := (s.cluster k).pm
  let step := tgt.toNat = p.cur.toNat + 1 || tgt.toNat + 1 = p.cur.toNat
  !step || (p.cur = 0#2 && !(s.idleMask k = 0xFF && s.estopped k && p.flushed)) || (p.cur = 1#2 && tgt = 2#2 && !p.retv)

/-- 19 R383: GO toward a state. While a step is in progress it is ignored whole; a refused step changes nothing but ERR; else `k`
stores the fields written with it, and the step starts. Whether it is refused is judged before those fields change (log 27). -/
def State.clpmStart (s : State) (k : Nat) (tgt : BitVec 2) (fields : State → State) : State :=
  let p := (s.cluster k).pm
  if p.busy then s
  else if s.goRefused k tgt then s.setPm k { p with err := true }
  else
    let s1 := fields s
    (s1.setPm k { (s1.cluster k).pm with err := false, go := true, busy := true, dest := tgt }).post (.clpmStepDone k)

/-- 19 R380: ESTOP is written; engines that were stopped may go on. -/
def State.setEstop (s : State) (k : Nat) (on : Bool) : State :=
  let s1 := s.setPm k { (s.cluster k).pm with estop := on }
  if on then s1 else (coresOf k).foldl (fun s c =>
    let s2 := (s.kickCopies c).postStream c
    match (s2.core c).stream with
    | some x => if x.th.why = .header then s2.post (.tileInstructionCompletion c x.th.ctx) else s2
    | none => s2) s1

/-- 19 R380, 16 R346: DSTOP is written: the cores drain, or take records again. -/
def State.setDstop (s : State) (k : Nat) (on : Bool) : State :=
  let p := (s.cluster k).pm
  let s1 := s.setPm k { p with dstop := on, flushed := p.flushed && on }
  let s2 := if on = p.dstop then s1
    else if on then (coresOf k).foldl (fun s c => s.post (.drainNotice c)) s1
    else (coresOf k).foldl (fun s c => (s.setCore c { s.core c with draining := false }).postSteal c) s1
  if on then s2 else s2.postPlace (dieOf (8 * k))

/-- 19 R380: FLUSH is written. -/
def State.startFlush (s : State) (k : Nat) : State :=
  (s.setPm k { (s.cluster k).pm with flush := true, flushed := false }).post (.flushDone k)

/-- The RW fields of a write of CLPM_CTL, and its FLUSH. -/
def State.writeCtlFields (k : Nat) (v : Word) (s : State) : State :=
  let s1 := s.setPm k { (s.cluster k).pm with tgt := v.extractLsb' 4 2 }
  let s2 := (s1.setEstop k (v.getLsbD 2)).setDstop k (v.getLsbD 0)
  if v.getLsbD 1 then s2.startFlush k else s2

/-- 19 R380, R383: a write of CLPM_CTL. -/
def State.writeCtl (s : State) (k : Nat) (v : Word) : State :=
  if v.getLsbD 3 then s.clpmStart k (v.extractLsb' 4 2) (State.writeCtlFields k v) else State.writeCtlFields k v s

/-- 19 R384: SAVE is written. -/
def State.startSave (s : State) (k : Nat) : State :=
  let p := (s.cluster k).pm
  if p.save || p.restore || p.busy || p.cur ≠ 0#2 || !s.estopped k then s
  else (s.setPm k { p with save := true }).post (.saveDone k)
/-- 19 R384: RESTORE is written. -/
def State.startRestore (s : State) (k : Nat) : State :=
  let p := (s.cluster k).pm
  if p.save || p.restore || p.busy then s
  else if !p.retv then s.setPm k { p with rerr := true }
  else (s.setPm k { p with restore := true }).post (.restoreDone k)

/-- 19 R384: a write of CLPM_RETN; one that has both bits set is a SAVE, during which the RESTORE is ignored (log 98). -/
def State.writeRetn (s : State) (k : Nat) (v : Word) : State :=
  let s1 := if v.getLsbD 0 then s.startSave k else s
  if v.getLsbD 1 then s1.startRestore k else s1

/-- 19 R380: CLPM_WAKE.PEND is W1C. -/
def State.clearWake (s : State) (k : Nat) : State := s.setPm k { (s.cluster k).pm with pend := false }

/-! ### The operations as steps -/

/-- TGT is stored as the target of an accepted step. -/
def State.setTgt (k : Nat) (tgt : BitVec 2) (s : State) : State := s.setPm k { (s.cluster k).pm with tgt := tgt }

/-- 19 R383: GO toward a state. -/
def execClpmGo (cluster tgt : Nat) (s : State) : Out :=
  .next (s.clpmStart cluster (BitVec.ofNat 2 tgt) (State.setTgt cluster (BitVec.ofNat 2 tgt)))

/-- 19 R381: what C3 leaves of a core's state for a context: nothing of the tile file. Tiles that FLUSH has not saved hold
undefined bytes. -/
def CoreCtx.afterOff (k : CoreCtx) (draw : Nat) : CoreCtx :=
  let junk (t : Nat) : Tile :=
    ⟨Bytes.pack 0 ((List.range 4096).map fun i => Config.freeByte draw (4096 * t + i)),
      Bytes.pack 0 ((List.range 32).map fun i => Config.freeByte draw (600000 + 32 * t + i)), false, (k.tile t).version + 1⟩
  { k with tiles := (List.range 128).map fun t => (t, junk t), hold := none, resid := [], ops := [] }

/-! ### The tile state in the save area (17 R366, 19 R381) -/

/-- 17 R366: the base of a core's area. -/
def Ctx.areaOf (k : Ctx) (c : Nat) : Nat := k.save.toNat + 12 * 2 ^ 20 * c

/-- 17 R366: the tile and scale parts of a core's save area. -/
def tileImage (k : CoreCtx) : List Byte :=
  ((List.range 128).flatMap fun t => Bytes.read (k.tile t).bytes 0 4096)
    ++ (List.range 128).flatMap fun t => Bytes.read (k.tile t).scale 0 32

/-- Bytes of a part of the area whose inner layout is not given (log 60). -/
def State.areaFree (s : State) (tag n : Nat) : List Byte := (List.range n).map fun i => Config.freeByte s.draw (700000 + 2 ^ 20 * tag + i)

/-- A core's write to its save area. -/
def State.areaStore (s : State) (c a : Nat) (bs : List Byte) : State :=
  (s.storeAt View.empty none a bs (List.replicate bs.length false) .X c none).1

/-- What the tile and scale parts of the area hold, put back into the tiles; a tile whose lines are poisoned by now is poisoned. -/
def State.tilesBack (s : State) (a : Nat) (k : CoreCtx) : CoreCtx :=
  { k with tiles := (List.range 128).map fun t =>
      let b := a + 0x60000 + 4096 * t
      let e := a + 0xE0000 + 32 * t
      (t, ⟨Bytes.pack 0 (Bytes.read s.mem.cells b 4096), Bytes.pack 0 (Bytes.read s.mem.cells e 32),
        (k.tile t).poison || s.badRead none b 4096 || s.badRead none e 32, (k.tile t).version⟩) }

/-- 21 R387: the tile and scale parts of the area are read. -/
def State.demandTiles (s : State) (a : Nat) : State := (s.demand (a + 0x60000) (128 * 4096)).demand (a + 0xE0000) (128 * 32)

/-- 19 R381: back in C0 the cores are reset and idle; each context's saved tile state is what its next use finds. What the next streams
follow of the earlier ones stays (13 R305). -/
def State.resetCore (s : State) (c : Nat) : State :=
  let x := s.core c
  let s := x.cctx.foldl (fun s kv => match s.ctx? kv.1 with
    | some k => if (Tab.find? k.flushed c).isSome then s.demandTiles (k.areaOf c) else s
    | none => s) s
  let back := x.cctx.map fun (kv : Nat × CoreCtx) =>
    (kv.1, match s.ctx? kv.1 with
      | some k => (match Tab.find? k.flushed c with
        | some f => { s.tilesBack (k.areaOf c) f with sregs := kv.2.sregs, hold := none, resid := [], ops := [] }
        | none => kv.2)
      | none => kv.2)
  s.setCore c { Core.reset with cctx := back, draining := x.draining, cancelled := x.cancelled, handled := x.handled, stopped := x.stopped, xview := x.xview }

/-- The pseudo-channels that a return to C0 reads: the tile and scale parts that were saved. -/
def State.backPchs (s : State) (cluster : Nat) : List Nat :=
  (coresOf cluster).flatMap fun c => (s.core c).cctx.flatMap fun kv => match s.ctx? kv.1 with
    | some k => if (Tab.find? k.flushed c).isSome then pchsOf (k.areaOf c + 0x60000) 0x81000 else []
    | none => []

/-- 19 R381, R383: the step in progress is done. While a pseudo-channel that it reads holds accesses, it goes on (21 R392). -/
def execClpmStepDone (cluster : Nat) (s : State) : Out :=
  .next (let p := (s.cluster cluster).pm
    if !p.busy then s
    else s.holding (.clpmStepDone cluster) (if p.dest = 0#2 then s.backPchs cluster else []) fun s =>
      let s1 := s.setPm cluster { p with go := false, busy := false, cur := p.dest }
      if p.dest = 3#2 then (coresOf cluster).foldl (fun s c =>
        let x := s.core c
        s.setCore c { x with scratch := [], cctx := x.cctx.map fun (kv : Nat × CoreCtx) => (kv.1, kv.2.afterOff s.draw) }) s1
      else if p.dest = 0#2 then (coresOf cluster).foldl State.resetCore s1
      else s1)

/-- 19 R381: a core keeps the tile state of a context in its save area. -/
def State.flushTiles (s : State) (c ctx : Nat) (k : CoreCtx) : State :=
  match s.ctx? ctx with
  | none => s
  | some x =>
    let a := x.areaOf c
    let s1 := (s.areaStore c (a + 0x1000) (s.areaFree 0 4096)).areaStore c (a + 0x60000) (tileImage k)
    s1.setCtx ctx { x with flushed := Tab.set x.flushed c k }

/-- 19 R381: the context has tile state on the core: a configuration that it has written, or tiles under the reset one (09 R249). -/
def CoreCtx.hasTiles (k : CoreCtx) : Bool := k.cfgSet || k ≠ CoreCtx.reset

/-- The pseudo-channels that a FLUSH of the cluster stores to. -/
def State.flushPchs (s : State) (cluster : Nat) : List Nat :=
  (coresOf cluster).flatMap fun c => (s.core c).cctx.flatMap fun kv => match s.ctx? kv.1 with
    | some x => if kv.2.hasTiles then pchsOf (x.areaOf c + 0x1000) 4096 ++ pchsOf (x.areaOf c + 0x60000) 0x81000 else []
    | none => []

/-- 19 R380: FLUSH is complete: tile state is saved and every scratchpad of the cluster is clear. While a pseudo-channel that it
stores to holds accesses, it waits (21 R392). -/
def execFlushDone (cluster : Nat) (s : State) : Out :=
  .next (let p := (s.cluster cluster).pm
    if !p.flush then s
    else s.holding (.flushDone cluster) (s.flushPchs cluster) fun s =>
      let s1 := s.setPm cluster { p with flush := false, flushed := true }
      (coresOf cluster).foldl (fun s c =>
        let s2 := ((s.core c).cctx.filter fun kv => kv.2.hasTiles).foldl (fun s kv => s.flushTiles c kv.1 kv.2) s
        let x := s2.core c
        s2.setCore c { x with scratch := x.scratch.map fun (kv : Nat × Scratch) =>
          (kv.1, { kv.2 with bytes := (List.range kv.2.size).map fun i => (i, 0#8), pbytes := [] }) }) s1)

def execFlush (cluster : Nat) (s : State) : Out := .next (s.startFlush cluster)
def execEstop (cluster : Nat) (on : Bool) (s : State) : Out := .next (s.setEstop cluster on)
def execDstop (cluster : Nat) (on : Bool) (s : State) : Out := .next (s.setDstop cluster on)
def execSave (cluster : Nat) (s : State) : Out := .next (s.startSave cluster)
def execRestore (cluster : Nat) (s : State) : Out := .next (s.startRestore cluster)

/-- 07 R198: a context's CSRs, and a context with them. -/
def Ctx.csrs (k : Ctx) : CtxCsrs := ⟨k.knit, k.wdog, k.swapDelay, k.rwF, k.rwR, k.rwEn⟩
def Ctx.withCsrs (k : Ctx) (r : CtxCsrs) : Ctx :=
  { k with knit := r.knit, wdog := r.wdog, swapDelay := r.delay, rwF := r.rwF, rwR := r.rwR, rwEn := r.rwEn }

/-- 19 R381, R384: the save is done: the trap queue and the per-context CSRs are kept. The number of blocks it takes, and what the
cores' configuration and trim are beyond what R380 to R382 keep, is not specified (log 27). -/
def execSaveDone (cluster : Nat) (s : State) : Out :=
  .next (let c := s.cluster cluster
    if !c.pm.save then s
    else s.setPm cluster { c.pm with
      save := false, retv := true, used := Config.retentionUsed s.draw, kept := c.trapq, crcOk := true
      keptCsr := s.ctxs.map fun (kv : Nat × Ctx) => (kv.1, kv.2.csrs) })

/-- 19 R380, R384: the store is copied back, unless its CRC does not match. -/
def execRestoreDone (cluster : Nat) (s : State) : Out :=
  .next (let c := s.cluster cluster
    if !c.pm.restore then s
    else if c.pm.crcOk then
      { s.setCluster cluster { c with trapq := c.pm.kept, pm := { c.pm with restore := false, rerr := false } } with
        ctxs := s.ctxs.map fun (kv : Nat × Ctx) => (kv.1, match Tab.find? c.pm.keptCsr kv.1 with
          | some r => kv.2.withCsrs r
          | none => kv.2) }
    else s.setPm cluster { c.pm with restore := false, rerr := true })

/-- 19 R380: firmware's write of 1 to PEND. -/
def execClpmWake (cluster : Nat) (s : State) : Out := .next (s.clearWake cluster)
/-- 19 R372: a host write to the BAR0 mirror. -/
def execClpmWakeMirror (cluster : Nat) (s : State) : Out :=
  .next (s.setPm cluster { (s.cluster cluster).pm with pend := true })

/-- 19 R382: what the always-on interface answers while the cluster's cores are off. -/
def execAlwaysOnAnswer (cluster : Nat) (msg : AlwaysOnMsg) (s : State) : Out :=
  .next (if (s.cluster cluster).pm.cur = 0#2 then s
    else match msg with
    | .stealRequest core thief => if clusterOf core = cluster then s.post (.stealNone thief) else s
    | .promotion from_ entry => s.post (.promotionReply from_ entry)
    | .cancel core ctx job => if clusterOf core = cluster then s.cancelArrive (posOfCore core) ctx job (s.gen ctx).toNat else s
    | .token ctx job =>
      match (s.ctx? ctx).bind fun k => (Tab.find? k.jobs job).map fun j => (k, j) with
      | some (k, j) =>
        (match j.token.bind fun t => coreOfPos t.at_ with
        | some c => if clusterOf c = cluster then
            (let s1 := s.moveToken ctx job k j
            if s.agenda.contains (.traverseToken ctx job) then { s1 with agenda := s.agenda } else s1) else s
        | none => s)
      | none => s)

end Sys2Proof.Machine
end

