-- ==== Sys2Proof/Machine/System.lean ====
section
/-!
DEFINITION. The privileged instructions: CSR access, the fibre-state window, FRESUME, REPLAY, TLBI, ERET, SLEEP, and the handler
entry of a management core (07 R196-R209; 17 R350-R356).
-/

namespace Sys2Proof.Machine

open Sys2Proof

/-! ### CSR values (07 R197-R200) -/

/-- 07 R200: pending wake events, bits [6:4] of MC_STAT as bits [2:0]. The mailbox doorbell is pending on every cluster while
its command runs (log 85). -/
def State.wakeBits (s : State) (k : Nat) : BitVec 3 :=
  BitVec.ofNat 3 ((if (s.cluster k).trapq.isEmpty then 0 else 1) + (if (s.cluster k).pm.pend then 2 else 0)
    + (if s.host.mb.busy then 4 else 0))

def State.mcStat (s : State) (k : Nat) : Word :=
  let m := s.mc k
  BitVec.ofNat 64 ((s.wakeBits k).toNat * 16 + (if m.inh then 4 else 0) + (if (s.cluster k).trapq.isEmpty then 0 else 2)
    + (if m.ie then 1 else 0))

/-- 07 R276. -/
def State.trapCauseValue (s : State) (k : Nat) : Word :=
  match (s.cluster k).trapq with
  | r :: _ => BitVec.ofNat 64 (256 + r.cause.toNat)
  | [] => 0

/-- The per-context CSRs (07 R198), MSTAT as of a core. -/
def State.ctxCsr (s : State) (core ctx : Nat) (x : Ctx) (csr : Nat) : Option Word :=
  match csr with
  | 0x010 => some (x.knit.setWidth 64)
  | 0x011 => some (x.wdog.setWidth 64)
  | 0x012 => some (x.swapDelay.setWidth 64)
  | 0x020 => some (BitVec.ofNat 64 ((if x.rwF then 4 else 0) + (if x.rwR then 2 else 0) + (if x.rwEn then 1 else 0)))
  | 0x021 => some ((s.core core).ctx ctx).mstat
  | _ => none

/-- The CSRs of a cluster and its management core. -/
def State.mcCsr (s : State) (k csr : Nat) : Option Word :=
  let m := s.mc k
  let p := (s.cluster k).pm
  match csr with
  | 0x100 => some (s.trapCauseValue k)
  | 0x200 => some (s.mcStat k)
  | 0x201 => some m.epc
  | 0x202 => some (m.cause.setWidth 64)
  | 0x203 => some m.hvec
  | 0x204 => some (m.ctxsel.setWidth 64)
  | 0x205 => some (BitVec.ofNat 64 (m.root.toNat * 2 ^ 16 + m.en.toNat))
  | 0x300 => some p.ctl
  | 0x301 => some (s.clpmStat k)
  | 0x302 => some p.retn
  | 0x303 => some p.wake
  | _ => none

/-- Who accesses CSRs: the context reached, the core of MSTAT, and the cluster of a management core. -/
structure CsrBy where
  ctx  : Nat
  core : Nat
  mc   : Option Nat
deriving DecidableEq, Repr

/-- 07 R198: the current agent's reach. Which core's MSTAT a management core reaches is not specified: one of its cluster's
(log 28). -/
def State.csrBy (s : State) : CsrBy :=
  match s.turn with
  | .mc k => ⟨(s.mc k).ctxsel.toNat, 8 * k + Config.pick s.draw 0x21 0 % 8, some k⟩
  | .fibre c e => ⟨((s.fibre? c e).map Thread.ctx).getD 0, c, none⟩
  | _ => ⟨0, 0, none⟩

/-- 07 R198: a CSR's value; none where it has no such CSR, or the context does not exist. -/
def State.csrGet (s : State) (b : CsrBy) (csr : Nat) : Option Word :=
  if csr < 0x100 then (s.ctx? b.ctx).bind fun x => s.ctxCsr b.core b.ctx x csr
  else b.mc.bind fun k => s.mcCsr k csr

/-! ### CSR writes (07 R199) -/

/-- 07 R202: a write of MC_EPC. -/
def State.writeEpc (s : State) (k : Nat) (v : Word) : State := s.setMc k { s.mc k with epc := v, resume := .header }
/-- 07 R200, R402: a write of MC_PTROOT drops the management core's translations. -/
def State.writePtroot (s : State) (k : Nat) (v : Word) : State :=
  s.setMc k { s.mc k with root := v.extractLsb' 16 36, en := v.getLsbD 0, tlb := [] }

def State.putCtxCsr (s : State) (core ctx : Nat) (x : Ctx) (csr : Nat) (v : Word) : State :=
  match csr with
  | 0x010 => s.setCtx ctx { x with knit := v.setWidth 10 }
  | 0x011 => s.setCtx ctx { x with wdog := v.setWidth 32 }
  | 0x012 => s.setCtx ctx { x with swapDelay := v.setWidth 32 }
  | 0x020 => s.setCtx ctx { x with rwF := v.getLsbD 2, rwR := v.getLsbD 1, rwEn := v.getLsbD 0 }
  | 0x021 => s.setCore core ((s.core core).setCtx ctx (((s.core core).ctx ctx).clearSticky v))
  | _ => s

def State.putMcCsr (s : State) (k csr : Nat) (v : Word) : State :=
  match csr with
  | 0x100 => if v.getLsbD 8 then s.popTrap k else s
  | 0x200 => s.setMc k { s.mc k with ie := v.getLsbD 0 }
  | 0x201 => s.writeEpc k v
  | 0x203 => s.setMc k { s.mc k with hvec := v &&& ~~~7#64 }
  | 0x204 => s.setMc k { s.mc k with ctxsel := v.setWidth 6 }
  | 0x205 => s.writePtroot k v
  | 0x300 => s.writeCtl k v
  | 0x302 => s.writeRetn k v
  | 0x303 => if v.getLsbD 0 then s.clearWake k else s
  | _ => s

/-- 07 R197, R8: write a CSR. -/
def State.csrPut (s : State) (b : CsrBy) (csr : Nat) (v : Word) : State :=
  if csr < 0x100 then
    match s.ctx? b.ctx with
    | some x => s.putCtxCsr b.core b.ctx x csr v
    | none => s
  else match b.mc with
  | some k => s.putMcCsr k csr v
  | none => s

/-- 07 R197: an n32 operation leaves bits [63:32] unchanged. -/
def csrMerge (w64 : Bool) (old v : Word) : Word := if w64 then v else (old >>> 32 <<< 32) ||| low32 v

/-- 07 R197: the four instructions: `f` makes the value written from the old one and the source. A number out of reach traps
whatever the guard (05 R137); a context that does not exist traps the access. -/
def State.csrOp (s : State) (o : CsrO) (reads : Bool) (f : Word → Word → Word) : State :=
  let b := s.csrBy
  if !csrListed b.mc.isSome o.csr.toNat then s.trapAll cReservedField
  else s.guardedDst o.g fun mask s =>
    match s.cur?, s.csrGet b o.csr.toNat with
    | some _, none => s.trapAll cReservedField
    | some t, some old =>
      if mask = some [] then s.orWait (s.deliver o.d (if o.w64 then .w64 else .w32 false) mask false (Opd.ofU 0)) else
      let x := if reads then t.src s.draw o.a o.w64 else Opd.ofU 0
      if !x.isU then s.trapAll cNonuniform
      else if x.pAll then s.poisonTrap mask false
      else
        let w : RW := if o.w64 then .w64 else .w32 false
        let act (s : State) : State :=
          let s1 := if reads then s.csrPut b o.csr.toNat (csrMerge o.w64 old (f old x.u)) else s
          s1.deliver o.d w mask false (Opd.ofU (if o.w64 then old else low32 old))
        if mask.isSome then s.orWait (act s) else s.forU o.d w act
    | _, _ => s

def execCsrr (o : CsrO) (s : State) : Out := .next (s.csrOp o false fun old _ => old)
def execCsrw (o : CsrO) (s : State) : Out := .next (s.csrOp o true fun _ x => x)
def execCsrs (o : CsrO) (s : State) : Out := .next (s.csrOp o true fun old x => old ||| x)
def execCsrc (o : CsrO) (s : State) : Out := .next (s.csrOp o true fun old x => old &&& ~~~x)

/-- 07 R199: a CSR of a context or of a cluster takes a value. -/
def execCsrWrite (cluster ctx csr : Nat) (value : Word) (s : State) : Out :=
  .next (s.csrPut ⟨ctx, 8 * cluster + Config.pick s.draw 0x21 0 % 8, some cluster⟩ csr value)
def execMcEpc (cluster : Nat) (value : Word) (s : State) : Out := .next (s.writeEpc cluster value)
def execMcPtroot (cluster : Nat) (value : Word) (s : State) : Out := .next (s.writePtroot cluster value)

/-! ### The handler, ERET and SLEEP (07 R201-R203) -/

/-- 07 R201: the trap-queue entry, at a clause boundary. -/
def State.handlerDue (s : State) (k : Nat) : Bool :=
  let m := s.mc k
  m.on && !m.halted && m.asleep.isNone && m.th.clause.isNone && m.ie && !m.inh && !(s.cluster k).trapq.isEmpty

def execMcHandlerEntry (cluster : Nat) (s : State) : Out :=
  .next (if !s.handlerDue cluster then s
    else
      let m := s.mc cluster
      s.setMc cluster { m with epc := m.th.pc, cause := 0, inh := true, resume := .header, th := { m.th with pc := m.hvec } })

/-- 07 R196: an instruction of the management core alone; on a fibre it traps PRIVILEGE. -/
def State.mcOnly (s : State) (g : Guard) (f : Nat → State → State) : State :=
  match s.turn with
  | .mc k => s.guarded g fun _ s => f k s
  | _ => s.trapAll cPrivilege

def execEret (o : G) (s : State) : Out := .next (s.mcOnly o.g fun k s => s.mcReturn k)

/-- 07 R203: the wake events of a mask. -/
def State.awake (s : State) (k : Nat) (mask : BitVec 3) : BitVec 3 := s.wakeBits k &&& mask

/-- The core issues nothing until an event of its mask is pending, and writes the events. -/
def State.sleepOn (s : State) (k : Nat) (mask : BitVec 3) (d : Dst) : State :=
  if s.awake k mask = 0#3 then s.setMc k { s.mc k with asleep := some (mask, d) }
  else (s.setMc k { s.mc k with asleep := none }).asTurn (.mc k) fun s =>
    s.deliver d (.w32 false) none false (Opd.ofU ((s.awake k mask).setWidth 64))

def execSleep (o : FgetO) (s : State) : Out :=
  .next (s.mcOnly o.g fun k s =>
    match s.cur? with
    | none => s
    | some t =>
      let x := t.src s.draw o.a false
      if x.pAll then s.poisonTrap none false else s.sleepOn k (x.u.setWidth 3) o.d)

/-- 07 R203: a wake event may end a SLEEP. -/
def execSleepWake (cluster : Nat) (s : State) : Out :=
  .next (match (s.mc cluster).asleep with
    | some (mask, d) => s.sleepOn cluster mask d
    | none => s)

/-- A result that is a predicate of the management core. -/
def State.mcPred (s : State) (g : Guard) (p : BitVec 6) (xs : Thread → Nat → List Opd) (f : Nat → State → Thread → State × Bool) :
    State :=
  s.mcOnly g fun k s =>
    match s.cur? with
    | none => s
    | some t =>
      if (xs t s.draw).any Opd.pAll then s.poisonTrap none false
      else
        let (s1, b) := f k s t
        match s1.cur? with
        | some t1 => s1.setCur (t1.setPred p.toNat (if b then .t else .f)).advance
        | none => s1

/-! ### FSEL (07 R204, 17 R356) -/

/-- The selection of a fibre handle, if it names one in the cluster. -/
def State.handleSel (s : State) (k : Nat) (h : BitVec 32) : Option Sel :=
  let ctx := (h.extractLsb' 20 6).toNat
  let core := (h.extractLsb' 12 8).toNat
  let entry := (h.extractLsb' 0 12).toNat
  if h.extractLsb' 27 5 ≠ 0#5 || clusterOf core ≠ k then none
  else if h.getLsbD 26 then
    if entry ≠ 0 then none
    else match (s.core core).stream with
    | some x => if x.th.ctx = ctx then some (.stream core ctx x.th.uid) else none
    | none => none
  else match s.fibre? core entry with
  | some t => if t.ctx = ctx then some (.fibre core entry t.uid) else none
  | none => none

def execFsel (o : FselO) (s : State) : Out :=
  .next (s.mcPred o.g o.p (fun t d => [t.src d o.a false]) fun k s t =>
    match s.handleSel k ((t.src s.draw o.a false).u.setWidth 32) with
    | some x => (s.setMc k { s.mc k with sel := x }, true)
    | none => (s.setMc k { s.mc k with sel := .none }, false))

/-- What a selection reaches now. -/
inductive Reach where
  | none
  | fibre (core entry : Nat) (t : Thread)
  | stream (core : Nat) (x : Stream)

def State.reach (s : State) (k : Nat) : Reach :=
  match (s.mc k).sel with
  | .none => .none
  | .fibre c e u => (match s.fibre? c e with
    | some t => if t.uid = u then .fibre c e t else .none
    | none => .none)
  | .stream c _ u => match (s.core c).stream with
    | some x => if x.th.uid = u then .stream c x else .none
    | none => .none

/-! ### The fibre-state window: reads (17 R353, R355, R356) -/

def FState.code : FState → Nat
  | .ready => 1
  | .wait => 2
  | .resourceWait => 3
  | .launchWait => 4
  | .replayWait => 5
  | .parked => 6
  | .swapped => 7

def hi32 (hi lo : Nat) : Word := BitVec.ofNat 64 (hi % 2 ^ 32 * 2 ^ 32 + lo % 2 ^ 32)
/-- 32 bits, one for each lane of a block. -/
def laneBits (f : Nat → Bool) (j : Nat) : Nat := (List.range 32).foldl (fun n l => if f (32 * j + l) then n + 2 ^ l else n) 0

/-- 17 R353: STATUS. -/
def State.fibreStatus (s : State) (c : Nat) (t : Thread) : Word :=
  BitVec.ofNat 64 (t.fbrec.getD 0 * 2 ^ 32 + (if t.fbrec.isSome then 2 ^ 31 else 0) + t.blocks.length % 256 * 2 ^ 23
    + (t.window / 8 - 1) * 2 ^ 20 + t.lcause.toNat * 2 ^ 12
    + (if (s.core c).threads.any (fun u => u.uid ≠ t.uid && u.blocks.any (t.blocks.contains ·)) then 32 else 0)
    + (if t.expanded then 16 else 0) + t.st.code)

/-- 17 R353: the return-stack entry at e; a per-lane entry shows the address of the lowest active lane, with bit 0 set. -/
def Thread.rsWord (t : Thread) (e : Nat) : Word :=
  match t.rs[e]? with
  | some (.addr a) => a
  | some (.lanes l) => Tab.get l 0 t.low ||| 1
  | none => 0

/-- 17 R353: the fields of a register. -/
def Thread.regWord (t : Thread) (n field : Nat) : Word :=
  if t.window ≤ n then 0
  else match t.reg n, field with
  | .u _ po, 0 => if po then 4 else 0
  | .u b _, 1 => b
  | .a _ _ _ _, 0 => 1
  | .a b _ _ _, 1 => b
  | .a _ sx sy _, 2 => hi32 sy.toNat sx.toNat
  | .a _ _ _ sz, 3 => hi32 0 sz.toNat
  | .e _ _, 0 => 2
  | .p, 0 => 3
  | _, _ => 0

def Thread.laneWord (t : Thread) (n p : Nat) : Nat :=
  if t.window ≤ n then 0
  else match t.reg n with
  | .e l _ => (Tab.get l 0#32 p).toNat
  | _ => 0
/-- The per-lane poison bits of a register. -/
def Thread.pmask (t : Thread) (n j : Nat) : Nat :=
  if t.window ≤ n then 0
  else match t.reg n with
  | .e _ po => laneBits (po.contains ·) j
  | _ => 0
/-- TMASK: the lanes named by the latest record, or pending in the field book, in whichever of its records. -/
def State.tmaskOf (s : State) (c : Nat) (t : Thread) : List Nat :=
  (s.core c).book.foldl (fun l (kb : Nat × FbRec) => if kb.2.uid = t.uid then listUnion l kb.2.pend else l) t.tmask

/-- 17 R353: the fibre-state window. MBITS of a predicate that is not M shows its value at the active lanes (log 118). -/
def State.fibreWindow (s : State) (c : Nat) (t : Thread) (off : Nat) : Word :=
  let bx := t.frame
  if off = 0 then s.fibreStatus c t
  else if off = 0x008 then t.shownPc
  else if off = 0x010 then hi32 bx.x1 bx.x0
  else if off = 0x018 then hi32 bx.y1 bx.y0
  else if off = 0x020 then hi32 bx.z1 bx.z0
  else if off = 0x028 then
    let busy := (List.range 8).foldl (fun n j => if (s.core c).tokenBusy t.tokId j then n + 2 ^ j else n) 0
    let fail := (List.range 8).foldl (fun n j => if (Tab.find? t.failed j).isSome then n + 2 ^ j else n) 0
    BitVec.ofNat 64 (fail * 2 ^ 40 + busy * 2 ^ 32 + t.wdog % 2 ^ 32)
  else if off = 0x030 then BitVec.ofNat 64 (t.slot.length * 256 + t.rs.length)
  else if 0x040 ≤ off && off < 0x100 then
    let p := t.pred ((off - 0x040) / 8)
    hi32 p.threshold (if t.undefP.contains ((off - 0x040) / 8) then 1 else p.code)
  else if 0x100 ≤ off && off < 0x900 then t.regWord ((off - 0x100) / 32) ((off - 0x100) % 32 / 8)
  else if 0x900 ≤ off && off < 0x980 then t.rsWord ((off - 0x900) / 8)
  else if 0x10000 ≤ off then
    let j := (off - 0x10000) / 0x4000
    let r := (off - 0x10000) % 0x4000
    if t.blocks.length ≤ j then 0
    else if r < 0x2000 then
      let p := 32 * j + r % 0x80 / 4
      hi32 (t.laneWord (r / 0x80) (p + 1)) (t.laneWord (r / 0x80) p)
    else if r < 0x2060 then
      let k := (r - 0x2000) / 4
      let m (k : Nat) : Nat := laneBits (fun p => t.active.contains p && t.predAt (t.pred k) p) j
      hi32 (m (k + 1)) (m k)
    else if r = 0x2080 then hi32 (laneBits ((s.tmaskOf c t).contains ·) j) (laneBits (t.active.contains ·) j)
    else if 0x2100 ≤ r && r < 0x2200 then hi32 (t.pmask ((r - 0x2100) / 4 + 1) j) (t.pmask ((r - 0x2100) / 4) j)
    else 0
  else 0

/-- 17 R356: the stream-state window. -/
def Stream.window (x : Stream) (off : Nat) : Word :=
  let t := x.th
  if off = 0 then BitVec.ofNat 64 (x.tile % 2 ^ 32 * 2 ^ 32 + t.lcause.toNat * 2 ^ 12 + (if t.st = .parked then 6 else 1))
  else if off = 0x008 then t.pc
  else if off = 0x028 then BitVec.ofNat 64 (t.wdog % 2 ^ 32)
  else if 0x040 ≤ off && off < 0x100 then BitVec.ofNat 64 (t.pred ((off - 0x040) / 8)).code
  else if 0x100 ≤ off && off < 0x200 then (t.read64 ((off - 0x100) / 8)).u
  else if 0x900 ≤ off && off < 0x980 then t.rsWord ((off - 0x900) / 8)
  else 0

/-- 17 R353: a swapped fibre's registers are those of its swap record. -/
def State.windowThread (s : State) (c e : Nat) (t : Thread) : Thread :=
  match Tab.find? (s.core c).swaps e with
  | some r => { r.th with st := .swapped, blocks := t.blocks }
  | none => t

/-- 07 R205: the fibre runs in the middle of a clause: what it holds is no value of a clause boundary. -/
def Thread.midClause (t : Thread) : Bool := t.st = .ready && t.clause.isSome

/-- 07 R205: FGET. Of a running fibre it returns a value of a clause boundary; R205 does not say which. In the
middle of a clause it waits for the next (log 77). -/
def execFget (o : FgetO) (s : State) : Out :=
  .next (s.mcOnly o.g fun k s =>
    match s.cur? with
    | none => s
    | some t =>
      let x := t.src s.draw o.a false
      let running : Bool := match s.reach k with
        | .fibre _ _ u => u.midClause
        | _ => false
      if x.pAll then s.poisonTrap none false
      else if running then s
      else
        let off := x.u.toNat
        let v : Word := if off % 8 ≠ 0 then 0 else match s.reach k with
          | .none => 0
          | .fibre c e u => s.fibreWindow c (s.windowThread c e u) off
          | .stream _ y => y.window off
        s.deliver o.d .w64 none false (Opd.ofU v))

/-! ### The fibre-state window: writes (17 R354) -/

/-- A range fibre's box shrinks: the indices outside it end (17 R354). -/
def State.shrinkBox (s : State) (c e : Nat) (t : Thread) (b : Box) : State :=
  let s1 := (s.addStores t.launch (s.hbAll t)).setFibre c e { t.setBox b with tmask := t.tmask.filterMap (t.box.remap b) }
  t.sets.foldl (fun s k => s.checkSet c k) s1

/-- 17 R354: a predicate from its window word. -/
def Thread.predOfWord (t : Thread) (n : Nat) (v : Word) : Option Pred :=
  match (v.extractLsb' 0 2).toNat with
  | 0 => some .t
  | 1 => some .f
  | 2 =>
    let ax : Option Axis := match (v.extractLsb' 4 2).toNat with
      | 0 => some .x
      | 1 => some .y
      | 2 => some .z
      | _ => none
    ax.map fun a => t.simplify (.c a (v >>> 32).toNat (v.getLsbD 6))
  | _ => if t.expanded then some (.m (t.active.filter (t.predAt (t.pred n) ·))) else none

/-- 17 R354: a field of a register from its window word. -/
def Thread.regOfWord (t : Thread) (n field : Nat) (v : Word) : Option Reg :=
  if t.window ≤ n then none
  else
    let pair := t.reg (n + 1) = .p && n % 2 = 0
    let base (b : Word) : Word := if pair then b else low32 b
    match field, t.reg n with
    | _, .p => none
    | 0, r =>
      (match (v.extractLsb' 0 2).toNat with
      | 0 => some (.u (match r with
        | .u b _ => b
        | .a b _ _ _ => b
        | _ => 0) (v.getLsbD 2))
      | 1 => some (match r with
        | .a b x y z => .a b x y z
        | .u b _ => .a b 0 0 0
        | _ => .a 0 0 0 0)
      | _ => none)
    | 1, .u _ po => some (.u (base v) po)
    | 1, .a _ x y z => some (.a (base v) x y z)
    | 2, .a b _ _ z => some (.a b (v.setWidth 32) ((v >>> 32).setWidth 32) z)
    | 3, .a b x y _ => some (.a b x y (v.setWidth 32))
    | _, _ => none

/-- 17 R354: write the lane pair at place p of an E register. -/
def Thread.putLanes (t : Thread) (n p : Nat) (v : Word) : Option Thread :=
  if t.window ≤ n then none
  else match t.reg n with
  | .e l po =>
    let l1 := Tab.set (Tab.set l p (v.setWidth 32)) (p + 1) ((v >>> 32).setWidth 32)
    some { t with regs := Tab.set t.regs n (.e l1 (po.filter fun q => q ≠ p && q ≠ p + 1)) }
  | _ => none
/-- The lane bits of predicate k in block j, if it is M. -/
def Thread.putMbits (t : Thread) (k j : Nat) (bits : BitVec 32) : Option Thread :=
  match t.pred k with
  | .m l => if 24 ≤ k then none else
      let rest := l.filter fun p => p / 32 ≠ j
      let now := ((List.range 32).filter (bits.getLsbD ·)).map (32 * j + ·)
      some (t.setPred k (.m (sortAsc (rest ++ listInter now t.active))))
  | _ => none

/-- 17 R354: a write to the fibre-state window of a PARKED fibre; none: nothing is written, as for a place that the fibre does not
have or whose form is another one (log 117). -/
def State.fibrePut (s : State) (c e : Nat) (t : Thread) (off : Nat) (v : Word) : Option State :=
  let put (u : Thread) : Option State := some (s.setFibre c e u)
  let axis (a : Axis) : Option State :=
    let lo := (v.setWidth 32).toNat
    let hi := (v >>> 32).toNat
    if t.expanded || hi ≤ lo || lo < t.box.lo a || t.box.hi a < hi then none
    else some (s.shrinkBox c e t (t.box.setAxis a lo hi))
  if off = 0x008 then put { t with pc := v, clause := none, latches := [] }
  else if off = 0x010 then axis .x
  else if off = 0x018 then axis .y
  else if off = 0x020 then axis .z
  else if off = 0x028 then put { t with wdog := (v.setWidth 32).toNat }
  else if 0x040 ≤ off && off < 0x100 then
    let n := (off - 0x040) / 8
    (t.predOfWord n v).bind fun p => put (t.setPred n p)
  else if 0x100 ≤ off && off < 0x900 then
    let n := (off - 0x100) / 32
    (t.regOfWord n ((off - 0x100) % 32 / 8) v).bind fun r => (put { t with regs := Tab.set t.regs n r }).map (·.resourcesFreed c)
  else if 0x900 ≤ off && off < 0x980 then
    match t.rs[(off - 0x900) / 8]? with
    | some (.addr _) => put { t with rs := t.rs.set ((off - 0x900) / 8) (.addr (v &&& ~~~1#64)) }
    | _ => none
  else if 0x10000 ≤ off then
    let j := (off - 0x10000) / 0x4000
    let r := (off - 0x10000) % 0x4000
    if t.blocks.length ≤ j then none
    else if r < 0x2000 then (t.putLanes (r / 0x80) (32 * j + r % 0x80 / 4) v).bind put
    else if r < 0x2060 then
      let k := (r - 0x2000) / 4
      let a := t.putMbits k j (v.setWidth 32)
      match (a.getD t).putMbits (k + 1) j ((v >>> 32).setWidth 32) with
      | some u => put u
      | none => a.bind put
    else if r = 0x2080 then
      let on := ((List.range 32).filter (v.getLsbD ·)).map (32 * j + ·)
      let gone := t.active.filter fun p => p / 32 = j && !on.contains p
      if on.all (t.active.contains ·) then some (if gone.isEmpty then s else s.endLanes c e gone) else none
    else none
  else none

/-- 17 R356: a write to the stream-state window of a parked stream. -/
def Stream.put (x : Stream) (off : Nat) (v : Word) : Option Stream :=
  let t := x.th
  if off = 0x008 then some { x with th := { t with pc := v, clause := none, latches := [] }, plan := [], snap := none, plainTo := none }
  else if off = 0x028 then some { x with th := { t with wdog := (v.setWidth 32).toNat } }
  else if 0x040 ≤ off && off < 0x100 then
    match (v.extractLsb' 0 2).toNat with
    | 0 => some { x with th := t.setPred ((off - 0x040) / 8) .t }
    | 1 => some { x with th := t.setPred ((off - 0x040) / 8) .f }
    | _ => none
  else if 0x100 ≤ off && off < 0x200 then some { x with th := { t with regs := Tab.set t.regs ((off - 0x100) / 8) (.u v false) } }
  else if 0x900 ≤ off && off < 0x980 then
    if (off - 0x900) / 8 < t.rs.length then some { x with th := { t with rs := t.rs.set ((off - 0x900) / 8) (.addr v) } } else none
  else none

/-- 07 R205: FSET. -/
def execFset (o : FsetO) (s : State) : Out :=
  .next (s.mcPred o.g o.p (fun t d => [t.src d o.a false, t.src d o.b true]) fun k s t =>
    let off := (t.src s.draw o.a false).u.toNat
    let v := (t.src s.draw o.b true).u
    if off % 8 ≠ 0 then (s, false)
    else match s.reach k with
    | .none => (s, false)
    | .fibre c e u => (match (if u.st = .parked then s.fibrePut c e u off v else none) with
      | some s1 => (s1, true)
      | none => (s, false))
    | .stream c y => match (if y.th.st = .parked then y.put off v else none) with
      | some y1 => (s.setCore c { s.core c with stream := some y1 }, true)
      | none => (s, false))

/-! ### FRESUME, REPLAY, TLBI (07 R206-R209) -/

/-- 07 R206, R209: a PARKED fibre becomes READY. One whose load is outstanding waits for its data first. -/
def State.resumeFibre (s : State) (c e : Nat) (t : Thread) (hb : List Nat) : State :=
  let out := (s.core c).loads.any fun o => o.uid = t.uid
  (s.setFibre c e { t.gain hb with st := .ready, why := if out then .loadData else .none }).resourcesFreed c

/-- 07 R206: FRESUME.part: the indices in a box become READY. What of a field-book record is theirs goes
with them (log 99). Answers none where the core lacks what the rest needs. A rest that is no box keeps its entry as an expanded fibre,
or, above E_MAX (02 R53), as the first of the boxes around the part (log 29). -/
def State.resumePart (s : State) (c e : Nat) (t : Thread) (b : Box) (hb : List Nat) : Option (State × Bool) :=
  let ps := t.places.filter fun p => b.has (t.idxAt p)
  if ps.isEmpty then some (s, false)
  else if ps.length = t.places.length then some (s.resumeFibre c e t hb, true)
  else
    let go (u : Thread) : Thread := { u.gain hb with st := .ready, why := .none, lcause := u.lcause, tmask := [] }
    let left := listDiff t.places ps
    let done (s1 : State) : Option (State × Bool) :=
      if (s1.core c).fits (0, 0, 0, 0) && s1.slotsFit c then some (s1, true) else none
    if t.expanded then done ((s.setFibre c e (t.onLanes left)).addFibre c (go (t.onLanes ps))).1
    else
      let made := go (t.setBox (b.inter t.box))
      match t.boxOf left with
      | some r =>
        done ((s.setFibre c e { t.setBox r with tmask := t.tmask.filterMap (t.box.remap r) }).addFibre c made).1
      | none =>
        if s.emax t < t.box.count then done ((s.intoBoxes c e t (t.box.around (b.inter t.box))).1.addFibre c made).1
        else (s.expandFor c e).bind fun s1 => match s1.fibre? c e with
        | some u => done ((s1.setFibre c e (u.onLanes left)).addFibre c made).1
        | none => none

/-- 07 R206: FRESUME. Waiting for resources holds the management core at the word. -/
def execFresume (o : FresumeO) (s : State) : Out :=
  .next (s.mcOnly o.g fun k s =>
    match s.cur? with
    | none => s
    | some t =>
      let hb := (s.hbAll t)
      let grp := match o.part with
        | some n => (List.range 6).map fun i => t.read32 (n.toNat + i)
        | none => []
      if grp.any Opd.pAll then s.poisonTrap none false
      else
        let rd (i : Nat) : Nat := ((grp.map Opd.u).getD i 0).toNat
        let r : Option (State × Bool) := match s.reach k, o.part with
          | .none, _ => some (s, false)
          | .fibre c e u, none => if u.st = .parked then some (s.resumeFibre c e u hb, true) else some (s, false)
          | .fibre c e u, some _ => if u.st ≠ .parked then some (s, false) else
              let s1 := s.endOuts c u.uid
              (match s1.fibre? c e with
                | some u1 => s1.resumePart c e u1 ⟨rd 0, rd 1, rd 2, rd 3, rd 4, rd 5⟩ hb
                | none => some (s1, false))
          | .stream c y, none => if y.th.st = .parked then some (s.resumeStream c hb, true) else some (s, false)
          | .stream _ _, some _ => some (s, false)
        match r with
        | none => s
        | some (s1, b) => match s1.cur? with
          | some t1 => s1.setCur (t1.setPred o.p.toNat (if b then .t else .f)).advance
          | none => s1)

/-- 17 R356, 09 R253: a stream parked by a page fault of TLOAD or TSTORE. -/
def State.streamFaulted (s : State) (c : Nat) : Bool :=
  match (s.core c).stream with
  | some x => x.th.st = .parked && x.fault.isSome
  | none => false

/-- 07 R207: replay of records of a core; answers whether any was pending. -/
def State.replayBooks (s : State) (c : Nat) (uid : Option Nat) (hb : List Nat) : State × Bool :=
  let ks := (s.core c).book.filter fun kv => !kv.2.replaying && (match uid with
    | some u => kv.2.uid = u
    | none => true)
  (ks.foldl (fun s kv => s.startReplay c kv.1 hb) s, !ks.isEmpty)

/-- 07 R207. With a stream selected it writes T when the stream restarts, and with OPX[0] = 1 it acts for the stream's core (log 86). -/
def execReplay (o : ReplayO) (s : State) : Out :=
  .next (s.mcPred o.g o.p (fun _ _ => []) fun k s t =>
    let hb := (s.hbAll t)
    let all (c : Nat) : State × Bool :=
      let (s1, b) := s.replayBooks c none hb
      let s2 := s1.resumeCopies c fun _ => true
      if s2.streamFaulted c then (s2.resumeStream c hb, b) else (s2, b)
    match s.reach k with
    | .none => (s, false)
    | .fibre c _ u => if o.core then all c else s.replayBooks c (some u.uid) hb
    | .stream c _ => if o.core then all c else if s.streamFaulted c then (s.resumeStream c hb, true) else (s, false))

/-- 07 R208. -/
def execTlbi (o : TlbiO) (s : State) : Out :=
  .next (s.mcOnly o.g fun _ s =>
    match s.cur? with
    | none => s
    | some t =>
      let va := t.src s.draw o.a true
      let cx := t.src s.draw o.b false
      let n := cx.u.toNat
      let sel : Option TlbiSel := match o.sel.toNat with
        | 0 => if n ≤ 63 then some ⟨some n, some va.u.toNat⟩ else none
        | 1 => if n ≤ 63 then some ⟨some n, none⟩ else none
        | 2 => some ⟨none, none⟩
        | _ => none
      if (o.sel = 0#2 && va.pAll) || (o.sel.toNat < 2 && cx.pAll) then s.poisonTrap none false
      else match sel with
      | none => s.trapAll cReservedField
      | some x => (s.tlbiDo x (s.hbAll t)).advance)

end Sys2Proof.Machine
end

