-- ==== Sys2Proof/Machine/Rewrite.lean ====
section
/-!
DEFINITION. The rewrite stage: rule images and RWLOAD, windows, matching, legality, rewrite units and their traps (12 R283-R300,
R304; 09 R275).
-/

namespace Sys2Proof.Machine

open Sys2Proof

/-! ### Fields of a tile word (05 R132) -/

def fOpc (w : Word) : Nat := (w.extractLsb' 54 10).toNat
/-- Tile field k: 0 D, 1 A, 2 B, 3 C. -/
def fTile (w : Word) (k : Nat) : Nat := (w.extractLsb' (41 - 7 * k) 7).toNat
def fMsk (w : Word) : Nat := (w.extractLsb' 15 5).toNat
def fFlags (w : Word) : BitVec 16 := (w.extractLsb' 0 15).setWidth 16

/-- The tile fields that an opcode of a rule uses; none: no opcode of a rule. -/
def usedFields (opc : Nat) : Option Nat :=
  match opc with
  | 0x3C5 => some 1
  | 0x3C6 => some 2
  | 0x3C7 => some 2
  | 0x3C8 => some 3
  | 0x3C9 => some 4
  | _ => none

/-! ### Rule entries (12 R294-R297) -/

abbrev RuleEntry := List Word
def ruleW (e : RuleEntry) (i : Nat) : Word := e.getD i 0
def ruleCtl (e : RuleEntry) : Word := ruleW e 3
def ruleClass (e : RuleEntry) : Nat := ((ruleCtl e).extractLsb' 0 2).toNat
def ruleKeep (e : RuleEntry) : Nat := ((ruleCtl e).extractLsb' 2 2).toNat
def ruleSlots (e : RuleEntry) : Nat := ((ruleCtl e).extractLsb' 4 2).toNat
def ruleReps (e : RuleEntry) : Nat := ((ruleCtl e).extractLsb' 6 2).toNat
def ruleEq (e : RuleEntry) : BitVec 16 := (ruleCtl e).extractLsb' 8 16
def ruleDist (e : RuleEntry) (v : Nat) : Bool := (ruleCtl e).getLsbD (32 + v)
/-- Constraint bits: 24 SQ32, 25 FULL, 26 FMTEQ, 27 ACCF, 28 NOQ4. -/
def ruleCons (e : RuleEntry) (b : Nat) : Bool := (ruleCtl e).getLsbD b

/-- The binding code of tile field k in a slot word. -/
def slotCode (w : Word) (k : Nat) : Nat := (w.extractLsb' (48 + 4 * k) 4).toNat
def slotMask (w : Word) : BitVec 16 := w.extractLsb' 16 16
def slotVal (w : Word) : BitVec 16 := w.extractLsb' 32 16
/-- The variable of tile field k in a template. -/
def tplCode (w : Word) (k : Nat) : Nat := (w.extractLsb' (16 + 4 * k) 4).toNat
def tplMs (w : Word) : Nat := (w.extractLsb' 32 4).toNat
def tplFslot (w : Word) : Nat := (w.extractLsb' 42 2).toNat
def tplSet (w : Word) : BitVec 16 := w.extractLsb' 0 16
def tplClr (w : Word) : BitVec 16 := w.extractLsb' 16 16
def tplDeriv (w : Word) : Nat := (w.extractLsb' 32 4).toNat

/-- The variables that an entry's slots bind. -/
def ruleVars (e : RuleEntry) : List Nat :=
  (List.range (ruleSlots e)).flatMap fun i => ((List.range 4).map (slotCode (ruleW e i))).filter (· < 8)

/-- 12 R297: a slot word below NSLOT. -/
def slotOk (w : Word) : Bool :=
  match usedFields (fOpc (w <<< 54)) with
  | none => false
  | some u => w.extractLsb' 10 6 = 0#6 && !w.getLsbD 31 && !w.getLsbD 47 && slotVal w &&& ~~~slotMask w = 0
      && (List.range 4).all fun k => slotCode w k = 15 || (slotCode w k < 8 && k < u)

/-- 12 R297: a template below NREP. FZERO with a nonzero FSLOT, which R296 excludes and R297 does not list, gives status 4 (log 87). -/
def tplOk (vars : List Nat) (slots : Nat) (w0 w1 : Word) : Bool :=
  match usedFields (fOpc (w0 <<< 54)) with
  | none => false
  | some u => w0.extractLsb' 44 20 = 0#20 && !w0.getLsbD 41 && w0.extractLsb' 36 4 = 0#4 && w0.extractLsb' 10 6 = 0#6
      && w1.extractLsb' 36 28 = 0#28 && (!w0.getLsbD 40 || tplFslot w0 = 0) && tplFslot w0 < slots
      && (tplMs w0 = 15 || (tplMs w0 < slots && u = 4))
      && (List.range 4).all (fun k => if k < u then vars.contains (tplCode w0 k) else tplCode w0 k = 15)
      && (tplDeriv w1 = 0 || (tplDeriv w1 = 1 && 2 ≤ slots))

/-- 12 R297: the entry checks. -/
def entryOk (e : RuleEntry) : Bool :=
  let c := ruleCtl e
  let vars := ruleVars e
  c.extractLsb' 40 24 = 0#24 && c.extractLsb' 29 3 = 0#3 && ruleClass e ≠ 3 && ruleKeep e ≤ 1 && ruleSlots e ≠ 0 && ruleReps e ≠ 3
    && (List.range 3).all (fun i => if i < ruleSlots e then slotOk (ruleW e i) else ruleW e i = 0)
    && (List.range 2).all fun r =>
      if r < ruleReps e then tplOk vars (ruleSlots e) (ruleW e (4 + 2 * r)) (ruleW e (5 + 2 * r))
      else ruleW e (4 + 2 * r) = 0 && ruleW e (5 + 2 * r) = 0

/-! ### The default rule set (12 R298) -/

/-- A slot word: opcode, the codes of D, A, B, C (15 don't care), FMASK and FVAL. -/
def mkSlot (opc d a b c mask val : Nat) : Word :=
  BitVec.ofNat 64 (c * 2 ^ 60 + b * 2 ^ 56 + a * 2 ^ 52 + d * 2 ^ 48 + val * 2 ^ 32 + mask * 2 ^ 16 + opc)
/-- A control word. -/
def mkCtl (cls keep nslot nrep eq cons dist : Nat) : Word :=
  BitVec.ofNat 64 (dist * 2 ^ 32 + cons * 2 ^ 24 + eq * 2 ^ 8 + nrep * 2 ^ 6 + nslot * 2 ^ 4 + keep * 4 + cls)
/-- A template's two words: opcode, the codes of D, A, B, C, MS, FSLOT; DERIV, FCLR, FSET. -/
def mkTpl (opc d a b c ms fslot deriv clr set : Nat) : List Word :=
  [BitVec.ofNat 64 (fslot * 2 ^ 42 + ms * 2 ^ 32 + c * 2 ^ 28 + b * 2 ^ 24 + a * 2 ^ 20 + d * 2 ^ 16 + opc),
   BitVec.ofNat 64 (deriv * 2 ^ 32 + clr * 2 ^ 16 + set)]
def noTpl : List Word := [0, 0]

abbrev oZero : Nat := 0x3C5
abbrev oTrn : Nat := 0x3C6
abbrev oScale : Nat := 0x3C7
abbrev oAdd : Nat := 0x3C8
abbrev oMma : Nat := 0x3C9
/-- SQ32, FULL, FMTEQ, ACCF, NOQ4 as bits of the constraint byte. -/
abbrev kScaled : Nat := 31
abbrev kAdded : Nat := 11

def defaultRules : List RuleEntry :=
  [ [mkSlot oTrn 1 0 15 15 0 0, mkSlot oTrn 0 1 15 15 0 0, 0, mkCtl 0 1 2 0 0x3000 0 0] ++ noTpl ++ noTpl
  , [mkSlot oTrn 1 0 15 15 0 0, mkSlot oMma 3 1 2 4 0x100 0, 0, mkCtl 0 0 2 1 0 4 0] ++ mkTpl oMma 3 0 2 4 1 1 0 0 0x100 ++ noTpl
  , [mkSlot oTrn 1 0 15 15 0 0, mkSlot oMma 3 2 1 4 0x80 0, 0, mkCtl 0 0 2 1 0 4 0] ++ mkTpl oMma 3 2 0 4 1 1 0 0 0x80 ++ noTpl
  , [mkSlot oTrn 1 0 15 15 0 0, mkSlot oMma 3 1 2 4 0x100 0x100, 0, mkCtl 0 0 2 1 0 4 0] ++ mkTpl oMma 3 0 2 4 1 1 0 0x100 0 ++ noTpl
  , [mkSlot oTrn 1 0 15 15 0 0, mkSlot oMma 3 2 1 4 0x80 0x80, 0, mkCtl 0 0 2 1 0 4 0] ++ mkTpl oMma 3 2 0 4 1 1 0 0x80 0 ++ noTpl
  , [mkSlot oZero 0 15 15 15 0 0, mkSlot oMma 1 2 3 0 0x800 0, 0, mkCtl 0 1 2 1 0 0 0] ++ mkTpl oMma 1 2 3 0 1 1 0 0 0x800 ++ noTpl ]
  ++ [ [mkSlot oMma 0 1 2 3 0x3000 0x3000, 0, 0, mkCtl 0 0 1 1 0 0 0] ++ mkTpl oMma 0 1 2 3 0 0 0 0x3000 0 ++ noTpl
  , [mkSlot oScale 1 0 15 15 0 0, mkSlot oScale 2 1 15 15 0 0, 0, mkCtl 1 1 2 1 0x1E 16 0] ++ mkTpl oScale 2 0 15 15 15 1 1 0 0 ++ noTpl
  , [mkSlot oScale 1 0 15 15 0 0, mkSlot oMma 2 1 3 4 0x800 0x800, 0, mkCtl 1 0 2 2 0 kScaled 0]
      ++ mkTpl oMma 2 0 3 4 1 1 0 0 0 ++ mkTpl oScale 2 2 15 15 15 0 0 0x1E 0x14
  , [mkSlot oScale 1 0 15 15 0 0, mkSlot oMma 2 3 1 4 0x800 0x800, 0, mkCtl 1 0 2 2 0 kScaled 0]
      ++ mkTpl oMma 2 3 0 4 1 1 0 0 0 ++ mkTpl oScale 2 2 15 15 15 0 0 0x1E 0x14
  , [mkSlot oMma 2 0 1 5 0x800 0x800, mkSlot oAdd 4 3 2 15 0x3000 0, 0, mkCtl 1 0 2 1 0 kAdded 0x0C]
      ++ mkTpl oMma 4 0 1 3 0 0 0 0x800 0 ++ noTpl
  , [mkSlot oMma 2 0 1 5 0x800 0x800, mkSlot oAdd 4 2 3 15 0x3000 0, 0, mkCtl 1 0 2 1 0 kAdded 0x0C]
      ++ mkTpl oMma 4 0 1 3 0 0 0 0x800 0 ++ noTpl ]

/-! ### RWLOAD (09 R275, 12 R292, R293) -/

/-- 12 R293: one byte into the CRC register. -/
def crcByte (crc : BitVec 32) (b : Byte) : BitVec 32 :=
  (List.range 8).foldl (fun c _ => if c.getLsbD 0 then (c >>> 1) ^^^ 0xEDB88320#32 else c >>> 1) (crc ^^^ b.setWidth 32)
/-- 12 R293: CRC-32. -/
def crc32 (bs : List Byte) : BitVec 32 := ~~~(bs.foldl crcByte 0xFFFFFFFF#32)

/-- Read bytes of an image with ordinary loads on a path; none: a page fault, access violation or poison. -/
def State.readImage (s : State) (t : Thread) (a n : Nat) : Option (State × List Byte) :=
  let path : Path := if t.kind = .stream then .X else .F
  let sp := s.curSpace t
  let s0 := s.walkRange sp a n .r
  match s0.readSpace (s0.viewAt t t.low) path sp a n .r with
  | .error _ => none
  | .ok (ps, g0) =>
    let s1 := s0.demandPieces ps g0
    if ps.any fun p => s1.farLost p.pa then none
    else match s1.readSpace (s1.viewAt t t.low) path sp a n .r with
    | .error _ => none
    | .ok (_, g) => if g.bad then none else some (s1.setCur (s1.modViewAt t t.low fun v => v.afterLoad g s1.curAgent none none), g.bytes)

/-- The number of entries that a header announces, where RWLOAD takes it. -/
def imageCount (hdr : List Byte) : Option Nat :=
  let n := fieldAt hdr 2 2
  if n = 0 || 64 < n then none else some n

/-- The pseudo-channels that the loads of an image reach. -/
def State.imagePchs (s : State) (t : Thread) (a : Nat) : List Nat :=
  s.vaPchs (s.curSpace t) a 64 .r ++ match (s.readImage t a 64).bind fun r => imageCount r.2 with
    | some n => s.vaPchs (s.curSpace t) (a + 64) (64 * n) .r
    | none => []

/-- The entries of an image's bytes. -/
def entriesOf : Nat → List Byte → List RuleEntry
  | 0, _ => []
  | n + 1, bs => wordsOf 8 (bs.take 64) :: entriesOf n (bs.drop 64)

/-- 09 R275: the image at an address: the status, and the table where it is 0. -/
def State.ruleImage (s : State) (t : Thread) (a : Nat) : State × Nat × List RuleEntry :=
  if a % 64 ≠ 0 then (s, 5, [])
  else match s.readImage t a 64 with
  | none => (s, 5, [])
  | some (s1, hdr) =>
    if fieldAt hdr 0 1 ≠ 1 then (s1, 1, [])
    else match imageCount hdr with
    | none => (s1, 2, [])
    | some n => match s1.readImage ((s1.cur?).getD t) (a + 64) (64 * n) with
    | none => (s1, 5, [])
    | some (s2, bs) =>
      if (crc32 bs).toNat ≠ fieldAt hdr 4 4 then (s2, 3, [])
      else
        let es := entriesOf n bs
        if es.all entryOk then (s2, 0, es) else (s2, 4, [])

/-- The context whose rule table the current agent's RWLOAD replaces. -/
def State.ruleCtx (s : State) (t : Thread) : Nat :=
  match s.turn with
  | .mc k => (s.mc k).ctxsel.toNat
  | _ => t.ctx

/-- RWLOAD at an address (none: .dflt): the table is replaced whole, and the status is delivered. -/
def State.rwloadAt (s : State) (d : Dst) (mask : Option (List Nat)) (a : Option Word) : State :=
  match s.cur? with
  | none => s
  | some t => s.curServed (fun s => match a with
      | some a => if a.toNat % 64 = 0 then s.imagePchs t a.toNat else []
      | none => []) fun s =>
    let (s1, st, es) := match a with
      | none => (s, 0, defaultRules)
      | some a => s.ruleImage t a.toNat
    let n := s.ruleCtx t
    let s2 := match s1.ctx? n with
      | some k => if st = 0 then s1.setCtx n { k with rules := es } else s1
      | none => s1
    s.orWait (s2.deliver d (.w32 false) mask false (Opd.ofU (BitVec.ofNat 64 st)))

/-- 09 R275. A poisoned address gives status 5: the image cannot be read, and RWLOAD never traps on its address. -/
def execRwload (o : RwloadO) (s : State) : Out :=
  .next (s.guardedDst o.g fun mask s =>
    match s.cur? with
    | none => s
    | some _ =>
      if mask = some [] then s.orWait (s.deliver o.d (.w32 false) mask false (Opd.ofU 0))
      else if o.dflt then s.forU o.d (.w32 false) fun s => s.rwloadAt o.d mask none
      else
        s.agreeing (fun t d => t.src d o.a true) mask fun a bad s =>
          s.forU o.d (.w32 false) fun s => s.rwloadAt o.d mask (some (if bad then 1 else a)))

/-! ### Computing ahead (12 R286) -/

/-- An instruction that the stage computes ahead: its sources, further m registers and predicates it reads, its destinations. -/
structure Ahead where
  srcs  : List Src
  reads : List Nat
  preds : List Nat
  d     : Option Dst
  p     : Option Nat
  run   : State → Out

def aRR (f : RR → State → Out) (o : RR) : Option Ahead := some ⟨[o.a, o.b], [], [], some o.d, none, f o⟩
def aRI (f : RI → State → Out) (o : RI) : Option Ahead := some ⟨[o.a], [], [], some o.d, none, f o⟩
def aRRR (f : RRR → State → Out) (o : RRR) : Option Ahead := some ⟨[o.a, o.b, o.c], [], [], some o.d, none, f o⟩
def aR1 (f : R1 → State → Out) (o : R1) : Option Ahead := some ⟨[o.a], [], [], some o.d, none, f o⟩

/-- The instructions of R144-R154 and the moves. -/
def aheadOf : Instr → Option Ahead
  | .iadd o => aRR execIadd o
  | .iaddImm o => aRI execIaddImm o
  | .isub o => aRR execIsub o
  | .isubImm o => aRI execIsubImm o
  | .imul o => aRR execImul o
  | .imulImm o => aRI execImulImm o
  | .imulh o => aRR execImulh o
  | .imulhImm o => aRI execImulhImm o
  | .imulw o => aRR execImulw o
  | .imulwImm o => aRI execImulwImm o
  | .imad o => aRRR execImad o
  | .ineg o => aR1 execIneg o
  | .iabs o => aR1 execIabs o
  | .imin o => aRR execImin o
  | .iminImm o => aRI execIminImm o
  | .imax o => aRR execImax o
  | .imaxImm o => aRI execImaxImm o
  | .shl o => aRR execShl o
  | .shlImm o => aRI execShlImm o
  | .shr o => aRR execShr o
  | .shrImm o => aRI execShrImm o
  | .sar o => aRR execSar o
  | .sarImm o => aRI execSarImm o
  | .and_ o => aRR execAnd o
  | .andImm o => aRI execAndImm o
  | .or_ o => aRR execOr o
  | .orImm o => aRI execOrImm o
  | .xor_ o => aRR execXor o
  | .xorImm o => aRI execXorImm o
  | .not_ o => aR1 execNot o
  | .andn o => aRR execAndn o
  | .andnImm o => aRI execAndnImm o
  | .clz o => aR1 execClz o
  | .popc o => aR1 execPopc o
  | .brev o => aR1 execBrev o
  | .bfx o => aRR execBfx o
  | .bfi o => aRRR execBfi o
  | .sel o => some ⟨[o.a, o.b], [], [o.p.toNat], some o.d, none, execSel o⟩
  | .icmp o => some ⟨[o.a, o.b], [], [], none, some o.p.toNat, execIcmp o⟩
  | .icmpImm o => some ⟨[o.a], [], [], none, some o.p.toNat, execIcmpImm o⟩
  | .mov o => aR1 execMov o
  | .movi o => some ⟨[], [], [], some o.d, none, execMovi o⟩
  | .movh o => some ⟨[], [o.d.n.toNat], [], some o.d, none, execMovh o⟩
  | .lea o => some ⟨[o.a, o.b], [], [], some o.d, none, execLea o⟩
  | _ => none

/-- The destinations of the other class-1 instructions that write an m register or a predicate. -/
def otherDests : Instr → Option Dst × Option Nat
  | .pand o => (none, some o.p.toNat)
  | .por o => (none, some o.p.toNat)
  | .pxor o => (none, some o.p.toNat)
  | .pnot o => (none, some o.p.toNat)
  | .pmov o => (none, some o.p.toNat)
  | .pany o => (none, some o.p.toNat)
  | .pall o => (none, some o.p.toNat)
  | .pcnt o => (some o.d, none)
  | _ => (none, none)

/-- The guard of an instruction that may stand inside a window. -/
def guardOf : Instr → Guard
  | .nop o => o.g
  | .pand o => o.g
  | .por o => o.g
  | .pxor o => o.g
  | .pnot o => o.g
  | .pmov o => o.g
  | .tcfg o => o.g
  | .tload o => o.g
  | .tstore o => o.g
  | .tzero o => o.g
  | .ttrn o => o.g
  | .tscale o => o.g
  | .tadd o => o.g
  | .mma o => o.g
  | .tlatch o => o.g
  | .tscl o => o.g
  | _ => Guard.always

/-- 05 R124: the guard of a word of the common, immediate and tile formats. -/
def wordGuard (w : Word) : Guard := ⟨w.getLsbD 53, w.extractLsb' 48 5⟩

/-- What the stage does not know: m registers, predicates, latches. -/
structure Unknown where
  m : List Nat
  k : List Nat
  l : List Nat
deriving DecidableEq, Repr

def setKnown (known : Bool) (x : Nat) (l : List Nat) : List Nat := if known then l.filter (· ≠ x) else insertAsc x l

/-- The destinations of an instruction at clause position `pos` become known or unknown. -/
def Unknown.mark (u : Unknown) (known : Bool) (d : Option Dst) (p : Option Nat) (pos : Nat) : Unknown :=
  { m := match d with
      | some d => if d.nwb then u.m else setKnown known d.n.toNat u.m
      | none => u.m
    k := match p with
      | some p => setKnown known p u.k
      | none => u.k
    l := match d with
      | some _ => setKnown known (pos % 8) u.l
      | none => u.l }

def Unknown.src (u : Unknown) : Src → Bool
  | .reg n => u.m.contains n.toNat
  | .latch j => u.l.contains j.toNat
  | _ => false

/-- What a guard is known to be; none: unknown. -/
def Unknown.guard (u : Unknown) (t : Thread) (g : Guard) : Option Bool :=
  if g.pred = 31#5 then some true
  else if u.k.contains g.pred.toNat then none
  else some (t.guard g = .t)

/-- A non-tile instruction is passed over by the stage: the state with its known results, and what is unknown after it. -/
def State.passOver (s : State) (t : Thread) (u : Unknown) (i : Instr) (w : Word) (pos : Nat) : State × Unknown :=
  let step := s.setCur t.advance
  let g := u.guard t (match aheadOf i with
    | some _ => wordGuard w
    | none => guardOf i)
  match aheadOf i with
  | some a =>
    if g = some false then (step, u)
    else if g = some true && !a.srcs.any u.src && !a.reads.any (u.m.contains ·) && !a.preds.any (u.k.contains ·) then
      match a.run s with
      | .next s1 => (s1, u.mark true a.d a.p pos)
      | _ => (step, u.mark false a.d a.p pos)
    else (step, u.mark false a.d a.p pos)
  | none =>
    if g = some false then (step, u)
    else (step, u.mark false (otherDests i).1 (otherDests i).2 pos)

/-! ### Windows (12 R284, R285) -/

/-- 12 R283: the tile instructions, which the rewrite stage reads. -/
def isTileInstr : Instr → Bool
  | .tcfg _ | .tload _ | .tstore _ | .tzero _ | .ttrn _ | .tscale _ | .tadd _ | .mma _ | .tlatch _ | .tscl _ => true
  | _ => false

/-- A tile instruction of a window. -/
structure WIns where
  pc    : Word
  w     : Word
  ins   : Instr
  /-- it may match a slot -/
  elig  : Bool
  /-- its guard is surely true -/
  sure  : Bool
  /-- the value of its MSK register, and of m0, where known -/
  msk   : Option Word
  m0    : Option Word
  /-- m registers that non-tile instructions since the tile instruction before it write -/
  wrote : List Nat

/-- The instructions other than tile instructions that close a window before them, and those that end the clause. -/
def closes : Instr → Bool
  | .rdzv _ | .fence _ | .pfence _ | .waita _ | .mstat _ | .rwload _ | .trap_ _ | .brk _ => true
  | .bra _ | .brc _ | .call _ | .calli _ | .ret _ | .jmpi _ | .exit_ _ | .yield _ => true
  | _ => false
def endsClause : Instr → Bool
  | .bra _ | .brc _ | .call _ | .calli _ | .ret _ | .jmpi _ | .exit_ _ | .yield _ => true
  | _ => false

/-- The tile that a tile instruction writes, and those it reads: not the C of an MMA with ZC (09 R265, R403). -/
def tileUse : Instr → Option Nat × List Nat
  | .tload o => (some o.t.toNat, [])
  | .tstore o => (none, [o.t.toNat])
  | .tzero o => (some o.t.toNat, [])
  | .ttrn o => (some o.d.toNat, [o.a.toNat])
  | .tscale o => (some o.d.toNat, [o.a.toNat])
  | .tadd o => (some o.d.toNat, [o.a.toNat, o.b.toNat])
  | .mma o => (some o.d.toNat, if o.flag 11 then [o.a.toNat, o.b.toNat] else [o.a.toNat, o.b.toNat, o.c.toNat])
  | .tlatch o => (none, [o.t.toNat])
  | .tscl o => (some o.t.toNat, [o.t.toNat])
  | _ => (none, [])
def names (i : Instr) (t : Nat) : Bool := (tileUse i).1 = some t || (tileUse i).2.contains t

/-- The tile instructions, MSTAT among them, of the rest of a clause. They are counted up to a word that does not decode: whether those
after it count R285 does not say (log 105). -/
def tilesAhead : List Word → List Instr
  | [] => []
  | w :: t => match decode w with
    | .error _ => []
    | .ok i => if endsClause i then [] else
      (if 0x3C0 ≤ fOpc w && fOpc w ≤ 0x3CC then [i] else []) ++ tilesAhead t

/-- 12 R285: a TSTORE that closes the window before and after it. TCFG writes every tile (09 R250). The A tile that an MMA names counts as
read, though one that uses the hold does not read it (09 R269): which of the two R285 means it does not say (log 104). -/
def storeFlushes (tile : Nat) (rest : List Word) : Bool :=
  ((tilesAhead rest).take 8).any fun i => (match i with
    | .tcfg _ => true
    | _ => false) || names i tile

/-- 12 R285: a tile instruction that is a flush point itself. -/
def flushTile (i : Instr) (rest : List Word) : Bool :=
  match i with
  | .tcfg _ => true
  | .mma o => o.flag 14 || o.flag 5 || o.flag 6
  | .tstore o => storeFlushes o.t.toNat rest
  | _ => false

/-- 12 R286: a MATRIX_CONFIG or TILE_RANGE condition, or a failing range, that the stage can settle. -/
def State.settledBad (s : State) (t : Thread) (u : Unknown) (cfg : TCfg) (i : Instr) : Bool :=
  let m (n : Nat) : Word := (t.read64 n).u
  match i with
  | .ttrn o => o.esz = 3#2
  | .tscale o => match fmtOf4 o.fmt with
    | none | some .i8 | some .n8 => true
    | some _ => false
  | .mma o => (mmaFormats o cfg).isNone || (!u.m.contains o.msk.toNat && (maskOf (m o.msk.toNat)).isNone)
  | .tload o | .tstore o =>
    !u.m.contains o.msk.toNat && !u.m.contains (o.msk.toNat + 1)
      && (s.tmemBad t o (m (o.msk.toNat + 1)) (TDesc.of (m o.msk.toNat) (m (o.msk.toNat + 1)) o.esz.toNat)).isSome
  | .tscl o => !u.m.contains o.msk.toNat && (s.tsclBad t o).isSome
  | _ => false

/-- The MSK register of an MMA. -/
def mskOf : Instr → Option Nat
  | .mma o => some o.msk.toNat
  | _ => none

/-- 09 R269: the hold after an instruction that is no flush point: an MMA, whose RU is clear, ends it (log 82). -/
def holdAfter (h : Option MmaHold) (i : Instr) : Option MmaHold :=
  match i with
  | .mma _ => none
  | _ => h

/-- The window that opens at the current word of the stream: at most `n` tile instructions, in at most `fuel` words. -/
def State.window (s : State) (cfg : TCfg) : Nat → Nat → Unknown → List Nat → Option MmaHold → List WIns
  | 0, _, _, _, _ => []
  | fuel + 1, n, u, wrote, hold =>
    match n, s.cur? with
    | 0, _ => []
    | _, none => []
    | n + 1, some t => match t.clause with
      | none => []
      | some c =>
        let w := c.words.getD c.pos 0
        match checkWord false 1 t.window c.words c.pos w with
        | .error _ => []
        | .ok i =>
          if closes i then []
          else if !isTileInstr i then
            let (s1, u1) := s.passOver t u i w c.pos
            let d := match aheadOf i with
              | some a => a.d
              | none => (otherDests i).1
            let wr := match d with
              | some d => if d.nwb || u.guard t (match aheadOf i with
                  | some _ => wordGuard w
                  | none => guardOf i) = some false then wrote else insertAsc d.n.toNat wrote
              | none => wrote
            s1.window cfg fuel (n + 1) u1 wr hold
          else
            let g := u.guard t (guardOf i)
            if flushTile i (c.words.drop (c.pos + 1)) || (g = some true && s.settledBad t u cfg i) then []
            else
              let m := (mskOf i).bind fun r => if u.m.contains r then none else some (t.read64 r).u
              let elig := (guardOf i).pred = 31#5 && (match i with
                | .mma _ => hold.isNone && m.isSome
                | _ => true)
              ⟨t.pc, w, i, elig, g = some true, m, if u.m.contains 0 then none else some (t.read64 0).u, wrote⟩
                :: (s.setCur t.advance).window cfg fuel n u [] (if g = some true then holdAfter hold i else hold)

/-! ### Matching (12 R286-R289, R295, R296, R304) -/

/-- 09 R264: an MMA under the configuration and the mask writes all of D. -/
def wholeD (cfg : TCfg) (msk : Option Word) : Bool :=
  cfg.md && cfg.nd && match msk.bind maskOf with
    | some (mm, nm, _) => 32 ≤ mm && 32 ≤ nm
    | none => false

/-- 12 R288: the instruction writes tile t whole without naming it as a source. -/
def wholeWrite (cfg : TCfg) (i : Instr) (msk : Option Word) (t : Nat) : Bool :=
  (tileUse i).1 = some t && !(tileUse i).2.contains t && match i with
    | .tload _ | .tzero _ | .ttrn _ | .tscale _ | .tadd _ => true
    | .mma _ => wholeD cfg msk
    | _ => false

/-- The tile bound to each variable; none where a variable would name two tiles (12 R287). -/
def bindVars (pairs : List (Nat × Nat)) : Option (Tab Nat) :=
  pairs.foldl (fun acc p => acc.bind fun m => match Tab.find? m p.1 with
    | some t => if t = p.2 then some m else none
    | none => some (Tab.set m p.1 p.2)) (some [])

/-- 12 R287: one slot matches an instruction. -/
def slotMatches (slot : Word) (x : WIns) : Bool :=
  x.elig && fOpc x.w = fOpc (slot <<< 54) && fFlags x.w &&& slotMask slot = slotVal slot

def isMmaW (w : Word) : Bool := fOpc w = oMma
def usesQ4 (w : Word) : Bool :=
  (fOpc w = oTrn && (fFlags w).extractLsb' 12 2 = 3#2) || ((fOpc w = oScale || isMmaW w) && (fFlags w).extractLsb' 1 4 = 14#4)

/-- 12 R295, FMTEQ: a TTRN or TSCALE and the format of the MMA operand that it feeds. -/
def fmtAgrees (w : Word) (f : BitVec 4) : Bool :=
  f ≠ 14#4 && !usesQ4 w && if fOpc w = oTrn then
    (match fmtOf4 f with
    | some g => g.bits = 8 * 2 ^ ((fFlags w).extractLsb' 12 2).toNat
    | none => false)
  else (fFlags w).extractLsb' 1 4 = f

/-- 12 R295: FMTEQ over the matched slots. -/
def fmtEq (cfg : TCfg) (slots : List Word) (ms : List WIns) : Bool :=
  let zs := slots.zip ms
  zs.all fun a => !(fOpc a.2.w = oTrn || fOpc a.2.w = oScale) || slotCode a.1 0 = 15 || zs.all fun b =>
    !isMmaW b.2.w ||
      ((slotCode b.1 1 ≠ slotCode a.1 0 || fmtAgrees a.2.w ((fFlags b.2.w).extractLsb' 1 4))
        && (slotCode b.1 2 ≠ slotCode a.1 0 || fmtAgrees a.2.w (cfg.bfmt (fTile b.2.w 2))))

/-- 12 R295: the constraints of an entry on a match. -/
def consHold (e : RuleEntry) (cfg : TCfg) (slots : List Word) (ms : List WIns) : Bool :=
  let (m, n, _) := cfg.dims
  (!ruleCons e 24 || (cfg.md && cfg.nd && cfg.kd))
    && (!ruleCons e 25 || ms.all fun x => !isMmaW x.w || match x.msk.bind maskOf with
      | some (mm, nm, _) => m ≤ mm && n ≤ nm
      | none => false)
    && (!ruleCons e 26 || fmtEq cfg slots ms)
    && (!ruleCons e 27 || !cfg.acc)
    && (!ruleCons e 28 || !ms.any fun x => usesQ4 x.w)

/-- 12 R296: a replacement instruction's word; none where DERIV leaves its range. -/
def replaceWord (w0 w1 : Word) (vars : Tab Nat) (ms : List WIns) : Option Word :=
  let slot (i : Nat) : Word := ((ms[i]?).map WIns.w).getD 0
  let base : BitVec 16 := if w0.getLsbD 40 then 0 else fFlags (slot (tplFslot w0))
  let fl := (base &&& ~~~tplClr w1) ||| tplSet w1
  let exp (i : Nat) : Int := ((slot i).extractLsb' 7 8).toInt
  let sum := exp 0 + exp 1
  let fl' := if tplDeriv w1 = 1 then (fl &&& ~~~0x7F80#16) ||| BitVec.ofInt 16 (sum % 256 * 128) else fl
  let tile (k : Nat) : Nat := if tplCode w0 k = 15 then 0 else Tab.get vars 0 (tplCode w0 k) * 2 ^ (41 - 7 * k)
  let msk := if tplMs w0 = 15 then 0 else fMsk (slot (tplMs w0))
  if tplDeriv w1 = 1 && !(-128 ≤ sum && sum ≤ 127) then none
  else some (BitVec.ofNat 64 (fOpc (w0 <<< 54) * 2 ^ 54 + 31 * 2 ^ 48 + tile 0 + tile 1 + tile 2 + tile 3 + msk * 2 ^ 15 + fl'.toNat % 2 ^ 15))

/-- A replacement as an instruction: its word decodes, and it passes the checks of originals where its class asks for that. -/
def replacementOf (cfg : TCfg) (cls : Nat) (w : Word) (msk : Option Word) : Option (Instr × Option Word) :=
  match decode w with
  | .error _ => if cls < 2 then none else some (.illegal, msk)
  | .ok i =>
    let bad := match i with
      | .ttrn o => o.esz = 3#2
      | .tscale o => match fmtOf4 o.fmt with
        | none | some .i8 | some .n8 => true
        | some _ => false
      | .mma o => (mmaFormats o cfg).isNone || (match msk with
        | some v => (maskOf v).isNone
        | none => true)
      | _ => false
    if cls < 2 && bad then none else some (i, msk)

/-- 12 R288, steps 1 to 4: a removed write to tile t is overwritten before anything names it. -/
def removable (cfg : TCfg) (t : Nat) : List (Instr × Option Word × Bool) → Bool
  | [] => false
  | (i, m, sure) :: rest => if names i t then sure && wholeWrite cfg i m t else removable cfg t rest

/-- 12 R288, R304: the matched slots whose write is observable, given those that the unit re-emits. -/
def observable (cfg : TCfg) (ms : List WIns) (reps : List (Instr × Option Word)) (later : List WIns) (kept : List Nat) : List Nat :=
  let seq := (reps.map fun r => (r.1, r.2, true)) ++ later.map fun x => (x.ins, x.msk, x.sure)
  let unitWrites (t : Nat) : Bool := reps.any (fun r => (tileUse r.1).1 = some t)
    || kept.any fun j => ((ms[j]?).bind fun x => (tileUse x.ins).1) = some t
  (List.range ms.length).filter fun j => match (ms[j]?).bind fun x => (tileUse x.ins).1 with
    | none => false
    | some t =>
      let restored := !unitWrites t && (ms.take j).any fun x => (tileUse x.ins).2.contains t
      !restored && !removable cfg t seq

/-- The tiles whose poison an original traps on: those it reads, and the D of an MMA that keeps part of it (log 40). -/
def WIns.reads (cfg : TCfg) (x : WIns) : List Nat :=
  (tileUse x.ins).2 ++ match x.ins with
    | .mma o => if wholeD cfg x.msk then [] else [o.d.toNat]
    | _ => []

/-- 12 R299: the tiles that the originals read before the group writes them. -/
def groupReads (cfg : TCfg) : List WIns → List Nat → List Nat
  | [], _ => []
  | x :: rest, written =>
    listDiff (x.reads cfg) written ++ groupReads cfg rest (match (tileUse x.ins).1 with
      | some d => insertAsc d written
      | none => written)

/-- 12 R286, R296, R299: the value that the mask register of a replacement will hold when the unit reads it, where known: that of a
matched MMA's MSK, or, for MS 15 and for a slot without MSK, whose field is zero, that of m0 at the last matched slot. -/
def unitMask (ms : List WIns) (code : Nat) : Option Word :=
  match (ms[code]?).bind fun x => mskOf x.ins with
  | some _ => (ms[code]?).bind WIns.msk
  | none => (ms.getLast?).bind WIns.m0

/-- 12 R286-R289: an entry at the front of a window: the unit that replaces the slots it matches, with their number. -/
def tryRule (k : Ctx) (cfg : TCfg) (e : RuleEntry) (win : List WIns) : Option (List Instr × List Nat × Nat) :=
  let n := ruleSlots e
  let ms := win.take n
  let later := win.drop n
  let slots := (List.range n).map (ruleW e)
  let cls := ruleClass e
  let pairs := (slots.zip ms).flatMap fun z => ((List.range 4).filter fun i => slotCode z.1 i ≠ 15).map fun i => (slotCode z.1 i, fTile z.2.w i)
  let fl0 := ((ms.head?).map fun x => fFlags x.w).getD 0
  let mskNames := ms.filterMap fun x => mskOf x.ins
  if ms.length ≠ n || !((slots.zip ms).all fun z => slotMatches z.1 z.2) then none
  else if (cls = 1 && (!k.rwR || ms.any fun x => isMmaW x.w && (fFlags x.w).getLsbD 9)) || (cls = 2 && !k.rwF) then none
  else if ms.any (fun x => (fFlags x.w ^^^ fl0) &&& ruleEq e ≠ 0) || ms.tail.any (fun x => x.wrote.any (mskNames.contains ·)) then none
  else match bindVars pairs with
  | none => none
  | some vars =>
    if !consHold e cfg slots ms || vars.any (fun v => ruleDist e v.1 && vars.any fun u => u.1 ≠ v.1 && u.2 = v.2) then none
    else
      let one (r : Nat) : Option (Instr × Option Word) :=
        let w0 := ruleW e (4 + 2 * r)
        (replaceWord w0 (ruleW e (5 + 2 * r)) vars ms).bind fun w => replacementOf cfg cls w (unitMask ms (tplMs w0))
      match (List.range (ruleReps e)).foldr (fun r acc => match one r, acc with
          | some x, some l => some (x :: l)
          | _, _ => none) (some []) with
      | none => none
      | some reps =>
        let obs := (List.range 3).foldl (fun kept _ => observable cfg ms reps later kept) []
        if !obs.isEmpty && ruleKeep e = 0 then none
        else some ((obs.filterMap fun j => (ms[j]?).map WIns.ins) ++ reps.map Prod.fst, groupReads cfg ms [], n)

/-- 12 R286: the plan of a window, first tile instruction first. -/
def planWindow (k : Ctx) (cfg : TCfg) : Nat → List WIns → List (Word × PlanItem)
  | 0, _ => []
  | _, [] => []
  | fuel + 1, x :: rest =>
    let hit := (List.range k.rules.length).findSome? fun n =>
      (tryRule k cfg (k.rules.getD n []) (x :: rest)).map fun r => (n, r)
    match (if k.rwEn then hit else none) with
    | none => (x.pc, .pass) :: planWindow k cfg fuel rest
    | some (n, out, reads, len) =>
      let ms := (x :: rest).take len
      (ms.dropLast.map fun m => (m.pc, PlanItem.drop x.pc))
        ++ [((ms.getLast?.getD x).pc, PlanItem.emit n x.pc out (len = 1) reads)]
        ++ planWindow k cfg fuel ((x :: rest).drop len)

/-- A window opens at the stream's current word: its plan is made. -/
def State.openWindow (s : State) (c : Nat) (x : Stream) : State :=
  match s.ctx? x.th.ctx with
  | none => s.setCore c { s.core c with stream := some { x with plan := [(x.th.pc, .pass)] } }
  | some k =>
    let cfg := ((s.core c).ctx x.th.ctx).cfg
    let win := s.window cfg 17 8 ⟨[], [], []⟩ [] ((s.core c).ctx x.th.ctx).hold
    let plan := match win with
      | [] => [(x.th.pc, PlanItem.pass)]
      | w :: _ => (if w.pc = x.th.pc then [] else [(x.th.pc, PlanItem.pass)]) ++ planWindow k cfg 8 win
    s.setCore c { s.core c with stream := some { x with plan := plan } }

/-! ### Rewrite units (12 R299, R300) -/

/-- The instructions that a unit holds; `.illegal` stands for a class F replacement whose word fails its checks. -/
def unitExec (i : Instr) (s : State) : State :=
  match (match i with
    | .tzero o => execTzero o s
    | .ttrn o => execTtrn o s
    | .tscale o => execTscale o s
    | .tadd o => execTadd o s
    | .mma o => execMma o s
    | .illegal => .next (s.trapAll cReservedField)
    | _ => .next s) with
  | .next s1 => s1
  | _ => s

/-- The thread stands where it stood before each instruction of a unit. -/
def State.pinTo (s : State) (c : Nat) (t : Thread) : State :=
  match (s.core c).stream with
  | some x => s.setCore c { s.core c with stream := some { x with th := t } }
  | none => s

/-- The instructions of a unit one after another: the state, or the cause of the trap that one of them takes. -/
def State.unitRun (s : State) (c : Nat) (t : Thread) : List Instr → Except (BitVec 8) State
  | [] => .ok s
  | i :: rest =>
    let s1 := unitExec i (s.pinTo c t)
    match (s1.core c).stream with
    | some y => if y.th.st = .ready then s1.unitRun c t rest else .error y.th.lcause
    | none => .ok s1

/-- 12 R299: the sticky bits of the unit's instructions are set when its last one completes: its operations, the newest `n`,
give theirs to the last. -/
def joinSticky (ops : List TileOp) (n : Nat) : List TileOp :=
  let old := ops.take (ops.length - n)
  let new := ops.drop (ops.length - n)
  let clear (o : TileOp) : TileOp := { o with rcnf := false, aovf := false, nano := false }
  match new.getLast? with
  | none => ops
  | some l => old ++ new.dropLast.map clear
      ++ [{ l with rcnf := new.any (·.rcnf), aovf := new.any (·.aovf), nano := new.any (·.nano) }]

/-- 12 R300: a trap in a unit: nothing of it has happened; the stream parks at the first original, to run the originals as
written when it resumes. -/
def State.unitTrap (s : State) (c : Nat) (x : Stream) (rule : Nat) (before : Thread) (lastPc : Word) (cause : BitVec 8) : State :=
  let code := cause ||| 0x80#8
  let t := { before with st := .parked, lcause := code }
  (s.setCore c { s.core c with stream := some { x with th := t, plan := [], snap := none, plainTo := some lastPc } }).pushTrap (clusterOf c)
    { seq := 0, peeled := false, kind := 1, cause := code, handle := x.handle, pc := before.pc, addr := 0, aux := lastPc
      index := .none, disp := 0, rule := rule, tile := x.tile, core := c, uid := t.uid, who := [], fbv := none
      replay := false }

/-- 12 R299: the unit at its last original. -/
def State.emitUnit (s : State) (c : Nat) (x : Stream) (rule : Nat) (firstPc : Word) (out : List Instr) (reads : List Nat) : State :=
  let t := x.th
  let before := if firstPc = t.pc then t else x.snap.getD t
  let k := (s.core c).ctx t.ctx
  if reads.any fun n => (k.tile n).poison then s.unitTrap c x rule before t.pc cMemPoison
  else match ({ s with slow := false } : State).unitRun c t out with
  | .error cause => s.unitTrap c x rule before t.pc cause
  | .ok s0 =>
    let s1 : State := { s0 with slow := s.slow }
    let k1 := (s1.core c).ctx t.ctx
    let s2 := s1.setCore c ((s1.core c).setCtx t.ctx { k1 with ops := joinSticky k1.ops out.length })
    match (s2.core c).stream with
    | some y => s2.setCore c { s2.core c with stream := some { y with th := t.advance, snap := none } }
    | none => s2

/-- The stream's plan for its current word; none: a window opens there. -/
def Stream.planned (x : Stream) : Option PlanItem := (x.plan.find? fun p => p.1 = x.th.pc).map Prod.snd

/-- 12 R283-R300: the rewrite stage at a tile instruction: a window opens, an original is absorbed into the unit of its group, or
the group's unit runs in its place. -/
def execRewriteWindow (core : Nat) (s : State) : Out :=
  .next (match (s.core core).stream with
    | none => s
    | some x =>
      if x.th.st ≠ .ready || x.th.clause.isNone then s
      else s.asTurn (.stream core) fun s => match x.planned with
        | none => s.openWindow core x
        | some .pass => s
        | some (.drop firstPc) =>
          let snap := if firstPc = x.th.pc then some x.th else x.snap
          s.setCore core { s.core core with stream := some { x with th := x.th.advance, snap := snap } }
        | some (.emit rule firstPc out _ reads) => s.emitUnit core x rule firstPc out reads)

end Sys2Proof.Machine
end

