-- ==== Sys2Proof/Machine/Contexts.lean ====
section
/-!
DEFINITION. Context switch and restore on a core (17 R364-R366); the mailbox's context commands: creation, reset, destruction
(19 R374, R375, R400, R401; 16 R343).
-/

namespace Sys2Proof.Machine

open Sys2Proof

/-! ### Context switch (17 R364, R365) -/

/-- 17 R364: a fibre that is inside a clause, or an agent whose outstanding accesses will still end its wait. -/
def Thread.unsettled (t : Thread) : Bool :=
  (t.kind = .fibre && t.st = .ready && t.clause.isSome) || match t.why with
    | .loadData | .promote _ _ _ | .cancel _ _ => true
    | _ => false

/-- 17 R364, R365: everything of the context on the core stands at a point where it can stop. -/
def Core.settled (x : Core) (ctx : Nat) : Bool :=
  !x.threads.any (fun t => t.ctx = ctx && t.unsettled)
    && !x.stream.any (fun y => y.th.ctx = ctx && (!y.canStop || y.th.unsettled))
    && !x.copyq.any (fun q => q.ctx = ctx && q.midway)
    && !x.loads.any (fun o => match Tab.find? x.fibres o.entry with
      | some t => t.ctx = ctx && t.uid = o.uid
      | none => false)

/-- COPYT commands that wait for a tile whose readers have all completed write it. -/
def State.copyTiles (s : State) (c ctx : Nat) : State :=
  ((s.core c).copyq.filter fun q => q.ctx = ctx && q.st = .tileWait).foldl (fun s q => s.copyTile c q) s

/-- 17 R366: what the core holds of the context. -/
def Core.save (x : Core) (ctx : Nat) (gen : BitVec 8) : Saved :=
  let es := (x.fibres.filter fun kv => kv.2.ctx = ctx).map Prod.fst
  { gen := gen
    fibres := x.fibres.filter fun kv => kv.2.ctx = ctx
    insts := x.insts.filter fun kv => kv.2.ctx = ctx
    scratch := x.scratch.filter fun kv => kv.2.ctx = ctx
    sets := x.sets.filter fun kv => kv.2.ctx = ctx
    cctx := x.ctx ctx
    stream := x.stream.filter fun y => y.th.ctx = ctx
    forkq := x.forkq.filter fun f => f.ctx = ctx
    copyq := x.copyq.filter fun q => q.ctx = ctx
    book := x.book.filter fun kv => kv.2.ctx = ctx
    bookq := x.bookq.filter fun p => p.book.ctx = ctx
    swaps := x.swaps.filter fun kv => es.contains kv.1 }

/-- The core without the context. Its task records, its pending launches and its cancel bits stay. -/
def Core.without (x : Core) (ctx : Nat) : Core :=
  let es := (x.fibres.filter fun kv => kv.2.ctx = ctx).map Prod.fst
  { x with
    fibres := x.fibres.filter fun kv => kv.2.ctx ≠ ctx
    inClause := x.inClause.filter fun e => !es.contains e
    follow := x.follow.filter fun e => !es.contains e
    insts := x.insts.filter fun kv => kv.2.ctx ≠ ctx
    scratch := x.scratch.filter fun kv => kv.2.ctx ≠ ctx
    sets := x.sets.filter fun kv => kv.2.ctx ≠ ctx
    cctx := Tab.del x.cctx ctx
    stream := x.stream.filter fun y => y.th.ctx ≠ ctx
    forkq := x.forkq.filter fun f => f.ctx ≠ ctx
    copyq := x.copyq.filter fun q => q.ctx ≠ ctx
    book := x.book.filter fun kv => kv.2.ctx ≠ ctx
    bookq := x.bookq.filter fun p => p.book.ctx ≠ ctx
    swaps := x.swaps.filter fun kv => !es.contains kv.1 }

/-- 17 R366: the first 8 bytes of a core's area. -/
def saveHeader (c ctx : Nat) (gen : BitVec 8) : List Byte :=
  [0#8, 2#8, BitVec.ofNat 8 c, BitVec.ofNat 8 ctx, gen, 0#8, 0#8, 0#8]

/-! ### The parts of the save area (17 R366; where the layout inside a part is not given, log 60) -/

/-- s0–s15 with their sequence numbers, 16 bytes each. -/
def CoreCtx.sregImage (k : CoreCtx) : List Byte :=
  (List.range 16).flatMap fun i => let r := Tab.get k.sregs SReg.zero i
    leBytes 8 r.value.toNat ++ leBytes 8 r.seq.toNat

/-- The context's sets, 32 bytes each: key, member count, arrived count, TRUES. -/
def Core.setImage (x : Core) (ctx : Nat) : List Byte :=
  (x.sets.filter fun kv => kv.2.ctx = ctx).flatMap fun kv =>
    leBytes 8 kv.1 ++ leBytes 8 (x.members kv.1) ++ leBytes 8 kv.2.arrived ++ leBytes 8 kv.2.trues

/-- The context's scratch allocations, one after another. -/
def scratchImage (l : Tab Scratch) : List Byte :=
  l.flatMap fun kv => (List.range (round32 kv.2.size)).map fun i => if i < kv.2.size then kv.2.get kv.1 i else 0

/-- A U or A latch's tag, base and strides, or the tag of an E latch. -/
def Latch.image (l : Latch) : List Byte :=
  match l.v with
  | .u b => leBytes 8 0 ++ leBytes 8 b.toNat
  | .a b sx sy sz => leBytes 8 1 ++ leBytes 8 b.toNat ++ leBytes 4 sx.toNat ++ leBytes 4 sy.toNat ++ leBytes 4 sz.toNat
  | .e _ => leBytes 8 2

/-- The latch slots of entry e, and the latch rows of its lane blocks. -/
def Thread.latchParts (t : Thread) (e : Nat) : List (Nat × List Byte) :=
  t.latches.flatMap fun (kv : Nat × Latch) =>
    (0x800000 + 256 * e + 32 * kv.1, kv.2.image) :: match kv.2.v with
      | .e l => t.blocks.zipIdx.map fun b =>
          (0x900000 + 2048 * b.1 + 256 * kv.1, (List.range 32).flatMap fun i => leBytes 8 (Tab.get l 0 (32 * b.2 + i)).toNat)
      | _ => []

/-- The field-book records of the context, each in its place. -/
def Core.bookParts (x : Core) (ctx : Nat) : List (Nat × List Byte) :=
  (x.book.filter fun kv => kv.2.ctx = ctx).map fun (kv : Nat × FbRec) =>
    let ix := ((Tab.find? x.fibres kv.2.entry).bind fun t => t.indexSet (some kv.2.pend)).getD (lanesSet kv.2.pend)
    (0x8000 + 128 * kv.1, kv.2.bytes ix)

/-- The parts of a core's area whose contents are given, by offset. -/
def Core.areaParts (x : Core) (c ctx : Nat) (gen : BitVec 8) : List (Nat × List Byte) :=
  [(0, saveHeader c ctx gen), (0x4000, (x.ctx ctx).sregImage), (0x4100, x.setImage ctx), (0x60000, tileImage (x.ctx ctx)),
    (0x600000, scratchImage (x.scratch.filter fun kv => kv.2.ctx = ctx))]
  ++ x.bookParts ctx ++ (x.fibres.filter fun kv => kv.2.ctx = ctx).flatMap fun kv => kv.2.latchParts kv.1

/-- The parts whose inner layout is not given, by offset and length: the bitmaps, the sequencer and copy-engine parts, the fibre
table with the lane-block descriptors, and the form file with the lane file. -/
def areaOpen : List (Nat × Nat) := [(8, 4088), (0x1000, 0x3000), (0x10000, 0x48000), (0x100000, 0x500000)]

/-- 13 R305: a stream of the context leaves the core: the next streams follow what it has done so far. -/
def State.leaveX (s : State) (c ctx : Nat) : State :=
  match (s.core c).stream with
  | some y => if y.th.ctx = ctx then s.setCore c { s.core c with xview := (s.core c).xview.join (s.xKeep c y.th.view) } else s
  | none => s

/-- 17 R365, step 5: the area is written and the core no longer holds the context. -/
def State.switchOut (s : State) (c ctx : Nat) (k : Ctx) : State :=
  let s := s.leaveX c ctx
  let x := s.core c
  let s1 := areaOpen.foldl (fun s p => s.areaStore c (k.areaOf c + p.1) (s.areaFree p.1 p.2)) s
  let s2 := (x.areaParts c ctx (s.gen ctx)).foldl (fun s p => s.areaStore c (k.areaOf c + p.1) p.2) s1
  let s3 := s2.setCtx ctx { k with saved := Tab.set k.saved c (x.save ctx (s.gen ctx)) }
  ((s3.setCore c (x.without ctx)).postStream c).resourcesFreed c

/-! ### What the area holds, put back into what is saved: s registers, sets, the field book, tiles, scales, latches, scratchpad -/

def State.scratchBack (s : State) (a : Nat) : Tab Scratch → Tab Scratch
  | [] => []
  | (al, x) :: rest =>
    (al, { x with bytes := (List.range x.size).map fun i => (i, Bytes.get s.mem.cells (a + i))
                  pbytes := x.pbytes ++ ((List.range x.size).filter fun i => s.badRead none (a + i) 1 && !x.pbytes.contains i) })
      :: s.scratchBack (a + round32 x.size) rest
def State.word (s : State) (a : Nat) : Word := BitVec.ofNat 64 (s.phys a 8)
def State.setsBack (s : State) (a : Nat) (l : Tab SetSt) : Tab SetSt :=
  l.zipIdx.map fun x =>
    (x.1.1, { x.1.2 with arrived := s.phys (a + 0x4100 + 32 * x.2 + 16) 8, trues := s.phys (a + 0x4100 + 32 * x.2 + 24) 8 })
def State.bookBack (s : State) (a : Nat) (l : Tab FbRec) : Tab FbRec :=
  l.map fun (kv : Nat × FbRec) =>
    let b := a + 0x8000 + 128 * kv.1
    let r := kv.2.ofWords fun i => s.word (b + 8 * i)
    (kv.1, if s.badRead none b 128 then { r with dbad := listUnion r.dbad r.pend } else r)
def State.latchBack (s : State) (a e : Nat) (t : Thread) (j : Nat) (l : Latch) : Latch :=
  let b := a + 0x800000 + 256 * e + 32 * j
  let row (i : Nat) : Nat := a + 0x900000 + 2048 * t.blocks.getD (i / 32) 0 + 256 * j + 8 * (i % 32)
  { l with
    v := match l.v with
      | .e ls => .e (ls.map fun (kv : Nat × Word) => (kv.1, s.word (row kv.1)))
      | v => v.ofWords (s.phys b 8) fun i => s.word (b + 8 + 8 * i)
    poison := l.poison || s.badRead none b 32 }
def State.savedBack (s : State) (a : Nat) (v : Saved) : Saved :=
  let k := s.tilesBack a v.cctx
  { v with
    sets := s.setsBack a v.sets
    book := s.bookBack a v.book
    fibres := v.fibres.map fun (kv : Nat × Thread) =>
      (kv.1, { kv.2 with latches := kv.2.latches.map fun (l : Nat × Latch) => (l.1, s.latchBack a kv.1 kv.2 l.1 l.2) })
    cctx := { k with sregs := (List.range 16).map fun i =>
      (i, ⟨BitVec.ofNat 64 (s.phys (a + 0x4000 + 16 * i) 8), BitVec.ofNat 32 (s.phys (a + 0x4008 + 16 * i) 8),
        (Tab.get v.cctx.sregs SReg.zero i).hb⟩) }
    scratch := s.scratchBack (a + 0x600000) v.scratch }

/-- What a restore reads of the area, by offset and length (21 R387). -/
def Saved.reads (v : Saved) : List (Nat × Nat) :=
  areaOpen ++ [(0, 8), (0x4000, 0x100 + 32 * v.sets.length), (0x60000, 0x81000),
      (0x600000, (Tab.vals v.scratch).foldl (fun n x => n + round32 x.size) 0)]
    ++ (Tab.keys v.book).map (fun k => (0x8000 + 128 * k, 128))
    ++ v.fibres.flatMap fun (kv : Nat × Thread) => (kv.2.latchParts kv.1).map fun p => (p.1, p.2.length)

/-- The pseudo-channels of a core's area. -/
def Ctx.areaPchs (k : Ctx) (c : Nat) : List Nat := pchsOf (k.areaOf c) (12 * 2 ^ 20)

/-- 17 R365: management firmware asks for a switch: dispatch of the context stops, and once all of it stands still the core is
cleared of it. Until then the request stays. -/
def execContextSwitch (core ctx : Nat) (s : State) : Out :=
  .next (match s.ctx? ctx with
    | none => s
    | some k =>
      if (Tab.find? k.saved core).isSome then s
      else
        let x := s.core core
        let s1 := s.setCore core { x with stopped := insertAsc ctx x.stopped }
        let s2 := if x.stream.any fun y => y.th.ctx = ctx && !y.canStop then s1
          else (s1.completeOps core ctx).copyTiles core ctx
        if (s2.core core).settled ctx then
          s2.holding (.contextSwitch core ctx) (k.areaPchs core) fun s2 => match s2.ctx? ctx with
          | some k2 => s2.switchOut core ctx k2
          | none => s2
        else s2.post (.contextSwitch core ctx))

/-! ### Restore (17 R365, R366) -/

/-- 17 R366: the header of the area names another core, context or generation, or another major. -/
def State.headerBad (s : State) (c ctx : Nat) (k : Ctx) : Bool :=
  let a := k.areaOf c
  s.phys (a + 1) 1 ≠ 2 || s.phys (a + 2) 1 ≠ c || s.phys (a + 3) 1 % 64 ≠ ctx || s.phys (a + 4) 1 ≠ (s.gen ctx).toNat

/-- The lane blocks of the saved fibres, and their places in the core now. -/
def Saved.blocks (v : Saved) : List Nat := (Tab.vals v.fibres).foldl (fun acc t => listUnion acc t.blocks) []
def moveBlocks (olds news : List Nat) (t : Thread) : Thread :=
  { t with blocks := t.blocks.map fun b => news.getD (olds.idxOf b) b }

/-- The core with the context back in it, its fibres' lanes in free blocks. -/
def Core.restored (x : Core) (ctx : Nat) (v : Saved) : Core :=
  let olds := v.blocks
  let news := ((List.range (Config.laneBlocks + olds.length)).filter (!x.usedBlocks.contains ·)).take olds.length
  { x with
    fibres := Tab.setAll x.fibres (v.fibres.map fun (kv : Nat × Thread) => (kv.1, moveBlocks olds news kv.2))
    insts := Tab.setAll x.insts v.insts
    scratch := Tab.setAll x.scratch v.scratch
    sets := Tab.setAll x.sets v.sets
    cctx := Tab.set x.cctx ctx v.cctx
    stream := match v.stream with
      | some y => some { y with th := { y.th with view := y.th.view.join x.xview } }
      | none => x.stream
    forkq := x.forkq ++ v.forkq
    copyq := x.copyq ++ v.copyq
    book := Tab.setAll x.book v.book
    bookq := x.bookq ++ v.bookq
    swaps := Tab.setAll x.swaps v.swaps
    stopped := x.stopped.filter (· ≠ ctx) }

/-- The core has the places that the context left: its entries, its records and its sequencer, and resources for it. -/
def Core.roomToRestore (x : Core) (ctx : Nat) (v : Saved) : Bool :=
  (Tab.keys v.fibres).all (fun e => !(Tab.keys x.fibres).contains e) && (Tab.keys v.book).all (fun r => !(Tab.keys x.book).contains r)
    && (v.stream.isNone || x.stream.isNone) && (x.restored ctx v).fits (0, 0, 0, 0)
    && (x.restored ctx v).sets.length ≤ Config.maxSets
    && (Tab.vals (x.restored ctx v).scratch).foldl (fun n y => n + round32 y.size) 0 ≤ 2097152

/-- Everything of the context on the core goes on from its point; a cancel bit that came meanwhile acts. -/
def State.rearmAll (s : State) (c ctx : Nat) (v : Saved) : State :=
  let s1 := (Tab.keys v.fibres).foldl (fun s e => match s.fibre? c e with
    | some t => s.rearm c e t
    | none => s) s
  let s2 := v.book.foldl (fun s kb => if kb.2.replaying then s.post (.replayComplete c kb.1) else s) s1
  let s2 := match v.stream with
    | some y => (match y.th.st, y.th.why with
      | .wait, .header => s2.post (.tileInstructionCompletion c ctx)
      | .wait, .waita _ | .wait, .promoted _ _ => s2.post (.waitaSatisfied c 4096)
      | _, _ => s2)
    | none => s2
  let s3 := (((s2.core c).cancelled.filter fun k => k.1 = ctx).foldl (fun s k => s.cancelAt c k.1 k.2) s2)
  ((s3.kickCopies c).postStream c).postStart c

/-- 17 R365, R366: a restore. One whose header does not name this core, context and generation changes nothing; one whose
places are taken waits for them. -/
def execContextRestore (core ctx : Nat) (s : State) : Out :=
  .next (match s.ctx? ctx with
    | none => s
    | some k => match Tab.find? k.saved core with
      | none => s
      | some v =>
        s.holding (.contextRestore core ctx) (k.areaPchs core) fun s =>
        let s := s.demand (k.areaOf core) 8
        if s.headerBad core ctx k || v.gen ≠ s.gen ctx then s
        else if !(s.core core).roomToRestore ctx v then s.post (.contextRestore core ctx)
        else
          let s := s.demands (v.reads.map fun p => (k.areaOf core + p.1, p.2))
          let s1 := (s.setCtx ctx { k with saved := Tab.del k.saved core }).setCore core
            ((s.core core).restored ctx (s.savedBack (k.areaOf core) v))
          s1.rearmAll core ctx ((s1.core core).save ctx v.gen))

/-! ### The mailbox (19 R374) -/

/-- The number of management core 0 as an agent: it answers the mailbox (19 R376). -/
abbrev mbAgent : Nat := 192

/-- 19 R374: a command's result: STATUS, BUSY falls and MSI-X vector 0 is raised. What firmware has stored is then what the host
finds. -/
def State.mbDone (s : State) (status : BitVec 8) : State :=
  let ids := (s.log.filter fun w => w.core = mbAgent).map WriteRec.id
  { s with host := { s.host with mb := { s.host.mb with status := status, busy := false }, msix := s.host.msix ++ [0]
                                 view := s.host.view.gain ids } }

/-- Bytes that firmware writes into a request block. -/
def State.mbStore (s : State) (a : Nat) (bs : List Byte) : State :=
  (s.storeAt View.empty none a bs (List.replicate bs.length false) .H mbAgent (some 2)).1

/-! ### CTX_CREATE (19 R375, R400) -/

/-- 19 R373: the majors that the N7 accepts: launch record, NCO, rule image, mailbox, save area. -/
def deviceMajors : List (BitVec 16) := [0x000C#16, 0x0006#16, 0x0002#16, 0x0018#16, 0x0004#16]

/-- The highest bit of a mask. -/
def topBit (m : BitVec 16) : Option Nat := ((List.range 16).filter fun i => m.getLsbD i).getLast?

/-- 19 R375: the highest major of each interface that both masks hold; none where one has no common major. -/
def chooseMajors (host : List (BitVec 16)) : Option (List (BitVec 16)) :=
  (List.range 5).foldr (fun i acc =>
    match topBit (deviceMajors.getD i 0 &&& host.getD i 0), acc with
    | some m, some l => some (BitVec.ofNat 16 m :: l)
    | _, _ => none) (some [])

/-- The request block of CTX_CREATE as bytes: that of a host of mailbox major 3 ends at byte 63. -/
def createBlock (raw : List Byte) (mailbox : Nat) : List Byte :=
  if mailbox = 3 then raw.take 64 ++ List.replicate 24 0#8 else raw

/-- 19 R375, R400, 17 R361: a bad argument of CTX_CREATE, a reserved byte that is not zero among them (log 121). -/
def createBad (bs : List Byte) (taken : Nat → Bool) : Bool :=
  let n := fieldAt bs 0 1
  63 < n || taken n || fieldAt bs 16 8 % 2 ^ 16 ≠ 0 || fieldAt bs 32 8 % 2 ^ 16 ≠ 0 || fieldAt bs 62 2 ≠ 0
    || (fieldAt bs 80 8 ≠ 0 && (fieldAt bs 72 8 % 2 ^ 16 ≠ 0 || fieldAt bs 80 8 % 2 ^ 16 ≠ 0))

/-- 19 R375: the context that a block describes, with the default rules (12 R298). -/
def createCtx (bs : List Byte) (majors : List (BitVec 16)) (gen : BitVec 8) (head : Nat) (rules : List (List Word)) : Ctx :=
  let f (off n : Nat) : Nat := fieldAt bs off n
  { priv := f 1 1 % 2 = 1, gen := gen, root := BitVec.ofNat 64 (f 16 8), qdesc := BitVec.ofNat 64 (f 24 8)
    save := BitVec.ofNat 64 (f 32 8), pool := f 40 8, poolUsed := 0
    rwF := f 48 8 / 4 % 2 = 1, rwR := f 48 8 / 2 % 2 = 1, rwEn := f 48 8 % 2 = 1
    wdog := BitVec.ofNat 32 (f 56 4), knit := BitVec.ofNat 10 (f 60 2), swapDelay := BitVec.ofNat 32 (f 64 4)
    arenaBase := BitVec.ofNat 64 (f 72 8), arenaSize := f 80 8, arenaUsed := 0, majors := majors, rules := rules
    meas := List.replicate 64 0#8, objs := [], syms := [], tail := BitVec.ofNat 32 head, bells := [], jobs := [], held := []
    saved := [], flushed := [], hostHb := [], loadHb := [] }

/-- 19 R371, R375: PEER_WSIZE of the ports that are up; a field of 0 leaves them no window. -/
def State.peerSizes (s : State) (n : Nat) : State :=
  let new := ((List.range 16).filter fun p => s.host.peerup.getLsbD p).map fun p => (p, n * 2 ^ 16)
  { s with host := { s.host with peerSize := Tab.setAll s.host.peerSize new } }

/-- 19 R375, R400: CTX_CREATE. One that fails writes nothing to its block (log 122). -/
def execCtxCreate (req : Nat) (s : State) : Out :=
  .next (
    s.reading (.ctxCreate req) [(req, 88)] fun s =>
    let raw := Bytes.read s.mem.cells req 88
    match chooseMajors ((List.range 5).map fun i => BitVec.ofNat 16 (fieldAt raw (2 + 2 * i) 2)) with
    | none => s.mbDone 0x41#8
    | some majors =>
      let bs := createBlock raw (majors.getD 3 0).toNat
      let n := fieldAt bs 0 1
      if createBad bs (fun n => (s.ctx? n).isSome) then s.mbDone 0x42#8
      else s.reading (.ctxCreate req) [(fieldAt bs 24 8 + 12, 4)] fun s =>
        let head := s.phys (fieldAt bs 24 8 + 12) 4
        let k := createCtx bs majors (s.gen n) head defaultRules
        let s1 := { s.setCtx n k with
          cores := s.cores.map fun (kv : Nat × Core) => (kv.1, { kv.2 with cctx := Tab.del kv.2.cctx n }) }
        let s2 := s1.peerSizes (fieldAt bs 68 4)
        (s2.mbStore (req + 2) (majors.flatMap (fun m => leBytes 2 m.toNat) ++ List.replicate 4 0#8)).mbDone 0#8)

/-! ### CTX_RESET and CTX_DESTROY (19 R401, R377; 16 R343) -/

/-- 19 R401: a bad argument. -/
def State.ctxReqBad (s : State) (req : Nat) : Bool :=
  63 < s.phys req 1 || (s.ctx? (s.phys req 1)).isNone || s.phys (req + 1) 7 ≠ 0

/-- 16 R343: a core without the context's records, pending-launch entries, lent marks and cancel bits. -/
def Core.forget (x : Core) (ctx : Nat) : Core :=
  { x with backlog := x.backlog.filter fun t => t.msg.ctx ≠ ctx, pendq := x.pendq.filter fun r => r.ctx ≠ ctx
           handled := x.handled.filter fun m => m.ctx ≠ ctx, cancelled := x.cancelled.filter fun k => k.1 ≠ ctx }
def Die.forget (d : Die) (ctx : Nat) : Die :=
  { d with toPlace := d.toPlace.filter fun m => m.ctx ≠ ctx, cancelled := d.cancelled.filter fun k => k.1 ≠ ctx }

/-- 16 R343, 19 R377: the generation moves on; everything queued of the context is discarded. The completion entries held for its
done ring stay (R345). -/
def State.resetCtx (s : State) (ctx : Nat) (k : Ctx) : State :=
  let g := s.gen ctx + 1
  { s.setCtx ctx { k with gen := g, meas := List.replicate 64 0#8, tail := BitVec.ofNat 32 (s.qHead k), bells := [], jobs := [] } with
    gens := Tab.set s.gens ctx g
    cores := s.cores.map fun (kv : Nat × Core) => (kv.1, kv.2.forget ctx)
    dies := s.dies.map fun (kv : Nat × Die) => (kv.1, kv.2.forget ctx) }

/-- The tiles of a launch that have started and not ended. -/
def State.liveTiles (s : State) (l : Nat) : Nat :=
  (Tab.vals s.cores).foldl (fun n x => n + ((Tab.vals x.insts).filter fun i => i.launch = l).length) 0

/-- The launches of a context that has been reset: of their tiles only those that have started are left to end. -/
def State.oldLaunches (s : State) (ctx : Nat) : State :=
  s.launches.foldl (fun s kv => if kv.2.ctx ≠ ctx then s
    else (s.setLaunch kv.1 { kv.2 with made := kv.2.ended + s.liveTiles kv.1 }).checkLaunch kv.1) s

/-- The waiters for a place in a pending-launch queue take the places freed. -/
def State.launchWaiters (s : State) : State := (Tab.keys s.cores).foldl (fun s c => s.launchWaiter c) s

def execCtxReset (req : Nat) (s : State) : Out :=
  .next (s.reading (.ctxReset req) [(req, 8)] fun s =>
    if s.ctxReqBad req then s.mbDone 0x42#8
    else match s.ctx? (s.phys req 1) with
    | none => s.mbDone 0x42#8
    | some k => s.reading (.ctxReset req) [k.qRange] fun s => (((s.resetCtx (s.phys req 1) k).oldLaunches (s.phys req 1)).launchWaiters).mbDone 0#8)

/-- The machine without a context: what it held on the cores and in the launches is gone. What becomes of work that still runs is
not specified (log 32). -/
def State.dropCtx (s : State) (ctx : Nat) : State :=
  let s := (Tab.keys s.cores).foldl (fun s c => s.leaveX c ctx) s
  { s with
    cores := s.cores.map fun (kv : Nat × Core) =>
      (kv.1, { kv.2.without ctx with stopped := kv.2.stopped.filter (· ≠ ctx)
                                     loads := kv.2.loads.filter fun o => ((Tab.find? kv.2.fibres o.entry).map Thread.ctx) ≠ some ctx })
    launches := s.launches.filter fun kv => kv.2.ctx ≠ ctx
    ctxs := Tab.del s.ctxs ctx }

def execCtxDestroy (req : Nat) (s : State) : Out :=
  .next (s.reading (.ctxDestroy req) [(req, 8)] fun s =>
    if s.ctxReqBad req then s.mbDone 0x42#8
    else match s.ctx? (s.phys req 1) with
    | none => s.mbDone 0x42#8
    | some k => (((s.resetCtx (s.phys req 1) k).dropCtx (s.phys req 1)).launchWaiters).mbDone 0#8)

end Sys2Proof.Machine
end

