-- ==== Sys2Proof/Machine/Loader.lean ====
section
/-!
DEFINITION. Loading code objects: the NCO file, the namespace, placement in the load arena, relocation, veneers, the linkage table,
the symbol directory and measurement (14 R312-R326; 19 R376, R377, R400).
-/

namespace Sys2Proof.Machine

open Sys2Proof

/-! ### The file (14 R312-R317) -/

structure NcoSec where
  kind  : Nat
  align : Nat
  size  : Nat
  /-- the contents; zeros for bss -/
  bytes : List Byte
deriving DecidableEq, Repr

structure NcoSym where
  name  : List Byte
  sect  : Nat
  bind  : Nat
  value : Nat
  slot  : Nat
deriving DecidableEq, Repr

structure NcoRel where
  off    : Nat
  sect   : Nat
  typ    : Nat
  place  : Nat
  sym    : Nat
  addend : Int
deriving DecidableEq, Repr

structure Nco where
  major   : Nat
  bindNow : Bool
  nven    : Nat
  nslot   : Nat
  secs    : List NcoSec
  syms    : List NcoSym
  rels    : List NcoRel
deriving DecidableEq, Repr

/-- A range of the file. -/
def inFile (bs : List Byte) (off n : Nat) : Bool := off + n ≤ bs.length
def slice (bs : List Byte) (off n : Nat) : List Byte := (bs.drop off).take n

/-- 14 R314: the offsets of the clause headers of a code section that is a whole number of clauses. -/
def clauseHeads (bs : List Byte) : Nat → Nat → Option (List Nat)
  | 0, _ => none
  | fuel + 1, at_ =>
    if at_ = bs.length then some []
    else if bs.length < at_ then none
    else (clauseHeads bs fuel (at_ + 8 * (fieldAt bs (at_ + 7) 1 % 16 + 2))).map (at_ :: ·)

/-- 14 R312: the name at an offset of the string table: NUL-terminated ASCII. -/
def nameAt (strs : List Byte) (off : Nat) : Option (List Byte) :=
  let t := strs.drop off
  let n := t.takeWhile (· ≠ 0)
  if n.length < t.length && n.all (fun b => b.toNat < 128) then some n else none

/-- 14 R314. -/
def secAt (img strs : List Byte) (off : Nat) : Option NcoSec :=
  let f (o n : Nat) : Nat := fieldAt img (off + o) n
  let kind := f 4 1
  let size := f 16 8
  let bytes := if kind = 3 then List.replicate size 0#8 else slice img (f 8 4) size
  if 3 < kind || f 5 1 ≠ 0 || f 7 1 ≠ 0 || f 12 4 ≠ 0 || f 24 8 ≠ 0 || f 6 1 < 3 || 16 < f 6 1 || (nameAt strs (f 0 4)).isNone then none
  else if kind = 3 && f 8 4 ≠ 0 then none
  else if kind ≠ 3 && !inFile img (f 8 4) size then none
  else if kind = 0 && (clauseHeads bytes (size / 16 + 1) 0).isNone then none
  else some ⟨kind, 2 ^ f 6 1, size, bytes⟩

/-- 14 R308: the local symbols that stand for the object's linkage base and data base. -/
def ncoLink : List Byte := [0x6E#8, 0x63#8, 0x6F#8, 0x24#8, 0x6C#8, 0x69#8, 0x6E#8, 0x6B#8]
def ncoData : List Byte := [0x6E#8, 0x63#8, 0x6F#8, 0x24#8, 0x64#8, 0x61#8, 0x74#8, 0x61#8]
/-- 14 R323: the resolver stub's name. -/
def ncoResolve : List Byte := [0x6E#8, 0x63#8, 0x6F#8, 0x24#8, 0x72#8, 0x65#8, 0x73#8, 0x6F#8, 0x6C#8, 0x76#8, 0x65#8]

/-- The symbol is one of them: known by its name and its BIND of 0, whatever its SECT and VALUE hold; R315 has no code for either (log 107). -/
def NcoSym.special (y : NcoSym) : Bool := y.bind = 0 && (y.name = ncoLink || y.name = ncoData)
def NcoSym.defd (y : NcoSym) : Bool := y.sect ≠ 0xFFFF

/-- 14 R315. A local symbol that nothing defines breaks the file (log 31). -/
def symAt (img strs : List Byte) (secs : List NcoSec) (nslot off : Nat) : Option NcoSym :=
  let f (o n : Nat) : Nat := fieldAt img (off + o) n
  match nameAt strs (f 0 4) with
  | none => none
  | some name =>
    let y : NcoSym := ⟨name, f 4 2, f 6 1, f 8 8, f 20 4⟩
    let sectOk := y.sect = 0xFFFF || y.sect = 0xFFFE || match secs[y.sect]? with
      | some x => y.value ≤ x.size
      | none => false
    if !sectOk || 2 < y.bind || 2 < f 7 1 || nslot < y.slot || (y.bind = 0 && !y.defd && !y.special) then none else some y

/-- 14 R318: the bits of a word that a relocation type patches: the least and the number, by its opcode's format. -/
def relField (typ place : Nat) (w : Word) : Option (Nat × Nat) :=
  let opc := fOpc w
  let isI : Bool := opc = 0x01C || opc = 0x01D || (0x042 ≤ opc && opc ≤ 0x046) || (0x04A ≤ opc && opc ≤ 0x051) || opc = 0x053
    || (0x060 ≤ opc && opc ≤ 0x065)
  let isM : Bool := (0x300 ≤ opc && opc ≤ 0x304) || opc = 0x30C
  let isB : Bool := 0x280 ≤ opc && opc ≤ 0x282
  match typ, place with
  | 1, 0 | 2, 0 => if isI then some (0, 32) else none
  | 1, 1 | 2, 1 => some (0, 32)
  | 3, 0 => if isB then some (16, 32) else none
  | 4, 0 | 5, 0 => if isM then some (12, 20) else none
  | 6, 0 => if isM then some (12, 20) else if isI then some (0, 32) else none
  | 7, 1 => some (0, 64)
  | _, _ => none

/-- The bytes that a relocation patches. -/
def NcoRel.width (r : NcoRel) : Nat := if r.place = 1 && r.typ ≠ 7 then 4 else 8

/-- The header of the clause that holds the word at an offset of a code section: none where the offset is a header's. -/
def headOf (x : NcoSec) (off : Nat) : Option Nat :=
  match clauseHeads x.bytes (x.size / 16 + 1) 0 with
  | none => none
  | some hs => if hs.contains off then none else (hs.filter (· < off)).getLast?

/-- 14 R317, R318: a relocation as the file may hold it. -/
def relAt (img : List Byte) (major : Nat) (secs : List NcoSec) (nsym off : Nat) : Option NcoRel :=
  let f (o n : Nat) : Nat := fieldAt img (off + o) n
  let r : NcoRel := ⟨f 0 4, f 4 2, f 6 1, f 7 1, f 8 4, (BitVec.ofNat 32 (f 12 4)).toInt⟩
  match secs[r.sect]? with
  | none => none
  | some x =>
    let w : Word := BitVec.ofNat 64 (fieldAt x.bytes r.off 8)
    if r.off % r.width ≠ 0 || x.size < r.off + r.width || nsym ≤ r.sym || (major = 1 && r.typ = 7) || (relField r.typ r.place w).isNone
      || (r.place = 0 && (x.kind ≠ 0 || (headOf x r.off).isNone)) then none
    else some r

/-- All of several, or none. -/
def allOf {α : Type} (f : Nat → Option α) (n : Nat) : Option (List α) :=
  (List.range n).foldr (fun i acc => match f i, acc with
    | some x, some l => some (x :: l)
    | _, _ => none) (some [])

/-- 14 R315, R320, R324: each slot has one symbol, no name has two global or weak definitions, and an object with slots has its
resolver stub. The status of an object that has slots and no stub is not stated: here BAD_IMAGE (log 108). -/
def symsOk (nslot : Nat) (ys : List NcoSym) : Bool :=
  let defs := (ys.filter fun y => y.bind ≠ 0 && y.defd).map NcoSym.name
  (List.range nslot).all (fun i => (ys.filter fun y => y.slot = i + 1).length = 1) && defs.eraseDups.length = defs.length
    && (nslot = 0 || ys.any fun y => y.bind = 0 && y.name = ncoResolve && y.sect < 0xFFFE)

/-- 14 R312, R313, R325 step 1: the object in a file; none: BAD_IMAGE. The entries of the kernel table, which the device never reads
(R316), are not checked: whether step 1 checks them R325 leaves open (log 106). -/
def parseNco (img : List Byte) : Option Nco :=
  let f (o n : Nat) : Nat := fieldAt img o n
  let major := f 5 1
  let kern := if major = 1 then 32 else 48
  let strs := slice img (f 44 4) (f 40 4)
  if img.length < 64 || slice img 0 4 ≠ [0x4E#8, 0x4C#8, 0x51#8, 0x4F#8] || (major ≠ 1 && major ≠ 2) || 1 < f 6 2
    || f 8 4 = 0 || 255 < f 8 4 || 32766 < f 52 4 || f 56 8 ≠ 0 then none
  else if !inFile img (f 12 4) (32 * f 8 4) || !inFile img (f 20 4) (24 * f 16 4) || !inFile img (f 28 4) (16 * f 24 4)
    || !inFile img (f 36 4) (kern * f 32 4) || !inFile img (f 44 4) (f 40 4) then none
  else
    (allOf (fun i => secAt img strs (f 12 4 + 32 * i)) (f 8 4)).bind fun secs =>
      (allOf (fun i => symAt img strs secs (f 52 4) (f 20 4 + 24 * i)) (f 16 4)).bind fun syms =>
        (allOf (fun i => relAt img major secs syms.length (f 28 4 + 16 * i)) (f 24 4)).bind fun rels =>
          if symsOk (f 52 4) syms then some ⟨major, f 6 2 = 1, if major = 1 then 0 else f 48 4, f 52 4, secs, syms, rels⟩ else none

/-! ### Placement (14 R314; 19 R400) -/

def alignUp (a n : Nat) : Nat := (n + a - 1) / a * a

/-- Offsets of the sections of a segment, by section number, and the segment's size. -/
def placeSecs (secs : List NcoSec) (want : NcoSec → Bool) : Tab Nat × Nat :=
  (List.range secs.length).foldl (fun acc i => match secs[i]? with
    | none => acc
    | some x => if want x then
        let a := alignUp x.align acc.2
        (Tab.set acc.1 i a, a + x.size) else acc) ([], 0)

/-- Where an object lies: its bases, the segment sizes, the places of its sections, its veneer pool and the arena's new level. -/
structure Layout where
  code  : Nat
  csize : Nat
  data  : Nat
  dsize : Nat
  link  : Nat
  pool  : Nat
  used  : Nat
  secs  : Tab Nat
deriving DecidableEq, Repr

/-- 14 R314, 19 R400: the directory comes first; the code segment, the data segment and the linkage table each start a page, so
that none shares its permissions with another (log 31). -/
def layoutOf (o : Nco) (base used : Nat) : Layout :=
  let (cs, cend) := placeSecs o.secs fun x => x.kind = 0
  let (ds, dend) := placeSecs o.secs fun x => x.kind ≠ 0
  let pool := alignUp 32 cend
  let csize := if o.nven = 0 then cend else pool + 32 * o.nven
  let code := alignUp (2 ^ 16) (max used 0x80000)
  let data := alignUp (2 ^ 16) (code + csize)
  let link := alignUp (2 ^ 16) (data + dend)
  { code := base + code, csize := csize, data := base + data, dsize := dend, link := base + link, pool := base + code + pool
    used := link + 16 * (o.nslot + 1)
    secs := Tab.setAll (cs.map fun (kv : Nat × Nat) => (kv.1, base + code + kv.2)) (ds.map fun (kv : Nat × Nat) => (kv.1, base + data + kv.2)) }

/-- The address that a symbol's own definition gives. -/
def Layout.addr (l : Layout) (y : NcoSym) : Nat :=
  if y.special then (if y.name = ncoLink then l.link else l.data)
  else if y.sect = 0xFFFE then y.value
  else (Tab.get l.secs 0 y.sect + y.value) % 2 ^ 64

/-! ### The namespace (14 R321, R324) -/

def findSym (ns : List Sym) (name : List Byte) : Option Sym := ns.find? fun y => y.name = name

/-- 14 R321: the cell of a name is created when it is first defined or referenced. It takes the next index, and an object's new names take
theirs in symbol-table order: R321 gives no order (log 109). -/
def addNames (ns : List Sym) (ys : List NcoSym) : List Sym :=
  ys.foldl (fun ns y => if y.bind = 0 || (findSym ns y.name).isSome then ns else ns ++ [⟨y.name, ns.length, 0, false, false⟩]) ns

/-- 14 R324: one definition enters the namespace; none: LOAD_CONFLICT. -/
def enterDef (ns : List Sym) (name : List Byte) (addr : Nat) (weak : Bool) : Option (List Sym) :=
  match findSym ns name with
  | none => some ns
  | some y =>
    if y.defd && !y.weak && !weak then none
    else if y.defd && (weak || !y.weak) then some ns
    else some (ns.map fun z => if z.name = name then { z with addr := BitVec.ofNat 64 addr, defd := true, weak := weak } else z)

/-- Every definition of the object, in symbol order: the namespace, or the index of the symbol in conflict. -/
def enterAll (l : Layout) : Nat → List NcoSym → List Sym → Except Nat (List Sym)
  | _, [], ns => .ok ns
  | i, y :: rest, ns =>
    if y.bind = 0 || !y.defd then enterAll l (i + 1) rest ns
    else match enterDef ns y.name (l.addr y) (y.bind = 2) with
    | none => .error i
    | some ns1 => enterAll l (i + 1) rest ns1

/-- 14 R321: a cell's value. -/
def Sym.cellValue (y : Sym) : Nat :=
  if y.defd then y.addr.toNat / 8 % 2 ^ 52 * 8 + (if y.weak then 1 else 0) else 0

/-- 14 R318, R324: the address S of a symbol; none: undefined. -/
def symAddr (l : Layout) (ns : List Sym) (y : NcoSym) : Option Nat :=
  if y.bind = 0 then some (l.addr y)
  else match findSym ns y.name with
  | some z => if z.defd then some z.addr.toNat else none
  | none => none

/-! ### Relocation and veneers (14 R318, R319) -/

/-- 14 R319: what the pool holds: the targets of its veneers, first veneer first. -/
abbrev Veneers := List Nat

/-- Whether a branch value fits: a multiple of 8 in a signed 32-bit count of words. -/
def brFits (v : Int) : Bool := v % 8 = 0 && -(2 ^ 34 : Int) ≤ v && v ≤ 2 ^ 34 - 8

/-- 14 R319: the value of a BR32 whose target is out of range, through its veneer. The veneers fill the pool from its start in the order
of the relocations: R319 gives no places (log 110). -/
def brVeneer (o : Nco) (l : Layout) (vs : Veneers) (target p : Nat) : Option (Int × Veneers) :=
  let at_ (i : Nat) (vs : Veneers) : Option (Int × Veneers) :=
    let v : Int := (l.pool + 32 * i : Nat) - (p : Int)
    if brFits v then some (v / 8, vs) else none
  if vs.contains target then at_ (vs.idxOf target) vs
  else if vs.length < o.nven then at_ vs.length (vs ++ [target])
  else none

/-- 14 R318: the value of a relocation with the veneers after it; an error is a load status. -/
def relValue (o : Nco) (l : Layout) (ns : List Sym) (vs : Veneers) (r : NcoRel) : Except Nat (Int × Veneers) :=
  match o.syms[r.sym]? with
  | none => .error 1
  | some y =>
    let inR (v lo hi : Int) (vs : Veneers) : Except Nat (Int × Veneers) := if lo ≤ v && v ≤ hi then .ok (v, vs) else .error 3
    if r.typ = 5 then (if y.slot = 0 then .error 3 else inR (16 * y.slot + r.addend) 16 524287 vs)
    else match symAddr l ns y with
    | none => .error 4
    | some s =>
      let v : Int := s + r.addend
      match r.typ with
      | 1 => .ok (v, vs)
      | 2 => .ok (v % 2 ^ 64 / 2 ^ 32, vs)
      | 3 =>
        let p := Tab.get l.secs 0 r.sect + ((o.secs[r.sect]?).bind (headOf · r.off)).getD 0
        if brFits (v - p) then .ok ((v - p) / 8, vs)
        else match brVeneer o l vs (v % 2 ^ 64).toNat p with
        | some x => .ok x
        | none => .error 3
      | 4 => inR (v - l.data) (-524288) 524287 vs
      | 6 => inR v 0 65535 vs
      | _ => .ok (v, vs)

/-- Patch a field of n bits from bit b of the bytes at an offset. -/
def patchAt (bs : List Byte) (off width b n : Nat) (v : Int) : List Byte :=
  let old := fieldAt bs off width
  let new := old / 2 ^ (b + n) * 2 ^ (b + n) + (v % (2 ^ n : Nat)).toNat * 2 ^ b + old % 2 ^ b
  bs.take off ++ leBytes width new ++ bs.drop (off + width)

/-- Every relocation in order: the sections' bytes and the veneers, or the status with the relocation's index. -/
def relocate (o : Nco) (l : Layout) (ns : List Sym) :
    Nat → List NcoRel → List (List Byte) → Veneers → Except (Nat × Nat) (List (List Byte) × Veneers)
  | _, [], bss, vs => .ok (bss, vs)
  | i, r :: rest, bss, vs =>
    let bs := bss.getD r.sect []
    match relValue o l ns vs r, relField r.typ r.place (BitVec.ofNat 64 (fieldAt bs r.off 8)) with
    | .error st, _ => .error (st, i)
    | .ok _, none => .error (1, i)
    | .ok (v, vs1), some (b, n) => relocate o l ns (i + 1) rest (bss.set r.sect (patchAt bs r.off r.width b n v)) vs1

/-- 14 R319: a veneer's words. -/
def veneerWords (target : Nat) : List Word :=
  let w (i : Instr) : Word := (encode i).getD 0
  [0x0200000000000000#64,
    w (.movi ⟨Guard.always, ⟨false, 56#6⟩, false, false, BitVec.ofNat 32 target⟩),
    w (.movh ⟨Guard.always, ⟨false, 56#6⟩, BitVec.ofNat 32 (target / 2 ^ 32)⟩),
    w (.jmpi ⟨Guard.always, .reg 56#6⟩)]

/-! ### The linkage table (14 R320) -/

def slotBytes (o : Nco) (l : Layout) (ns : List Sym) (n : Nat) : List Byte :=
  match o.syms.find? fun y => y.slot = n with
  | none => []
  | some y =>
    let stub := match o.syms.find? fun z => z.bind = 0 && z.name = ncoResolve with
      | some z => l.addr z
      | none => 0
    let own := o.syms.any fun z => z.bind ≠ 0 && z.defd && z.name = y.name
    let (entry, dir) := if y.bind = 0 then (l.addr y, 0xFFFFFFFF)
      else match findSym ns y.name with
      | some z => (if z.defd && (own || o.bindNow) then z.addr.toNat else stub, z.cell)
      | none => (stub, 0xFFFFFFFF)
    leBytes 8 entry ++ leBytes 4 n ++ leBytes 4 dir

def linkBytes (o : Nco) (l : Layout) (ns : List Sym) (dirbase : Nat) : List Byte :=
  leBytes 8 dirbase ++ leBytes 4 o.nslot ++ leBytes 4 0 ++ (List.range o.nslot).flatMap fun i => slotBytes o l ns (i + 1)

/-! ### Pages of the arena (19 R400, 17 R361) -/

/-- The walk of an arena address: where its valid leaf stands, the level, and the leaf (17 R361). -/
def State.leafLoc (s : State) (va root : Nat) : Option (Nat × Nat × Word) :=
  if 2 ^ 55 ≤ va then none
  else match s.walk va 3 root 0, (s.walkPath va 3 root 0).getLast? with
  | .ok (level, e), some x => some (x.2.1, level, e)
  | _, _ => none

def leafPiece (va level : Nat) (e : Word) : Nat := leafPa e / 2 ^ levelBits level * 2 ^ levelBits level + va % 2 ^ levelBits level

/-- A page and the permission bits R, W, X (2, 3, 4 of the leaf) that it needs. -/
abbrev PagePerm := Nat × Word

def permR : Word := 4#64
def permRW : Word := 12#64
def permRX : Word := 20#64

/-- The pages of a range. -/
def pageNums (a n : Nat) : List Nat := if n = 0 then [] else (pagesOf a n).map fun p => p.1 / 2 ^ 16

/-- 14 R314: what the pages of the object and of the directory need. A page of the data segment that holds data, bss or both
beside rodata needs W. -/
def pagePerms (o : Nco) (l : Layout) (dirbase : Nat) : List PagePerm :=
  let wr := (List.range o.secs.length).flatMap fun i => match o.secs[i]? with
    | some x => if x.kind = 1 || x.kind = 3 then pageNums (Tab.get l.secs 0 i) x.size else []
    | none => []
  (pageNums dirbase 0x80000).map (fun p => (p, permR))
    ++ (pageNums l.code l.csize).map (fun p => (p, permRX))
    ++ (pageNums l.data l.dsize).map (fun p => (p, if wr.contains p then permRW else permR))
    ++ (pageNums l.link (16 * (o.nslot + 1))).map fun p => (p, permRW)

/-- A leaf with the permissions of a page: a 64 KiB leaf has exactly those, a larger one has them besides its own. -/
def leafWith (level : Nat) (e perm : Word) : Word := if level = 2 then (e &&& ~~~0x1C#64) ||| perm else e ||| perm

/-- A store of firmware's on the F path, in a view. -/
def State.fwStore (s : State) (v : View) (a : Nat) (bs : List Byte) (rel : Option Nat) : State × View :=
  s.storeAt v none a bs (List.replicate bs.length false) .F mbAgent rel

/-- 19 R400: the leaf of a page gets its permissions, and the page's translations are dropped. -/
def State.setPerm (s : State) (ctx root : Nat) (v : View) (p : PagePerm) : State × View :=
  match s.leafLoc (p.1 * 2 ^ 16) root with
  | none => (s, v)
  | some (a, level, e) =>
    let new := leafWith level e p.2
    if new = e then (s, v)
    else
      let (s1, v1) := s.fwStore v a (leBytes 8 new.toNat) none
      (s1.tlbiDo ⟨some ctx, some (p.1 * 2 ^ 16)⟩ v1.hb, v1)

/-- A store of firmware's at a virtual address of the context. -/
def State.fwVStore (s : State) (root : Nat) (v : View) (va : Nat) (bs : List Byte) (rel : Option Nat) : State × View :=
  (pagesOf va bs.length).foldl (fun acc p =>
    match acc.1.leafLoc p.1 root with
    | some (_, level, e) => acc.1.fwStore acc.2 (leafPiece p.1 level e) (slice bs (p.1 - va) p.2) rel
    | none => acc) (s, v)

/-! ### OBJ_LOAD (14 R325, R326) -/

/-- What a load ends with: a status, and the index that it carries or the object's number. -/
structure LoadRes where
  status : Nat
  info   : Nat
deriving DecidableEq, Repr

/-- Steps 3 and 4 in memory, then the cells, each a release store; and what the last, device-scope release publishes to the launches
that follow (14 R326). -/
def State.writeObject (s : State) (ctx : Nat) (k : Ctx) (o : Nco) (l : Layout) (ns : List Sym) (bss : List (List Byte)) (vs : Veneers) :
    State × List Nat :=
  let root := k.root.toNat
  let base := k.arenaBase.toNat
  let host := (s.log.filter fun w => w.core = 1000).map WriteRec.id
  let v0 : View := { View.empty with hb := listUnion host s.host.view.hb }
  let (s1, v1) := (pagePerms o l base).foldl (fun (acc : State × View) p => acc.1.setPerm ctx root acc.2 p) (s, v0)
  let secs := (List.range bss.length).map fun i => (Tab.get l.secs 0 i, bss.getD i [])
  let vens := (List.range vs.length).map fun i => (l.pool + 32 * i, (veneerWords (vs.getD i 0)).flatMap fun w => leBytes 8 w.toNat)
  let (s2, v2) := (secs ++ vens ++ [(l.link, linkBytes o l ns base)]).foldl (fun (acc : State × View) w =>
    acc.1.fwVStore root acc.2 w.1 w.2 none) (s1, v1)
  let cells := ns.filter fun y => !k.syms.contains y
  let (s3, v3) := cells.foldl (fun (acc : State × View) y =>
    acc.1.fwVStore root acc.2 (base + 8 * y.cell) (leBytes 8 y.cellValue) (some 1)) (s2, v2)
  (s3, v3.hb)

/-- 19 R400: the pages of a context's load arena. -/
def Ctx.arenaPages (k : Ctx) : List Nat := pageNums k.arenaBase.toNat k.arenaSize

/-- 14 R325: the load of an image into a context. Every page of the arena, used or not, must have a valid leaf. -/
def State.loadObject (s : State) (ctx : Nat) (k : Ctx) (img : List Byte) : State × LoadRes :=
  match parseNco img with
  | none => (s, ⟨1, 0⟩)
  | some o =>
    let base := k.arenaBase.toNat
    let l := layoutOf o base k.arenaUsed
    match enterAll l 0 o.syms (addNames k.syms o.syms) with
    | .error i => (s, ⟨2, i⟩)
    | .ok ns =>
      if k.arenaSize < l.used || 65536 < ns.length
        || k.arenaPages.any (fun p => (s.leafLoc (p * 2 ^ 16) k.root.toNat).isNone) then (s, ⟨5, 0⟩)
      else match relocate o l ns 0 o.rels (o.secs.map NcoSec.bytes) [] with
      | .error (st, i) => (s, ⟨st, i⟩)
      | .ok (bss, vs) =>
        let num := k.objs.length + 1
        let (s1, hb) := s.writeObject ctx k o l ns bss vs
        let obj : Obj := ⟨num, BitVec.ofNat 64 l.code, l.csize, BitVec.ofNat 64 l.data, BitVec.ofNat 64 l.link⟩
        let k1 : Ctx := { k with
          objs := k.objs ++ [obj], syms := ns, arenaUsed := l.used, meas := sha512 (k.meas ++ sha512 img), loadHb := listUnion hb k.loadHb }
        (s1.setCtx ctx k1, ⟨0, num⟩)

/-- The pseudo-channels that the stores made since an earlier state reach. -/
def State.storedSince (s before : State) : List Nat :=
  (s.log.takeWhile fun w => before.nextId ≤ w.id).flatMap fun w => if w.space.isNone then pchsOf w.addr w.len else []

/-- The fields of a request block (log 30). -/
def State.reqBytes (s : State) (req : Nat) : List Byte := Bytes.read s.mem.cells req 64

/-- 14 R325, R326; 19 R374, R376, R400. A context that does not exist has no arena: NO_SPACE. -/
def execObjLoad (req : Nat) (s : State) : Out :=
  .next (
    s.reading (.objLoad req) [(req, 64)] fun s =>
    let b := s.reqBytes req
    let ctx := Config.reqCtx b
    let a := Config.reqImage b
    let n := Config.reqLength b
    match s.ctx? ctx with
    | none => s.mbDone 5#8
    | some k =>
      if k.arenaSize = 0 then s.mbDone 5#8
      else s.reading (.objLoad req) [(a, n)] fun s =>
      if s.badRead none a n then s.mbDone 1#8
      else
        let img := Bytes.read s.mem.cells a n
        s.reading (.objLoad req) (k.arenaPages.flatMap fun p => s.walkReads k.root.toNat (p * 2 ^ 16)) fun s =>
        s.holding (.objLoad req) ((s.loadObject ctx k img).1.storedSince s) fun s =>
        let (s1, r) := s.loadObject ctx k img
        let off := if r.status = 0 then Config.objOffset else Config.infoOffset
        (if r.status = 1 || r.status = 5 then s1 else s1.mbStore (req + off % 61) (leBytes 4 r.info)).mbDone (BitVec.ofNat 8 r.status))

end Sys2Proof.Machine
end

