-- ==== Sys2Proof/Machine/HostIf.lean ====
section
/-!
DEFINITION. The host's side: the firmware mailbox, SPDM, boot, CXL.mem, peers, and the far-memory ports (19 R369-R379; 17 R363).
-/

namespace Sys2Proof.Machine

open Sys2Proof

/-! ### The mailbox (19 R374) -/

/-- The command that a code starts; with no firmware running every command is answered 0x40 (19 R379). -/
def State.mbEvent (s : State) (cmd : BitVec 8) (req : Nat) : Instr :=
  if !s.host.booted then .mbUnknownCmd cmd.toNat
  else match cmd.toNat with
  | 0x01 => .ctxCreate req
  | 0x02 => .ctxReset req
  | 0x03 => .ctxDestroy req
  | 0x10 => .objLoad req
  | 0x11 => .measRead req
  | 0x20 => .mbClpm req
  | 0x30 => .haltInfo req
  | _ => .mbUnknownCmd cmd.toNat

/-- 19 R374: the host writes MB_CMD and MB_REQ, then MB_DB. A doorbell without its bit, or while BUSY, starts nothing. -/
def execMbDb (cmd : BitVec 8) (req value : Word) (s : State) : Out :=
  .next (let mb := s.host.mb
    let go := value.getLsbD 0 && !mb.busy
    let s1 := { s with host := { s.host with mb := { mb with cmd := cmd, req := req, busy := mb.busy || go } } }
    if go then s1.post (s.mbEvent cmd req.toNat) else s1)

/-- 19 R374, R377: MEAS_READ copies CTX_MEAS into the block. -/
def execMeasRead (req : Nat) (s : State) : Out :=
  .next (s.reading (.measRead req) [(req, 64)] fun s => match s.ctx? (Config.reqCtx (s.reqBytes req)) with
    | none => s.mbDone 0x42#8
    | some k => (s.mbStore (req + Config.measOffset % 64) k.meas).mbDone 0#8)

/-- The cluster and the state that a running CLPM command leads to. -/
def State.setGoal (s : State) (g : Option (Nat × BitVec 2)) : State :=
  { s with host := { s.host with mb := { s.host.mb with goal := g } } }

/-- 19 R380: the state one step nearer to the target. -/
def stepToward (cur tgt : BitVec 2) : BitVec 2 := if cur < tgt then cur + 1 else cur - 1

/-- 19 R374, R380: CLPM: the cluster's management core takes it to the state in single steps; a step that is refused ends the command.
A cluster that is in the state already is left there (log 94). -/
def execMbClpm (req : Nat) (s : State) : Out :=
  .next (s.reading (.mbClpm req) [(req, 64)] fun s =>
    let (k, tgt) := s.host.mb.goal.getD (Config.reqCluster (s.reqBytes req), Config.reqState (s.reqBytes req))
    let p := (s.cluster k).pm
    if Config.numClusters ≤ k || (p.busy && s.host.mb.goal.isNone) then s.mbDone 0x43#8
    else if p.busy then s.post (.mbClpm req)
    else if p.cur = tgt then (s.setGoal none).mbDone 0#8
    else
      let next := stepToward p.cur tgt
      if s.goRefused k next then ((s.clpmStart k next id).setGoal none).mbDone 0x43#8
      else ((s.clpmStart k next (State.setTgt k next)).setGoal (some (k, tgt))).post (.mbClpm req))

/-- 19 R374: HALT_INFO: the cluster and the MC_CAUSE of a halted management core. -/
def execHaltInfo (req : Nat) (s : State) : Out :=
  .next (s.reading (.haltInfo req) [(req, 64)] fun s =>
    let k := s.host.mb.haltCluster
    (if s.host.mb.halt then s.mbStore (req + Config.haltOffset % 63) [BitVec.ofNat 8 k, (s.mc k).cause] else s).mbDone 0#8)

/-- 19 R374, R379. -/
def execMbUnknownCmd (_cmd : Nat) (s : State) : Out := .next (s.mbDone 0x40#8)

/-! ### What the host reads in BAR0 (19 R372-R374; 21 R393-R396) -/

/-- 19 R373: the capability block, by 8 bytes. -/
def State.capWord (s : State) (off : Nat) : Nat :=
  let m (i : Nat) : Nat := (deviceMajors.getD i 0).toNat
  match off with
  | 0x00 => 0x4E374352 + s.host.bootstat.toNat * 2 ^ 32
  | 0x08 => m 0 + m 1 * 2 ^ 16 + m 2 * 2 ^ 32 + m 3 * 2 ^ 48
  | 0x10 => m 4 + 64 * 2 ^ 16
  | 0x18 => s.host.peerup.toNat
  | _ => 0

/-- 19 R374: the mailbox registers. MB_DB is read as 0 (log 94). -/
def State.mbWord (s : State) (off : Nat) : Nat :=
  let mb := s.host.mb
  match off with
  | 0x00 => mb.cmd.toNat
  | 0x08 => mb.req.toNat
  | 0x18 => mb.status.toNat * 256 + (if mb.halt then 2 else 0) + (if mb.busy then 1 else 0)
  | _ => 0

/-- 19 R372: the mirrors of a cluster's power registers. -/
def State.mirrorWord (s : State) (k off : Nat) : Nat :=
  let p := (s.cluster k).pm
  match off with
  | 0x00 => p.ctl.toNat
  | 0x08 => (s.clpmStat k).toNat
  | 0x10 => p.retn.toNat
  | 0x18 => p.wake.toNat
  | _ => 0

/-- 21 R396: a pseudo-channel's block. -/
def Pch.word (x : Pch) (off : Nat) : Nat :=
  match off with
  | 0x00 => x.spare * 2 ^ 32 + x.oos * 256 + x.st
  | 0x08 => x.lf * 2 ^ 32 + x.lc
  | 0x10 => x.au * 2 ^ 32 + x.ac
  | 0x18 => x.rm * 2 ^ 32 + x.sc
  | 0x20 => x.rl
  | 0x28 => x.lastpa
  | _ => 0

/-- 21 R393-R396: the memory telemetry. -/
def State.telemetryWord (s : State) (off : Nat) : Nat :=
  let h := s.hbm
  if off = 0 then h.rmthr.toNat * 2 ^ 16 + h.period.toNat * 2 ^ 8 + h.en.toNat
  else if off = 0x8 then h.prog.toNat * 2 ^ 32 + h.passes.toNat
  else if off = 0x10 then h.head.toNat
  else if 0x1000 ≤ off && off < 0x2000 then
    let e := Tab.get h.elog (0, 0) ((off - 0x1000) / 16)
    (if off % 16 = 0 then e.1 else e.2).toNat
  else if 0x10000 ≤ off && off < 0x10000 + 64 * 1280 then (s.pch ((off - 0x10000) / 64)).word (off % 64)
  else 0

/-- 19 R372, 00 R8, R9: the 8 bytes that the host reads at an offset of BAR0, a multiple of 8. Write-only registers, reserved fields
and unlisted offsets read as zero. The MSI-X table and PBA are those of PCI, and their contents are not given (log 94). -/
def State.bar0 (s : State) (off : Nat) : Word :=
  if off < 0x1000 then BitVec.ofNat 64 (s.capWord off)
  else if off < 0x2000 then BitVec.ofNat 64 (s.mbWord (off - 0x1000))
  else if 0x20000 ≤ off && off < 0x21000 then Config.freeWord s.draw (100000 + off)
  else if 0x30000 ≤ off && off < 0x30000 + 24 * 32 then BitVec.ofNat 64 (s.mirrorWord ((off - 0x30000) / 32) (off % 32))
  else if 0x1000000 ≤ off && off < 0x2000000 then BitVec.ofNat 64 (s.telemetryWord (off - 0x1000000))
  else 0

/-! ### SPDM (19 R378) -/

/-- A response, signed with the device identity key (log 16). -/
def State.respond (s : State) (bs : List Byte) : State :=
  { s with host := { s.host with spdm := { s.host.spdm with response := bs, signature := Config.sign bs } } }

/-- 19 R378: a measurement block. -/
def State.measBlock (s : State) (index : Nat) : List Byte :=
  if index = 1 then Config.romHash
  else if index = 2 then Config.firmwareHash
  else if index = 3 then leBytes 8 Config.securityVersion.toNat
  else if 16 ≤ index && index < 80 then
    match s.ctx? (index - 16) with
    | some k => k.meas
    | none => List.replicate 64 0#8
  else []

/-- The version of SPDM, 1.3. -/
def execGetVersion (s : State) : Out :=
  .next ({ s with host := { s.host with spdm := { s.host.spdm with version := true } } }.respond [1#8, 3#8])
def execGetCapabilities (s : State) : Out :=
  .next ({ s with host := { s.host with spdm := { s.host.spdm with caps := true } } }.respond [])
/-- SHA-512, and RSASSA with RSA-4096, are the only algorithms. -/
def execNegotiateAlgorithms (s : State) : Out :=
  .next ({ s with host := { s.host with spdm := { s.host.spdm with algs := true } } }.respond [])
def execGetDigests (s : State) : Out := .next (s.respond (sha512 Config.identityChain))
/-- The certificate chain is in slot 0. -/
def execGetCertificate (slot : Nat) (s : State) : Out := .next (s.respond (if slot = 0 then Config.identityChain else []))
def execGetMeasurements (index : Nat) (s : State) : Out := .next (s.respond (s.measBlock index))

/-! ### Boot (19 R379) -/

/-- The management cores at their first clause (log 7). -/
def startedClusters : Tab Cluster :=
  (List.range Config.numClusters).map fun k =>
    (k, { Cluster.reset with mc := { Mc.reset with on := true, th := { Thread.blank .mc with uid := k, pc := Config.mcStart k &&& ~~~7#64 } } })

/-- 19 R379: module reset, and what the boot ROM makes of the flash image. What HBM holds afterwards is not specified; the model
keeps it (log 34). -/
def execModuleReset (s : State) : Out :=
  .next (
    let s0 := { State.reset with mem := s.mem, nextId := s.nextId, agenda := [], inputs := s.inputs, draw := s.draw, tick := s.tick
                                 fresh := s.fresh + Config.numClusters, turn := s.turn }
    if Config.bootVerdict = 0#8 then
      { s0 with clusters := startedClusters, host := { s0.host with booted := true, bootstat := 0 } }
    else
      { s0 with host := { s0.host with bootstat := if Config.bootVerdict.toNat ≤ 3 then Config.bootVerdict else 3#8 } })

/-! ### CXL.mem and peers (19 R369-R371) -/

/-- The host as an agent. -/
abbrev hostAgent : Nat := 1000

/-- The peers as an agent: a doorbell of the host's releases none of their stores (16 R334). -/
abbrev peerAgent : Nat := 1001

/-- A store of the host's, which arrives on the H path. -/
def State.hostStore (s : State) (a : Nat) (bs : List Byte) : State :=
  let (s1, v) := s.storeAt s.host.view none a bs (List.replicate bs.length false) .H hostAgent none
  { s1 with host := { s1.host with view := v } }

/-- A store of a peer's. -/
def State.peerStore (s : State) (a : Nat) (bs : List Byte) : State :=
  (s.storeAt View.empty none a bs (List.replicate bs.length false) .H peerAgent none).1

/-- A read on the H path at system scope, at the home. A poisoned line gives CXL poisoned data (21 R388). -/
def State.hostRead (s : State) (a n : Nat) : State :=
  let s1 := s.demandGot a n (s.readChoice s.host.view .H true none a n 0 none)
  let g := s1.readChoice s1.host.view .H true none a n 0 none
  { s1 with host := { s1.host with lastRead := g.bytes, lastReadPoison := g.bad
                                   view := s1.host.view.afterLoad g hostAgent (some 2) none } }

/-- Whether CXL.mem decodes a range: the HBM range, once firmware runs. -/
def State.decodes (s : State) (a n : Nat) : Bool := s.host.booted && a + n ≤ 2 ^ 39

/-- The host's name among the agents whose accesses a pseudo-channel holds. -/
abbrev hostName : Nat := 600 * 8192

/-- The peers' name among them. -/
abbrev peerName : Nat := 601 * 8192

/-- An access of a range: stopped where nothing decodes it, held where its pseudo-channel holds accesses (21 R392). One that arrives
while its like is held waits behind it. -/
def State.hostAccess (s : State) (again : Instr) (name a n : Nat) (k : State → State) : Out :=
  if !s.decodes a n then .fault (.notDecoded a)
  else
    let ks := pchsOf a n
    .next (if s.turn = .input && s.hbm.waiting.any (·.of name 0 (some again)) then (s.joinQueue ⟨name, 0, ks, some again⟩).post again
      else if s.mustWait name 0 ks (some again) then (s.served name 0 ks id (some again)).post again
      else s.served name 0 ks k (some again))

def execHostCxlMemAccess (acc : HostAcc) (s : State) : Out :=
  match acc with
  | .read a n => s.hostAccess (.hostCxlMemAccess acc) hostName a n fun s => s.hostRead a n
  | .write a bs => s.hostAccess (.hostCxlMemAccess acc) hostName a bs.length fun s => s.hostStore a bs

/-- 19 R371: another module's write arrives here on the H path. -/
def execPeerWrite (addr : Nat) (data : List Byte) (s : State) : Out :=
  s.hostAccess (.peerWrite addr data) peerName addr data.length fun s => s.peerStore addr data

/-- 19 R371, R373: a peer link is up; firmware sets the port's window size, in bytes. -/
def execPeerLinkTrained (port wsize : Nat) (s : State) : Out :=
  .next { s with host := { s.host with peerup := s.host.peerup ||| BitVec.ofNat 16 (2 ^ port)
                                       peerSize := Tab.set s.host.peerSize port wsize } }

/-! ### Far-memory ports (17 R363) -/

/-- The outstanding accesses of a core that satisfy `f`, place by place with its physical address. -/
def State.outWhere (s : State) (c : Nat) (f : OutAccess → Nat → Bool) : List (OutAccess × List (Nat × Nat)) :=
  ((s.core c).loads.map fun o => (o, o.pend.filter fun pa => f o pa.2)).filter fun q => !q.2.isEmpty

/-- 17 R363: a port reports link-down: the accesses outstanding on it complete with poison, or enter the field book. -/
def execFarLinkDown (port : Nat) (s : State) : Out :=
  .next ((Tab.keys s.cores).foldl (fun s c =>
    (s.outWhere c fun _ a => inFar a && farPort a = port).foldl (fun s q => s.loseAt c q.1.entry q.1 q.2) s)
    { s with host := { s.host with farDown := insertAsc port s.host.farDown } })

/-- 17 R363: a fibre's accesses to far memory reach their completion timeout. -/
def execFarCompletionTimeout (core entry : Nat) (s : State) : Out :=
  .next ((s.outWhere core fun o a => o.entry = entry && inFar a).foldl (fun s q => s.loseAt core q.1.entry q.1 q.2) s)

/-- 17 R363: the port has retrained: the records with this PORT and FARLINK are replayed on every core, those of instructions of which
something else is still outstanding among them. -/
def execFarRetrainDone (port : Nat) (s : State) : Out :=
  .next ((Tab.keys s.cores).foldl (fun s c =>
    ((s.core c).book.filter fun kb => kb.2.farlink && kb.2.port = port).foldl (fun s kb => s.startReplay c kb.1 []) s)
    (({ s with host := { s.host with farDown := s.host.farDown.filter (· ≠ port) } } : State).endFaulted fun f =>
      f.far = some (port, true)))

end Sys2Proof.Machine
end

