-- ==== Sys2Proof/Machine/Reliability.lean ====
section
/-!
DEFINITION. HBM links, the patrol scrubber, the loss of a remap table, and the telemetry writes (21 R386-R396).
-/

namespace Sys2Proof.Machine

open Sys2Proof

/-- 21 R392, R386: a pseudo-channel leaves service until module reset: 1 a retrain failed, 2 its remap table is lost. -/
def State.outOfService (s : State) (k cause : Nat) : State := s.setPch k { s.pch k with st := 3, oos := cause }

/-- 21 R386: a burst's CRC fails `failures` times, the first read and its replays counted; four replays at most, then the interface
retrains. -/
def execLinkCrcFail (pch failures : Nat) (s : State) : Out :=
  .next (let x := s.pch pch
    if x.st ≠ 0 then s
    else
      let x1 := { x with lc := Nat.repeat satInc (min failures 5) x.lc }
      if failures ≤ 4 then s.setPch pch x1
      else (s.setPch pch { x1 with lf := satInc x1.lf, st := 2, fails := 0 }).logError 1 0 pch false)

/-- 21 R386: a retrain ends; with it done, the burst is replayed once more. -/
def execHbmRetrainDone (pch : Nat) (ok burstOk : Bool) (s : State) : Out :=
  .next (let x := s.pch pch
    if x.st ≠ 2 then s
    else if !ok then
      if 3 ≤ x.fails + 1 then s.outOfService pch 1 else s.setPch pch { x with fails := x.fails + 1 }
    else if burstOk then s.setPch pch { x with st := 0, fails := 0 }
    else (s.setPch pch { x with lc := satInc x.lc }).outOfService pch 1)

/-- 21 R389, 08 R226: a lane of a register, or the whole of a U or A register, becomes poisoned; an A register, which has no mark of its
own, as a poisoned U register (log 93). Of a pair whose odd half is joined to the even one, the whole. -/
def Thread.upset (t : Thread) (n place : Nat) : Thread :=
  let m := if t.reg n = .p then n - 1 else n
  match t.reg m with
  | .u b _ => { t with regs := Tab.set t.regs m (.u b true) }
  | .a b _ _ _ => { t with regs := Tab.set t.regs m (.u b true) }
  | .e l po => { t with regs := Tab.set t.regs m (.e l (insertAsc place po)) }
  | .p => t

/-- 21 R389: a failed check in a core poisons the lane, one in the L2 the line. It counts nothing. -/
def State.applyUpset (s : State) : Upset → State
  | .lane c e reg place => s.asTurn (turnOf c e) fun s => match s.cur? with
    | some t => s.setCur (t.upset reg place)
    | none => s
  | .line n => s.poisonLine n

/-- The checks that have failed take effect. -/
def State.applyUpsets (s : State) : State := s.upsets.foldl State.applyUpset { s with upsets := [] }

/-- 21 R390, R393: the end of a pass. -/
def State.nextPass (s : State) : State :=
  let h := s.hbm
  { s with hbm := { h with passes := h.passes + 1, prog := 0, cursor := 0
                           pchs := h.pchs.map fun (kv : Nat × Pch) => (kv.1, { kv.2 with events := [] }) } }

/-- The lines of HBM. -/
abbrev hbmLines : Nat := 2 ^ 33

/-- 21 R390, R391, R393: the scrubber reads the next line of its pass. It waits for a frozen or retraining pseudo-channel and skips
one that is out of service. -/
def execScrubRead (s : State) : Out :=
  .next (let l := s.hbm.cursor
    if !s.hbm.en || s.heldAt (64 * l) 1 then s
    else
      let s1 := if s.deadAt (64 * l) 1 then s else s.readLine l true
      if hbmLines ≤ l + 1 then s1.nextPass
      else { s1 with hbm := { s1.hbm with cursor := l + 1, prog := BitVec.ofNat 16 ((l + 1) / 2 ^ 17) } })

/-- 21 R392: the loads that are on their way from a pseudo-channel complete with poison. -/
def State.poisonSent (s : State) (pch : Nat) : State :=
  (Tab.keys s.cores).foldl (fun s c =>
    (s.outWhere c fun o a => o.data.isEmpty && inHbm a && pchOf a = pch).foldl (fun s q => s.landAt c q.1.entry q.1 q.2 true) s) s

/-- 21 R392: an uncorrectable error in the remap table: reads already sent complete with poison, the pseudo-channel is frozen, and
its table is reloaded. While it retrains no read has been sent (R386). -/
def execRemapTableError (pch : Nat) (s : State) : Out :=
  .next (let x := s.pch pch
    if x.st = 1 || x.st = 3 then s
    else
      let s1 := if x.st = 0 then s.poisonSent pch else s
      (s1.setPch pch { s1.pch pch with st := 1 }).post (.tableReloadDone pch))

/-- 21 R392: the reload from the shadow copy of higher generation whose CRC is good. Which copies are good is open (log 35). -/
def execTableReloadDone (pch : Nat) (s : State) : Out :=
  .next (let x := s.pch pch
    if x.st ≠ 1 then s
    else
      let goodA := Config.freeBit (2 * s.draw)
      let goodB := Config.freeBit (2 * s.draw + 1)
      if !goodA && !goodB then ((s.setPch pch { x with rl := satInc x.rl }).outOfService pch 2).logError 6 0 pch false
      else s.setPch pch { x with st := 0, map := if goodA && (x.genB ≤ x.genA || !goodB) then x.shadowA else x.shadowB })

/-- 21 R393: a write of SCRUB_CTL. -/
def execScrubCtl (value : Word) (s : State) : Out :=
  .next (let p := value.extractLsb' 8 8
    { s with hbm := { s.hbm with rmthr := value.extractLsb' 16 8, en := value.getLsbD 0
                                 period := if 1 ≤ p.toNat && p.toNat ≤ 168 then p else s.hbm.period } })

/-- 21 R396: CLR zeroes a block's counters. -/
def execClr (pch : Nat) (s : State) : Out :=
  .next (s.setPch pch { s.pch pch with lc := 0, lf := 0, ac := 0, au := 0, rm := 0, sc := 0, rl := 0 })

end Sys2Proof.Machine
end

