-- ==== Sys2Proof/Machine/Dispatch.lean ====
section
/-!
DEFINITION. The dispatch: one arm for each constructor of `Instr`.
-/

namespace Sys2Proof.Machine

open Sys2Proof

/-- What each row of the opcode table does. -/
def exec (i : Instr) (s : State) : Host.Outcome State Fault Refusal :=
  match i with
  | .nop o => Sys2Proof.Machine.execNop o s
  | .illegal => Sys2Proof.Machine.execIllegal s
  | .iadd o => Sys2Proof.Machine.execIadd o s
  | .iaddImm o => Sys2Proof.Machine.execIaddImm o s
  | .isub o => Sys2Proof.Machine.execIsub o s
  | .isubImm o => Sys2Proof.Machine.execIsubImm o s
  | .imul o => Sys2Proof.Machine.execImul o s
  | .imulImm o => Sys2Proof.Machine.execImulImm o s
  | .imulh o => Sys2Proof.Machine.execImulh o s
  | .imulhImm o => Sys2Proof.Machine.execImulhImm o s
  | .imulw o => Sys2Proof.Machine.execImulw o s
  | .imulwImm o => Sys2Proof.Machine.execImulwImm o s
  | .imad o => Sys2Proof.Machine.execImad o s
  | .ineg o => Sys2Proof.Machine.execIneg o s
  | .iabs o => Sys2Proof.Machine.execIabs o s
  | .imin o => Sys2Proof.Machine.execImin o s
  | .iminImm o => Sys2Proof.Machine.execIminImm o s
  | .imax o => Sys2Proof.Machine.execImax o s
  | .imaxImm o => Sys2Proof.Machine.execImaxImm o s
  | .shl o => Sys2Proof.Machine.execShl o s
  | .shlImm o => Sys2Proof.Machine.execShlImm o s
  | .shr o => Sys2Proof.Machine.execShr o s
  | .shrImm o => Sys2Proof.Machine.execShrImm o s
  | .sar o => Sys2Proof.Machine.execSar o s
  | .sarImm o => Sys2Proof.Machine.execSarImm o s
  | .and_ o => Sys2Proof.Machine.execAnd o s
  | .andImm o => Sys2Proof.Machine.execAndImm o s
  | .or_ o => Sys2Proof.Machine.execOr o s
  | .orImm o => Sys2Proof.Machine.execOrImm o s
  | .xor_ o => Sys2Proof.Machine.execXor o s
  | .xorImm o => Sys2Proof.Machine.execXorImm o s
  | .not_ o => Sys2Proof.Machine.execNot o s
  | .andn o => Sys2Proof.Machine.execAndn o s
  | .andnImm o => Sys2Proof.Machine.execAndnImm o s
  | .clz o => Sys2Proof.Machine.execClz o s
  | .popc o => Sys2Proof.Machine.execPopc o s
  | .brev o => Sys2Proof.Machine.execBrev o s
  | .bfx o => Sys2Proof.Machine.execBfx o s
  | .bfi o => Sys2Proof.Machine.execBfi o s
  | .sel o => Sys2Proof.Machine.execSel o s
  | .icmp o => Sys2Proof.Machine.execIcmp o s
  | .icmpImm o => Sys2Proof.Machine.execIcmpImm o s
  | .mov o => Sys2Proof.Machine.execMov o s
  | .movi o => Sys2Proof.Machine.execMovi o s
  | .movh o => Sys2Proof.Machine.execMovh o s
  | .lea o => Sys2Proof.Machine.execLea o s
  | .fadd o => Sys2Proof.Machine.execFadd o s
  | .fsub o => Sys2Proof.Machine.execFsub o s
  | .fmul o => Sys2Proof.Machine.execFmul o s
  | .ffma o => Sys2Proof.Machine.execFfma o s
  | .fmin o => Sys2Proof.Machine.execFmin o s
  | .fmax o => Sys2Proof.Machine.execFmax o s
  | .fabs o => Sys2Proof.Machine.execFabs o s
  | .fneg o => Sys2Proof.Machine.execFneg o s
  | .fcmp o => Sys2Proof.Machine.execFcmp o s
  | .fclass o => Sys2Proof.Machine.execFclass o s
  | .frcp o => Sys2Proof.Machine.execFrcp o s
  | .frsq o => Sys2Proof.Machine.execFrsq o s
  | .fsqrt o => Sys2Proof.Machine.execFsqrt o s
  | .fex2 o => Sys2Proof.Machine.execFex2 o s
  | .flg2 o => Sys2Proof.Machine.execFlg2 o s
  | .fsin o => Sys2Proof.Machine.execFsin o s
  | .fcos o => Sys2Proof.Machine.execFcos o s
  | .frnd o => Sys2Proof.Machine.execFrnd o s
  | .fcvt o => Sys2Proof.Machine.execFcvt o s
  | .ftoi o => Sys2Proof.Machine.execFtoi o s
  | .itof o => Sys2Proof.Machine.execItof o s
  | .hadd2 o => Sys2Proof.Machine.execHadd2 o s
  | .hmul2 o => Sys2Proof.Machine.execHmul2 o s
  | .hfma2 o => Sys2Proof.Machine.execHfma2 o s
  | .dot4 o => Sys2Proof.Machine.execDot4 o s
  | .dot2h o => Sys2Proof.Machine.execDot2h o s
  | .pand o => Sys2Proof.Machine.execPand o s
  | .por o => Sys2Proof.Machine.execPor o s
  | .pxor o => Sys2Proof.Machine.execPxor o s
  | .pnot o => Sys2Proof.Machine.execPnot o s
  | .pmov o => Sys2Proof.Machine.execPmov o s
  | .pany o => Sys2Proof.Machine.execPany o s
  | .pall o => Sys2Proof.Machine.execPall o s
  | .pcnt o => Sys2Proof.Machine.execPcnt o s
  | .idx o => Sys2Proof.Machine.execIdx o s
  | .box o => Sys2Proof.Machine.execBox o s
  | .form o => Sys2Proof.Machine.execForm o s
  | .expand o => Sys2Proof.Machine.execExpand o s
  | .split o => Sys2Proof.Machine.execSplit o s
  | .peel o => Sys2Proof.Machine.execPeel o s
  | .fnew o => Sys2Proof.Machine.execFnew o s
  | .sjoin o => Sys2Proof.Machine.execSjoin o s
  | .sleave o => Sys2Proof.Machine.execSleave o s
  | .sbar o => Sys2Proof.Machine.execSbar o s
  | .red o => Sys2Proof.Machine.execRed o s
  | .rdsum o => Sys2Proof.Machine.execRdsum o s
  | .shfl o => Sys2Proof.Machine.execShfl o s
  | .bra o => Sys2Proof.Machine.execBra o s
  | .brc o => Sys2Proof.Machine.execBrc o s
  | .call o => Sys2Proof.Machine.execCall o s
  | .calli o => Sys2Proof.Machine.execCalli o s
  | .ret o => Sys2Proof.Machine.execRet o s
  | .jmpi o => Sys2Proof.Machine.execJmpi o s
  | .exit_ o => Sys2Proof.Machine.execExit o s
  | .trap_ o => Sys2Proof.Machine.execTrap o s
  | .brk o => Sys2Proof.Machine.execBrk o s
  | .yield o => Sys2Proof.Machine.execYield o s
  | .ld o => Sys2Proof.Machine.execLd o s
  | .st o => Sys2Proof.Machine.execSt o s
  | .lds o => Sys2Proof.Machine.execLds o s
  | .sts o => Sys2Proof.Machine.execSts o s
  | .ldc o => Sys2Proof.Machine.execLdc o s
  | .pref o => Sys2Proof.Machine.execPref o s
  | .atom o => Sys2Proof.Machine.execAtom o s
  | .atoms o => Sys2Proof.Machine.execAtoms o s
  | .phase o => Sys2Proof.Machine.execPhase o s
  | .fence o => Sys2Proof.Machine.execFence o s
  | .pfence o => Sys2Proof.Machine.execPfence o s
  | .promote o => Sys2Proof.Machine.execPromote o s
  | .promotionRequest owner from_ => Sys2Proof.Machine.execPromotionRequest owner from_ s
  | .waita o => Sys2Proof.Machine.execWaita o s
  | .waitaSatisfied core entry => Sys2Proof.Machine.execWaitaSatisfied core entry s
  | .loadDataArrival core entry => Sys2Proof.Machine.execLoadDataArrival core entry s
  | .copy o => Sys2Proof.Machine.execCopy o s
  | .copyx o => Sys2Proof.Machine.execCopyx o s
  | .copyc o => Sys2Proof.Machine.execCopyc o s
  | .copyt o => Sys2Proof.Machine.execCopyt o s
  | .copyRun core => Sys2Proof.Machine.execCopyRun core s
  | .tokenWaitEnd core entry => Sys2Proof.Machine.execTokenWaitEnd core entry s
  | .fork o => Sys2Proof.Machine.execFork o s
  | .streamStart core => Sys2Proof.Machine.execStreamStart core s
  | .rdzv o => Sys2Proof.Machine.execRdzv o s
  | .launch o => Sys2Proof.Machine.execLaunch o s
  | .waitc o => Sys2Proof.Machine.execWaitc o s
  | .swapDelayExpiry core entry => Sys2Proof.Machine.execSwapDelayExpiry core entry s
  | .waitcResume core entry => Sys2Proof.Machine.execWaitcResume core entry s
  | .cancel o => Sys2Proof.Machine.execCancel o s
  | .cancelBroadcast pos ctx job gen => Sys2Proof.Machine.execCancelBroadcast pos ctx job gen s
  | .tcfg o => Sys2Proof.Machine.execTcfg o s
  | .tload o => Sys2Proof.Machine.execTload o s
  | .tstore o => Sys2Proof.Machine.execTstore o s
  | .tfill o => Sys2Proof.Machine.execTfill o s
  | .tdrain o => Sys2Proof.Machine.execTdrain o s
  | .tzero o => Sys2Proof.Machine.execTzero o s
  | .ttrn o => Sys2Proof.Machine.execTtrn o s
  | .tscale o => Sys2Proof.Machine.execTscale o s
  | .tadd o => Sys2Proof.Machine.execTadd o s
  | .mma o => Sys2Proof.Machine.execMma o s
  | .tlatch o => Sys2Proof.Machine.execTlatch o s
  | .tscl o => Sys2Proof.Machine.execTscl o s
  | .mstat o => Sys2Proof.Machine.execMstat o s
  | .operandsConsumed core ctx tile => Sys2Proof.Machine.execOperandsConsumed core ctx tile s
  | .rewriteWindow core => Sys2Proof.Machine.execRewriteWindow core s
  | .csrr o => Sys2Proof.Machine.execCsrr o s
  | .csrw o => Sys2Proof.Machine.execCsrw o s
  | .csrs o => Sys2Proof.Machine.execCsrs o s
  | .csrc o => Sys2Proof.Machine.execCsrc o s
  | .csrWrite cluster ctx csr value => Sys2Proof.Machine.execCsrWrite cluster ctx csr value s
  | .fsel o => Sys2Proof.Machine.execFsel o s
  | .fget o => Sys2Proof.Machine.execFget o s
  | .fset o => Sys2Proof.Machine.execFset o s
  | .fresume o => Sys2Proof.Machine.execFresume o s
  | .replay o => Sys2Proof.Machine.execReplay o s
  | .tlbi o => Sys2Proof.Machine.execTlbi o s
  | .eret o => Sys2Proof.Machine.execEret o s
  | .sleep o => Sys2Proof.Machine.execSleep o s
  | .sleepWake cluster => Sys2Proof.Machine.execSleepWake cluster s
  | .rwload o => Sys2Proof.Machine.execRwload o s
  | .clauseHeader hdr => Sys2Proof.Machine.execClauseHeader hdr s
  | .knitHoldExpiry core entry => Sys2Proof.Machine.execKnitHoldExpiry core entry s
  | .resourceRetry core => Sys2Proof.Machine.execResourceRetry core s
  | .resourceSwapOut core => Sys2Proof.Machine.execResourceSwapOut core s
  | .watchdog core entry => Sys2Proof.Machine.execWatchdog core entry s
  | .heldTrapPush cluster => Sys2Proof.Machine.execHeldTrapPush cluster s
  | .pageWalkComplete ctx va => Sys2Proof.Machine.execPageWalkComplete ctx va s
  | .replayComplete core rec => Sys2Proof.Machine.execReplayComplete core rec s
  | .mcHandlerEntry cluster => Sys2Proof.Machine.execMcHandlerEntry cluster s
  | .trapCause cluster value => Sys2Proof.Machine.execTrapCause cluster value s
  | .trapWindowStore cluster value => Sys2Proof.Machine.execTrapWindowStore cluster value s
  | .mcEpc cluster value => Sys2Proof.Machine.execMcEpc cluster value s
  | .mcPtroot cluster value => Sys2Proof.Machine.execMcPtroot cluster value s
  | .dispatchAdmit die => Sys2Proof.Machine.execDispatchAdmit die s
  | .dispatchPlace die => Sys2Proof.Machine.execDispatchPlace die s
  | .tileStart core => Sys2Proof.Machine.execTileStart core s
  | .launchFinish launch => Sys2Proof.Machine.execLaunchFinish launch s
  | .ctxDoorbell ctx value => Sys2Proof.Machine.execCtxDoorbell ctx value s
  | .stealRequest core => Sys2Proof.Machine.execStealRequest core s
  | .stealRetryTimer core => Sys2Proof.Machine.execStealRetryTimer core s
  | .stealVictim victim thief => Sys2Proof.Machine.execStealVictim victim thief s
  | .lentRecord thief victim task => Sys2Proof.Machine.execLentRecord thief victim task s
  | .stealAck victim task => Sys2Proof.Machine.execStealAck victim task s
  | .stealNone thief => Sys2Proof.Machine.execStealNone thief s
  | .traverseToken ctx job => Sys2Proof.Machine.execTraverseToken ctx job s
  | .heldCompletionEntry ctx => Sys2Proof.Machine.execHeldCompletionEntry ctx s
  | .drainNotice core => Sys2Proof.Machine.execDrainNotice core s
  | .contextSwitch core ctx => Sys2Proof.Machine.execContextSwitch core ctx s
  | .contextRestore core ctx => Sys2Proof.Machine.execContextRestore core ctx s
  | .mbDb cmd req value => Sys2Proof.Machine.execMbDb cmd req value s
  | .ctxCreate req => Sys2Proof.Machine.execCtxCreate req s
  | .ctxReset req => Sys2Proof.Machine.execCtxReset req s
  | .ctxDestroy req => Sys2Proof.Machine.execCtxDestroy req s
  | .objLoad req => Sys2Proof.Machine.execObjLoad req s
  | .measRead req => Sys2Proof.Machine.execMeasRead req s
  | .mbClpm req => Sys2Proof.Machine.execMbClpm req s
  | .haltInfo req => Sys2Proof.Machine.execHaltInfo req s
  | .mbUnknownCmd cmd => Sys2Proof.Machine.execMbUnknownCmd cmd s
  | .getVersion => Sys2Proof.Machine.execGetVersion s
  | .getCapabilities => Sys2Proof.Machine.execGetCapabilities s
  | .negotiateAlgorithms => Sys2Proof.Machine.execNegotiateAlgorithms s
  | .getDigests => Sys2Proof.Machine.execGetDigests s
  | .getCertificate slot => Sys2Proof.Machine.execGetCertificate slot s
  | .getMeasurements index => Sys2Proof.Machine.execGetMeasurements index s
  | .moduleReset => Sys2Proof.Machine.execModuleReset s
  | .clpmGo cluster tgt => Sys2Proof.Machine.execClpmGo cluster tgt s
  | .clpmStepDone cluster => Sys2Proof.Machine.execClpmStepDone cluster s
  | .flush cluster => Sys2Proof.Machine.execFlush cluster s
  | .flushDone cluster => Sys2Proof.Machine.execFlushDone cluster s
  | .estop cluster on => Sys2Proof.Machine.execEstop cluster on s
  | .dstop cluster on => Sys2Proof.Machine.execDstop cluster on s
  | .save cluster => Sys2Proof.Machine.execSave cluster s
  | .saveDone cluster => Sys2Proof.Machine.execSaveDone cluster s
  | .restore cluster => Sys2Proof.Machine.execRestore cluster s
  | .restoreDone cluster => Sys2Proof.Machine.execRestoreDone cluster s
  | .clpmWake cluster => Sys2Proof.Machine.execClpmWake cluster s
  | .clpmWakeMirror cluster => Sys2Proof.Machine.execClpmWakeMirror cluster s
  | .alwaysOnAnswer cluster msg => Sys2Proof.Machine.execAlwaysOnAnswer cluster msg s
  | .hostCxlMemAccess acc => Sys2Proof.Machine.execHostCxlMemAccess acc s
  | .peerWrite addr data => Sys2Proof.Machine.execPeerWrite addr data s
  | .peerLinkTrained port wsize => Sys2Proof.Machine.execPeerLinkTrained port wsize s
  | .farLinkDown port => Sys2Proof.Machine.execFarLinkDown port s
  | .farCompletionTimeout core entry => Sys2Proof.Machine.execFarCompletionTimeout core entry s
  | .farRetrainDone port => Sys2Proof.Machine.execFarRetrainDone port s
  | .linkCrcFail pch failures => Sys2Proof.Machine.execLinkCrcFail pch failures s
  | .hbmRetrainDone pch ok burstOk => Sys2Proof.Machine.execHbmRetrainDone pch ok burstOk s
  | .scrubRead => Sys2Proof.Machine.execScrubRead s
  | .remapTableError pch => Sys2Proof.Machine.execRemapTableError pch s
  | .tableReloadDone pch => Sys2Proof.Machine.execTableReloadDone pch s
  | .scrubCtl value => Sys2Proof.Machine.execScrubCtl value s
  | .clr pch => Sys2Proof.Machine.execClr pch s
  | .tileInstructionCompletion core ctx => Sys2Proof.Machine.execTileInstructionCompletion core ctx s
  | .cancelAcknowledgement core pos ctx job gen => Sys2Proof.Machine.execCancelAcknowledgement core pos ctx job gen s
  | .promotionReply core entry => Sys2Proof.Machine.execPromotionReply core entry s
  | .unstartedRecordReturn die from_ tasks => Sys2Proof.Machine.execUnstartedRecordReturn die from_ tasks s
  | .peerWriteUndeliverable core => Sys2Proof.Machine.execPeerWriteUndeliverable core s

end Sys2Proof.Machine
end

