-- ==== Sys2Proof/Machine/Fetch.lean ====
section
/-!
DEFINITION. Fetching a clause (03 R92, 17 R359), the checks of a word (05 R137), and which agent acts next (22 R398).
-/

namespace Sys2Proof.Machine

open Sys2Proof

/-- What a step does next: run an instruction or event in a state, or nothing more. -/
inductive Action where
  | run (i : Instr) (s : State)
  | done (s : State)

/-- 17 R359, 07 R402: a fetch fails at an index fault. A fibre's page fault is replayed; any other parks it at the header. -/
def State.fetchFault (s : State) (t : Thread) (f : IdxFault) : State :=
  match s.turn with
  | .fibre c e => s.fibreFaults c e t.pc (t.places.map fun p => { f with place := p }) (t.fbTemplate e 4 0 t.pc 0)
  | _ => s.agentFault f

/-- Bytes of a fetch, read by every index of the thread at once; or the state after its fault. -/
def State.fetchPart (s : State) (t : Thread) (va n : Nat) : Except State (State × Got) :=
  let sp := s.curSpace t
  let s0 := s.walkRange sp va n .x
  match s0.readSpace (s0.viewAll t) .F sp va n .x with
  | .error (a, .fault cause reason level) => .error (s0.fetchFault t ⟨t.low, cause, BitVec.ofNat 64 a, reason, level, none⟩)
  | .error (_, .ok _ _ _) => .error s0
  | .ok (ps, g0) =>
    let s1 := s0.demandPieces ps g0
    let poison (far : Option (Nat × Bool)) : State := s1.fetchFault t ⟨t.low, cMemPoison, BitVec.ofNat 64 va, 0, 0, far⟩
    match ps.find? fun p => s1.farLost p.pa with
    | some p => .error (poison (some (farPort p.pa, p.rpl)))
    | none =>
      match s1.readSpace (s1.viewAll t) .F sp va n .x with
      | .error _ => .error s1
      | .ok (_, g) => if g.bad then .error (poison none) else .ok (s1, g)

/-- The number of instruction words that a header announces. -/
def hdrWords (hdr : Word) : Nat := (hdr.extractLsb' 56 4).toNat + 1
def Got.word (g : Got) : Word := BitVec.ofNat 64 (leNat g.bytes)

/-- The pseudo-channels that a fetch reaches. -/
def State.fetchPchs (s : State) (t : Thread) : List Nat :=
  let sp := s.curSpace t
  let va := t.pc.toNat
  s.vaPchs sp va 8 .x ++ match s.fetchPart t va 8 with
    | .ok (_, g) => s.vaPchs sp (va + 8) (8 * hdrWords g.word) .x
    | .error _ => []

/-- 12 R283: a window lies in one clause: what was decided ends with it. -/
def State.clearPlan (s : State) : State :=
  match s.turn with
  | .stream c => (match (s.core c).stream with
    | some x => s.setCore c { s.core c with stream := some { x with plan := [], snap := none, plainTo := none } }
    | none => s)
  | _ => s

/-- 03 R92: fetch the clause at the thread's PC, no pseudo-channel holding it: one relaxed load on the F path of the header and its
words. -/
def State.fetchNow (s : State) (t : Thread) : Action :=
  let va := t.pc.toNat
  match s.fetchPart t va 8 with
  | .error u => .done u
  | .ok (s1, g) =>
    let n := hdrWords g.word
    match s1.fetchPart t (va + 8) (8 * n) with
    | .error u => .done u
    | .ok (s2, g2) =>
      let t' := { (s2.cur?).getD t with
        clause := some ⟨t.pc, g.word, wordsOf n g2.bytes, 0, false⟩
        view := (t.view.afterLoad g s2.curAgent none none).afterLoad g2 s2.curAgent none none }
      .run (.clauseHeader g.word) (s2.setCur t').clearPlan

/-- 03 R92, 21 R392: the fetch, held while a pseudo-channel holds it. -/
def State.fetch (s : State) (t : Thread) : Action :=
  if s.addrBad t.pc.toNat then .done (s.fetchFault t ⟨t.low, cAccess, t.pc, 0, 0, none⟩)
  else if t.pc.toNat % 8 ≠ 0 then .done (s.trapAll cMisaligned)
  else if s.flowing then s.fetchNow t
  else
    let ks := s.fetchPchs t
    if s.mustWait s.curFrom t.uid ks then .done (s.served s.curFrom t.uid ks id)
    else (s.served s.curFrom t.uid ks id).fetchNow t

/-- 12 R286, R300: a tile instruction of a stream goes through the rewrite stage, but for the originals that run as written after
a unit's trap and for those that the open window leaves as they are. -/
def Stream.plain (x : Stream) : Bool :=
  (match x.plainTo with
    | some a => x.th.pc ≤ a
    | none => false) || x.planned = some .pass

/-- The registers that a record's access will write. -/
def FbRec.dest (b : FbRec) : List Grp :=
  match decode b.instr with
  | .ok i => match destOf i with
    | some (d, w, four) => d.grp (if four then 4 else if w = .w64 then 2 else 1)
    | none => []
  | .error _ => []

/-- The word reads a latch whose producer is the record's instruction. -/
def FbRec.feeds (b : FbRec) (c : Clause) (i : Instr) : Bool :=
  let p := (b.pc - c.addr).toNat / 8 - 1
  b.cl.any (fun k => k.addr = c.addr) && p < c.pos && c.pos ≤ p + 8 && i.srcs.any fun x => match x with
    | .latch j => p % 8 = j.toNat
    | _ => false

/-- 05 R134: a fibre that goes on with accesses still waiting for replay (07 R206) waits at a word that names a register or reads a
latch that one of them will write, and, so that none is lost, at WAITC and EXIT (log 99). -/
def Core.wordWaits (x : Core) (t : Thread) (c : Clause) (i : Instr) : Bool :=
  let bs := x.pendingOf t.uid
  match i with
  | .exit_ _ | .waitc _ => !bs.isEmpty
  | i => bs.any fun b => b.feeds c i || b.dest.any fun a => i.groups.any fun g => a.1 < g.1 + g.2 && g.1 < a.1 + a.2

/-- The checks of the word at the thread's place, then the instruction (05 R137), once no access of the fibre holds it. -/
def State.wordAction (s : State) (t : Thread) (c : Clause) : Action :=
  match checkWord (t.kind = .mc) (hdrClass c.hdr) t.window c.words c.pos (c.words.getD c.pos 0) with
  | .error cause => .done (s.trapAll cause)
  | .ok i =>
    match s.turn with
    | .stream k => (match (s.core k).stream with
      | some x => .run (if isTileInstr i && !x.plain then .rewriteWindow k else i) s
      | none => .run i s)
    | .fibre k _ => if (s.core k).wordWaits t c i then .done s else .run i s
    | _ => .run i s

/-- What the agent whose turn it is does: at a clause boundary it takes what is due there, then fetches and begins a clause;
inside a clause it executes the next word. -/
def State.agentAction (s : State) (t : Thread) : Action :=
  match t.clause with
  | none => s.fetch t
  | some c => if c.begun then s.wordAction t c else .run (.clauseHeader c.hdr) s

/-- 02 R54, 07 R203: the thread can act. -/
def Mc.active (m : Mc) : Bool := m.on && !m.halted && m.asleep.isNone && m.th.runs

/-- The action of the current turn. -/
def State.nextAction (s : State) : Action :=
  match s.turn with
  | .fibre c e =>
    match s.fibre? c e with
    | none => .done s
    | some t =>
      if !t.runs then .done s
      else
        let s := s.setCore c { s.core c with inClause := some e }
        -- 16 R347: at a clause boundary of a cancelled job
        if t.clause.isNone && s.isCancelled c t then .done (s.killFibre c e)
        else if t.clause.isNone && s.overBudget t then .run (.watchdog c e) s
        else s.agentAction t
  | .stream c =>
    match (s.core c).stream with
    | none => .done s
    | some x =>
      if !x.th.runs then .done s
      -- 09 R243: a cancelled stream ends at its clause boundary
      else if x.th.clause.isNone && s.isCancelled c x.th then .done (s.streamEnd c)
      else if x.th.clause.isNone && s.overBudget x.th then .run (.watchdog c 4096) s
      else s.agentAction x.th
  | .mc k =>
    if !(s.mc k).active then .done s
    else if s.handlerDue k then .run (.mcHandlerEntry k) s
    else s.agentAction (s.mc k).th
  | .event n =>
    match s.agenda[n]? with
    | some i => .run i { s with agenda := s.agenda.eraseIdx n }
    | none => .done s
  | .input =>
    match s.inputs with
    | i :: rest => .run i { s with inputs := rest }
    | [] => .done s
  | .idle => .done s

/-! ### Who may act next -/

/-- 17 R365: a fibre at a boundary whose context is being switched out does not issue. -/
def Core.mayIssue (x : Core) (t : Thread) : Bool := t.runs && (t.clause.isSome || !x.stopped.contains t.ctx)

/-- 05 R116, 02 R48, 07 R195: the fibres of a core that may issue: the one inside its clause, else the next of those that
complete a clause without a switch, else every READY fibre that did not yield, else every READY fibre. -/
def Core.issuers (x : Core) : List Nat :=
  let mid (e : Nat) : Bool := match Tab.find? x.fibres e with
    | some t => t.st = .ready && t.clause.isSome
    | none => false
  let ready := (x.fibres.filter fun kv => x.mayIssue kv.2).map Prod.fst
  match x.inClause with
  | some e => if mid e then [e].filter (ready.contains ·) else rest mid ready
  | none => rest mid ready
where
  rest (mid : Nat → Bool) (ready : List Nat) : List Nat :=
    match x.follow.find? mid with
    | some e => [e]
    | none =>
      let fresh := ready.filter fun e => match Tab.find? x.fibres e with
        | some t => !t.behind.any (ready.contains ·)
        | none => false
      if fresh.isEmpty then ready else fresh

/-- 19 R380, 17 R364: under ESTOP, and while its context is being switched out, a stream stops at its next point. In a switch it goes
past the boundary of a split MMA while a fibre of its context, in the middle of a clause, may wait for the tile. -/
def State.streamRuns (s : State) (c : Nat) (x : Stream) : Bool :=
  x.th.runs && (!s.streamHolds c x || (x.th.clause.isNone && s.isCancelled c x.th)
    || (s.enginesRun c && x.mma.isSome && (s.core c).threads.any fun t => t.ctx = x.th.ctx && t.midClause))

/-- The turns that may come next. -/
def State.turns (s : State) : List Turn :=
  (s.cores.flatMap fun kv =>
    (kv.2.issuers.map fun e => Turn.fibre kv.1 e)
      ++ (match kv.2.stream with
        | some x => if s.streamRuns kv.1 x then [Turn.stream kv.1] else []
        | none => []))
  ++ (s.clusters.filterMap fun kv => if kv.2.mc.active then some (Turn.mc kv.1) else none)
  ++ ((List.range s.agenda.length).map Turn.event)
  ++ (if s.inputs.isEmpty then [] else [Turn.input])

/-- The next turn: the only candidate, or one that the specification does not order (22 R398; log 2). -/
def State.pickTurn (s : State) : Turn :=
  match s.turns with
  | [] => .idle
  | [t] => t
  | t :: ts => ((t :: ts)[Config.schedule s.tick % (ts.length + 1)]?).getD t

/-- What the units do of their own accord once their condition holds: cores start tiles, swap out and run their engines (16 R337,
02 R54, R68, 08 R229), idle cores ask for work (16 R340), dispatchers place records (16 R337), and a sleeping management core wakes
(07 R203). -/
def State.due (s : State) : List Instr :=
  (s.cores.flatMap fun (kv : Nat × Core) =>
    (if (s.swapChoice kv.1).isSome then [.resourceSwapOut kv.1] else [])
      ++ (if s.startable kv.1 then [.tileStart kv.1] else [])
      ++ (if !(s.runnable kv.1).isEmpty then [.copyRun kv.1] else [])
      ++ (if s.enginesRun kv.1 && kv.2.stream.isNone && kv.2.forkq.head?.any (fun f => !kv.2.stopped.contains f.ctx) then [.streamStart kv.1] else []))
  ++ s.thieves.map Instr.stealRequest
  ++ (s.dies.flatMap fun (kv : Nat × Die) =>
    if !kv.2.toPlace.isEmpty && (s.nextCore kv.1).isSome then [.dispatchPlace kv.1] else [])
  ++ (s.clusters.flatMap fun (kv : Nat × Cluster) =>
    match kv.2.mc.asleep with
    | some (mask, _) => if s.awake kv.1 mask = 0#3 then [] else [.sleepWake kv.1]
    | none => [])

/-- The events that are due join the agenda. -/
def State.postDue (s : State) : State := { s with agenda := s.agenda ++ s.due.filter (!s.agenda.contains ·) }

/-- What holds of itself after an action: knit holds without a partner end (02 R56), what waits in a cancelled job has ended (16 R347),
the field books follow what has become of the fibres (17 R357), spilled return addresses lie in their slots (07 R190), and held accesses
that nobody waits for are forgotten. -/
def State.tidy (s : State) : State := s.endHolds.cancelSweep.settleBooks.spill.pruneQueue

/-- What every step does last: the counters of free values and time advance, and the next turn is chosen. -/
def State.settle (s : State) : State :=
  let s1 := s.tidy.postDue
  { s1 with turn := s1.pickTurn, tick := s.tick + 1, draw := s.draw + 1, slow := Config.isSlow s.tick }

/-- 07 R195: a fibre that issues has had its chance: those that yielded no longer wait for it. -/
def State.issued (s : State) : State :=
  match s.turn with
  | .fibre c e =>
    if (s.core c).threads.any fun t => t.behind.contains e then
      s.setCore c { s.core c with fibres := (s.core c).fibres.map fun kv =>
        (kv.1, { kv.2 with behind := kv.2.behind.filter (· ≠ e) }) }
    else s
  | _ => s

/-! ### Placing a word where the next step executes it -/

/-- The header of a clause of one word of a class. -/
def hdrOf (cls : Nat) : Word := BitVec.ofNat 64 (cls * 2 ^ 60)

/-- The clause of one word at address 0. -/
def oneWord (cls : Nat) (w : Word) : Clause := ⟨0, hdrOf cls, [w], 0, true⟩

/-- A fibre of the box of one index that stands at the one word of its clause. -/
def wordFibre (w : Word) : Thread :=
  { Thread.blank .fibre with uid := 1, tokId := 1, pc := 8, clause := some (oneWord 0 w) }

/-- A stream, and a management core, at the one word of their clause. -/
def wordStream (w : Word) : Stream :=
  { th := { Thread.blank .stream with uid := 1, pc := 8, clause := some (oneWord 1 w) }
    inst := 0, handle := 0, tile := 0, plan := [(8, .pass)], snap := none, plainTo := none, fault := none, mma := none }

def wordMc (m : Mc) (w : Word) : Mc :=
  { m with on := true, th := { m.th with pc := 8, clause := some (oneWord 2 w) } }

/-- Store the word, with a header of its class before it, in memory at address 0, and let the agent that may execute it stand
at it: a management core for the privileged opcodes, a matrix stream for the opcodes of class 1 alone, a fibre for every
other (05 R136). The boot that State.reset has pending is over. -/
def State.placeWord (s : State) (w : Word) : State :=
  let opc := (w.extractLsb' 54 10).toNat
  let put (s : State) (cls : Nat) : State :=
    let cells := Bytes.write (Bytes.write s.mem.cells 0 (leBytes 8 (hdrOf cls).toNat)) 8 (leBytes 8 w.toNat)
    { s with mem := { s.mem with cells := cells }, agenda := s.agenda.filter (· ≠ .moduleReset) }
  match opcodeClasses opc with
  | some (false, false, true) => { (put s 2).setMc 0 (wordMc (s.mc 0) w) with turn := .mc 0 }
  | some (false, true, _) =>
    { (put s 1).setCore 0 { s.core 0 with stream := some (wordStream w) } with turn := .stream 0 }
  | _ => { (put s 0).setCore 0 { s.core 0 with fibres := Tab.set (s.core 0).fibres 0 (wordFibre w), inClause := some 0 } with
      turn := .fibre 0 0 }

end Sys2Proof.Machine
end

