-- ==== Sys2Proof/Machine/Step.lean ====
section
/-!
DEFINITION. One step of the machine.
-/

namespace Sys2Proof.Machine

open Sys2Proof

/-- One step: checks that have failed poison (21 R389), the agent or event whose turn it is acts once, and the next turn is chosen. -/
def step (s : State) : Host.Outcome State Fault Refusal :=
  match s.applyUpsets.issued.nextAction with
  | .done t => .next t.settle
  | .run i t =>
    match exec i t with
    | .next u => .next u.settle
    | .fault f => .fault f
    | .refused r => .refused r

/-- The state with an instruction word where the next step executes it (log 10). -/
def State.withFetchWord (s : State) (nbits w : Nat) : State :=
  s.placeWord (BitVec.ofNat 64 (w % 2 ^ (min nbits 64)))

end Sys2Proof.Machine
end

