-- ==== Sys2Proof/Safety.lean ====
section
/-!
DEFINITION. What claims about runs are stated in: runs of several steps, canonical memory, and what an agent needs to go on.
-/

namespace Sys2Proof.Machine

open Sys2Proof

/-- The machine after `n` steps, or where it stopped. -/
def runFor : Nat → State → Out
  | 0, s => .next s
  | n + 1, s =>
    match step s with
    | .next t => runFor n t
    | r => r

/-- A run is safe if it never stops: no access where nothing decodes (19 R379), no instruction without a meaning. -/
def State.Safe (s : State) : Prop := ∀ n, ∃ t, runFor n s = .next t

/-- Memory lists its bytes in canonical form: addresses rising, no listed byte zero (log 3). -/
def State.Canonical (s : State) : Prop := s.mem.wf = true

/-- The core of the current fibre has what its state holds (02 R54, 07 R191); another agent needs nothing. -/
def State.roomy (s : State) : Bool :=
  match s.turn with
  | .fibre c _ => (s.core c).fits (0, 0, 0, 0) && s.slotsFit c
  | _ => true

/-- Operands whose values nothing has marked (08 R226). -/
def Opd.clean (o : Opd) : Bool := !o.pAll && o.pL.isEmpty

end Sys2Proof.Machine
end

