-- ==== Sys2Proof/Certificates/Slice0/Terms.lean ====
section
/-!
DEFINITION. The terms that the statements use: what an instruction computes, as the chapters state it, and what a write leaves.
-/

namespace Sys2Proof.Spec

open Sys2Proof Sys2Proof.Machine

/-! ### Completion -/

/-- `exec` of `i` at `s` answers a next state, of which `post` holds. -/
def Completes (i : Instr) (s : State) (post : State → Prop) : Prop := ∃ u, Machine.exec i s = .next u ∧ post u

/-- The agent of the turn is `t`, and the guard is T for it. -/
def Acts (s : State) (t : Thread) (g : Guard) : Prop := s.cur? = some t ∧ t.guard g = .t

/-- The moment from which an agent that stops in a wait state counts as waiting: one that waited already goes on with its wait (02 R54). -/
def waitFrom (s : State) (t : Thread) : Nat := if t.st = .wait then t.since else s.tick

/-- No memory access of a fibre is outstanding, and none of its faulted ones waits for replay (08 R225). -/
def NothingPending (x : Core) (uid : Nat) : Prop := (∀ o ∈ x.loads, o.uid ≠ uid) ∧ x.pendingOf uid = []

/-! ### What the arithmetic instructions compute -/

/-- An instruction whose one effect is a result: its guard, destination and width, the sources it reads with their widths (true
for 64 bits), and its value as a function of theirs. -/
structure Shape where
  g   : Guard
  d   : Dst
  w   : RW
  ins : List (Src × Bool)
  val : List Word → Word

/-- The k-th operand. -/
abbrev op (l : List Word) (k : Nat) : Word := l.getD k 0

/-- Two sources of the type, read as integers of the type; the low bits of an exact integer (06 R140, R142). -/
def rrInt (o : RR) (f : Int → Int → Int) : Shape :=
  let w := o.ty.is64
  ⟨o.g, o.d, RW.ofTy o.ty, [(o.a, w), (o.b, w)], fun l =>
    wordOf w (f (typedOf w o.ty.signed (op l 0)) (typedOf w o.ty.signed (op l 1)))⟩

/-- The immediate of format I as an integer of its type (06 R142). -/
def immInt (s : Bool) (imm : BitVec 32) : Int := if s then imm.toInt else imm.toNat

def riInt (o : RI) (f : Int → Int → Int) : Shape :=
  ⟨o.g, o.d, if o.w then .w64 else .w32 o.s, [(o.a, o.w)], fun l =>
    wordOf o.w (f (typedOf o.w o.s (op l 0)) (immInt o.s o.imm))⟩

/-- Bitwise operations, bit by bit on the operands' words. -/
def rrBits (o : RR) (f : Word → Word → Word) : Shape :=
  ⟨o.g, o.d, RW.ofTy o.ty, [(o.a, o.ty.is64), (o.b, o.ty.is64)], fun l => f (op l 0) (op l 1)⟩
def riBits (o : RI) (f : Word → Word → Word) : Shape :=
  ⟨o.g, o.d, if o.w then .w64 else .w32 o.s, [(o.a, o.w)], fun l => f (op l 0) (wordOf o.w (immInt o.s o.imm))⟩

/-- 06 R148: shifts by a 32-bit count read as unsigned. At or above the width SHL gives 0, and SHR and SAR the vacated bits. -/
def shiftL (w : Bool) (a : Int) (n : Nat) : Int := if n < bitsOf w then a * 2 ^ n else 0
def shiftR (w : Bool) (a : Int) (n : Nat) : Int := if n < bitsOf w then a / 2 ^ n else if a < 0 then -1 else 0

def rrShift (o : RR) (sg : Bool) (f : Bool → Int → Nat → Int) : Shape :=
  let w := o.ty.is64
  ⟨o.g, o.d, RW.ofTy o.ty, [(o.a, w), (o.b, false)], fun l =>
    wordOf w (f w (typedOf w sg (op l 0)) (op l 1).toNat)⟩
def riShift (o : RI) (sg : Bool) (f : Bool → Int → Nat → Int) : Shape :=
  ⟨o.g, o.d, if o.w then .w64 else .w32 o.s, [(o.a, o.w)], fun l =>
    wordOf o.w (f o.w (typedOf o.w sg (op l 0)) o.imm.toNat)⟩

def r1Int (o : R1) (f : Int → Int) : Shape :=
  let w := o.ty.is64
  ⟨o.g, o.d, RW.ofTy o.ty, [(o.a, w)], fun l => wordOf w (f (signedOf w (op l 0)))⟩

/-- 06 R144-R154: the integer and address instructions with a result, but for SEL. -/
def intShape : Instr → Option Shape
  | .iadd o => some (rrInt o fun a b => a + b)
  | .iaddImm o => some (riInt o fun a b => a + b)
  | .isub o => some (rrInt o fun a b => a - b)
  | .isubImm o => some (riInt o fun a b => a - b)
  | .imul o => some (rrInt o fun a b => a * b)
  | .imulImm o => some (riInt o fun a b => a * b)
  | .imulh o => some (rrInt o fun a b => a * b / 2 ^ bitsOf o.ty.is64)
  | .imulhImm o => some (riInt o fun a b => a * b / 2 ^ bitsOf o.w)
  | .imulw o => some ⟨o.g, o.d, .w64, [(o.a, false), (o.b, false)], fun l =>
      BitVec.ofInt 64 (typedOf false o.ty.signed (op l 0) * typedOf false o.ty.signed (op l 1))⟩
  | .imulwImm o => some ⟨o.g, o.d, .w64, [(o.a, false)], fun l =>
      BitVec.ofInt 64 (typedOf false o.s (op l 0) * immInt o.s o.imm)⟩
  | .imad o => some ⟨o.g, o.d, RW.ofTy o.ty, [(o.a, o.ty.is64), (o.b, o.ty.is64), (o.c, o.ty.is64)], fun l =>
      let rd := typedOf o.ty.is64 o.ty.signed
      wordOf o.ty.is64 (rd (op l 0) * rd (op l 1) + rd (op l 2))⟩
  | .ineg o => some (r1Int o fun a => -a)
  | .iabs o => some (r1Int o fun a => a.natAbs)
  | .imin o => some (rrInt o min)
  | .iminImm o => some (riInt o min)
  | .imax o => some (rrInt o max)
  | .imaxImm o => some (riInt o max)
  | .shl o => some (rrShift o o.ty.signed shiftL)
  | .shlImm o => some (riShift o o.s shiftL)
  | .shr o => some (rrShift o o.ty.signed shiftR)
  | .shrImm o => some (riShift o o.s shiftR)
  | .sar o => some (rrShift o true shiftR)
  | .sarImm o => some (riShift o true shiftR)
  | .and_ o => some (rrBits o fun a b => a &&& b)
  | .andImm o => some (riBits o fun a b => a &&& b)
  | .or_ o => some (rrBits o fun a b => a ||| b)
  | .orImm o => some (riBits o fun a b => a ||| b)
  | .xor_ o => some (rrBits o fun a b => a ^^^ b)
  | .xorImm o => some (riBits o fun a b => a ^^^ b)
  | .not_ o => some (r1Int o fun a => -a - 1)
  | .andn o => some (rrBits o fun a b => a &&& ~~~b)
  | .andnImm o => some (riBits o fun a b => a &&& ~~~b)
  | .clz o => some ⟨o.g, o.d, .w32 false, [(o.a, o.ty.is64)], fun l => clzV o.ty.is64 (op l 0)⟩
  | .popc o => some ⟨o.g, o.d, .w32 false, [(o.a, o.ty.is64)], fun l => popcV o.ty.is64 (op l 0)⟩
  | .brev o => some ⟨o.g, o.d, RW.ofTy o.ty, [(o.a, o.ty.is64)], fun l => brevV o.ty.is64 (op l 0)⟩
  | .bfx o => some ⟨o.g, o.d, RW.ofTy o.ty, [(o.a, o.ty.is64), (o.b, false)], fun l =>
      bfxV o.ty.is64 o.ty.signed (op l 0) (op l 1)⟩
  | .bfi o => some ⟨o.g, o.d, RW.ofTy o.ty, [(o.a, o.ty.is64), (o.b, o.ty.is64), (o.c, false)], fun l =>
      bfiV o.ty.is64 (op l 0) (op l 1) (op l 2)⟩
  | .mov o => some ⟨o.g, o.d, RW.ofTy o.ty, [(o.a, o.ty.is64)], fun l => op l 0⟩
  | .movi o => some ⟨o.g, o.d, if o.w then .w64 else .w32 o.s, [], fun _ => wordOf o.w (immInt o.s o.imm)⟩
  | .movh o => some ⟨o.g, o.d, .w64, [(.reg o.d.n, false)], fun l => o.imm ++ (op l 0).setWidth 32⟩
  | .lea o => some ⟨o.g, o.d, .w64, [(o.a, true), (o.b, o.ty.is64)], fun l =>
      BitVec.ofInt 64 ((op l 0).toNat + typedOf o.ty.is64 o.ty.signed (op l 1) * 2 ^ o.sh.toNat)⟩
  | _ => none

/-- One floating-point operation on values of a format (04 R95). -/
def fltIns (ty : FTy) (l : List Src) : List (Src × Bool) := l.map fun x => (x, ty = .f64)
def fltBits (ty : FTy) (l : List Word) (k : Nat) : Nat := (op l k).toNat % 2 ^ (fpOf ty).width
def fltRW (ty : FTy) : RW := if ty = .f64 then .w64 else .w32 false

def frr (o : FRR) (f : Nat → Nat → Nat) : Shape :=
  ⟨o.g, o.d, fltRW o.ty, fltIns o.ty [o.a, o.b], fun l => BitVec.ofNat 64 (f (fltBits o.ty l 0) (fltBits o.ty l 1))⟩
def fr1 (o : FR1) (f : Nat → Nat) : Shape :=
  ⟨o.g, o.d, fltRW o.ty, fltIns o.ty [o.a], fun l => BitVec.ofNat 64 (f (fltBits o.ty l 0))⟩

/-- The exact value of a floating-point operand, and the one rounding of an exact value (04 R96-R99, 06 R156). -/
abbrev num (ty : FTy) (v : Nat) : Machine.Num := (fpOf ty).dec v
abbrev rnd (ty : FTy) (r : Rnd) (x : Machine.Num) : Nat := (fpOf ty).enc r x

/-- Half-word j of a packed operand (04 R95). -/
def half (l : List Word) (k j : Nat) : Nat := (op l k).toNat / 2 ^ (16 * j) % 2 ^ 16
def packed (f : Nat → Nat) : Word := BitVec.ofNat 64 (f 0 + 2 ^ 16 * f 1)

/-- 06 R156-R167. -/
def fltShape : Instr → Option Shape
  | .fadd o => some (frr o fun a b => rnd o.ty o.rnd ((num o.ty a).add (o.rnd = .rdn) (num o.ty b)))
  | .fsub o => some (frr o fun a b => rnd o.ty o.rnd ((num o.ty a).add (o.rnd = .rdn) (num o.ty b).neg))
  | .fmul o => some (frr o fun a b => rnd o.ty o.rnd ((num o.ty a).mul (num o.ty b)))
  | .ffma o => some ⟨o.g, o.d, fltRW o.ty, fltIns o.ty [o.a, o.b, o.c], fun l =>
      let x (k : Nat) := num o.ty (fltBits o.ty l k)
      BitVec.ofNat 64 (rnd o.ty o.rnd (((x 0).mul (x 1)).add (o.rnd = .rdn) (x 2)))⟩
  | .fmin o => some (frr o fun a b => (fpOf o.ty).minMax false a b)
  | .fmax o => some (frr o fun a b => (fpOf o.ty).minMax true a b)
  | .fabs o => some (fr1 o fun a => a % 2 ^ ((fpOf o.ty).width - 1))
  | .fneg o => some (fr1 o fun a => a ^^^ 2 ^ ((fpOf o.ty).width - 1))
  | .fclass o => some ⟨o.g, o.d, .w32 false, fltIns o.ty [o.a], fun l =>
      BitVec.ofNat 64 (fclass (fpOf o.ty) (fltBits o.ty l 0))⟩
  | .frcp o => some (fr1 o (fpOf o.ty).rcp)
  | .frsq o => some (fr1 o (fpOf o.ty).rsq)
  | .fsqrt o => some (fr1 o ((fpOf o.ty).sqrt o.rnd))
  | .fex2 o => some (fr1 o fun a => (fex2 (BitVec.ofNat 32 a)).toNat)
  | .flg2 o => some (fr1 o fun a => (flg2 (BitVec.ofNat 32 a)).toNat)
  | .fsin o => some (fr1 o fun a => (fsin (BitVec.ofNat 32 a)).toNat)
  | .fcos o => some (fr1 o fun a => (fcos (BitVec.ofNat 32 a)).toNat)
  | .frnd o => some (fr1 o ((fpOf o.ty).rnd o.rnd))
  | .fcvt o => some ⟨o.g, o.d, rwOf (Fmt.is64 o.ty), [(o.a, Fmt.is64 o.from_)], fun l =>
      if o.ty = .q4 then
        let x := (fpOfFmt o.from_).dec ((op l 0).toNat % 2 ^ (fpOfFmt o.from_).width)
        let (scale, codes) := q4Encode (if o.qsel = 0#3 then none else some (o.qsel.toNat - 4)) (List.replicate 32 x)
        BitVec.ofNat 64 (256 * scale + codes.getD 0 0)
      else fcvt o.ty o.from_ o.rnd o.ns (op l 0)⟩
  | .ftoi o => some ⟨o.g, o.d, rwOf (Fmt.is64 o.ty), [(o.a, Fmt.is64 o.from_)], fun l =>
      let f := fpOfFmt o.from_
      placeFmt o.ty (ftoi f o.ty o.rnd ((op l 0).toNat % 2 ^ f.width) % (2 ^ o.ty.bits : Nat)).toNat⟩
  | .itof o => some ⟨o.g, o.d, rwOf (Fmt.is64 o.ty), [(o.a, Fmt.is64 o.from_)], fun l =>
      let v := intOfFmt o.from_ (op l 0)
      BitVec.ofNat 64 ((fpOfFmt o.ty).round o.rnd (decide (v < 0)) v.natAbs 0)⟩
  | .hadd2 o => some ⟨o.g, o.d, .w32 false, [(o.a, false), (o.b, false)], fun l => packed fun j =>
      rnd o.ty o.rnd ((num o.ty (half l 0 j)).add (o.rnd = .rdn) (num o.ty (half l 1 j)))⟩
  | .hmul2 o => some ⟨o.g, o.d, .w32 false, [(o.a, false), (o.b, false)], fun l => packed fun j =>
      rnd o.ty o.rnd ((num o.ty (half l 0 j)).mul (num o.ty (half l 1 j)))⟩
  | .hfma2 o => some ⟨o.g, o.d, .w32 false, [(o.a, false), (o.b, false), (o.c, false)], fun l => packed fun j =>
      rnd o.ty o.rnd (((num o.ty (half l 0 j)).mul (num o.ty (half l 1 j))).add (o.rnd = .rdn) (num o.ty (half l 2 j)))⟩
  | .dot4 o => some ⟨o.g, o.d, .w32 o.ta.isInt, [(o.a, false), (o.b, false), (o.c, false)], fun l =>
      dot4V o.ta o.tb o.rnd (op l 0) (op l 1) (op l 2)⟩
  | .dot2h o => some ⟨o.g, o.d, .w32 false, [(o.a, false), (o.b, false), (o.c, false)], fun l =>
      dot2hV o.ty o.rnd (op l 0) (op l 1) (op l 2)⟩
  | _ => none

/-! ### What a result leaves -/

/-- The operands of a shape as the agent reads them. -/
def Shape.opds (sh : Shape) (s : State) (t : Thread) : List Opd := sh.ins.map fun x => t.src s.draw x.1 x.2

/-- Every operand is uniform and carries no poison. -/
def Shape.plain (sh : Shape) (s : State) (t : Thread) : Bool := (sh.opds s t).all fun x => x.isU && x.clean

/-- 05 R127: what an m register holds of a result. -/
def mValue (w : RW) (v : Word) : Word :=
  match w with
  | .w64 => v
  | .w32 true => (v.setWidth 32).signExtend 64
  | .w32 false => (v.setWidth 32).setWidth 64

/-- The registers that a destination names hold the uniform value `v` in `t'` (02 R40, R43, 05 R125, R127). -/
def Holds (t t' : Thread) (d : Dst) (w : RW) (v : Word) : Prop :=
  if d.nwb then t'.regs = t.regs
  else if t.kind = .stream then t'.reg d.n.toNat = .u (mValue w v) false
  else if w.is64 then t'.reg d.n.toNat = .u v false ∧ t'.reg (d.n.toNat + 1) = .p
  else t'.reg d.n.toNat = .u ((v.setWidth 32).setWidth 64) false

/-- Registers that a write to `d` may change: its pair, of which a 32-bit write separates the other half (02 R42). -/
def touches (d : Dst) (n : Nat) : Bool := !d.nwb && (n = d.n.toNat + 1 || n / 2 = d.n.toNat / 2)

/-- The pair of register `n` is laid out as R40 has it: an odd register is the upper half only of a U or an affine base, and a
management core holds no affine registers (07 R170). -/
def pairOk (t : Thread) (n : Nat) : Prop :=
  t.kind ≠ .stream ∧
  match t.reg (n / 2 * 2) with
  | .u _ _ => True
  | .a _ _ _ _ => t.kind = .fibre
  | _ => t.reg (n / 2 * 2 + 1) ≠ .p

/-- Nothing but the destination and the latch of the word's place differs between `t` and `t'`: no other register, latch,
predicate, or other part of the thread; and the other half of a 32-bit destination's pair reads as before. -/
def OnlyResult (t t' : Thread) (d : Dst) (w : RW) : Prop :=
  t' = { t with regs := t'.regs, latches := t'.latches, farMarks := t'.farMarks } ∧
  (∀ k ∈ t'.farMarks, k ∈ t.farMarks) ∧
  (∀ n, touches d n = false → t'.reg n = t.reg n) ∧
  (∀ n, w.is64 = false → n / 2 = d.n.toNat / 2 → n ≠ d.n.toNat → pairOk t n →
    ∀ p ∈ t.places, (t'.read32 n).val p = (t.read32 n).val p) ∧
  (∀ j, (match t.clause with
    | some c => j ≠ c.pos % 8
    | none => True) → Tab.find? t'.latches j = Tab.find? t.latches j)

/-- The latch of the word's place holds the uniform value `v` (05 R133). -/
def Latched (t t' : Thread) (w : RW) (v : Word) : Prop :=
  match t.clause with
  | some c => Tab.find? t'.latches (c.pos % 8) = some ⟨w.is64, .u v, false, []⟩
  | none => t'.latches = t.latches

/-- What a uniform result leaves: the agent at its next word with `v` in the destination and the latch, and nothing else
changed anywhere. -/
def ResultIs (i : Instr) (s : State) (t : Thread) (d : Dst) (w : RW) (v : Word) : Prop :=
  ∃ t1, Machine.exec i s = .next (s.setCur t1.advance) ∧ Holds t t1 d w v ∧ Latched t t1 w v ∧ OnlyResult t t1 d w

/-- The place to which the current fibre's result goes needs no lanes: its register is no half of an affine pair (02 R42). -/
def takesU (t : Thread) (d : Dst) (w : RW) : Bool := !t.needsLanes d w (Opd.ofU 0)

/-! ### Per-index results -/

/-- The fibre (c, e) has the turn, and has lanes at places of its frame. -/
def OnLanes (s : State) (c e : Nat) (t : Thread) : Prop :=
  s.turn = .fibre c e ∧ s.fibre? c e = some t ∧ t.kind = .fibre ∧ t.expanded = true ∧ ∀ p ∈ t.active, p < t.frame.count

/-- The lanes at which a guard is true (05 R124, 02 R43). -/
def GuardedLanes (t : Thread) (g : Guard) (ms : List Nat) : Prop :=
  (t.guard g = .t ∧ ms = t.active) ∨ ∃ l, t.guard g = .m l ∧ ms = t.active.filter (l.contains ·)

/-- The destination's width cut from a word. -/
def cutTo (w : RW) (v : Word) : Word := if w.is64 then v else (v.setWidth 32).setWidth 64

/-- The agent moves on with `t1`, or, where the core has not what that takes, waits before any effect (02 R54). -/
def GoesOnWith (i : Instr) (s : State) (t1 : Thread) : Prop :=
  Machine.exec i s = .next (s.setCur t1.advance) ∨ Machine.exec i s = .next (s.orWait (s.setCur t1.advance))

/-- A per-index result: the lanes of `ms` have `f`, every other active lane keeps what it had, in register and latch. -/
def LaneValues (s : State) (t t1 : Thread) (d : Dst) (w : RW) (ms : List Nat) (f : Nat → Word) : Prop :=
  OnlyResult t t1 d w ∧
    ∀ p ∈ t.active,
      (d.nwb = false →
        (t1.src s.draw (.reg d.n) w.is64).val p
          = if p ∈ ms then cutTo w (f p) else (t.src s.draw (.reg d.n) w.is64).val p) ∧
      ∀ c, t.clause = some c →
        (t1.readLatch s.draw (c.pos % 8) w.is64).val p
          = if p ∈ ms then cutTo w (f p) else (t.readLatch s.draw (c.pos % 8) w.is64).val p

def LaneResult (i : Instr) (s : State) (t : Thread) (d : Dst) (w : RW) (ms : List Nat) (f : Nat → Word) : Prop :=
  ∃ t1, GoesOnWith i s t1 ∧ LaneValues s t t1 d w ms f

/-! ### Predicates -/

/-- An instruction whose one effect is a predicate: its guard, destination, sources, source predicates with their negations, and
its bit as a function of theirs. -/
structure PShape where
  g    : Guard
  n    : Nat
  ins  : List (Src × Bool)
  pins : List (BitVec 6 × Bool)
  val  : List Word → List Bool → Bool

/-- 06 R151, R158, 07 R171. -/
def predShape : Instr → Option PShape
  | .icmp o => some ⟨o.g, o.p.toNat, [(o.a, o.ty.is64), (o.b, o.ty.is64)], [], fun l _ =>
      let rd := typedOf o.ty.is64 o.ty.signed
      Rel.holds o.rel (rd (op l 0)) (rd (op l 1))⟩
  | .icmpImm o => some ⟨o.g, o.p.toNat, [(o.a, o.w)], [], fun l _ =>
      Rel.holds o.rel (typedOf o.w o.s (op l 0)) (immInt o.s o.imm)⟩
  | .fcmp o => some ⟨o.g, o.p.toNat, fltIns o.ty [o.a, o.b], [], fun l _ =>
      fcmp (fpOf o.ty) o.rel (fltBits o.ty l 0) (fltBits o.ty l 1)⟩
  | .pand o => some ⟨o.g, o.p.toNat, [], [(o.a, o.na), (o.b, o.nb)], fun _ b => b.getD 0 false && b.getD 1 false⟩
  | .por o => some ⟨o.g, o.p.toNat, [], [(o.a, o.na), (o.b, o.nb)], fun _ b => b.getD 0 false || b.getD 1 false⟩
  | .pxor o => some ⟨o.g, o.p.toNat, [], [(o.a, o.na), (o.b, o.nb)], fun _ b => b.getD 0 false != b.getD 1 false⟩
  | .pnot o => some ⟨o.g, o.p.toNat, [], [(o.a, o.na)], fun _ b => !b.getD 0 false⟩
  | .pmov o => some ⟨o.g, o.p.toNat, [], [(o.a, o.na)], fun _ b => b.getD 0 false⟩
  | _ => none

def PShape.opds (sh : PShape) (s : State) (t : Thread) : List Opd := sh.ins.map fun x => t.src s.draw x.1 x.2

/-- The values of the source predicates at a place. -/
def PShape.bits (sh : PShape) (t : Thread) (p : Nat) : List Bool := sh.pins.map fun x => t.predAt (t.pred x.1.toNat) p != x.2

/-- Nothing but predicate `n` differs between `t` and `t'`. -/
def OnlyPred (t t' : Thread) (n : Nat) : Prop :=
  t' = { t with preds := t'.preds, undefP := t'.undefP } ∧ ∀ k, k ≠ n → t'.pred k = t.pred k

/-- The frame of a fibre lies in the coordinates that a launch can have (16 R328). -/
def coordsOk (t : Thread) : Prop := t.frame.x1 ≤ 2 ^ 32 ∧ t.frame.y1 ≤ 2 ^ 32 ∧ t.frame.z1 ≤ 2 ^ 32

/-- A range fibre that acts on its whole box. -/
def OnRange (s : State) (c e : Nat) (t : Thread) : Prop :=
  s.turn = .fibre c e ∧ s.fibre? c e = some t ∧ t.kind = .fibre ∧ t.expanded = false ∧ 0 < t.box.count

/-- An operand that is affine along one axis alone. -/
def AlongAxis (x : Opd) (a : Axis) (b : Word) (st : Int) : Prop :=
  st ≠ 0 ∧ x.form = (match a with
    | .x => Form.a b st 0 0
    | .y => Form.a b 0 st 0
    | .z => Form.a b 0 0 st)

/-- 02 R45: no value of b + st·coordinate leaves the type's range across the box. -/
def EndsInRange (t : Thread) (a : Axis) (w sg : Bool) (b : Word) (st : Int) : Prop :=
  let e0 := typedOf w sg b + st * t.box.lo a
  let e1 := typedOf w sg b + st * (t.box.hi a - 1)
  tyMin w sg ≤ e0 ∧ e0 ≤ tyMax w sg ∧ tyMin w sg ≤ e1 ∧ e1 ≤ tyMax w sg

/-- The fibre goes on with predicate `n` a T, F or cut that is right at every index. -/
def CutIs (i : Instr) (s : State) (t : Thread) (n : Nat) (f : Nat → Bool) : Prop :=
  ∃ q : Pred, Pred.isM q = false ∧ Machine.exec i s = .next (s.setCur (t.setPred n q).advance) ∧
    ∀ p, p < t.box.count → t.predAt q p = f p

/-! ### Affine results (02 R41) -/

/-- The strides that a form-keeping operation gives, before they are reduced or limited. -/
def affStrides (i : Instr) (x y : Opd) : Option (Int × Int × Int) :=
  match i, x.lin, y.lin with
  | .iadd _, some (_, a, b, c), some (_, a', b', c') => some (a + a', b + b', c + c')
  | .isub _, some (_, a, b, c), some (_, a', b', c') => some (a - a', b - b', c - c')
  | .imul o, some (_, a, b, c), some (k, 0, 0, 0) => let k := signedOf o.ty.is64 k; some (a * k, b * k, c * k)
  | .shl _, some (_, a, b, c), some (k, 0, 0, 0) => let k : Int := 2 ^ min (low32 k).toNat 64; some (a * k, b * k, c * k)
  | _, _, _ => none

/-- The source operation of a two-source instruction that keeps affine forms. -/
def affRR : Instr → Option RR
  | .iadd o | .isub o | .imul o | .shl o => some o
  | _ => none

/-! ### Fibres -/

/-- The fibre (c, e) has the turn. -/
def OnFibre (s : State) (c e : Nat) (t : Thread) : Prop := s.turn = .fibre c e ∧ s.fibre? c e = some t ∧ t.kind = .fibre

/-- The management core of cluster k has the turn. -/
def OnMc (s : State) (k : Nat) (t : Thread) : Prop :=
  s.turn = .mc k ∧ t = (s.mc k).th ∧ t.kind = .mc ∧ t.expanded = false ∧ t.box = Box.one

/-- The stream of core c has the turn. -/
def OnStream (s : State) (c : Nat) (x : Stream) : Prop :=
  s.turn = .stream c ∧ (s.core c).stream = some x ∧ x.th.kind = .stream ∧ x.th.expanded = false ∧ x.th.box = Box.one

/-- A table lists its keys in rising order. -/
def rising {α : Type} (t : Tab α) : Bool := t.Pairwise fun a b => a.1 < b.1

/-- The core of a fibre has an entry free (02 R54). -/
def HasEntry (s : State) (c : Nat) : Prop := (s.core c).fibres.length < Config.fibreEntries

/-- A fibre divides in two: in `u` the entry `e` holds `low` and another entry, free before, holds `other` with tokens of its own
(02 R47). `next`: the other completes the clause next, without a fibre switch (02 R48). -/
def Divided (s u : State) (c e : Nat) (low other : Thread) (next : Bool) : Prop :=
  u.fibre? c e = some low ∧
  ∃ e', e' ≠ e ∧ s.fibre? c e' = none ∧
    u.fibre? c e' = some { other with uid := s.fresh, tokId := s.fresh, failed := [], tokHb := [], fbrec := none, peeled := false, slotNo := none } ∧
    (u.core c).follow = (if next then e' :: (s.core c).follow else (s.core c).follow) ∧
    (∀ k, k ≠ e → k ≠ e' → u.fibre? c k = s.fibre? c k) ∧ u.mem = s.mem ∧ u.log = s.log

/-- The state in which fibre (c, e) is replaced by two (02 R47). -/
def State.divide (s : State) (c e : Nat) (low other : Thread) (next : Bool) : State :=
  let (s1, e') := s.splitTwo c e low other
  if next then s1.followWith c [e'] else s1

/-- The instruction divides the fibre, or, where the core has not what the division takes, the fibre waits before any effect
(02 R54). -/
def DividesInto (i : Instr) (s : State) (c e : Nat) (low other : Thread) (next : Bool) : Prop :=
  Machine.exec i s = .next (s.orWait (State.divide s c e low other next)) ∧
  Divided s (State.divide s c e low other next) c e low other next

/-- The parts of a range fibre below a threshold and from it on (02 R47). -/
def belowCut (t : Thread) (a : Axis) (thr : Nat) : Thread := t.setBox (t.box.setAxis a (t.box.lo a) thr)
def aboveCut (t : Thread) (a : Axis) (thr : Nat) : Thread := t.setBox (t.box.setAxis a thr (t.box.hi a))

/-- The part of an expanded fibre whose lanes are, or are not, in a list (02 R49). -/
def lanesIn (t : Thread) (ls : List Nat) (yes : Bool) : Thread := t.onLanes (t.active.filter fun l => ls.contains l == yes)

/-- `t0` is fibre (c, e) with lanes for its box: one lane for each index, in blocks that no fibre of the core holds (02 R51). -/
def Grown (s : State) (c e : Nat) (t t0 : Thread) : Prop :=
  (s.grow c e t).fibre? c e = some t0 ∧ t0.active = List.range t.box.count ∧
  ∃ bs : List Nat, t0 = t.expandIn bs ∧ bs.length = (t.box.count + 31) / 32 ∧ bs.Nodup ∧ ∀ b ∈ bs, b ∉ (s.core c).usedBlocks

/-- The lanes of a fibre are split between two that share its lane blocks (02 R49). -/
def SharesLanes (t low other : Thread) (ls : List Nat) : Prop :=
  low.blocks = t.blocks ∧ other.blocks = t.blocks ∧ low.expanded = true ∧ other.expanded = true ∧
  low.active = ls ∧ ∀ l, l ∈ other.active ↔ l ∈ t.active ∧ l ∉ ls

/-- The box of a range fibre is divided at a threshold of one axis (02 R47). -/
def SharesBox (t low other : Thread) (a : Axis) (thr : Nat) : Prop :=
  low.box = t.box.setAxis a (t.box.lo a) thr ∧ other.box = t.box.setAxis a thr (t.box.hi a)

/-- The value that a fibre's reading of its geometry gives (07 R173). -/
def idxValueOf (s : State) (t : Thread) (sel : Nat) (l : Launch) : Nat :=
  match sel with
  | 1 => l.lr.gx
  | 2 => l.lr.gy
  | 3 => l.lr.gz
  | 4 => t.box0.x0
  | 5 => t.box0.y0
  | 6 => t.box0.z0
  | _ => match s.curCore, t.inst with
    | some c, some i => match Tab.find? (s.core c).insts i with
      | some ti => ti.tile
      | none => 0xFFFFFFFF
    | _, _ => 0xFFFFFFFF

/-- 07 R174. -/
def boxValueOf (s : State) (t : Thread) (sel : Nat) : Nat :=
  match sel with
  | 0 => t.box.x0
  | 1 => t.box.x1
  | 2 => t.box.y0
  | 3 => t.box.y1
  | 4 => t.box.z0
  | 5 => t.box.z1
  | 6 => if t.expanded then t.active.length else t.box.ex * t.box.ey * t.box.ez
  | _ => (if t.expanded then 1 else 0) + (if s.shares t then 2 else 0)

/-- 07 R175. -/
def tagCode : Reg → Nat
  | .u _ _ => 0
  | .a _ _ _ _ => 1
  | .e _ _ => 2
  | .p => 3
def axisCode : Axis → Nat
  | .x => 0
  | .y => 1
  | .z => 2
def formCode (t : Thread) (what : FormWhat) (n : Nat) : Nat :=
  match what with
  | .tag => tagCode (t.reg n)
  | .predForm =>
    if n ∈ t.undefP then 1 else
    match t.pred n with
    | .t => 0
    | .f => 1
    | .c a _ ge => 2 + 16 * axisCode a + (if ge then 64 else 0)
    | .m _ => 3
  | .threshold =>
    if n ∈ t.undefP then 0 else
    match t.pred n with
    | .c _ thr _ => thr
    | _ => 0

/-- 07 R182: one addition of RED. -/
def redStep (ty : RTy) (acc x : Word) : Word :=
  match ty with
  | .f32 => BitVec.ofNat 64 (fpF32.enc .rne ((fpF32.dec (acc.toNat % 2 ^ 32)).add false (fpF32.dec (x.toNat % 2 ^ 32))))
  | .f64 => BitVec.ofNat 64 (fpF64.enc .rne ((fpF64.dec acc.toNat).add false (fpF64.dec x.toNat)))
  | .i32 | .n32 => ((acc + x).setWidth 32).setWidth 64
  | .i64 | .n64 => acc + x

/-- 04 R95: a value of RED's type in the register's 64 bits. -/
def redHeld (ty : RTy) (v : Word) : Word :=
  match ty with
  | .i32 => (v.setWidth 32).signExtend 64
  | .n32 | .f32 => (v.setWidth 32).setWidth 64
  | _ => v

/-- The reduction register `k` of a thread's context, at its core. -/
def sregOf (s : State) (c ctx k : Nat) : SReg := Tab.get ((s.core c).ctx ctx).sregs SReg.zero k

/-- 07 R185: the lane that supplies lane l of a block, if it lies in 0 to 31. -/
def shflSource (mode l y : Nat) : Option Nat :=
  match mode with
  | 0 => some (y % 32)
  | 1 => if y ≤ l then some (l - y) else none
  | 2 => if l + y < 32 then some (l + y) else none
  | _ => some (l ^^^ (y % 32))

/-- A step that only changes the agent's thread. -/
def NextIs (i : Instr) (s : State) (t1 : Thread) : Prop := Machine.exec i s = .next (s.setCur t1)

/-! ### Control -/

/-- The thread at the header `pc`: its clause ended, its latches undefined, the watchdog counting (05 R121, R133, 02 R71). -/
def atHeader (t : Thread) (pc : Word) : Thread :=
  { t with pc := pc, clause := none, latches := [], progress := false, wdog := if t.progress then t.wdog else t.wdog + 1 }

/-- The header after the clause (05 R116). -/
def headerAfter (c : Clause) : Word := c.addr + 8 * (BitVec.ofNat 64 c.words.length + 1)

/-- The target of a format-B word: DISP words from its clause's header (05 R131). -/
def branchTarget (c : Clause) (disp : BitVec 32) : Word := c.addr + disp.signExtend 64 * 8

/-- The thread moves past its word: to the next of the clause, or to the header after it. -/
def pastWord (t : Thread) (c : Clause) : Thread :=
  if c.pos + 1 < c.words.length then { t with pc := t.pc + 8, clause := some { c with pos := c.pos + 1 } }
  else atHeader t (headerAfter c)

/-! ### Traps -/

/-- The trap queue of a cluster takes one more record. -/
def QueueTakes (s u : State) (k : Nat) (r : TrapRec) : Prop :=
  (u.cluster k).trapq = (s.cluster k).trapq ++ [{ r with seq := (s.cluster k).seq }] ∧
  (u.cluster k).seq = (s.cluster k).seq + 1 ∧ (u.cluster k).held = []

/-- The queue of a cluster has room (17 R348). -/
def QueueRoom (s : State) (k : Nat) : Prop := (s.cluster k).trapq.length < Config.trapQueueSize ∧ (s.cluster k).held = []

/-- 17 R348, R351: the whole of a range fibre takes a trap inside its clause: it parks, at its word or the next, and its cluster's
queue takes a record that names it, the word, the cause and its box. -/
def FibreTrapsAt (i : Instr) (s : State) (c e : Nat) (t : Thread) (cause : BitVec 8) (addr aux : Word) (next : Bool) : Prop :=
  Completes i s fun u =>
    u.fibre? c e = some { (if next then t.advance else t) with
      st := .parked, why := .none, lcause := cause, tmask := t.active } ∧
    QueueTakes s u (c / 8)
      { seq := 0, peeled := t.peeled, kind := 0, cause := cause, handle := handleOf false t.ctx c e, pc := t.pc, addr := addr
        aux := aux, index := .box t.box, disp := 0, rule := 0, tile := 0, core := c, uid := t.uid, who := [], fbv := none, replay := false } ∧
    u.mem = s.mem ∧ u.log = s.log ∧ ∀ k, k ≠ e → u.fibre? c k = s.fibre? c k
abbrev FibreTraps (i : Instr) (s : State) (c e : Nat) (t : Thread) (cause : BitVec 8) (aux : Word) (next : Bool) : Prop :=
  FibreTrapsAt i s c e t cause 0 aux next

/-- 07 R201: a management core that is not in its handler enters it: MC_EPC, MC_CAUSE and INH are set and it goes to MC_HVEC plus
0x100. One that is in its handler halts. -/
def McTraps (i : Instr) (s : State) (k : Nat) (t : Thread) (cause : BitVec 8) (next : Bool) : Prop :=
  let t' := if next then t.advance else t
  ((s.mc k).inh = false → Completes i s fun u =>
    (u.mc k).epc = t'.pc ∧ (u.mc k).cause = cause ∧ (u.mc k).inh = true ∧ (u.mc k).th.pc = (s.mc k).hvec + 0x100 ∧
    (u.mc k).th.clause = none ∧ (u.mc k).th.regs = t.regs ∧ (u.mc k).th.preds = t.preds ∧ (u.mc k).halted = (s.mc k).halted ∧
    u.mem = s.mem ∧ u.cores = s.cores) ∧
  ((s.mc k).inh = true → Completes i s fun u =>
    (u.mc k).halted = true ∧ (u.mc k).cause = cause ∧ u.host.mb.halt = true ∧ u.host.mb.haltCluster = k ∧ u.mem = s.mem)

/-! ### Guarded instructions -/

/-- The guard of the instructions that act under R43 and R48 and have no other way to stop before their effect. -/
def actsUnder (i : Instr) : Option Guard :=
  match intShape i, fltShape i, predShape i with
  | some sh, _, _ => some sh.g
  | _, some sh, _ => some sh.g
  | _, _, some sh => some sh.g
  | _, _, _ =>
    match i with
    | .sel o => some o.g
    | .idx o => some o.g
    | .box o => some o.g
    | .form o => some o.g
    | .expand o => some o.g
    | .peel o => some o.g
    | .red o => some o.g
    | .rdsum o => some o.g
    | .shfl o => some o.g
    | .ld o => some o.g
    | .lds o => some o.g
    | .ldc o => some o.g
    | .st o => some o.g
    | .sts o => some o.g
    | .pref o => some o.g
    | .atom o => some o.g
    | .atoms o => some o.g
    | .phase o => some o.g
    | .fence o => some o.g
    | _ => none

/-! ### Memory -/

/-- An agent that acts for one index: a fibre of one index, a stream or a management core. -/
def OneIndex (s : State) (t : Thread) (g : Guard) : Prop :=
  s.cur? = some t ∧ t.guard g = .t ∧ t.expanded = false ∧ t.box.count = 1

/-- No pseudo-channel holds an access and no line of HBM has a bad symbol (21 R386, R387). -/
def Calm (s : State) : Prop := s.flowing = true ∧ s.mem.flaws = []

/-- An address translates to `pa`, whichever of the table, a TLB and a cached pointer serves the access (17 R362; log 22). -/
def Resolves (s : State) (sp : VSpace) (va : Nat) (p : Perm) (pa : Nat) : Prop :=
  ∃ level leaf, s.xlat sp va p = .ok pa level leaf ∧
    ((∀ k, sp = .mc k → (s.mc k).en = true) → ∀ root, s.rootOf sp = some root →
      s.xlatWalk va p (s.walk va 3 root 0) = .ok pa level leaf ∧
      (∀ e ∈ s.tlbHits sp va, s.xlatLeaf va p e.level e.leaf = .ok pa level leaf) ∧
      ∀ e ∈ s.ptrHits sp va, s.xlatWalk va p (s.walk va (2 - e.level) (leafPa e.entry) (e.level + 1)) = .ok pa level leaf)

/-- An access of n bytes that gets to HBM at `pa`: its address one that the agent's space has, aligned, translated with the permission
it needs (17 R361), in sound lines (21 R386-R392), and every store of its bytes one that the agent sees (03 R82). -/
def Finds (s : State) (t : Thread) (va : Word) (n : Nat) (p : Perm) (pa : Nat) : Prop :=
  va.toNat % n = 0 ∧ s.addrBad va.toNat = false ∧ (t.kind = .mc → inWindow va.toNat n = false) ∧
  (∃ level leaf, s.xlat (s.curSpace t) va.toNat p = .ok pa level leaf) ∧ inHbm pa = true ∧ inFar pa = false ∧
  Calm s ∧ s.badRead none pa n = false ∧ ∀ w ∈ s.log, w.covers none pa n = false

/-- The same, where no load of this step stays outstanding (log 75). -/
def Reaches (s : State) (t : Thread) (va : Word) (n : Nat) (p : Perm) (pa : Nat) : Prop :=
  Finds s t va n p pa ∧ s.slow = false

/-- 03 R92: n bytes of code at an address of a space: aligned, in one executable page, sound, and no older value of them can be read. -/
def CodeAt (s : State) (sp : VSpace) (va n pa : Nat) : Prop :=
  va % 8 = 0 ∧ va < 2 ^ 55 ∧ va % 2 ^ 16 + n ≤ 2 ^ 16 ∧ (∀ k, sp = .mc k → va + n ≤ windowBase ∨ windowBase + 64 ≤ va) ∧
  (∀ k, k < n → Resolves s sp (va + k) .x (pa + k)) ∧
  Calm s ∧ inFar pa = false ∧ s.badRead none pa n = false ∧ ∀ w ∈ s.log, w.covers none pa n = false

/-- The state with other entries in the translation caches that serve the current agent (17 R362). -/
def cachesOf (s : State) (l m : List TlbEnt) (ps : List PtrEnt) : State :=
  match s.turn with
  | .mc k => s.setMc k { s.mc k with tlb := m }
  | _ => { s with tlb := l, ptrs := ps }

/-- The slot entry that a RET of the thread takes back lies in a page that whatever serves its read translates alike, or not at all. -/
def SlotSettled (s : State) (t : Thread) : Prop :=
  ∀ c a, s.slotTop t = some (c, a) → a % 8 = 0 ∧
    ((∃ pa, Resolves s (.port t.ctx c .F) a .r pa) ∨ ∃ cause code level, s.xlat (.port t.ctx c .F) a .r = .fault cause code level)

/-- An access reaches the scratch allocation of the thread's tile, at a byte offset (03 R75, 08 R224). -/
def ReachesScratch (s : State) (t : Thread) (off n : Nat) (sp : Space) : Prop :=
  (∃ c al size, s.scratchOf t = some (c, al, size) ∧ sp = some (c, al) ∧ off + n ≤ size) ∧ off < 2 ^ 21 ∧ off % n = 0 ∧
  s.badRead sp off n = false ∧ ∀ w ∈ s.log, w.covers sp off n = false

/-- The number that n bytes make, lowest first (00 R5). -/
def numAt (s : State) (sp : Space) (a n : Nat) : Nat := leNat (s.readBytes sp a n)

/-- 05 R130, 08 R214, 04 R95: a loaded number in the destination's width. -/
def loadedWord (size : BitVec 4) (v : Nat) : Word :=
  match size.toNat with
  | 0 => ((BitVec.ofNat 8 v).signExtend 32).setWidth 64
  | 1 => ((BitVec.ofNat 16 v).signExtend 32).setWidth 64
  | 2 => (BitVec.ofNat 32 v).setWidth 64
  | 4 => BitVec.ofNat 64 (v % 2 ^ 8)
  | 5 => BitVec.ofNat 64 (v % 2 ^ 16)
  | 6 => BitVec.ofNat 64 (v % 2 ^ 32)
  | _ => BitVec.ofNat 64 v

/-- What a load or atomic leaves of its thread: its destination, latch and view aside, nothing changes; `k`: its registers. -/
def OnlyLoaded (t t1 : Thread) (d : Dst) (k : Nat) : Prop :=
  t1 = { t with regs := t1.regs, latches := t1.latches, farMarks := t1.farMarks, view := t1.view, lviews := t1.lviews } ∧
  ∀ n, (touches d n = false ∧ ¬ (d.n.toNat ≤ n ∧ n < d.n.toNat + k)) → t1.reg n = t.reg n

/-- A load of a uniform address delivers the number `v`: in one register or pair, or in two pairs. Memory is as it was. -/
def Loads (i : Instr) (s : State) (t : Thread) (d : Dst) (size : BitVec 4) (v : Nat) : Prop :=
  Completes i s fun u => ∃ t1, u.cur? = some t1.advance ∧ Holds t t1 d (sizeRW size) (loadedWord size v) ∧
    (size = 8#4 → d.nwb = false → t.kind ≠ .stream →
      t1.reg (d.n.toNat + 2) = .u (BitVec.ofNat 64 (v / 2 ^ 64)) false ∧ t1.reg (d.n.toNat + 3) = .p) ∧
    OnlyLoaded t t1 d (sizeRegs size) ∧ u.mem = s.mem ∧ u.log = s.log

/-- The number that a store's data operand holds. -/
def storeData (s : State) (t : Thread) (x : Src) (size : BitVec 4) : Nat :=
  match x with
  | .reg n => if size = 8#4 then ((t.read64 n.toNat).val 0).toNat + 2 ^ 64 * ((t.read64 (n.toNat + 2)).val 0).toNat
      else ((t.src s.draw x (sizeRegs size = 2)).val 0).toNat
  | _ => ((t.src s.draw x (sizeRegs size = 2)).val 0).toNat
def storeClean (s : State) (t : Thread) (x : Src) (size : BitVec 4) : Prop :=
  ∀ o ∈ dataOpds t s.draw x size, o.clean = true

/-- In `u` the n bytes at `a` of a space hold the number `v`, and every other byte of memory is as in `s`. -/
def Stored (s u : State) (sp : Space) (a n v : Nat) : Prop :=
  numAt u sp a n = v % 2 ^ (8 * n) ∧
  (∀ b, sp ≠ none ∨ b < a ∨ a + n ≤ b → u.readByte none b = s.readByte none b) ∧
  ∀ b, sp ≠ none → b < a ∨ a + n ≤ b → u.readByte sp b = s.readByte sp b

/-- 08 R217: what an atomic leaves in memory; none: a compare that fails stores nothing. -/
def atomWrites (op : Nat) (signed : Bool) (n old y z : Nat) : Option Nat :=
  let m := 2 ^ (8 * n)
  let rd (v : Nat) : Int := if signed && m / 2 ≤ v then (v : Int) - m else v
  match op with
  | 0 => some ((old + y) % m)
  | 1 => some (if rd y < rd old then y else old)
  | 2 => some (if rd y ≤ rd old then old else y)
  | 3 => some (old &&& y)
  | 4 => some (old ||| y)
  | 5 => some (old ^^^ y)
  | 6 => some y
  | _ => if old = y then some z else none

/-- The bytes, the operands and the result width of an atomic of 4 or 8 bytes. -/
def atomN (o : AtomO) : Nat := if o.ty.is64 then 8 else 4
def atomArg (s : State) (t : Thread) (o : AtomO) (x : Src) : Nat := ((t.src s.draw x o.ty.is64).val 0).toNat

/-- 08 R217, R218: a compare-and-swap of 16 bytes answers the old number in two pairs, and stores the third operand where the old
number is the second. -/
def Swaps16 (i : Instr) (s : State) (t : Thread) (o : AtomO) (sp : Space) (a : Nat) : Prop :=
  let old := numAt s sp a 16
  Completes i s fun u =>
    (∃ t1, u.cur? = some t1.advance ∧ Holds t.progressed t1 o.d .w64 (BitVec.ofNat 64 old) ∧
      (o.d.nwb = false → t.kind ≠ .stream →
        t1.reg (o.d.n.toNat + 2) = .u (BitVec.ofNat 64 (old / 2 ^ 64)) false ∧ t1.reg (o.d.n.toNat + 3) = .p) ∧
      OnlyLoaded t.progressed t1 o.d 4) ∧
    if old = storeData s t o.b 8 then Stored s u sp a 16 (storeData s t o.c 8) else u.mem = s.mem ∧ u.log = s.log

/-- An atomic answers the old number and leaves the new one. -/
def Atomic (i : Instr) (s : State) (t : Thread) (o : AtomO) (sp : Space) (a : Nat) : Prop :=
  let old := numAt s sp a (atomN o)
  Completes i s fun u =>
    (∃ t1, u.cur? = some t1.advance ∧ Holds t.progressed t1 o.d (RW.ofTy o.ty) (BitVec.ofNat 64 old) ∧
      OnlyLoaded t.progressed t1 o.d o.ty.n) ∧
    match atomWrites o.op.toNat o.ty.signed (atomN o) old (atomArg s t o o.b) (atomArg s t o o.c) with
    | some v => Stored s u sp a (atomN o) v
    | none => u.mem = s.mem ∧ u.log = s.log

/-- 03 R80: two agents lie in a scope: one core, the module, or everything. -/
def Within (scope a b : Nat) : Prop :=
  match scope with
  | 0 => a = b ∧ a < 192
  | 1 => a < 1000 ∧ b < 1000
  | _ => True

/-- 03 R81, R85: an acquire of a scope by an agent takes what a release publishes: each scope takes in both agents; a completion word is
taken at device scope. -/
def Synchronizes (r : Release) (scope agent : Nat) : Prop :=
  if r.scope = 3 then Within 1 r.core agent else Within r.scope r.core agent ∧ Within scope r.core agent

/-- 03 R81: what a fence makes of a view: an acquire takes what the releases that earlier loads have read publish, a release makes
releases at its scope of later stores, and nothing else changes. -/
def Fenced (agent : Nat) (acq rel : Bool) (scope : Nat) (v v1 : View) : Prop :=
  (∀ n, n ∈ v1.hb ↔ n ∈ v.hb ∨ (acq = true ∧ ∃ r ∈ v.acq, Synchronizes r scope agent ∧ n ∈ r.hb)) ∧
  (∀ k, k ∈ v1.rel ↔ k ∈ v.rel ∨ (rel = true ∧ k = scope)) ∧ v1.pv = v.pv ∧ v1.seen = v.seen ∧ v1.acq = v.acq

/-- The thread has made progress (02 R71) and each of its views is fenced. -/
def FencedThread (agent : Nat) (acq rel : Bool) (scope : Nat) (t t1 : Thread) : Prop :=
  t1 = { t.progressed with view := t1.view, lviews := t1.lviews } ∧ Fenced agent acq rel scope t.view t1.view ∧
  t1.lviews.map Prod.fst = t.lviews.map Prod.fst ∧
  ∀ k v v1, Tab.find? t.lviews k = some v → Tab.find? t1.lviews k = some v1 → Fenced agent acq rel scope v v1

/-- An access of the agent gets to HBM at `pa`, in sound lines, and completes in its own step, whatever stores of its bytes there are. -/
def GetsTo (s : State) (t : Thread) (va : Word) (n : Nat) (p : Perm) (pa : Nat) : Prop :=
  va.toNat % n = 0 ∧ s.addrBad va.toNat = false ∧ (t.kind = .mc → inWindow va.toNat n = false) ∧
  (∃ level leaf, s.xlat (s.curSpace t) va.toNat p = .ok pa level leaf) ∧ inHbm pa = true ∧ inFar pa = false ∧
  Calm s ∧ s.badRead none pa n = false ∧ s.slow = false

/-- 03 R81: a store is a release at a scope: it publishes itself and all that its agent has observed. -/
def Publishes (s : State) (t : Thread) (w : WriteRec) (scope : Nat → Prop) : Prop :=
  ∃ r ∈ w.rel, scope r.scope ∧ r.core = s.curAgent ∧ w.id ∈ r.hb ∧ ∀ n ∈ t.view.hb, n ∈ r.hb

/-- The memory after all the stores of an instruction's indices, taken in ascending order (08 R212). -/
def storesOf (s : State) (t : Thread) (i : Instr) (o : StO) (w64 : Bool) (ps : List Nat) : Option State :=
  (reqOf i).map fun r =>
    (s.progressed.access t.progressed r false [] (singles ps) (addrOps (t.src s.draw o.base w64) w64 (o.off.signExtend 64)
      (piecesVal (dataOpds t s.draw o.data o.size)) (fun _ => 0) (fun _ => false)
      (piecesBad (dataOpds t s.draw o.data o.size)))).s

/-- The owner word that a promoting acquire at `pa` reads (03 R87, R88). -/
def ownerAt (s : State) (pa : Nat) : Option Nat := ownerOf (numAt s none (pa / 16 * 16 + 8) 8)

/-! ### Engines -/

/-- The copy instructions: their operands, kind and format (08 R228-R231). -/
def copyForm : Instr → Option (CopyO × CopyKind × Fmt)
  | .copy o => some (o, .plain, .n8)
  | .copyt o => some (o, .toTile, .n8)
  | .copyx o => some (o.c, .expand, o.fmt)
  | .copyc o => some (o.c, .compact, o.fmt)
  | _ => none

/-- 08 R227: an engine command of fibre (c, e): the guard is true, and where it needs them the fibre has the rights of its tile's
producer; its operands are uniform. -/
def Commands (s : State) (c e : Nat) (t : Thread) (g : Guard) (rights : Bool) (ops : List Opd) : Prop :=
  OnFibre s c e t ∧ t.guard g = .t ∧ (rights = true → s.isProducer t = true) ∧ ops.all (fun x => x.isU && x.clean) = true

/-- An address of a space that translates to n bytes of one page of HBM, sound and in service, of which no older value can be read. -/
def InPage (s : State) (sp : VSpace) (va : Word) (n : Nat) (p : Perm) (pa : Nat) : Prop :=
  va.toNat < 2 ^ 55 ∧ va.toNat % 2 ^ 16 + n ≤ 2 ^ 16 ∧ 0 < n ∧ Resolves s sp va.toNat p pa ∧
  inHbm pa = true ∧ inFar pa = false ∧ Calm s ∧ s.badRead none pa n = false ∧ ∀ w ∈ s.log, w.covers none pa n = false

/-- 19 R380: nothing stops the engines of core c, nor the context on it. -/
def EngineFree (s : State) (c ctx : Nat) : Prop := s.enginesRun c = true ∧ (s.core c).stopped.contains ctx = false

/-- Two ranges of bytes with none in common. -/
def Apart (a n b m : Nat) : Prop := a + n ≤ b ∨ b + m ≤ a

/-- Bytes outside a list of ranges of physical memory are as they were. -/
def OnlyIn (s u : State) (rs : List (Nat × Nat)) : Prop :=
  ∀ b, (∀ r ∈ rs, b < r.1 ∨ r.1 + r.2 ≤ b) → u.readByte none b = s.readByte none b

/-- 08 R232: element i of the dense row that COPYX makes: of its group's two values the one whose position it is, the second where both
name it, else zero. `val`: the values; `m`: the byte of metadata. -/
def expanded (val : Nat → Nat) (m i : Nat) : Nat :=
  let g := i / 4
  let nib := if g = 0 then m % 16 else m / 16
  if i % 4 = nib / 4 then val (2 * g + 1) else if i % 4 = nib % 4 then val (2 * g) else 0

/-- 08 R232: positions a and b, in this order, hold the two elements of greatest magnitude of a group of four, the lower position
before the higher where magnitudes are equal. -/
def KeepsTwo (f : Fmt) (x : Nat → Nat) (a b : Nat) : Prop :=
  let above (i j : Nat) : Prop := magnitude f (x j) < magnitude f (x i) ∨ (magnitude f (x j) = magnitude f (x i) ∧ i < j)
  a < b ∧ b < 4 ∧ ∀ j, j < 4 → j ≠ a → j ≠ b → above a j ∧ above b j

/-- The fibre of a thread ready to go on at the word after its own. -/
def GoesOnAt (u : State) (c e : Nat) (t : Thread) : Prop :=
  ∃ t1 : Thread, u.fibre? c e = some t1 ∧ t1.st = .ready ∧ t1.why = .none ∧ t1.pc = t.advance.pc ∧ t1.clause = t.advance.clause ∧
    t1.regs = t.regs

/-! ### Tiles -/

/-- The stream x of core c stands at a tile instruction whose guard is true. -/
def Streams (s : State) (c : Nat) (x : Stream) (g : Guard) : Prop := OnStream s c x ∧ x.th.guard g = .t

/-- A core's state for a stream's context. -/
def State.kOf (s : State) (c : Nat) (x : Stream) : CoreCtx := (s.core c).ctx x.th.ctx

/-- No MMA of the context is still being computed (09 R270). -/
def Whole (k : CoreCtx) : Prop := ∀ o ∈ k.ops, o.running = false

/-- A tile instruction is admitted: the tile `d` has its next version, which satisfies `f`; every other tile, the configuration and
memory are as they were; what it reads and writes is pending until it completes; the stream goes on (09 R247, R274). -/
def WritesTile (i : Instr) (s : State) (c : Nat) (x : Stream) (d : Nat) (reads : List Nat) (f : Tile → Prop) : Prop :=
  Completes i s fun u =>
    let k := State.kOf s c x
    let k' := State.kOf u c x
    (∃ t1 : Thread, (u.core c).stream = some { x with th := t1.advance } ∧
      t1 = { x.th with view := t1.view, lviews := t1.lviews }) ∧
    f (k'.tile d) ∧ (k'.tile d).version = (k.tile d).version + 1 ∧ (∀ n, n ≠ d → k'.tile n = k.tile n) ∧
    (∃ op, k'.ops = k.ops ++ [op] ∧ op.reads = reads ∧ op.writes = some d ∧ op.running = false) ∧ k'.cfg = k.cfg ∧
    .tileInstructionCompletion c x.th.ctx ∈ u.agenda ∧ u.mem = s.mem ∧ u.log = s.log

/-- An integer that 4 bytes of a tile hold, and its low 32 bits. -/
def intOf (n : Bool) (v : Nat) : Int := if n then -(v : Int) else v
def low32N (v : Int) : Nat := (v % (2 ^ 32 : Nat)).toNat

/-- 09 R262, R264: element (i, k) of A and (k, j) of B as MMA takes them: transposed, negated, exact zero outside the mask. -/
def mmaA (o : MmaO) (f : Fmt) (t : Tile) (lim : Nat × Nat × Nat) (i k : Nat) : Machine.Num :=
  if lim.1 ≤ i ∨ lim.2.2 ≤ k then .fin false 0 0
  else
    let v := if o.flag 8 then t.num f k i else t.num f i k
    if o.flag 13 then v.neg else v
def mmaB (o : MmaO) (f : Fmt) (t : Tile) (lim : Nat × Nat × Nat) (k j : Nat) : Machine.Num :=
  if lim.2.1 ≤ j ∨ lim.2.2 ≤ k then .fin false 0 0
  else
    let v := if f = .q4 ∨ o.flag 7 then t.num f j k else t.num f k j
    if o.flag 12 then v.neg else v

/-- An exact value of an integer format. -/
def exactInt (x : Machine.Num) : Int :=
  match x with
  | .fin n m _ => intOf n m
  | _ => 0

/-- 04 R113-R115, 09 R266-R268: what MMA leaves at (i, j) inside its mask. -/
def mmaElem (o : MmaO) (f : TCfg) (fa fb : Fmt) (lim : Nat × Nat × Nat) (ta tb tc : Tile) (i j : Nat) : Nat :=
  let kk := f.dims.2.2
  let c := if o.flag 11 then 0 else tc.elem 4 i j
  if f.acc then low32N ((List.range kk).foldl (fun acc k => acc + exactInt (mmaA o fa ta lim i k) * exactInt (mmaB o fb tb lim k j)) c)
  else if mmaRecombines o f fa fb then
    (((recombined fa fb
      ((List.range 32).map fun i => (List.range 32).map (mmaA o fa ta lim i))
      ((List.range 32).map fun j => (List.range 32).map fun k => mmaB o fb tb lim k j)
      ((List.range 32).map fun i => (List.range 32).map fun j => fpF32.dec (if o.flag 11 then 0 else tc.elem 4 i j))).1.getD i []).getD j 0)
  else (classicalCell (kk / 16) ((List.range kk).map (mmaA o fa ta lim i)) ((List.range kk).map fun k => mmaB o fb tb lim k j) (c, false)).1

/-- 09 R264: D's elements: those that an MMA computes inside its mask, the old ones outside. -/
def MmaLeaves (o : MmaO) (f : TCfg) (fa fb : Fmt) (lim : Nat × Nat × Nat) (ta tb tc old new : Tile) : Prop :=
  ∀ i j, i < 32 → j < 32 → new.elem 4 i j =
    if i < min f.dims.1 lim.1 ∧ j < min f.dims.2.1 lim.2.1 then mmaElem o f fa fb lim ta tb tc i j % 2 ^ 32 else old.elem 4 i j

/-- 09 R270: a split MMA of the stream stands at the boundary after its first `r.stage` stages. -/
def AtStage (o : MmaO) (f : TCfg) (fa fb : Fmt) (lim : Nat × Nat × Nat) (r : MmaRun) : Prop :=
  let taken := mmaTaken o f fa fb lim r.a r.b r.c
  0 < r.stage ∧ r.stage < mmaStages o f fa fb ∧
  r.vals = (List.range r.stage).foldl (fun v i => mmaStage o f taken.1 taken.2.1 i v)
    ((List.range f.dims.1).map fun i => (List.range f.dims.2.1).map fun j => (taken.2.2 i j, false))

/-! ### The rewrite stage -/

/-- 12 R287, R295: the instructions at the front of a window match an entry's slots: opcode, flags under the slot's mask, EQ flags, and
one tile for each variable, another one for each variable that DIST keeps apart. -/
def SlotsMatch (e : RuleEntry) (win : List WIns) : Prop :=
  let n := ruleSlots e
  n ≤ win.length ∧
  (∀ i x y, i < n → win[i]? = some x → win.head? = some y → x.elig = true ∧ fOpc x.w = fOpc (ruleW e i <<< 54) ∧
    fFlags x.w &&& slotMask (ruleW e i) = slotVal (ruleW e i) ∧ (fFlags x.w ^^^ fFlags y.w) &&& ruleEq e = 0) ∧
  ∃ tile : Nat → Nat,
    (∀ i x f, i < n → f < 4 → win[i]? = some x → slotCode (ruleW e i) f ≠ 15 → fTile x.w f = tile (slotCode (ruleW e i) f)) ∧
    ∀ i j f g, i < n → j < n → f < 4 → g < 4 →
      let u := slotCode (ruleW e i) f
      let v := slotCode (ruleW e j) g
      u ≠ 15 → v ≠ 15 → u ≠ v → ruleDist e u = true → tile u ≠ tile v

/-- 12 R288, R304: what an instruction wrote to tile t cannot be observed after it is removed: before anything in a sequence names t,
an instruction that certainly executes writes it whole. -/
def Overwritten (cfg : TCfg) (t : Nat) (seq : List (Instr × Option Word × Bool)) : Prop :=
  ∃ (q : Nat) (i : Instr) (m : Option Word), seq[q]? = some (i, m, true) ∧ wholeWrite cfg i m t = true ∧
    ∀ (r : Nat) z, r < q → seq[r]? = some z → names (Prod.fst z) t = false

/-- The current agent, where it is a fibre, has its core's resources in hand. -/
def Settled (s : State) : Prop := s.roomy = true ∧ ∀ c e, s.turn = .fibre c e → rising (s.core c).fibres = true

/-! ### Management cores -/

/-- The power registers of a cluster. -/
abbrev State.pmOf (s : State) (k : Nat) : Clpm := (s.cluster k).pm

/-- 19 R381: the state that a step may enter from another. -/
def stepAllowed (s : State) (k : Nat) (tgt : BitVec 2) : Prop :=
  let p := State.pmOf s k
  (tgt.toNat = p.cur.toNat + 1 ∨ tgt.toNat + 1 = p.cur.toNat) ∧
  (p.cur = 0#2 → s.idleMask k = 255 ∧ s.estopped k = true ∧ p.flushed = true) ∧ (p.cur = 1#2 → tgt = 2#2 → p.retv = true)

/-- 19 R380, R383: what a write of CLPM_CTL leaves of a cluster's power registers. -/
def CtlHolds (s u : State) (k : Nat) (v : Word) : Prop :=
  let p := State.pmOf s k
  let p' := State.pmOf u k
  let fields : Prop := p'.tgt = v.extractLsb' 4 2 ∧ p'.estop = v.getLsbD 2 ∧ p'.dstop = v.getLsbD 0 ∧ p'.flush = (p.flush || v.getLsbD 1) ∧
    p'.flushed = (p.flushed && v.getLsbD 0 && !v.getLsbD 1) ∧ p'.cur = p.cur
  let tgt := v.extractLsb' 4 2
  if v.getLsbD 3 = false then fields ∧ p'.busy = p.busy ∧ p'.err = p.err ∧ p'.dest = p.dest
  else (p.busy = true → p' = p) ∧ (p.busy = false → ¬ stepAllowed s k tgt → p' = { p with err := true }) ∧
    (p.busy = false → stepAllowed s k tgt → fields ∧ p'.busy = true ∧ p'.go = true ∧ p'.err = false ∧ p'.dest = tgt ∧
      .clpmStepDone k ∈ u.agenda)

/-- 19 R380, R384: what a write of CLPM_RETN leaves of them. -/
def RetnHolds (s u : State) (k : Nat) (v : Word) : Prop :=
  let p := State.pmOf s k
  let p' := State.pmOf u k
  let free := !p.save && !p.restore && !p.busy
  let saves := v.getLsbD 0 && free && decide (p.cur = 0#2) && s.estopped k
  let restores := v.getLsbD 1 && free
  if saves then p' = { p with save := true }
  else p' = if restores then (if p.retv then { p with restore := true } else { p with rerr := true }) else p

/-- 07 R199, R200, R402: where a CSR keeps what is written to it: the read-only ones keep what they have. -/
def CsrHolds (s u : State) (b : CsrBy) (csr : Nat) (v : Word) : Prop :=
  match csr, b.mc with
  | 0x010, _ => ∃ x, u.ctx? b.ctx = some x ∧ x.knit = v.setWidth 10
  | 0x011, _ => ∃ x, u.ctx? b.ctx = some x ∧ x.wdog = v.setWidth 32
  | 0x012, _ => ∃ x, u.ctx? b.ctx = some x ∧ x.swapDelay = v.setWidth 32
  | 0x020, _ => ∃ x, u.ctx? b.ctx = some x ∧ x.rwEn = v.getLsbD 0 ∧ x.rwR = v.getLsbD 1 ∧ x.rwF = v.getLsbD 2
  | 0x021, _ =>
    let k := (s.core b.core).ctx b.ctx
    (u.core b.core).ctx b.ctx =
      { k with rcnf := k.rcnf && !v.getLsbD 0, aovf := k.aovf && !v.getLsbD 1, nano := k.nano && !v.getLsbD 2 }
  | 0x100, some k => (v.getLsbD 8 = false → (u.cluster k).trapq = (s.cluster k).trapq) ∧
      ∀ r rest, v.getLsbD 8 = true → (s.cluster k).trapq = r :: rest → r.disp ≠ 1#2 → (u.cluster k).trapq = rest
  | 0x200, some k => (u.mc k).ie = v.getLsbD 0 ∧ (u.mc k).inh = (s.mc k).inh ∧ (u.cluster k).trapq = (s.cluster k).trapq
  | 0x201, some k => (u.mc k).epc = v ∧ (u.mc k).resume = .header
  | 0x202, some k => (u.mc k).cause = (s.mc k).cause
  | 0x203, some k => (u.mc k).hvec = v &&& ~~~7#64
  | 0x204, some k => (u.mc k).ctxsel = v.setWidth 6
  | 0x205, some k => (u.mc k).root = v.extractLsb' 16 36 ∧ (u.mc k).en = v.getLsbD 0 ∧ (u.mc k).tlb = []
  | 0x300, some k => CtlHolds s u k v
  | 0x301, some k => State.pmOf u k = State.pmOf s k
  | 0x302, some k => RetnHolds s u k v
  | 0x303, some k => State.pmOf u k = { State.pmOf s k with pend := (State.pmOf s k).pend && !v.getLsbD 0 }
  | _, _ => u.ctxs = s.ctxs ∧ ∀ k, State.pmOf u k = State.pmOf s k

/-- What CSRR, CSRW, CSRS and CSRC write: from the old value and the source (07 R197); none: nothing. -/
def csrEffect : Instr → Option (CsrO × Option (Word → Word → Word))
  | .csrr o => some (o, none)
  | .csrw o => some (o, some fun _ x => x)
  | .csrs o => some (o, some fun old x => old ||| x)
  | .csrc o => some (o, some fun old x => old &&& ~~~x)
  | _ => none

/-- 07 R200: the events that are pending: a trap record, a power event, the mailbox's doorbell. -/
def eventsOf (s : State) (k : Nat) : Nat :=
  (if (s.cluster k).trapq = [] then 0 else 1) + (if (s.cluster k).pm.pend then 2 else 0) + (if s.host.mb.busy then 4 else 0)

/-- The management core's predicate result: it stands after its word with T or F in predicate `p`. -/
def McSays (u : State) (k : Nat) (t : Thread) (p : BitVec 6) (b : Bool) : Prop :=
  (u.mc k).th = (t.setPred p.toNat (boolPred b)).advance

/-- The management core of cluster k has selected fibre (c, e). -/
def Selected (s : State) (k c e : Nat) (f : Thread) : Prop :=
  (s.mc k).sel = .fibre c e f.uid ∧ s.fibre? c e = some f ∧ Tab.find? (s.core c).swaps e = none

/-- 05 R118, R119: a header without tokens and RDZV waits for nothing, with SEQ where every earlier instruction of the agent has written
back: of a stream its tile instructions, of a fibre its memory instructions, TFILLs and TDRAINs. -/
def waitless (x : Core) (t : Thread) (h : Word) : Prop :=
  hdrTokw h = [] ∧ hdrRdzw h = false ∧
    (hdrSeq h = true → (t.kind = .stream → (x.ctx t.ctx).ops = []) ∧ (t.kind = .fibre → NothingPending x t.uid ∧ ∀ o ∈ (x.ctx t.ctx).ops, o.uid ≠ t.uid))

/-- The agent of a cluster's head record has no access outstanding, where the record declares it fatal (17 R352). -/
def HeadQuiet (s : State) (k : Nat) : Prop :=
  ∀ r rest, (s.cluster k).trapq = r :: rest → r.disp = 1#2 → ∀ o ∈ (s.core r.core).loads, o.uid ≠ r.uid

/-- The agent has begun its clause. -/
def Begun (t1 : Thread) (c : Clause) : Prop :=
  t1.pc = c.addr + 8 ∧ t1.clause = some { c with begun := true } ∧ t1.st = .ready ∧ t1.why = .none

/-! ### Tasks, the host, and hardware events -/

/-- An event whose one effect is on the agenda. -/
def Posts (i : Instr) (s : State) (es : List Instr) : Prop := Machine.exec i s = .next { s with agenda := s.agenda ++ es }

/-- An event that finds nothing to do. -/
def Nothing (i : Instr) (s : State) : Prop := Machine.exec i s = .next s

/-- A mailbox command ends: STATUS, BUSY falls and vector 0 is raised (19 R374). -/
def MbEnds (s u : State) (status : BitVec 8) : Prop :=
  u.host.mb.status = status ∧ u.host.mb.busy = false ∧ u.host.msix = s.host.msix ++ [0]

/-- The bytes at a physical address, none of them in a poisoned or bad line or an out-of-service pseudo-channel. -/
def Sound (s : State) (a n : Nat) : Prop := s.mem.plines = [] ∧ s.mem.flaws = [] ∧ s.deadAt a n = false

/-- The response that the SPDM responder gives, with its signature (19 R378). -/
def Responds (i : Instr) (s : State) (bs : List Byte) (f : Spdm → Bool) : Prop :=
  Completes i s fun u => u.host.spdm.response = bs ∧ u.host.spdm.signature = Config.sign bs ∧ f u.host.spdm = true ∧
    u.mem = s.mem ∧ u.cores = s.cores

/-- A load of fibre (c, e) is outstanding at a physical address: the one access of its core that is. -/
def Outstanding (s : State) (c e : Nat) (t : Thread) (o : OutAccess) (l : LdO) (pa : Nat) : Prop :=
  (s.core c).loads = [o] ∧ s.cores = [(c, s.core c)] ∧ o.entry = e ∧ o.pend = [(0, pa)] ∧ o.data = [] ∧ o.faults = [] ∧ (∃ b, o.base = .u b) ∧
  s.fibre? c e = some t ∧ t.kind = .fibre ∧ t.expanded = false ∧ t.why = .loadData ∧ t.st = .ready ∧
  decode o.instr = .ok (.ld l) ∧ l.d.nwb = false ∧ sizeRegs l.size = 1 ∧ sizeOk l.size = true ∧ takesU t l.d (sizeRW l.size) = true

/-- The outstanding load has ended with poison in its destination (17 R363, 08 R226, 21 R392). -/
def EndsPoisoned (u : State) (c e : Nat) (t : Thread) (l : LdO) : Prop :=
  (u.core c).loads = [] ∧ ∃ t1, u.fibre? c e = some t1 ∧ t1.st = .ready ∧ t1.why = .none ∧ t1.pc = t.pc ∧
    ∃ b, t1.reg l.d.n.toNat = .u b true

/-! ### The operands of a word -/

/-- 05 R127: the registers that an operand of n registers names: the first and how many. -/
def srcRegs (x : Src) (n : Nat) : List (Nat × Nat) :=
  match x with
  | .reg r => [(r.toNat, n)]
  | _ => []
def dstRegs (d : Dst) (n : Nat) : List (Nat × Nat) := if d.nwb then [] else [(d.n.toNat, n)]
def regsOf (g : Nat × Nat) : List Nat := (List.range g.2).map (g.1 + ·)
/-- 05 R130: the registers of a memory operand. -/
def regsOfSize (size : BitVec 4) : Nat := if size = 8#4 then 4 else if size = 3#4 ∨ size = 7#4 then 2 else 1

/-- 05 R127, R133: the registers that a word of memory, of the engines or of the tiles names, and whether it has a result. -/
def wordGroups : Instr → Option (List (Nat × Nat) × Bool)
  | .ld o => some (dstRegs o.d (regsOfSize o.size) ++ srcRegs o.base 2, true)
  | .lds o => some (dstRegs o.d (regsOfSize o.size) ++ srcRegs o.base 1, true)
  | .st o => some (srcRegs o.data (regsOfSize o.size) ++ srcRegs o.base 2, false)
  | .sts o => some (srcRegs o.data (regsOfSize o.size) ++ srcRegs o.base 1, false)
  | .atom o =>
    let n := if o.w16 then 4 else if o.ty.is64 then 2 else 1
    some (dstRegs o.d n ++ srcRegs o.a 2 ++ srcRegs o.b n ++ (if o.op = 7#3 then srcRegs o.c n else []), true)
  | .calli o | .jmpi o | .promote o => some (srcRegs o.a 2, false)
  | .fnew o => some (srcRegs o.a 2 ++ [(o.b.toNat, 8)], false)
  | .copy o | .copyt o => some ([(o.grp.toNat, 16)], false)
  | .fork o => some (srcRegs o.a 2 ++ if o.cnt = 0#3 then [] else [(o.b.toNat, 2 ^ o.cnt.toNat)], false)
  | .launch o => some (srcRegs o.a 2, false)
  | .waitc o => some (srcRegs o.a 2 ++ srcRegs o.b 1, false)
  | .tfill o | .tdrain o => some ([(o.grp.toNat, 8)] ++ srcRegs o.row 1, false)
  | .tload o | .tstore o => some ([(o.msk.toNat, 2)], false)
  | _ => none

/-! ### Floating-point values -/

/-- 04 R98, R103: exponent bits, fraction bits and bias. -/
def fmtFacts : Fmt → Nat × Nat × Nat
  | .f16 => (5, 10, 15)
  | .bf16 => (8, 7, 127)
  | .f64 => (11, 52, 1023)
  | .e4m3 => (4, 3, 7)
  | .e5m2 => (5, 2, 15)
  | _ => (8, 23, 127)
def signBit (f : Fmt) : Nat := 2 ^ ((fmtFacts f).1 + (fmtFacts f).2.1)
/-- The magnitude bits of the largest finite value. -/
def topOf (f : Fmt) : Nat := if f = .e4m3 then 0x7E else (2 ^ (fmtFacts f).1 - 1) * 2 ^ (fmtFacts f).2.1 - 1
/-- 04 R100. -/
def canonicalNaN : Fmt → Nat
  | .f16 => 0x7E00
  | .bf16 => 0x7FC0
  | .f64 => 0x7FF8000000000000
  | .e4m3 => 0x7F
  | .e5m2 => 0x7E
  | _ => 0x7FC00000
def ftyFmt : FTy → Fmt
  | .f16 => .f16
  | .bf16 => .bf16
  | .f32 => .f32
  | .f64 => .f64

/-- The value of magnitude bits k, the exponent going on without bound beyond the largest finite one (04 R98, R104). -/
def gridVal (f : Fmt) (k : Nat) : ℚ :=
  let (_, fb, bias) := fmtFacts f
  let fr : ℚ := ((k % 2 ^ fb : Nat) : ℚ)
  if k / 2 ^ fb = 0 then fr * (2 : ℚ) ^ (1 - bias - fb : Int)
  else ((2 ^ fb : Nat) + fr) * (2 : ℚ) ^ ((k / 2 ^ fb : Nat) - bias - fb : Int)

/-- The exact value of a finite number. -/
def ratOf (x : Machine.Num) : ℚ :=
  match x with
  | .fin n m e => (if n then -1 else 1) * (m : ℚ) * (2 : ℚ) ^ e
  | _ => 0

/-- 04 R99: k holds the magnitude to which a value of magnitude x rounds, with the exponent unbounded. -/
def RoundsOnGrid (f : Fmt) (r : Rnd) (neg : Bool) (x : ℚ) (k : Nat) : Prop :=
  let v := gridVal f
  let down : Prop := v k ≤ x ∧ x < v (k + 1)
  let up : Prop := x ≤ v k ∧ (0 < k → v (k - 1) < x)
  match r, neg with
  | .rne, _ => (0 < k → v (k - 1) + v k ≤ 2 * x ∧ (v (k - 1) + v k = 2 * x → k % 2 = 0)) ∧
      2 * x ≤ v k + v (k + 1) ∧ (2 * x = v k + v (k + 1) → k % 2 = 0)
  | .rtz, _ => down
  | .rup, true => down
  | .rup, false => up
  | .rdn, true => up
  | .rdn, false => down

/-- 04 R99: the bits of a rounded value, with what an overflow gives in each mode. -/
def ieeeBits (f : Fmt) (r : Rnd) (neg : Bool) (k : Nat) : Nat :=
  (if neg then signBit f else 0) + if k ≤ topOf f then k
    else if r = .rne ∨ (r = .rup ∧ neg = false) ∨ (r = .rdn ∧ neg = true) then topOf f + 1 else topOf f

/-- 04 R104: the same for e4m3 and e5m2. -/
def fp8Bits (f : Fmt) (nosat neg : Bool) (k : Nat) : Nat :=
  if k ≤ topOf f then (if neg then signBit f else 0) + k
  else if nosat = false then (if neg then signBit f else 0) + topOf f
  else if f = .e4m3 then 0x7F else (if neg then signBit f else 0) + topOf f + 1

/-- 04 R106: the integer to which a value rounds. -/
def RoundsTo (r : Rnd) (x : ℚ) (k : Int) : Prop :=
  match r with
  | .rne => |x - k| ≤ 1 / 2 ∧ (|x - k| = 1 / 2 → k % 2 = 0)
  | .rtz => k = if x < 0 then Int.ceil x else Int.floor x
  | .rup => k = Int.ceil x
  | .rdn => k = Int.floor x

/-- 04 R95: the integer that n bits hold, and an integer placed in a register or pair by its format. -/
def readInt (n : Nat) (signed : Bool) (v : Nat) : Int :=
  let u := v % 2 ^ n
  if signed = true ∧ 2 ^ (n - 1) ≤ u then (u : Int) - (2 ^ n : Nat) else u
def placed (f : Fmt) (v : Int) : Word :=
  let x := readInt f.bits f.signed (v % (2 ^ f.bits : Nat)).toNat
  if f.bits = 64 then BitVec.ofInt 64 x else (BitVec.ofInt 32 x).setWidth 64

/-- 04 R101: the order of values that are no NaN, -0 below +0, by their bits. -/
def orderKey (f : Fmt) (v : Nat) : Int := if v < signBit f then (v : Int) else -((v - signBit f : Nat) : Int) - 1

/-- 04 R114, 06 R166: an exact sum rounded once to f32. -/
def RoundedSum (r : Rnd) (ts : List Machine.Num) (v : Nat) : Prop :=
  (.nan ∈ ts ∨ (.inf true ∈ ts ∧ .inf false ∈ ts) → v = 0x7FC00000) ∧
  (.nan ∉ ts → .inf true ∉ ts → .inf false ∈ ts → v = 0x7F800000) ∧
  (.nan ∉ ts → .inf false ∉ ts → .inf true ∈ ts → v = 0xFF800000) ∧
  (.nan ∉ ts → .inf false ∉ ts → .inf true ∉ ts →
    let x := (ts.map ratOf).sum
    (x = 0 → v = 0 ∨ v = 2 ^ 31) ∧
    (x ≠ 0 → ∃ k, RoundsOnGrid .f32 r (decide (x < 0)) |x| k ∧ v = ieeeBits .f32 r (decide (x < 0)) k))

/-! ### What every step keeps -/

/-- A range fibre's cuts are in normal form for its box (02 R44). -/
def NormalCuts (t : Thread) : Prop := t.expanded = false → t.setBox t.box = t

/-- Every core's fibre table rises, and every range fibre in it, in a swap record or saved with its context has normal cuts. -/
def FibresInForm (s : State) : Prop :=
  (∀ kc ∈ s.cores, rising kc.2.fibres = true ∧ (∀ kv ∈ kc.2.fibres, NormalCuts kv.2) ∧ ∀ kv ∈ kc.2.swaps, NormalCuts kv.2.th) ∧
  ∀ kx ∈ s.ctxs, ∀ ks ∈ kx.2.saved, (∀ kv ∈ ks.2.fibres, NormalCuts kv.2) ∧ ∀ kv ∈ ks.2.swaps, NormalCuts kv.2.th

end Sys2Proof.Spec
end

