-- ==== Sys2Proof/Certificates/Slice0/Obligations.lean ====
section
/-!
DEFINITION. The statements for the provers. Each says in its docstring which rules of spec/ it formalises.
-/

open Sys2Proof Sys2Proof.Machine Sys2Proof.Spec

/-! ### Encoding, the step, the state -/

/-- 05 R123-R132: every well-formed instruction that a word names decodes from its word: no bit of an encoding is lost. -/
def Obligations.DecodeOfEncode : Prop :=
  ∀ (i : Instr) (w : Word), i.wf = true → encode i = some w → decode w = .ok i

/-- 05 R123-R132, R137: a word has one meaning: what a word decodes to encodes to that word. Opcode 0 is ILLEGAL whatever its other
bits are (05 R138). -/
def Obligations.EncodeOfDecode : Prop :=
  ∀ (w : Word) (i : Instr), decode w = .ok i → i.wf = true ∧ (i = .illegal ∨ encode i = some w)

/-- Words that the specification writes out decode to the instructions it gives for them. -/
def Obligations.SpecWordsDecode : Prop :=
  decode 0xC01F373000058600#64 = .ok (.ld ⟨.always, ⟨false, 55#6⟩, .reg 48#6, 88#20, 6#4, 0#2, 0#2, 0#2⟩) ∧
  decode 0xF25F040008250810#64 = .ok (.mma ⟨.always, 2#7, 0#7, 1#7, 2#7, 10#5, 2064#15⟩) ∧
  decode 0x14DF0B0B00000030#64 = .ok (.andnImm ⟨.always, ⟨false, 11#6⟩, .reg 11#6, false, false, 48#32⟩) ∧
  decode 0xFEDF0E0D00000000#64 = .ok (.sleep ⟨.always, ⟨false, 14#6⟩, .reg 13#6⟩)

/-- Every step keeps memory in its canonical form, from every state that has it. Every step keeps the fibre tables rising and the
cuts of range fibres in normal form for their boxes (02 R44), those of swapped and saved fibres among them; so each fibre of each
core has them. -/
def Obligations.StepKeepsInvariants : Prop :=
  (∀ s t : State, s.Canonical → Machine.step s = .next t → t.Canonical) ∧
  ((∀ s t : State, FibresInForm s → Machine.step s = .next t → FibresInForm t) ∧
   ∀ s : State, FibresInForm s → ∀ c, rising (s.core c).fibres = true ∧
     ∀ e t, s.fibre? c e = some t → t.expanded = false → t.setBox t.box = t)

/-- The state after reset: the boot ROM is the one thing pending, nothing is placed or powered, and the registers that the
specification gives a reset value hold it (19 R379, 21 R393, R396, 19 R374, 09 R249). That a boot is the one pending event and that
no core, cluster or context is listed is the model's choice (logs 6, 10). -/
def Obligations.ResetValues : Prop :=
  let s := State.reset
  s.Canonical ∧ FibresInForm s ∧ s.agenda = [.moduleReset] ∧ s.turn = .event 0 ∧
  (∀ k, (s.mc k).on = false ∧ (s.mc k).ie = false ∧ (s.mc k).inh = false ∧ (s.mc k).en = false) ∧
  (∀ c, (s.core c).fibres = [] ∧ (s.core c).stream = none ∧ ∀ k, ((s.core c).ctx k).cfg = TCfg.reset) ∧
  s.ctxs = [] ∧ s.hbm.rmthr = 4#8 ∧ s.hbm.period = 24#8 ∧ s.hbm.en = true ∧
  (∀ k, (s.pch k).spare = 512 ∧ (s.pch k).oos = 0 ∧ (s.pch k).st = 0 ∧ (s.pch k).lc = 0 ∧ (s.pch k).lf = 0 ∧ (s.pch k).ac = 0 ∧
    (s.pch k).au = 0 ∧ (s.pch k).rm = 0 ∧ (s.pch k).sc = 0 ∧ (s.pch k).rl = 0 ∧ (s.pch k).lastpa = 0) ∧
  s.host.mb.cmd = 0#8 ∧ s.host.mb.req = 0#64 ∧ s.host.mb.status = 0#8 ∧ s.host.mb.busy = false ∧ s.host.mb.halt = false ∧
  s.host.booted = false ∧ s.host.peerup = 0#16

/-- No instruction is refused in any state, and a fault is a host or peer access, outside the HDM range or before boot is complete,
that nothing decodes (19 R369, R370, R379). -/
def Obligations.OnlyUndecodedAccessStops : Prop :=
  ∀ (i : Instr) (s : State),
    (∀ r, Machine.exec i s ≠ .refused r) ∧
    ∀ f, Machine.exec i s = .fault f →
      ∃ a n, f = .notDecoded a ∧ (s.host.booted = false ∨ 2 ^ 39 < a + n) ∧
        (i = .hostCxlMemAccess (.read a n) ∨
          ∃ d : List Byte, d.length = n ∧ (i = .hostCxlMemAccess (.write a d) ∨ i = .peerWrite a d))

/-- A step of an agent that stands at a word of its clause executes the instruction that the word decodes to: the agent is READY,
has begun its clause and passes the checks of R137; a stream's tile instruction, unless its window leaves it as it is, goes to the
rewrite stage instead (12 R286). A word that fails a check is not executed: the agent traps with the check's cause. A fibre that
went on with accesses still waiting for replay (07 R206) passes its turn at a word that one of them holds (05 R134). Around it,
checks that have failed poison first (21 R389), the agents that yielded stop waiting for this one (07 R195), the fibre is noted as
the one inside its clause, and the step ends by choosing the next turn. That one agent acts per step is the model's choice (log 2),
and so are the words at which a fibre waits for its pending accesses (log 99). -/
def Obligations.StepExecutesWord : Prop :=
  ∀ (s0 : State) (t : Thread) (c : Clause) (i : Instr),
    let s := s0.applyUpsets
    s.issued.cur? = some t → t.clause = some c → c.begun = true → t.runs = true →
    let checked := checkWord (t.kind = .mc) (hdrClass c.hdr) t.window c.words c.pos (c.words.getD c.pos 0)
    let runs (s1 : State) : Prop := Machine.step s0 = (match Machine.exec i s1 with
      | .next u => .next u.settle
      | r => r)
    let stops (s1 : State) : Prop := ∀ cause, checked = .error cause → Machine.step s0 = .next (s1.trapAll cause).settle
    (∀ j e, s.turn = .fibre j e →
      let s1 := s.issued.setCore j { s.issued.core j with inClause := some e }
      (checked = .ok i → (s1.core j).wordWaits t c i = false → runs s1) ∧
      (checked = .ok i → (s1.core j).wordWaits t c i = true → Machine.step s0 = .next s1.settle) ∧ stops s1) ∧
    (∀ j x, s.turn = .stream j → (s.core j).stream = some x →
      (checked = .ok i → (isTileInstr i = false ∨ x.plain = true) → runs s) ∧
      (checked = .ok i → isTileInstr i = true → x.plain = false →
        Machine.step s0 = (match Machine.exec (.rewriteWindow j) s with
          | .next u => .next u.settle
          | r => r)) ∧ stops s) ∧
    ∀ k, s.turn = .mc k → (s.mc k).active = true → s.handlerDue k = false → (checked = .ok i → runs s) ∧ stops s

/-- 03 R92, 05 R117: an agent at a clause boundary fetches the header at its PC and as many words as the header counts, from the
memory that its executable page names, and begins the clause with the header: a fibre or stream that is neither cancelled nor over
its budget, and a management core with no handler due. A stream's windows end with its clause (12 R283). That one agent acts per
step is the model's choice (log 2). -/
def Obligations.StepFetchesClause : Prop :=
  ∀ (s0 : State) (t : Thread) (pa : Nat),
    let s := s0.applyUpsets
    let hdr : Word := BitVec.ofNat 64 (numAt s none pa 8)
    let n := (hdr.extractLsb' 56 4).toNat + 1
    s.issued.cur? = some t → t.clause = none → t.runs = true → CodeAt s (s.curSpace t) t.pc.toNat (8 + 8 * n) pa →
    let begins (s2 : State) : Prop := ∃ (s3 : State) (v : View) (ws : List Word), ws.length = n ∧
      (∀ k, k < n → ws.getD k 0 = BitVec.ofNat 64 (numAt s none (pa + 8 + 8 * k) 8)) ∧
      (s3 = s2 ∨ ∃ l m ps, s3 = cachesOf s2 l m ps) ∧
      Machine.step s0 = (match Machine.exec (.clauseHeader hdr)
          (s3.setCur { t with clause := some ⟨t.pc, hdr, ws, 0, false⟩, view := v }).clearPlan with
        | .next u => .next u.settle
        | r => r)
    (∀ c e, s.turn = .fibre c e → s.isCancelled c t = false → s.overBudget t = false →
      begins (s.issued.setCore c { s.issued.core c with inClause := some e })) ∧
    (∀ c, s.turn = .stream c → s.isCancelled c t = false → s.overBudget t = false → begins s) ∧
    (∀ k, s.turn = .mc k → (s.mc k).active = true → s.handlerDue k = false → begins s)

/-! ### Results -/

/-- 05 R125, R127, R133, 06 R140-R167: an integer, address, floating-point, conversion, packed or dot-product instruction on uniform
operands, of a fibre, a stream or a management core, under a true guard: its value, where it goes, and that nothing else changes.
The values of the floating-point operators (04 R95, R98-R101, R104-R107, R114): what bits stand for, exact sums and products, one
rounding in each mode, the least and greatest, classes, square roots, integral values, conversions and dot products. -/
def Obligations.ScalarResults : Prop :=
  (∀ (i : Instr) (sh : Shape) (s : State) (t : Thread), (intShape i = some sh ∨ fltShape i = some sh) → Acts s t sh.g → sh.plain s t = true →
     takesU t sh.d sh.w = true → ResultIs i s t sh.d sh.w (sh.val ((sh.opds s t).map Opd.u))) ∧
  ((∀ f ∈ [Fmt.f16, .bf16, .f32, .f64, .e4m3, .e5m2], ∀ v, v < 2 * signBit f →
     let k := v % signBit f
     let neg := decide (signBit f ≤ v)
     (k ≤ topOf f → ∃ m e, (fpOfFmt f).dec v = .fin neg m e ∧ (m : ℚ) * (2 : ℚ) ^ e = gridVal f k) ∧
     (topOf f < k → (fpOfFmt f).dec v = if f ≠ .e4m3 ∧ k = topOf f + 1 then .inf neg else .nan)) ∧
   (∀ (ty : FTy) (r : Rnd) (neg : Bool) (m : Nat) (e : Int),
     let f := ftyFmt ty
     fpOf ty = fpOfFmt f ∧ rnd ty r .nan = canonicalNaN f ∧ rnd ty r (.inf neg) = (if neg then signBit f else 0) + topOf f + 1 ∧
     (m = 0 → rnd ty r (.fin neg m e) = if neg then signBit f else 0) ∧
     (0 < m → ∃ k, RoundsOnGrid f r neg ((m : ℚ) * (2 : ℚ) ^ e) k ∧ rnd ty r (.fin neg m e) = ieeeBits f r neg k)) ∧
   (∀ f ∈ [Fmt.e4m3, .e5m2], ∀ (r : Rnd) (nosat neg : Bool) (m : Nat) (e : Int),
     let g := toFp8 (fpOfFmt f) r nosat
     let s := if neg then signBit f else 0
     g .nan = canonicalNaN f ∧
     g (.inf neg) = (if f = .e5m2 then s + 0x7C else if nosat then 0x7F else s + 0x7E) ∧ (m = 0 → g (.fin neg m e) = s) ∧
     (0 < m → ∃ k, RoundsOnGrid f r neg ((m : ℚ) * (2 : ℚ) ^ e) k ∧ g (.fin neg m e) = fp8Bits f nosat neg k)) ∧
   (∀ (rdn na nb : Bool) (ma mb : Nat) (ea eb : Int),
     let x : Machine.Num := .fin na ma ea
     let y : Machine.Num := .fin nb mb eb
     ratOf (x.add rdn y) = ratOf x + ratOf y ∧ (∃ n m e, x.add rdn y = .fin n m e ∧
       (ratOf x + ratOf y = 0 → n = if na = nb then na else rdn)) ∧
     ratOf (x.mul y) = ratOf x * ratOf y ∧ (∃ m e, x.mul y = .fin (na != nb) m e) ∧ ratOf x.neg = -ratOf x ∧ x.neg.isNeg = !na ∧
     (Machine.Num.inf na).add rdn y = .inf na ∧ y.add rdn (.inf na) = .inf na ∧
     (Machine.Num.inf na).add rdn (.inf nb) = (if na = nb then .inf na else .nan) ∧
     (Machine.Num.inf na).mul y = (if mb = 0 then .nan else .inf (na != nb)) ∧
     y.mul (.inf na) = (if mb = 0 then .nan else .inf (na != nb)) ∧ (Machine.Num.inf na).mul (.inf nb) = .inf (na != nb) ∧
     (Machine.Num.inf na).neg = .inf !na) ∧
   (∀ x : Machine.Num, (∀ rdn, x.add rdn .nan = .nan ∧ Machine.Num.nan.add rdn x = .nan) ∧ x.mul .nan = .nan ∧ Machine.Num.nan.mul x = .nan ∧
     Machine.Num.nan.neg = .nan) ∧
   (∀ (ty : FTy) (mx : Bool) (a b : Nat),
     let f := ftyFmt ty
     let nan (v : Nat) : Prop := topOf f + 1 < v % signBit f
     let r := (fpOf ty).minMax mx a b
     a < 2 * signBit f → b < 2 * signBit f →
     (nan a → nan b → r = canonicalNaN f) ∧ (nan a → ¬ nan b → r = b) ∧ (¬ nan a → nan b → r = a) ∧
     (¬ nan a → ¬ nan b → r = if mx then (if orderKey f a < orderKey f b then b else a)
       else if orderKey f a < orderKey f b then a else b)) ∧
   (∀ (ty : FTy) (v : Nat),
     let f := ftyFmt ty
     let k := v % signBit f
     let pos := decide (v < signBit f)
     let half := 2 ^ (fmtFacts f).2.1
     v < 2 * signBit f → fclass (fpOf ty) v =
       if topOf f + 1 < k then (if half / 2 ≤ k % half then 512 else 256)
       else if k = topOf f + 1 then (if pos then 128 else 1)
       else if half ≤ k then (if pos then 64 else 2)
       else if 0 < k then (if pos then 32 else 4)
       else if pos then 16 else 8) ∧
   (∀ (ty : FTy) (r : Rnd) (v : Nat),
     let f := ftyFmt ty
     let w := (fpOf ty).sqrt r v
     let y := gridVal f
     v < 2 * signBit f →
     (topOf f + 1 < v % signBit f ∨ (signBit f < v) → w = canonicalNaN f) ∧ (v = 0 ∨ v = signBit f ∨ v = topOf f + 1 → w = v) ∧
     (0 < v → v ≤ topOf f → w ≤ topOf f ∧ match r with
       | .rne => (0 < w → (y (w - 1) + y w) ^ 2 ≤ 4 * y v) ∧ 4 * y v ≤ (y w + y (w + 1)) ^ 2
       | .rup => y v ≤ y w ^ 2 ∧ (0 < w → y (w - 1) ^ 2 < y v)
       | _ => y w ^ 2 ≤ y v ∧ y v < y (w + 1) ^ 2)) ∧
   (∀ (ty : FTy) (r : Rnd) (v : Nat),
     let f := ftyFmt ty
     v < 2 * signBit f →
     (topOf f + 1 < v % signBit f → (fpOf ty).rnd r v = canonicalNaN f) ∧ (v % signBit f = topOf f + 1 → (fpOf ty).rnd r v = v) ∧
     (v % signBit f ≤ topOf f → ∃ k, RoundsTo r (ratOf (num ty v)) k ∧ ratOf (num ty ((fpOf ty).rnd r v)) = k ∧
       (num ty ((fpOf ty).rnd r v)).isNeg = decide (signBit f ≤ v) ∧ (fpOf ty).rnd r v % signBit f ≤ topOf f)) ∧
   (∀ (ty : FTy) (d : Fmt) (r : Rnd) (v : Nat), d.isInt = true →
     let lo : Int := if d.signed then -(2 ^ (d.bits - 1)) else 0
     let hi : Int := if d.signed then 2 ^ (d.bits - 1) - 1 else 2 ^ d.bits - 1
     (num ty v = .nan → ftoi (fpOf ty) d r v = 0) ∧ (∀ n, num ty v = .inf n → ftoi (fpOf ty) d r v = if n then lo else hi) ∧
     (∀ n m e, num ty v = .fin n m e → ∃ k, RoundsTo r (ratOf (num ty v)) k ∧
       ftoi (fpOf ty) d r v = if k < lo then lo else if hi < k then hi else k) ∧
     ∀ x : Int, placeFmt d (x % (2 ^ d.bits : Nat)).toNat = placed d x) ∧
   (∀ (d c : Fmt) (r : Rnd) (ns : Bool) (w : Word),
     (d.isInt = true → c.isInt = true → fcvt d c r ns w = placed d (readInt c.bits c.signed w.toNat)) ∧
     (d.isFp8 = true → fcvt d c r ns w = BitVec.ofNat 64 (toFp8 (fpOfFmt d) r ns ((fpOfFmt c).dec (w.toNat % 2 ^ c.bits)))) ∧
     ∀ ty, d = ftyFmt ty → fcvt d c r ns w = BitVec.ofNat 64 (rnd ty r ((fpOfFmt c).dec (w.toNat % 2 ^ c.bits)))) ∧
   (∀ (r : Rnd) (x y z : Word),
     let part (n j : Nat) (w : Word) : Nat := w.toNat / 2 ^ (n * j) % 2 ^ n
     (∀ a ∈ [Fmt.i8, .n8], ∀ b ∈ [Fmt.i8, .n8], dot4V a b r x y z = (BitVec.ofInt 32 (z.toNat +
       ([0, 1, 2, 3].map fun j => readInt 8 a.signed (part 8 j x) * readInt 8 b.signed (part 8 j y)).sum)).setWidth 64) ∧
     (∀ a ∈ [Fmt.e4m3, .e5m2], ∀ b ∈ [Fmt.e4m3, .e5m2], ∃ v, dot4V a b r x y z = BitVec.ofNat 64 v ∧
       RoundedSum r (num .f32 (part 32 0 z) :: [0, 1, 2, 3].map fun j =>
         ((fpOfFmt a).dec (part 8 j x)).mul ((fpOfFmt b).dec (part 8 j y))) v) ∧
     ∀ ty ∈ [FTy.f16, .bf16], ∃ v, dot2hV ty r x y z = BitVec.ofNat 64 v ∧
       RoundedSum r (num .f32 (part 32 0 z) :: [0, 1].map fun j => (num ty (part 16 j x)).mul (num ty (part 16 j y))) v))

/-- 02 R43, 06 R143: in a fibre with lanes the same instructions give each lane under the guard the value of its own operands, and
the other lanes keep what register and latch held. -/
def Obligations.LaneResults : Prop :=
  ∀ (i : Instr) (sh : Shape) (s : State) (c e : Nat) (t : Thread) (ms : List Nat),
    (intShape i = some sh ∨ (fltShape i = some sh ∧ ∀ o, i = .fcvt o → o.ty ≠ .q4)) →
    OnLanes s c e t → GuardedLanes t sh.g ms → (sh.opds s t).all Opd.clean = true →
    LaneResult i s t sh.d sh.w ms fun p => sh.val ((sh.opds s t).map fun x => x.val p)

/-- 06 R150, 02 R41: SEL takes its first source where the selector is true and its second elsewhere: uniform, and lane by lane. -/
def Obligations.SelectResults : Prop :=
  ∀ (o : SelO) (s : State) (t : Thread),
    let x := t.src s.draw o.a o.ty.is64
    let y := t.src s.draw o.b o.ty.is64
    let yes (p : Nat) : Bool := t.predAt (t.pred o.p.toNat) p != o.neg
    (Acts s t o.g → x.isU = true → y.isU = true → x.clean = true → y.clean = true → takesU t o.d (RW.ofTy o.ty) = true →
      ∀ b, t.pred o.p.toNat = boolPred b →
        ResultIs (.sel o) s t o.d (RW.ofTy o.ty) (if b != o.neg then x.u else y.u)) ∧
    ∀ c e ms, OnLanes s c e t → GuardedLanes t o.g ms → x.clean = true → y.clean = true →
      LaneResult (.sel o) s t o.d (RW.ofTy o.ty) ms fun p => if yes p then x.val p else y.val p

/-- 02 R41, R51, 06 R140: on a range fibre IADD, ISUB, and IMUL and SHL by a uniform factor keep affine operands affine: the fibre
gets no lanes, the destination is A (or U) and reads at every index as the operation on that index's operands; at 64 bits while the
strides stay in the signed 32-bit range. A floating-point, conversion or packed operation on an operand that is not uniform gives
the fibre lanes for its whole box, one for each index in order, and each lane its own result. Where the registers for the lanes are
not to be had the word waits (02 R54). -/
def Obligations.RangeFibreResults : Prop :=
  (∀ (i : Instr) (o : RR) (s : State) (c e : Nat) (t : Thread) (sh : Shape) (sx sy sz : Int),
     affRR i = some o → intShape i = some sh → OnRange s c e t → t.guard o.g = .t → o.d.nwb = false →
     (sh.opds s t).all Opd.clean = true → takesU t o.d (RW.ofTy o.ty) = true →
     (let x := (sh.opds s t).getD 0 (Opd.ofU 0)
      let y := (sh.opds s t).getD 1 (Opd.ofU 0)
      affStrides i x y = some (sx, sy, sz) ∧ ((∃ u, i = .imul u ∨ i = .shl u) → y.isU = true)) →
     (o.ty.is64 = true → strideOk true sx = true ∧ strideOk true sy = true ∧ strideOk true sz = true) →
     ∃ t1, Machine.exec i s = .next (s.setCur t1.advance) ∧ OnlyResult t t1 o.d (RW.ofTy o.ty) ∧ t1.expanded = false ∧
       (∀ l po, t1.reg o.d.n.toNat ≠ .e l po) ∧
       ∀ p, p < t.box.count →
         (t1.src s.draw (.reg o.d.n) o.ty.is64).val p = cutTo (RW.ofTy o.ty) (sh.val ((sh.opds s t).map fun x => x.val p))) ∧
  (∀ (i : Instr) (sh : Shape) (s : State) (c e : Nat) (t : Thread),
     fltShape i = some sh → (∀ o, i = .fcvt o → o.ty ≠ .q4) → OnRange s c e t → t.box.count ≤ s.emax t → t.setBox t.box = t →
     t.guard sh.g = .t → (sh.opds s t).all Opd.clean = true → (∃ x ∈ sh.opds s t, x.isU = false) →
     ∃ (t0 : Thread) (r : Opd), Grown s c e t t0 ∧ r.form = .e ∧ r.clean = true ∧
       (∀ p, p < t.box.count → r.val p = sh.val ((sh.opds s t).map fun x => x.val p)) ∧
       (let t1 := t0.putResult s.draw sh.d sh.w none r
        LaneValues s t0 t1 sh.d sh.w t0.active r.val ∧ Machine.exec i s = .next (s.orWait (s.setCur t1.advance))))

/-- 06 R147, R149: BREV, CLZ, POPC, BFX and BFI bit by bit, the position cut to the width and the length to the bits that are left
above it. 04 R98, R99: discarding k low bits of a magnitude in each rounding mode: the result is one of the two neighbours; to
nearest with ties to even, toward zero, up or down as the mode says. A value that the format has is unchanged: an encoding other
than a NaN's decodes and encodes back to itself in every mode. -/
def Obligations.OperatorValues : Prop :=
  (∀ (w sg : Bool) (x y spec : Word),
     let n := bitsOf w
     let p := min (spec.toNat % 2 ^ 8) n
     let l := min (spec.toNat / 2 ^ 8 % 2 ^ 8) (n - p)
     (∀ k, k < n → (brevV w x).getLsbD k = x.getLsbD (n - 1 - k)) ∧
     (let z := (clzV w x).toNat
      z ≤ n ∧ (z < n → x.getLsbD (n - 1 - z) = true) ∧ ∀ k, k < z → x.getLsbD (n - 1 - k) = false) ∧
     (popcV w x).toNat = ((List.range n).filter fun k => x.getLsbD k).length ∧
     (∀ k, k < n → (bfxV w sg x spec).getLsbD k =
       if k < l then x.getLsbD (p + k) else (sg && decide (0 < l) && x.getLsbD (p + l - 1))) ∧
     (∀ k, k < n → (bfiV w x y spec).getLsbD k = if p ≤ k ∧ k < p + l then y.getLsbD (k - p) else x.getLsbD k) ∧
     ∀ k, n ≤ k → (bfxV w sg x spec).getLsbD k = false ∧ (bfiV w x y spec).getLsbD k = false) ∧
  (∀ (neg : Bool) (m k : Nat),
     let q := m / 2 ^ k
     let v (r : Rnd) : Nat := roundShift r neg m k
     (m % 2 ^ k = 0 → ∀ r, v r = q) ∧
     v .rtz = q ∧
     (v .rup = if neg = false ∧ m % 2 ^ k ≠ 0 then q + 1 else q) ∧
     (v .rdn = if neg = true ∧ m % 2 ^ k ≠ 0 then q + 1 else q) ∧
     (let d : Int := (v .rne : Int) * 2 ^ k - m
      2 * d.natAbs ≤ 2 ^ k ∧ (2 * d.natAbs = 2 ^ k → k ≠ 0 → v .rne % 2 = 0))) ∧
  (∀ (ty : FTy) (r : Rnd) (v : Nat),
     let f := fpOf ty
     v < 2 ^ f.width → f.dec v ≠ .nan → f.enc r (f.dec v) = v)

/-! ### Predicates -/

/-- 06 R151, R158, 07 R171, 02 R43, R45, R46: compares and predicate logic of an agent whose operands are uniform and whose source
predicates are T or F give T or F, and nothing else changes; in a fibre with lanes each lane under the guard takes the bit of its
own operands, and the others keep theirs. -/
def Obligations.PredicateResults : Prop :=
  (∀ (i : Instr) (sh : PShape) (s : State) (t : Thread) (bs : List Bool), predShape i = some sh → Acts s t sh.g →
     (sh.opds s t).all (fun x => x.isU && x.clean) = true →
     (sh.pins.map fun x => t.pred x.1.toNat) = bs.map boolPred → bs.length = sh.pins.length →
     Machine.exec i s = .next (s.setCur (t.setPred sh.n (boolPred (sh.val ((sh.opds s t).map Opd.u)
       (List.zipWith (fun b x => b != x.2) bs sh.pins)))).advance)) ∧
  (∀ (i : Instr) (sh : PShape) (s : State) (c e : Nat) (t : Thread) (ms : List Nat), predShape i = some sh →
     OnLanes s c e t → coordsOk t → GuardedLanes t sh.g ms → (sh.opds s t).all Opd.clean = true →
     ∃ t1, Machine.exec i s = .next (s.setCur t1.advance) ∧ OnlyPred t t1 sh.n ∧
       ∀ p ∈ t.active, t1.predAt (t1.pred sh.n) p
         = if p ∈ ms then sh.val ((sh.opds s t).map fun x => x.val p) (sh.bits t p) else t.predAt (t.pred sh.n) p)

/-- 02 R45, R46, 07 R171: an order compare of an affine value along one axis, none of whose values leaves its type, against a
uniform one gives a range fibre a cut (or T or F), right at every index; so too with the operands the other way round. Predicate
logic on a range fibre gives a T, F or cut right at every index wherever one is, the fibre going on without lanes; where none is,
the fibre takes lanes for its whole box and each lane its own bit. The expansion waits for its registers where they are not to be
had (R54). -/
def Obligations.CutResults : Prop :=
  (∀ (s : State) (c e : Nat) (t : Thread) (a : Axis) (b : Word) (st : Int), OnRange s c e t → coordsOk t →
     (∀ o : CmpO, t.guard o.g = .t → o.rel ≠ .eq → o.rel ≠ .ne →
       let x := t.src s.draw o.a o.ty.is64
       let y := t.src s.draw o.b o.ty.is64
       let rd := typedOf o.ty.is64 o.ty.signed
       x.clean = true → y.clean = true → EndsInRange t a o.ty.is64 o.ty.signed b st →
       (AlongAxis x a b st ∧ y.isU = true) ∨ (AlongAxis y a b st ∧ x.isU = true) →
       CutIs (.icmp o) s t o.p.toNat fun p => Rel.holds o.rel (rd (x.val p)) (rd (y.val p))) ∧
     (∀ o : CmpIO, t.guard o.g = .t → o.rel ≠ .eq → o.rel ≠ .ne →
       let x := t.src s.draw o.a o.w
       x.clean = true → EndsInRange t a o.w o.s b st → AlongAxis x a b st →
       CutIs (.icmpImm o) s t o.p.toNat fun p => Rel.holds o.rel (typedOf o.w o.s (x.val p)) (immInt o.s o.imm))) ∧
  (∀ (i : Instr) (sh : PShape) (s : State) (c e : Nat) (t : Thread), predShape i = some sh → sh.ins = [] →
     OnRange s c e t → t.guard sh.g = .t → (∀ x ∈ sh.pins, (t.pred x.1.toNat).isM = false) →
     ∃ q : Pred, (∀ p, p < t.box.count → t.predAt q p = sh.val [] (sh.bits t p)) ∧
       (∀ q' : Pred, q'.isM = false → (∀ p, p < t.box.count → t.predAt q' p = sh.val [] (sh.bits t p)) → q.isM = false) ∧
       (q.isM = false → Machine.exec i s = .next (s.setCur (t.setPred sh.n q).advance)) ∧
       (q.isM = true → t.box.count ≤ s.emax t → t.setBox t.box = t →
         ∃ (t0 : Thread) (q0 : Pred), Grown s c e t t0 ∧ (∀ p, p < t.box.count → t0.predAt q0 p = sh.val [] (sh.bits t p)) ∧
           Machine.exec i s = .next (s.orWait (s.setCur (t0.setPred sh.n q0).advance))))

/-! ### Reading and reshaping the fibre -/

/-- 07 R173-R175: IDX: the grid's extents, the tile's lowest corner and the tile's number are uniform; the linear number is x + X·(y
+ Y·z) at every index of a fibre whose box lies in the grid, affine while X·Y is a stride. BOX writes a bound of the fibre's box,
its index count or its flags; FORM writes a register's tag, or a predicate's form or threshold, never a value. -/
def Obligations.GeometryResults : Prop :=
  (∀ (o : SelOut) (s : State) (t : Thread) (l : Launch), Acts s t o.g → s.launch? t.launch = some l →
     (o.sel ≠ 0#3 → takesU t o.d (.w32 false) = true →
       ResultIs (.idx o) s t o.d (.w32 false) (BitVec.ofNat 32 (idxValueOf s t o.sel.toNat l)).toNat) ∧
     (o.sel = 0#3 → t.kind = .fibre → o.d.nwb = false → t.places ≠ [] → l.lr.gx * l.lr.gy < 2 ^ 31 →
       (∀ p ∈ t.places, (t.idxAt p).x < l.lr.gx ∧ (t.idxAt p).y < l.lr.gy ∧ (t.idxAt p).z < l.lr.gz) →
       ∃ t1, Machine.exec (.idx o) s = .next (s.setCur t1.advance) ∧ OnlyResult t t1 o.d .w64 ∧
         (∀ e po, t1.reg o.d.n.toNat ≠ .e e po) ∧
         ∀ p ∈ t.places, (t1.src s.draw (.reg o.d.n) true).val p =
           BitVec.ofNat 64 ((t.idxAt p).x + l.lr.gx * ((t.idxAt p).y + l.lr.gy * (t.idxAt p).z)))) ∧
  (∀ (s : State) (t : Thread),
     (∀ o : SelOut, Acts s t o.g → takesU t o.d (if o.sel = 6#3 then .w64 else .w32 false) = true →
       ResultIs (.box o) s t o.d (if o.sel = 6#3 then .w64 else .w32 false)
         (if o.sel = 6#3 then BitVec.ofNat 64 (boxValueOf s t 6) else (BitVec.ofNat 32 (boxValueOf s t o.sel.toNat)).toNat)) ∧
     (∀ o : FormO, Acts s t o.g → takesU t o.d (.w32 false) = true →
       ResultIs (.form o) s t o.d (.w32 false) (BitVec.ofNat 64 (formCode t o.what o.n.toNat))))

/-- 07 R176, R178, 02 R51: EXPAND gives a range fibre lanes for its whole box in linear-number order, and makes a named register E
with the values it had; a fibre with lanes, and an agent that is no fibre, it leaves as they are. PEEL of a uniform value writes T;
in a fibre with lanes, the lanes that hold the lowest lane's value peel off, with T and the uniform value, and the rest keep theirs,
with F. Either waits where the registers or the entry are not to be had (02 R54). -/
def Obligations.ExpandAndPeel : Prop :=
  (∀ (o : ExpandO) (s : State) (t : Thread), t.guard o.g = .t →
     let named (t0 : Thread) : Thread := match o.r with
       | none => t0
       | some n => t0.toLanes n.toNat
     (∀ c e, OnRange s c e t → t.box.count ≤ s.emax t → t.setBox t.box = t →
       ∃ t0 : Thread, Grown s c e t t0 ∧ Machine.exec (.expand o) s = .next (s.orWait (s.setCur (named t0).advance)) ∧
         ∀ n, o.r = some n → (∃ l po, (named t0).reg n.toNat = .e l po) ∧ named t0 = { t0 with regs := (named t0).regs } ∧
           ∀ p, p < t.box.count → ((named t0).read32 n.toNat).val p = (t.read32 n.toNat).val p) ∧
     (s.cur? = some t → t.kind ≠ .fibre → Machine.exec (.expand o) s = .next (s.setCur t.advance)) ∧
     (∀ c e, OnLanes s c e t → Machine.exec (.expand o) s = .next (s.orWait (s.setCur (named t).advance)) ∧
       ∀ n, o.r = some n → (∃ l po, (named t).reg n.toNat = .e l po) ∧ named t = { t with regs := (named t).regs } ∧
         ∀ p ∈ t.active, ((named t).read32 n.toNat).val p = (t.read32 n.toNat).val p)) ∧
  (∀ (o : PeelO) (s : State) (c e : Nat) (t : Thread),
     let w := o.ty.is64
     let x := t.src s.draw (.reg o.a) w
     t.guard o.g = .t → x.clean = true →
     (s.cur? = some t → x.isU = true → Machine.exec (.peel o) s = .next (s.setCur (t.setPred o.p.toNat .t).advance)) ∧
     (OnLanes s c e t → x.isU = false → ∀ l0, t.active ≠ [] → t.low = l0 →
       let same := t.active.filter fun l => x.val l = x.val l0
       (same = t.active → ∃ t1, GoesOnWith (.peel o) s t1 ∧ t1.pred o.p.toNat = .t ∧ (t1.src s.draw (.reg o.a) w).isU = true ∧
         (t1.src s.draw (.reg o.a) w).u = x.val l0) ∧
       (same ≠ t.active → HasEntry s c →
         let low := ((lanesIn t same true).putPeeled o none (x.val l0)).setPred o.p.toNat .t
         let other := (lanesIn t same false).setPred o.p.toNat .f
         DividesInto (.peel o) s c e low.advance other.advance true ∧ SharesLanes t low other same ∧
         low.pred o.p.toNat = .t ∧ other.pred o.p.toNat = .f ∧ (low.src s.draw (.reg o.a) w).isU = true ∧
         (low.src s.draw (.reg o.a) w).u = x.val l0 ∧ other.regs = t.regs)))

/-- 07 R177, 02 R47-R49: SPLIT on a cut divides the box, on disagreeing lanes the lanes, the part of the lowest linear number
keeping the entry and both going on at the next word; on any other predicate it does nothing. -/
def Obligations.SplitEffects : Prop :=
  ∀ (o : SplitO) (s : State) (c e : Nat) (t : Thread),
    let q := t.simplify (t.psrc o.p o.neg)
    (s.cur? = some t → (q = .t ∨ q = .f) → Machine.exec (.split o) s = .next (s.setCur t.advance)) ∧
    (∀ a thr ge, OnRange s c e t → HasEntry s c → q = .c a thr ge →
      let low := belowCut t a thr
      let other := aboveCut t a thr
      DividesInto (.split o) s c e low.advance other.advance true ∧ SharesBox t low other a thr ∧
        low.pc = t.pc ∧ other.pc = t.pc ∧ low.regs = t.regs ∧ other.regs = t.regs) ∧
    (∀ ls, OnLanes s c e t → HasEntry s c → q = .m ls →
      let low := lanesIn t ls (ls.contains t.low)
      let other := lanesIn t ls !(ls.contains t.low)
      DividesInto (.split o) s c e low.advance other.advance true ∧
        SharesLanes t low other (t.active.filter fun l => decide (l ∈ ls) == decide (t.low ∈ ls)) ∧
        low.pc = t.pc ∧ other.pc = t.pc ∧ low.regs = t.regs ∧ other.regs = t.regs)

/-- 07 R179, R180: FNEW by a fibre of one index: a new READY fibre over the box clipped to the grid, at the entry read, with the
argument in its first pair, k0 to k23 F, an empty return stack, in no set and of no tile; an empty box creates nothing. -/
def Obligations.FnewCreatesFibre : Prop :=
  ∀ (o : FnewO) (s : State) (c e : Nat) (t : Thread), OnRange s c e t → t.box.count = 1 → t.guard o.g = .t → t.why = .none →
    fnewBads o s.draw t [0] = [] → (s.core c).roomFor (8 * (o.win.toNat + 1)) = true →
    let rd (k : Nat) : Nat := ((t.read32 (o.b.toNat + k)).val 0).toNat
    let b := (Box.mk (rd 0) (rd 1) (rd 2) (rd 3) (rd 4) (rd 5)).inter (s.grid t)
    (b.empty = true → Machine.exec (.fnew o) s = .next (s.setCur t.advance)) ∧
    (b.empty = false → Completes (.fnew o) s fun u => ∃ e' f, e' ≠ e ∧ s.fibre? c e' = none ∧ u.fibre? c e' = some f ∧
      u.fibre? c e = some t.advance ∧ f.box = b ∧ f.box0 = b ∧ f.pc = (t.src s.draw o.a true).val 0 ∧ f.st = .ready ∧
      f.clause = none ∧ f.window = 8 * (o.win.toNat + 1) ∧ (f.read64 0).u = (t.read64 (o.b.toNat + 6)).val 0 ∧
      (∀ n, f.pred n = .f) ∧ f.rs = [] ∧ f.slot = [] ∧ f.sets = [] ∧ f.inst = none ∧ f.launch = t.launch ∧ f.wdog = 0 ∧
      f.expanded = false ∧ u.mem = s.mem ∧ ∀ k, k ≠ e → k ≠ e' → u.fibre? c k = s.fibre? c k)

/-- 02 R69, R71, 07 R182, R183: RED adds the values of the indices one at a time in ascending order, from the register's value or,
with .set, from zero, places the sum, and counts one in the sequence number; the agent goes on at the next word, having made
progress. RDSUM of a range fibre waits until the sequence number has reached every index's expected one; then its destination takes
the register's value, uniform. -/
def Obligations.ReductionRegisters : Prop :=
  (∀ (o : RedO) (s : State) (c e : Nat) (t : Thread), OnFibre s c e t → t.guard o.g = .t → t.why = .none →
     (t.src s.draw o.a (o.ty.n = 2)).clean = true →
     Completes (.red o) s fun u =>
       let r := sregOf s c t.ctx o.s.toNat
       let start : Word := if o.set then 0 else if o.ty.n = 2 then r.value else (r.value.setWidth 32).setWidth 64
       let sum := (sortAsc t.places).foldl (fun acc p => redStep o.ty acc ((t.src s.draw o.a (o.ty.n = 2)).val p)) start
       (sregOf u c t.ctx o.s.toNat).value = redHeld o.ty sum ∧ (sregOf u c t.ctx o.s.toNat).seq = r.seq + 1 ∧
       (∀ k, k ≠ o.s.toNat → sregOf u c t.ctx k = sregOf s c t.ctx k) ∧
       u.fibre? c e = some t.progressed.advance ∧ u.mem = s.mem) ∧
  (∀ (o : RdsumO) (s : State) (c e : Nat) (t : Thread), OnRange s c e t → t.guard o.g = .t →
     let exp := t.src s.draw o.a false
     let r := sregOf s c t.ctx o.s.toNat
     let w := rwOf (decide (o.ty.n = 2))
     exp.clean = true → takesU t o.d w = true → s.roomy = true → rising (s.core c).fibres = true →
     ((∃ p, p < t.box.count ∧ 2 ^ 31 ≤ (r.seq - (exp.val p).setWidth 32).toNat) →
       Machine.exec (.rdsum o) s = .next (s.setCur { t with st := .wait, why := .rdsum, since := waitFrom s t })) ∧
     ((∀ p, p < t.box.count → (r.seq - (exp.val p).setWidth 32).toNat < 2 ^ 31) →
       let t0 := t.progressed.gain r.hb
       ∃ t1, Machine.exec (.rdsum o) s = .next (s.setCur t1.advance) ∧
         Holds t0 t1 o.d w (if o.ty.n = 2 then r.value else (r.value.setWidth 32).setWidth 64) ∧ OnlyResult t0 t1 o.d w))

/-- 07 R185: SHFL gives each lane under the guard the value of its source lane of the same block, where that is an active lane of
the fibre, and its own otherwise; values are read before any lane is written. A management core is its own source. -/
def Obligations.ShuffleResults : Prop :=
  ∀ (o : ShflO) (s : State) (t : Thread),
    let x := t.src s.draw o.a false
    let y : Opd := match o.y with
      | .src b => t.src s.draw b false
      | .imm n => Opd.ofU (n.setWidth 64)
    x.clean = true → y.clean = true →
    (∀ k, OnMc s k t → t.guard o.g = .t → x.isU = true → ResultIs (.shfl o) s t o.d (.w32 false) x.u) ∧
    (∀ c e ms, OnLanes s c e t → GuardedLanes t o.g ms → LaneResult (.shfl o) s t o.d (.w32 false) ms fun p =>
      match shflSource o.mode.toNat (p % 32) ((y.val p).toNat) with
      | some l => if p / 32 * 32 + l ∈ t.active then x.val (p / 32 * 32 + l) else x.val p
      | none => x.val p)

/-! ### Sets and votes -/

/-- 02 R63, 07 R170, R172, R181: SJOIN makes the fibre a member, creating the set where it is absent and fewer than 256 exist, and
says so in its predicate; SLEAVE of a set that it does not belong to, and SBAR on one, change nothing but the place. A vote of a
fibre outside the set completes at once with totals of zero, and a management core votes alone. -/
def Obligations.SetMembership : Prop :=
  (∀ (s : State) (c e : Nat) (t : Thread) (kv : Word) (key : Src), OnFibre s c e t →
     (t.src s.draw key false).form = .u kv → (t.src s.draw key false).clean = true →
     (∀ (o : SjoinO) (k : Nat), o.key = key → setId t (kv.toNat % 2 ^ 16) = some k →
       (k ∈ t.sets → NextIs (.sjoin o) s (t.setPred o.p.toNat .t).advance) ∧
       (k ∉ t.sets → Tab.find? (s.core c).sets k = none → 256 ≤ (s.core c).sets.length →
         NextIs (.sjoin o) s (t.setPred o.p.toNat .f).advance) ∧
       (k ∉ t.sets → Tab.find? (s.core c).sets k = none → (s.core c).sets.length < 256 →
         Completes (.sjoin o) s fun u =>
           u.fibre? c e = some ({ t with sets := insertAsc k t.sets }.setPred o.p.toNat .t).advance ∧
           Tab.find? (u.core c).sets k = some ⟨t.ctx, 0, 0⟩ ∧ (∀ j, j ≠ e → u.fibre? c j = s.fibre? c j)) ∧
       (∀ st, k ∉ t.sets → Tab.find? (s.core c).sets k = some st →
         NextIs (.sjoin o) s ({ t with sets := insertAsc k t.sets }.setPred o.p.toNat .t).advance)) ∧
     ((∀ k, setId t (kv.toNat % 2 ^ 16) = some k → k ∉ t.sets) →
       NextIs (.sleave ⟨key⟩) s t.advance ∧ NextIs (.sbar ⟨key⟩) s t.progressed.advance) ∧
     (∀ k st, setId t (kv.toNat % 2 ^ 16) = some k → k ∈ t.sets → Tab.find? (s.core c).sets k = some st → st.arrived = 0 →
       (∃ j v, j ≠ e ∧ s.fibre? c j = some v ∧ k ∈ v.sets ∧ 0 < v.count) →
       NextIs (.sleave ⟨key⟩) s { t with sets := t.sets.filter (· ≠ k) }.advance)) ∧
  (∀ (s : State) (t : Thread) (kv : Word) (key : Src), (t.src s.draw key false).form = .u kv →
     (t.src s.draw key false).clean = true →
     (∀ c e, OnFibre s c e t → (∀ k, setId t (kv.toNat % 2 ^ 16) = some k → k ∉ t.sets) →
       (∀ o : VoteO, o.key = key →
         NextIs (.pany o) s (t.progressed.setPred o.p.toNat .f).advance ∧
         NextIs (.pall o) s (t.progressed.setPred o.p.toNat .t).advance) ∧
       (∀ o : PcntO, o.key = key → ∃ t1, NextIs (.pcnt o) s t1.advance ∧ Holds t.progressed t1 o.d .w64 0)) ∧
     (∀ j, OnMc s j t →
       (∀ o : VoteO, o.key = key →
         let b := t.predAt (t.psrc o.a o.na) 0
         NextIs (.pany o) s (t.setPred o.p.toNat (boolPred b)).advance ∧
         NextIs (.pall o) s (t.setPred o.p.toNat (boolPred b)).advance) ∧
       (∀ o : PcntO, o.key = key → ∃ t1, NextIs (.pcnt o) s t1.advance ∧
         Holds t t1 o.d .w64 (if t.predAt (t.psrc o.a o.na) 0 then 1 else 0))))

/-- 02 R64, R65, 07 R172: a fibre that arrives at the barrier of its set while members are missing waits, and the counts have grown.
With the last member's arrival every waiting member goes on at its next word, having acquired what each of them had observed, votes
with their result from the totals, and the counts return to zero; no other fibre changes. A fibre alone in its core completes its
set's barrier and votes at once. -/
def Obligations.BarrierArrival : Prop :=
  ∀ (s : State) (c e k : Nat) (t : Thread) (st : SetSt) (kv : Word) (key : Src), OnFibre s c e t →
    (t.src s.draw key false).form = .u kv → (t.src s.draw key false).clean = true →
    setId t (kv.toNat % 2 ^ 16) = some k → k ∈ t.sets → Tab.find? (s.core c).sets k = some st →
    (rising (s.core c).fibres = true → st.arrived + t.count < (s.core c).members k →
      Completes (.sbar ⟨key⟩) s fun u =>
        u.fibre? c e = some { t.progressed with st := .wait, why := .sbar k, since := waitFrom s t } ∧
        Tab.find? (u.core c).sets k = some ⟨st.ctx, st.arrived + t.count, st.trues⟩ ∧
        ∀ j, j ≠ e → u.fibre? c j = s.fibre? c j) ∧
    (rising (s.core c).fibres = true → st.arrived + t.count = (s.core c).members k → 0 < t.count →
      (∀ j, Tab.find? (s.core c).swaps j = none) → (∀ j v, s.fibre? c j = some v → v.under = v) →
      let waits (j : Nat) (v : Thread) : Prop := s.fibre? c j = some v ∧ j ≠ e ∧ k ∈ v.sets ∧ v.atBarrier k = true
      Completes (.sbar ⟨key⟩) s fun u =>
        Tab.find? (u.core c).sets k = some ⟨st.ctx, 0, 0⟩ ∧
        (∀ j v, waits j v ∨ (j = e ∧ v = t) → ∃ v1, u.fibre? c j = some v1 ∧ v1.st = .ready ∧ v1.why = .none ∧
          v1.pc = v.advance.pc ∧ v1.clause = v.advance.clause ∧
          (∀ n, n ∈ s.hbAll t ∨ (∃ j' v', waits j' v' ∧ n ∈ s.hbAll v') → n ∈ v1.view.hb) ∧
          (j = e ∨ v.why = .sbar k → v1.regs = v.regs ∧ v1.preds = v.preds) ∧
          (∀ o : VoteO, j ≠ e → v.why = .vote k (.pany o) → v1.pred o.p.toNat = boolPred (decide (0 < st.trues))) ∧
          (∀ o : VoteO, j ≠ e → v.why = .vote k (.pall o) →
            v1.pred o.p.toNat = boolPred (decide (st.trues = (s.core c).members k)))) ∧
        ∀ j v, s.fibre? c j = some v → j ≠ e → ¬ waits j v → u.fibre? c j = some v) ∧
    (st.arrived = 0 → st.trues = 0 → 0 < t.count → (s.core c).fibres = [(e, t)] → Tab.find? (s.core c).swaps e = none →
      (Completes (.sbar ⟨key⟩) s fun u => ∃ t1, u.fibre? c e = some t1 ∧ t1.st = .ready ∧ t1.pc = t.advance.pc ∧
        t1.regs = t.regs ∧ Tab.find? (u.core c).sets k = some ⟨st.ctx, 0, 0⟩) ∧
      (∀ o : VoteO, o.key = key →
        let n := (t.places.filter fun p => t.predAt (t.psrc o.a o.na) p).length
        (Completes (.pany o) s fun u => ∃ t1, u.fibre? c e = some t1 ∧ t1.st = .ready ∧ t1.pc = t.advance.pc ∧
          t1.pred o.p.toNat = boolPred (decide (0 < n)) ∧ Tab.find? (u.core c).sets k = some ⟨st.ctx, 0, 0⟩) ∧
        (Completes (.pall o) s fun u => ∃ t1, u.fibre? c e = some t1 ∧ t1.st = .ready ∧ t1.pc = t.advance.pc ∧
          t1.pred o.p.toNat = boolPred (decide (n = t.count)) ∧ Tab.find? (u.core c).sets k = some ⟨st.ctx, 0, 0⟩)) ∧
      (∀ o : PcntO, o.key = key → o.d.nwb = false →
        let n := (t.places.filter fun p => t.predAt (t.psrc o.a o.na) p).length
        Completes (.pcnt o) s fun u => ∃ t1, u.fibre? c e = some t1 ∧ t1.st = .ready ∧ t1.pc = t.advance.pc ∧
          t1.reg o.d.n.toNat = .u (BitVec.ofNat 64 n) false ∧ t1.reg (o.d.n.toNat + 1) = .p))

/-! ### Guards -/

/-- 02 R43, R48, 06 R143: under a false guard an instruction with a register or predicate result writes nothing and passes its word;
so do loads, stores, atomics, reductions and the reshaping instructions. A guard that is a cut splits the range fibre at the
instruction: the part of the lowest linear number keeps the entry; the part where the guard is true executes the instruction, at
once if it is that part, and the other passes the word, a RED of either part counting as one (07 R182). That the half that passes a
RED counts it too is R182's 'each half counts as one RED'. That a word without a destination under guard F only passes, so that a
RED there is not counted, is the model's reading (log 74): R182's pseudocode counts outside its loop over the guarded indices and
says that every RED counts once. -/
def Obligations.GuardsSkipAndSplit : Prop :=
  (∀ (i : Instr) (g : Guard) (s : State) (t : Thread), actsUnder i = some g → s.cur? = some t → t.guard g = .f →
     NextIs i s t.advance) ∧
  (∀ (i : Instr) (g : Guard) (s : State) (c e : Nat) (t : Thread) (a : Axis) (thr : Nat) (ge : Bool), actsUnder i = some g →
     OnRange s c e t → HasEntry s c → t.guard g = .c a thr ge →
     let below := belowCut t a thr
     let above := aboveCut t a thr
     let passed (u : State) : State := match i with
       | .red o => u.redCount o t
       | _ => u
     (ge = false →
       let s1 := State.divide s c e below above.advance true
       Divided s s1 c e below above.advance true ∧
         ∃ u, Machine.exec i s1 = .next u ∧ Machine.exec i s = .next (s.orWait (passed u))) ∧
     (ge = true →
       let s1 := State.divide s c e below.advance above true
       Divided s s1 c e below.advance above true ∧ Machine.exec i s = .next (s.orWait (passed s1))) ∧
     ∀ (o : RedO) (u : State),
       let r := sregOf u c t.ctx o.s.toNat
       u.turn = s.turn → sregOf (u.redCount o t) c t.ctx o.s.toNat = { r with seq := r.seq + 1 })

/-! ### Control transfers -/

/-- 07 R186-R188, 05 R121, R131, 02 R47, R49: BRA, BRC and JMPI leave the clause for their target, or where the predicate is false
for the header after the clause; the latches become undefined. BRC compares its source with 0, signed. BRA on a cut divides the box
of a range fibre and on disagreeing lanes the lanes, and the part of the lowest linear number keeps the entry; a split waits for
what it needs (02 R54). -/
def Obligations.BranchesAndSplits : Prop :=
  (∀ (s : State) (t : Thread) (c : Clause), s.cur? = some t → t.clause = some c →
     (∀ o : BrO, (t.guard o.g = .t → NextIs (.bra o) s (atHeader t (branchTarget c o.disp))) ∧
       (t.guard o.g = .f → NextIs (.bra o) s (atHeader t (headerAfter c)))) ∧
     (∀ o : BrcO, t.guard o.g = .t → t.expanded = true ∨ 0 < t.box.count → (t.src s.draw o.a o.w).isU = true →
       (t.src s.draw o.a o.w).clean = true →
       NextIs (.brc o) s (atHeader t (if Rel.holds o.rel (signedOf o.w (t.src s.draw o.a o.w).u) 0 then branchTarget c o.disp
         else headerAfter c))) ∧
     (∀ o : JmpO, t.guard o.g = .t → (t.src s.draw o.a true).isU = true → (t.src s.draw o.a true).clean = true →
       NextIs (.jmpi o) s (atHeader t (t.src s.draw o.a true).u))) ∧
  (∀ (o : BrO) (s : State) (c e : Nat) (t : Thread) (cl : Clause), t.clause = some cl → HasEntry s c →
     let yes := branchTarget cl o.disp
     let no := headerAfter cl
     (∀ a thr ge, OnRange s c e t → t.guardAt o.g = .c a thr ge →
       let low := belowCut t a thr
       let other := aboveCut t a thr
       DividesInto (.bra o) s c e (atHeader low (if ge then no else yes)) (atHeader other (if ge then yes else no)) false ∧
         SharesBox t low other a thr ∧ low.regs = t.regs ∧ other.regs = t.regs) ∧
     (∀ ls, OnLanes s c e t → t.guardAt o.g = .m ls →
       let low := lanesIn t ls (ls.contains t.low)
       let other := lanesIn t ls !(ls.contains t.low)
       DividesInto (.bra o) s c e (atHeader low (if t.low ∈ ls then yes else no)) (atHeader other (if t.low ∈ ls then no else yes)) false ∧
         SharesLanes t low other (t.active.filter fun l => decide (l ∈ ls) == decide (t.low ∈ ls)) ∧
         low.regs = t.regs ∧ other.regs = t.regs))

/-- 07 R188, R190-R192: CALL and CALLI push the address of the header after the clause and go to their target, spilling the oldest
of 16 entries to the fibre's control-stack slot; RET pops the newest entry and refills from the slot. CALL where neither the stack
nor a slot has room traps STACK_LIMIT, and RET with nothing to pop RET_UNDERFLOW, both at the word with nothing changed. A RET whose
refill would read a poisoned entry of the slot traps MEM_POISON at the word with nothing changed: that is the model's reading (log
65). -/
def Obligations.CallsAndReturns : Prop :=
  (∀ (s : State) (t : Thread) (c : Clause), s.cur? = some t → t.clause = some c →
     let pushed (t1 : Thread) : Prop :=
       (t.rs.length < 16 ∧ t1 = { t with rs := .addr (headerAfter c) :: t.rs }) ∨
       (t.rs.length = 16 ∧ t.kind = .fibre ∧ (if t.slot = [] then s.slotFree t = true else t.slot.length < 128) ∧
         ∃ old, t.rs.getLast? = some old ∧
           t1 = { t with rs := .addr (headerAfter c) :: t.rs.dropLast, slot := old :: t.slot })
     (∀ (o : BrO) (t1 : Thread), t.guard o.g = .t → pushed t1 → NextIs (.call o) s (atHeader t1 (branchTarget c o.disp))) ∧
     (∀ (o : JmpO) (t1 : Thread), t.guard o.g = .t → (t.src s.draw o.a true).isU = true → (t.src s.draw o.a true).clean = true →
       pushed t1 → NextIs (.calli o) s (atHeader t1 (t.src s.draw o.a true).u)) ∧
     (∀ (o : G) (a : Word) (r : List REntry), t.guard o.g = .t → t.rs = .addr a :: r →
       (t.slot = [] → NextIs (.ret o) s (atHeader { t with rs := r } a)) ∧
       (∀ x sl, t.slot = x :: sl → Calm s → SlotSettled s t → s.slotBad t = false → Completes (.ret o) s fun u =>
         ∃ s1, (s1 = s ∨ ∃ l m ps, s1 = cachesOf s l m ps) ∧ u = s1.setCur (atHeader { t with rs := r ++ [x], slot := sl } a)) ∧
       ∀ c' e, OnRange s c' e t → QueueRoom s (c' / 8) → t.readsFar = false → t.slot ≠ [] → Calm s → SlotSettled s t →
         s.slotBad t = true → FibreTraps (.ret o) s c' e t cMemPoison 0 false)) ∧
  (∀ (s : State) (c e : Nat) (t : Thread), OnRange s c e t → t.clause ≠ none → QueueRoom s (c / 8) →
     (∀ o : BrO, t.guard o.g = .t → 16 ≤ t.rs.length → 128 ≤ t.slot.length ∨ (t.slot = [] ∧ s.slotFree t = false) →
       FibreTraps (.call o) s c e t cStackLimit 0 false) ∧
     (∀ o : G, t.guard o.g = .t → t.rs = [] → t.slot = [] → FibreTraps (.ret o) s c e t cRetUnderflow 0 false))

/-- 05 R116, R139, 07 R170, R193-R195, R201, 17 R348, R351: NOP passes its word and changes nothing else; YIELD ends the clause and
the fibre lets every other READY fibre of its core go first; EXIT frees the fibre's entry, or ends the stream, and on a management
core ends the clause (log 26: the model's reading). TRAP and BRK trap with their code and resume at the next word: a fibre parks and
its cluster's queue takes the record, a management core enters its handler. -/
def Obligations.NopYieldExitTraps : Prop :=
  (∀ (o : G) (s : State) (t : Thread) (cl : Clause), t.clause = some cl →
     (s.cur? = some t → NextIs (.nop o) s (pastWord t cl)) ∧
     (∀ c e, OnFibre s c e t → t.guard o.g = .t →
       NextIs (.yield o) s { atHeader t (headerAfter cl) with
         behind := ((s.core c).fibres.filter fun kv => kv.1 ≠ e && kv.2.st = .ready).map Prod.fst } ∧
       (t.sets = [] → Completes (.exit_ o) s fun u => u.fibre? c e = none ∧ (∀ k, k ≠ e → u.fibre? c k = s.fibre? c k) ∧
         u.mem = s.mem ∧ u.log = s.log)) ∧
     (∀ c x, OnStream s c x → x.th = t → t.guard o.g = .t → Completes (.exit_ o) s fun u => (u.core c).stream = none ∧
       (∀ ti, Tab.find? (u.core c).insts x.inst = some ti → ti.fork = none) ∧ u.mem = s.mem ∧ u.log = s.log) ∧
     (∀ k, OnMc s k t → t.guard o.g = .t →
       NextIs (.yield o) s (atHeader t (headerAfter cl)) ∧ NextIs (.exit_ o) s (atHeader t (headerAfter cl)))) ∧
  (∀ (s : State) (t : Thread),
     (∀ c e, OnRange s c e t → t.clause ≠ none → QueueRoom s (c / 8) →
       ∀ o : CodeO, t.guard o.g = .t →
         FibreTraps (.trap_ o) s c e t cTrapInstr (o.code.setWidth 64) true ∧
         FibreTraps (.brk o) s c e t cBreakpoint (o.code.setWidth 64) true) ∧
     (∀ k, OnMc s k t →
       ∀ o : CodeO, t.guard o.g = .t →
         McTraps (.trap_ o) s k t cTrapInstr true ∧ McTraps (.brk o) s k t cBreakpoint true))

/-- 05 R138: ILLEGAL, opcode 0x000, traps ILLEGAL_OPCODE whatever the other 54 bits hold and whatever its guard: every word of that
opcode is ILLEGAL; it parks a fibre of any form, or a stream, at its word with every register as it was, and a management core
enters its handler. -/
def Obligations.IllegalTraps : Prop :=
  (∀ w : Word, w.extractLsb' 54 10 = 0#10 → decode w = .ok .illegal ∧
    ∀ mc cls window words pos, checkWord mc cls window words pos w = .ok .illegal) ∧
  ∀ (s : State),
    (∀ c e t, OnFibre s c e t → t.clause ≠ none → QueueRoom s (c / 8) → Completes .illegal s fun u =>
      u.fibre? c e = some { t with st := .parked, why := .none, lcause := cIllegalOpcode, tmask := t.active } ∧
      u.mem = s.mem ∧ (∀ k, k ≠ e → u.fibre? c k = s.fibre? c k) ∧
      ∃ r, (u.cluster (c / 8)).trapq = (s.cluster (c / 8)).trapq ++ [r] ∧ r.kind = 0 ∧ r.cause = cIllegalOpcode ∧ r.pc = t.pc ∧
        r.handle = handleOf false t.ctx c e) ∧
    (∀ c x, OnStream s c x → QueueRoom s (c / 8) → Completes .illegal s fun u =>
      (∃ plan, (u.core c).stream =
        some { x with th := { x.th with st := .parked, lcause := cIllegalOpcode }, plan := plan }) ∧ u.mem = s.mem ∧
      ∃ r, (u.cluster (c / 8)).trapq = (s.cluster (c / 8)).trapq ++ [r] ∧ r.kind = 1 ∧ r.cause = cIllegalOpcode ∧ r.pc = x.th.pc ∧
        r.handle = x.handle) ∧
    (∀ k t, OnMc s k t → McTraps .illegal s k t cIllegalOpcode false)

/-- 05 R127, R134-R137, R120, 07 R198: the checks of a word in their order: an opcode the table does not have, a privileged one
below the management core's class, one of another class, a field value that is not listed or a register that the window does not
have, operands of which one shares some of another's registers but not all, a latch whose latest earlier place holds no instruction
with a result or has a WAITC after it; a word that passes all of them is accepted as the instruction it decodes to. They look at the
word, its clause and the window alone, whatever the guard; of a word that fails one, its agent takes the trap and nothing else. -/
def Obligations.WordChecks : Prop :=
  (∀ (mc : Bool) (cls window : Nat) (words : List Word) (pos : Nat) (w : Word),
    let opc := (w.extractLsb' 54 10).toNat
    let r := checkWord mc cls window words pos w
    let engine : Bool := decide ((0x380 ≤ opc ∧ opc ≤ 0x388) ∨ (0x3C0 ≤ opc ∧ opc ≤ 0x3CC))
    (opcodeClasses opc = none → r = .error cIllegalOpcode) ∧
    (cls = 0 → 0x3F0 ≤ opc → opcodeClasses opc ≠ none → r = .error cPrivilege) ∧
    (∀ c0 c1 c2, opcodeClasses opc = some (c0, c1, c2) → ¬ (cls = 0 ∧ 0x3F0 ≤ opc) →
      let mine : Bool := (if cls = 0 then c0 else if cls = 1 then c1 else c2) && !(mc && engine)
      (mine = false → r = .error cIllegalClass) ∧
      (mine = true → (∀ i, decode w ≠ .ok i) → r = .error cReservedField) ∧
      ∀ i, mine = true → decode w = .ok i →
        (csrOk mc i = false ∨ i.regsOk cls window = false → r = .error cReservedField) ∧
        (csrOk mc i = true → i.regsOk cls window = true → i.overlaps cls = true → r = .error cOperandOverlap) ∧
        (csrOk mc i = true → i.regsOk cls window = true → i.overlaps cls = false → i.stale words pos = true →
          r = .error cStaleLatch) ∧
        (csrOk mc i = true → i.regsOk cls window = true → i.overlaps cls = false → i.stale words pos = false → r = .ok i)) ∧
    (∀ i, r = .ok i → decode w = .ok i ∧ i.wf = true ∧ i.regsOk cls window = true ∧ i.overlaps cls = false ∧
      i.stale words pos = false ∧ (cls = 0 → opc < 0x3F0)) ∧
    (∀ i, opcodeClasses opc ≠ none → decode w = .ok i → r ≠ .ok i →
      r = .error cPrivilege ∨ r = .error cIllegalClass ∨ r = .error cReservedField ∨ r = .error cOperandOverlap ∨
      r = .error cStaleLatch)) ∧
  (∀ (i : Instr) (cls window : Nat) (words : List Word) (pos : Nat),
    (cls ≠ 1 → ((i.regsOk cls window = true ↔ ∀ g ∈ i.groups, g.1 + g.2 ≤ window ∧ g.1 % g.2 = 0) ∧
      (i.overlaps cls = true ↔ ∃ a ∈ i.groups, ∃ b ∈ i.groups, ∃ m n, m ∈ regsOf a ∧ m ∈ regsOf b ∧ n ∈ regsOf a ∧ n ∉ regsOf b))) ∧
    (cls = 1 → ((i.regsOk cls window = true ↔
      (∀ g ∈ i.groups, g.1 < 32) ∧ ∀ x ∈ i.srcs, x ≠ .ix ∧ x ≠ .iy ∧ x ≠ .iz) ∧ i.overlaps cls = false)) ∧
    (i.stale words pos = true ↔ ∃ j, .latch j ∈ i.srcs ∧ ¬ ∃ p k, p < pos ∧ p % 8 = j.toNat ∧ (∀ q, p < q → q < pos → q % 8 ≠ j.toNat) ∧
      decode (words.getD p 0) = .ok k ∧ k.hasResult = true ∧ ∀ q o, p < q → q < pos → decode (words.getD q 0) ≠ .ok (.waitc o))) ∧
  (∀ i sh, intShape i = some sh ∨ fltShape i = some sh → i.hasResult = true ∧ ((∀ o, i ≠ .movh o) → i.srcs = sh.ins.map Prod.fst ∧
    i.groups = dstRegs sh.d (if sh.w.is64 then 2 else 1) ++ sh.ins.flatMap fun x => srcRegs x.1 (if x.2 then 2 else 1))) ∧
  (∀ i sh, predShape i = some sh → i.hasResult = false ∧ i.srcs = sh.ins.map Prod.fst ∧
    i.groups = sh.ins.flatMap fun x => srcRegs x.1 (if x.2 then 2 else 1)) ∧
  (∀ i gs res, wordGroups i = some (gs, res) → i.groups = gs ∧ i.hasResult = res) ∧
  ∀ (s0 : State) (t : Thread) (c : Clause) (cause : BitVec 8),
    let s := s0.applyUpsets
    s.issued.cur? = some t → t.clause = some c → c.begun = true → t.runs = true →
    checkWord (t.kind = .mc) (hdrClass c.hdr) t.window c.words c.pos (c.words.getD c.pos 0) = .error cause →
    (∀ j e, s.turn = .fibre j e →
      Machine.step s0 = .next ((s.issued.setCore j { s.issued.core j with inClause := some e }).trapAll cause).settle) ∧
    (∀ j x, s.turn = .stream j → (s.core j).stream = some x → Machine.step s0 = .next (s.trapAll cause).settle) ∧
    ∀ k, s.turn = .mc k → (s.mc k).active = true → s.handlerDue k = false → Machine.step s0 = .next (s.trapAll cause).settle

/-! ### Memory instructions -/

/-- 08 R212, R214-R216, R226, 03 R75, R82: LD, LDS and LDC from a uniform address by a fibre of any box, a stream or a management
core deliver the bytes, extended as the size says, to the destination; PREF changes nothing. A load whose data comes later keeps its
place and addresses; the data of an outstanding load of one index arrives: the destination takes it and the fibre may go on; a far
store that is outstanding stores its bytes when it is acknowledged. Which accesses keep their data waiting is a free value (log 75).
That the fibre stays READY at its place meanwhile (log 43), that a far store is outstanding until it is acknowledged (log 55) and
that a b128 access is two pairs, the low pair first (log 53), are the model's readings. -/
def Obligations.LoadsDeliverBytes : Prop :=
  (∀ (s : State) (t : Thread), t.places ≠ [] →
     (∀ (o : LdO) (pa : Nat), Acts s t o.g → (t.src s.draw o.base true).isU = true → (t.src s.draw o.base true).clean = true →
       takesU t o.d (sizeRW o.size) = true → sizeOk o.size = true → (o.ord.getLsbD 0 = false ∨ o.scp ≠ 3#2) →
       Reaches s t ((t.src s.draw o.base true).u + o.off.signExtend 64) (sizeBytes o.size) .r pa →
       Loads (.ld o) s t o.d o.size (numAt s none pa (sizeBytes o.size))) ∧
     (∀ (o : LdO) (sp : Space), Acts s t o.g → (t.src s.draw o.base false).isU = true →
       (t.src s.draw o.base false).clean = true → takesU t o.d (sizeRW o.size) = true → sizeOk o.size = true →
       let off := ((t.src s.draw o.base false).u + o.off.signExtend 64).toNat % 2 ^ 32
       ReachesScratch s t off (sizeBytes o.size) sp →
       Loads (.lds o) s t o.d o.size (numAt s sp off (sizeBytes o.size))) ∧
     (∀ (o : LdcO) (l : Launch), Acts s t o.g → s.launch? t.launch = some l →
       let b : Opd := match o.base with
         | some x => t.src s.draw x false
         | none => Opd.ofU 0
       b.isU = true → b.clean = true → takesU t o.d (sizeRW o.size) = true → sizeOk o.size = true →
       let off := (b.u + o.off.signExtend 64).toNat % 2 ^ 32
       let n := sizeBytes o.size
       off + n ≤ 65536 → off % n = 0 → (∀ k, k < n → off + k ∉ l.bankPois) →
       Loads (.ldc o) s t o.d o.size (leNat (Bytes.read l.bank off n))) ∧
     (∀ (o : LdO) (c e pa : Nat), OnFibre s c e t → t.guard o.g = .t → (t.src s.draw o.base true).isU = true →
       (t.src s.draw o.base true).clean = true → takesU t o.d (sizeRW o.size) = true → sizeOk o.size = true →
       (o.ord.getLsbD 0 = false ∨ o.scp ≠ 3#2) →
       Finds s t ((t.src s.draw o.base true).u + o.off.signExtend 64) (sizeBytes o.size) .r pa → s.slow = true →
       Completes (.ld o) s fun u => u.fibre? c e = some { t.advance with why := .loadData, since := s.tick } ∧
         (∃ q : OutAccess, (u.core c).loads = (s.core c).loads ++ [q] ∧ q.entry = e ∧ q.uid = t.uid ∧ q.instr = t.word ∧ q.pc = t.pc ∧
           q.pend = (sortAsc t.places).map fun p => (p, pa)) ∧
         .loadDataArrival c e ∈ u.agenda ∧ u.mem = s.mem ∧ u.log = s.log) ∧
     (∀ o : PrefO, Acts s t o.g → NextIs (.pref o) s t.advance)) ∧
  (∀ (s : State) (c e pa : Nat) (t : Thread) (q : OutAccess) (b : Word), s.fibre? c e = some t → t.kind = .fibre →
     t.expanded = false → t.box.count = 1 → t.why = .loadData → t.st = .ready → (s.core c).loads = [q] → q.entry = e →
     q.pend = [(0, pa)] → q.faults = [] → q.base = .u b → s.farLost pa = false → s.heldAt pa 1 = false → s.mem.flaws = [] →
     let goesOn (u : State) (t1 : Thread) : Prop := (u.core c).loads = [] ∧ u.turn = s.turn ∧ u.fibre? c e = some t1 ∧
       t1.st = .ready ∧ t1.why = .none ∧ t1.pc = t.pc ∧ t1.clause = t.clause
     (∀ l : LdO, decode q.instr = .ok (.ld l) → sizeOk l.size = true → l.size ≠ 8#4 → takesU t l.d (sizeRW l.size) = true →
       s.badRead none pa (sizeBytes l.size) = false → (∀ w ∈ s.log, w.covers none pa (sizeBytes l.size) = false) →
       Completes (.loadDataArrival c e) s fun u => u.mem = s.mem ∧ ∃ t1, goesOn u t1 ∧
         Holds t t1 l.d (sizeRW l.size) (loadedWord l.size (numAt s none pa (sizeBytes l.size)))) ∧
     (∀ (l : StO) (v : Word), decode q.instr = .ok (.st l) → sizeOk l.size = true → l.size ≠ 8#4 → q.data = [.u v] → q.dbad = [] →
       s.deadAt pa (sizeBytes l.size) = false → (∀ k, k < sizeBytes l.size → lineOf (pa + k) ∉ s.mem.plines) →
       Completes (.loadDataArrival c e) s fun u => Stored s u none pa (sizeBytes l.size) v.toNat ∧ ∃ t1, goesOn u t1 ∧ t1.regs = t.regs))

/-- 03 R74, R78, 08 R210, R224, R225, 17 R351, R357: the checks of one index's access, in their order: an address with a bit of
[63:55] set traps ACCESS_VIOLATION, a misaligned one MISALIGNED, a page without the permission ACCESS_VIOLATION with its code, a
scratchpad offset outside the allocation SCRATCH_RANGE; the fibre parks with the resume point at the next word, its registers and
memory as they were. A page fault of a load makes a field-book record and the fibre waits for its replay. A management core takes
the trap at its word, and untranslated it has no address with a bit of [63:52] set (07 R402). That the record takes the lowest free
place is the model's choice (log 19). -/
def Obligations.AccessChecks : Prop :=
  ∀ (s : State) (c e : Nat) (t : Thread), OnRange s c e t → t.box.count = 1 → t.clause ≠ none → QueueRoom s (c / 8) → Calm s →
    let ends (i : Instr) (st : FState) (cause : BitVec 8) (a aux : Word) : Prop := Completes i s fun u =>
      u.mem = s.mem ∧ u.log = s.log ∧ (∃ t1, u.fibre? c e = some t1 ∧ t1.st = st ∧ t1.pc = t.advance.pc ∧ t1.regs = t.regs ∧
        t1.preds = t.preds) ∧
      ∃ r, (u.cluster (c / 8)).trapq = (s.cluster (c / 8)).trapq ++ [r] ∧ r.kind = 0 ∧ r.cause = cause ∧ r.pc = t.pc ∧ r.addr = a ∧
        r.aux = aux ∧ r.index = .box t.box
    let checks (i : Instr) (va : Word) (n : Nat) (p : Perm) : Prop :=
      (2 ^ 55 ≤ va.toNat → ends i .parked cAccess va 0) ∧
      (va.toNat < 2 ^ 55 → va.toNat % n ≠ 0 → ends i .parked cMisaligned va 0) ∧
      (∀ code level, va.toNat < 2 ^ 55 → va.toNat % n = 0 → s.xlat (s.curSpace t) va.toNat p = .fault cAccess code level →
        ends i .parked cAccess va (BitVec.ofNat 64 code))
    (∀ o : LdO, t.guard o.g = .t → (t.src s.draw o.base true).isU = true → takesU t o.d (sizeRW o.size) = true →
      sizeOk o.size = true → (o.ord.getLsbD 0 = false ∨ o.scp ≠ 3#2) →
      let va := (t.src s.draw o.base true).u + o.off.signExtend 64
      checks (.ld o) va (sizeBytes o.size) .r ∧
      ∀ reason level, va.toNat < 2 ^ 55 → va.toNat % sizeBytes o.size = 0 → (s.core c).book = [] →
        s.xlat (s.curSpace t) va.toNat .r = .fault cPageFault reason level →
        ends (.ld o) .replayWait cPageFault va (BitVec.ofNat 64 (256 + reason * 4096)) ∧
        Completes (.ld o) s fun u => ∃ b, Tab.find? (u.core c).book 0 = some b ∧ b.acc = 0 ∧ b.va = va ∧ b.level = level ∧
          b.cause = cPageFault ∧ b.instr = t.word ∧ b.pc = t.pc ∧ b.entry = e ∧ b.uid = t.uid ∧ b.replaying = false) ∧
    (∀ o : StO, t.guard o.g = .t → sizeOk o.size = true →
      checks (.st o) ((t.src s.draw o.base true).val 0 + o.off.signExtend 64) (sizeBytes o.size) .w) ∧
    (∀ o : AtomO, t.guard o.g = .t → o.w16 = false → takesU t o.d (RW.ofTy o.ty) = true → (o.ord.getLsbD 0 = false ∨ o.scp ≠ 3#2) →
      checks (.atom o) ((t.src s.draw o.a true).val 0) (atomN o) .rw) ∧
    (∀ o : LdO, t.guard o.g = .t → (t.src s.draw o.base false).isU = true → takesU t o.d (sizeRW o.size) = true →
      sizeOk o.size = true →
      let off := ((t.src s.draw o.base false).u + o.off.signExtend 64).toNat % 2 ^ 32
      ∀ d al size, s.scratchOf t = some (d, al, size) →
        (2 ^ 21 ≤ off ∨ size < off + sizeBytes o.size → ends (.lds o) .parked cScratchRange (BitVec.ofNat 64 off) 0) ∧
        (off < 2 ^ 21 → off + sizeBytes o.size ≤ size → off % sizeBytes o.size ≠ 0 →
          ends (.lds o) .parked cMisaligned (BitVec.ofNat 64 off) 0)) ∧
    ∀ (s' : State) (k : Nat) (m : Thread) (o : LdO), OnMc s' k m → m.guard o.g = .t → (m.src s'.draw o.base true).isU = true →
      takesU m o.d (sizeRW o.size) = true → sizeOk o.size = true → (o.ord.getLsbD 0 = false ∨ o.scp ≠ 3#2) → Calm s' →
      let va := ((m.src s'.draw o.base true).u + o.off.signExtend 64).toNat
      let bad : Prop := 2 ^ 55 ≤ va ∨ ((s'.mc k).en = false ∧ 2 ^ 52 ≤ va)
      (bad → McTraps (.ld o) s' k m cAccess false) ∧
      (¬ bad → va % sizeBytes o.size ≠ 0 → McTraps (.ld o) s' k m cMisaligned false)

/-- 08 R212, R214, R224, R225, 03 R81: ST and STS of one index store the low bytes of their data at the translated address or the
scratchpad offset, and no other byte of memory changes; the registers stay as they are. The frame of a store of many indices: the
memory after it is the memory after its indices' own stores in ascending order, whatever traps; and one index's store changes only
the bytes at the address that its own checks give, and none where they fail. -/
def Obligations.StoresWriteBytes : Prop :=
  (∀ (s : State) (t : Thread) (o : StO), OneIndex s t o.g → sizeOk o.size = true → storeClean s t o.data o.size →
     (∀ pa, (t.src s.draw o.base true).clean = true →
       Reaches s t ((t.src s.draw o.base true).val 0 + o.off.signExtend 64) (sizeBytes o.size) .w pa →
       Completes (.st o) s fun u =>
         (∃ t1 : Thread, u.cur? = some t1.advance ∧ t1 = { t.progressed with view := t1.view, lviews := t1.lviews }) ∧
         Stored s u none pa (sizeBytes o.size) (storeData s t o.data o.size)) ∧
     (∀ sp, (t.src s.draw o.base false).clean = true →
       let off := ((t.src s.draw o.base false).val 0 + o.off.signExtend 64).toNat % 2 ^ 32
       ReachesScratch s t off (sizeBytes o.size) sp →
       Completes (.sts o) s fun u =>
         (∃ t1 : Thread, u.cur? = some t1.advance ∧ t1 = { t.progressed with view := t1.view, lviews := t1.lviews }) ∧
         Stored s u sp off (sizeBytes o.size) (storeData s t o.data o.size))) ∧
  ((∀ (s u : State) (c e : Nat) (t : Thread) (o : StO) (ms : List Nat), OnFibre s c e t →
     ((t.guardAt o.g = .t ∧ ms = t.places) ∨
       ∃ l, t.guardAt o.g = .m l ∧ ms = t.active.filter (l.contains ·)) →
     (Machine.exec (.st o) s = .next u → s.flowing = true → ∃ v, storesOf s t (.st o) o true (sortAsc ms) = some v ∧ u.mem = v.mem) ∧
     (Machine.exec (.sts o) s = .next u → ∃ v, storesOf s t (.sts o) o false (sortAsc ms) = some v ∧ u.mem = v.mem)) ∧
   ∀ (m : MemRes) (r : Req) (now : Bool) (p : Nat) (o : IdxOps) (a : Nat), r.acc = 1 → m.s.mem.flaws = [] →
     (∀ pa level leaf, m.s.chk m.t p r o.va o.bad = .ok none pa level leaf → a < pa ∨ pa + r.n ≤ a) →
     (m.one r now [] [p] o).s.readByte none a = m.s.readByte none a)

/-- 03 R90, 08 R217, R218: ATOM and ATOMS of one index on 4 or 8 bytes: the result is the old number, and the new one, where there
is one, is stored at once. The compare-and-swap of 16 bytes takes its operands from two pairs each, and answers in two. That the
operands and the answer of the 16-byte compare-and-swap are two joined pairs each, the low pair first, is the model's reading (log
53). -/
def Obligations.AtomicsReadModifyWrite : Prop :=
  (∀ (s : State) (t : Thread) (o : AtomO) (nb nc : BitVec 6), OneIndex s t o.g → o.w16 = true → o.op = 7#3 → o.ty = .n64 →
    o.b = .reg nb → o.c = .reg nc → takesU t o.d .w64 = true → storeClean s t o.b 8#4 → storeClean s t o.c 8#4 →
    (o.ord.getLsbD 0 = false ∨ o.scp ≠ 3#2) →
    (∀ pa, (t.src s.draw o.a true).clean = true → Reaches s t ((t.src s.draw o.a true).val 0) 16 .rw pa →
      Swaps16 (.atom o) s t o none pa) ∧
    (∀ sp, (t.src s.draw o.a false).clean = true →
      let off := ((t.src s.draw o.a false).val 0).toNat % 2 ^ 32
      ReachesScratch s t off 16 sp → Swaps16 (.atoms o) s t o sp off)) ∧
  ∀ (s : State) (t : Thread) (o : AtomO), OneIndex s t o.g → o.w16 = false → takesU t o.d (RW.ofTy o.ty) = true →
    (t.src s.draw o.b o.ty.is64).clean = true → (o.op = 7#3 → (t.src s.draw o.c o.ty.is64).clean = true) →
    (o.ord.getLsbD 0 = false ∨ o.scp ≠ 3#2) →
    (∀ pa, (t.src s.draw o.a true).clean = true → Reaches s t ((t.src s.draw o.a true).val 0) (atomN o) .rw pa →
      Atomic (.atom o) s t o none pa) ∧
    (∀ sp, (t.src s.draw o.a false).clean = true →
      let off := ((t.src s.draw o.a false).val 0).toNat % 2 ^ 32
      ReachesScratch s t off (atomN o) sp → Atomic (.atoms o) s t o sp off)

/-- 08 R219-R221, 03 R80, R81, R83, R84, R90: PHASE, FENCE and PFENCE change only what their indices have observed: PHASE fences
both ways at device scope, FENCE as ORD and SCP say (on a stream at device scope): an acquire takes what the releases publish that
earlier loads have read, of scopes that take in both agents, and a release makes releases at its scope of later stores. PFENCE makes
the produced pairs visible to the consuming paths, and no others. A store publishes what its agent has observed, at its own scope if
it is a release (on a page of host memory at system scope, 19 R369) and at that of each release fence before it. An acquire that
reads a store gains what its releases publish: a load, whichever store it returns, and an atomic, which reads the last. -/
def Obligations.FencesChangeViews : Prop :=
  ∀ (s : State) (t : Thread), s.cur? = some t →
    (∀ o : G, t.guard o.g = .t → ∃ t1, NextIs (.phase o) s t1.advance ∧ FencedThread s.curAgent true true 1 t t1) ∧
    (∀ o : FenceO, t.guard o.g = .t → ∃ t1, NextIs (.fence o) s t1.advance ∧
      FencedThread s.curAgent (o.ord.getLsbD 0) (o.ord.getLsbD 1) (if t.kind = .stream then 1 else o.scp.toNat) t t1) ∧
    (∀ o : PfenceO, t.guard o.g = .t → (t.kind = .stream → o.cons = 4#4) →
      ∃ t1 : Thread, NextIs (.pfence o) s t1.advance ∧ t1 = { t.progressed with view := t1.view, lviews := t1.lviews } ∧
        t1.view = { t.view with pv := t1.view.pv } ∧
        ∀ n q, (n, q) ∈ t1.view.pv ↔ (n, q) ∈ t.view.pv ∨
          (q ∈ pathsOf o.cons ∧ ∃ w ∈ s.log, w.id = n ∧ n ∈ t.view.hb ∧ w.path ∈ pathsOf o.prod)) ∧
    (∀ (o : StO) (pa : Nat), OneIndex s t o.g → sizeOk o.size = true → storeClean s t o.data o.size →
      (t.src s.draw o.base true).clean = true →
      Reaches s t ((t.src s.draw o.base true).val 0 + o.off.signExtend 64) (sizeBytes o.size) .w pa →
      Completes (.st o) s fun u => ∃ w, u.log = w :: s.log ∧ w.id = s.nextId ∧ w.space = none ∧ w.addr = pa ∧
        w.len = sizeBytes o.size ∧ w.path = (if t.kind = .stream then .X else .F) ∧ (∀ k ∈ t.view.rel, Publishes s t w (· = k)) ∧
        (o.ord.getLsbD 1 = true → Publishes s t w fun k => k = 2 ∨ k = if o.scp = 3#2 then 1 else o.scp.toNat)) ∧
    (∀ (o : LdO) (pa : Nat), OneIndex s t o.g → (t.src s.draw o.base true).isU = true → (t.src s.draw o.base true).clean = true →
      takesU t o.d (sizeRW o.size) = true → sizeOk o.size = true → o.ord.getLsbD 0 = true → o.scp ≠ 3#2 →
      GetsTo s t ((t.src s.draw o.base true).u + o.off.signExtend 64) (sizeBytes o.size) .r pa → (s.log.map WriteRec.id).Nodup →
      Completes (.ld o) s fun u => ∃ t1, u.cur? = some t1 ∧ ∀ w ∈ s.log, w.covers none pa (sizeBytes o.size) = true →
        (∃ b, (w.id, b) ∈ t1.view.seen ∧ (w.id, b) ∉ (s.viewAt t 0).seen) →
        ∀ r ∈ w.rel, Synchronizes r o.scp.toNat s.curAgent → ∀ n ∈ r.hb, n ∈ t1.view.hb) ∧
    (∀ (o : AtomO) (pa : Nat), OneIndex s t o.g → o.w16 = false → takesU t o.d (RW.ofTy o.ty) = true →
      (t.src s.draw o.b o.ty.is64).clean = true → (o.op = 7#3 → (t.src s.draw o.c o.ty.is64).clean = true) →
      o.ord.getLsbD 0 = true → o.scp ≠ 3#2 → (t.src s.draw o.a true).clean = true →
      GetsTo s t ((t.src s.draw o.a true).val 0) (atomN o) .rw pa →
      Completes (.atom o) s fun u => ∃ t1, u.cur? = some t1 ∧ ∀ w ∈ s.log, w.covers none pa (atomN o) = true →
        ∀ r ∈ w.rel, Synchronizes r o.scp.toNat s.curAgent → ∀ n ∈ r.hb, n ∈ t1.view.hb)

/-- 03 R87, R88, 08 R222: PROMOTE reads the owner word beside its granule: with no owner it completes at once; with one it asks the
owner core and keeps its place; the owner replies, and the last reply lets the acquire go on. That the fibre stays READY and keeps
its place while the owners answer is the model's reading (log 43). -/
def Obligations.PromotionRoundTrip : Prop :=
  (∀ (s : State) (t : Thread) (o : JmpO) (pa : Nat), OneIndex s t o.g → (t.src s.draw o.a true).clean = true → t.why = .none →
    Reaches s t ((t.src s.draw o.a true).val 0) 4 .r pa → pa % 16 ≤ 4 →
    s.badRead none (pa / 16 * 16 + 8) 8 = false → (∀ w ∈ s.log, w.covers none (pa / 16 * 16) 16 = false) →
    ((t.src s.draw o.a true).val 0).toNat % 16 ≤ 4 →
    (ownerAt s pa = none → Completes (.promote o) s fun u =>
      (∃ t1 : Thread, u.cur? = some t1.advance ∧ t1 = { t.progressed with view := t1.view, lviews := t1.lviews }) ∧ u.mem = s.mem) ∧
    (∀ k, ownerAt s pa = some k → Completes (.promote o) s fun u =>
      (∃ t1 : Thread, u.cur? = some t1 ∧ t1.st = .ready ∧ t1.pc = t.pc ∧ t1.why = .promote 1 [(0, k)] []) ∧
      u.agenda = s.agenda ++ [.promotionRequest k s.curFrom] ∧ u.mem = s.mem)) ∧
  (∀ (s : State) (owner from_ : Nat), Completes (.promotionRequest owner from_) s fun u =>
    u = { s with agenda := s.agenda ++ [.promotionReply (from_ / 8192) (from_ % 8192)] }) ∧
  ∀ (s : State) (c e : Nat) (t : Thread) (left : Nat) (own : Tab Nat) (met : List Nat), c < Config.numCores → e < 4096 →
    s.fibre? c e = some t → Tab.find? (s.core c).swaps e = none → t.why = .promote left own met →
    Completes (.promotionReply c e) s fun u => u.fibre? c e = some (if left ≤ 1 then { t with why := .promoted own met }
        else { t with why := .promote (left - 1) own met }) ∧
      (left ≤ 1 → t.st ≠ .ready → .waitaSatisfied c e ∈ u.agenda) ∧ u.turn = s.turn ∧ u.mem = s.mem

/-- 03 R91, 08 R223: WAITA whose relation holds completes at once, with an acquire; otherwise the agent waits; a waiting fibre whose
word has come to satisfy its WAITA goes on at the next word. -/
def Obligations.WaitaWaitsForWord : Prop :=
  (∀ (s : State) (c e : Nat) (t : Thread) (o : WaitaO) (pa : Nat), OnFibre s c e t → OneIndex s t o.g → o.spad = false →
     o.scp ≠ 3#2 → t.why = .none →
     (t.src s.draw o.a true).clean = true → (t.src s.draw o.b o.w64).clean = true →
     let n := if o.w64 then 8 else 4
     Reaches s t ((t.src s.draw o.a true).val 0) n .r pa →
     let word := numAt s none pa n
     let v := ((t.src s.draw o.b o.w64).val 0).toNat % 2 ^ (8 * n)
     let met : Prop := if o.rel = 0#2 then word = v else if o.rel = 1#2 then word ≠ v
       else (word + 2 ^ (8 * n) - v) % 2 ^ (8 * n) < 2 ^ (8 * n - 1)
     (met → t.st = .ready → Completes (.waita o) s fun u =>
       (∃ t1 : Thread, u.fibre? c e = some t1.advance ∧ t1 = { t.progressed with view := t1.view, lviews := t1.lviews }) ∧ u.mem = s.mem) ∧
     (¬ met → Completes (.waita o) s fun u =>
       (∃ t1 : Thread, u.fibre? c e = some t1 ∧ t1.st = .wait ∧ t1.why = .waita [] ∧ t1.pc = t.pc) ∧
       (c < Config.numCores → e < 4096 → .waitaSatisfied c e ∈ u.agenda) ∧ u.mem = s.mem)) ∧
  (∀ (s : State) (c e : Nat) (t : Thread) (o : WaitaO) (pa : Nat), c < Config.numCores → e < 4096 →
     Tab.find? (s.core c).swaps e = none → s.fibre? c e = some t →
     t.kind = .fibre → t.why = .waita [] → decode t.word = .ok (.waita o) →
     (let s' := { s with turn := .fibre c e }
      OneIndex s' t o.g ∧ o.spad = false ∧ o.scp ≠ 3#2 ∧ o.w64 = true ∧ o.rel = 0#2 ∧
      (t.src s.draw o.a true).clean = true ∧ (t.src s.draw o.b true).clean = true ∧
      Reaches s' t ((t.src s.draw o.a true).val 0) 8 .r pa ∧
      numAt s none pa 8 = ((t.src s.draw o.b true).val 0).toNat) →
     Completes (.waitaSatisfied c e) s fun u =>
       (∃ t1 : Thread, u.fibre? c e = some t1.advance ∧ t1 = { t with st := .ready, why := .none, view := t1.view, lviews := t1.lviews }) ∧
       u.mem = s.mem ∧ u.turn = s.turn)

/-! ### Engines -/

/-- 08 R227-R229, R233, R234, 09 R247, 05 R119: a copy command of the tile's producer, its descriptor sound, joins its token and the
fibre goes on; while four are on the token it waits; a descriptor that fails a check traps with the check's cause, address and AUX.
The copy engine runs a COPY of one row in one piece, COPYX and COPYC of one structured group pair as R231 and R232 give the places
and values, and a finished command stores its completion word; a COPYT's image becomes the tile's next version once nothing reads
the old one; a peer that does not acknowledge stops a command with a record; a fifth command is tried again, and a header wait ends,
when its token allows it. The AUX of R74's check of a descriptor, one piece for each step and the completion word as a later step
are the model's readings (log 37), and so is that every NaN has the one magnitude 2^16 (log 39). -/
def Obligations.CopyCommands : Prop :=
  (∀ (i : Instr) (o : CopyO) (kind : CopyKind) (f : Fmt) (s : State) (c e : Nat) (t : Thread), copyForm i = some (o, kind, f) →
     Commands s c e t o.g true (groupOpds o.grp.toNat 16 t s.draw) →
     let q := s.copyCmd c e t kind f o
     let n := ((s.core c).copyq.filter fun k => k.tokId = t.tokId && k.tok = o.tok.toNat).length
     (q.kind = kind ∧ q.fmt = f ∧ q.tokId = t.tokId ∧ q.tok = o.tok.toNat ∧ q.insp = o.insp.toNat ∧ q.outsp = o.outsp.toNat ∧
       q.st = .queued ∧ q.done = 0 ∧ q.gone = [] ∧
       ∀ k, k < 16 → q.desc.getD k 0 = (t.read32 (o.grp.toNat + k)).u.setWidth 32) ∧
     (s.copyBad t q = none → n < 4 → Completes i s fun u =>
       (u.core c).copyq = (s.core c).copyq ++ [q] ∧ u.fibre? c e = some t.progressed.advance ∧ u.mem = s.mem ∧ u.log = s.log) ∧
     (s.copyBad t q = none → 4 ≤ n → NextIs i s { t with st := .wait, why := .fifth, since := waitFrom s t }) ∧
     (∀ cause a aux, s.copyBad t q = some (cause, a, aux) → t.clause ≠ none → t.expanded = false → QueueRoom s (c / 8) →
       FibreTrapsAt i s c e t cause (BitVec.ofNat 64 a) (BitVec.ofNat 64 aux) false)) ∧
  (∀ (s : State) (c : Nat),
     (∀ q : CopyCmd, (s.core c).copyq = [q] → q.insp = 0 → q.outsp = 0 → q.gran = 0 → q.gone = [] → s.copyCancelled c q = false →
       let sp : VSpace := .port q.ctx c .C
       let at_ (k n : Nat) (p : Perm) (pa : Nat) : Prop := InPage s sp (BitVec.ofNat 64 (q.d64 k)) n p pa
       let ran (u : State) (n : Nat) : Prop := .copyRun c ∈ u.agenda ∧ ∃ q' : CopyCmd, (u.core c).copyq = [q'] ∧ q'.id = q.id ∧
         q'.st = .running ∧ q'.done = n
       (q.st = .queued → EngineFree s c q.ctx → q.done = 0 → q.wrote = [] →
         (∀ pa pd n, q.kind = .plain → q.d 4 = n → q.d 5 = 1 → q.d 6 = 1 → at_ 0 n .r pa → at_ 2 n .w pd → Apart pa n pd n →
           Completes (.copyRun c) s fun u => ran u n ∧ Stored s u none pd n (numAt s none pa n)) ∧
         (∀ z pd pv pm, structBytes q.fmt = some z → q.d 4 = 8 → q.d 5 = 1 →
           Apart pd (8 * z) pv (4 * z) → Apart pd (8 * z) pm 1 → Apart pv (4 * z) pm 1 →
           (q.kind = .expand → at_ 0 (8 * z) .w pd → at_ 2 (4 * z) .r pv → at_ 10 1 .r pm → Completes (.copyRun c) s fun u =>
             ran u (8 * z) ∧ OnlyIn s u [(pd, 8 * z)] ∧ ∀ i, i < 8 → numAt u none (pd + i * z) z =
               expanded (fun j => numAt s none (pv + j * z) z) (numAt s none pm 1) i) ∧
           (q.kind = .compact → at_ 0 (8 * z) .r pd → at_ 2 (4 * z) .w pv → at_ 10 1 .w pm → Completes (.copyRun c) s fun u =>
             ran u (4 * z + 1) ∧ OnlyIn s u [(pv, 4 * z), (pm, 1)] ∧
             let x (g i : Nat) : Nat := numAt s none (pd + (4 * g + i) * z) z
             ∃ a0 b0 a1 b1, KeepsTwo q.fmt (x 0) a0 b0 ∧ KeepsTwo q.fmt (x 1) a1 b1 ∧
               numAt u none pm 1 = a0 + 4 * b0 + 16 * (a1 + 4 * b1) ∧
               numAt u none pv z = x 0 a0 ∧ numAt u none (pv + z) z = x 0 b0 ∧
               numAt u none (pv + 2 * z) z = x 1 a1 ∧ numAt u none (pv + 3 * z) z = x 1 b1))) ∧
       (q.st = .running → q.total ≤ q.done → q.kind ≠ .toTile →
         (q.cw = 0 → Completes (.copyRun c) s fun u => (u.core c).copyq = [] ∧ u.mem = s.mem) ∧
         (∀ pa, q.cw ≠ 0 → q.cwsp = false → InPage s sp (BitVec.ofNat 64 q.cw) 8 .w pa →
           Completes (.copyRun c) s fun u => (u.core c).copyq = [] ∧ Stored s u none pa 8 (q.d64 14)))) ∧
     (∀ v, (v < 2 ^ 8 → magnitude .i8 v = (BitVec.ofNat 8 v).toInt.natAbs ∧ magnitude .n8 v = v) ∧
       (v < 2 ^ 16 → magnitude .i16 v = (BitVec.ofNat 16 v).toInt.natAbs ∧ magnitude .n16 v = v) ∧
       ∀ f ∈ [Fmt.f16, .bf16, .e4m3, .e5m2], v < 2 ^ (fpOfFmt f).width →
         magnitude f v = if (fpOfFmt f).dec v = .nan then 2 ^ 16 else v % 2 ^ ((fpOfFmt f).width - 1)) ∧
     (∀ q : CopyCmd, (s.core c).copyq = [q] → q.st = .tileWait → ((s.core c).ctx q.ctx).tileBusy (q.d 2) = false → q.cw = 0 →
       Completes (.operandsConsumed c q.ctx (q.d 2)) s fun u => (u.core c).copyq = [] ∧ u.mem = s.mem ∧
         let old := ((s.core c).ctx q.ctx).tile (q.d 2)
         ((u.core c).ctx q.ctx).tile (q.d 2) = ⟨Bytes.pack 0 (q.buf.map Prod.fst), [], q.buf.any Prod.snd, old.version + 1⟩) ∧
     (∀ q : CopyCmd, (s.core c).copyq = [q] → q.st = .peerWait → q.kind ≠ .toTile → QueueRoom s (c / 8) →
       let dst : Nat := if q.kind = .expand then q.d64 0 else q.d64 2
       Completes (.peerWriteUndeliverable c) s fun u => (u.core c).copyq =
           [{ q with st := .stopped, fault := some (BitVec.ofNat 64 dst, 2) }] ∧ u.mem = s.mem ∧
         QueueTakes s u (c / 8)
           { seq := 0, peeled := false, kind := 2, cause := cMemPoison, handle := q.handle, pc := 0
             addr := BitVec.ofNat 64 dst, aux := BitVec.ofNat 64 q.tok, index := .none, disp := 0, rule := 0, tile := q.tile
             core := c, uid := q.id, who := [], fbv := none, replay := false }) ∧
     (∀ e t, s.fibre? c e = some t →
       (t.why = .fifth → Completes (.tokenWaitEnd c e) s fun u => u.fibre? c e = some { t with st := .ready, why := .none }) ∧
       (∀ cl, t.why = .header → t.clause = some cl → t.failed = [] → t.kind = .fibre →
         let met : Prop := (∀ j ∈ hdrTokw cl.hdr, (s.core c).tokenBusy t.tokId j = false) ∧
           (hdrRdzw cl.hdr = true → (s.core c).forkOut t.inst = false) ∧ (hdrSeq cl.hdr = true →
             NothingPending (s.core c) t.uid ∧ ∀ o ∈ ((s.core c).ctx t.ctx).ops, o.uid ≠ t.uid)
         (met → Completes (.tokenWaitEnd c e) s fun u => u.turn = s.turn ∧ ∃ t1 : Thread, u.fibre? c e = some t1 ∧ t1.st = .ready ∧
           t1.why = .none ∧ t1.pc = cl.addr + 8 ∧ t1.clause = some { cl with begun := true } ∧ t1.regs = t.regs) ∧
         (¬ met → Completes (.tokenWaitEnd c e) s fun u =>
           u.fibre? c e = some { t with st := .wait, why := .header, since := waitFrom s t }))))

/-- 08 R235, R236, 02 R68: FORK by the tile's producer queues a stream with the group's values; a second waits. The sequencer begins
the next in order at its entry. RDZV of the stream joins it; a fibre's goes on where none is outstanding or it is joined, and waits
otherwise. That the stream's RDZV takes the completions of all its tile instructions in its own step is the model's reading (log
24). -/
def Obligations.StreamsAndJoins : Prop :=
  ∀ (s : State) (c : Nat),
    (∀ (o : ForkO) (e i : Nat) (t : Thread) (ti : TileInst),
      Commands s c e t o.g true (t.src s.draw o.a true :: forkOpds o t) → t.inst = some i →
      Tab.find? (s.core c).insts i = some ti →
      (ti.fork = none → Completes (.fork o) s fun u => ∃ r : ForkReq, (u.core c).forkq = (s.core c).forkq ++ [r] ∧
        r.inst = i ∧ r.ctx = t.ctx ∧ r.launch = t.launch ∧ r.entry = (t.src s.draw o.a true).u ∧ r.tile = ti.tile ∧
        r.args = (forkOpds o t).map Opd.u ∧ (∃ tj, Tab.find? (u.core c).insts i = some tj ∧ tj.fork = some false) ∧
        u.fibre? c e = some t.progressed.advance ∧ u.mem = s.mem) ∧
      (ti.fork ≠ none → NextIs (.fork o) s { t with st := .wait, why := .fork, since := waitFrom s t })) ∧
    (∀ (r : ForkReq) (rest : List ForkReq), (s.core c).stream = none → (s.core c).forkq = r :: rest → EngineFree s c r.ctx →
      Completes (.streamStart c) s fun u => (u.core c).forkq = rest ∧ ∃ x, (u.core c).stream = some x ∧ x.inst = r.inst ∧
        x.tile = r.tile ∧ x.th.kind = .stream ∧ x.th.pc = r.entry ∧ x.th.clause = none ∧ x.th.st = .ready ∧ x.th.ctx = r.ctx ∧
        ∀ k, k < r.args.length → x.th.reg k = .u (r.args.getD k 0) false) ∧
    (∀ (o : G) (x : Stream), OnStream s c x → x.th.guard o.g = .t → Completes (.rdzv o) s fun u =>
      (u.core c).stream = some { x with th := x.th.progressed.advance } ∧ ((u.core c).ctx x.th.ctx).ops = [] ∧ u.mem = s.mem ∧
      (∀ ti, Tab.find? (s.core c).insts x.inst = some ti →
        ∃ tj, Tab.find? (u.core c).insts x.inst = some tj ∧ tj.fork = some true) ∧
      (rising (s.core c).fibres = true → (s.core c).swaps = [] → ∀ e v, s.fibre? c e = some v → v.why = .rdzv →
        v.inst = some x.inst → GoesOnAt u c e v)) ∧
    (∀ (o : G) (e i : Nat) (t : Thread) (ti : TileInst), Commands s c e t o.g false [] → t.inst = some i → t.st = .ready →
      t.why = .none → Tab.find? (s.core c).insts i = some ti →
      (ti.fork ≠ some false → Completes (.rdzv o) s fun u => GoesOnAt u c e t ∧ u.mem = s.mem) ∧
      (ti.fork = some false → Completes (.rdzv o) s fun u =>
        u.fibre? c e = some { t.progressed with st := .wait, why := .rdzv, since := s.tick } ∧ u.mem = s.mem))

/-- 08 R237, R240, 16 R331, R336, R347: LAUNCH of a sound record puts it into the core's queue of four, and with a full queue waits
or, in its nonblocking form, says F; one that fails its checks traps LAUNCH_RECORD. CANCEL sends the job's bit to all 194 positions,
and completes with the last acknowledgement. What a fibre does while its CANCEL is under way is the model's reading (log 43). -/
def Obligations.LaunchAndCancel : Prop :=
  ∀ (s : State) (c e : Nat) (t : Thread),
    (∀ (o : LaunchO) (pa : Nat) (k : Ctx), Commands s c e t o.g false [t.src s.draw o.a true] → t.st = .ready → t.why = .none →
      (t.src s.draw o.a true).u.toNat % 128 = 0 → InPage s (.port t.ctx c .F) (t.src s.draw o.a true).u 128 .r pa → s.ctx? t.ctx = some k →
      let raw := s.readBytes none pa 128
      (recordOk k raw = true → (s.core c).pendq.length < 4 → Completes (.launch o) s fun u =>
        (∃ p : PendRec, (u.core c).pendq = (s.core c).pendq ++ [p] ∧ p.lr = parseRecord raw ∧ p.ctx = t.ctx) ∧
        GoesOnAt u c e t ∧ (o.nb = true → ∃ t1, u.fibre? c e = some t1 ∧ t1.pred o.p.toNat = .t) ∧ u.mem = s.mem) ∧
      (recordOk k raw = true → 4 ≤ (s.core c).pendq.length → o.nb = true → Completes (.launch o) s fun u =>
        (u.core c).pendq = (s.core c).pendq ∧ GoesOnAt u c e t ∧ ∃ t1, u.fibre? c e = some t1 ∧ t1.pred o.p.toNat = .f) ∧
      (recordOk k raw = true → 4 ≤ (s.core c).pendq.length → o.nb = false → Completes (.launch o) s fun u =>
        ∃ (t1 : Thread) (p : PendRec), u.fibre? c e = some t1 ∧ t1.st = .launchWait ∧ t1.why = .launch p ∧
          p.lr = parseRecord raw ∧ t1.pc = t.advance.pc) ∧
      (recordOk k raw = false → OneIndex s t o.g → QueueRoom s (c / 8) → Completes (.launch o) s fun u =>
        ∃ t1 : Thread, u.fibre? c e = some t1 ∧ t1.st = .parked ∧ t1.lcause = cLaunchRecord ∧ t1.pc = t.pc ∧ t1.regs = t.regs)) ∧
    (∀ o : JmpO, Commands s c e t o.g false [t.src s.draw o.a false] →
      let job := (t.src s.draw o.a false).u.toNat
      Completes (.cancel o) s fun u =>
        u.fibre? c e = some { t.progressed.advance with why := .cancel job (List.range 194), since := s.tick } ∧
        u.agenda = s.agenda ++ (List.range 194).map fun p => .cancelBroadcast p t.ctx job (s.gen t.ctx).toNat) ∧
    (∀ pos ctx job, pos < 194 → (∀ d, coreOfPos pos = some d → s.coreHasJob d ctx job = false) →
      Completes (.cancelBroadcast pos ctx job (s.gen ctx).toNat) s fun u => u.mem = s.mem ∧
        match coreOfPos pos with
        | some d => (ctx, job) ∈ (u.core d).cancelled
        | none => (ctx, job) ∈ (u.die (if pos = 0 then 0 else 1)).cancelled) ∧
    (∀ ctx job pos left, (s.core c).fibres = [(e, t)] → t.ctx = ctx → t.why = .cancel job left →
      Completes (.cancelAcknowledgement c pos ctx job (s.gen ctx).toNat) s fun u => u.mem = s.mem ∧
        u.fibre? c e = some (if left.filter (· ≠ pos) = [] then { t with st := .ready, why := .none }
          else { t with why := .cancel job (left.filter (· ≠ pos)) }))

/-- 08 R238, R239, 16 R339, 02 R54: WAITC of a counter that is zero goes on with an acquire, of one that is not waits; a later look
at a counter that has become zero lets the fibre go on. A fibre that has waited SWAP_DELAY, which may be no time at all (18 R367),
and one that its core chooses for want of resources, is swapped out, its lane blocks free and its record kept. That a later look
reads the physical address that the counter had at issue (log 103), which fibre a core swaps out for want of resources and when (log
96), and that a WAITC swapped out for resources keeps its carry set (log 41) are the model's readings. -/
def Obligations.CounterWaitsAndSwaps : Prop :=
  ∀ (s : State) (c e : Nat) (t : Thread),
    let swapped (u : State) (r : SwapRec) : Prop := Tab.find? (u.core c).swaps e = some r ∧
      (∃ t1 : Thread, u.fibre? c e = some t1 ∧ t1.st = .swapped ∧ t1.blocks = [] ∧ t1.uid = t.uid) ∧ u.mem = s.mem
    (∀ (o : WaitcO) (pa : Nat), Commands s c e t o.g false [t.src s.draw o.a true, t.src s.draw o.b false] →
      (t.src s.draw o.a true).u.toNat % 8 = 0 → InPage s (.port t.ctx c .F) (t.src s.draw o.a true).u 8 .r pa →
      (∀ w ∈ s.log, w.covers (some lostSpace) pa 8 = false) →
      (numAt s none pa 8 = 0 → Completes (.waitc o) s fun u => GoesOnAt u c e t ∧ u.mem = s.mem) ∧
      (numAt s none pa 8 ≠ 0 → Completes (.waitc o) s fun u => u.mem = s.mem ∧ .waitcResume c e ∈ u.agenda ∧
        (s.swapDelay t.ctx ≠ 0 → .swapDelayExpiry c e ∈ u.agenda ∧
          ∃ t1 : Thread, u.fibre? c e = some t1 ∧ t1.st = .wait ∧ t1.pc = t.advance.pc ∧
            t1.why = .waitc ((t.src s.draw o.b false).u.setWidth 32) pa (t.src s.draw o.a true).u s.nextId))) ∧
    (∀ m pa va id, s.fibre? c e = some t → t.st = .wait → t.why = .waitc m pa va id →
      (Tab.find? (s.core c).swaps e = none → s.heldAt pa 8 = false → s.badRead none pa 8 = false → s.mem.flaws = [] →
        (∀ w ∈ s.log, w.covers none pa 8 = false ∧ w.covers (some lostSpace) pa 8 = false) →
        (numAt s none pa 8 = 0 → Completes (.waitcResume c e) s fun u => u.mem = s.mem ∧
          ∃ t1 : Thread, u.fibre? c e = some t1 ∧ t1.st = .ready ∧ t1.why = .none ∧ t1.pc = t.pc ∧ t1.regs = t.regs) ∧
        (numAt s none pa 8 ≠ 0 → Completes (.waitcResume c e) s fun u =>
          u = { s with agenda := s.agenda ++ [.waitcResume c e] })) ∧
      (∀ r, (s.core c).anyToken t.tokId = false → s.swapRecord c t true = some r →
        s.swapDue c e = s.swapOut c e t r ∧ Completes (.swapDelayExpiry c e) s fun u => swapped u r)) ∧
    (∀ r, s.swapChoice c = some (e, t, r) → Completes (.resourceSwapOut c) s fun u => swapped u r) ∧
    (s.swapChoice c = none → Machine.exec (.resourceSwapOut c) s = .next s)

/-! ### The matrix engine -/

/-- 09 R249, R250, R255, R256, R271, R273, R274: TCFG zeroes every tile and sets the configuration; TFILL and TDRAIN of one index
move eight registers and a chunk of a row; TLATCH makes a tile resident in pads of twelve blocks; MSTAT reads the status word and
with .clr clears the sticky bits; an admitted instruction's completion sets its sticky bits. While a split MMA into the tile is
under way, TFILL and TDRAIN wait (09 R247, R270). That the agent's own step takes the completions it waits for is the model's
reading (log 24). -/
def Obligations.TileStateAndStatus : Prop :=
  ∀ (s : State) (c : Nat),
    (∀ (o : TcfgO) (x : Stream) (f : TCfg), Streams s c x o.g → TCfg.ofBlock (x.m o.msk.toNat) = some f → Whole (State.kOf s c x) →
      Completes (.tcfg o) s fun u => (State.kOf u c x).cfg = f ∧ (State.kOf u c x).hold = none ∧ (State.kOf u c x).ops = [] ∧
        (State.kOf u c x).resid = [] ∧ (u.core c).stream = some { x with th := x.th.advance } ∧ u.mem = s.mem ∧
        ∀ n, n < 128 → ((State.kOf u c x).tile n).bytes = [] ∧ ((State.kOf u c x).tile n).scale = []) ∧
    (∀ (o : TileO) (x : Stream), Streams s c x o.g → ((State.kOf s c x).tile o.t.toNat).poison = false →
      let n := (State.kOf s c x).cfg.dims.2.1 / 16 * ((State.kOf s c x).cfg.dims.2.2 / 16)
      Completes (.tlatch o) s fun u => (u.core c).stream = some { x with th := x.th.advance } ∧
        (State.kOf u c x).tiles = (State.kOf s c x).tiles ∧ u.mem = s.mem ∧
        ∃ l, (State.kOf u c x).resid = l ++ [(o.t.toNat, n)] ∧ (∀ r ∈ l, r ∈ (State.kOf s c x).resid ∧ r.1 ≠ o.t.toNat) ∧
          l.foldl (fun acc r => acc + r.2) 0 + n ≤ 12) ∧
    (∀ (o : TfillO) (e : Nat) (t : Thread), OnRange s c e t → t.box.count = 1 → t.guard o.g = .t →
      (t.src s.draw o.row false).clean = true → t.why = .none → t.st = .ready →
      let row := ((t.src s.draw o.row false).val 0).toNat
      let old := ((s.core c).ctx t.ctx).tile o.tile.toNat
      (if o.chunk = 4#3 then row = 0 else row < 32) → o.chunk.toNat ≤ 4 →
      let forming := ((s.core c).ctx t.ctx).forming o.tile.toNat
      (forming = true → Machine.exec (.tfill o) s = .next s ∧ Machine.exec (.tdrain o) s = .next s) ∧
      (forming = false → (∀ k, k < 8 → (t.read32 (o.grp.toNat + k)).clean = true) → Completes (.tfill o) s fun u =>
        let new := ((u.core c).ctx t.ctx).tile o.tile.toNat
        GoesOnAt u c e t ∧ u.mem = s.mem ∧ new.version = old.version + 1 ∧
        ∀ k b, k < 8 → b < 4 →
          (if o.chunk = 4#3 then Bytes.get new.scale (4 * k + b) else Bytes.get new.bytes (128 * row + 32 * o.chunk.toNat + 4 * k + b))
            = ((t.read32 (o.grp.toNat + k)).val 0).extractLsb' (8 * b) 8) ∧
      (forming = false → old.poison = false → (∀ k, k < 8 → t.needsLanes ⟨false, o.grp + BitVec.ofNat 6 k⟩ (.w32 false) (Opd.ofU 0) = false) →
        o.grp.toNat + 8 ≤ t.window → (∀ n, t.reg n ≠ .p) → Settled s → (t.src s.draw o.row false).isU = true →
        Completes (.tdrain o) s fun u => u.mem = s.mem ∧ ((u.core c).ctx t.ctx).tile o.tile.toNat = old ∧
          ∃ t1 : Thread, u.fibre? c e = some t1 ∧ t1.pc = t.advance.pc ∧ ∀ k, k < 8 →
            t1.reg (o.grp.toNat + k) = .u (BitVec.ofNat 64 (leNat (((if o.chunk = 4#3 then Bytes.read old.scale 0 32
              else Bytes.read old.bytes (128 * row + 32 * o.chunk.toNat) 32).drop (4 * k)).take 4))) false)) ∧
    (∀ (o : MstatO) (x : Stream), Streams s c x o.g → Whole (State.kOf s c x) → Completes (.mstat o) s fun u => ∃ t1 : Thread,
      (u.core c).stream = some { x with th := t1.advance } ∧ (State.kOf u c x).ops = [] ∧ u.mem = s.mem ∧
      Holds x.th t1 o.d .w64 (BitVec.ofNat 64 (
        let k := State.kOf s c x
        let on (f : TileOp → Bool) (old : Bool) : Bool := old || k.ops.any f
        k.resid.foldl (fun acc r => acc + r.2) 0 * 2 ^ 12 + (if k.hold.isSome then 2 ^ 11 else 0)
          + (if on TileOp.nano k.nano then 4 else 0) + (if on TileOp.aovf k.aovf then 2 else 0) + (if on TileOp.rcnf k.rcnf then 1 else 0))) ∧
      (o.clr = true → (State.kOf u c x).rcnf = false ∧ (State.kOf u c x).aovf = false ∧ (State.kOf u c x).nano = false)) ∧
    (∀ (ctx : Nat) (op : TileOp) (rest : List TileOp), ((s.core c).ctx ctx).ops = op :: rest → op.running = false → (s.core c).stream = none →
      let k := (s.core c).ctx ctx
      Completes (.tileInstructionCompletion c ctx) s fun u =>
        (u.core c).ctx ctx = { k with ops := rest, rcnf := k.rcnf || op.rcnf, aovf := k.aovf || op.aovf, nano := k.nano || op.nano } ∧
        u.mem = s.mem)

/-- 09 R245, R251-R254, R257, R258: TZERO zeroes a tile; TTRN transposes one; TLOAD of one row puts its bytes in line 0 and zeros
elsewhere; TSCL loads the scale bytes; TSTORE of one row stores line 0. That TLOAD, TSCL and TSTORE read and write memory when they
are admitted is the model's reading (log 36). -/
def Obligations.TileMoves : Prop :=
  ∀ (s : State) (c : Nat) (x : Stream),
    (∀ o : TileO, Streams s c x o.g → WritesTile (.tzero o) s c x o.t.toNat [] fun t =>
      t.bytes = [] ∧ t.scale = [] ∧ t.poison = false) ∧
    (∀ o : TtrnO, Streams s c x o.g → o.esz ≠ 3#2 → ((State.kOf s c x).tile o.a.toNat).poison = false →
      WritesTile (.ttrn o) s c x o.d.toNat [o.a.toNat] fun t => t.scale = [] ∧ t.poison = false ∧
        ∀ i j, i < 32 → j < 32 →
          t.elem (2 ^ o.esz.toNat) i j = ((State.kOf s c x).tile o.a.toNat).elem (2 ^ o.esz.toNat) j i) ∧
    (∀ (o : TmemO) (pa : Nat), Streams s c x o.g → o.sp = false →
      let hi := x.m (o.msk.toNat + 1)
      let d := TDesc.of (x.m o.msk.toNat) hi o.esz.toNat
      let old := (State.kOf s c x).tile o.t.toNat
      s.tmemBad x.th o hi d = none → d.rows = 1 →
      (InPage s (.port x.th.ctx c .X) (x.m o.msk.toNat) d.bytes .r pa → WritesTile (.tload o) s c x o.t.toNat [] fun t =>
        t.scale = [] ∧ t.poison = false ∧
        ∀ b, Bytes.get t.bytes b = if b < d.bytes then s.readByte none (pa + b) else 0) ∧
      (InPage s (.port x.th.ctx c .X) (x.m o.msk.toNat) d.bytes .w pa → Completes (.tstore o) s fun u =>
        Stored s u none pa d.bytes (leNat (Bytes.read old.bytes 0 d.bytes)) ∧
        (State.kOf u c x).tiles = (State.kOf s c x).tiles ∧
        ∃ t1 : Thread, (u.core c).stream = some { x with th := t1.advance } ∧
          t1 = { x.th.progressed with view := t1.view, lviews := t1.lviews })) ∧
    (∀ (o : TmemO) (pa : Nat), Streams s c x o.g → o.sp = false → (x.m o.msk.toNat).toNat % 32 = 0 →
      InPage s (.port x.th.ctx c .X) (x.m o.msk.toNat) 32 .r pa → (x.m o.msk.toNat).toNat + 32 ≤ 2 ^ 55 →
      WritesTile (.tscl o) s c x o.t.toNat [o.t.toNat] fun t =>
        t.bytes = ((State.kOf s c x).tile o.t.toNat).bytes ∧
        ∀ b, b < 32 → Bytes.get t.scale b = s.readByte none (pa + b))

/-- 09 R259-R268, R403, 04 R113-R115: TSCALE, TADD and MMA element by element: a power of two, a sum rounded once or modulo 2^32,
and C plus the products, in classical order, as exact integers, or recombined; outside the mask D keeps its elements, and RU keeps
A. A split MMA may stop at a boundary of its stages; when it goes on it leaves what an MMA in one piece leaves (09 R269, R270).
Whether an MMA is split in time is a free value (log 75), and that a hold ends after any MMA with RU clear is the model's reading
(log 82). -/
def Obligations.TileArithmetic : Prop :=
  ∀ (s : State) (c : Nat) (x : Stream),
    let k := State.kOf s c x
    (∀ (o : TscaleO) (f : Fmt), Streams s c x o.g → fmtOf4 o.fmt = some f → f ∉ [Fmt.i8, .n8, .q4] →
      (k.tile o.a.toNat).poison = false →
      WritesTile (.tscale o) s c x o.d.toNat [o.a.toNat] fun t => t.scale = (k.tile o.a.toNat).scale ∧
        ∀ i j, i < 32 → j < 32 → t.elem (f.bits / 8) i j =
          (let v := ((fpOfFmt f).dec ((k.tile o.a.toNat).elem (f.bits / 8) i j)).scale o.exp.toInt
           if f = .e4m3 ∨ f = .e5m2 then toFp8 (fpOfFmt f) .rne false v else (fpOfFmt f).enc .rne v) % 2 ^ f.bits) ∧
    (∀ o : TscaleO, Streams s c x o.g → o.fmt = 14#4 → (k.tile o.a.toNat).poison = false →
      let sc (i : Nat) : Nat := (Bytes.get (k.tile o.a.toNat).scale i).toNat
      (∀ i, i < 32 → sc i = 0x3F ∨ (0 ≤ (sc i % 64 : Nat) + o.exp.toInt ∧ (sc i % 64 : Nat) + o.exp.toInt ≤ 62)) →
      WritesTile (.tscale o) s c x o.d.toNat [o.a.toNat] fun t => ∀ i, i < 32 →
        (Bytes.get t.scale i).toNat = (if sc i = 0x3F then 0x3F else sc i / 64 * 64 + ((sc i % 64 : Nat) + o.exp.toInt).toNat) ∧
        ∀ b, b < 16 → Bytes.get t.bytes (128 * i + b) = Bytes.get (k.tile o.a.toNat).bytes (128 * i + b)) ∧
    (∀ o : TaddO, Streams s c x o.g → (k.tile o.a.toNat).poison = false → (k.tile o.b.toNat).poison = false →
      WritesTile (.tadd o) s c x o.d.toNat [o.a.toNat, o.b.toNat] fun t => t.scale = [] ∧ ∀ i j, i < 32 → j < 32 →
        let a := (k.tile o.a.toNat).elem 4 i j
        let b := (k.tile o.b.toNat).elem 4 i j
        let sg (n : Bool) (v : Nat) : Machine.Num := if n then (fpF32.dec v).neg else fpF32.dec v
        t.elem 4 i j = if k.cfg.acc then low32N (intOf o.na a + intOf o.nb b)
          else fpF32.enc .rne ((sg o.na a).add false (sg o.nb b)) % 2 ^ 32) ∧
    (∀ (o : MmaO) (fa fb : Fmt) (lim : Nat × Nat × Nat), Streams s c x o.g → mmaFormats o k.cfg = some (fa, fb) →
      maskOf (x.m o.msk.toNat) = some lim → k.hold = none → x.mma = none →
      (∀ n ∈ [o.a.toNat, o.b.toNat, o.c.toNat, o.d.toNat], (k.tile n).poison = false) →
      let reads := [o.a.toNat, o.b.toNat] ++ (if o.flag 11 then [] else [o.c.toNat])
      let holds (u : State) : Prop := (State.kOf u c x).hold =
        if o.flag 14 then some ⟨o.a, o.afmt, o.flag 8, o.flag 13, k.tile o.a.toNat⟩ else none
      (s.slow = false ∨ mmaStages o k.cfg fa fb ≤ 1 →
        WritesTile (.mma o) s c x o.d.toNat reads (MmaLeaves o k.cfg fa fb lim (k.tile o.a.toNat) (k.tile o.b.toNat)
          (k.tile o.c.toNat) (k.tile o.d.toNat)) ∧ Completes (.mma o) s holds) ∧
      (s.slow = true → 1 < mmaStages o k.cfg fa fb → Completes (.mma o) s fun u => holds u ∧
        (∃ r, (u.core c).stream = some { x with mma := some r } ∧ AtStage o k.cfg fa fb lim r ∧ r.a = k.tile o.a.toNat ∧
          r.b = k.tile o.b.toNat ∧ r.c = k.tile o.c.toNat ∧ r.old = k.tile o.d.toNat) ∧
        (State.kOf u c x).tiles = k.tiles ∧ (∃ op, (State.kOf u c x).ops = k.ops ++ [op] ∧ op.reads = reads ∧
          op.writes = some o.d.toNat ∧ op.running = true) ∧ u.mem = s.mem ∧ u.log = s.log)) ∧
    (∀ (o : MmaO) (fa fb : Fmt) (lim : Nat × Nat × Nat) (r : MmaRun), Streams s c x o.g → mmaFormats o k.cfg = some (fa, fb) →
      maskOf (x.m o.msk.toNat) = some lim → x.mma = some r → AtStage o k.cfg fa fb lim r →
      (s.slow = false ∨ r.stage + 1 = mmaStages o k.cfg fa fb → Completes (.mma o) s fun u =>
        (u.core c).stream = some { x with mma := none, th := x.th.advance } ∧
        MmaLeaves o k.cfg fa fb lim r.a r.b r.c r.old ((State.kOf u c x).tile o.d.toNat) ∧
        ((State.kOf u c x).tile o.d.toNat).version = (k.tile o.d.toNat).version + 1 ∧
        (∀ n, n ≠ o.d.toNat → (State.kOf u c x).tile n = k.tile n) ∧ Whole (State.kOf u c x) ∧
        .tileInstructionCompletion c x.th.ctx ∈ u.agenda ∧ u.mem = s.mem ∧ u.log = s.log) ∧
      (s.slow = true → r.stage + 1 < mmaStages o k.cfg fa fb → Completes (.mma o) s fun u =>
        (∃ r1, (u.core c).stream = some { x with mma := some r1 } ∧ AtStage o k.cfg fa fb lim r1 ∧
          r1 = { r with stage := r.stage + 1, vals := r1.vals }) ∧ State.kOf u c x = k ∧ u.mem = s.mem ∧ u.log = s.log))

/-- 09 R275, 12 R283, R286, R299: RWLOAD replaces the rule table whole, with the default rules or a sound image, and delivers its
status; a misaligned image leaves the table. A rule replaces the instructions at the front of a window that its slots match, with
the tiles their variables name and under its class's enables, and drops no write that could be seen; the first rule in the table's
order is taken (12 R287-R289, R295, R304). With rewriting off every tile instruction passes as it is; an original of a group is
absorbed, and its unit acts at the last. What a window foresees is the model's reading (log 68). -/
def Obligations.Rewriting : Prop :=
  ∀ (s : State),
    (∀ (o : RwloadO) (t : Thread), Acts s t o.g → takesU t o.d (.w32 false) = true → Settled s →
      let n := s.ruleCtx t
      (o.dflt = true → ∀ k, s.ctx? n = some k → Completes (.rwload o) s fun u => u.ctx? n = some { k with rules := defaultRules } ∧
        u.mem = s.mem ∧ ∃ t1 : Thread, u.cur? = some t1.advance ∧ Holds t t1 o.d (.w32 false) 0) ∧
      (o.dflt = false → (t.src s.draw o.a true).isU = true → (t.src s.draw o.a true).clean = true →
        (t.src s.draw o.a true).u.toNat % 64 ≠ 0 → Completes (.rwload o) s fun u => u.ctxs = s.ctxs ∧
          ∃ t1 : Thread, u.cur? = some t1.advance ∧ Holds t t1 o.d (.w32 false) 5)) ∧
    (∀ (o : RwloadO) (c pa pb n : Nat) (x : Stream) (k : Ctx), Streams s c x o.g → o.dflt = false →
      (x.th.src s.draw o.a true).isU = true → (x.th.src s.draw o.a true).clean = true → s.ctx? x.th.ctx = some k →
      let a := (x.th.src s.draw o.a true).u
      a.toNat % 64 = 0 → 0 < n → n ≤ 64 → InPage s (.port x.th.ctx c .X) a 64 .r pa → InPage s (.port x.th.ctx c .X) (a + 64) (64 * n) .r pb →
      fieldAt (s.readBytes none pa 64) 0 1 = 1 → fieldAt (s.readBytes none pa 64) 2 2 = n →
      (crc32 (s.readBytes none pb (64 * n))).toNat = fieldAt (s.readBytes none pa 64) 4 4 →
      (entriesOf n (s.readBytes none pb (64 * n))).all entryOk = true →
      Completes (.rwload o) s fun u => u.ctx? x.th.ctx = some { k with rules := entriesOf n (s.readBytes none pb (64 * n)) } ∧
        u.mem = s.mem ∧ ∃ t1 : Thread, u.cur? = some t1.advance ∧ Holds x.th t1 o.d (.w32 false) 0) ∧
    (∀ (k : Ctx) (cfg : TCfg) (e : RuleEntry) (win : List WIns) (out : List Instr) (reads : List Nat) (n : Nat),
      tryRule k cfg e win = some (out, reads, n) → n = ruleSlots e ∧ SlotsMatch e win ∧
        (ruleClass e = 1 → k.rwR = true ∧ ∀ x ∈ win.take n, fOpc x.w = 0x3C9 → (fFlags x.w).getLsbD 9 = false) ∧
        (ruleClass e = 2 → k.rwF = true) ∧
        (ruleKeep e = 0 → ∃ reps : List (Instr × Option Word), reps.map Prod.fst = out ∧ out.length = ruleReps e ∧
          ∀ j x t, j < n → win[j]? = some x → (tileUse x.ins).1 = some t →
            Overwritten cfg t (reps.map (fun r => (r.1, r.2, true)) ++ (win.drop n).map fun y => (y.ins, y.msk, y.sure)) ∨
            ((∀ i ∈ out, (tileUse i).1 ≠ some t) ∧ ∃ y ∈ win.take j, t ∈ (tileUse y.ins).2))) ∧
    (∀ (k : Ctx) (cfg : TCfg) (fuel : Nat) (x : WIns) (rest : List WIns),
      (k.rwEn = false ∨ (∀ e ∈ k.rules, tryRule k cfg e (x :: rest) = none) →
        planWindow k cfg (fuel + 1) (x :: rest) = (x.pc, .pass) :: planWindow k cfg fuel rest) ∧
      ∀ n e out reads len, 0 < len → k.rwEn = true → k.rules[n]? = some e → tryRule k cfg e (x :: rest) = some (out, reads, len) →
        (∀ j f, j < n → k.rules[j]? = some f → tryRule k cfg f (x :: rest) = none) →
        ∃ l : WIns, ((x :: rest).take len).getLast? = some l ∧ planWindow k cfg (fuel + 1) (x :: rest) =
          (((x :: rest).take len).dropLast.map fun m => (m.pc, PlanItem.drop x.pc)) ++
            (l.pc, .emit n x.pc out (len = 1) reads) :: planWindow k cfg fuel ((x :: rest).drop len)) ∧
    (∀ (c : Nat) (x : Stream), (s.core c).stream = some x → x.th.st = .ready → x.th.clause ≠ none →
      (∀ k w rest, x.planned = none → s.ctx? x.th.ctx = some k → w.pc = x.th.pc →
        ({ s with turn := .stream c } : State).window (State.kOf s c x).cfg 17 8 ⟨[], [], []⟩ [] (State.kOf s c x).hold = w :: rest →
        Completes (.rewriteWindow c) s fun u =>
          (u.core c).stream = some { x with plan := planWindow k (State.kOf s c x).cfg 8 (w :: rest) }) ∧
      (∀ k, x.planned = none → s.ctx? x.th.ctx = some k → k.rwEn = false → Completes (.rewriteWindow c) s fun u =>
        ∃ plan, (u.core c).stream = some { x with plan := plan } ∧ Stream.planned { x with plan := plan } = some .pass) ∧
      (x.planned = some .pass → Machine.exec (.rewriteWindow c) s = .next s) ∧
      (∀ pc, x.planned = some (.drop pc) → Completes (.rewriteWindow c) s fun u => State.kOf u c x = State.kOf s c x ∧
        u.turn = s.turn ∧ u.mem = s.mem ∧
        ∃ sn, (u.core c).stream = some { x with th := x.th.advance, snap := sn }) ∧
      (∀ rule pc (t : BitVec 7), x.planned = some (.emit rule pc [.tzero ⟨.always, t⟩] true []) → x.th.kind = .stream →
        Completes (.rewriteWindow c) s fun u => ((State.kOf u c x).tile t.toNat).bytes = [] ∧ u.turn = s.turn ∧
          (∀ n, n ≠ t.toNat → (State.kOf u c x).tile n = (State.kOf s c x).tile n) ∧
          (u.core c).stream = some { x with th := x.th.advance, snap := none }))

/-! ### Management cores -/

/-- 07 R197-R200, R402: CSRR delivers a CSR's value; CSRW, CSRS and CSRC also write it, 32-bit forms leaving the upper half; a write
lands where the register is, read-only fields and registers keep what they have, and a write-1-to-clear bit is cleared by a 1. The
registers that events write take the value; TRAP_CAUSE.VALID removes the head record. Which core's MSTAT a management core reaches
is a free value (log 28). That GO is judged by the state before the fields written with it (log 27) and that a CLPM_RETN write with
both SAVE and RESTORE is a SAVE (log 98) are the model's choices. -/
def Obligations.ControlRegisters : Prop :=
  ∀ (s : State),
    (∀ (i : Instr) (o : CsrO) (f : Option (Word → Word → Word)) (t : Thread) (old : Word), csrEffect i = some (o, f) →
      Acts s t o.g → t.kind ≠ .stream → (t.kind = .mc ↔ s.csrBy.mc.isSome = true) → csrListed s.csrBy.mc.isSome o.csr.toNat = true →
      s.csrGet s.csrBy o.csr.toNat = some old → takesU t o.d (rwOf o.w64) = true → Settled s →
      let x := t.src s.draw o.a o.w64
      (f ≠ none → x.isU = true ∧ x.clean = true) → (∀ k, s.csrBy.mc = some k → HeadQuiet s k) →
      Completes i s fun u => u.mem = s.mem ∧ u.log = s.log ∧
        (∃ t1 : Thread, u.cur? = some t1.advance ∧ Holds t t1 o.d (rwOf o.w64) (if o.w64 then old else (old.setWidth 32).setWidth 64)) ∧
        (match f with
        | none => u.ctxs = s.ctxs ∧ u.cores = (s.setCur ((u.cur?).getD t)).cores
        | some f => CsrHolds s u s.csrBy o.csr.toNat
            (if o.w64 then f old x.u else old.extractLsb' 32 32 ++ (f old x.u).setWidth 32))) ∧
    (∀ (k ctx csr : Nat) (v : Word), (∃ x, s.ctx? ctx = some x) → HeadQuiet s k → Completes (.csrWrite k ctx csr v) s fun u =>
      CsrHolds s u ⟨ctx, 8 * k + Config.pick s.draw 0x21 0 % 8, some k⟩ csr v ∧ u.mem = s.mem) ∧
    (∀ (k : Nat) (v : Word),
      (Completes (.mcEpc k v) s fun u => (u.mc k).epc = v ∧ (u.mc k).resume = .header ∧ u.mem = s.mem) ∧
      (Completes (.mcPtroot k v) s fun u => (u.mc k).root = v.extractLsb' 16 36 ∧ (u.mc k).en = v.getLsbD 0 ∧
        (u.mc k).tlb = [] ∧ u.mem = s.mem) ∧
      (v.getLsbD 8 = false → Machine.exec (.trapCause k v) s = .next s) ∧
      (∀ r rest, v.getLsbD 8 = true → (s.cluster k).trapq = r :: rest → Completes (.trapCause k v) s fun u =>
        (r.disp ≠ 1#2 → (u.cluster k).trapq = rest) ∧ (HeadQuiet s k → u.mem = s.mem) ∧
        (∀ e t, HeadQuiet s k → r.disp = 1#2 → r.kind = 0 → r.fbv = none → r.replay = false → r.index = .none →
          rising (s.core r.core).fibres = true → Tab.find? (s.core r.core).swaps e = none → s.recEntry r = some (e, t) → t.st = .parked → u.fibre? r.core e = none))) ∧
    (∀ (k : Nat) (v : Byte) (r : TrapRec) (rest : List TrapRec), (s.cluster k).trapq = r :: rest →
      Completes (.trapWindowStore k v) s fun u => (u.cluster k).trapq = { r with disp := v.extractLsb' 6 2 } :: rest ∧
        u.mem = s.mem ∧ u.cores = s.cores)

/-- 07 R201-R203, R208: at a clause boundary with traps queued a management core enters its handler; ERET returns from it. SLEEP
ends at once with the pending events of its mask, or stops the core until one is pending. TLBI drops what it names from the TLBs and
the caches of non-leaf entries, and starts the replay of what it covers. That the mailbox's doorbell shows on every cluster as long
as the command runs is the model's choice (log 85), and so is that what is saved of a context that is switched out is not covered by
a TLBI (log 102). -/
def Obligations.HandlerSleepTlbi : Prop :=
  ∀ (s : State) (k : Nat),
    (s.handlerDue k = true → Completes (.mcHandlerEntry k) s fun u => (u.mc k).epc = (s.mc k).th.pc ∧ (u.mc k).cause = 0 ∧
      (u.mc k).inh = true ∧ (u.mc k).th = { (s.mc k).th with pc := (s.mc k).hvec } ∧ u.mem = s.mem ∧ u.cores = s.cores) ∧
    (s.handlerDue k = false → Machine.exec (.mcHandlerEntry k) s = .next s) ∧
    (∀ (o : G) (t : Thread), OnMc s k t → t.guard o.g = .t →
      ((s.mc k).resume = .header → Completes (.eret o) s fun u => (u.mc k).inh = false ∧ (u.mc k).th = atHeader t (s.mc k).epc) ∧
      (∀ c, (s.mc k).resume = .inClause c → Completes (.eret o) s fun u => (u.mc k).inh = false ∧ (u.mc k).th.pc = (s.mc k).epc ∧
        (u.mc k).th.latches = [] ∧ (u.mc k).th.regs = t.regs ∧
        (u.mc k).th.clause = some { c with pos := ((s.mc k).epc - c.addr).toNat / 8 - 1, begun := true })) ∧
    (∀ (o : FgetO) (t : Thread), OnMc s k t → t.guard o.g = .t → (t.src s.draw o.a false).clean = true →
      let m : BitVec 3 := (t.src s.draw o.a false).u.setWidth 3
      let e := (BitVec.ofNat 3 (eventsOf s k)) &&& m
      (e ≠ 0#3 → Completes (.sleep o) s fun u => (u.mc k).asleep = none ∧
        ∃ t1 : Thread, (u.mc k).th = t1.advance ∧ Holds t t1 o.d (.w32 false) (e.setWidth 64)) ∧
      (e = 0#3 → Completes (.sleep o) s fun u => (u.mc k).asleep = some (m, o.d) ∧ (u.mc k).th = t)) ∧
    (∀ (m : BitVec 3) (d : Dst), (s.mc k).asleep = some (m, d) → (s.mc k).th.kind = .mc →
      let e := (BitVec.ofNat 3 (eventsOf s k)) &&& m
      (e ≠ 0#3 → Completes (.sleepWake k) s fun u => (u.mc k).asleep = none ∧ u.turn = s.turn ∧
        ∃ t1 : Thread, (u.mc k).th = t1.advance ∧ Holds (s.mc k).th t1 d (.w32 false) (e.setWidth 64)) ∧
      (e = 0#3 → Completes (.sleepWake k) s fun u => (u.mc k).asleep = some (m, d) ∧ (u.mc k).th = (s.mc k).th)) ∧
    (∀ (o : TlbiO) (t : Thread), OnMc s k t → t.guard o.g = .t → o.sel ≠ 3#2 →
      let va := t.src s.draw o.a true
      let n := (t.src s.draw o.b false).u.toNat
      va.clean = true → (t.src s.draw o.b false).clean = true → (o.sel = 2#2 ∨ n ≤ 63) →
      (∀ c, ∀ q ∈ (s.core c).loads, ∀ f ∈ q.faults, f.replayable = false) →
      let named (e : TlbEnt) : Bool := (o.sel = 2#2 || decide (e.ctx = n)) &&
        (o.sel ≠ 0#2 || decide (e.page = va.u.toNat / 2 ^ levelBits e.level))
      let namedP (e : PtrEnt) : Bool := (o.sel = 2#2 || decide (e.ctx = n)) &&
        (o.sel ≠ 0#2 || decide (e.page = va.u.toNat / 2 ^ levelBits e.level))
      Completes (.tlbi o) s fun u => u.tlb = s.tlb.filter (!named ·) ∧ u.ptrs = s.ptrs.filter (!namedP ·) ∧
        (u.mc k).th = t.advance ∧ u.mem = s.mem ∧
        ∀ c r b, Tab.find? (s.core c).book r = some b → (o.sel = 2#2 ∨ b.ctx = n) →
          (o.sel ≠ 0#2 ∨ va.u.toNat / 2 ^ 16 = b.va.toNat / 2 ^ 16 ∨
            (b.cause = cPageFault ∧ b.level < 2 ∧ va.u.toNat / 2 ^ levelBits b.level = b.va.toNat / 2 ^ levelBits b.level)) →
          ∃ b', Tab.find? (u.core c).book r = some b' ∧ b'.replaying = true)

/-- 07 R204-R207, 17 R353, R354, R357, R359: FSEL selects the fibre of a handle; FGET reads its window as of a clause boundary, and
FSET writes it where the fibre is PARKED; FRESUME makes it READY, waiting first for a load of it that is outstanding; REPLAY starts
its field-book records, whose completion delivers the values and ends the wait. None of these runs on a fibre. That none of them
runs on a fibre, which traps PRIVILEGE, is 07 R196's. That FRESUME of a fibre with a load outstanding waits until its data has
arrived is the model's reading (log 43), and so is that FGET of a fibre inside a clause waits for the clause's end (log 77). -/
def Obligations.FibreControl : Prop :=
  (∀ (s : State) (k : Nat) (t : Thread), OnMc s k t →
    (∀ (o : FselO) (ctx c e : Nat) (f : Thread), t.guard o.g = .t → (t.src s.draw o.a false).clean = true → ctx < 64 → c < 192 →
      c / 8 = k → e < 4096 → s.fibre? c e = some f → f.ctx = ctx →
      (t.src s.draw o.a false).u.setWidth 32 = handleOf false ctx c e →
      Completes (.fsel o) s fun u => (u.mc k).sel = .fibre c e f.uid ∧ McSays u k t o.p true ∧ u.cores = s.cores) ∧
    (∀ (o : FselO), t.guard o.g = .t → (t.src s.draw o.a false).clean = true →
      ((t.src s.draw o.a false).u.setWidth 32).extractLsb' 27 5 ≠ 0#5 →
      Completes (.fsel o) s fun u => (u.mc k).sel = .none ∧ McSays u k t o.p false ∧ u.cores = s.cores) ∧
    (∀ (o : FgetO), t.guard o.g = .t → (t.src s.draw o.a false).clean = true →
      let off := (t.src s.draw o.a false).u.toNat
      ((s.mc k).sel = .none → ResultIs (.fget o) s t o.d .w64 0) ∧
      ∀ c e f, Selected s k c e f →
        -- a fibre in the middle of its clause has no value of a clause boundary yet
        (f.st = .ready → f.clause ≠ none → Machine.exec (.fget o) s = .next s) ∧
        ((f.st ≠ .ready ∨ f.clause = none) →
        (off = 8 → f.heldTraps = [] → (∀ fs fb st was, f.why ≠ .faults fs fb st was) → ResultIs (.fget o) s t o.d .w64 f.pc) ∧
        (∀ r rest, off = 8 → f.heldTraps = r :: rest → ResultIs (.fget o) s t o.d .w64 r.pc) ∧
        (off = 0x10 → ResultIs (.fget o) s t o.d .w64 (BitVec.ofNat 64 (f.frame.x1 % 2 ^ 32 * 2 ^ 32 + f.frame.x0 % 2 ^ 32))) ∧
        (∀ n b p, n < 64 → n < f.window → off = 0x100 + 32 * n + 8 → f.reg n = .u b p → ResultIs (.fget o) s t o.d .w64 b))) ∧
    (∀ (o : FsetO), t.guard o.g = .t → (t.src s.draw o.a false).clean = true → (t.src s.draw o.b true).clean = true →
      (t.src s.draw o.a false).u.toNat = 8 → ∀ c e f, Selected s k c e f →
        (f.st = .parked → Completes (.fset o) s fun u => McSays u k t o.p true ∧
          u.fibre? c e = some { f with pc := (t.src s.draw o.b true).u, clause := none, latches := [] } ∧
          (∀ j, j ≠ e → u.fibre? c j = s.fibre? c j) ∧ u.mem = s.mem) ∧
        (f.st ≠ .parked → Completes (.fset o) s fun u => McSays u k t o.p false ∧ u.cores = s.cores ∧ u.mem = s.mem)) ∧
    (∀ (o : FresumeO), t.guard o.g = .t → o.part = none → ∀ c e f, Selected s k c e f →
      (f.st = .parked → Completes (.fresume o) s fun u => McSays u k t o.p true ∧ u.mem = s.mem ∧
        ∃ f1, u.fibre? c e = some f1 ∧ f1.st = .ready ∧ f1.pc = f.pc ∧ f1.regs = f.regs ∧
          ((∀ q ∈ (s.core c).loads, q.uid ≠ f.uid) → f1.why = .none) ∧ ((∃ q ∈ (s.core c).loads, q.uid = f.uid) → f1.why = .loadData)) ∧
      (f.st ≠ .parked → Completes (.fresume o) s fun u => McSays u k t o.p false ∧ u.cores = s.cores)) ∧
    (∀ (o : ReplayO), t.guard o.g = .t → o.core = false → ∀ c e f, Selected s k c e f →
      Completes (.replay o) s fun u => u.mem = s.mem ∧
        McSays u k t o.p ((s.core c).book.any fun kv => !kv.2.replaying && kv.2.uid = f.uid) ∧
        ∀ r b, Tab.find? (s.core c).book r = some b → b.uid = f.uid →
          ∃ b', Tab.find? (u.core c).book r = some b' ∧ b'.replaying = true)) ∧
  ∀ (s : State) (c e : Nat) (f : Thread) (i : Instr), OnRange s c e f → f.clause ≠ none → QueueRoom s (c / 8) →
      ((∃ o, i = .eret o) ∨ (∃ o, i = .sleep o) ∨ (∃ o, i = .tlbi o) ∨ (∃ o, i = .fsel o) ∨ (∃ o, i = .fget o) ∨ (∃ o, i = .fset o) ∨
        (∃ o, i = .fresume o) ∨ ∃ o, i = .replay o) → FibreTraps i s c e f cPrivilege 0 false

/-- 17 R357, R359, R362, R348, 08 R225, R226: a replayed record of a fetch lets its fibre fetch again, and one of a load of one
index delivers the data and ends the wait; a finished walk enters the TLBs only with a leaf; held traps enter the queue as it has
room. -/
def Obligations.ReplayWalkAndQueue : Prop :=
  ∀ (s : State) (c r : Nat) (b : FbRec) (t : Thread),
    (Tab.find? (s.core c).book r = some b → b.replaying = true → s.fibre? c b.entry = some t → t.uid = b.uid → t.st = .replayWait →
      t.fbrec = some r → t.frame = b.frame → (∀ p ∈ b.pend, p ∈ t.places) → (∀ o ∈ (s.core c).loads, o.uid ≠ b.uid) →
      (s.core c).bookq = [] → Tab.find? (s.core c).swaps b.entry = none →
      (b.acc = 4 → Completes (.replayComplete c r) s fun u => u.mem = s.mem ∧ u.turn = s.turn ∧
        ∃ t1, u.fibre? c b.entry = some t1 ∧ t1.st = .ready ∧ t1.why = .none ∧ t1.pc = t.pc ∧ t1.regs = t.regs) ∧
      (∀ (l : LdO) (a : Word) (pa : Nat), b.acc = 0 → decode b.instr = .ok (.ld l) → b.addr = .u a → b.pend = [0] → t.kind = .fibre →
        t.expanded = false → t.box.count = 1 → sizeOk l.size = true → l.size ≠ 8#4 → takesU t l.d (sizeRW l.size) = true →
        (l.ord.getLsbD 0 = false ∨ l.scp ≠ 3#2) →
        Reaches { s with turn := .fibre c b.entry } t (a + b.off) (sizeBytes l.size) .r pa →
        Completes (.replayComplete c r) s fun u => u.mem = s.mem ∧ u.turn = s.turn ∧
          ∃ t1, u.fibre? c b.entry = some t1 ∧ t1.st = .ready ∧ t1.why = .none ∧ t1.pc = t.pc ∧
            Holds t t1 l.d (sizeRW l.size) (loadedWord l.size (numAt s none pa (sizeBytes l.size))))) ∧
    (∀ (ctx va root : Nat), s.rootOf (.hub ctx 0) = some root → va < 2 ^ 55 → Calm s →
      (∀ level leaf, s.walk va 3 root 0 = .ok (level, leaf) → Completes (.pageWalkComplete ctx va) s fun u =>
        (∀ d, d < 2 → ∃ e ∈ u.tlb, e.unit = .die d ∧ e.ctx = ctx ∧ e.leaf = leaf ∧ e.page = va / 2 ^ levelBits e.level) ∧
          u.mem = s.mem ∧ u.cores = s.cores) ∧
      (∀ f, s.walk va 3 root 0 = .error f → Machine.exec (.pageWalkComplete ctx va) s = .next s)) ∧
    (∀ (k : Nat) (h : TrapRec), (s.cluster k).held = [h] → (s.cluster k).trapq.length < Config.trapQueueSize →
      Completes (.heldTrapPush k) s fun u => QueueTakes s u k h ∧ u.mem = s.mem ∧ u.cores = s.cores)

/-! ### Clauses -/

/-- 05 R118-R120, 02 R54-R56, R71: a clause whose header is sound and waits for nothing begins at its first word; a knit keeps the
live registers and restarts the watchdog's count; a held fibre goes on when its hold runs out. A header of another class, or with
its reserved bit set, traps at the boundary, as does a count over the budget, with WATCHDOG and the count in AUX. Fibres that wait
for resources try their word again when some are freed. -/
def Obligations.ClausesBegin : Prop :=
  (∀ (s : State) (t : Thread) (cl : Clause), t.clause = some cl →
     (s.cur? = some t → headerCause t.kind (s.isPriv t.ctx) cl.hdr = none → hdrKnit cl.hdr = false → (∀ c, s.curCore = some c → waitless (s.core c) t cl.hdr) →
       Completes (.clauseHeader cl.hdr) s fun u => u.mem = s.mem ∧ ∃ t1, u.cur? = some t1 ∧ Begun t1 cl ∧ t1.regs = t.regs ∧
         t1.preds = t.preds ∧ t1.wdog = t.wdog) ∧
     (∀ c e, OnRange s c e t → (s.core c).fibres = [(e, t)] → headerCause .fibre (s.isPriv t.ctx) cl.hdr = none →
       hdrKnit cl.hdr = true → waitless (s.core c) t cl.hdr → Completes (.clauseHeader cl.hdr) s fun u => u.mem = s.mem ∧
         ∃ t1, u.fibre? c e = some t1 ∧ Begun t1 cl ∧ t1.wdog = 0 ∧
           (∀ n, hdrLiveReg cl.hdr n = true ∨ t.window ≤ n → t1.reg n = t.reg n) ∧
           ∀ n, hdrLivePred cl.hdr n = true → t1.pred n = t.pred n) ∧
     (∀ c e, OnFibre s c e t → QueueRoom s (c / 8) →
       let traps (cause : BitVec 8) : Prop := Completes (.clauseHeader cl.hdr) s fun u =>
         u.mem = s.mem ∧ ∃ t1, u.fibre? c e = some t1 ∧ t1.st = .parked ∧ t1.lcause = cause ∧ t1.pc = t.pc ∧ t1.clause = none ∧
           ∃ r, (u.cluster (c / 8)).trapq = (s.cluster (c / 8)).trapq ++ [r] ∧ r.cause = cause ∧ r.index = .none ∧ r.pc = t.pc
       (hdrClass cl.hdr = 1 → traps cIllegalClass) ∧ (hdrClass cl.hdr = 2 → s.isPriv t.ctx = false → traps cPrivilege) ∧
       (hdrClass cl.hdr = 0 → cl.hdr.getLsbD 44 = true → traps cReservedField)) ∧
     (∀ c e, s.fibre? c e = some t → t.kind = .fibre → t.why = .knitHold → waitless (s.core c) t cl.hdr →
       Completes (.knitHoldExpiry c e) s fun u => u.mem = s.mem ∧ u.turn = s.turn ∧
         ∃ t1, u.fibre? c e = some t1 ∧ Begun t1 cl ∧ t1.regs = t.regs)) ∧
  (∀ (s : State) (c e : Nat) (t : Thread), s.fibre? c e = some t →
     (e < 4096 → t.st = .ready → t.clause = none → QueueRoom s (c / 8) →
       (s.overBudget t = true → Completes (.watchdog c e) s fun u => u.mem = s.mem ∧ u.turn = s.turn ∧
         (∃ t1, u.fibre? c e = some t1 ∧ t1.st = .parked ∧ t1.lcause = cWatchdog ∧ t1.pc = t.pc ∧ t1.regs = t.regs) ∧
         ∃ r, (u.cluster (c / 8)).trapq = (s.cluster (c / 8)).trapq ++ [r] ∧ r.cause = cWatchdog ∧
           r.aux = BitVec.ofNat 64 (t.wdog % 2 ^ 32) ∧ r.pc = t.pc) ∧
       (s.overBudget t = false → Machine.exec (.watchdog c e) s = .next s)) ∧
     (rising (s.core c).fibres = true →
       (∀ kv ∈ (s.core c).fibres, kv.2.st = .resourceWait → kv.2.why = .resource ∧ kv.2.heldTraps = []) →
       Completes (.resourceRetry c) s fun u => u.mem = s.mem ∧
         u.fibre? c e = some (if t.st = .resourceWait then { t with st := .ready, why := .none } else t)))

/-! ### Tasks -/

/-- 16 R334, R336, R337, R404, R345: a doorbell within the ring sets TAIL; the dispatcher admits its next record, whose tiles become
task records of both dies; it hands records to cores in turn; a core starts a tile with a fibre over the tile's box; held completion
entries are written as the ring has room. Which entry a fibre takes is left open. -/
def Obligations.AdmissionToTileStart : Prop :=
  ∀ (s : State),
    (∀ (ctx : Nat) (v : Word) (k : Ctx), s.ctx? ctx = some k →
      ((v.toNat % 2 ^ 32 + 2 ^ 32 - s.qHead k) % 2 ^ 32 ≤ s.qSize k → Calm s → Completes (.ctxDoorbell ctx v) s fun u => u.mem = s.mem ∧
        .dispatchAdmit (ctx % 2) ∈ u.agenda ∧ ∃ k', u.ctx? ctx = some k' ∧ k'.tail = v.setWidth 32) ∧
      (s.qSize k < (v.toNat % 2 ^ 32 + 2 ^ 32 - s.qHead k) % 2 ^ 32 → s.flowing = true → Sound s (k.q + 40) 1 →
        Completes (.ctxDoorbell ctx v) s fun u => u.ctxs = s.ctxs ∧
          numAt u none (k.q + 40) 1 = min 255 (numAt s none (k.q + 40) 1 + 1))) ∧
    (∀ die, s.nextCand die = none → s.mem.flaws = [] → Nothing (.dispatchAdmit die) s) ∧
    (∀ (die p a rank c : Nat) (r : PendRec) (rest : List PendRec), die < 2 → s.nextCand die = some ⟨p, a, rank, .pend c⟩ →
      (s.core c).pendq = r :: rest → (∀ t ∈ (s.core c).threads, t.st ≠ .launchWait) → s.gen r.ctx = r.gen →
      (r.ctx, r.lr.job.toNat) ∉ (s.core c).cancelled → (r.ctx, r.lr.job.toNat) ∉ (s.die die).cancelled → r.lr.args = 0 → Calm s →
      Completes (.dispatchAdmit die) s fun u => (u.core c).pendq = rest ∧ u.mem = s.mem ∧
        (∃ l, u.launch? s.fresh = some l ∧ l.lr = r.lr ∧ l.ctx = r.ctx ∧ l.made = r.lr.numTiles ∧ l.ended = 0 ∧ l.bank = []) ∧
        let n := r.lr.numTiles
        let task (i : Nat) : TaskMsg := ⟨s.fresh, i, 0, r.ctx, r.gen⟩
        (u.die die).toPlace = (s.die die).toPlace ++ (List.range ((n + 1) / 2)).map task ∧
        (u.die (1 - die)).toPlace = (s.die (1 - die)).toPlace ++
          (List.range (n - (n + 1) / 2)).map fun i => task ((n + 1) / 2 + i)) ∧
    (∀ (die : Nat), (s.die die).toPlace = [] → Nothing (.dispatchPlace die) s) ∧
    (∀ (die c : Nat) (m : TaskMsg) (rest : List TaskMsg), (s.die die).toPlace = m :: rest → s.gen m.ctx = m.gen →
      (m.ctx, s.msgJob m) ∉ (s.die die).cancelled → s.nextCore die = some c →
      Completes (.dispatchPlace die) s fun u => (u.die die).toPlace = rest ∧ (u.die die).last = c % 96 ∧
        (u.core c).backlog = (s.core c).backlog ++ [⟨m, none, s.tick⟩] ∧ u.mem = s.mem) ∧
    (∀ (c : Nat) (t : Task) (l : Launch), s.nextTask c = some (t, l) → s.taskCancelled c t = false →
      (s.tileFits c t l = false → Nothing (.tileStart c) s) ∧
      (s.tileFits c t l = true → ∀ (k : Ctx) (o : Obj), s.ctx? l.ctx = some k →
        (k.objs.find? fun o => o.num = l.lr.obj) = some o → Completes (.tileStart c) s fun u =>
          (u.core c).backlog = (s.core c).backlog.filter (· ≠ t) ∧ u.mem = s.mem ∧
          ∃ e f, s.fibre? c e = none ∧ u.fibre? c e = some f ∧ f.st = .ready ∧ f.clause = none ∧ f.expanded = false ∧
            f.box = l.lr.tileBox t.msg.tile ∧ f.box0 = f.box ∧ f.window = (l.lr.choice t.msg.tile).2.1 ∧
            f.pc = o.codeBase + BitVec.ofNat 64 (l.lr.choice t.msg.tile).1 ∧ f.launch = t.msg.launch ∧ f.ctx = l.ctx ∧
            (∀ n, f.pred n = .f) ∧ f.rs = [] ∧ f.wdog = 0 ∧
            ∃ i ti, f.inst = some i ∧ Tab.find? (u.core c).insts i = some ti ∧ ti.tile = t.msg.tile ∧ ti.fork = none)) ∧
    (∀ (ctx : Nat) (k : Ctx), s.ctx? ctx = some k →
      (k.held = [] → Nothing (.heldCompletionEntry ctx) s) ∧
      (k.held ≠ [] → s.doneRoom k = false → Calm s → Posts (.heldCompletionEntry ctx) s [.heldCompletionEntry ctx]) ∧
      (∀ w rest, k.held = w :: rest → s.doneRoom k = true →
        let at_ := s.qDone k + 8 * (s.qDtail k % s.qDsize k)
        s.flowing = true → Sound s at_ 8 → Sound s (k.q + 28) 4 → at_ + 8 ≤ k.q + 28 ∨ k.q + 32 ≤ at_ →
        Completes (.heldCompletionEntry ctx) s fun u => u.ctx? ctx = some { k with held := rest } ∧
          u.host.msix = s.host.msix ++ [8 + ctx] ∧ numAt u none at_ 8 = w.1.toNat ∧
          numAt u none (k.q + 28) 4 = (s.qDtail k + 1) % 2 ^ 32))

/-- 16 R338, R344, R345, R405: a launch whose work has all ended finishes, decrementing its counter; the traverse token waits at an
active position and moves on from a passive one; the second clean round completes the job. -/
def Obligations.CompletionOfWork : Prop :=
  ∀ (s : State),
    (∀ (n : Nat) (l : Launch), s.launch? n = some l →
      ((l.ended ≠ l.made ∨ s.hasLaunch n = true) → Nothing (.launchFinish n) s) ∧
      (l.ended = l.made → s.hasLaunch n = false → s.gen l.ctx = l.gen →
        (l.lr.counter = 0 → Completes (.launchFinish n) s fun u => u.launches = Tab.del s.launches n ∧ u.mem = s.mem) ∧
        (∀ pa, l.lr.counter ≠ 0 → l.lr.counter.toNat % 8 = 0 → InPage s (.hub l.ctx l.die) l.lr.counter 8 .rw pa →
          Completes (.launchFinish n) s fun u => u.launches = Tab.del s.launches n ∧
            Stored s u none pa 8 ((numAt s none pa 8 + 2 ^ 64 - 1) % 2 ^ 64)))) ∧
    (∀ (ctx job : Nat) (k : Ctx) (j : Job), s.ctx? ctx = some k → Tab.find? k.jobs job = some j → Calm s →
      let pos := (j.token.map Token.at_).getD 0
      (s.passive pos ctx job = false → Posts (.traverseToken ctx job) s [.traverseToken ctx job]) ∧
      (s.passive pos ctx job = true →
        (j.token = none → Completes (.traverseToken ctx job) s fun u => .traverseToken ctx job ∈ u.agenda ∧
          ∃ k' j', u.ctx? ctx = some k' ∧ Tab.find? k'.jobs job = some j' ∧ j'.token = some ⟨1, false, 0, 0⟩) ∧
        (∀ t, j.token = some t → t.at_ ≠ 0 → t.at_ < 194 →
          (∀ c, coreOfPos t.at_ = some c → s.inC0 c = true) → Completes (.traverseToken ctx job) s fun u =>
            .traverseToken ctx job ∈ u.agenda ∧ ∃ k' j', u.ctx? ctx = some k' ∧ Tab.find? k'.jobs job = some j' ∧
              t.at_ ∉ j'.black ∧ j'.token = some { t with
                at_ := (t.at_ + 1) % 194, sum := t.sum + Tab.get j.counts 0 t.at_, black := t.black || j.black.contains t.at_ }) ∧
        (∀ t, j.token = some t → t.at_ = 0 → t.black = false → t.sum + Tab.get j.counts 0 0 = 0 → t.clean = 1 →
          k.held = [] → s.doneRoom k = false → Completes (.traverseToken ctx job) s fun u =>
            ∃ k', u.ctx? ctx = some k' ∧ Tab.find? k'.jobs job = none ∧
              k'.held = [(BitVec.ofNat 64 (job * 2 ^ 32 + j.status.toNat * 2 ^ 24), j.hb)])))

/-- 16 R340, R341, R343, R346: stealing and draining: an idle core asks the next core of its round; a victim with two records lends
the one it would start last; the thief takes it and acknowledges, and the victim retires it; after a whole round the thief waits. A
core that DSTOP tells to drain returns its unstarted records to the dispatcher, as it does a record lent to it then. What counts as
a record that a core holds is the model's reading (log 62). -/
def Obligations.StealingAndDraining : Prop :=
  ∀ (s : State) (c : Nat),
    (s.canSteal c = false → Nothing (.stealRequest c) s) ∧
    (∀ v, s.canSteal c = true → (stealOrder c)[(s.core c).steal.asked]? = some v → Completes (.stealRequest c) s fun u =>
      u.agenda = s.agenda ++ [.stealVictim v c] ∧ (u.core c).steal.asking = some v) ∧
    (∀ thief, (s.core c).draining = true ∨ s.inC0 c = false ∨ (s.core c).unlent.length < 2 ∨ s.lendable c = none →
      Posts (.stealVictim c thief) s [.stealNone thief]) ∧
    (∀ (thief : Nat) (t : Task), (s.core c).draining = false → s.inC0 c = true → 2 ≤ (s.core c).unlent.length →
      s.lendable c = some t → Completes (.stealVictim c thief) s fun u =>
        let m : TaskMsg := { t.msg with seq := t.msg.seq + 1 }
        u.agenda = s.agenda ++ [.lentRecord thief c m] ∧
        (u.core c).backlog = (s.core c).backlog.map fun x => if x = t then { t with msg := m, lent := some thief } else x) ∧
    (∀ (victim : Nat) (m : TaskMsg), s.gen m.ctx = m.gen → (s.core c).handled.any (sameTask m ·) = false →
      (s.core c).backlog.any (fun t => sameTask m t.msg) = false → Completes (.lentRecord c victim m) s fun u =>
        .stealAck victim m ∈ u.agenda ∧ (u.core c).steal = ⟨none, 0, false⟩ ∧ (u.core c).handled = (s.core c).handled ++ [m] ∧
        ((s.core c).draining = false → (u.core c).backlog = (s.core c).backlog ++ [⟨m, none, s.tick⟩]) ∧
        ((s.core c).draining = true → (u.core c).backlog = (s.core c).backlog.filter (fun t => t.lent.isSome) ∧
          .unstartedRecordReturn (dieOf c) c ((s.core c).unlent.map Task.msg ++ [m]) ∈ u.agenda)) ∧
    (∀ (t : Task), t ∈ (s.core c).backlog → t.lent.isSome = true → s.gen t.msg.ctx = t.msg.gen →
      Completes (.stealAck c t.msg) s fun u => t ∉ (u.core c).backlog ∧ u.mem = s.mem ∧
        ∀ x ∈ (s.core c).backlog, x.lent = none → x ∈ (u.core c).backlog) ∧
    ((s.core c).steal.asked + 1 < 95 → Completes (.stealNone c) s fun u => (u.core c).steal.asking = none ∧
      (u.core c).steal.asked = (s.core c).steal.asked + 1) ∧
    (95 ≤ (s.core c).steal.asked + 1 → Completes (.stealNone c) s fun u => (u.core c).steal = ⟨none, 0, true⟩ ∧
      .stealRetryTimer c ∈ u.agenda) ∧
    (Completes (.stealRetryTimer c) s fun u => (u.core c).steal = { (s.core c).steal with backoff := false } ∧ u.mem = s.mem ∧
      ((s.core c).backlog = [] → (s.core c).draining = false → (s.core c).steal.asking = none → s.inC0 c = true →
        .stealRequest c ∈ u.agenda)) ∧
    ((State.pmOf s (c / 8)).dstop = false → Nothing (.drainNotice c) s) ∧
    ((State.pmOf s (c / 8)).dstop = true → Completes (.drainNotice c) s fun u => (u.core c).draining = true ∧ u.mem = s.mem ∧
      (u.core c).backlog = (s.core c).backlog.filter (fun t => t.lent.isSome) ∧
      u.agenda = s.agenda ++ (if (s.core c).unlent = [] then []
        else [.unstartedRecordReturn (dieOf c) c ((s.core c).unlent.map Task.msg)])) ∧
    (∀ ts : List TaskMsg, Completes (.unstartedRecordReturn (dieOf c) c ts) s fun u => u.mem = s.mem ∧
      (∀ m ∈ ts, s.gen m.ctx = m.gen → m ∈ (u.die (dieOf c)).toPlace) ∧
      ∀ m ∈ (s.die (dieOf c)).toPlace, m ∈ (u.die (dieOf c)).toPlace)

/-! ### Contexts and the host -/

/-- 17 R364-R366: a context whose work stands still leaves its core, its area marked with the major, the core, the context and the
generation; until then the request stays. A restore whose header matches, with the places free, puts its fibres back as they were;
one that does not match changes nothing. That the save area's address is physical and what a switch waits for are the model's
readings (logs 60, 66). -/
def Obligations.SwitchAndRestore : Prop :=
  ∀ (s : State) (c ctx : Nat) (k : Ctx), s.ctx? ctx = some k →
    (Tab.find? k.saved c = none → (s.core c).settled ctx = true → (s.core c).stream = none → (s.core c).copyq = [] →
      s.flowing = true → Sound s (k.areaOf c) 8 → c < 192 → ctx < 64 → Completes (.contextSwitch c ctx) s fun u =>
        (∀ e t, u.fibre? c e = some t → t.ctx ≠ ctx) ∧
        (∀ e t, rising (s.core c).fibres = true → s.fibre? c e = some t → t.ctx ≠ ctx → u.fibre? c e = some t) ∧
        (∃ k' v, u.ctx? ctx = some k' ∧ Tab.find? k'.saved c = some v ∧ v.gen = s.gen ctx ∧
          v.fibres = (s.core c).fibres.filter fun kv => kv.2.ctx = ctx) ∧
        ([1, 2, 3, 4].map fun i => (u.readByte none (k.areaOf c + i)).toNat) = [2, c, ctx, (s.gen ctx).toNat]) ∧
    (Tab.find? k.saved c = none → (s.core c).stream = none → (s.core c).copyq = [] → (s.core c).settled ctx = false →
      Completes (.contextSwitch c ctx) s fun u => .contextSwitch c ctx ∈ u.agenda ∧ ctx ∈ (u.core c).stopped ∧ u.mem = s.mem) ∧
    (∀ v, Tab.find? k.saved c = some v → Calm s →
      let header : List Nat := [1, 2, 3, 4].map fun i => (s.readByte none (k.areaOf c + i)).toNat
      (header ≠ [2, c, header.getD 2 0, (s.gen ctx).toNat] ∨ header.getD 2 0 % 64 ≠ ctx ∨ v.gen ≠ s.gen ctx →
        Nothing (.contextRestore c ctx) s) ∧
      (header = [2, c, ctx, (s.gen ctx).toNat] → ctx < 64 → v.gen = s.gen ctx →
        ((s.core c).roomToRestore ctx v = false → Posts (.contextRestore c ctx) s [.contextRestore c ctx]) ∧
        ((s.core c).roomToRestore ctx v = true → rising v.fibres = true → (s.core c).cancelled = [] →
          Completes (.contextRestore c ctx) s fun u => u.mem = s.mem ∧ ctx ∉ (u.core c).stopped ∧
            ∀ e t, Tab.find? v.fibres e = some t → ∃ t1, u.fibre? c e = some t1 ∧ t1.pc = t.pc ∧ t1.regs = t.regs ∧
              t1.preds = t.preds ∧ t1.box = t.box ∧ t1.active = t.active)))

/-- 19 R373-R377, R379, R400, R401, 14 R325, 16 R343: a doorbell starts the command of its code; each command ends with its status,
BUSY falls and vector 0 is raised. CTX_CREATE makes the context that its block describes, CTX_RESET moves its generation on,
CTX_DESTROY removes it, and a bad argument answers 0x42. The order of the checks of CTX_CREATE, that CMD and REQ come with the
doorbell, and what CTX_DESTROY drops are the model's choices (logs 30, 32, 67). -/
def Obligations.MailboxCommands : Prop :=
  ∀ (s : State),
    (∀ (cmd : BitVec 8) (req v : Word), v.getLsbD 0 = true → s.host.mb.busy = false → s.host.booted = true →
      Completes (.mbDb cmd req v) s fun u => u.host.mb.busy = true ∧ u.host.mb.cmd = cmd ∧ u.host.mb.req = req ∧ u.mem = s.mem ∧
        u.agenda = s.agenda ++ [match cmd.toNat with
          | 1 => .ctxCreate req.toNat
          | 2 => .ctxReset req.toNat
          | 3 => .ctxDestroy req.toNat
          | 16 => .objLoad req.toNat
          | 17 => .measRead req.toNat
          | 32 => .mbClpm req.toNat
          | 48 => .haltInfo req.toNat
          | n => .mbUnknownCmd n]) ∧
    (∀ (cmd : BitVec 8) (req v : Word), v.getLsbD 0 = false ∨ s.host.mb.busy = true → Completes (.mbDb cmd req v) s fun u =>
      u.agenda = s.agenda ∧ u.host.mb.busy = s.host.mb.busy) ∧
    (∀ n, Completes (.mbUnknownCmd n) s fun u => MbEnds s u 0x40#8 ∧ u.mem = s.mem ∧ u.ctxs = s.ctxs) ∧
    (∀ req, Calm s →
      let raw := s.readBytes none req 88
      let host := (List.range 5).map fun i => BitVec.ofNat 16 (fieldAt raw (2 + 2 * i) 2)
      (chooseMajors host = none → Completes (.ctxCreate req) s fun u => MbEnds s u 0x41#8 ∧ u.ctxs = s.ctxs) ∧
      (∀ majors, chooseMajors host = some majors →
        let bs := createBlock raw (majors.getD 3 0).toNat
        let n := fieldAt bs 0 1
        (createBad bs (fun n => (s.ctx? n).isSome) = true → Completes (.ctxCreate req) s fun u =>
          MbEnds s u 0x42#8 ∧ u.ctxs = s.ctxs) ∧
        (createBad bs (fun n => (s.ctx? n).isSome) = false → Completes (.ctxCreate req) s fun u => MbEnds s u 0 ∧
          ∃ k, u.ctx? n = some k ∧ k.root = BitVec.ofNat 64 (fieldAt bs 16 8) ∧ k.qdesc = BitVec.ofNat 64 (fieldAt bs 24 8) ∧
            k.save = BitVec.ofNat 64 (fieldAt bs 32 8) ∧ k.pool = fieldAt bs 40 8 ∧ k.priv = decide (fieldAt bs 1 1 % 2 = 1) ∧
            k.wdog = BitVec.ofNat 32 (fieldAt bs 56 4) ∧ k.knit = BitVec.ofNat 10 (fieldAt bs 60 2) ∧ k.majors = majors ∧
            k.rules = defaultRules ∧ k.objs = [] ∧ k.meas = List.replicate 64 0#8 ∧
            ∀ p, p < 16 → s.host.peerup.getLsbD p = true → Tab.find? u.host.peerSize p = some (fieldAt bs 68 4 * 2 ^ 16)))) ∧
    (∀ req, Calm s → s.ctxReqBad req = true → (Completes (.ctxReset req) s fun u => MbEnds s u 0x42#8 ∧ u.ctxs = s.ctxs) ∧
      Completes (.ctxDestroy req) s fun u => MbEnds s u 0x42#8 ∧ u.ctxs = s.ctxs) ∧
    (∀ req k0, Calm s → s.ctxReqBad req = false → let n := numAt s none req 1
      s.ctx? n = some k0 → (Completes (.ctxReset req) s fun u => MbEnds s u 0 ∧ u.gen n = s.gen n + 1 ∧ u.mem = s.mem ∧
        ∃ k, u.ctx? n = some k ∧ k.gen = s.gen n + 1 ∧ k.meas = List.replicate 64 0#8 ∧ k.jobs = [] ∧ k.held = k0.held) ∧
      Completes (.ctxDestroy req) s fun u => MbEnds s u 0 ∧ u.gen n = s.gen n + 1 ∧ u.mem = s.mem ∧ u.ctx? n = none)

/-- 14 R325, R326, 19 R374, R377: OBJ_LOAD without its context, with a poisoned image, or as the loader answers; MEAS_READ copies
the context's measurement; CLPM takes the cluster to the state in single steps, each as the one before is done, or is refused;
HALT_INFO names the halted management core. Where the request block has these arguments is a free value (log 30). The single steps
of CLPM are 19 R380's and 20 R383's. How the loader places what it loads, that OBJ_LOAD without its context answers 5 and with an
image that it cannot read, or that is poisoned, 1 (log 31), that CLPM answers 0x43 while the cluster steps, and otherwise at its
goal or at the first step that is refused (log 30), and that CLPM to the state that the cluster has is done at once (log 94) are the
model's choices. -/
def Obligations.MailboxData : Prop :=
  ∀ (s : State) (req : Nat), Calm s →
    let b := s.readBytes none req 64
    let fails (i : Instr) (status : BitVec 8) : Prop := Completes i s fun u => MbEnds s u status ∧ u.mem = s.mem ∧ u.ctxs = s.ctxs
    (s.ctx? (Config.reqCtx b) = none → fails (.objLoad req) 5#8 ∧ fails (.measRead req) 0x42#8) ∧
    (∀ k, s.ctx? (Config.reqCtx b) = some k →
      let img := s.readBytes none (Config.reqImage b) (Config.reqLength b)
      (k.arenaSize = 0 → fails (.objLoad req) 5#8) ∧
      (k.arenaSize ≠ 0 → s.badRead none (Config.reqImage b) (Config.reqLength b) = true → fails (.objLoad req) 1#8) ∧
      (k.arenaSize ≠ 0 → s.badRead none (Config.reqImage b) (Config.reqLength b) = false → Completes (.objLoad req) s fun u =>
        MbEnds s u (BitVec.ofNat 8 (s.loadObject (Config.reqCtx b) k img).2.status) ∧
        u.ctxs = (s.loadObject (Config.reqCtx b) k img).1.ctxs) ∧
      (k.meas.length = 64 → Sound s (req + Config.measOffset % 64) 64 → Completes (.measRead req) s fun u => MbEnds s u 0 ∧
        u.readBytes none (req + Config.measOffset % 64) 64 = k.meas)) ∧
    (let goal := s.host.mb.goal
     let n := (goal.getD (Config.reqCluster b, Config.reqState b)).1
     let tgt := (goal.getD (Config.reqCluster b, Config.reqState b)).2
     let p := State.pmOf s n
     let next := if p.cur < tgt then p.cur + 1#2 else p.cur - 1#2
     (24 ≤ n ∨ (goal = none ∧ p.busy = true) → fails (.mbClpm req) 0x43#8) ∧
     (n < 24 → goal ≠ none → p.busy = true → Posts (.mbClpm req) s [.mbClpm req]) ∧
     (n < 24 → p.busy = false → p.cur = tgt → Completes (.mbClpm req) s fun u => MbEnds s u 0 ∧ u.host.mb.goal = none ∧
       State.pmOf u n = p ∧ u.mem = s.mem) ∧
     (n < 24 → p.busy = false → p.cur ≠ tgt → ¬ stepAllowed s n next → Completes (.mbClpm req) s fun u => MbEnds s u 0x43#8 ∧
       u.host.mb.goal = none ∧ State.pmOf u n = { p with err := true } ∧ u.mem = s.mem) ∧
     (n < 24 → p.busy = false → p.cur ≠ tgt → stepAllowed s n next → Completes (.mbClpm req) s fun u =>
       u.host.mb.busy = s.host.mb.busy ∧ u.host.mb.goal = some (n, tgt) ∧ (State.pmOf u n).busy = true ∧
       (State.pmOf u n).dest = next ∧ u.agenda = s.agenda ++ [.clpmStepDone n, .mbClpm req] ∧ u.mem = s.mem)) ∧
    (s.host.mb.halt = false → fails (.haltInfo req) 0) ∧
    (s.host.mb.halt = true → Sound s (req + Config.haltOffset % 63) 2 → Completes (.haltInfo req) s fun u => MbEnds s u 0 ∧
      u.readBytes none (req + Config.haltOffset % 63) 2 = [BitVec.ofNat 8 s.host.mb.haltCluster, (s.mc s.host.mb.haltCluster).cause])

/-- 19 R378, R379: the responder's answers, each signed; module reset clears the cores and contexts, and boots the management cores
where the flash image is good. The signature, the ROM's verdict and the first clause's address are free values (logs 7, 16). What
GET_VERSION answers, that GET_CAPABILITIES and NEGOTIATE_ALGORITHMS answer nothing, that GET_DIGESTS answers the hash of slot 0's
chain and GET_CERTIFICATE nothing for another slot (log 16), that the hash is SHA-512 as FIPS 180-4 has it (log 33), and that HBM
keeps its bytes over a reset (log 34) are the model's choices. -/
def Obligations.AttestationAndBoot : Prop :=
  ∀ (s : State),
    Responds .getVersion s [1#8, 3#8] Spdm.version ∧ Responds .getCapabilities s [] Spdm.caps ∧
    Responds .negotiateAlgorithms s [] Spdm.algs ∧ Responds .getDigests s (sha512 Config.identityChain) (fun _ => true) ∧
    (∀ slot, Responds (.getCertificate slot) s (if slot = 0 then Config.identityChain else []) fun _ => true) ∧
    Responds (.getMeasurements 1) s Config.romHash (fun _ => true) ∧
    Responds (.getMeasurements 2) s Config.firmwareHash (fun _ => true) ∧
    Responds (.getMeasurements 3) s (leBytes 8 Config.securityVersion.toNat) (fun _ => true) ∧
    (∀ n, n < 64 → Responds (.getMeasurements (16 + n)) s (match s.ctx? n with
      | some k => k.meas
      | none => List.replicate 64 0#8) fun _ => true) ∧
    (Completes .moduleReset s fun u => u.cores = [] ∧ u.ctxs = [] ∧ u.launches = [] ∧ u.agenda = [] ∧ u.hbm = Hbm.reset ∧
      (Config.bootVerdict = 0#8 → u.host.booted = true ∧ u.host.bootstat = 0#8 ∧
        ∀ k, k < 24 → (u.mc k).on = true ∧ (u.mc k).halted = false ∧ (u.mc k).th.pc = Config.mcStart k &&& ~~~7#64 ∧
          (u.mc k).inh = false ∧ (u.mc k).ie = false) ∧
      (Config.bootVerdict ≠ 0#8 → u.host.booted = false ∧ u.host.bootstat ≠ 0#8 ∧ ∀ k, (u.mc k).on = false))

/-! ### Power, links and memory hardware -/

/-- 19 R380-R383, 16 R346: GO steps to a neighbouring state, or only sets ERR; a GO while a step is in progress is ignored; a step
that ends sets the state; FLUSH, ESTOP and DSTOP set and clear their bits, DSTOP draining the cores; the always-on interface answers
for cores that are off. What an off cluster keeps is the model's reading (logs 59, 64). -/
def Obligations.PowerSteps : Prop :=
  ∀ (s : State) (k : Nat),
    let p := State.pmOf s k
    (∀ tgt, tgt < 4 →
      (p.busy = true → Nothing (.clpmGo k tgt) s) ∧
      (p.busy = false → stepAllowed s k (BitVec.ofNat 2 tgt) → Completes (.clpmGo k tgt) s fun u =>
        u.agenda = s.agenda ++ [.clpmStepDone k] ∧
        State.pmOf u k = { p with tgt := BitVec.ofNat 2 tgt, err := false, go := true, busy := true, dest := BitVec.ofNat 2 tgt }) ∧
      (p.busy = false → ¬ stepAllowed s k (BitVec.ofNat 2 tgt) → Completes (.clpmGo k tgt) s fun u => u.agenda = s.agenda ∧
        State.pmOf u k = { p with err := true })) ∧
    (p.busy = false → Nothing (.clpmStepDone k) s) ∧
    (p.busy = true → (p.dest = 0#2 → s.flowing = true) → Completes (.clpmStepDone k) s fun u => State.pmOf u k = { p with go := false, busy := false, cur := p.dest } ∧
      (p.dest = 0#2 → ∀ c, c / 8 = k → (u.core c).fibres = [] ∧ (u.core c).stream = none ∧
        -- the tiles that FLUSH saved come back from the save area
        ∀ ctx x y f n b, s.mem.flaws = [] → s.ctx? ctx = some x → Tab.find? (s.core c).cctx ctx = some y → Tab.find? x.flushed c = some f →
          n < 128 → b < 4096 → Bytes.get (((u.core c).ctx ctx).tile n).bytes b =
            s.readByte none (x.areaOf c + 0x60000 + 4096 * n + b))) ∧
    (Completes (.flush k) s fun u => State.pmOf u k = { p with flush := true, flushed := false } ∧ .flushDone k ∈ u.agenda) ∧
    (p.flush = true → s.flowing = true → Completes (.flushDone k) s fun u => State.pmOf u k = { p with flush := false, flushed := true } ∧
      ∀ c al x a, c / 8 = k → Tab.find? (s.core c).scratch al = some x → a < x.size → u.readByte (some (c, al)) a = 0) ∧
    (∀ on, Completes (.estop k on) s fun u => State.pmOf u k = { p with estop := on } ∧ u.mem = s.mem) ∧
    (Completes (.dstop k true) s fun u => State.pmOf u k = { p with dstop := true } ∧
      (p.dstop = false → ∀ c, c / 8 = k → .drainNotice c ∈ u.agenda)) ∧
    (Completes (.dstop k false) s fun u => State.pmOf u k = { p with dstop := false, flushed := false } ∧
      (p.dstop = true → ∀ c, c / 8 = k → (u.core c).draining = false)) ∧
    (Completes (.clpmWake k) s fun u => State.pmOf u k = { p with pend := false }) ∧
    (Completes (.clpmWakeMirror k) s fun u => State.pmOf u k = { p with pend := true }) ∧
    (∀ m, p.cur = 0#2 → Nothing (.alwaysOnAnswer k m) s) ∧
    (p.cur ≠ 0#2 → (∀ c thief, c / 8 = k → Posts (.alwaysOnAnswer k (.stealRequest c thief)) s [.stealNone thief]) ∧
      ∀ from_ e, Posts (.alwaysOnAnswer k (.promotion from_ e)) s [.promotionReply from_ e])

/-- 19 R369-R371, R379, R373, 17 R363: the host and peers reach HBM once firmware runs: a read returns its bytes, a write stores
them; elsewhere nothing decodes them. The host reads the registers of BAR0 (19 R372-R374, R380, 21 R393, R396), reserved fields and
unlisted offsets as zero. A trained peer link opens its window. A far-memory port that goes down completes its outstanding loads
with poison, as a timeout does, and a port that has retrained replays the records that wait for it. How a lost port's loads end is
the model's reading (log 71), as are what a host access orders (log 70) and that MB_DB reads as zero (log 94). -/
def Obligations.HostAndPeers : Prop :=
  ∀ (s : State),
    (∀ a n : Nat, s.host.booted = true → a + n ≤ 2 ^ 39 → Calm s →
      (∀ w ∈ s.log, w.covers none a n = false) → Completes (.hostCxlMemAccess (.read a n)) s fun u =>
        u.host.lastRead = s.readBytes none a n ∧ u.host.lastReadPoison = ((List.range n).any fun k => s.badRead none (a + k) 1) ∧ u.mem = s.mem) ∧
    (∀ (a : Nat) (bs : List Byte), s.host.booted = true → a + bs.length ≤ 2 ^ 39 → s.flowing = true →
      Sound s a bs.length →
      (Completes (.hostCxlMemAccess (.write a bs)) s fun u => Stored s u none a bs.length (leNat bs)) ∧
      Completes (.peerWrite a bs) s fun u => Stored s u none a bs.length (leNat bs)) ∧
    (∀ (a n : Nat) (bs : List Byte), s.host.booted = false ∨ 2 ^ 39 < a + n →
      Machine.exec (.hostCxlMemAccess (.read a n)) s = .fault (.notDecoded a) ∧
      (bs.length = n → Machine.exec (.hostCxlMemAccess (.write a bs)) s = .fault (.notDecoded a) ∧
        Machine.exec (.peerWrite a bs) s = .fault (.notDecoded a))) ∧
    (∀ port size, port < 16 → Completes (.peerLinkTrained port size) s fun u => u.host.peerup.getLsbD port = true ∧
      Tab.find? u.host.peerSize port = some size ∧
      (∀ q, q ≠ port → u.host.peerup.getLsbD q = s.host.peerup.getLsbD q) ∧ u.mem = s.mem) ∧
    -- a pseudo-channel that is not in service holds the accesses that reach it
    (∀ acc : HostAcc, let r : Nat × Nat := (match acc with
        | .read a n => (a, n)
        | .write a bs => (a, bs.length))
      s.host.booted = true → r.1 + r.2 ≤ 2 ^ 39 → (∃ j ∈ pchsOf r.1 r.2, s.frozen j = true) →
      Completes (.hostCxlMemAccess acc) s fun u => .hostCxlMemAccess acc ∈ u.agenda ∧ u.mem = s.mem ∧ u.host = s.host) ∧
    (let b := s.bar0
     (b 0).extractLsb' 0 32 = 0x4E374352#32 ∧ (b 0).extractLsb' 32 8 = s.host.bootstat ∧ (b 0).extractLsb' 40 24 = 0 ∧
     b 0x8 = 0x001800020006000C#64 ∧ b 0x10 = 0x0000000000400004#64 ∧ b 0x18 = s.host.peerup.setWidth 64 ∧
     b 0x1000 = s.host.mb.cmd.setWidth 64 ∧ b 0x1008 = s.host.mb.req ∧ (b 0x1018).extractLsb' 8 8 = s.host.mb.status ∧
     (b 0x1018).getLsbD 1 = s.host.mb.halt ∧ (b 0x1018).getLsbD 0 = s.host.mb.busy ∧ (b 0x1018).extractLsb' 16 48 = 0 ∧
     (b 0x1000000).getLsbD 0 = s.hbm.en ∧ (b 0x1000000).extractLsb' 8 8 = s.hbm.period ∧
     (b 0x1000000).extractLsb' 16 8 = s.hbm.rmthr ∧ (b 0x1000000).extractLsb' 24 40 = 0 ∧
     (∀ k, k < 24 → b (0x30000 + 32 * k) = (State.pmOf s k).ctl ∧ b (0x30008 + 32 * k) = s.clpmStat k ∧
       b (0x30010 + 32 * k) = (State.pmOf s k).retn ∧ b (0x30018 + 32 * k) = (State.pmOf s k).wake) ∧
     (∀ k, k < 1280 → let x := s.pch k
       let at_ := 0x1010000 + 64 * k
       x.spare < 2 ^ 16 → x.oos < 8 → x.st < 4 → (b at_).extractLsb' 32 16 = BitVec.ofNat 16 x.spare ∧
         (b at_).extractLsb' 8 3 = BitVec.ofNat 3 x.oos ∧ (b at_).extractLsb' 0 2 = BitVec.ofNat 2 x.st ∧ (b at_).extractLsb' 48 16 = 0 ∧
         b (at_ + 0x20) = BitVec.ofNat 64 x.rl ∧ b (at_ + 0x28) = BitVec.ofNat 64 x.lastpa) ∧
     ∀ off, 0x30300 ≤ off → off < 0x1000000 → b off = 0) ∧
    (∀ c e pa t o l, Outstanding s c e t o l pa → inFar pa = true → leafRpl (Tab.get o.leaves 0 0) = false →
      let port := farPort pa
      (Completes (.farLinkDown port) s fun u => port ∈ u.host.farDown ∧ EndsPoisoned u c e t l ∧ u.mem = s.mem) ∧
      Completes (.farCompletionTimeout c e) s fun u => u.host.farDown = s.host.farDown ∧ EndsPoisoned u c e t l ∧ u.mem = s.mem) ∧
    (∀ port, (∀ c, ∀ q ∈ (s.core c).loads, ∀ f ∈ q.faults, f.far ≠ some (port, true)) → Completes (.farRetrainDone port) s fun u => u.host.farDown = s.host.farDown.filter (· ≠ port) ∧ u.mem = s.mem ∧
      ∀ c r b, Tab.find? (s.core c).book r = some b → b.farlink = true → b.port = port →
        ∃ b', Tab.find? (u.core c).book r = some b' ∧ b'.replaying = true)

/-- 21 R386, R387, R390-R393, R396: a burst's CRC failures are counted, and more than four retrain the interface; a retrain returns
it to service, or takes it out at the third failure. The scrubber corrects what it reads and moves on. A failed check in a core
poisons the lane, one in the L2 the line (R389). A lost remap table freezes its pseudo-channel until one reload, and the reads sent
to it complete with poison: which shadow copies are good is a free value (log 35). SCRUB_CTL and CLR write their registers. The
patrol's order is the model's reading (log 72), erred lines and failed checks are state that no step makes (log 58), and a failed
check of an A register makes a poisoned U register of it (log 93). -/
def Obligations.MemoryHardware : Prop :=
  ∀ (s : State) (k : Nat),
    let x := s.pch k
    (∀ n, x.st ≠ 0 → Nothing (.linkCrcFail k n) s) ∧
    (∀ n, x.st = 0 → n ≤ 4 → x.lc + n ≤ 0xFFFFFFFF → Completes (.linkCrcFail k n) s fun u =>
      u.pch k = { x with lc := x.lc + n } ∧ u.mem = s.mem) ∧
    (∀ n, x.st = 0 → 4 < n → x.lc + 5 ≤ 0xFFFFFFFF → x.lf < 0xFFFFFFFF → Completes (.linkCrcFail k n) s fun u =>
      u.pch k = { x with lc := x.lc + 5, lf := x.lf + 1, st := 2, fails := 0 } ∧ u.host.msix = s.host.msix ++ [1] ∧
      u.hbm.head = s.hbm.head + 1) ∧
    (∀ ok good, x.st ≠ 2 → Nothing (.hbmRetrainDone k ok good) s) ∧
    (x.st = 2 → (Completes (.hbmRetrainDone k true true) s fun u => u.pch k = { x with st := 0, fails := 0 }) ∧
      (Completes (.hbmRetrainDone k true false) s fun u => (u.pch k).st = 3 ∧ (u.pch k).oos = 1) ∧
      ∀ good, Completes (.hbmRetrainDone k false good) s fun u => u.pch k = if 2 ≤ x.fails then { x with st := 3, oos := 1 }
        else { x with fails := x.fails + 1 }) ∧
    (s.hbm.en = false → Nothing .scrubRead s) ∧
    (let l := s.hbm.cursor
     s.hbm.en = true → s.heldAt (64 * l) 1 = false → s.deadAt (64 * l) 1 = false → l + 1 < 2 ^ 33 → s.mem.plines.contains l = false →
      (Tab.find? s.mem.flaws l = none → Completes .scrubRead s fun u => u.hbm.cursor = l + 1 ∧ u.mem = s.mem) ∧
      (Tab.find? s.mem.flaws l = some 1 → s.hbm.rmthr = 0#8 → (s.pch (pchOf (64 * l))).sc < 0xFFFFFFFF →
        Completes .scrubRead s fun u => u.hbm.cursor = l + 1 ∧ Tab.find? u.mem.flaws l = none ∧ u.mem.cells = s.mem.cells ∧
          (u.pch (pchOf (64 * l))).sc = (s.pch (pchOf (64 * l))).sc + 1) ∧
      (Tab.find? s.mem.flaws l = some 2 → Completes .scrubRead s fun u => u.hbm.cursor = l + 1 ∧
        Tab.find? u.mem.flaws l = none ∧ l ∈ u.mem.plines ∧ ∀ i, i < 64 → u.readByte none (64 * l + i) = 0)) ∧
    (x.st = 2 ∨ (x.st = 0 ∧ ∀ c, (s.core c).loads = []) → Completes (.remapTableError k) s fun u => u.pch k = { x with st := 1 } ∧
      u.agenda = s.agenda ++ [.tableReloadDone k]) ∧
    -- a read that has been sent completes with poison
    (∀ c e pa t o l, x.st = 0 → Outstanding s c e t o l pa → inHbm pa = true → pchOf pa = k → Calm s →
      Completes (.remapTableError k) s fun u => EndsPoisoned u c e t l ∧ (u.pch k).st = 1 ∧ .tableReloadDone k ∈ u.agenda ∧
        u.mem = s.mem) ∧
    -- a check that fails in a core poisons the lane, one in the L2 the line
    (∀ c e n p t l po, s.upsets = [.lane c e n p] → s.fibre? c e = some t → t.reg n = .e l po → e < 4096 → c < Config.numCores →
      s.applyUpsets.fibre? c e = some (t.upset n p) ∧ (t.upset n p).reg n = .e l (insertAsc p po)) ∧
    (∀ l, s.upsets = [.line l] → l ∈ s.applyUpsets.mem.plines ∧ ∀ i, i < 64 → s.applyUpsets.readByte none (64 * l + i) = 0) ∧
    (x.st = 1 → Completes (.tableReloadDone k) s fun u =>
      ((u.pch k).st = 3 ∧ (u.pch k).oos = 2) ∨ ((u.pch k).st = 0 ∧ ((u.pch k).map = x.shadowA ∨ (u.pch k).map = x.shadowB))) ∧
    (x.st ≠ 1 → Nothing (.tableReloadDone k) s) ∧
    (∀ v : Word, Completes (.scrubCtl v) s fun u => u.hbm.en = v.getLsbD 0 ∧ u.hbm.rmthr = v.extractLsb' 16 8 ∧
      u.hbm.period = (if 1 ≤ (v.extractLsb' 8 8).toNat ∧ (v.extractLsb' 8 8).toNat ≤ 168 then v.extractLsb' 8 8 else s.hbm.period)) ∧
    (Completes (.clr k) s fun u =>
      u.pch k = { x with lc := 0, lf := 0, ac := 0, au := 0, rm := 0, sc := 0, rl := 0 } ∧ ∀ j, j ≠ k → u.pch j = s.pch j)

/-- 20 R384: a write of SAVE or RESTORE to CLPM_RETN starts that operation before the writer's next instruction, and the bit reads 1
until it is done. A write made while either operation runs, or while BUSY is 1, is ignored; so is a SAVE made while CUR is not 0 or
ESTOPPED is 0. A RESTORE with RETV = 0 restores nothing and sets RERR. What a cluster that is off keeps, and that a RESTORE puts the
per-context registers back into the module's one copy, are the model's readings (logs 59, 92). -/
def Obligations.RetentionCommands : Prop :=
  ∀ (s : State) (k : Nat),
    let p := State.pmOf s k
    (p.save = true ∨ p.restore = true ∨ p.busy = true → Nothing (.save k) s ∧ Nothing (.restore k) s) ∧
    (p.cur ≠ 0#2 ∨ s.estopped k = false → Nothing (.save k) s) ∧
    (p.save = false → p.restore = false → p.busy = false →
      (p.cur = 0#2 → s.estopped k = true → Completes (.save k) s fun u => State.pmOf u k = { p with save := true } ∧
        u.agenda = s.agenda ++ [.saveDone k] ∧ u.mem = s.mem) ∧
      (p.retv = true → Completes (.restore k) s fun u => State.pmOf u k = { p with restore := true } ∧
        u.agenda = s.agenda ++ [.restoreDone k] ∧ u.mem = s.mem) ∧
      (p.retv = false → Completes (.restore k) s fun u => State.pmOf u k = { p with rerr := true } ∧ u.agenda = s.agenda ∧
        (u.cluster k).trapq = (s.cluster k).trapq ∧ u.mem = s.mem)) ∧
    (p.save = true → Completes (.saveDone k) s fun u => (State.pmOf u k).save = false ∧ (State.pmOf u k).retv = true ∧
      (State.pmOf u k).kept = (s.cluster k).trapq ∧ (State.pmOf u k).crcOk = true ∧
      ∀ n x, s.ctx? n = some x → Tab.find? (State.pmOf u k).keptCsr n = some ⟨x.knit, x.wdog, x.swapDelay, x.rwF, x.rwR, x.rwEn⟩) ∧
    (p.restore = true → Completes (.restoreDone k) s fun u => (State.pmOf u k).restore = false ∧
      (State.pmOf u k).rerr = !p.crcOk ∧ (u.cluster k).trapq = (if p.crcOk then p.kept else (s.cluster k).trapq) ∧
      (p.crcOk = false → u.ctxs = s.ctxs) ∧
      ∀ n x r, p.crcOk = true → s.ctx? n = some x → Tab.find? p.keptCsr n = some r → u.ctx? n = some { x with
        knit := r.knit, wdog := r.wdog, swapDelay := r.delay, rwF := r.rwF, rwR := r.rwR, rwEn := r.rwEn }) ∧
    (∀ i, i = .save k ∨ i = .restore k → ∀ u, Machine.exec i s = .next u → ∀ j, j ≠ k → u.cluster j = s.cluster j)
end

