-- ==== Sys2Proof/Laws/Encoding.lean ====
section
/-!
SUPPORT. The five instruction formats (05 R128-R132): a word laid out from fields gives the fields back, and the fields of a
word lay out the word.
-/

namespace Sys2Proof

/-- A bit of a word as a bit of one of its fields. -/
theorem field_bit (w : Word) (i j : Nat) (b : Bool) (hb : b = true) (h : j = i) : (b && w.getLsbD j) = w.getLsbD i := by
  rw [hb, h, Bool.true_and]

theorem CF.ofWord_toWord (f : CF) : CF.ofWord f.toWord = f := by
  cases f
  simp only [CF.ofWord, CF.toWord, CF.mk.injEq]
  refine ⟨?_, ?_, ?_, ?_, ?_, ?_, ?_⟩ <;>
    · apply BitVec.eq_of_getLsbD_eq
      intro i hi
      simp only [BitVec.getLsbD_extractLsb', BitVec.getLsbD_append, hi, decide_true, Bool.true_and]
      repeat (first | rw [if_pos (by omega)] | rw [if_neg (by omega)])
      congr 1
      omega

theorem CF.opc_toWord (f : CF) : f.toWord.extractLsb' 54 10 = f.opc :=
  congrArg CF.opc (ofWord_toWord f)

theorem CF.toWord_ofWord (w : Word) : (CF.ofWord w).toWord = w := by
  apply BitVec.eq_of_getLsbD_eq
  intro i hi
  simp only [CF.ofWord, CF.toWord, BitVec.getLsbD_append, BitVec.getLsbD_extractLsb']
  repeat' split
  all_goals exact field_bit _ _ _ _ (decide_eq_true (by omega)) (by omega)

theorem IF.ofWord_toWord (f : IF) : IF.ofWord f.toWord = f := by
  cases f
  simp only [IF.ofWord, IF.toWord, IF.mk.injEq]
  refine ⟨?_, ?_, ?_, ?_, ?_, ?_, ?_, ?_, ?_⟩ <;>
    · apply BitVec.eq_of_getLsbD_eq
      intro i hi
      simp only [BitVec.getLsbD_extractLsb', BitVec.getLsbD_append, hi, decide_true, Bool.true_and]
      repeat (first | rw [if_pos (by omega)] | rw [if_neg (by omega)])
      congr 1
      omega

theorem IF.opc_toWord (f : IF) : f.toWord.extractLsb' 54 10 = f.opc :=
  congrArg IF.opc (ofWord_toWord f)

theorem IF.toWord_ofWord (w : Word) : (IF.ofWord w).toWord = w := by
  apply BitVec.eq_of_getLsbD_eq
  intro i hi
  simp only [IF.ofWord, IF.toWord, BitVec.getLsbD_append, BitVec.getLsbD_extractLsb']
  repeat' split
  all_goals exact field_bit _ _ _ _ (decide_eq_true (by omega)) (by omega)

theorem MF.ofWord_toWord (f : MF) : MF.ofWord f.toWord = f := by
  cases f
  simp only [MF.ofWord, MF.toWord, MF.mk.injEq]
  refine ⟨?_, ?_, ?_, ?_, ?_, ?_, ?_, ?_, ?_, ?_⟩ <;>
    · apply BitVec.eq_of_getLsbD_eq
      intro i hi
      simp only [BitVec.getLsbD_extractLsb', BitVec.getLsbD_append, hi, decide_true, Bool.true_and]
      repeat (first | rw [if_pos (by omega)] | rw [if_neg (by omega)])
      congr 1
      omega

theorem MF.opc_toWord (f : MF) : f.toWord.extractLsb' 54 10 = f.opc :=
  congrArg MF.opc (ofWord_toWord f)

theorem MF.toWord_ofWord (w : Word) : (MF.ofWord w).toWord = w := by
  apply BitVec.eq_of_getLsbD_eq
  intro i hi
  simp only [MF.ofWord, MF.toWord, BitVec.getLsbD_append, BitVec.getLsbD_extractLsb']
  repeat' split
  all_goals exact field_bit _ _ _ _ (decide_eq_true (by omega)) (by omega)

theorem BF.ofWord_toWord (f : BF) : BF.ofWord f.toWord = f := by
  cases f
  simp only [BF.ofWord, BF.toWord, BF.mk.injEq]
  refine ⟨?_, ?_, ?_, ?_, ?_, ?_, ?_⟩ <;>
    · apply BitVec.eq_of_getLsbD_eq
      intro i hi
      simp only [BitVec.getLsbD_extractLsb', BitVec.getLsbD_append, hi, decide_true, Bool.true_and]
      repeat (first | rw [if_pos (by omega)] | rw [if_neg (by omega)])
      congr 1
      omega

theorem BF.opc_toWord (f : BF) : f.toWord.extractLsb' 54 10 = f.opc :=
  congrArg BF.opc (ofWord_toWord f)

theorem BF.toWord_ofWord (w : Word) : (BF.ofWord w).toWord = w := by
  apply BitVec.eq_of_getLsbD_eq
  intro i hi
  simp only [BF.ofWord, BF.toWord, BitVec.getLsbD_append, BitVec.getLsbD_extractLsb']
  repeat' split
  all_goals exact field_bit _ _ _ _ (decide_eq_true (by omega)) (by omega)

theorem TF.ofWord_toWord (f : TF) : TF.ofWord f.toWord = f := by
  cases f
  simp only [TF.ofWord, TF.toWord, TF.mk.injEq]
  refine ⟨?_, ?_, ?_, ?_, ?_, ?_, ?_, ?_⟩ <;>
    · apply BitVec.eq_of_getLsbD_eq
      intro i hi
      simp only [BitVec.getLsbD_extractLsb', BitVec.getLsbD_append, hi, decide_true, Bool.true_and]
      repeat (first | rw [if_pos (by omega)] | rw [if_neg (by omega)])
      congr 1
      omega

theorem TF.opc_toWord (f : TF) : f.toWord.extractLsb' 54 10 = f.opc :=
  congrArg TF.opc (ofWord_toWord f)

theorem TF.toWord_ofWord (w : Word) : (TF.ofWord w).toWord = w := by
  apply BitVec.eq_of_getLsbD_eq
  intro i hi
  simp only [TF.ofWord, TF.toWord, BitVec.getLsbD_append, BitVec.getLsbD_extractLsb']
  repeat' split
  all_goals exact field_bit _ _ _ _ (decide_eq_true (by omega)) (by omega)

end Sys2Proof
end

