-- ==== Sys2Proof/Laws/Tab.lean ====
section
/-!
SUPPORT. The sparse table: reading after writing and after deleting.
-/

namespace Sys2Proof

theorem Tab.find?_set_self {α : Type} (t : Tab α) (k : Nat) (v : α) : Tab.find? (Tab.set t k v) k = some v := by
  induction t with
  | nil => simp [Tab.set, Tab.find?]
  | cons x t ih =>
    obtain ⟨k', v'⟩ := x
    simp only [Tab.set]
    split
    · simp [Tab.find?]
    · split
      · simp [Tab.find?]
      · rename_i h
        simp [Tab.find?, h, ih]

theorem Tab.find?_set_ne {α : Type} (t : Tab α) (k j : Nat) (v : α) (h : j ≠ k) :
    Tab.find? (Tab.set t k v) j = Tab.find? t j := by
  induction t with
  | nil => simp [Tab.set, Tab.find?, h]
  | cons x t ih =>
    obtain ⟨k', v'⟩ := x
    simp only [Tab.set]
    split
    · simp [Tab.find?, h]
    · split
      · rename_i hk
        subst hk
        simp [Tab.find?, h]
      · simp [Tab.find?, ih]

theorem Tab.find?_set {α : Type} (t : Tab α) (k j : Nat) (v : α) :
    Tab.find? (Tab.set t k v) j = if j = k then some v else Tab.find? t j := by
  by_cases h : j = k
  · subst h; simp [Tab.find?_set_self]
  · simp [h, Tab.find?_set_ne]

@[simp] theorem Tab.get_set_self {α : Type} (t : Tab α) (d v : α) (k : Nat) : Tab.get (Tab.set t k v) d k = v := by
  simp [Tab.get, Tab.find?_set_self]

theorem Tab.get_set_ne {α : Type} (t : Tab α) (d v : α) (k j : Nat) (h : j ≠ k) :
    Tab.get (Tab.set t k v) d j = Tab.get t d j := by
  simp [Tab.get, Tab.find?_set_ne _ _ _ _ h]

theorem Tab.get_set {α : Type} (t : Tab α) (d v : α) (k j : Nat) :
    Tab.get (Tab.set t k v) d j = if j = k then v else Tab.get t d j := by
  by_cases h : j = k
  · subst h; simp
  · simp [h, Tab.get_set_ne]

theorem Tab.find?_del_self {α : Type} (t : Tab α) (k : Nat) : Tab.find? (Tab.del t k) k = none := by
  induction t with
  | nil => rfl
  | cons x t ih =>
    obtain ⟨k', v'⟩ := x
    simp only [Tab.del]
    split
    · exact ih
    · rename_i h
      simp [Tab.find?, h, ih]

theorem Tab.find?_del_ne {α : Type} (t : Tab α) (k j : Nat) (h : j ≠ k) : Tab.find? (Tab.del t k) j = Tab.find? t j := by
  induction t with
  | nil => rfl
  | cons x t ih =>
    obtain ⟨k', v'⟩ := x
    simp only [Tab.del]
    split
    · rename_i hk
      subst hk
      simp [Tab.find?, h, ih]
    · simp [Tab.find?, ih]

end Sys2Proof
end

