-- ==== Sys2Proof/Laws/State.lean ====
section
/-!
SUPPORT. One lemma for each field of the state and each update of the state, and for each field of a thread and each move through
a clause.
-/

namespace Sys2Proof.Machine

open Sys2Proof

/-! ### Updates of the state -/

@[simp] theorem State.mem_setCore (s : State) (c : Nat) (x : Core) : (s.setCore c x).mem = s.mem := rfl
@[simp] theorem State.log_setCore (s : State) (c : Nat) (x : Core) : (s.setCore c x).log = s.log := rfl
@[simp] theorem State.nextId_setCore (s : State) (c : Nat) (x : Core) : (s.setCore c x).nextId = s.nextId := rfl
@[simp] theorem State.cores_setCore (s : State) (c : Nat) (x : Core) : (s.setCore c x).cores = Tab.set s.cores c x := rfl
@[simp] theorem State.clusters_setCore (s : State) (c : Nat) (x : Core) : (s.setCore c x).clusters = s.clusters := rfl
@[simp] theorem State.ctxs_setCore (s : State) (c : Nat) (x : Core) : (s.setCore c x).ctxs = s.ctxs := rfl
@[simp] theorem State.gens_setCore (s : State) (c : Nat) (x : Core) : (s.setCore c x).gens = s.gens := rfl
@[simp] theorem State.launches_setCore (s : State) (c : Nat) (x : Core) : (s.setCore c x).launches = s.launches := rfl
@[simp] theorem State.dies_setCore (s : State) (c : Nat) (x : Core) : (s.setCore c x).dies = s.dies := rfl
@[simp] theorem State.tlb_setCore (s : State) (c : Nat) (x : Core) : (s.setCore c x).tlb = s.tlb := rfl
@[simp] theorem State.ptrs_setCore (s : State) (c : Nat) (x : Core) : (s.setCore c x).ptrs = s.ptrs := rfl
@[simp] theorem State.hbm_setCore (s : State) (c : Nat) (x : Core) : (s.setCore c x).hbm = s.hbm := rfl
@[simp] theorem State.host_setCore (s : State) (c : Nat) (x : Core) : (s.setCore c x).host = s.host := rfl
@[simp] theorem State.turn_setCore (s : State) (c : Nat) (x : Core) : (s.setCore c x).turn = s.turn := rfl
@[simp] theorem State.agenda_setCore (s : State) (c : Nat) (x : Core) : (s.setCore c x).agenda = s.agenda := rfl
@[simp] theorem State.inputs_setCore (s : State) (c : Nat) (x : Core) : (s.setCore c x).inputs = s.inputs := rfl
@[simp] theorem State.upsets_setCore (s : State) (c : Nat) (x : Core) : (s.setCore c x).upsets = s.upsets := rfl
@[simp] theorem State.slow_setCore (s : State) (c : Nat) (x : Core) : (s.setCore c x).slow = s.slow := rfl
@[simp] theorem State.draw_setCore (s : State) (c : Nat) (x : Core) : (s.setCore c x).draw = s.draw := rfl
@[simp] theorem State.tick_setCore (s : State) (c : Nat) (x : Core) : (s.setCore c x).tick = s.tick := rfl
@[simp] theorem State.fresh_setCore (s : State) (c : Nat) (x : Core) : (s.setCore c x).fresh = s.fresh := rfl

@[simp] theorem State.mem_setCluster (s : State) (k : Nat) (x : Cluster) : (s.setCluster k x).mem = s.mem := rfl
@[simp] theorem State.log_setCluster (s : State) (k : Nat) (x : Cluster) : (s.setCluster k x).log = s.log := rfl
@[simp] theorem State.nextId_setCluster (s : State) (k : Nat) (x : Cluster) : (s.setCluster k x).nextId = s.nextId := rfl
@[simp] theorem State.cores_setCluster (s : State) (k : Nat) (x : Cluster) : (s.setCluster k x).cores = s.cores := rfl
@[simp] theorem State.clusters_setCluster (s : State) (k : Nat) (x : Cluster) : (s.setCluster k x).clusters = Tab.set s.clusters k x := rfl
@[simp] theorem State.ctxs_setCluster (s : State) (k : Nat) (x : Cluster) : (s.setCluster k x).ctxs = s.ctxs := rfl
@[simp] theorem State.gens_setCluster (s : State) (k : Nat) (x : Cluster) : (s.setCluster k x).gens = s.gens := rfl
@[simp] theorem State.launches_setCluster (s : State) (k : Nat) (x : Cluster) : (s.setCluster k x).launches = s.launches := rfl
@[simp] theorem State.dies_setCluster (s : State) (k : Nat) (x : Cluster) : (s.setCluster k x).dies = s.dies := rfl
@[simp] theorem State.tlb_setCluster (s : State) (k : Nat) (x : Cluster) : (s.setCluster k x).tlb = s.tlb := rfl
@[simp] theorem State.ptrs_setCluster (s : State) (k : Nat) (x : Cluster) : (s.setCluster k x).ptrs = s.ptrs := rfl
@[simp] theorem State.hbm_setCluster (s : State) (k : Nat) (x : Cluster) : (s.setCluster k x).hbm = s.hbm := rfl
@[simp] theorem State.host_setCluster (s : State) (k : Nat) (x : Cluster) : (s.setCluster k x).host = s.host := rfl
@[simp] theorem State.turn_setCluster (s : State) (k : Nat) (x : Cluster) : (s.setCluster k x).turn = s.turn := rfl
@[simp] theorem State.agenda_setCluster (s : State) (k : Nat) (x : Cluster) : (s.setCluster k x).agenda = s.agenda := rfl
@[simp] theorem State.inputs_setCluster (s : State) (k : Nat) (x : Cluster) : (s.setCluster k x).inputs = s.inputs := rfl
@[simp] theorem State.upsets_setCluster (s : State) (k : Nat) (x : Cluster) : (s.setCluster k x).upsets = s.upsets := rfl
@[simp] theorem State.slow_setCluster (s : State) (k : Nat) (x : Cluster) : (s.setCluster k x).slow = s.slow := rfl
@[simp] theorem State.draw_setCluster (s : State) (k : Nat) (x : Cluster) : (s.setCluster k x).draw = s.draw := rfl
@[simp] theorem State.tick_setCluster (s : State) (k : Nat) (x : Cluster) : (s.setCluster k x).tick = s.tick := rfl
@[simp] theorem State.fresh_setCluster (s : State) (k : Nat) (x : Cluster) : (s.setCluster k x).fresh = s.fresh := rfl

@[simp] theorem State.mem_setMc (s : State) (k : Nat) (m : Mc) : (s.setMc k m).mem = s.mem := rfl
@[simp] theorem State.log_setMc (s : State) (k : Nat) (m : Mc) : (s.setMc k m).log = s.log := rfl
@[simp] theorem State.nextId_setMc (s : State) (k : Nat) (m : Mc) : (s.setMc k m).nextId = s.nextId := rfl
@[simp] theorem State.cores_setMc (s : State) (k : Nat) (m : Mc) : (s.setMc k m).cores = s.cores := rfl
@[simp] theorem State.clusters_setMc (s : State) (k : Nat) (m : Mc) : (s.setMc k m).clusters = Tab.set s.clusters k { s.cluster k with mc := m } := rfl
@[simp] theorem State.ctxs_setMc (s : State) (k : Nat) (m : Mc) : (s.setMc k m).ctxs = s.ctxs := rfl
@[simp] theorem State.gens_setMc (s : State) (k : Nat) (m : Mc) : (s.setMc k m).gens = s.gens := rfl
@[simp] theorem State.launches_setMc (s : State) (k : Nat) (m : Mc) : (s.setMc k m).launches = s.launches := rfl
@[simp] theorem State.dies_setMc (s : State) (k : Nat) (m : Mc) : (s.setMc k m).dies = s.dies := rfl
@[simp] theorem State.tlb_setMc (s : State) (k : Nat) (m : Mc) : (s.setMc k m).tlb = s.tlb := rfl
@[simp] theorem State.ptrs_setMc (s : State) (k : Nat) (m : Mc) : (s.setMc k m).ptrs = s.ptrs := rfl
@[simp] theorem State.hbm_setMc (s : State) (k : Nat) (m : Mc) : (s.setMc k m).hbm = s.hbm := rfl
@[simp] theorem State.host_setMc (s : State) (k : Nat) (m : Mc) : (s.setMc k m).host = s.host := rfl
@[simp] theorem State.turn_setMc (s : State) (k : Nat) (m : Mc) : (s.setMc k m).turn = s.turn := rfl
@[simp] theorem State.agenda_setMc (s : State) (k : Nat) (m : Mc) : (s.setMc k m).agenda = s.agenda := rfl
@[simp] theorem State.inputs_setMc (s : State) (k : Nat) (m : Mc) : (s.setMc k m).inputs = s.inputs := rfl
@[simp] theorem State.upsets_setMc (s : State) (k : Nat) (m : Mc) : (s.setMc k m).upsets = s.upsets := rfl
@[simp] theorem State.slow_setMc (s : State) (k : Nat) (m : Mc) : (s.setMc k m).slow = s.slow := rfl
@[simp] theorem State.draw_setMc (s : State) (k : Nat) (m : Mc) : (s.setMc k m).draw = s.draw := rfl
@[simp] theorem State.tick_setMc (s : State) (k : Nat) (m : Mc) : (s.setMc k m).tick = s.tick := rfl
@[simp] theorem State.fresh_setMc (s : State) (k : Nat) (m : Mc) : (s.setMc k m).fresh = s.fresh := rfl

@[simp] theorem State.mem_setCtx (s : State) (k : Nat) (x : Ctx) : (s.setCtx k x).mem = s.mem := rfl
@[simp] theorem State.log_setCtx (s : State) (k : Nat) (x : Ctx) : (s.setCtx k x).log = s.log := rfl
@[simp] theorem State.nextId_setCtx (s : State) (k : Nat) (x : Ctx) : (s.setCtx k x).nextId = s.nextId := rfl
@[simp] theorem State.cores_setCtx (s : State) (k : Nat) (x : Ctx) : (s.setCtx k x).cores = s.cores := rfl
@[simp] theorem State.clusters_setCtx (s : State) (k : Nat) (x : Ctx) : (s.setCtx k x).clusters = s.clusters := rfl
@[simp] theorem State.ctxs_setCtx (s : State) (k : Nat) (x : Ctx) : (s.setCtx k x).ctxs = Tab.set s.ctxs k x := rfl
@[simp] theorem State.gens_setCtx (s : State) (k : Nat) (x : Ctx) : (s.setCtx k x).gens = s.gens := rfl
@[simp] theorem State.launches_setCtx (s : State) (k : Nat) (x : Ctx) : (s.setCtx k x).launches = s.launches := rfl
@[simp] theorem State.dies_setCtx (s : State) (k : Nat) (x : Ctx) : (s.setCtx k x).dies = s.dies := rfl
@[simp] theorem State.tlb_setCtx (s : State) (k : Nat) (x : Ctx) : (s.setCtx k x).tlb = s.tlb := rfl
@[simp] theorem State.ptrs_setCtx (s : State) (k : Nat) (x : Ctx) : (s.setCtx k x).ptrs = s.ptrs := rfl
@[simp] theorem State.hbm_setCtx (s : State) (k : Nat) (x : Ctx) : (s.setCtx k x).hbm = s.hbm := rfl
@[simp] theorem State.host_setCtx (s : State) (k : Nat) (x : Ctx) : (s.setCtx k x).host = s.host := rfl
@[simp] theorem State.turn_setCtx (s : State) (k : Nat) (x : Ctx) : (s.setCtx k x).turn = s.turn := rfl
@[simp] theorem State.agenda_setCtx (s : State) (k : Nat) (x : Ctx) : (s.setCtx k x).agenda = s.agenda := rfl
@[simp] theorem State.inputs_setCtx (s : State) (k : Nat) (x : Ctx) : (s.setCtx k x).inputs = s.inputs := rfl
@[simp] theorem State.upsets_setCtx (s : State) (k : Nat) (x : Ctx) : (s.setCtx k x).upsets = s.upsets := rfl
@[simp] theorem State.slow_setCtx (s : State) (k : Nat) (x : Ctx) : (s.setCtx k x).slow = s.slow := rfl
@[simp] theorem State.draw_setCtx (s : State) (k : Nat) (x : Ctx) : (s.setCtx k x).draw = s.draw := rfl
@[simp] theorem State.tick_setCtx (s : State) (k : Nat) (x : Ctx) : (s.setCtx k x).tick = s.tick := rfl
@[simp] theorem State.fresh_setCtx (s : State) (k : Nat) (x : Ctx) : (s.setCtx k x).fresh = s.fresh := rfl

@[simp] theorem State.mem_setLaunch (s : State) (l : Nat) (x : Launch) : (s.setLaunch l x).mem = s.mem := rfl
@[simp] theorem State.log_setLaunch (s : State) (l : Nat) (x : Launch) : (s.setLaunch l x).log = s.log := rfl
@[simp] theorem State.nextId_setLaunch (s : State) (l : Nat) (x : Launch) : (s.setLaunch l x).nextId = s.nextId := rfl
@[simp] theorem State.cores_setLaunch (s : State) (l : Nat) (x : Launch) : (s.setLaunch l x).cores = s.cores := rfl
@[simp] theorem State.clusters_setLaunch (s : State) (l : Nat) (x : Launch) : (s.setLaunch l x).clusters = s.clusters := rfl
@[simp] theorem State.ctxs_setLaunch (s : State) (l : Nat) (x : Launch) : (s.setLaunch l x).ctxs = s.ctxs := rfl
@[simp] theorem State.gens_setLaunch (s : State) (l : Nat) (x : Launch) : (s.setLaunch l x).gens = s.gens := rfl
@[simp] theorem State.launches_setLaunch (s : State) (l : Nat) (x : Launch) : (s.setLaunch l x).launches = Tab.set s.launches l x := rfl
@[simp] theorem State.dies_setLaunch (s : State) (l : Nat) (x : Launch) : (s.setLaunch l x).dies = s.dies := rfl
@[simp] theorem State.tlb_setLaunch (s : State) (l : Nat) (x : Launch) : (s.setLaunch l x).tlb = s.tlb := rfl
@[simp] theorem State.ptrs_setLaunch (s : State) (l : Nat) (x : Launch) : (s.setLaunch l x).ptrs = s.ptrs := rfl
@[simp] theorem State.hbm_setLaunch (s : State) (l : Nat) (x : Launch) : (s.setLaunch l x).hbm = s.hbm := rfl
@[simp] theorem State.host_setLaunch (s : State) (l : Nat) (x : Launch) : (s.setLaunch l x).host = s.host := rfl
@[simp] theorem State.turn_setLaunch (s : State) (l : Nat) (x : Launch) : (s.setLaunch l x).turn = s.turn := rfl
@[simp] theorem State.agenda_setLaunch (s : State) (l : Nat) (x : Launch) : (s.setLaunch l x).agenda = s.agenda := rfl
@[simp] theorem State.inputs_setLaunch (s : State) (l : Nat) (x : Launch) : (s.setLaunch l x).inputs = s.inputs := rfl
@[simp] theorem State.upsets_setLaunch (s : State) (l : Nat) (x : Launch) : (s.setLaunch l x).upsets = s.upsets := rfl
@[simp] theorem State.slow_setLaunch (s : State) (l : Nat) (x : Launch) : (s.setLaunch l x).slow = s.slow := rfl
@[simp] theorem State.draw_setLaunch (s : State) (l : Nat) (x : Launch) : (s.setLaunch l x).draw = s.draw := rfl
@[simp] theorem State.tick_setLaunch (s : State) (l : Nat) (x : Launch) : (s.setLaunch l x).tick = s.tick := rfl
@[simp] theorem State.fresh_setLaunch (s : State) (l : Nat) (x : Launch) : (s.setLaunch l x).fresh = s.fresh := rfl

@[simp] theorem State.mem_setDie (s : State) (d : Nat) (x : Die) : (s.setDie d x).mem = s.mem := rfl
@[simp] theorem State.log_setDie (s : State) (d : Nat) (x : Die) : (s.setDie d x).log = s.log := rfl
@[simp] theorem State.nextId_setDie (s : State) (d : Nat) (x : Die) : (s.setDie d x).nextId = s.nextId := rfl
@[simp] theorem State.cores_setDie (s : State) (d : Nat) (x : Die) : (s.setDie d x).cores = s.cores := rfl
@[simp] theorem State.clusters_setDie (s : State) (d : Nat) (x : Die) : (s.setDie d x).clusters = s.clusters := rfl
@[simp] theorem State.ctxs_setDie (s : State) (d : Nat) (x : Die) : (s.setDie d x).ctxs = s.ctxs := rfl
@[simp] theorem State.gens_setDie (s : State) (d : Nat) (x : Die) : (s.setDie d x).gens = s.gens := rfl
@[simp] theorem State.launches_setDie (s : State) (d : Nat) (x : Die) : (s.setDie d x).launches = s.launches := rfl
@[simp] theorem State.dies_setDie (s : State) (d : Nat) (x : Die) : (s.setDie d x).dies = Tab.set s.dies d x := rfl
@[simp] theorem State.tlb_setDie (s : State) (d : Nat) (x : Die) : (s.setDie d x).tlb = s.tlb := rfl
@[simp] theorem State.ptrs_setDie (s : State) (d : Nat) (x : Die) : (s.setDie d x).ptrs = s.ptrs := rfl
@[simp] theorem State.hbm_setDie (s : State) (d : Nat) (x : Die) : (s.setDie d x).hbm = s.hbm := rfl
@[simp] theorem State.host_setDie (s : State) (d : Nat) (x : Die) : (s.setDie d x).host = s.host := rfl
@[simp] theorem State.turn_setDie (s : State) (d : Nat) (x : Die) : (s.setDie d x).turn = s.turn := rfl
@[simp] theorem State.agenda_setDie (s : State) (d : Nat) (x : Die) : (s.setDie d x).agenda = s.agenda := rfl
@[simp] theorem State.inputs_setDie (s : State) (d : Nat) (x : Die) : (s.setDie d x).inputs = s.inputs := rfl
@[simp] theorem State.upsets_setDie (s : State) (d : Nat) (x : Die) : (s.setDie d x).upsets = s.upsets := rfl
@[simp] theorem State.slow_setDie (s : State) (d : Nat) (x : Die) : (s.setDie d x).slow = s.slow := rfl
@[simp] theorem State.draw_setDie (s : State) (d : Nat) (x : Die) : (s.setDie d x).draw = s.draw := rfl
@[simp] theorem State.tick_setDie (s : State) (d : Nat) (x : Die) : (s.setDie d x).tick = s.tick := rfl
@[simp] theorem State.fresh_setDie (s : State) (d : Nat) (x : Die) : (s.setDie d x).fresh = s.fresh := rfl

@[simp] theorem State.mem_post (s : State) (e : Instr) : (s.post e).mem = s.mem := rfl
@[simp] theorem State.log_post (s : State) (e : Instr) : (s.post e).log = s.log := rfl
@[simp] theorem State.nextId_post (s : State) (e : Instr) : (s.post e).nextId = s.nextId := rfl
@[simp] theorem State.cores_post (s : State) (e : Instr) : (s.post e).cores = s.cores := rfl
@[simp] theorem State.clusters_post (s : State) (e : Instr) : (s.post e).clusters = s.clusters := rfl
@[simp] theorem State.ctxs_post (s : State) (e : Instr) : (s.post e).ctxs = s.ctxs := rfl
@[simp] theorem State.gens_post (s : State) (e : Instr) : (s.post e).gens = s.gens := rfl
@[simp] theorem State.launches_post (s : State) (e : Instr) : (s.post e).launches = s.launches := rfl
@[simp] theorem State.dies_post (s : State) (e : Instr) : (s.post e).dies = s.dies := rfl
@[simp] theorem State.tlb_post (s : State) (e : Instr) : (s.post e).tlb = s.tlb := rfl
@[simp] theorem State.ptrs_post (s : State) (e : Instr) : (s.post e).ptrs = s.ptrs := rfl
@[simp] theorem State.hbm_post (s : State) (e : Instr) : (s.post e).hbm = s.hbm := rfl
@[simp] theorem State.host_post (s : State) (e : Instr) : (s.post e).host = s.host := rfl
@[simp] theorem State.turn_post (s : State) (e : Instr) : (s.post e).turn = s.turn := rfl
@[simp] theorem State.agenda_post (s : State) (e : Instr) : (s.post e).agenda = s.agenda ++ [e] := rfl
@[simp] theorem State.inputs_post (s : State) (e : Instr) : (s.post e).inputs = s.inputs := rfl
@[simp] theorem State.upsets_post (s : State) (e : Instr) : (s.post e).upsets = s.upsets := rfl
@[simp] theorem State.slow_post (s : State) (e : Instr) : (s.post e).slow = s.slow := rfl
@[simp] theorem State.draw_post (s : State) (e : Instr) : (s.post e).draw = s.draw := rfl
@[simp] theorem State.tick_post (s : State) (e : Instr) : (s.post e).tick = s.tick := rfl
@[simp] theorem State.fresh_post (s : State) (e : Instr) : (s.post e).fresh = s.fresh := rfl

@[simp] theorem State.mem_setFibre (s : State) (c e : Nat) (t : Thread) : (s.setFibre c e t).mem = s.mem := rfl
@[simp] theorem State.log_setFibre (s : State) (c e : Nat) (t : Thread) : (s.setFibre c e t).log = s.log := rfl
@[simp] theorem State.nextId_setFibre (s : State) (c e : Nat) (t : Thread) : (s.setFibre c e t).nextId = s.nextId := rfl
@[simp] theorem State.cores_setFibre (s : State) (c e : Nat) (t : Thread) : (s.setFibre c e t).cores = Tab.set s.cores c { s.core c with fibres := Tab.set (s.core c).fibres e t } := rfl
@[simp] theorem State.clusters_setFibre (s : State) (c e : Nat) (t : Thread) : (s.setFibre c e t).clusters = s.clusters := rfl
@[simp] theorem State.ctxs_setFibre (s : State) (c e : Nat) (t : Thread) : (s.setFibre c e t).ctxs = s.ctxs := rfl
@[simp] theorem State.gens_setFibre (s : State) (c e : Nat) (t : Thread) : (s.setFibre c e t).gens = s.gens := rfl
@[simp] theorem State.launches_setFibre (s : State) (c e : Nat) (t : Thread) : (s.setFibre c e t).launches = s.launches := rfl
@[simp] theorem State.dies_setFibre (s : State) (c e : Nat) (t : Thread) : (s.setFibre c e t).dies = s.dies := rfl
@[simp] theorem State.tlb_setFibre (s : State) (c e : Nat) (t : Thread) : (s.setFibre c e t).tlb = s.tlb := rfl
@[simp] theorem State.ptrs_setFibre (s : State) (c e : Nat) (t : Thread) : (s.setFibre c e t).ptrs = s.ptrs := rfl
@[simp] theorem State.hbm_setFibre (s : State) (c e : Nat) (t : Thread) : (s.setFibre c e t).hbm = s.hbm := rfl
@[simp] theorem State.host_setFibre (s : State) (c e : Nat) (t : Thread) : (s.setFibre c e t).host = s.host := rfl
@[simp] theorem State.turn_setFibre (s : State) (c e : Nat) (t : Thread) : (s.setFibre c e t).turn = s.turn := rfl
@[simp] theorem State.agenda_setFibre (s : State) (c e : Nat) (t : Thread) : (s.setFibre c e t).agenda = s.agenda := rfl
@[simp] theorem State.inputs_setFibre (s : State) (c e : Nat) (t : Thread) : (s.setFibre c e t).inputs = s.inputs := rfl
@[simp] theorem State.upsets_setFibre (s : State) (c e : Nat) (t : Thread) : (s.setFibre c e t).upsets = s.upsets := rfl
@[simp] theorem State.slow_setFibre (s : State) (c e : Nat) (t : Thread) : (s.setFibre c e t).slow = s.slow := rfl
@[simp] theorem State.draw_setFibre (s : State) (c e : Nat) (t : Thread) : (s.setFibre c e t).draw = s.draw := rfl
@[simp] theorem State.tick_setFibre (s : State) (c e : Nat) (t : Thread) : (s.setFibre c e t).tick = s.tick := rfl
@[simp] theorem State.fresh_setFibre (s : State) (c e : Nat) (t : Thread) : (s.setFibre c e t).fresh = s.fresh := rfl

@[simp] theorem State.mem_setCur (s : State) (t : Thread) : (s.setCur t).mem = s.mem := by
  unfold State.setCur; split <;> (try split) <;> rfl
@[simp] theorem State.log_setCur (s : State) (t : Thread) : (s.setCur t).log = s.log := by
  unfold State.setCur; split <;> (try split) <;> rfl
@[simp] theorem State.nextId_setCur (s : State) (t : Thread) : (s.setCur t).nextId = s.nextId := by
  unfold State.setCur; split <;> (try split) <;> rfl
@[simp] theorem State.ctxs_setCur (s : State) (t : Thread) : (s.setCur t).ctxs = s.ctxs := by
  unfold State.setCur; split <;> (try split) <;> rfl
@[simp] theorem State.gens_setCur (s : State) (t : Thread) : (s.setCur t).gens = s.gens := by
  unfold State.setCur; split <;> (try split) <;> rfl
@[simp] theorem State.launches_setCur (s : State) (t : Thread) : (s.setCur t).launches = s.launches := by
  unfold State.setCur; split <;> (try split) <;> rfl
@[simp] theorem State.dies_setCur (s : State) (t : Thread) : (s.setCur t).dies = s.dies := by
  unfold State.setCur; split <;> (try split) <;> rfl
@[simp] theorem State.tlb_setCur (s : State) (t : Thread) : (s.setCur t).tlb = s.tlb := by
  unfold State.setCur; split <;> (try split) <;> rfl
@[simp] theorem State.ptrs_setCur (s : State) (t : Thread) : (s.setCur t).ptrs = s.ptrs := by
  unfold State.setCur; split <;> (try split) <;> rfl
@[simp] theorem State.hbm_setCur (s : State) (t : Thread) : (s.setCur t).hbm = s.hbm := by
  unfold State.setCur; split <;> (try split) <;> rfl
@[simp] theorem State.host_setCur (s : State) (t : Thread) : (s.setCur t).host = s.host := by
  unfold State.setCur; split <;> (try split) <;> rfl
@[simp] theorem State.turn_setCur (s : State) (t : Thread) : (s.setCur t).turn = s.turn := by
  unfold State.setCur; split <;> (try split) <;> rfl
@[simp] theorem State.agenda_setCur (s : State) (t : Thread) : (s.setCur t).agenda = s.agenda := by
  unfold State.setCur; split <;> (try split) <;> rfl
@[simp] theorem State.inputs_setCur (s : State) (t : Thread) : (s.setCur t).inputs = s.inputs := by
  unfold State.setCur; split <;> (try split) <;> rfl
@[simp] theorem State.upsets_setCur (s : State) (t : Thread) : (s.setCur t).upsets = s.upsets := by
  unfold State.setCur; split <;> (try split) <;> rfl
@[simp] theorem State.slow_setCur (s : State) (t : Thread) : (s.setCur t).slow = s.slow := by
  unfold State.setCur; split <;> (try split) <;> rfl
@[simp] theorem State.draw_setCur (s : State) (t : Thread) : (s.setCur t).draw = s.draw := by
  unfold State.setCur; split <;> (try split) <;> rfl
@[simp] theorem State.tick_setCur (s : State) (t : Thread) : (s.setCur t).tick = s.tick := by
  unfold State.setCur; split <;> (try split) <;> rfl
@[simp] theorem State.fresh_setCur (s : State) (t : Thread) : (s.setCur t).fresh = s.fresh := by
  unfold State.setCur; split <;> (try split) <;> rfl

@[simp] theorem State.core_setCore_self (s : State) (c : Nat) (x : Core) : (s.setCore c x).core c = x := by
  simp [State.core, State.setCore]
theorem State.core_setCore_ne (s : State) (c d : Nat) (x : Core) (h : d ≠ c) : (s.setCore c x).core d = s.core d := by
  simp [State.core, State.setCore, Tab.get_set_ne _ _ _ _ _ h]
@[simp] theorem State.cluster_setCluster_self (s : State) (k : Nat) (x : Cluster) : (s.setCluster k x).cluster k = x := by
  simp [State.cluster, State.setCluster]
theorem State.cluster_setCluster_ne (s : State) (k j : Nat) (x : Cluster) (h : j ≠ k) :
    (s.setCluster k x).cluster j = s.cluster j := by
  simp [State.cluster, State.setCluster, Tab.get_set_ne _ _ _ _ _ h]
@[simp] theorem State.core_setCluster (s : State) (k c : Nat) (x : Cluster) : (s.setCluster k x).core c = s.core c := rfl
@[simp] theorem State.cluster_setCore (s : State) (k c : Nat) (x : Core) : (s.setCore c x).cluster k = s.cluster k := rfl
@[simp] theorem State.mc_setMc_self (s : State) (k : Nat) (m : Mc) : (s.setMc k m).mc k = m := by
  simp [State.mc, State.setMc]
theorem State.mc_setMc_ne (s : State) (k j : Nat) (m : Mc) (h : j ≠ k) : (s.setMc k m).mc j = s.mc j := by
  simp [State.mc, State.setMc, State.cluster_setCluster_ne _ _ _ _ h]
@[simp] theorem State.core_setMc (s : State) (k c : Nat) (m : Mc) : (s.setMc k m).core c = s.core c := rfl
@[simp] theorem State.mc_setCore (s : State) (k c : Nat) (x : Core) : (s.setCore c x).mc k = s.mc k := rfl
@[simp] theorem State.fibre?_setFibre_self (s : State) (c e : Nat) (t : Thread) : (s.setFibre c e t).fibre? c e = some t := by
  simp [State.fibre?, State.setFibre, Tab.find?_set_self]
theorem State.fibre?_setFibre_ne (s : State) (c e f : Nat) (t : Thread) (h : f ≠ e) :
    (s.setFibre c e t).fibre? c f = s.fibre? c f := by
  simp [State.fibre?, State.setFibre, Tab.find?_set_ne _ _ _ _ h]
theorem State.fibre?_setFibre_core (s : State) (c d e f : Nat) (t : Thread) (h : d ≠ c) :
    (s.setFibre c e t).fibre? d f = s.fibre? d f := by
  simp [State.fibre?, State.setFibre, State.core_setCore_ne _ _ _ _ h]

/-- The thread of the turn, after it is replaced. -/
theorem State.cur?_setCur (s : State) (t u : Thread) (h : s.cur? = some u) : (s.setCur t).cur? = some t := by
  unfold State.cur? at h
  split at h
  · rename_i c e ht
    simp [State.setCur, ht, State.cur?]
  · rename_i c ht
    obtain ⟨x, hx, -⟩ := Option.map_eq_some_iff.mp h
    simp [State.setCur, ht, hx, State.cur?]
  · rename_i k ht
    simp [State.setCur, ht, State.cur?]
  · exact absurd h (by simp)

/-- What the current agent's own thread replaces is nothing of another core. -/
theorem State.core_setCur_ne (s : State) (t : Thread) (d : Nat) (h : ∀ c, s.curCore = some c → d ≠ c) :
    (s.setCur t).core d = s.core d := by
  unfold State.setCur
  split
  · rename_i c e ht
    exact State.core_setCore_ne _ _ _ _ (h c (by simp [State.curCore, ht]))
  · rename_i c ht
    split
    · exact State.core_setCore_ne _ _ _ _ (h c (by simp [State.curCore, ht]))
    · rfl
  · rfl
  · rfl

/-! ### Moving through a clause -/

@[simp] theorem Thread.kind_leave (t : Thread) (a : Word) : (t.leave a).kind = t.kind := rfl
@[simp] theorem Thread.uid_leave (t : Thread) (a : Word) : (t.leave a).uid = t.uid := rfl
@[simp] theorem Thread.ctx_leave (t : Thread) (a : Word) : (t.leave a).ctx = t.ctx := rfl
@[simp] theorem Thread.gen_leave (t : Thread) (a : Word) : (t.leave a).gen = t.gen := rfl
@[simp] theorem Thread.launch_leave (t : Thread) (a : Word) : (t.leave a).launch = t.launch := rfl
@[simp] theorem Thread.inst_leave (t : Thread) (a : Word) : (t.leave a).inst = t.inst := rfl
@[simp] theorem Thread.box0_leave (t : Thread) (a : Word) : (t.leave a).box0 = t.box0 := rfl
@[simp] theorem Thread.window_leave (t : Thread) (a : Word) : (t.leave a).window = t.window := rfl
@[simp] theorem Thread.box_leave (t : Thread) (a : Word) : (t.leave a).box = t.box := rfl
@[simp] theorem Thread.regs_leave (t : Thread) (a : Word) : (t.leave a).regs = t.regs := rfl
@[simp] theorem Thread.preds_leave (t : Thread) (a : Word) : (t.leave a).preds = t.preds := rfl
@[simp] theorem Thread.undefP_leave (t : Thread) (a : Word) : (t.leave a).undefP = t.undefP := rfl
@[simp] theorem Thread.rs_leave (t : Thread) (a : Word) : (t.leave a).rs = t.rs := rfl
@[simp] theorem Thread.slot_leave (t : Thread) (a : Word) : (t.leave a).slot = t.slot := rfl
@[simp] theorem Thread.slotNo_leave (t : Thread) (a : Word) : (t.leave a).slotNo = t.slotNo := rfl
@[simp] theorem Thread.sets_leave (t : Thread) (a : Word) : (t.leave a).sets = t.sets := rfl
@[simp] theorem Thread.tokId_leave (t : Thread) (a : Word) : (t.leave a).tokId = t.tokId := rfl
@[simp] theorem Thread.failed_leave (t : Thread) (a : Word) : (t.leave a).failed = t.failed := rfl
@[simp] theorem Thread.tokHb_leave (t : Thread) (a : Word) : (t.leave a).tokHb = t.tokHb := rfl
@[simp] theorem Thread.st_leave (t : Thread) (a : Word) : (t.leave a).st = t.st := rfl
@[simp] theorem Thread.why_leave (t : Thread) (a : Word) : (t.leave a).why = t.why := rfl
@[simp] theorem Thread.since_leave (t : Thread) (a : Word) : (t.leave a).since = t.since := rfl
@[simp] theorem Thread.expanded_leave (t : Thread) (a : Word) : (t.leave a).expanded = t.expanded := rfl
@[simp] theorem Thread.exBox_leave (t : Thread) (a : Word) : (t.leave a).exBox = t.exBox := rfl
@[simp] theorem Thread.active_leave (t : Thread) (a : Word) : (t.leave a).active = t.active := rfl
@[simp] theorem Thread.blocks_leave (t : Thread) (a : Word) : (t.leave a).blocks = t.blocks := rfl
@[simp] theorem Thread.lcause_leave (t : Thread) (a : Word) : (t.leave a).lcause = t.lcause := rfl
@[simp] theorem Thread.tmask_leave (t : Thread) (a : Word) : (t.leave a).tmask = t.tmask := rfl
@[simp] theorem Thread.fbrec_leave (t : Thread) (a : Word) : (t.leave a).fbrec = t.fbrec := rfl
@[simp] theorem Thread.view_leave (t : Thread) (a : Word) : (t.leave a).view = t.view := rfl
@[simp] theorem Thread.lviews_leave (t : Thread) (a : Word) : (t.leave a).lviews = t.lviews := rfl
@[simp] theorem Thread.farMarks_leave (t : Thread) (a : Word) : (t.leave a).farMarks = t.farMarks := rfl
@[simp] theorem Thread.heldTraps_leave (t : Thread) (a : Word) : (t.leave a).heldTraps = t.heldTraps := rfl
@[simp] theorem Thread.heldSt_leave (t : Thread) (a : Word) : (t.leave a).heldSt = t.heldSt := rfl
@[simp] theorem Thread.behind_leave (t : Thread) (a : Word) : (t.leave a).behind = t.behind := rfl
@[simp] theorem Thread.peeled_leave (t : Thread) (a : Word) : (t.leave a).peeled = t.peeled := rfl
@[simp] theorem Thread.pc_leave (t : Thread) (a : Word) : (t.leave a).pc = a := rfl
@[simp] theorem Thread.clause_leave (t : Thread) (a : Word) : (t.leave a).clause = none := rfl
@[simp] theorem Thread.latches_leave (t : Thread) (a : Word) : (t.leave a).latches = [] := rfl

@[simp] theorem Thread.kind_advance (t : Thread) : t.advance.kind = t.kind := by
  unfold Thread.advance; split <;> (try split) <;> rfl
@[simp] theorem Thread.uid_advance (t : Thread) : t.advance.uid = t.uid := by
  unfold Thread.advance; split <;> (try split) <;> rfl
@[simp] theorem Thread.ctx_advance (t : Thread) : t.advance.ctx = t.ctx := by
  unfold Thread.advance; split <;> (try split) <;> rfl
@[simp] theorem Thread.gen_advance (t : Thread) : t.advance.gen = t.gen := by
  unfold Thread.advance; split <;> (try split) <;> rfl
@[simp] theorem Thread.launch_advance (t : Thread) : t.advance.launch = t.launch := by
  unfold Thread.advance; split <;> (try split) <;> rfl
@[simp] theorem Thread.inst_advance (t : Thread) : t.advance.inst = t.inst := by
  unfold Thread.advance; split <;> (try split) <;> rfl
@[simp] theorem Thread.box0_advance (t : Thread) : t.advance.box0 = t.box0 := by
  unfold Thread.advance; split <;> (try split) <;> rfl
@[simp] theorem Thread.window_advance (t : Thread) : t.advance.window = t.window := by
  unfold Thread.advance; split <;> (try split) <;> rfl
@[simp] theorem Thread.box_advance (t : Thread) : t.advance.box = t.box := by
  unfold Thread.advance; split <;> (try split) <;> rfl
@[simp] theorem Thread.regs_advance (t : Thread) : t.advance.regs = t.regs := by
  unfold Thread.advance; split <;> (try split) <;> rfl
@[simp] theorem Thread.preds_advance (t : Thread) : t.advance.preds = t.preds := by
  unfold Thread.advance; split <;> (try split) <;> rfl
@[simp] theorem Thread.undefP_advance (t : Thread) : t.advance.undefP = t.undefP := by
  unfold Thread.advance; split <;> (try split) <;> rfl
@[simp] theorem Thread.rs_advance (t : Thread) : t.advance.rs = t.rs := by
  unfold Thread.advance; split <;> (try split) <;> rfl
@[simp] theorem Thread.slot_advance (t : Thread) : t.advance.slot = t.slot := by
  unfold Thread.advance; split <;> (try split) <;> rfl
@[simp] theorem Thread.slotNo_advance (t : Thread) : t.advance.slotNo = t.slotNo := by
  unfold Thread.advance; split <;> (try split) <;> rfl
@[simp] theorem Thread.sets_advance (t : Thread) : t.advance.sets = t.sets := by
  unfold Thread.advance; split <;> (try split) <;> rfl
@[simp] theorem Thread.tokId_advance (t : Thread) : t.advance.tokId = t.tokId := by
  unfold Thread.advance; split <;> (try split) <;> rfl
@[simp] theorem Thread.failed_advance (t : Thread) : t.advance.failed = t.failed := by
  unfold Thread.advance; split <;> (try split) <;> rfl
@[simp] theorem Thread.tokHb_advance (t : Thread) : t.advance.tokHb = t.tokHb := by
  unfold Thread.advance; split <;> (try split) <;> rfl
@[simp] theorem Thread.st_advance (t : Thread) : t.advance.st = t.st := by
  unfold Thread.advance; split <;> (try split) <;> rfl
@[simp] theorem Thread.why_advance (t : Thread) : t.advance.why = t.why := by
  unfold Thread.advance; split <;> (try split) <;> rfl
@[simp] theorem Thread.since_advance (t : Thread) : t.advance.since = t.since := by
  unfold Thread.advance; split <;> (try split) <;> rfl
@[simp] theorem Thread.expanded_advance (t : Thread) : t.advance.expanded = t.expanded := by
  unfold Thread.advance; split <;> (try split) <;> rfl
@[simp] theorem Thread.exBox_advance (t : Thread) : t.advance.exBox = t.exBox := by
  unfold Thread.advance; split <;> (try split) <;> rfl
@[simp] theorem Thread.active_advance (t : Thread) : t.advance.active = t.active := by
  unfold Thread.advance; split <;> (try split) <;> rfl
@[simp] theorem Thread.blocks_advance (t : Thread) : t.advance.blocks = t.blocks := by
  unfold Thread.advance; split <;> (try split) <;> rfl
@[simp] theorem Thread.lcause_advance (t : Thread) : t.advance.lcause = t.lcause := by
  unfold Thread.advance; split <;> (try split) <;> rfl
@[simp] theorem Thread.tmask_advance (t : Thread) : t.advance.tmask = t.tmask := by
  unfold Thread.advance; split <;> (try split) <;> rfl
@[simp] theorem Thread.fbrec_advance (t : Thread) : t.advance.fbrec = t.fbrec := by
  unfold Thread.advance; split <;> (try split) <;> rfl
@[simp] theorem Thread.view_advance (t : Thread) : t.advance.view = t.view := by
  unfold Thread.advance; split <;> (try split) <;> rfl
@[simp] theorem Thread.lviews_advance (t : Thread) : t.advance.lviews = t.lviews := by
  unfold Thread.advance; split <;> (try split) <;> rfl
@[simp] theorem Thread.farMarks_advance (t : Thread) : t.advance.farMarks = t.farMarks := by
  unfold Thread.advance; split <;> (try split) <;> rfl
@[simp] theorem Thread.heldTraps_advance (t : Thread) : t.advance.heldTraps = t.heldTraps := by
  unfold Thread.advance; split <;> (try split) <;> rfl
@[simp] theorem Thread.heldSt_advance (t : Thread) : t.advance.heldSt = t.heldSt := by
  unfold Thread.advance; split <;> (try split) <;> rfl
@[simp] theorem Thread.behind_advance (t : Thread) : t.advance.behind = t.behind := by
  unfold Thread.advance; split <;> (try split) <;> rfl
@[simp] theorem Thread.peeled_advance (t : Thread) : t.advance.peeled = t.peeled := by
  unfold Thread.advance; split <;> (try split) <;> rfl

@[simp] theorem Thread.kind_setPred (t : Thread) (n : Nat) (p : Pred) : (t.setPred n p).kind = t.kind := rfl
@[simp] theorem Thread.uid_setPred (t : Thread) (n : Nat) (p : Pred) : (t.setPred n p).uid = t.uid := rfl
@[simp] theorem Thread.ctx_setPred (t : Thread) (n : Nat) (p : Pred) : (t.setPred n p).ctx = t.ctx := rfl
@[simp] theorem Thread.gen_setPred (t : Thread) (n : Nat) (p : Pred) : (t.setPred n p).gen = t.gen := rfl
@[simp] theorem Thread.launch_setPred (t : Thread) (n : Nat) (p : Pred) : (t.setPred n p).launch = t.launch := rfl
@[simp] theorem Thread.inst_setPred (t : Thread) (n : Nat) (p : Pred) : (t.setPred n p).inst = t.inst := rfl
@[simp] theorem Thread.box0_setPred (t : Thread) (n : Nat) (p : Pred) : (t.setPred n p).box0 = t.box0 := rfl
@[simp] theorem Thread.window_setPred (t : Thread) (n : Nat) (p : Pred) : (t.setPred n p).window = t.window := rfl
@[simp] theorem Thread.box_setPred (t : Thread) (n : Nat) (p : Pred) : (t.setPred n p).box = t.box := rfl
@[simp] theorem Thread.pc_setPred (t : Thread) (n : Nat) (p : Pred) : (t.setPred n p).pc = t.pc := rfl
@[simp] theorem Thread.clause_setPred (t : Thread) (n : Nat) (p : Pred) : (t.setPred n p).clause = t.clause := rfl
@[simp] theorem Thread.regs_setPred (t : Thread) (n : Nat) (p : Pred) : (t.setPred n p).regs = t.regs := rfl
@[simp] theorem Thread.latches_setPred (t : Thread) (n : Nat) (p : Pred) : (t.setPred n p).latches = t.latches := rfl
@[simp] theorem Thread.rs_setPred (t : Thread) (n : Nat) (p : Pred) : (t.setPred n p).rs = t.rs := rfl
@[simp] theorem Thread.slot_setPred (t : Thread) (n : Nat) (p : Pred) : (t.setPred n p).slot = t.slot := rfl
@[simp] theorem Thread.slotNo_setPred (t : Thread) (n : Nat) (p : Pred) : (t.setPred n p).slotNo = t.slotNo := rfl
@[simp] theorem Thread.sets_setPred (t : Thread) (n : Nat) (p : Pred) : (t.setPred n p).sets = t.sets := rfl
@[simp] theorem Thread.wdog_setPred (t : Thread) (n : Nat) (p : Pred) : (t.setPred n p).wdog = t.wdog := rfl
@[simp] theorem Thread.progress_setPred (t : Thread) (n : Nat) (p : Pred) : (t.setPred n p).progress = t.progress := rfl
@[simp] theorem Thread.tokId_setPred (t : Thread) (n : Nat) (p : Pred) : (t.setPred n p).tokId = t.tokId := rfl
@[simp] theorem Thread.failed_setPred (t : Thread) (n : Nat) (p : Pred) : (t.setPred n p).failed = t.failed := rfl
@[simp] theorem Thread.tokHb_setPred (t : Thread) (n : Nat) (p : Pred) : (t.setPred n p).tokHb = t.tokHb := rfl
@[simp] theorem Thread.st_setPred (t : Thread) (n : Nat) (p : Pred) : (t.setPred n p).st = t.st := rfl
@[simp] theorem Thread.why_setPred (t : Thread) (n : Nat) (p : Pred) : (t.setPred n p).why = t.why := rfl
@[simp] theorem Thread.since_setPred (t : Thread) (n : Nat) (p : Pred) : (t.setPred n p).since = t.since := rfl
@[simp] theorem Thread.expanded_setPred (t : Thread) (n : Nat) (p : Pred) : (t.setPred n p).expanded = t.expanded := rfl
@[simp] theorem Thread.exBox_setPred (t : Thread) (n : Nat) (p : Pred) : (t.setPred n p).exBox = t.exBox := rfl
@[simp] theorem Thread.active_setPred (t : Thread) (n : Nat) (p : Pred) : (t.setPred n p).active = t.active := rfl
@[simp] theorem Thread.blocks_setPred (t : Thread) (n : Nat) (p : Pred) : (t.setPred n p).blocks = t.blocks := rfl
@[simp] theorem Thread.lcause_setPred (t : Thread) (n : Nat) (p : Pred) : (t.setPred n p).lcause = t.lcause := rfl
@[simp] theorem Thread.tmask_setPred (t : Thread) (n : Nat) (p : Pred) : (t.setPred n p).tmask = t.tmask := rfl
@[simp] theorem Thread.fbrec_setPred (t : Thread) (n : Nat) (p : Pred) : (t.setPred n p).fbrec = t.fbrec := rfl
@[simp] theorem Thread.view_setPred (t : Thread) (n : Nat) (p : Pred) : (t.setPred n p).view = t.view := rfl
@[simp] theorem Thread.lviews_setPred (t : Thread) (n : Nat) (p : Pred) : (t.setPred n p).lviews = t.lviews := rfl
@[simp] theorem Thread.farMarks_setPred (t : Thread) (n : Nat) (p : Pred) : (t.setPred n p).farMarks = t.farMarks := rfl
@[simp] theorem Thread.heldTraps_setPred (t : Thread) (n : Nat) (p : Pred) : (t.setPred n p).heldTraps = t.heldTraps := rfl
@[simp] theorem Thread.heldSt_setPred (t : Thread) (n : Nat) (p : Pred) : (t.setPred n p).heldSt = t.heldSt := rfl
@[simp] theorem Thread.behind_setPred (t : Thread) (n : Nat) (p : Pred) : (t.setPred n p).behind = t.behind := rfl
@[simp] theorem Thread.peeled_setPred (t : Thread) (n : Nat) (p : Pred) : (t.setPred n p).peeled = t.peeled := rfl
@[simp] theorem Thread.pred_setPred_self (t : Thread) (n : Nat) (p : Pred) : (t.setPred n p).pred n = p := by
  simp [Thread.pred, Thread.setPred]
theorem Thread.pred_setPred_ne (t : Thread) (n m : Nat) (p : Pred) (h : m ≠ n) : (t.setPred n p).pred m = t.pred m := by
  simp [Thread.pred, Thread.setPred, Tab.get_set_ne _ _ _ _ _ h]

/-- Inside a clause the next word follows; at its end the next header does. -/
theorem Thread.pc_advance (t : Thread) (c : Clause) (h : t.clause = some c) :
    t.advance.pc = if c.pos + 1 < c.words.length then t.pc + 8 else c.after := by
  unfold Thread.advance
  simp only [h]
  split <;> simp

end Sys2Proof.Machine
end

