-- ==== Sys2Proof/Laws/Memory.lean ====
section
/-!
SUPPORT. Bytes: reading after writing, and the canonical form that every operation on memory keeps.
-/

namespace Sys2Proof.Machine

open Sys2Proof

/-! ### The canonical form -/

/-- Every listed address is above `b`. -/
def Bytes.above (b : Nat) (m : Bytes) : Prop := ∀ x ∈ m, b < x.1

theorem Bytes.wf_cons (a : Nat) (v : Byte) (t : Bytes) :
    Bytes.wf ((a, v) :: t) = true ↔ v ≠ 0 ∧ Bytes.above a t ∧ Bytes.wf t = true := by
  induction t generalizing a v with
  | nil => simp [Bytes.wf, Bytes.above]
  | cons x t ih =>
    obtain ⟨b, w⟩ := x
    simp only [Bytes.wf, Bool.and_eq_true, decide_eq_true_eq]
    constructor
    · rintro ⟨⟨hv, hab⟩, hw⟩
      refine ⟨hv, ?_, hw⟩
      intro y hy
      rcases List.mem_cons.mp hy with rfl | hy
      · exact hab
      · exact Nat.lt_trans hab (((ih b w).mp hw).2.1 y hy)
    · rintro ⟨hv, ha, hw⟩
      exact ⟨⟨hv, ha (b, w) (by simp)⟩, hw⟩

theorem Bytes.get_above (m : Bytes) (b k : Nat) (h : Bytes.above b m) (hk : k ≤ b) : Bytes.get m k = 0 := by
  induction m with
  | nil => rfl
  | cons x t ih =>
    obtain ⟨a, v⟩ := x
    have ha : b < a := h (a, v) (by simp)
    have : k ≠ a := by omega
    simp only [Bytes.get, this, ↓reduceIte]
    exact ih fun y hy => h y (by simp [hy])

theorem Bytes.above_mono {a b : Nat} {m : Bytes} (h : Bytes.above b m) (hab : a ≤ b) : Bytes.above a m :=
  fun x hx => Nat.lt_of_le_of_lt hab (h x hx)

theorem Bytes.above_put (m : Bytes) (b k : Nat) (v : Byte) (h : Bytes.above b m) (hk : b < k) :
    Bytes.above b (Bytes.put m k v) := by
  induction m with
  | nil =>
    simp only [Bytes.put]
    split <;> simp [Bytes.above, hk]
  | cons x t ih =>
    obtain ⟨a, w⟩ := x
    have ht : Bytes.above b t := fun y hy => h y (by simp [hy])
    have ha : b < a := h (a, w) (by simp)
    simp only [Bytes.put]
    split
    · split
      · exact h
      · intro y hy
        rcases List.mem_cons.mp hy with rfl | hy
        · exact hk
        · exact h y hy
    · split
      · split
        · exact ht
        · intro y hy
          rcases List.mem_cons.mp hy with rfl | hy
          · exact hk
          · exact ht y hy
      · intro y hy
        rcases List.mem_cons.mp hy with rfl | hy
        · exact ha
        · exact ih ht y hy

/-- Writing a byte keeps the canonical form. -/
theorem Bytes.wf_put (m : Bytes) (k : Nat) (v : Byte) (h : Bytes.wf m = true) : Bytes.wf (Bytes.put m k v) = true := by
  induction m with
  | nil =>
    simp only [Bytes.put]
    split
    · rfl
    · rename_i hv
      simpa [Bytes.wf] using hv
  | cons x t ih =>
    obtain ⟨a, w⟩ := x
    obtain ⟨hw, ha, ht⟩ := (Bytes.wf_cons a w t).mp h
    simp only [Bytes.put]
    split
    · rename_i hk
      split
      · exact h
      · rename_i hv
        refine (Bytes.wf_cons _ _ _).mpr ⟨hv, ?_, h⟩
        intro y hy
        rcases List.mem_cons.mp hy with rfl | hy
        · exact hk
        · exact Nat.lt_trans hk (ha y hy)
    · rename_i hk
      split
      · rename_i he
        subst he
        split
        · exact ht
        · rename_i hv
          exact (Bytes.wf_cons _ _ _).mpr ⟨hv, ha, ht⟩
      · rename_i he
        exact (Bytes.wf_cons _ _ _).mpr ⟨hw, Bytes.above_put _ _ _ _ ha (by omega), ih ht⟩

/-- Writing bytes keeps the canonical form. -/
theorem Bytes.wf_write (m : Bytes) (a : Nat) (bs : List Byte) (h : Bytes.wf m = true) : Bytes.wf (Bytes.write m a bs) = true := by
  induction bs generalizing m a with
  | nil => exact h
  | cons b t ih => exact ih _ _ (Bytes.wf_put m a b h)

theorem Bytes.above_pack (bs : List Byte) (a b : Nat) (h : b < a) : Bytes.above b (Bytes.pack a bs) := by
  induction bs generalizing a with
  | nil => intro x hx; simp [Bytes.pack] at hx
  | cons v t ih =>
    simp only [Bytes.pack]
    split
    · exact ih (a + 1) (by omega)
    · intro y hy
      rcases List.mem_cons.mp hy with rfl | hy
      · exact h
      · exact ih (a + 1) (by omega) y hy

/-- A list of bytes packed from an address on is in canonical form. -/
theorem Bytes.wf_pack (a : Nat) (bs : List Byte) : Bytes.wf (Bytes.pack a bs) = true := by
  induction bs generalizing a with
  | nil => rfl
  | cons v t ih =>
    simp only [Bytes.pack]
    split
    · exact ih _
    · rename_i hv
      exact (Bytes.wf_cons _ _ _).mpr ⟨hv, Bytes.above_pack t (a + 1) a (by omega), ih _⟩

/-! ### Reading after writing -/

/-- A byte written reads back, and every other byte is as it was. -/
theorem Bytes.get_put (m : Bytes) (k j : Nat) (v : Byte) (h : Bytes.wf m = true) :
    Bytes.get (Bytes.put m k v) j = if j = k then v else Bytes.get m j := by
  induction m with
  | nil =>
    simp only [Bytes.put]
    split
    · rename_i hv
      subst hv
      simp [Bytes.get]
    · simp [Bytes.get]
  | cons x t ih =>
    obtain ⟨a, w⟩ := x
    obtain ⟨hw, ha, ht⟩ := (Bytes.wf_cons a w t).mp h
    simp only [Bytes.put]
    split
    · rename_i hk
      split
      · rename_i hv
        subst hv
        split
        · rename_i hj
          subst hj
          have : j ≠ a := by omega
          simp only [Bytes.get, this, ↓reduceIte]
          exact Bytes.get_above t a j ha (by omega)
        · rfl
      · simp [Bytes.get]
    · rename_i hk
      split
      · rename_i he
        subst he
        split
        · rename_i hv
          subst hv
          split
          · rename_i hj
            subst hj
            exact Bytes.get_above t j j ha (Nat.le_refl _)
          · rename_i hj
            simp [Bytes.get, hj]
        · simp only [Bytes.get]
          split <;> rfl
      · rename_i he
        simp only [Bytes.get, ih ht]
        by_cases hja : j = a
        · subst hja
          have : j ≠ k := fun hc => he hc.symm
          simp [this]
        · simp [hja]

/-- Bytes written read back, and every byte outside them is as it was. -/
theorem Bytes.get_write (m : Bytes) (a j : Nat) (bs : List Byte) (h : Bytes.wf m = true) :
    Bytes.get (Bytes.write m a bs) j = if a ≤ j ∧ j < a + bs.length then bs.getD (j - a) 0 else Bytes.get m j := by
  induction bs generalizing m a with
  | nil =>
    have : ¬(a ≤ j ∧ j < a) := by omega
    simp [Bytes.write, this]
  | cons b t ih =>
    simp only [Bytes.write, ih _ _ (Bytes.wf_put m a b h), Bytes.get_put m a j b h, List.length_cons]
    by_cases hj : j = a
    · subst hj
      have h1 : ¬(j + 1 ≤ j ∧ j < j + 1 + t.length) := by omega
      have h2 : j ≤ j ∧ j < j + (t.length + 1) := by omega
      rw [if_neg h1, if_pos h2]
      simp
    · by_cases hc : a + 1 ≤ j ∧ j < a + 1 + t.length
      · have h2 : a ≤ j ∧ j < a + (t.length + 1) := by omega
        obtain ⟨n, hn⟩ : ∃ n, j - a = n + 1 := ⟨j - a - 1, by omega⟩
        have hn' : j - (a + 1) = n := by omega
        rw [if_pos hc, if_pos h2, hn, hn']
        simp
      · have h2 : ¬(a ≤ j ∧ j < a + (t.length + 1)) := by omega
        rw [if_neg hc, if_neg h2, if_neg hj]

@[simp] theorem Bytes.length_read (m : Bytes) (a n : Nat) : (Bytes.read m a n).length = n := by simp [Bytes.read]

@[simp] theorem leBytes_length (n v : Nat) : (leBytes n v).length = n := by
  induction n generalizing v with
  | zero => rfl
  | succ n ih => simp [leBytes, ih]

/-- 00 R5: a number of n bytes reads back as it was written. -/
theorem leNat_leBytes (n v : Nat) (h : v < 2 ^ (8 * n)) : leNat (leBytes n v) = v := by
  induction n generalizing v with
  | zero => simp [leBytes, leNat] at *; omega
  | succ n ih =>
    have h' : v / 256 < 2 ^ (8 * n) := by
      have : 2 ^ (8 * (n + 1)) = 2 ^ (8 * n) * 256 := by rw [Nat.mul_add, Nat.pow_add]
      omega
    simp only [leBytes, leNat, ih _ h', BitVec.toNat_ofNat]
    omega

/-! ### Memory -/

theorem wf_foldl_put (l : List Nat) (f : Nat → Nat) (g : Nat → Byte) (p : Nat → Bool) (m : Bytes) (h : Bytes.wf m = true) :
    Bytes.wf (l.foldl (fun c i => if p i then c else Bytes.put c (f i) (g i)) m) = true := by
  induction l generalizing m with
  | nil => exact h
  | cons x t ih =>
    apply ih
    by_cases hp : p x = true
    · simpa [hp] using h
    · simpa [hp] using Bytes.wf_put m (f x) (g x) h

/-- The one way in which data enters memory keeps the canonical form. -/
theorem State.wf_writeBytes (s : State) (sp : Space) (a : Nat) (data : List Byte) (po : List Bool) (h : s.mem.wf = true) :
    (s.writeBytes sp a data po).mem.wf = true := by
  unfold State.writeBytes
  split
  · simp only [Memory.wf]
    split
    · exact wf_foldl_put (List.range data.length) (a + ·) (fun i => data.getD i 0) _ _ h
    · exact Bytes.wf_write _ _ _ h
  · split <;> simpa using h

theorem State.wf_store (s : State) (sp : Space) (a : Nat) (data : List Byte) (po : List Bool) (p : Path) (ag : Nat)
    (rel : List Release) (h : s.mem.wf = true) : (s.store sp a data po p ag rel).mem.wf = true :=
  State.wf_writeBytes s sp a data po h

theorem State.wf_storeBy (s : State) (v : View) (sp : Space) (a : Nat) (data : List Byte) (po : List Bool) (p : Path)
    (ag : Nat) (k : Option Nat) (h : s.mem.wf = true) : (s.storeBy v sp a data po p ag k).1.mem.wf = true :=
  State.wf_writeBytes s sp a data po h

theorem State.wf_poisonLine (s : State) (line : Nat) (h : s.mem.wf = true) : (s.poisonLine line).mem.wf = true := by
  unfold State.poisonLine
  simp only [Memory.wf]
  exact Bytes.wf_write s.mem.cells (64 * line) (List.replicate 64 0#8) h

/-! What the memory controllers do of themselves (21 R387, R390). -/

@[simp] theorem State.mem_logError (s : State) (cls pa k : Nat) (b : Bool) : (s.logError cls pa k b).mem = s.mem := rfl

@[simp] theorem State.mem_setPch (s : State) (k : Nat) (x : Pch) : (s.setPch k x).mem = s.mem := rfl

@[simp] theorem State.mem_remap (s : State) (k row pa : Nat) : (s.remap k row pa).mem = s.mem := by
  simp only [State.remap]
  split <;> rfl

@[simp] theorem State.cells_corrected (s : State) (pa : Nat) (b : Bool) : (s.corrected pa b).mem.cells = s.mem.cells := by
  simp only [State.corrected]
  split <;> simp

theorem State.wf_uncorrected (s : State) (pa : Nat) (h : s.mem.wf = true) : (s.uncorrected pa).mem.wf = true := by
  simp only [State.uncorrected, State.mem_remap, State.mem_logError]
  exact State.wf_poisonLine _ _ h

theorem State.wf_readLine (s : State) (line : Nat) (b : Bool) (h : s.mem.wf = true) : (s.readLine line b).mem.wf = true := by
  unfold State.readLine
  split
  · exact h
  · split
    · simpa [Memory.wf] using h
    · exact State.wf_uncorrected _ _ h
    · exact h

theorem State.wf_readLines (ls : List Nat) (s : State) (h : s.mem.wf = true) : (s.readLines ls).mem.wf = true := by
  unfold State.readLines
  induction ls generalizing s with
  | nil => exact h
  | cons l t ih =>
    refine ih _ ?_
    dsimp only
    split
    · exact h
    · exact State.wf_readLine s l false h

/-- A demand read of HBM keeps the canonical form. -/
theorem State.wf_demand (s : State) (pa n : Nat) (h : s.mem.wf = true) : (s.demand pa n).mem.wf = true := by
  unfold State.demand
  split
  · exact h
  · exact State.wf_readLines _ s h

theorem State.wf_storeAt (s : State) (v : View) (sp : Space) (a : Nat) (data : List Byte) (po : List Bool) (p : Path)
    (ag : Nat) (k : Option Nat) (h : s.mem.wf = true) : (s.storeAt v sp a data po p ag k).1.mem.wf = true := by
  have h1 : (if sp.isSome || s.mem.flaws.isEmpty || !inHbm a then s
      else s.readLines (listDiff (linesOf a data.length) (wholeLines a data.length))).mem.wf = true := by
    split
    · exact h
    · exact State.wf_readLines _ s h
  unfold State.storeAt
  dsimp only
  split
  · split
    · exact h1
    · exact State.wf_storeBy _ v sp a _ _ p ag k h1
  · exact State.wf_storeBy _ v sp a data po p ag k h1

@[simp] theorem State.mem_markStore (s b : State) (f : WriteRec → WriteRec) : (s.markStore b f).mem = s.mem := by
  simp only [State.markStore]
  split <;> rfl

theorem State.wf_storeFor (s : State) (l : Option Nat) (v : View) (sp : Space) (a : Nat) (data : List Byte) (po : List Bool)
    (p : Path) (ag : Nat) (k : Option Nat) (h : s.mem.wf = true) : (s.storeFor l v sp a data po p ag k).1.mem.wf = true := by
  simp only [State.storeFor, State.mem_markStore]
  exact State.wf_storeAt s v sp a data po p ag k h

/-! The place of a store in modification order. -/

theorem State.wf_storeUnder (s : State) (newer : List WriteRec) (l : Option Nat) (v : View) (sp : Space) (a : Nat) (data : List Byte)
    (po : List Bool) (p : Path) (ag : Nat) (k : Option Nat) (h : s.mem.wf = true) :
    (s.storeUnder newer l v sp a data po p ag k).1.mem.wf = true := by
  unfold State.storeUnder
  dsimp only
  split <;> exact State.wf_storeFor _ _ _ _ _ _ _ _ _ _ h

theorem State.wf_storeMo (s : State) (after : WriteRec → Bool) (at_ : Bool) (l : Option Nat) (v : View) (sp : Space) (a : Nat)
    (data : List Byte) (po : List Bool) (p : Path) (ag : Nat) (k : Option Nat) (h : s.mem.wf = true) :
    (s.storeMo after at_ l v sp a data po p ag k).1.mem.wf = true := by
  unfold State.storeMo
  dsimp only
  split
  · simpa using State.wf_storeFor s l v sp a data po p ag k h
  · generalize (moParts at_ data.length).map _ = xs
    suffices ∀ (acc : State × View), acc.1.mem.wf = true → (xs.foldl _ acc).1.mem.wf = true from this (s, v) h
    intro acc ha
    induction xs generalizing acc with
    | nil => exact ha
    | cons x t ih => exact ih _ (State.wf_storeUnder _ _ _ _ _ _ _ _ _ _ _ ha)

/-- The parts of a store lie in it. -/
theorem moParts_le {at_ : Bool} {n : Nat} {x : Nat × Nat} (h : x ∈ moParts at_ n) : x.1 + x.2 ≤ n := by
  unfold moParts at h
  split at h
  · simp only [List.mem_map, List.mem_range] at h
    obtain ⟨i, hi, rfl⟩ := h
    simp only
    omega
  · split at h <;> simp at h
    · rcases h with rfl | rfl <;> simp only <;> omega
    · subst h
      simp

/-- Where no store in the log shares a byte with it, a store precedes none. -/
theorem State.passes_eq_nil (s : State) (v : View) (after : WriteRec → Bool) (sp : Space) (a n : Nat)
    (h : ∀ w ∈ s.log, w.covers sp a n = false) : s.passes v after sp a n = [] := by
  have hc : s.log.filter (·.covers sp a n) = [] := List.filter_eq_nil_iff.mpr (by simpa using h)
  simp [State.passes, hc]

/-- A store whose bytes no store in the log covers is the newest of each, in one record. -/
theorem State.storeMo_newest (s : State) (after : WriteRec → Bool) (at_ : Bool) (l : Option Nat) (v : View) (sp : Space) (a : Nat)
    (data : List Byte) (po : List Bool) (p : Path) (ag : Nat) (k : Option Nat)
    (h : ∀ w ∈ s.log, w.covers sp a data.length = false) :
    s.storeMo after at_ l v sp a data po p ag k =
      ((s.storeFor l v sp a data po p ag k).1.markStore s
        fun w => { w with unit := if at_ then some (a, data.length) else none }, (s.storeFor l v sp a data po p ag k).2) := by
  have he : (((moParts at_ data.length).map fun x => (x, s.passes v after sp (a + x.1) x.2)).all fun x => x.2.isEmpty) = true := by
    simp only [List.all_map, List.all_eq_true, Function.comp, List.isEmpty_iff]
    intro x hx
    refine State.passes_eq_nil s v after sp _ _ fun w hw => ?_
    have := h w hw
    have hl := moParts_le hx
    simp only [WriteRec.covers, Bool.and_eq_false_iff, decide_eq_false_iff_not] at this ⊢
    rcases this with (hs | h1) | h2
    · exact .inl (.inl hs)
    · exact .inl (.inr (by omega))
    · exact .inr (by omega)
  unfold State.storeMo
  simp only [he, Bool.true_or, if_true]

/-- Where no line is poisoned or beyond correction, a store of bytes is a plain write of them. -/
theorem State.cells_writeBytes (s : State) (a : Nat) (data : List Byte) (po : List Bool) (h : s.mem.plines = [])
    (hf : s.mem.flaws = []) : (s.writeBytes none a data po).mem.cells = Bytes.write s.mem.cells a data := by
  simp [State.writeBytes, h, hf, listDiff]

end Sys2Proof.Machine
end

