-- ==== Sys2Proof/Laws/Ops.lean ====
section
/-!
SUPPORT. What the shared operations can do, said once: writing the current agent, waiting for resources, guards, the trap queue,
and taking a trap.
-/

namespace Sys2Proof.Machine

open Sys2Proof

/-! ### The current agent -/

/-- Writing the current agent leaves memory, the log, and every other unit but cores and clusters. -/
theorem State.setCur_frame (s : State) (t : Thread) :
    ∃ cs ks, s.setCur t = { s with cores := cs, clusters := ks } := by
  unfold State.setCur
  split
  · exact ⟨_, s.clusters, rfl⟩
  · split
    · exact ⟨_, s.clusters, rfl⟩
    · exact ⟨s.cores, s.clusters, rfl⟩
  · exact ⟨s.cores, _, rfl⟩
  · exact ⟨s.cores, s.clusters, rfl⟩

theorem State.advance_eq (s : State) (t : Thread) (h : s.cur? = some t) : s.advance = s.setCur t.advance := by
  simp [State.advance, h]

theorem State.progressed_eq (s : State) (t : Thread) (h : s.cur? = some t) : s.progressed = s.setCur t.progressed := by
  simp [State.progressed, h]

/-- 02 R54: an operation takes effect, or the fibre waits for resources before any effect. -/
theorem State.orWait_cases (s s' : State) :
    s.orWait s' = s' ∨
    ∃ c e, s.turn = .fibre c e ∧
      s.orWait s' = s.modFibre c e fun t => { t with st := .resourceWait, why := .resource, since := s.tick } := by
  unfold State.orWait
  split
  · rename_i c e h
    split
    · exact .inl rfl
    · exact .inr ⟨c, e, h, rfl⟩
  · exact .inl rfl

/-! ### Guards (02 R43) -/

/-- Under a guard that is T the operation acts on every place; under F the word is passed. -/
theorem State.guardedDst_t (s : State) (t : Thread) (g : Guard) (run : Option (List Nat) → State → State)
    (h : s.cur? = some t) (hg : t.guard g = .t) : s.guardedDst g run = run none s := by
  simp [State.guardedDst, h, hg]

theorem State.guardedDst_f (s : State) (t : Thread) (g : Guard) (run : Option (List Nat) → State → State)
    (h : s.cur? = some t) (hg : t.guard g = .f) : s.guardedDst g run = s.setCur t.advance := by
  simp [State.guardedDst, h, hg, State.advance_eq s t h]

theorem State.guardedDst_m (s : State) (t : Thread) (g : Guard) (l : List Nat) (run : Option (List Nat) → State → State)
    (h : s.cur? = some t) (hg : t.guard g = .m l) :
    s.guardedDst g run = run (some (t.active.filter (l.contains ·))) s := by
  simp [State.guardedDst, h, hg]

@[simp] theorem Thread.simplify_t (t : Thread) : t.simplify .t = .t := rfl
@[simp] theorem Thread.simplify_f (t : Thread) : t.simplify .f = .f := rfl

theorem State.guarded_t (s : State) (t : Thread) (g : Guard) (run : Option (List Nat) → State → State)
    (h : s.cur? = some t) (hg : t.guard g = .t) : s.guarded g run = run none s := by
  simp [State.guarded, h, Thread.guardAt, hg]

theorem State.guarded_f (s : State) (t : Thread) (g : Guard) (run : Option (List Nat) → State → State)
    (h : s.cur? = some t) (hg : t.guard g = .f) : s.guarded g run = s.setCur t.advance := by
  simp [State.guarded, h, Thread.guardAt, hg, State.advance_eq s t h]

/-- 05 R124: predicate 31 is no guard. -/
@[simp] theorem Thread.guard_always (t : Thread) (neg : Bool) : t.guard ⟨neg, 31#5⟩ = .t := rfl

/-- A uniform result goes to a place that needs no lanes as it is (02 R42). -/
theorem State.forU_eq (s : State) (t : Thread) (d : Dst) (w : RW) (k : State → State) (h : s.cur? = some t)
    (hn : t.needsLanes d w (Opd.ofU 0) = false) : s.forU d w k = k s := by
  unfold State.forU
  simp only [h]
  rw [if_neg]
  rw [hn]
  decide

/-! ### The trap queue (17 R348) -/

/-- A record enters the queue with the next number where it has room and none is held. -/
theorem State.pushTrap_room (s : State) (k : Nat) (r : TrapRec) (h : (s.cluster k).trapq.length < Config.trapQueueSize)
    (hh : (s.cluster k).held = []) :
    s.pushTrap k r = s.setCluster k { s.cluster k with
      trapq := (s.cluster k).trapq ++ [{ r with seq := (s.cluster k).seq }], seq := (s.cluster k).seq + 1 } := by
  simp [State.pushTrap, h, hh]

/-- Else it is held. -/
theorem State.pushTrap_full (s : State) (k : Nat) (r : TrapRec)
    (h : Config.trapQueueSize ≤ (s.cluster k).trapq.length ∨ (s.cluster k).held ≠ []) :
    s.pushTrap k r = (s.setCluster k { s.cluster k with held := (s.cluster k).held ++ [r] }).post (.heldTrapPush k) := by
  have : ((s.cluster k).trapq.length < Config.trapQueueSize && (s.cluster k).held.isEmpty) = false := by
    rcases h with h | h
    · simp; omega
    · simp [h]
  simp [State.pushTrap, this]

/-- Pushing a record changes a cluster and the agenda, and nothing else. -/
theorem State.pushTrap_frame (s : State) (k : Nat) (r : TrapRec) :
    ∃ x ag, s.pushTrap k r = { s.setCluster k x with agenda := ag } := by
  simp only [State.pushTrap]
  split
  · exact ⟨_, s.agenda, rfl⟩
  · exact ⟨_, _, rfl⟩

@[simp] theorem State.mem_pushTrap (s : State) (k : Nat) (r : TrapRec) : (s.pushTrap k r).mem = s.mem := by
  obtain ⟨x, ag, h⟩ := s.pushTrap_frame k r
  rw [h]; rfl

@[simp] theorem State.log_pushTrap (s : State) (k : Nat) (r : TrapRec) : (s.pushTrap k r).log = s.log := by
  obtain ⟨x, ag, h⟩ := s.pushTrap_frame k r
  rw [h]; rfl

@[simp] theorem State.cores_pushTrap (s : State) (k : Nat) (r : TrapRec) : (s.pushTrap k r).cores = s.cores := by
  obtain ⟨x, ag, h⟩ := s.pushTrap_frame k r
  rw [h]; rfl

@[simp] theorem State.fibre?_pushTrap (s : State) (k : Nat) (r : TrapRec) (c e : Nat) :
    (s.pushTrap k r).fibre? c e = s.fibre? c e := by
  simp [State.fibre?, State.core]

/-! ### Taking a trap -/

/-- A trap of any agent leaves memory and the log as they are. -/
@[simp] theorem State.mem_fibreTrap (s : State) (c e : Nat) (t : Thread) (cause : BitVec 8) (a x : Word) (who : Option (List Nat))
    (next : Bool) : (s.fibreTrap c e t cause a x who next).mem = s.mem := by
  simp only [State.fibreTrap]
  split
  · rw [State.mem_pushTrap]; rfl
  · rfl

@[simp] theorem State.mem_streamTrap (s : State) (c : Nat) (x : Stream) (cause : BitVec 8) (a v : Word) (next : Bool) :
    (s.streamTrap c x cause a v next).mem = s.mem := by
  simp only [State.streamTrap, State.mem_pushTrap]; rfl

@[simp] theorem State.mem_mcTrap (s : State) (k : Nat) (cause : BitVec 8) (next : Bool) : (s.mcTrap k cause next).mem = s.mem := by
  simp only [State.mcTrap]
  split
  · rfl
  · rfl

@[simp] theorem State.mem_takeTrap (s : State) (cause : BitVec 8) (a x : Word) (who : Option (List Nat)) (next : Bool) :
    (s.takeTrap cause a x who next).mem = s.mem := by
  unfold State.takeTrap
  split
  · split
    · exact State.mem_fibreTrap ..
    · rfl
  · split
    · exact State.mem_streamTrap ..
    · rfl
  · exact State.mem_mcTrap ..
  · rfl

@[simp] theorem State.mem_trapAll (s : State) (cause : BitVec 8) : (s.trapAll cause).mem = s.mem := State.mem_takeTrap ..

/-- 17 R348, R351: a fibre inside its clause takes a trap as a whole: it parks, and its cluster's queue takes the record. -/
theorem State.trapAll_fibre (s : State) (c e : Nat) (t : Thread) (cause : BitVec 8) (ht : s.turn = .fibre c e)
    (hf : s.fibre? c e = some t) (hc : t.clause ≠ none) (hx : t.expanded = false) :
    s.trapAll cause = (s.setFibre c e { t with st := .parked, why := .none, lcause := cause, tmask := t.active }).pushTrap
      (clusterOf c) (t.record c e cause t.pc 0 0 (.box t.box) [] none) := by
  have : t.clause.isNone = false := by
    cases h : t.clause with
    | none => exact absurd h hc
    | some _ => rfl
  simp [State.trapAll, State.takeTrap, ht, hf, State.fibreTrap, this, Thread.indexSet, hx]

/-- 07 R201: a management core that is not in its handler enters it. -/
theorem State.trapAll_mc (s : State) (k : Nat) (cause : BitVec 8) (ht : s.turn = .mc k) (hi : (s.mc k).inh = false) :
    let u := s.trapAll cause
    (u.mc k).epc = (s.mc k).th.pc ∧ (u.mc k).cause = cause ∧ (u.mc k).inh = true ∧ (u.mc k).th.pc = (s.mc k).hvec + 0x100 ∧
      (u.mc k).th.clause = none := by
  simp [State.trapAll, State.takeTrap, ht, State.mcTrap, hi]

end Sys2Proof.Machine
end

