-- ==== Sys2Proof/Laws/PerInstr.lean ====
section
/-!
SUPPORT. Per instruction: the word that the encoder gives an instruction has an opcode that the table of 05 R123 lists. An event
has no word.
-/

namespace Sys2Proof.Laws.Opcode

/-- The opcode of the instruction's word is one of the opcode map's. -/
def Statement (i : Instr) : Prop := ∀ w, encode i = some w → (opcodeClasses (w.extractLsb' 54 10).toNat).isSome = true

theorem of {i : Instr} {w : Word} {opc : BitVec 10} (h : encode i = some w) (ho : w.extractLsb' 54 10 = opc)
    (hc : (opcodeClasses opc.toNat).isSome = true) : Statement i := by
  intro v hv
  rw [h] at hv
  cases hv
  rw [ho]
  exact hc

theorem noWord {i : Instr} (h : encode i = none) : Statement i := by
  intro w hw
  rw [h] at hw
  cases hw

theorem nop (o : G) : Statement (.nop o) := of (opc := 0x001#10) rfl (CF.opc_toWord _) (by decide)
theorem illegal : Statement .illegal := of (opc := 0#10) rfl (by decide) (by decide)
theorem iadd (o : RR) : Statement (.iadd o) := of (opc := 0x002#10) rfl (CF.opc_toWord _) (by decide)
theorem iaddImm (o : RI) : Statement (.iaddImm o) := of (opc := 0x042#10) rfl (IF.opc_toWord _) (by decide)
theorem isub (o : RR) : Statement (.isub o) := of (opc := 0x003#10) rfl (CF.opc_toWord _) (by decide)
theorem isubImm (o : RI) : Statement (.isubImm o) := of (opc := 0x043#10) rfl (IF.opc_toWord _) (by decide)
theorem imul (o : RR) : Statement (.imul o) := of (opc := 0x004#10) rfl (CF.opc_toWord _) (by decide)
theorem imulImm (o : RI) : Statement (.imulImm o) := of (opc := 0x044#10) rfl (IF.opc_toWord _) (by decide)
theorem imulh (o : RR) : Statement (.imulh o) := of (opc := 0x005#10) rfl (CF.opc_toWord _) (by decide)
theorem imulhImm (o : RI) : Statement (.imulhImm o) := of (opc := 0x045#10) rfl (IF.opc_toWord _) (by decide)
theorem imulw (o : RR) : Statement (.imulw o) := of (opc := 0x006#10) rfl (CF.opc_toWord _) (by decide)
theorem imulwImm (o : RI) : Statement (.imulwImm o) := of (opc := 0x046#10) rfl (IF.opc_toWord _) (by decide)
theorem imad (o : RRR) : Statement (.imad o) := of (opc := 0x007#10) rfl (CF.opc_toWord _) (by decide)
theorem ineg (o : R1) : Statement (.ineg o) := of (opc := 0x008#10) rfl (CF.opc_toWord _) (by decide)
theorem iabs (o : R1) : Statement (.iabs o) := of (opc := 0x009#10) rfl (CF.opc_toWord _) (by decide)
theorem imin (o : RR) : Statement (.imin o) := of (opc := 0x00A#10) rfl (CF.opc_toWord _) (by decide)
theorem iminImm (o : RI) : Statement (.iminImm o) := of (opc := 0x04A#10) rfl (IF.opc_toWord _) (by decide)
theorem imax (o : RR) : Statement (.imax o) := of (opc := 0x00B#10) rfl (CF.opc_toWord _) (by decide)
theorem imaxImm (o : RI) : Statement (.imaxImm o) := of (opc := 0x04B#10) rfl (IF.opc_toWord _) (by decide)
theorem shl (o : RR) : Statement (.shl o) := of (opc := 0x00C#10) rfl (CF.opc_toWord _) (by decide)
theorem shlImm (o : RI) : Statement (.shlImm o) := of (opc := 0x04C#10) rfl (IF.opc_toWord _) (by decide)
theorem shr (o : RR) : Statement (.shr o) := of (opc := 0x00D#10) rfl (CF.opc_toWord _) (by decide)
theorem shrImm (o : RI) : Statement (.shrImm o) := of (opc := 0x04D#10) rfl (IF.opc_toWord _) (by decide)
theorem sar (o : RR) : Statement (.sar o) := of (opc := 0x00E#10) rfl (CF.opc_toWord _) (by decide)
theorem sarImm (o : RI) : Statement (.sarImm o) := of (opc := 0x04E#10) rfl (IF.opc_toWord _) (by decide)
theorem and_ (o : RR) : Statement (.and_ o) := of (opc := 0x00F#10) rfl (CF.opc_toWord _) (by decide)
theorem andImm (o : RI) : Statement (.andImm o) := of (opc := 0x04F#10) rfl (IF.opc_toWord _) (by decide)
theorem or_ (o : RR) : Statement (.or_ o) := of (opc := 0x010#10) rfl (CF.opc_toWord _) (by decide)
theorem orImm (o : RI) : Statement (.orImm o) := of (opc := 0x050#10) rfl (IF.opc_toWord _) (by decide)
theorem xor_ (o : RR) : Statement (.xor_ o) := of (opc := 0x011#10) rfl (CF.opc_toWord _) (by decide)
theorem xorImm (o : RI) : Statement (.xorImm o) := of (opc := 0x051#10) rfl (IF.opc_toWord _) (by decide)
theorem not_ (o : R1) : Statement (.not_ o) := of (opc := 0x012#10) rfl (CF.opc_toWord _) (by decide)
theorem andn (o : RR) : Statement (.andn o) := of (opc := 0x013#10) rfl (CF.opc_toWord _) (by decide)
theorem andnImm (o : RI) : Statement (.andnImm o) := of (opc := 0x053#10) rfl (IF.opc_toWord _) (by decide)
theorem clz (o : R1) : Statement (.clz o) := of (opc := 0x014#10) rfl (CF.opc_toWord _) (by decide)
theorem popc (o : R1) : Statement (.popc o) := of (opc := 0x015#10) rfl (CF.opc_toWord _) (by decide)
theorem brev (o : R1) : Statement (.brev o) := of (opc := 0x016#10) rfl (CF.opc_toWord _) (by decide)
theorem bfx (o : RR) : Statement (.bfx o) := of (opc := 0x017#10) rfl (CF.opc_toWord _) (by decide)
theorem bfi (o : RRR) : Statement (.bfi o) := of (opc := 0x018#10) rfl (CF.opc_toWord _) (by decide)
theorem sel (o : SelO) : Statement (.sel o) := of (opc := 0x019#10) rfl (CF.opc_toWord _) (by decide)
theorem icmp (o : CmpO) : Statement (.icmp o) := of (opc := 0x01A#10) rfl (CF.opc_toWord _) (by decide)
theorem icmpImm (o : CmpIO) : Statement (.icmpImm o) := by
  obtain ⟨g, p, a, w, s, imm, rel⟩ := o
  have h : ∀ r : Rel, (opcodeClasses (12#7 ++ r.enc).toNat).isSome = true := by intro r; cases r <;> decide
  exact of rfl (IF.opc_toWord _) (h rel)
theorem mov (o : R1) : Statement (.mov o) := of (opc := 0x01B#10) rfl (CF.opc_toWord _) (by decide)
theorem movi (o : MoviO) : Statement (.movi o) := of (opc := 0x01C#10) rfl (IF.opc_toWord _) (by decide)
theorem movh (o : MovhO) : Statement (.movh o) := of (opc := 0x01D#10) rfl (IF.opc_toWord _) (by decide)
theorem lea (o : LeaO) : Statement (.lea o) := of (opc := 0x01E#10) rfl (CF.opc_toWord _) (by decide)
theorem fadd (o : FRR) : Statement (.fadd o) := of (opc := 0x100#10) rfl (CF.opc_toWord _) (by decide)
theorem fsub (o : FRR) : Statement (.fsub o) := of (opc := 0x101#10) rfl (CF.opc_toWord _) (by decide)
theorem fmul (o : FRR) : Statement (.fmul o) := of (opc := 0x102#10) rfl (CF.opc_toWord _) (by decide)
theorem ffma (o : FRRR) : Statement (.ffma o) := of (opc := 0x103#10) rfl (CF.opc_toWord _) (by decide)
theorem fmin (o : FRR) : Statement (.fmin o) := of (opc := 0x104#10) rfl (CF.opc_toWord _) (by decide)
theorem fmax (o : FRR) : Statement (.fmax o) := of (opc := 0x105#10) rfl (CF.opc_toWord _) (by decide)
theorem fabs (o : FR1) : Statement (.fabs o) := of (opc := 0x106#10) rfl (CF.opc_toWord _) (by decide)
theorem fneg (o : FR1) : Statement (.fneg o) := of (opc := 0x107#10) rfl (CF.opc_toWord _) (by decide)
theorem fcmp (o : FCmpO) : Statement (.fcmp o) := of (opc := 0x108#10) rfl (CF.opc_toWord _) (by decide)
theorem fclass (o : FR1) : Statement (.fclass o) := of (opc := 0x109#10) rfl (CF.opc_toWord _) (by decide)
theorem frcp (o : FR1) : Statement (.frcp o) := of (opc := 0x10A#10) rfl (CF.opc_toWord _) (by decide)
theorem frsq (o : FR1) : Statement (.frsq o) := of (opc := 0x10B#10) rfl (CF.opc_toWord _) (by decide)
theorem fsqrt (o : FR1) : Statement (.fsqrt o) := of (opc := 0x10C#10) rfl (CF.opc_toWord _) (by decide)
theorem fex2 (o : FR1) : Statement (.fex2 o) := of (opc := 0x10D#10) rfl (CF.opc_toWord _) (by decide)
theorem flg2 (o : FR1) : Statement (.flg2 o) := of (opc := 0x10E#10) rfl (CF.opc_toWord _) (by decide)
theorem fsin (o : FR1) : Statement (.fsin o) := of (opc := 0x10F#10) rfl (CF.opc_toWord _) (by decide)
theorem fcos (o : FR1) : Statement (.fcos o) := of (opc := 0x110#10) rfl (CF.opc_toWord _) (by decide)
theorem frnd (o : FR1) : Statement (.frnd o) := of (opc := 0x111#10) rfl (CF.opc_toWord _) (by decide)
theorem fcvt (o : CvtO) : Statement (.fcvt o) := of (opc := 0x112#10) rfl (CF.opc_toWord _) (by decide)
theorem ftoi (o : CvtO) : Statement (.ftoi o) := of (opc := 0x113#10) rfl (CF.opc_toWord _) (by decide)
theorem itof (o : CvtO) : Statement (.itof o) := of (opc := 0x114#10) rfl (CF.opc_toWord _) (by decide)
theorem hadd2 (o : FRR) : Statement (.hadd2 o) := of (opc := 0x115#10) rfl (CF.opc_toWord _) (by decide)
theorem hmul2 (o : FRR) : Statement (.hmul2 o) := of (opc := 0x116#10) rfl (CF.opc_toWord _) (by decide)
theorem hfma2 (o : FRRR) : Statement (.hfma2 o) := of (opc := 0x117#10) rfl (CF.opc_toWord _) (by decide)
theorem dot4 (o : Dot4O) : Statement (.dot4 o) := of (opc := 0x118#10) rfl (CF.opc_toWord _) (by decide)
theorem dot2h (o : FRRR) : Statement (.dot2h o) := of (opc := 0x119#10) rfl (CF.opc_toWord _) (by decide)
theorem pand (o : PPP) : Statement (.pand o) := of (opc := 0x200#10) rfl (CF.opc_toWord _) (by decide)
theorem por (o : PPP) : Statement (.por o) := of (opc := 0x201#10) rfl (CF.opc_toWord _) (by decide)
theorem pxor (o : PPP) : Statement (.pxor o) := of (opc := 0x202#10) rfl (CF.opc_toWord _) (by decide)
theorem pnot (o : PP) : Statement (.pnot o) := of (opc := 0x203#10) rfl (CF.opc_toWord _) (by decide)
theorem pmov (o : PP) : Statement (.pmov o) := of (opc := 0x204#10) rfl (CF.opc_toWord _) (by decide)
theorem pany (o : VoteO) : Statement (.pany o) := of (opc := 0x205#10) rfl (CF.opc_toWord _) (by decide)
theorem pall (o : VoteO) : Statement (.pall o) := of (opc := 0x206#10) rfl (CF.opc_toWord _) (by decide)
theorem pcnt (o : PcntO) : Statement (.pcnt o) := of (opc := 0x207#10) rfl (CF.opc_toWord _) (by decide)
theorem idx (o : SelOut) : Statement (.idx o) := of (opc := 0x210#10) rfl (CF.opc_toWord _) (by decide)
theorem box (o : SelOut) : Statement (.box o) := of (opc := 0x211#10) rfl (CF.opc_toWord _) (by decide)
theorem form (o : FormO) : Statement (.form o) := of (opc := 0x212#10) rfl (CF.opc_toWord _) (by decide)
theorem expand (o : ExpandO) : Statement (.expand o) := of (opc := 0x213#10) rfl (CF.opc_toWord _) (by decide)
theorem split (o : SplitO) : Statement (.split o) := of (opc := 0x214#10) rfl (CF.opc_toWord _) (by decide)
theorem peel (o : PeelO) : Statement (.peel o) := of (opc := 0x215#10) rfl (CF.opc_toWord _) (by decide)
theorem fnew (o : FnewO) : Statement (.fnew o) := of (opc := 0x216#10) rfl (CF.opc_toWord _) (by decide)
theorem sjoin (o : SjoinO) : Statement (.sjoin o) := of (opc := 0x217#10) rfl (CF.opc_toWord _) (by decide)
theorem sleave (o : KeyO) : Statement (.sleave o) := of (opc := 0x218#10) rfl (CF.opc_toWord _) (by decide)
theorem sbar (o : KeyO) : Statement (.sbar o) := of (opc := 0x219#10) rfl (CF.opc_toWord _) (by decide)
theorem red (o : RedO) : Statement (.red o) := of (opc := 0x21A#10) rfl (CF.opc_toWord _) (by decide)
theorem rdsum (o : RdsumO) : Statement (.rdsum o) := of (opc := 0x21B#10) rfl (CF.opc_toWord _) (by decide)
theorem shfl (o : ShflO) : Statement (.shfl o) := of (opc := 0x21C#10) rfl (CF.opc_toWord _) (by decide)
theorem bra (o : BrO) : Statement (.bra o) := of (opc := 0x280#10) rfl (BF.opc_toWord _) (by decide)
theorem brc (o : BrcO) : Statement (.brc o) := of (opc := 0x281#10) rfl (BF.opc_toWord _) (by decide)
theorem call (o : BrO) : Statement (.call o) := of (opc := 0x282#10) rfl (BF.opc_toWord _) (by decide)
theorem calli (o : JmpO) : Statement (.calli o) := of (opc := 0x283#10) rfl (CF.opc_toWord _) (by decide)
theorem ret (o : G) : Statement (.ret o) := of (opc := 0x284#10) rfl (CF.opc_toWord _) (by decide)
theorem jmpi (o : JmpO) : Statement (.jmpi o) := of (opc := 0x285#10) rfl (CF.opc_toWord _) (by decide)
theorem exit_ (o : G) : Statement (.exit_ o) := of (opc := 0x286#10) rfl (CF.opc_toWord _) (by decide)
theorem trap_ (o : CodeO) : Statement (.trap_ o) := of (opc := 0x287#10) rfl (CF.opc_toWord _) (by decide)
theorem brk (o : CodeO) : Statement (.brk o) := of (opc := 0x288#10) rfl (CF.opc_toWord _) (by decide)
theorem yield (o : G) : Statement (.yield o) := of (opc := 0x289#10) rfl (CF.opc_toWord _) (by decide)
theorem ld (o : LdO) : Statement (.ld o) := of (opc := 0x300#10) rfl (MF.opc_toWord _) (by decide)
theorem st (o : StO) : Statement (.st o) := of (opc := 0x301#10) rfl (MF.opc_toWord _) (by decide)
theorem lds (o : LdO) : Statement (.lds o) := of (opc := 0x302#10) rfl (MF.opc_toWord _) (by decide)
theorem sts (o : StO) : Statement (.sts o) := of (opc := 0x303#10) rfl (MF.opc_toWord _) (by decide)
theorem ldc (o : LdcO) : Statement (.ldc o) := of (opc := 0x304#10) rfl (MF.opc_toWord _) (by decide)
theorem pref (o : PrefO) : Statement (.pref o) := of (opc := 0x30C#10) rfl (MF.opc_toWord _) (by decide)
theorem atom (o : AtomO) : Statement (.atom o) := of (opc := 0x305#10) rfl (CF.opc_toWord _) (by decide)
theorem atoms (o : AtomO) : Statement (.atoms o) := of (opc := 0x306#10) rfl (CF.opc_toWord _) (by decide)
theorem phase (o : G) : Statement (.phase o) := of (opc := 0x307#10) rfl (CF.opc_toWord _) (by decide)
theorem fence (o : FenceO) : Statement (.fence o) := of (opc := 0x308#10) rfl (CF.opc_toWord _) (by decide)
theorem pfence (o : PfenceO) : Statement (.pfence o) := of (opc := 0x309#10) rfl (CF.opc_toWord _) (by decide)
theorem promote (o : JmpO) : Statement (.promote o) := of (opc := 0x30A#10) rfl (CF.opc_toWord _) (by decide)
theorem promotionRequest (owner : Nat) (from_ : Nat) : Statement (.promotionRequest owner from_) := noWord rfl
theorem waita (o : WaitaO) : Statement (.waita o) := of (opc := 0x30B#10) rfl (CF.opc_toWord _) (by decide)
theorem waitaSatisfied (core : Nat) (entry : Nat) : Statement (.waitaSatisfied core entry) := noWord rfl
theorem loadDataArrival (core : Nat) (entry : Nat) : Statement (.loadDataArrival core entry) := noWord rfl
theorem copy (o : CopyO) : Statement (.copy o) := of (opc := 0x380#10) rfl (CF.opc_toWord _) (by decide)
theorem copyx (o : CopyFO) : Statement (.copyx o) := of (opc := 0x381#10) rfl (CF.opc_toWord _) (by decide)
theorem copyc (o : CopyFO) : Statement (.copyc o) := of (opc := 0x382#10) rfl (CF.opc_toWord _) (by decide)
theorem copyt (o : CopyO) : Statement (.copyt o) := of (opc := 0x383#10) rfl (CF.opc_toWord _) (by decide)
theorem copyRun (core : Nat) : Statement (.copyRun core) := noWord rfl
theorem tokenWaitEnd (core : Nat) (entry : Nat) : Statement (.tokenWaitEnd core entry) := noWord rfl
theorem fork (o : ForkO) : Statement (.fork o) := of (opc := 0x384#10) rfl (CF.opc_toWord _) (by decide)
theorem streamStart (core : Nat) : Statement (.streamStart core) := noWord rfl
theorem rdzv (o : G) : Statement (.rdzv o) := of (opc := 0x385#10) rfl (CF.opc_toWord _) (by decide)
theorem launch (o : LaunchO) : Statement (.launch o) := of (opc := 0x386#10) rfl (CF.opc_toWord _) (by decide)
theorem waitc (o : WaitcO) : Statement (.waitc o) := of (opc := 0x387#10) rfl (CF.opc_toWord _) (by decide)
theorem swapDelayExpiry (core : Nat) (entry : Nat) : Statement (.swapDelayExpiry core entry) := noWord rfl
theorem waitcResume (core : Nat) (entry : Nat) : Statement (.waitcResume core entry) := noWord rfl
theorem cancel (o : JmpO) : Statement (.cancel o) := of (opc := 0x388#10) rfl (CF.opc_toWord _) (by decide)
theorem cancelBroadcast (pos : Nat) (ctx : Nat) (job : Nat) (gen : Nat) : Statement (.cancelBroadcast pos ctx job gen) := noWord rfl
theorem tcfg (o : TcfgO) : Statement (.tcfg o) := of (opc := 0x3C0#10) rfl (TF.opc_toWord _) (by decide)
theorem tload (o : TmemO) : Statement (.tload o) := of (opc := 0x3C1#10) rfl (TF.opc_toWord _) (by decide)
theorem tstore (o : TmemO) : Statement (.tstore o) := of (opc := 0x3C2#10) rfl (TF.opc_toWord _) (by decide)
theorem tfill (o : TfillO) : Statement (.tfill o) := of (opc := 0x3C3#10) rfl (CF.opc_toWord _) (by decide)
theorem tdrain (o : TfillO) : Statement (.tdrain o) := of (opc := 0x3C4#10) rfl (CF.opc_toWord _) (by decide)
theorem tzero (o : TileO) : Statement (.tzero o) := of (opc := 0x3C5#10) rfl (TF.opc_toWord _) (by decide)
theorem ttrn (o : TtrnO) : Statement (.ttrn o) := of (opc := 0x3C6#10) rfl (TF.opc_toWord _) (by decide)
theorem tscale (o : TscaleO) : Statement (.tscale o) := of (opc := 0x3C7#10) rfl (TF.opc_toWord _) (by decide)
theorem tadd (o : TaddO) : Statement (.tadd o) := of (opc := 0x3C8#10) rfl (TF.opc_toWord _) (by decide)
theorem mma (o : MmaO) : Statement (.mma o) := of (opc := 0x3C9#10) rfl (TF.opc_toWord _) (by decide)
theorem tlatch (o : TileO) : Statement (.tlatch o) := of (opc := 0x3CA#10) rfl (TF.opc_toWord _) (by decide)
theorem tscl (o : TmemO) : Statement (.tscl o) := of (opc := 0x3CB#10) rfl (TF.opc_toWord _) (by decide)
theorem mstat (o : MstatO) : Statement (.mstat o) := of (opc := 0x3CC#10) rfl (CF.opc_toWord _) (by decide)
theorem operandsConsumed (core : Nat) (ctx : Nat) (tile : Nat) : Statement (.operandsConsumed core ctx tile) := noWord rfl
theorem rewriteWindow (core : Nat) : Statement (.rewriteWindow core) := noWord rfl
theorem csrr (o : CsrO) : Statement (.csrr o) := of (opc := 0x3F0#10) rfl (CF.opc_toWord _) (by decide)
theorem csrw (o : CsrO) : Statement (.csrw o) := of (opc := 0x3F1#10) rfl (CF.opc_toWord _) (by decide)
theorem csrs (o : CsrO) : Statement (.csrs o) := of (opc := 0x3F2#10) rfl (CF.opc_toWord _) (by decide)
theorem csrc (o : CsrO) : Statement (.csrc o) := of (opc := 0x3F3#10) rfl (CF.opc_toWord _) (by decide)
theorem csrWrite (cluster : Nat) (ctx : Nat) (csr : Nat) (value : Word) : Statement (.csrWrite cluster ctx csr value) := noWord rfl
theorem fsel (o : FselO) : Statement (.fsel o) := of (opc := 0x3F4#10) rfl (CF.opc_toWord _) (by decide)
theorem fget (o : FgetO) : Statement (.fget o) := of (opc := 0x3F5#10) rfl (CF.opc_toWord _) (by decide)
theorem fset (o : FsetO) : Statement (.fset o) := of (opc := 0x3F6#10) rfl (CF.opc_toWord _) (by decide)
theorem fresume (o : FresumeO) : Statement (.fresume o) := of (opc := 0x3F7#10) rfl (CF.opc_toWord _) (by decide)
theorem replay (o : ReplayO) : Statement (.replay o) := of (opc := 0x3F8#10) rfl (CF.opc_toWord _) (by decide)
theorem tlbi (o : TlbiO) : Statement (.tlbi o) := of (opc := 0x3F9#10) rfl (CF.opc_toWord _) (by decide)
theorem eret (o : G) : Statement (.eret o) := of (opc := 0x3FA#10) rfl (CF.opc_toWord _) (by decide)
theorem sleep (o : FgetO) : Statement (.sleep o) := of (opc := 0x3FB#10) rfl (CF.opc_toWord _) (by decide)
theorem sleepWake (cluster : Nat) : Statement (.sleepWake cluster) := noWord rfl
theorem rwload (o : RwloadO) : Statement (.rwload o) := of (opc := 0x3FC#10) rfl (CF.opc_toWord _) (by decide)
theorem clauseHeader (hdr : Word) : Statement (.clauseHeader hdr) := noWord rfl
theorem knitHoldExpiry (core : Nat) (entry : Nat) : Statement (.knitHoldExpiry core entry) := noWord rfl
theorem resourceRetry (core : Nat) : Statement (.resourceRetry core) := noWord rfl
theorem resourceSwapOut (core : Nat) : Statement (.resourceSwapOut core) := noWord rfl
theorem watchdog (core : Nat) (entry : Nat) : Statement (.watchdog core entry) := noWord rfl
theorem heldTrapPush (cluster : Nat) : Statement (.heldTrapPush cluster) := noWord rfl
theorem pageWalkComplete (ctx : Nat) (va : Nat) : Statement (.pageWalkComplete ctx va) := noWord rfl
theorem replayComplete (core : Nat) (rec : Nat) : Statement (.replayComplete core rec) := noWord rfl
theorem mcHandlerEntry (cluster : Nat) : Statement (.mcHandlerEntry cluster) := noWord rfl
theorem trapCause (cluster : Nat) (value : Word) : Statement (.trapCause cluster value) := noWord rfl
theorem trapWindowStore (cluster : Nat) (value : Byte) : Statement (.trapWindowStore cluster value) := noWord rfl
theorem mcEpc (cluster : Nat) (value : Word) : Statement (.mcEpc cluster value) := noWord rfl
theorem mcPtroot (cluster : Nat) (value : Word) : Statement (.mcPtroot cluster value) := noWord rfl
theorem dispatchAdmit (die : Nat) : Statement (.dispatchAdmit die) := noWord rfl
theorem dispatchPlace (die : Nat) : Statement (.dispatchPlace die) := noWord rfl
theorem tileStart (core : Nat) : Statement (.tileStart core) := noWord rfl
theorem launchFinish (launch : Nat) : Statement (.launchFinish launch) := noWord rfl
theorem ctxDoorbell (ctx : Nat) (value : Word) : Statement (.ctxDoorbell ctx value) := noWord rfl
theorem stealRequest (core : Nat) : Statement (.stealRequest core) := noWord rfl
theorem stealRetryTimer (core : Nat) : Statement (.stealRetryTimer core) := noWord rfl
theorem stealVictim (victim : Nat) (thief : Nat) : Statement (.stealVictim victim thief) := noWord rfl
theorem lentRecord (thief : Nat) (victim : Nat) (task : TaskMsg) : Statement (.lentRecord thief victim task) := noWord rfl
theorem stealAck (victim : Nat) (task : TaskMsg) : Statement (.stealAck victim task) := noWord rfl
theorem stealNone (thief : Nat) : Statement (.stealNone thief) := noWord rfl
theorem traverseToken (ctx : Nat) (job : Nat) : Statement (.traverseToken ctx job) := noWord rfl
theorem heldCompletionEntry (ctx : Nat) : Statement (.heldCompletionEntry ctx) := noWord rfl
theorem drainNotice (core : Nat) : Statement (.drainNotice core) := noWord rfl
theorem contextSwitch (core : Nat) (ctx : Nat) : Statement (.contextSwitch core ctx) := noWord rfl
theorem contextRestore (core : Nat) (ctx : Nat) : Statement (.contextRestore core ctx) := noWord rfl
theorem mbDb (cmd : BitVec 8) (req : Word) (value : Word) : Statement (.mbDb cmd req value) := noWord rfl
theorem ctxCreate (req : Nat) : Statement (.ctxCreate req) := noWord rfl
theorem ctxReset (req : Nat) : Statement (.ctxReset req) := noWord rfl
theorem ctxDestroy (req : Nat) : Statement (.ctxDestroy req) := noWord rfl
theorem objLoad (req : Nat) : Statement (.objLoad req) := noWord rfl
theorem measRead (req : Nat) : Statement (.measRead req) := noWord rfl
theorem mbClpm (req : Nat) : Statement (.mbClpm req) := noWord rfl
theorem haltInfo (req : Nat) : Statement (.haltInfo req) := noWord rfl
theorem mbUnknownCmd (cmd : Nat) : Statement (.mbUnknownCmd cmd) := noWord rfl
theorem getVersion : Statement (.getVersion) := noWord rfl
theorem getCapabilities : Statement (.getCapabilities) := noWord rfl
theorem negotiateAlgorithms : Statement (.negotiateAlgorithms) := noWord rfl
theorem getDigests : Statement (.getDigests) := noWord rfl
theorem getCertificate (slot : Nat) : Statement (.getCertificate slot) := noWord rfl
theorem getMeasurements (index : Nat) : Statement (.getMeasurements index) := noWord rfl
theorem moduleReset : Statement (.moduleReset) := noWord rfl
theorem clpmGo (cluster : Nat) (tgt : Nat) : Statement (.clpmGo cluster tgt) := noWord rfl
theorem clpmStepDone (cluster : Nat) : Statement (.clpmStepDone cluster) := noWord rfl
theorem flush (cluster : Nat) : Statement (.flush cluster) := noWord rfl
theorem flushDone (cluster : Nat) : Statement (.flushDone cluster) := noWord rfl
theorem estop (cluster : Nat) (on : Bool) : Statement (.estop cluster on) := noWord rfl
theorem dstop (cluster : Nat) (on : Bool) : Statement (.dstop cluster on) := noWord rfl
theorem save (cluster : Nat) : Statement (.save cluster) := noWord rfl
theorem saveDone (cluster : Nat) : Statement (.saveDone cluster) := noWord rfl
theorem restore (cluster : Nat) : Statement (.restore cluster) := noWord rfl
theorem restoreDone (cluster : Nat) : Statement (.restoreDone cluster) := noWord rfl
theorem clpmWake (cluster : Nat) : Statement (.clpmWake cluster) := noWord rfl
theorem clpmWakeMirror (cluster : Nat) : Statement (.clpmWakeMirror cluster) := noWord rfl
theorem alwaysOnAnswer (cluster : Nat) (msg : AlwaysOnMsg) : Statement (.alwaysOnAnswer cluster msg) := noWord rfl
theorem hostCxlMemAccess (acc : HostAcc) : Statement (.hostCxlMemAccess acc) := noWord rfl
theorem peerWrite (addr : Nat) (data : List Byte) : Statement (.peerWrite addr data) := noWord rfl
theorem peerLinkTrained (port : Nat) (wsize : Nat) : Statement (.peerLinkTrained port wsize) := noWord rfl
theorem farLinkDown (port : Nat) : Statement (.farLinkDown port) := noWord rfl
theorem farCompletionTimeout (core : Nat) (entry : Nat) : Statement (.farCompletionTimeout core entry) := noWord rfl
theorem farRetrainDone (port : Nat) : Statement (.farRetrainDone port) := noWord rfl
theorem linkCrcFail (pch : Nat) (failures : Nat) : Statement (.linkCrcFail pch failures) := noWord rfl
theorem hbmRetrainDone (pch : Nat) (ok : Bool) (burstOk : Bool) : Statement (.hbmRetrainDone pch ok burstOk) := noWord rfl
theorem scrubRead : Statement (.scrubRead) := noWord rfl
theorem remapTableError (pch : Nat) : Statement (.remapTableError pch) := noWord rfl
theorem tableReloadDone (pch : Nat) : Statement (.tableReloadDone pch) := noWord rfl
theorem scrubCtl (value : Word) : Statement (.scrubCtl value) := noWord rfl
theorem clr (pch : Nat) : Statement (.clr pch) := noWord rfl
theorem tileInstructionCompletion (core : Nat) (ctx : Nat) : Statement (.tileInstructionCompletion core ctx) := noWord rfl
theorem cancelAcknowledgement (core : Nat) (pos : Nat) (ctx : Nat) (job : Nat) (gen : Nat) : Statement (.cancelAcknowledgement core pos ctx job gen) := noWord rfl
theorem promotionReply (core : Nat) (entry : Nat) : Statement (.promotionReply core entry) := noWord rfl
theorem unstartedRecordReturn (die : Nat) (from_ : Nat) (tasks : List TaskMsg) : Statement (.unstartedRecordReturn die from_ tasks) := noWord rfl
theorem peerWriteUndeliverable (core : Nat) : Statement (.peerWriteUndeliverable core) := noWord rfl

end Sys2Proof.Laws.Opcode
end

