-- ==== Sys2Proof/Tests/Slice0.lean ====
section
/-!
SUPPORT. Tests. Words that the specification writes out, and words laid out from its encodings; an ill-formed instruction for each
check of well-formedness; values that it computes; and for the hypotheses of each statement a state and operands that meet them.
-/

open Sys2Proof Sys2Proof.Machine Sys2Proof.Spec

namespace Sys2Proof.Tests

set_option Elab.async false

abbrev al : Guard := ⟨false, 31#5⟩
abbrev gd (n : Nat) : Dst := ⟨false, BitVec.ofNat 6 n⟩
abbrev nwb : Dst := ⟨true, 0#6⟩
abbrev gr (n : Nat) : Src := .reg (BitVec.ofNat 6 n)

/-! ### Well-formedness: each check refuses -/

/-- 05 R124: predicate 24 does not exist, and a guard without predicate has no NEG. -/
theorem test_wf_guard : Guard.wf ⟨false, 24#5⟩ = false ∧ Guard.wf ⟨true, 31#5⟩ = false ∧ Guard.wf ⟨true, 23#5⟩ = true := by decide
/-- 05 R125: under NWB the number is zero. -/
theorem test_wf_dst : (Instr.iadd ⟨al, ⟨true, 1#6⟩, gr 4, gr 5, .i32⟩).wf = false := by decide
/-- 07 R168: predicates 0-23. -/
theorem test_wf_pred : (Instr.icmp ⟨al, 24#6, gr 4, gr 5, .i32, .lt⟩).wf = false ∧
    (Instr.pand ⟨al, 0#6, 24#6, 0#6, false, false⟩).wf = false ∧ (Instr.pany ⟨1#6, 31#6, false, gr 4⟩).wf = false ∧
    (Instr.sel ⟨al, gd 4, gr 5, gr 6, .i32, false, 24#5⟩).wf = false ∧ (Instr.sjoin ⟨24#6, gr 4⟩).wf = false := by decide
/-- 06 R145, R147: the types of IMULW and IABS. -/
theorem test_wf_types : (Instr.imulw ⟨al, gd 4, gr 6, gr 7, .i64⟩).wf = false ∧ (Instr.iabs ⟨al, gd 4, gr 6, .n32⟩).wf = false ∧
    (Instr.fex2 ⟨al, gd 4, gr 6, .f64, .rne⟩).wf = false ∧ (Instr.frcp ⟨al, gd 4, gr 6, .f16, .rne⟩).wf = false ∧
    (Instr.hadd2 ⟨al, gd 4, gr 5, gr 6, .f32, .rne⟩).wf = false := by decide
/-- 06 R157: FMIN takes no rounding. -/
theorem test_wf_rounding : (Instr.fmin ⟨al, gd 4, gr 5, gr 6, .f32, .rtz⟩).wf = false := by decide
/-- 06 R162: the pairs and options of FCVT. -/
theorem test_wf_fcvt : (Instr.fcvt ⟨al, gd 4, gr 5, .f32, .f32, .rne, false, 0#3⟩).wf = false ∧
    (Instr.fcvt ⟨al, gd 4, gr 5, .q4, .f16, .rne, false, 2#3⟩).wf = false ∧
    (Instr.fcvt ⟨al, gd 4, gr 5, .f32, .f16, .rne, true, 0#3⟩).wf = false ∧
    (Instr.ftoi ⟨al, gd 4, gr 5, .f32, .f32, .rne, false, 0#3⟩).wf = false ∧
    (Instr.dot4 ⟨al, gd 4, gr 5, gr 6, gr 7, .i8, .e4m3, .rne⟩).wf = false := by decide
/-- 08 R213, R214: sizes, hints and orders of loads and stores. -/
theorem test_wf_access : (Instr.ld ⟨al, gd 4, gr 6, 0, 9#4, 0, 0, 0⟩).wf = false ∧ (Instr.ld ⟨al, gd 4, gr 6, 0, 6#4, 2#2, 0, 0⟩).wf = false ∧
    (Instr.st ⟨al, gr 4, gr 6, 0, 6#4, 1#2, 0, 0⟩).wf = false ∧ (Instr.st ⟨al, .latch 1#3, gr 6, 0, 8#4, 0, 0, 0⟩).wf = false ∧
    (Instr.pref ⟨al, gr 4, 0, 3#2⟩).wf = false := by decide
/-- 08 R217, R220, R221, R223. -/
theorem test_wf_sync : (Instr.atom ⟨al, gd 4, gr 6, gr 8, gr 9, .n32, 0#3, 0, 0, false⟩).wf = false ∧
    (Instr.atom ⟨al, gd 4, gr 6, gr 8, gr 9, .n32, 7#3, 0, 0, true⟩).wf = false ∧ (Instr.fence ⟨al, 0#2, 0#2⟩).wf = false ∧
    (Instr.fence ⟨al, 1#2, 3#2⟩).wf = false ∧ (Instr.pfence ⟨al, 0#4, 1#4⟩).wf = false ∧
    (Instr.waita ⟨al, gr 4, gr 6, false, 3#2, false, 0#2⟩).wf = false := by decide
/-- 08 R228, R230, R231, R235, R237. -/
theorem test_wf_engine : (Instr.copy ⟨al, 0, 0, 3#2, 0, false, 0⟩).wf = false ∧ (Instr.copy ⟨al, 0, 0, 0, 0, false, 3#2⟩).wf = false ∧
    (Instr.copyt ⟨al, 0, 0, 0, 1#2, false, 0⟩).wf = false ∧ (Instr.copyx ⟨⟨al, 0, 0, 0, 0, false, 0⟩, .f32⟩).wf = false ∧
    (Instr.fork ⟨al, gr 4, 8#6, 5#3⟩).wf = false ∧ (Instr.fork ⟨al, gr 4, 8#6, 0#3⟩).wf = false ∧
    (Instr.launch ⟨al, false, 1#6, gr 4⟩).wf = false := by decide
/-- 05 R132, 09 R251, R255, R254: the matrix instructions. -/
theorem test_wf_tile : (Instr.tload ⟨al, 0, 3#5, false, 0⟩).wf = false ∧ (Instr.tfill ⟨al, 8#6, gr 4, 0, 5#3⟩).wf = false ∧
    (Instr.mma ⟨al, 0, 0, 0, 0, 0, 1#15⟩).wf = false ∧ (Instr.tscl ⟨al, 0, 2#5, false, 1#2⟩).wf = false := by decide
/-- 07 R197, R208, 09 R275. -/
theorem test_wf_system : (Instr.csrr ⟨al, gd 4, gr 5, 0#12, false⟩).wf = false ∧ (Instr.tlbi ⟨al, 1#2, gr 4, gr 6⟩).wf = false ∧
    (Instr.tlbi ⟨al, 3#2, gr 0, gr 0⟩).wf = false ∧ (Instr.rwload ⟨al, gd 4, gr 6, true⟩).wf = false := by decide

/-! ### Decoding: words of the specification -/

/-- 09, the end of the chapter; 13, the streams of the recombined product. -/
theorem test_decode_matrix :
    decode 0xF05F000000015000#64 = .ok (.tload ⟨al, 0, 2, true, 1⟩) ∧
    decode 0xF19F020000000000#64 = .ok (.ttrn ⟨al, 1, 0, 0⟩) ∧
    decode 0xF1DF02000000011A#64 = .ok (.tscale ⟨al, 1, 0, 2, 13⟩) ∧
    decode 0xF25F02042033081A#64 = .ok (.mma ⟨al, 1, 1, 4, 3, 6, 0x081A⟩) ∧
    decode 0xF09F000400012000#64 = .ok (.tstore ⟨al, 1, 2, false, 2⟩) := by decide
/-- 05, a clause encoded. -/
theorem test_decode_clause :
    decode 0xC01F080A00010650#64 = .ok (.ld ⟨al, gd 8, gr 10, 16, 6, 1, 1, 0⟩) ∧
    decode 0x109F804400000001#64 = .ok (.iaddImm ⟨al, nwb, gr 4, false, true, 1⟩) ∧
    decode 0x131F068100000002#64 = .ok (.shlImm ⟨al, gd 6, .latch 1, false, false, 2⟩) ∧
    decode 0x10A2044400000001#64 = .ok (.iaddImm ⟨⟨true, 2⟩, gd 4, gr 4, false, true, 1⟩) := by decide
/-- 07, peeling an indirect call; 14 and 15, calls and lazy binding. -/
theorem test_decode_calls :
    decode 0x855F080800007000#64 = .ok (.peel ⟨al, 8, 8, .n64⟩) ∧ decode 0xA0C8000800000000#64 = .ok (.calli ⟨⟨false, 8⟩, gr 8⟩) ∧
    decode 0xA028FFFFFFFD0000#64 = .ok (.bra ⟨⟨true, 8⟩, BitVec.ofInt 32 (-3)⟩) ∧ decode 0xA11F000000000000#64 = .ok (.ret ⟨al⟩) ∧
    decode 0xA19F000000000000#64 = .ok (.exit_ ⟨al⟩) ∧ decode 0xA1C100000000002F#64 = .ok (.trap_ ⟨⟨false, 1⟩, 0x2F⟩) ∧
    decode 0xC15F8034383A73E8#64 = .ok (.atom ⟨al, nwb, gr 52, gr 56, gr 58, .n64, 7, 3, 1, false⟩) ∧
    decode 0xC15F0408060763E8#64 = .ok (.atom ⟨al, gd 4, gr 8, gr 6, gr 7, .n32, 7, 3, 1, false⟩) := by decide
/-- 20, power-gating a cluster. -/
theorem test_decode_system :
    decode 0xFC5F800B00006300#64 = .ok (.csrw ⟨al, nwb, gr 11, 0x300, false⟩) ∧
    decode 0xFC1F060000006301#64 = .ok (.csrr ⟨al, gd 6, gr 0, 0x301, false⟩) := by decide
/-- Words laid out from the encodings: format C (05 R128) for FADD (06 R156), PAND (07 R171), EXPAND (07 R176) and COPY (08 R228),
format B (05 R131) for BRC (07 R187). -/
theorem test_decode_laid_out :
    decode (0x100#10 ++ 31#6 ++ 4#8 ++ 5#8 ++ 6#8 ++ 0#8 ++ 10#4 ++ 1#2 ++ 0#10) = .ok (.fadd ⟨al, gd 4, gr 5, gr 6, .f32, .rtz⟩) ∧
    decode (0x200#10 ++ 31#6 ++ 1#8 ++ 2#8 ++ 3#8 ++ 0#8 ++ 0#4 ++ 0#2 ++ 2#10) = .ok (.pand ⟨al, 1, 2, 3, false, true⟩) ∧
    decode (0x380#10 ++ 31#6 ++ 0#8 ++ 16#8 ++ 0#8 ++ 0#8 ++ 0#4 ++ 0#2 ++ 0x2A#10) = .ok (.copy ⟨al, 16, 2, 1, 1, false, 0⟩) ∧
    decode (0x281#10 ++ 31#6 ++ 5#32 ++ 4#8 ++ 2#3 ++ 1#1 ++ 0#4) = .ok (.brc ⟨al, gr 4, .lt, true, 5⟩) := by decide
/-- 05 R123, R130, R132: the fields of two words by their places; 02, a range fibre's andn; 20, a firmware's sleep. -/
theorem test_decode_fields :
    decode 0xC01F373000058600#64 = .ok (.ld ⟨al, gd 55, gr 48, 88, 6, 0, 0, 0⟩) ∧
    decode 0xF25F040008250810#64 = .ok (.mma ⟨al, 2, 0, 1, 2, 10, 2064⟩) ∧
    decode 0x14DF0B0B00000030#64 = .ok (.andnImm ⟨al, gd 11, gr 11, false, false, 48⟩) ∧
    decode 0xFEDF0E0D00000000#64 = .ok (.sleep ⟨al, gd 14, gr 13⟩) := by decide
/-- 05 R138, R137: opcode 0 is ILLEGAL whatever the rest; an opcode outside the map; a field value outside its list. -/
theorem test_decode_refuses :
    decode 0x003FFFFFFFFFFFFF#64 = .ok .illegal ∧ decode 0x07C0000000000000#64 = .error .illegalOpcode ∧
    decode (0x002#10 ++ 31#6 ++ 4#8 ++ 5#8 ++ 6#8 ++ 1#8 ++ 2#4 ++ 0#2 ++ 0#10) = .error .reservedField := by decide

/-! ### Values of the specification -/

/-- 12 R293: the CRC of the ASCII bytes 123456789. -/
theorem test_crc32 : crc32 [0x31#8, 0x32#8, 0x33#8, 0x34#8, 0x35#8, 0x36#8, 0x37#8, 0x38#8, 0x39#8] = 0xCBF43926#32 := by decide +kernel
/-- 21 R385, R396: the pseudo-channel of the example. -/
theorem test_pch : pchOf 0x123456780 = 1132 := by decide +kernel
/-- 07 R204: a fibre's handle holds its context, core and entry. -/
theorem test_handle : handleOf false 3 9 2 = 0x00309002#32 := by decide +kernel

/-! ### States for the witnesses -/

/-- The machine after boot, nothing pending. -/
def s0 : State := { State.reset with agenda := [], host := { HostSt.reset with booted := true, bootstat := 0 } }

/-- A clause of class `cls` of three words at address 0, its first word next. -/
def cl3 (cls : Nat) : Clause := ⟨0, hdrOf cls + 0x0200000000000000#64, [0, 0, 0], 0, true⟩

/-- A fibre of a box of one index, in such a clause. -/
def fib : Thread := { Thread.blank .fibre with uid := 1, tokId := 1, pc := 8, clause := some (cl3 0) }
def box4 : Box := ⟨0, 4, 0, 1, 0, 1⟩
/-- A range fibre of four indices along x. -/
def fib4 : Thread := { fib with box := box4, box0 := box4 }
/-- The same with lanes; g4 differs by lane, k1 is true in lanes 0 and 2. -/
def lanes4 : Thread :=
  { fib4 with expanded := true, exBox := box4, active := [0, 1, 2, 3], blocks := [0]
              regs := [(4, .e [(0, 7), (1, 8), (2, 9), (3, 10)] []), (6, .u 5 false)], preds := [(1, .m [0, 2])] }

/-- Core 0 with one fibre, which has the turn. -/
def onF (t : Thread) : State :=
  { s0.setCore 0 { Core.reset with fibres := [(0, t)], inClause := some 0 } with turn := .fibre 0 0 }
theorem onF_noUpsets (t : Thread) : (onF t).applyUpsets = onF t := rfl
def strm : Stream :=
  { th := { Thread.blank .stream with uid := 1, pc := 8, clause := some (cl3 1) }
    inst := 0, handle := 0, tile := 0, plan := [], snap := none, plainTo := none, mma := none, fault := none }
def onS (x : Stream) : State := { s0.setCore 0 { Core.reset with stream := some x } with turn := .stream 0 }
def mc1 : Mc := { Mc.reset with on := true, th := { Thread.blank .mc with pc := 8, clause := some (cl3 2) } }
def onM (m : Mc) : State := { s0.setMc 0 m with turn := .mc 0 }

/-- A table tree at 0x1_0000: page 0 is read, write and execute at 0x4_0000, page 1 read and write at 0x5_0000, page 2 read only. -/
def tables : Bytes :=
  [(0x10000, 0x20001), (0x20000, 0x30001), (0x30000, 0x4001F), (0x30008, 0x5000F), (0x30010, 0x60007)].foldl
    (fun m (aw : Nat × Nat) => Bytes.write m aw.1 (leBytes 8 aw.2)) []
def ctx0 : Ctx :=
  { priv := false, gen := 0, root := 0x10000, qdesc := 0x70000, save := 0x80000, pool := 65536, poolUsed := 0, rwF := false
    rwR := false, rwEn := false, wdog := 0, knit := 64, swapDelay := 0, arenaBase := 0, arenaSize := 0, arenaUsed := 0, majors := []
    rules := [], meas := List.replicate 64 0, objs := [], syms := [], tail := 0, bells := [], jobs := [], held := [], saved := []
    flushed := [], hostHb := [], loadHb := [] }
/-- A state with context 0 and its tables, and further bytes in memory. -/
def withVm (s : State) (cells : List (Nat × Nat)) : State :=
  { s with ctxs := [(0, ctx0)]
           mem := { s.mem with cells := cells.foldl (fun m (aw : Nat × Nat) => Bytes.write m aw.1 (leBytes 8 aw.2)) tables } }
/-- 2^k as a register pair's value. -/
def pairAt (n : Nat) (v : Word) : Tab Reg := [(n, .u v false), (n + 1, .p)]

/-- The instruction answers a next state of which `p` is true. -/
def gives (i : Instr) (s : State) (p : State → Bool) : Bool :=
  match Machine.exec i s with
  | .next u => p u
  | _ => false

/-! ### The step -/

/-- DecodeOfEncode: a well-formed instruction with a word. -/
theorem witness_DecodeOfEncode : let i := Instr.fadd ⟨al, gd 4, gr 5, gr 6, .f32, .rtz⟩
    i.wf = true ∧ (encode i).isSome = true := by decide
theorem witness_EncodeOfDecode : decode 0xC01F080A00010650#64 = .ok (.ld ⟨al, gd 8, gr 10, 16, 6, 1, 1, 0⟩) := by decide
/-- StepKeepsMemory: reset has canonical memory, and the boot step answers a next state. -/
theorem witness_StepKeepsMemory : State.reset.Canonical ∧ FibresInForm State.reset ∧ ∃ t, Machine.step State.reset = .next t := by
  exact ⟨rfl, by simp [FibresInForm, State.reset], _, rfl⟩
/-- Cuts in normal form: of the box [0, 4) at 2, and an expanded fibre. -/
theorem witness_NormalCuts :
    NormalCuts { fib4 with preds := [(1, .c .x 2 false)] } ∧ NormalCuts lanes4 ∧ ¬ NormalCuts { fib4 with preds := [(1, .c .x 4 false)] } := by
  unfold NormalCuts; decide +kernel
/-- StepExecutesWord, a fibre: NOP at its clause. -/
theorem witness_StepExecutesWord_fibre :
    let t := { fib with clause := some { cl3 0 with words := [0x005F000000000000#64] } }
    let s := onF t
    s.issued.cur? = some t ∧ t.runs = true ∧ s.turn = .fibre 0 0 ∧
      checkWord false 0 t.window [0x005F000000000000#64] 0 0x005F000000000000#64 = .ok (.nop ⟨al⟩) := by decide +kernel
theorem witness_StepExecutesWord_stream :
    let x := { strm with th := { strm.th with clause := some { cl3 1 with words := [0x005F000000000000#64] } } }
    let s := onS x
    s.issued.cur? = some x.th ∧ x.th.runs = true ∧ s.turn = .stream 0 ∧ isTileInstr (.nop ⟨al⟩) = false ∧
      checkWord false 1 x.th.window [0x005F000000000000#64] 0 0x005F000000000000#64 = .ok (.nop ⟨al⟩) := by decide +kernel
theorem witness_StepExecutesWord_mc :
    let m := { mc1 with th := { mc1.th with clause := some { cl3 2 with words := [0x005F000000000000#64] } } }
    let s := onM m
    s.issued.cur? = some m.th ∧ m.th.runs = true ∧ (s.mc 0).active = true ∧ s.handlerDue 0 = false ∧
      checkWord true 2 m.th.window [0x005F000000000000#64] 0 0x005F000000000000#64 = .ok (.nop ⟨al⟩) := by decide +kernel
/-- A word that fails a check: an opcode outside the map, on each kind of agent. -/
theorem witness_StepExecutesWord_fails :
    let w : Word := 0x07C0000000000000
    let t := { fib with clause := some { cl3 0 with words := [w] } }
    let x := { strm with th := { strm.th with clause := some { cl3 1 with words := [w] } } }
    let m := { mc1 with th := { mc1.th with clause := some { cl3 2 with words := [w] } } }
    checkWord false 0 t.window [w] 0 w = .error cIllegalOpcode ∧ (onF t).issued.cur? = some t ∧ t.runs = true ∧
      checkWord false 1 x.th.window [w] 0 w = .error cIllegalOpcode ∧ (onS x).issued.cur? = some x.th ∧
      checkWord true 2 m.th.window [w] 0 w = .error cIllegalOpcode ∧ (onM m).issued.cur? = some m.th ∧ (onM m).handlerDue 0 = false := by
  decide +kernel
/-- A stream's tile instruction: TZERO goes to the rewrite stage. -/
theorem witness_StepExecutesWord_tile :
    let w : Word := 0xF15F040000000000
    let x := { strm with th := { strm.th with clause := some { cl3 1 with words := [w] } } }
    (onS x).issued.cur? = some x.th ∧ checkWord false 1 x.th.window [w] 0 w = .ok (.tzero ⟨al, 2⟩) ∧
      isTileInstr (.tzero ⟨al, 2⟩) = true ∧ x.plain = false ∧ { x with plan := [(8, .pass)] }.plain = true := by decide +kernel
/-- WordChecks: a word for each check of R137, and one that passes all of them. -/
theorem witness_WordChecks :
    let ck (cls : Nat) (ws : List Word) (w : Word) := checkWord false cls 64 ws 0 w
    let add (d a b : Nat) : Word := 0x002#10 ++ 31#6 ++ BitVec.ofNat 8 d ++ BitVec.ofNat 8 a ++ BitVec.ofNat 8 b ++ 0#8 ++ 2#4 ++ 0#2 ++ 0#10
    let add64 (d a : Nat) : Word := 0x002#10 ++ 31#6 ++ BitVec.ofNat 8 d ++ BitVec.ofNat 8 a ++ 8#8 ++ 0#8 ++ 3#4 ++ 0#2 ++ 0#10
    ck 0 [] 0x07C0000000000000 = .error cIllegalOpcode ∧ ck 0 [] 0xFC1F060000006301 = .error cPrivilege ∧
      ck 0 [] 0xF15F040000000000 = .error cIllegalClass ∧ ck 0 [] (add 4 5 6 + 0x10000) = .error cReservedField ∧
      checkWord false 0 8 [] 0 (add 9 5 6) = .error cReservedField ∧ ck 2 [] 0xFC1F060000000301 = .error cReservedField ∧
      decode (add 4 0x80 6) = .ok (.iadd ⟨al, gd 4, .latch 0, gr 6, .i32⟩) ∧ ck 0 [] (add 4 0x80 6) = .error cStaleLatch ∧ ck 0 [] (add 4 5 6) = .ok (.iadd ⟨al, gd 4, gr 5, gr 6, .i32⟩)
      ∧ ck 0 [] ((encode (.imulw ⟨al, gd 4, gr 4, gr 7, .i32⟩)).getD 0) = .error cOperandOverlap ∧ ck 0 [] (add64 4 6) = .ok (.iadd ⟨al, gd 4, gr 6, gr 8, .i64⟩) := by decide +kernel
/-- A computed form of Resolves and of CodeAt: no entry of a translation cache names the page. -/
def resolves1 (s : State) (sp : VSpace) (va : Nat) (p : Perm) (pa : Nat) (leaf : Word) : Bool :=
  s.xlat sp va p = .ok pa 2 leaf && (s.tlbHits sp va).isEmpty && (s.ptrHits sp va).isEmpty &&
  match s.rootOf sp with
  | some root => (match sp with
    | .mc k => !(s.mc k).en
    | _ => false) || s.xlatWalk va p (s.walk va 3 root 0) = .ok pa 2 leaf
  | none => true
theorem resolves_of {s : State} {sp : VSpace} {va : Nat} {p : Perm} {pa : Nat} {leaf : Word} (h : resolves1 s sp va p pa leaf = true) :
    Resolves s sp va p pa := by
  simp only [resolves1, Bool.and_eq_true, decide_eq_true_eq, List.isEmpty_iff] at h
  obtain ⟨⟨⟨hx, ht⟩, hp⟩, hr⟩ := h
  refine ⟨2, leaf, hx, fun he root hroot => ⟨?_, by simp [ht], by simp [hp]⟩⟩
  rw [hroot] at hr
  cases sp <;> simp_all
def codeAt1 (s : State) (sp : VSpace) (va n pa : Nat) (leaf : Word) : Bool :=
  va % 8 = 0 && decide (va + n + 64 ≤ windowBase) && decide (va % 2 ^ 16 + n ≤ 2 ^ 16) &&
  (List.range n).all (fun k => resolves1 s sp (va + k) .x (pa + k) leaf) && s.flowing && s.mem.flaws.isEmpty && !inFar pa &&
  !s.badRead none pa n && s.log.isEmpty
theorem codeAt_of {s : State} {sp : VSpace} {va n pa : Nat} {leaf : Word} (h : codeAt1 s sp va n pa leaf = true) : CodeAt s sp va n pa := by
  simp only [codeAt1, Bool.and_eq_true, decide_eq_true_eq, List.isEmpty_iff, List.all_eq_true, List.mem_range,
    Bool.not_eq_true'] at h
  obtain ⟨⟨⟨⟨⟨⟨⟨⟨h1, h2⟩, h3⟩, h4⟩, h5⟩, h6⟩, h7⟩, h8⟩, h9⟩ := h
  exact ⟨h1, by simp [windowBase] at h2; omega, h3, fun _ _ => .inl (by omega), fun k hk => resolves_of (h4 k hk), ⟨h5, h6⟩, h7, h8, by simp [h9]⟩
/-- StepFetchesClause: the clause of one NOP at address 0 of the context, in memory at 0x4_0000. -/
theorem witness_StepFetchesClause_fibre :
    let t := { fib with clause := none, pc := 0 }
    let s := withVm (onF t) [(0x40008, 0x005F000000000000)]
    s.issued.cur? = some t ∧ t.runs = true ∧ s.isCancelled 0 t = false ∧ s.overBudget t = false ∧
      CodeAt s (s.curSpace t) 0 16 0x40000 :=
  ⟨by decide +kernel, by decide +kernel, by decide +kernel, by decide +kernel, codeAt_of (leaf := 0x4001F) (by decide +kernel)⟩
theorem witness_StepFetchesClause_mc :
    let m := { mc1 with th := { mc1.th with clause := none, pc := 0 } }
    let s := onM m
    s.issued.cur? = some m.th ∧ m.th.runs = true ∧ (s.mc 0).active = true ∧ s.handlerDue 0 = false ∧
      CodeAt s (s.curSpace m.th) 0 16 0 :=
  ⟨by decide +kernel, by decide +kernel, by decide +kernel, by decide +kernel, codeAt_of (leaf := 0x3F) (by decide +kernel)⟩
theorem witness_StepFetchesClause_stream :
    let x := { strm with th := { strm.th with clause := none, pc := 0 } }
    let s := withVm (onS x) []
    s.issued.cur? = some x.th ∧ x.th.runs = true ∧ s.isCancelled 0 x.th = false ∧ s.overBudget x.th = false ∧
      CodeAt s (s.curSpace x.th) 0 16 0x40000 :=
  ⟨by decide +kernel, by decide +kernel, by decide +kernel, by decide +kernel, codeAt_of (leaf := 0x4001F) (by decide +kernel)⟩

/-! ### Results -/

/-- ScalarResults: IADD on a fibre, FADD on a management core, MOVI on a stream. -/
theorem witness_ScalarResults_fibre :
    let i := Instr.iadd ⟨al, gd 4, gr 6, gr 7, .i32⟩
    let t := { fib with regs := [(6, .u 0x7FFFFFFF false), (7, .u 1 false)] }
    ∃ sh, intShape i = some sh ∧ Acts (onF t) t sh.g ∧ sh.plain (onF t) t = true ∧ takesU t sh.d sh.w = true :=
  ⟨_, rfl, ⟨rfl, rfl⟩, by decide +kernel, by decide +kernel⟩
theorem witness_ScalarResults_mc :
    let i := Instr.fadd ⟨al, gd 4, gr 6, gr 7, .f32, .rtz⟩
    let t := mc1.th
    ∃ sh, fltShape i = some sh ∧ Acts (onM mc1) t sh.g ∧ sh.plain (onM mc1) t = true ∧ takesU t sh.d sh.w = true :=
  ⟨_, rfl, ⟨rfl, rfl⟩, by decide +kernel, by decide +kernel⟩
theorem witness_ScalarResults_stream :
    let i := Instr.movi ⟨al, gd 4, false, true, 0xFFFFFFFF⟩
    let t := strm.th
    ∃ sh, intShape i = some sh ∧ Acts (onS strm) t sh.g ∧ sh.plain (onS strm) t = true ∧ takesU t sh.d sh.w = true :=
  ⟨_, rfl, ⟨rfl, rfl⟩, by decide +kernel, by decide +kernel⟩
/-- A wrap (06 R144), and a sign extension into an m register (05 R127). -/
theorem test_scalar_results :
    gives (.iadd ⟨al, gd 4, gr 6, gr 7, .i32⟩) (onF { fib with regs := [(6, .u 0x7FFFFFFF false), (7, .u 1 false)] })
      (fun u => (u.fibre? 0 0).map (fun v => (v.reg 4, v.pc)) = some (.u 0x80000000 false, 16)) = true ∧
    gives (.movi ⟨al, gd 4, false, true, 0xFFFFFFFF⟩) (onS strm)
      (fun u => ((u.core 0).stream.map fun x => x.th.reg 4) = some (.u 0xFFFFFFFFFFFFFFFF false)) = true := by decide +kernel
theorem onLanes4 : OnLanes (onF lanes4) 0 0 lanes4 := ⟨rfl, rfl, rfl, rfl, by decide⟩
/-- LaneResults: IADD under no guard and under a guard of form M. -/
theorem witness_LaneResults :
    let i := Instr.iadd ⟨⟨false, 1⟩, gd 8, gr 4, gr 6, .i32⟩
    ∃ sh, intShape i = some sh ∧ OnLanes (onF lanes4) 0 0 lanes4 ∧ GuardedLanes lanes4 sh.g [0, 2] ∧
      GuardedLanes lanes4 al [0, 1, 2, 3] ∧ (sh.opds (onF lanes4) lanes4).all Opd.clean = true :=
  ⟨_, rfl, onLanes4, .inr ⟨[0, 2], rfl, by decide⟩, .inl ⟨rfl, rfl⟩, by decide +kernel⟩
theorem test_lane_results : gives (.iadd ⟨⟨false, 1⟩, gd 8, gr 4, gr 6, .i32⟩) (onF lanes4)
    (fun u => (u.fibre? 0 0).map (fun v => [0, 1, 2, 3].map fun p => (v.read32 8).val p) = some [12, 0, 14, 0]) = true := by
  decide +kernel
/-- SelectResults: uniform with a negated T, and lane by lane with an M. -/
theorem witness_SelectResults :
    let t := { fib with preds := [(1, .t)] }
    Acts (onF t) t al ∧ t.pred 1 = boolPred true ∧ takesU t (gd 4) (.w32 true) = true ∧
      OnLanes (onF lanes4) 0 0 lanes4 ∧ GuardedLanes lanes4 al [0, 1, 2, 3] ∧
      (lanes4.src 0 (gr 4) false).clean = true ∧ (lanes4.src 0 (gr 6) false).clean = true :=
  ⟨⟨rfl, rfl⟩, rfl, by decide +kernel, onLanes4, .inl ⟨rfl, rfl⟩, by decide +kernel, by decide +kernel⟩
theorem onRange4 : OnRange (onF fib4) 0 0 fib4 := ⟨rfl, rfl, rfl, rfl, by decide⟩
/-- RangeFibreResults: IADD of ix and a uniform value; IMUL of ix by a uniform factor; FADD of ix. -/
theorem witness_AffineResults :
    let i := Instr.iadd ⟨al, gd 4, .ix, gr 6, .i32⟩
    ∃ (o : RR) (sh : Shape), affRR i = some o ∧ intShape i = some sh ∧ OnRange (onF fib4) 0 0 fib4 ∧ fib4.guard o.g = .t ∧
      o.d.nwb = false ∧ (sh.opds (onF fib4) fib4).all Opd.clean = true ∧ takesU fib4 o.d (RW.ofTy o.ty) = true ∧
      affStrides i ((sh.opds (onF fib4) fib4).getD 0 (Opd.ofU 0)) ((sh.opds (onF fib4) fib4).getD 1 (Opd.ofU 0)) = some (1, 0, 0) :=
  ⟨_, _, rfl, rfl, onRange4, rfl, rfl, by decide +kernel, by decide +kernel, by decide +kernel⟩
theorem witness_AffineResults_64 :
    let i := Instr.shl ⟨al, gd 4, .ix, gr 6, .n64⟩
    let t := { fib4 with regs := [(6, .u 4 false)] }
    ∃ (o : RR) (sh : Shape), affRR i = some o ∧ intShape i = some sh ∧ OnRange (onF t) 0 0 t ∧ takesU t o.d (RW.ofTy o.ty) = true ∧
      affStrides i ((sh.opds (onF t) t).getD 0 (Opd.ofU 0)) ((sh.opds (onF t) t).getD 1 (Opd.ofU 0)) = some (16, 0, 0) ∧
      ((sh.opds (onF t) t).getD 1 (Opd.ofU 0)).isU = true ∧ strideOk true 16 = true :=
  ⟨_, _, rfl, rfl, ⟨rfl, rfl, rfl, rfl, by decide⟩, by decide +kernel, by decide +kernel, by decide +kernel, by decide +kernel⟩
theorem witness_ResultsExpandRangeFibre :
    let i := Instr.fadd ⟨al, gd 4, .ix, gr 6, .f32, .rne⟩
    ∃ sh, fltShape i = some sh ∧ OnRange (onF fib4) 0 0 fib4 ∧ fib4.box.count ≤ (onF fib4).emax fib4 ∧
      ((onF fib4).core 0).fits (0, 0, 0, 0) = true ∧ fib4.setBox fib4.box = fib4 ∧ fib4.guard sh.g = .t ∧
      (sh.opds (onF fib4) fib4).all Opd.clean = true ∧ (∃ x ∈ sh.opds (onF fib4) fib4, x.isU = false) :=
  ⟨_, rfl, onRange4, by decide +kernel, by decide +kernel, rfl, rfl, by decide +kernel,
    fib4.src 0 .ix false, List.mem_cons_self .., by decide +kernel⟩
/-- OperatorValues: an encoding that is no NaN. -/
theorem witness_FloatOperatorValues :
    0x3C01 < 2 * signBit .f16 ∧ topOf .f16 < 0x7C00 ∧ (0x38 : Nat) ≤ topOf .e4m3 ∧ num .f16 0x7E01 = .nan ∧ num .f32 0xFF800000 = .inf true ∧
      num .f32 0x3FC00000 = .fin false 12582912 (-23) ∧ Fmt.isInt .n8 = true ∧ topOf .f32 + 1 < 0xFFC00000 % signBit .f32 := by decide +kernel
/-- By hand: 3/256 and 2^-9 in e4m3; 1.5 + 2^-23 of f32 as a class; FTOI of 2.5 and of 300 to n8; sqrt 2. -/
theorem test_operator_values :
    [fcvt .e4m3 .f32 .rne false 0x3C400000, fcvt .e4m3 .f32 .rne false 0x3B000000, fcvt .e5m2 .f32 .rne true 0x7F000000] = [0x06, 1, 0x7C] ∧
    [fclass (fpOf .f32) 0x3FC00001, fclass (fpOf .f32) 0x80000001, fclass (fpOf .f32) 0x7F800001] = [64, 4, 256] ∧
    [ftoi (fpOf .f32) .n8 .rne 0x40200000, ftoi (fpOf .f32) .n8 .rup 0x40200000, ftoi (fpOf .f32) .n8 .rne 0x43960000] = [2, 3, 255] ∧
    [(fpOf .f32).sqrt .rne 0x40000000, (fpOf .f32).minMax false 0x7FC00000 0x3F800000] = [0x3FB504F3, 0x3F800000] := by decide +kernel
theorem witness_OperatorValues : 0x3C01 < 2 ^ (fpOf .f16).width ∧ (fpOf .f16).dec 0x3C01 ≠ .nan := by decide +kernel

/-! ### Predicates -/

theorem witness_PredicateResults_uniform :
    let i := Instr.pand ⟨al, 3, 1, 2, false, true⟩
    let t := { fib with preds := [(1, .t)] }
    ∃ sh, predShape i = some sh ∧ Acts (onF t) t sh.g ∧ (sh.opds (onF t) t).all (fun x => x.isU && x.clean) = true ∧
      (sh.pins.map fun x => t.pred x.1.toNat) = [true, false].map boolPred ∧ [true, false].length = sh.pins.length :=
  ⟨_, rfl, ⟨rfl, rfl⟩, rfl, rfl, rfl⟩
theorem witness_PredicateResults_lanes :
    let i := Instr.icmp ⟨al, 3, gr 4, gr 6, .i32, .lt⟩
    ∃ sh, predShape i = some sh ∧ OnLanes (onF lanes4) 0 0 lanes4 ∧ coordsOk lanes4 ∧ GuardedLanes lanes4 sh.g [0, 1, 2, 3] ∧
      (sh.opds (onF lanes4) lanes4).all Opd.clean = true :=
  ⟨_, rfl, onLanes4, by unfold coordsOk; decide, .inl ⟨rfl, rfl⟩, by decide +kernel⟩
/-- CutResults: ix < 2 gives a cut at the index where it turns. -/
theorem witness_CompareGivesCut :
    OnRange (onF fib4) 0 0 fib4 ∧ coordsOk fib4 ∧ EndsInRange fib4 .x false true 0 1 ∧
      AlongAxis (fib4.src 0 .ix false) .x 0 1 ∧ (fib4.src 0 .ix false).clean = true ∧ (fib4.src 0 (gr 6) false).isU = true :=
  ⟨onRange4, by unfold coordsOk; decide, by unfold EndsInRange; decide +kernel, ⟨by decide, by decide +kernel⟩, by decide +kernel,
    by decide +kernel⟩
theorem test_compare_cut : gives (.icmpImm ⟨al, 1, .ix, false, true, 2, .lt⟩) (onF fib4)
    (fun u => (u.fibre? 0 0).map (fun v => v.pred 1) = some (.c .x 2 false)) = true := by decide +kernel
theorem witness_CutLogic :
    let i := Instr.pand ⟨al, 3, 1, 2, false, true⟩
    let t := { fib4 with preds := [(1, .c .x 3 false), (2, .c .x 1 false)] }
    ∃ sh, predShape i = some sh ∧ sh.ins = [] ∧ OnRange (onF t) 0 0 t ∧ t.guard sh.g = .t ∧
      (∀ x ∈ sh.pins, (t.pred x.1.toNat).isM = false) :=
  ⟨_, rfl, rfl, ⟨rfl, rfl, rfl, rfl, by decide⟩, rfl, by decide +kernel⟩

/-- x < 1 or 3 ≤ x: no cut is right, and the fibre takes lanes. -/
def outT2 : Thread := { fib4 with preds := [(1, .c .x 1 false), (2, .c .x 3 true)] }
theorem witness_CutLogicLanes :
    let i := Instr.por ⟨al, 3, 1, 2, false, false⟩
    ∃ sh, predShape i = some sh ∧ sh.ins = [] ∧ OnRange (onF outT2) 0 0 outT2 ∧ outT2.guard sh.g = .t ∧
      (∀ x ∈ sh.pins, (outT2.pred x.1.toNat).isM = false) ∧ outT2.box.count ≤ (onF outT2).emax outT2 ∧ outT2.setBox outT2.box = outT2 :=
  ⟨_, rfl, rfl, ⟨rfl, rfl, rfl, rfl, by decide⟩, rfl, by decide +kernel, by decide +kernel, rfl⟩
theorem test_cut_logic :
    gives (.por ⟨al, 3, 1, 2, false, false⟩) (onF outT2) (fun u => (u.fibre? 0 0).map (fun v => (v.active, v.pred 3, v.pc)) =
      some ([0, 1, 2, 3], .m [0, 3], 16)) = true ∧
    gives (.pand ⟨al, 3, 1, 2, true, true⟩) (onF outT2) (fun u => (u.fibre? 0 0).map (fun v => (v.expanded, v.active)) = some (true, [0, 1, 2, 3])) = true ∧
    gives (.pand ⟨al, 3, 1, 2, false, false⟩) (onF outT2) (fun u => (u.fibre? 0 0).map (fun v => (v.expanded, v.pred 3)) = some (false, .f)) = true := by
  decide +kernel

/-- What the instruction leaves in g4 of a fibre with g6 = `a` and g7 = `b`. -/
def g4of (a b : Word) (i : Instr) : Option Reg :=
  match Machine.exec i (onF { fib with regs := [(6, .u a false), (7, .u b false)] }) with
  | .next u => (u.fibre? 0 0).map (fun v => v.reg 4)
  | _ => none
/-- Integer results by hand (06 R144-R149) on 0x80000001 and 3. -/
theorem test_integer_values :
    let r (i : RR → Instr) (ty : ITy) := g4of 0x80000001 3 (i ⟨al, gd 4, gr 6, gr 7, ty⟩)
    let k (i : RI → Instr) := g4of 0x80000001 0 (i ⟨al, gd 4, gr 6, false, true, 3⟩)
    let o (i : R1 → Instr) (a : Word) := g4of a 0 (i ⟨al, gd 4, gr 6, .i32⟩)
    [r .isub .i32, r .imul .i32, r .imulh .i32, r .imulh .n32] =
      [some (.u 0x7FFFFFFE false), some (.u 0x80000003 false), some (.u 0xFFFFFFFE false), some (.u 1 false)] ∧
    [r .imin .i32, r .imin .n32, r .imax .i32, r .shr .n32, r .sar .n32] =
      [some (.u 0x80000001 false), some (.u 3 false), some (.u 3 false), some (.u 0x10000000 false), some (.u 0xF0000000 false)] ∧
    [r .and_ .n32, r .or_ .n32, r .xor_ .n32, r .andn .n32] =
      [some (.u 1 false), some (.u 0x80000003 false), some (.u 0x80000002 false), some (.u 0x80000000 false)] ∧
    [k .isubImm, k .imulImm, k .imulhImm, k .iminImm, k .imaxImm] = [r .isub .i32, r .imul .i32, r .imulh .i32, r .imin .i32, r .imax .i32] ∧
    [k .shrImm, k .sarImm, k .andImm, k .orImm, k .xorImm, k .andnImm] =
      [r .shr .i32, r .sar .i32, r .and_ .i32, r .or_ .i32, r .xor_ .i32, r .andn .i32] ∧
    [o .ineg 0x80000000, o .iabs 0x80000000, o .not_ 5, o .clz 0x00010000, o .popc 0xF0F, o .brev 3] =
      [some (.u 0x80000000 false), some (.u 0x80000000 false), some (.u 0xFFFFFFFA false), some (.u 15 false), some (.u 8 false),
        some (.u 0xC0000000 false)] ∧
    g4of 7 9 (.imad ⟨al, gd 4, gr 6, gr 7, gr 7, .i32⟩) = some (.u 72 false) ∧
    g4of 0xFFFFFFFF 2 (.imulw ⟨al, gd 4, gr 6, gr 7, .i32⟩) = some (.u 0xFFFFFFFFFFFFFFFE false) := by decide +kernel
/-- Floating-point results by hand (04 R96-R99, 06 R156-R165) on 1.5 and 0.25. -/
theorem test_float_values :
    let r (i : FRR → Instr) (ty : FTy) (a b : Word) := g4of a b (i ⟨al, gd 4, gr 6, gr 7, ty, .rne⟩)
    let o (i : FR1 → Instr) (a : Word) := g4of a 0 (i ⟨al, gd 4, gr 6, .f32, .rne⟩)
    [r .fsub .f32 0x3FC00000 0x3E800000, r .fmul .f32 0x3FC00000 0x3E800000] = [some (.u 0x3FA00000 false), some (.u 0x3EC00000 false)] ∧
    [r .fadd .f32 0x7F7FFFFF 0x7F7FFFFF, r .fmin .f32 0x80000000 0, r .fmax .f32 0x80000000 0] =
      [some (.u 0x7F800000 false), some (.u 0x80000000 false), some (.u 0 false)] ∧
    [o .fabs 0xBFC00000, o .fneg 0x3FC00000, o .fsqrt 0x40100000, o .frnd 0x40200000] =
      [some (.u 0x3FC00000 false), some (.u 0xBFC00000 false), some (.u 0x3FC00000 false), some (.u 0x40000000 false)] ∧
    g4of 0x3FC00000 0x3E800000 (.ffma ⟨al, gd 4, gr 6, gr 6, gr 7, .f32, .rne⟩) = some (.u 0x40200000 false) ∧
    [r .hadd2 .f16 0x3C003E00 0x3C003400, r .hmul2 .f16 0x3C003E00 0x40003400] =
      [some (.u 0x40003F00 false), some (.u 0x40003600 false)] := by decide +kernel

/-! ### Reading and reshaping the fibre -/

def lrec : LaunchRec :=
  { tset := false, nosteal := false, job := 5, obj := 1, entoff := 0, gx := 8, gy := 2, gz := 1, tx := 4, ty := 2, tz := 1, px := 0
    py := 0, pz := 0, window := 64, priority := 0, emax := 32, scratch := 4096, localB := 0, counter := 0, args := 0, localbase := 0
    csbase := 0, csslots := 1, carry := 0, variants := [⟨0, 64, 64, 4, true⟩] }
def launch0 : Launch :=
  { lr := lrec, ctx := 0, gen := 0, die := 0, host := true, bank := [(4, 0x2A)], bankPois := [], made := 2, ended := 0
    finished := false, cancelled := false, hb := [], stores := [] }
/-- The launch of the fibres above, and a started tile on core 0. -/
def tile0 : TileInst :=
  { launch := 0, ctx := 0, tile := 0, box := ⟨0, 4, 0, 2, 0, 1⟩, scratch := some 0, tset := none, fork := none, joinHb := []
    reserve := 0, reserveUsed := false }
def withLaunch (s : State) : State :=
  { s.setCore 0 { s.core 0 with insts := [(0, tile0)], scratch := [(0, ⟨0, 4096, [(8, 0x55)], []⟩)] } with launches := [(0, launch0)] }

/-- GeometryResults. -/
theorem witness_IdxResults :
    let s := withLaunch (onF fib4)
    Acts s fib4 al ∧ s.launch? fib4.launch = some launch0 ∧ takesU fib4 (gd 4) (.w32 false) = true ∧ fib4.kind = .fibre ∧
      fib4.places ≠ [] ∧ launch0.lr.gx * launch0.lr.gy < 2 ^ 31 ∧
      (∀ p ∈ fib4.places, (fib4.idxAt p).x < 8 ∧ (fib4.idxAt p).y < 2 ∧ (fib4.idxAt p).z < 1) :=
  ⟨⟨rfl, rfl⟩, rfl, by decide +kernel, rfl, by decide +kernel, by decide +kernel, by decide +kernel⟩
theorem test_idx :
    gives (.idx ⟨al, gd 4, 0⟩) (withLaunch (onF { fib4 with box := ⟨2, 4, 1, 2, 0, 1⟩ }))
      (fun u => (u.fibre? 0 0).map (fun v => [0, 1].map fun p => (v.read64 4).val p) = some [10, 11]) = true ∧
    gives (.idx ⟨al, gd 4, 7⟩) (withLaunch (onF fib4)) (fun u => (u.fibre? 0 0).map (fun v => v.reg 4) = some (.u 0xFFFFFFFF false)) = true
    := by decide +kernel
theorem witness_BoxAndForm : Acts (onF fib4) fib4 al ∧ takesU fib4 (gd 4) .w64 = true ∧ takesU fib4 (gd 4) (.w32 false) = true :=
  ⟨⟨rfl, rfl⟩, by decide +kernel, by decide +kernel⟩
theorem test_box_form :
    gives (.box ⟨al, gd 4, 6⟩) (onF fib4) (fun u => (u.fibre? 0 0).map (fun v => v.reg 4) = some (.u 4 false)) = true ∧
    gives (.form ⟨al, gd 8, .predForm, 1⟩) (onF { fib4 with preds := [(1, .c .y 3 true)] })
      (fun u => (u.fibre? 0 0).map (fun v => v.reg 8) = some (.u 0x52 false)) = true := by decide +kernel
/-- ExpandAndPeel. -/
theorem witness_Expand :
    OnRange (onF fib4) 0 0 fib4 ∧ fib4.guard al = .t ∧ fib4.box.count ≤ (onF fib4).emax fib4 ∧
      ((onF fib4).core 0).fits (0, 0, 0, 0) = true ∧ fib4.setBox fib4.box = fib4 ∧
      (onF lanes4).roomy = true ∧ ((onF lanes4).setCur lanes4.advance).roomy = true ∧
      (onM mc1).cur? = some mc1.th ∧ mc1.th.kind ≠ .fibre :=
  ⟨onRange4, rfl, by decide +kernel, by decide +kernel, rfl, by decide +kernel, by decide +kernel, rfl, by decide⟩
theorem test_expand : gives (.expand ⟨al, some 4⟩) (onF { fib4 with regs := [(4, .a 10 2 0 0), (5, .u 0 false)] })
    (fun u => (u.fibre? 0 0).map (fun v => (v.expanded, v.active, v.reg 4)) =
      some (true, [0, 1, 2, 3], .e [(0, 10), (1, 12), (2, 14), (3, 16)] [])) = true := by decide +kernel
def peel4 : Thread := { lanes4 with regs := [(4, .e [(0, 7), (1, 8), (2, 7), (3, 8)] [])] }
theorem witness_Peel :
    OnLanes (onF peel4) 0 0 peel4 ∧ peel4.guard al = .t ∧ HasEntry (onF peel4) 0 ∧ (peel4.src 0 (gr 4) false).clean = true ∧
      (peel4.src 0 (gr 4) false).isU = false ∧ peel4.low = 0 ∧
      (peel4.active.filter fun l => (peel4.src 0 (gr 4) false).val l = (peel4.src 0 (gr 4) false).val 0) = [0, 2] ∧
      (fib.src 0 (gr 4) false).isU = true :=
  ⟨⟨rfl, rfl, rfl, rfl, by decide⟩, rfl, by unfold HasEntry; decide +kernel, by decide +kernel, by decide +kernel, by decide +kernel,
    by decide +kernel, by decide +kernel⟩
theorem test_peel : gives (.peel ⟨al, 2, 4, .n32⟩) (onF peel4) (fun u =>
    (u.fibre? 0 0).map (fun v => (v.active, v.pred 2, v.reg 4)) = some ([0, 2], .t, .u 7 false) &&
    (u.fibre? 0 1).map (fun v => (v.active, v.pred 2, v.pc)) = some ([1, 3], .f, 16) && u.roomy) = true := by decide +kernel
/-- SplitEffects: on a cut, on lanes, and on T. -/
theorem witness_Split :
    let t := { fib4 with preds := [(1, .c .x 1 true)] }
    OnRange (onF t) 0 0 t ∧ HasEntry (onF t) 0 ∧ t.simplify (t.psrc 1 false) = .c .x 1 true ∧
      OnLanes (onF lanes4) 0 0 lanes4 ∧ lanes4.simplify (lanes4.psrc 1 false) = .m [0, 2] ∧ fib4.simplify (fib4.psrc 1 true) = .t :=
  ⟨⟨rfl, rfl, rfl, rfl, by decide⟩, by unfold HasEntry; decide +kernel, by decide +kernel, onLanes4, by decide +kernel, by decide +kernel⟩
theorem test_split :
    gives (.split ⟨1, false⟩) (onF { fib4 with preds := [(1, .c .x 1 true)] }) (fun u =>
      (u.fibre? 0 0).map (fun v => (v.box, v.pc)) = some (⟨0, 1, 0, 1, 0, 1⟩, 16) &&
      (u.fibre? 0 1).map (fun v => (v.box, v.pc, v.uid)) = some (⟨1, 4, 0, 1, 0, 1⟩, 16, 1) &&
      (u.core 0).follow = [1]) = true ∧
    gives (.split ⟨1, true⟩) (onF lanes4) (fun u => (u.fibre? 0 0).map Thread.active = some [0, 2] &&
      (u.fibre? 0 1).map Thread.active = some [1, 3] && u.roomy) = true := by decide +kernel
/-- FnewCreatesFibre: a box that clips to two indices, and one that clips to none. -/
def fnewT (x1 : Word) : Thread :=
  { fib with regs := [(8, .u 6 false), (9, .u x1 false), (10, .u 0 false), (11, .u 1 false), (12, .u 0 false), (13, .u 1 false)]
                ++ pairAt 14 99 ++ pairAt 16 0x100 }
theorem witness_Fnew :
    let s := withLaunch (onF (fnewT 20))
    OnRange s 0 0 (fnewT 20) ∧ (fnewT 20).box.count = 1 ∧ (fnewT 20).guard al = .t ∧ (fnewT 20).why = .none ∧
      fnewBads ⟨al, gr 16, 8, 3⟩ 0 (fnewT 20) [0] = [] ∧ (s.core 0).roomFor 32 = true ∧
      ((Box.mk 6 20 0 1 0 1).inter (s.grid (fnewT 20))).empty = false ∧ ((Box.mk 6 6 0 1 0 1).inter (s.grid (fnewT 6))).empty = true :=
  ⟨⟨rfl, rfl, rfl, rfl, by decide⟩, by decide, rfl, rfl, by decide +kernel, by decide +kernel, by decide +kernel, by decide +kernel⟩
theorem test_fnew :
    gives (.fnew ⟨al, gr 16, 8, 3⟩) (withLaunch (onF (fnewT 20))) (fun u =>
      (u.fibre? 0 1).map (fun f => (f.box, f.pc, f.window, f.reg 0, f.st)) = some (⟨6, 8, 0, 1, 0, 1⟩, 0x100, 32, .u 99 false, .ready) &&
      u.fibre? 0 0 = some (fnewT 20).advance) = true ∧
    gives (.fnew ⟨al, gr 16, 8, 3⟩) (withLaunch (onF (fnewT 6))) (fun u => u.fibre? 0 1 = none && u.fibre? 0 0 = some (fnewT 6).advance)
      = true := by decide +kernel
/-- ReductionRegisters: RED of affine values; RDSUM that waits and one that reads. -/
def withSreg (s : State) (v : Word) (q : BitVec 32) : State :=
  s.setCore 0 { s.core 0 with cctx := [(0, { CoreCtx.reset with sregs := [(3, ⟨v, q, []⟩)] })] }
theorem witness_Red :
    OnFibre (onF fib4) 0 0 fib4 ∧ fib4.guard al = .t ∧ fib4.why = .none ∧ (fib4.src 0 .ix false).clean = true :=
  ⟨⟨rfl, rfl, rfl⟩, rfl, rfl, by decide +kernel⟩
theorem test_red : gives (.red ⟨al, .ix, .i32, 3, false⟩) (withSreg (onF fib4) 0xFFFFFFFF 4)
    (fun u => sregOf u 0 0 3 = ⟨5, 5, []⟩ && u.fibre? 0 0 = some fib4.progressed.advance) = true := by decide +kernel
theorem witness_Rdsum :
    let t := { fib4 with regs := [(6, .u 5 false)] }
    let s := withSreg (onF t) 70 5
    let w := withSreg (onF t) 70 4
    OnRange s 0 0 t ∧ OnRange w 0 0 t ∧ (t.src 0 (gr 6) false).clean = true ∧ takesU t (gd 8) (.w32 false) = true ∧
      s.roomy = true ∧ rising (s.core 0).fibres = true ∧
      2 ^ 31 ≤ ((sregOf w 0 0 3).seq - ((t.src 0 (gr 6) false).val 0).setWidth 32).toNat ∧
      ((sregOf s 0 0 3).seq - ((t.src 0 (gr 6) false).val 0).setWidth 32).toNat < 2 ^ 31 :=
  ⟨⟨rfl, rfl, rfl, rfl, by decide⟩, ⟨rfl, rfl, rfl, rfl, by decide⟩, by decide +kernel, by decide +kernel, by decide +kernel,
    by decide +kernel, by decide +kernel, by decide +kernel⟩
theorem test_rdsum :
    let t := { fib4 with regs := [(6, .u 5 false)] }
    gives (.rdsum ⟨al, gd 8, gr 6, .n32, 3⟩) (withSreg (onF t) 70 5) (fun u => (u.fibre? 0 0).map (fun v => (v.reg 8, v.pc)) = some (.u 70 false, 16))
      = true ∧
    gives (.rdsum ⟨al, gd 8, gr 6, .n32, 3⟩) (withSreg (onF t) 70 4) (fun u => (u.fibre? 0 0).map (fun v => (v.st, v.pc)) = some (.wait, 8))
      = true := by decide +kernel
/-- ShuffleResults. -/
theorem witness_Shfl :
    OnMc (onM mc1) 0 mc1.th ∧ (mc1.th.src 0 (gr 4) false).isU = true ∧ OnLanes (onF lanes4) 0 0 lanes4 ∧
      GuardedLanes lanes4 al [0, 1, 2, 3] ∧ (lanes4.src 0 (gr 4) false).clean = true :=
  ⟨⟨rfl, rfl, rfl, rfl, rfl⟩, by decide +kernel, onLanes4, .inl ⟨rfl, rfl⟩, by decide +kernel⟩
theorem test_shfl : gives (.shfl ⟨al, gd 8, gr 4, .imm 1, 2⟩) (onF lanes4)
    (fun u => (u.fibre? 0 0).map (fun v => [0, 1, 2, 3].map fun p => (v.read32 8).val p) = some [8, 9, 10, 10]) = true := by
  decide +kernel

/-! ### Sets and votes -/

def key (k : Word) : Thread := { fib with regs := [(4, .u k false)], preds := [(1, .t)] }
/-- A member of set 7 of context 0. -/
def member : Thread := { key 7 with sets := [7] }
def withSet (s : State) (k : Nat) (st : SetSt) : State := s.setCore 0 { s.core 0 with sets := [(k, st)] }
theorem witness_Votes :
    OnFibre (onF (key 7)) 0 0 (key 7) ∧ ((key 7).src 0 (gr 4) false).form = .u 7 ∧ ((key 7).src 0 (gr 4) false).clean = true ∧
      (∀ k, setId (key 7) ((7 : Word).toNat % 2 ^ 16) = some k → k ∉ (key 7).sets) ∧
      OnMc (onM mc1) 0 mc1.th ∧ (mc1.th.src 0 (gr 4) false).form = .u 0 :=
  ⟨⟨rfl, rfl, rfl⟩, by decide +kernel, by decide +kernel, fun k _ h => absurd (show k ∈ ([] : List Nat) from h) List.not_mem_nil, ⟨rfl, rfl, rfl, rfl, rfl⟩, by decide +kernel⟩
theorem test_votes :
    gives (.pall ⟨2, 1, false, gr 4⟩) (onF (key 7)) (fun u => (u.fibre? 0 0).map (fun v => v.pred 2) = some .t) = true ∧
    gives (.pany ⟨2, 1, false, gr 4⟩) (onF (key 7)) (fun u => (u.fibre? 0 0).map (fun v => v.pred 2) = some .f) = true ∧
    gives (.pcnt ⟨gd 8, 1, true, gr 4⟩) (onM mc1) (fun u => (u.mc 0).th.reg 8 = .u 1 false) = true := by decide +kernel
/-- BarrierArrival: alone in the set, and with another member that has not arrived. -/
def pairOfMembers : State :=
  let s := withSet (onF member) 7 ⟨0, 0, 0⟩
  s.setCore 0 { s.core 0 with fibres := [(0, member), (1, { member with uid := 2 })] }
theorem witness_Barrier :
    let s := withSet (onF member) 7 ⟨0, 0, 0⟩
    OnFibre s 0 0 member ∧ (member.src 0 (gr 4) false).form = .u 7 ∧ setId member ((7 : Word).toNat % 2 ^ 16) = some 7 ∧
      Tab.find? (s.core 0).sets 7 = some ⟨0, 0, 0⟩ ∧ 0 < member.count ∧ (s.core 0).fibres = [(0, member)] ∧
      Tab.find? (s.core 0).swaps 0 = none ∧ OnFibre pairOfMembers 0 0 member ∧ rising (pairOfMembers.core 0).fibres = true ∧
      0 + member.count < (pairOfMembers.core 0).members 7 :=
  ⟨⟨rfl, rfl, rfl⟩, by decide +kernel, by decide +kernel, rfl, by decide, rfl, rfl, ⟨rfl, rfl, rfl⟩, by decide +kernel, by decide +kernel⟩
theorem test_barrier :
    gives (.sbar ⟨gr 4⟩) (withSet (onF member) 7 ⟨0, 0, 0⟩) (fun u =>
      (u.fibre? 0 0).map (fun v => (v.st, v.pc, v.regs)) = some (.ready, 16, member.regs) &&
      Tab.find? (u.core 0).sets 7 = some ⟨0, 0, 0⟩) = true ∧
    gives (.sbar ⟨gr 4⟩) pairOfMembers (fun u =>
      u.fibre? 0 0 = some { member.progressed with st := .wait, why := .sbar 7, since := 0 } &&
      Tab.find? (u.core 0).sets 7 = some ⟨0, 1, 0⟩ && u.fibre? 0 1 = pairOfMembers.fibre? 0 1) = true := by decide +kernel
/-- The last of two members arrives: both go on, and the counts return to zero. -/
def waitingS (w : Why) (st : SetSt) : State :=
  let s := withSet (onF member) 7 st
  s.setCore 0 { s.core 0 with fibres := [(0, member), (1, { member with uid := 2, st := .wait, why := w }), (2, { fib with uid := 3 })] }
theorem witness_LastArrives :
    let s := waitingS (.sbar 7) ⟨0, 1, 0⟩
    OnFibre s 0 0 member ∧ Tab.find? (s.core 0).sets 7 = some ⟨0, 1, 0⟩ ∧ rising (s.core 0).fibres = true ∧
      1 + member.count = (s.core 0).members 7 ∧ 0 < member.count ∧ (∀ j, Tab.find? (s.core 0).swaps j = none) ∧
      (∃ v, s.fibre? 0 1 = some v ∧ 7 ∈ v.sets ∧ v.atBarrier 7 = true) :=
  ⟨⟨rfl, rfl, rfl⟩, rfl, by decide +kernel, by decide +kernel, by decide, fun _ => rfl, _, rfl, by decide, by decide⟩
theorem test_last_arrives :
    gives (.sbar ⟨gr 4⟩) (waitingS (.sbar 7) ⟨0, 1, 0⟩) (fun u =>
      [0, 1].all (fun j => (u.fibre? 0 j).map (fun v => v.st = .ready && v.why = .none && v.pc = 16 && v.regs = member.regs && v.preds = member.preds) == some true) &&
      Tab.find? (u.core 0).sets 7 = some ⟨0, 0, 0⟩ && u.fibre? 0 2 = some { fib with uid := 3 }) = true ∧
    gives (.pall ⟨2, 1, false, gr 4⟩) (waitingS (.vote 7 (.pall ⟨3, 1, false, gr 4⟩)) ⟨0, 1, 1⟩) (fun u =>
      (u.fibre? 0 1).map (fun v => (v.st, v.pc, v.pred 3)) = some (.ready, 16, .t) && Tab.find? (u.core 0).sets 7 = some ⟨0, 0, 0⟩) = true := by decide +kernel
theorem test_vote_in_set :
    let s := withSet (onF member) 7 ⟨0, 0, 0⟩
    let ok (i : Instr) (p : Thread → Bool) : Bool := gives i s fun u => ((u.fibre? 0 0).map fun v => v.st = .ready && v.pc = 16 && p v) = some true &&
      Tab.find? (u.core 0).sets 7 = some ⟨0, 0, 0⟩
    ok (.pany ⟨2, 1, false, gr 4⟩) (fun v => v.pred 2 = .t) = true ∧ ok (.pall ⟨2, 1, true, gr 4⟩) (fun v => v.pred 2 = .f) = true ∧
      ok (.pcnt ⟨gd 8, 1, false, gr 4⟩) (fun v => v.reg 8 = .u 1 false && v.reg 9 = .p) = true := by decide +kernel
/-- SetMembership: joining an absent set, a present one, one of 256, one it is in; leaving. -/
def full : State :=
  let s := onF (key 7)
  s.setCore 0 { s.core 0 with sets := (List.range 256).map fun k => (1000 + k, ⟨0, 0, 0⟩) }
theorem witness_Sjoin :
    OnFibre (onF (key 7)) 0 0 (key 7) ∧ setId (key 7) ((7 : Word).toNat % 2 ^ 16) = some 7 ∧ 7 ∉ (key 7).sets ∧
      Tab.find? ((onF (key 7)).core 0).sets 7 = none ∧ ((onF (key 7)).core 0).sets.length < 256 ∧
      OnFibre full 0 0 (key 7) ∧ Tab.find? (full.core 0).sets 7 = none ∧ 256 ≤ (full.core 0).sets.length ∧
      Tab.find? ((withSet (onF (key 7)) 7 ⟨0, 0, 0⟩).core 0).sets 7 = some ⟨0, 0, 0⟩ ∧ 7 ∈ member.sets :=
  ⟨⟨rfl, rfl, rfl⟩, by decide +kernel, by decide, rfl, by decide +kernel, ⟨rfl, rfl, rfl⟩, by decide +kernel, by decide +kernel, rfl, by decide⟩
theorem test_sjoin :
    gives (.sjoin ⟨2, gr 4⟩) (onF (key 7)) (fun u => (u.fibre? 0 0).map (fun v => (v.sets, v.pred 2)) = some ([7], .t) &&
      Tab.find? (u.core 0).sets 7 = some ⟨0, 0, 0⟩) = true ∧
    gives (.sjoin ⟨2, gr 4⟩) full (fun u => (u.fibre? 0 0).map (fun v => (v.sets, v.pred 2)) = some ([], .f)) = true := by decide +kernel
theorem witness_Sleave :
    let s := pairOfMembers
    OnFibre s 0 0 member ∧ setId member ((7 : Word).toNat % 2 ^ 16) = some 7 ∧ 7 ∈ member.sets ∧
      Tab.find? (s.core 0).sets 7 = some ⟨0, 0, 0⟩ ∧ (∃ j v, j ≠ 0 ∧ s.fibre? 0 j = some v ∧ 7 ∈ v.sets ∧ 0 < v.count) :=
  ⟨⟨rfl, rfl, rfl⟩, by decide +kernel, by decide, rfl, 1, { member with uid := 2 }, by decide, rfl, by decide, by decide⟩
theorem test_sleave : gives (.sleave ⟨gr 4⟩) pairOfMembers (fun u =>
    u.fibre? 0 0 = some { member with sets := [] }.advance && Tab.find? (u.core 0).sets 7 = some ⟨0, 0, 0⟩) = true := by decide +kernel

/-! ### Guards and control transfers -/

/-- GuardsSkipAndSplit: an F guard, and a cut of each sense. -/
def fibF : Thread := { fib with preds := [(1, .f)], regs := [(4, .u 9 false)] }
def fibC (ge : Bool) : Thread := { fib4 with preds := [(1, .c .x 1 ge)] }
theorem witness_Guards :
    let i := Instr.iadd ⟨⟨false, 1⟩, gd 4, gr 6, gr 7, .i32⟩
    actsUnder i = some ⟨false, 1⟩ ∧ actsUnder (.ld ⟨⟨false, 1⟩, gd 4, gr 6, 0, 6, 0, 0, 0⟩) = some ⟨false, 1⟩ ∧
      (onF fibF).cur? = some fibF ∧ fibF.guard ⟨false, 1⟩ = .f ∧
      OnRange (onF (fibC false)) 0 0 (fibC false) ∧ HasEntry (onF (fibC false)) 0 ∧
      (fibC false).guard ⟨false, 1⟩ = .c .x 1 false ∧ (fibC true).guard ⟨false, 1⟩ = .c .x 1 true :=
  ⟨rfl, rfl, rfl, rfl, ⟨rfl, rfl, rfl, rfl, by decide⟩, by unfold HasEntry; decide +kernel, rfl, rfl⟩
theorem test_guards :
    gives (.iaddImm ⟨⟨false, 1⟩, gd 4, gr 6, false, false, 5⟩) (onF fibF) (fun u => u.fibre? 0 0 = some fibF.advance) = true ∧
    gives (.iaddImm ⟨⟨false, 1⟩, gd 4, gr 6, false, false, 5⟩) (onF (fibC false)) (fun u => u.roomy &&
      (u.fibre? 0 0).map (fun v => (v.box.x1, v.pc, v.reg 4)) = some (1, 16, .u 5 false) &&
      (u.fibre? 0 1).map (fun v => (v.box.x0, v.box.x1, v.pc, v.reg 4)) = some (1, 4, 16, .u 0 false)) = true ∧
    gives (.iaddImm ⟨⟨false, 1⟩, gd 4, gr 6, false, false, 5⟩) (onF (fibC true)) (fun u => u.roomy &&
      (u.fibre? 0 0).map (fun v => (v.box.x1, v.pc, v.reg 4)) = some (1, 16, .u 0 false) &&
      (u.fibre? 0 1).map (fun v => (v.box.x0, v.box.x1, v.pc)) = some (1, 4, 8)) = true := by decide +kernel
/-- A RED under a cut guard: each half counts as one (07 R182). -/
theorem witness_RedSplit :
    actsUnder (.red ⟨⟨false, 1⟩, .ix, .i32, 3, false⟩) = some ⟨false, 1⟩ ∧ OnRange (onF (fibC true)) 0 0 (fibC true) ∧
      (∀ o : RedO, ((onF (fibC true)).redCount o (fibC true)).turn = (onF (fibC true)).turn) :=
  ⟨rfl, ⟨rfl, rfl, rfl, rfl, by decide⟩, fun _ => rfl⟩
theorem test_red_split : gives (.red ⟨⟨false, 1⟩, .ix, .i32, 3, false⟩) (withSreg (onF (fibC false)) 10 4)
    (fun u => sregOf u 0 0 3 = ⟨10, 6, []⟩ && (u.fibre? 0 0).map Thread.pc = some 16 && (u.fibre? 0 1).map Thread.pc = some 16) = true := by
  decide +kernel
/-- BranchesAndSplits: on T and F; on a cut and on lanes. -/
theorem witness_Branch :
    let t := { fib with regs := [(4, .u 0xFFFFFFFF false)] ++ pairAt 6 0x200 }
    (onF t).cur? = some t ∧ t.clause = some (cl3 0) ∧ t.guard al = .t ∧ fibF.guard ⟨false, 1⟩ = .f ∧
      (t.src 0 (gr 4) false).isU = true ∧ (t.src 0 (gr 4) false).clean = true ∧ 0 < t.box.count ∧ (t.src 0 (gr 6) true).isU = true :=
  ⟨rfl, rfl, rfl, rfl, by decide +kernel, by decide +kernel, by decide, by decide +kernel⟩
theorem test_branch :
    let t := { fib with regs := [(4, .u 0xFFFFFFFF false)] ++ pairAt 6 0x200 }
    let goes (i : Instr) (x : Thread) (pc : Word) := gives i (onF x) fun u => u.fibre? 0 0 = some (atHeader x pc)
    goes (.bra ⟨al, 0xFFFFFFFF⟩) t (-8) = true ∧ goes (.bra ⟨⟨false, 1⟩, 7⟩) fibF 32 = true ∧ goes (.brc ⟨al, gr 4, .lt, false, 7⟩) t 56 = true ∧
      goes (.brc ⟨al, gr 4, .ge, false, 7⟩) t 32 = true ∧ goes (.jmpi ⟨al, gr 6⟩) t 0x200 = true := by decide +kernel
theorem witness_BranchSplits :
    let l := { lanes4 with preds := [(1, .m [1, 2])] }
    OnRange (onF (fibC true)) 0 0 (fibC true) ∧ (fibC true).guardAt ⟨false, 1⟩ = .c .x 1 true ∧ HasEntry (onF (fibC true)) 0 ∧
      OnLanes (onF l) 0 0 l ∧ l.guardAt ⟨false, 1⟩ = .m [1, 2] ∧ HasEntry (onF l) 0 :=
  ⟨⟨rfl, rfl, rfl, rfl, by decide⟩, by decide +kernel, by unfold HasEntry; decide +kernel, ⟨rfl, rfl, rfl, rfl, by decide⟩, by decide +kernel,
    by unfold HasEntry; decide +kernel⟩
theorem test_branch_splits :
    gives (.bra ⟨⟨false, 1⟩, 7⟩) (onF (fibC true)) (fun u => u.roomy && (u.fibre? 0 0).map (fun v => (v.box.x1, v.pc)) = some (1, 32) &&
      (u.fibre? 0 1).map (fun v => (v.box.x0, v.box.x1, v.pc)) = some (1, 4, 56)) = true ∧
    gives (.bra ⟨⟨true, 1⟩, 7⟩) (onF { lanes4 with preds := [(1, .m [1, 2])] }) (fun u => u.roomy &&
      (u.fibre? 0 0).map (fun v => (v.active, v.pc)) = some ([0, 3], 56) &&
      (u.fibre? 0 1).map (fun v => (v.active, v.pc)) = some ([1, 2], 32)) = true := by decide +kernel
/-- CallsAndReturns: with room, and with 16 entries and a slot. -/
def deep : Thread := { fib with rs := (List.range 16).map fun k => .addr (BitVec.ofNat 64 (8 * k)), slot := [.addr 0x900], inst := some 0 }
theorem witness_Calls :
    fib.guard al = .t ∧ fib.rs.length < 16 ∧ deep.rs.length = 16 ∧ deep.slot ≠ [] ∧ deep.slot.length < 128 ∧
      (∃ old, deep.rs.getLast? = some old) ∧ deep.rs = .addr 0 :: deep.rs.drop 1 :=
  ⟨rfl, by decide, rfl, by decide, by decide, ⟨.addr 120, rfl⟩, rfl⟩
theorem test_calls :
    gives (.call ⟨al, 7⟩) (onF fib) (fun u => u.fibre? 0 0 = some (atHeader { fib with rs := [.addr 32] } 56)) = true ∧
    gives (.call ⟨al, 7⟩) (onF deep) (fun u => (u.fibre? 0 0).map (fun v => (v.rs.length, v.rs.head?, v.slot, v.pc)) =
      some (16, some (.addr 32), [.addr 120, .addr 0x900], 56)) = true ∧
    gives (.ret ⟨al⟩) (onF deep) (fun u => (u.fibre? 0 0).map (fun v => (v.rs.length, v.rs.getLast?, v.slot, v.pc)) =
      some (16, some (.addr 0x900), [], 0)) = true := by decide +kernel
/-- A refill whose line is poisoned: slot 0 of core 0 at va 0x100. -/
def spillT : Thread := { deep with slotNo := some 0 }
def spillS : State :=
  let s := withVm (withLaunch (onF spillT)) []
  { s with launches := [(0, { launch0 with lr := { lrec with csbase := 0x100, csslots := 1 } })], mem := { s.mem with plines := [lineOf 0x40100] } }
theorem spill_settled : SlotSettled spillS spillT := fun c a h => by
  have h' : spillS.slotTop spillT = some (0, 0x100) := by decide +kernel
  cases h'.symm.trans h
  exact ⟨rfl, .inl ⟨0x40100, resolves_of (leaf := 0x4001F) (by decide +kernel)⟩⟩
theorem witness_RetPoison :
    OnRange spillS 0 0 spillT ∧ Calm spillS ∧ SlotSettled spillS spillT ∧ spillT.slot ≠ [] ∧ QueueRoom spillS 0 ∧ spillT.readsFar = false ∧ spillS.slotBad spillT = true ∧ spillT.guard al = .t ∧
      spillT.rs = .addr 0 :: spillT.rs.drop 1 ∧ (onF deep).slotBad deep = false :=
  ⟨⟨rfl, rfl, rfl, rfl, by decide⟩, ⟨rfl, rfl⟩, spill_settled, by decide, by unfold QueueRoom; decide +kernel, by decide +kernel,
    by decide +kernel, rfl, rfl, by decide +kernel⟩
theorem witness_RetRefills :
    Calm (onF deep) ∧ SlotSettled (onF deep) deep ∧ deep.slot = .addr 0x900 :: [] ∧ (onF deep).slotBad deep = false :=
  ⟨⟨rfl, rfl⟩, fun c a h => by revert h; rw [show (onF deep).slotTop deep = none by decide +kernel]; nofun, rfl, by decide +kernel⟩
theorem test_ret_poison : gives (.ret ⟨al⟩) spillS (fun u => (u.fibre? 0 0).map (fun v => (v.st, v.pc, v.lcause, v.rs.length)) =
    some (.parked, 8, cMemPoison, 16)) = true := by decide +kernel
/-- NopYieldExitTraps, IllegalTraps. -/
theorem witness_NopYieldExit :
    fib.clause = some (cl3 0) ∧ (onF fib).cur? = some fib ∧ OnFibre (onF fib) 0 0 fib ∧ fib.guard al = .t ∧ fib.sets = [] ∧
      OnStream (onS strm) 0 strm ∧ strm.th.guard al = .t ∧ OnMc (onM mc1) 0 mc1.th ∧ mc1.th.guard al = .t ∧
      OnRange (onF fib) 0 0 fib ∧ QueueRoom (onF fib) 0 :=
  ⟨rfl, rfl, ⟨rfl, rfl, rfl⟩, rfl, rfl, ⟨rfl, rfl, rfl, rfl, rfl⟩, rfl, ⟨rfl, rfl, rfl, rfl, rfl⟩, rfl, ⟨rfl, rfl, rfl, rfl, by decide⟩,
    by unfold QueueRoom; decide +kernel⟩
theorem test_nop_yield_exit :
    gives (.nop ⟨al⟩) (onF fib) (fun u => u.fibre? 0 0 = some (pastWord fib (cl3 0))) = true ∧
    gives (.yield ⟨al⟩) (onF fib) (fun u => u.fibre? 0 0 = some (atHeader fib 32)) = true ∧
    gives (.exit_ ⟨al⟩) (onF fib) (fun u => u.fibre? 0 0 = none) = true ∧
    gives (.exit_ ⟨al⟩) (onS strm) (fun u => (u.core 0).stream.isNone) = true ∧
    gives (.exit_ ⟨al⟩) (onM mc1) (fun u => (u.mc 0).th = atHeader mc1.th 32) = true := by decide +kernel
theorem test_traps :
    let tr (i : Instr) (pc : Word) (cause : BitVec 8) (aux : Word) := gives i (onF fib) fun u =>
      (u.fibre? 0 0).map (fun v => (v.st, v.pc, v.lcause)) = some (.parked, pc, cause) &&
      (u.cluster 0).trapq.map (fun r => (r.cause, r.pc, r.aux, r.handle)) = [(cause, 8, aux, handleOf false 0 0 0)]
    tr (.trap_ ⟨al, 0x155⟩) 16 cTrapInstr 0x155 = true ∧ tr (.brk ⟨al, 1⟩) 16 cBreakpoint 1 = true ∧ tr .illegal 8 cIllegalOpcode 0 = true ∧
      gives .illegal (onM { mc1 with hvec := 0x1000 }) (fun u => (u.mc 0).inh && (u.mc 0).th.pc = 0x1100 && (u.mc 0).epc = 8) = true ∧
      gives .illegal (onM { mc1 with inh := true }) (fun u => (u.mc 0).halted && u.host.mb.halt) = true := by decide +kernel
theorem test_traps_exact :
    let rec_ (cause : BitVec 8) (aux : Word) : TrapRec :=
      { seq := 0, peeled := false, kind := 0, cause := cause, handle := 0, pc := 8, addr := 0, aux := aux, index := .box ⟨0, 1, 0, 1, 0, 1⟩, disp := 0
        rule := 0, tile := 0, core := 0, uid := 1, who := [], fbv := none, replay := false }
    gives (.trap_ ⟨al, 5⟩) (onF fib) (fun u => u.fibre? 0 0 = some { fib.advance with st := .parked, lcause := cTrapInstr } &&
      (u.cluster 0).trapq = [rec_ cTrapInstr 5] && (u.cluster 0).seq = 1) = true ∧
    gives .illegal (onF fib) (fun u => u.fibre? 0 0 = some { fib with st := .parked, lcause := cIllegalOpcode } &&
      (u.cluster 0).trapq = [rec_ cIllegalOpcode 0]) = true ∧
    gives .illegal (onF lanes4) (fun u => u.fibre? 0 0 = some { lanes4 with st := .parked, lcause := cIllegalOpcode, tmask := [0, 1, 2, 3] }) = true := by
  decide +kernel
theorem witness_StackLimits :
    let t := { deep with slot := List.replicate 128 (.addr 0) }
    OnRange (onF t) 0 0 t ∧ t.clause ≠ none ∧ t.guard al = .t ∧ 16 ≤ t.rs.length ∧ 128 ≤ t.slot.length ∧ fib.rs = [] ∧ fib.slot = [] :=
  ⟨⟨rfl, rfl, rfl, rfl, by decide⟩, by decide, rfl, by decide, by decide +kernel, rfl, rfl⟩
theorem test_stack_limits :
    gives (.call ⟨al, 7⟩) (onF { deep with slot := List.replicate 128 (.addr 0) }) (fun u =>
      (u.fibre? 0 0).map (fun v => (v.st, v.pc, v.lcause)) = some (.parked, 8, cStackLimit)) = true ∧
    gives (.ret ⟨al⟩) (onF fib) (fun u => (u.fibre? 0 0).map (fun v => (v.st, v.pc, v.lcause)) = some (.parked, 8, cRetUnderflow)) = true := by
  decide +kernel

/-! ### Memory instructions -/

/-- A fibre with the address 0x100, data in g8 and g10, at word LD of its clause. -/
def memT : Thread := { fib with regs := pairAt 6 0x100 ++ [(8, .u 0x80 false), (10, .u 3 false)], inst := some 0 }
/-- Context 0 has the number 0x0102030405060780 at 0x100. -/
def memS : State := withVm (withLaunch (onF memT)) [(0x40100, 0x0102030405060780)]
theorem memT_cur : memS.cur? = some memT := rfl
/-- Computed forms of Finds and InPage. -/
def finds1 (s : State) (t : Thread) (va : Word) (n : Nat) (p : Perm) (pa : Nat) (leaf : Word) : Bool :=
  va.toNat % n = 0 && !s.addrBad va.toNat && (!(t.kind == .mc) || !inWindow va.toNat n) && s.xlat (s.curSpace t) va.toNat p = .ok pa 2 leaf &&
  inHbm pa && !inFar pa && s.flowing && s.mem.flaws.isEmpty && !s.badRead none pa n && s.log.isEmpty
theorem finds_of {s : State} {t : Thread} {va : Word} {n : Nat} {p : Perm} {pa : Nat} {leaf : Word} (h : finds1 s t va n p pa leaf = true) :
    Finds s t va n p pa := by
  simp only [finds1, Bool.and_eq_true, decide_eq_true_eq, List.isEmpty_iff, Bool.not_eq_true', Bool.or_eq_true] at h
  obtain ⟨⟨⟨⟨⟨⟨⟨⟨⟨h1, h2⟩, h3⟩, h4⟩, h5⟩, h6⟩, h7⟩, h8⟩, h9⟩, h10⟩ := h
  exact ⟨h1, h2, fun hk => h3.resolve_left (by simp [hk]), ⟨2, leaf, h4⟩, h5, h6, ⟨h7, h8⟩, h9, by simp [h10]⟩
theorem reaches_of {s : State} {t : Thread} {va : Word} {n : Nat} {p : Perm} {pa : Nat} {leaf : Word}
    (h : (finds1 s t va n p pa leaf && !s.slow) = true) : Reaches s t va n p pa := by
  simp only [Bool.and_eq_true, Bool.not_eq_true'] at h
  exact ⟨finds_of h.1, h.2⟩
def inPage1 (s : State) (sp : VSpace) (va : Word) (n : Nat) (p : Perm) (pa : Nat) (leaf : Word) : Bool :=
  decide (va.toNat < 2 ^ 55) && decide (va.toNat % 2 ^ 16 + n ≤ 2 ^ 16) && decide (0 < n) && resolves1 s sp va.toNat p pa leaf &&
  inHbm pa && !inFar pa && s.flowing && s.mem.flaws.isEmpty && !s.badRead none pa n && s.log.isEmpty
theorem inPage_of {s : State} {sp : VSpace} {va : Word} {n : Nat} {p : Perm} {pa : Nat} {leaf : Word}
    (h : inPage1 s sp va n p pa leaf = true) : InPage s sp va n p pa := by
  simp only [inPage1, Bool.and_eq_true, decide_eq_true_eq, List.isEmpty_iff, Bool.not_eq_true'] at h
  obtain ⟨⟨⟨⟨⟨⟨⟨⟨⟨h1, h2⟩, h3⟩, h4⟩, h5⟩, h6⟩, h7⟩, h8⟩, h9⟩, h10⟩ := h
  exact ⟨h1, h2, h3, resolves_of h4, h5, h6, ⟨h7, h8⟩, h9, by simp [h10]⟩
theorem witness_Loads :
    Acts memS memT al ∧ memT.places ≠ [] ∧ (memT.src 0 (gr 6) true).isU = true ∧ (memT.src 0 (gr 6) true).clean = true ∧
      takesU memT (gd 4) (sizeRW 0) = true ∧ Reaches memS memT ((memT.src 0 (gr 6) true).u + (0#20).signExtend 64) 1 .r 0x40100 ∧
      Reaches memS memT ((memT.src 0 (gr 6) true).u + (0#20).signExtend 64) 16 .r 0x40100 ∧
      ReachesScratch memS memT 0x80 8 (some (0, 0)) ∧ memS.launch? memT.launch = some launch0 :=
  ⟨⟨rfl, rfl⟩, by decide, by decide +kernel, by decide +kernel, by decide +kernel,
    reaches_of (leaf := 0x4001F) (by decide +kernel),
    reaches_of (leaf := 0x4001F) (by decide +kernel),
    ⟨⟨0, 0, 4096, by decide +kernel, rfl, by decide⟩, by decide +kernel⟩, rfl⟩
/-- The forms of SIZE (08 R214), a scratchpad byte and a bank byte. -/
theorem test_loads :
    let r (i : Instr) (p : Thread → Bool) := gives i memS fun u => (u.fibre? 0 0).map (fun v => p v && v.pc = 16) = some true
    r (.ld ⟨al, gd 4, gr 6, 0, 0, 0, 0, 0⟩) (fun v => v.reg 4 = .u 0xFFFFFF80 false) = true ∧
    r (.ld ⟨al, gd 4, gr 6, 2, 6, 0, 0, 0⟩) (fun v => v.st = .parked) = true ∧
    r (.ld ⟨al, gd 4, gr 6, 4, 6, 0, 0, 0⟩) (fun v => v.reg 4 = .u 0x01020304 false) = true ∧
    r (.ld ⟨al, gd 12, gr 6, 0, 8, 0, 0, 0⟩) (fun v => v.reg 12 = .u 0x0102030405060780 false && v.reg 14 = .u 0 false && v.reg 15 = .p) = true ∧
    r (.lds ⟨al, gd 4, gr 8, 0xFFF88, 4, 0, 0, 0⟩) (fun v => v.reg 4 = .u 0x55 false) = true ∧
    r (.ldc ⟨al, gd 4, none, 4, 4⟩) (fun v => v.reg 4 = .u 0x2A false) = true ∧
    r (.pref ⟨al, gr 6, 0, 0⟩) (fun v => v = memT.advance) = true := by decide +kernel
theorem test_load_extremes :
    let t := { fib with regs := pairAt 6 0x10 }
    gives (.lds ⟨al, gd 4, gr 6, 0xFFFF8, 4, 0, 0, 0⟩) (withLaunch (onF { t with inst := some 0 }))
      (fun u => (u.fibre? 0 0).map (fun v => v.reg 4) = some (.u 0x55 false)) = true := by decide +kernel
/-- AccessChecks: each check in its order. -/
def at_ (va : Word) : Thread := { memT with regs := pairAt 6 va ++ [(8, .u 0x1FFE false)] }
def memAt (va : Word) : State := withVm (withLaunch (onF (at_ va))) []
theorem witness_AccessChecks :
    OnRange memS 0 0 memT ∧ memT.box.count = 1 ∧ memT.clause ≠ none ∧ QueueRoom memS 0 ∧ memT.guard al = .t ∧
      (memAt 0x20000).xlat (.port 0 0 .F) 0x20000 .w = .fault cAccess 2 2 ∧
      (∃ reason level, (memAt 0x30000).xlat (.port 0 0 .F) 0x30000 .r = .fault cPageFault reason level) ∧ (memS.core 0).book = [] ∧
      memS.scratchOf memT = some (0, 0, 4096) :=
  ⟨⟨rfl, rfl, rfl, rfl, by decide⟩, by decide, by decide, by unfold QueueRoom; decide +kernel, rfl, by decide +kernel,
    ⟨2, 2, by decide +kernel⟩, rfl, by decide +kernel⟩
theorem test_access_checks :
    let r (i : Instr) (va : Word) (st : FState) (cause : BitVec 8) (addr aux : Word) := gives i (memAt va) fun u =>
      (u.fibre? 0 0).map (fun v => (v.st, v.pc, v.regs)) = some (st, 16, (at_ va).regs) &&
      (u.cluster 0).trapq.map (fun x => (x.cause, x.addr, x.aux, x.pc)) = [(cause, addr, aux, 8)]
    let ld := Instr.ld ⟨al, gd 4, gr 6, 0, 6, 0, 0, 0⟩
    let st := Instr.st ⟨al, gr 8, gr 6, 0, 6, 0, 0, 0⟩
    r ld 0x0080000000000002 .parked cAccess 0x0080000000000002 0 = true ∧ r ld 0x20002 .parked cMisaligned 0x20002 0 = true ∧
      r st 0x20000 .parked cAccess 0x20000 2 = true ∧ r ld 0x30000 .replayWait cPageFault 0x30000 0x2100 = true ∧
      r (.atom ⟨al, gd 4, gr 6, gr 8, gr 8, .i32, 0, 0, 0, false⟩) 0x20000 .parked cAccess 0x20000 2 = true ∧
      r (.lds ⟨al, gd 4, gr 8, 0, 6, 0, 0, 0⟩) 0 .parked cScratchRange 0x1FFE 0 = true ∧
      r (.lds ⟨al, gd 4, gr 8, 0xFEF00, 6, 0, 0, 0⟩) 0 .parked cMisaligned 0xEFE 0 = true := by decide +kernel
theorem witness_McAccess :
    let m (va : Word) : Mc := { mc1 with th := { mc1.th with regs := pairAt 6 va } }
    let va (x : Word) : Nat := (((m x).th.src 0 (gr 6) true).u + (0#20).signExtend 64).toNat
    OnMc (onM (m 0x0080000000000001)) 0 (m 0x0080000000000001).th ∧ 2 ^ 55 ≤ va 0x0080000000000001 ∧
      (((onM (m 0x0010000000000001)).mc 0).en = false ∧ 2 ^ 52 ≤ va 0x0010000000000001) ∧ va 1 % 4 ≠ 0 ∧ va 1 < 2 ^ 52 ∧ Calm (onM (m 1)) :=
  ⟨⟨rfl, rfl, rfl, rfl, rfl⟩, by decide +kernel, ⟨rfl, by decide +kernel⟩, by decide +kernel, by decide +kernel, by decide +kernel, rfl⟩
theorem test_mc_access_order :
    let r (va : Word) := gives (.ld ⟨al, gd 4, gr 6, 0, 6, 0, 0, 0⟩) (onM { mc1 with hvec := 0x1000, th := { mc1.th with regs := pairAt 6 va } })
      fun u => (u.mc 0).cause = cAccess && (u.mc 0).epc = 8
    r 0x0080000000000001 = true ∧ r 0x0010000000000001 = true := by decide +kernel
theorem test_mc_access :
    gives (.ld ⟨al, gd 4, gr 6, 1, 6, 0, 0, 0⟩) (onM { mc1 with hvec := 0x1000 }) (fun u => (u.mc 0).cause = cMisaligned && (u.mc 0).epc = 8)
      = true := by decide +kernel
/-- StoresWriteBytes: the low byte alone, at the address and nowhere else. -/
theorem witness_Stores :
    OneIndex memS memT al ∧ storeClean memS memT (gr 8) 4 ∧ (memT.src 0 (gr 6) true).clean = true ∧
      Reaches memS memT ((memT.src 0 (gr 6) true).val 0 + (7#20).signExtend 64) 1 .w 0x40107 ∧ ReachesScratch memS memT 0x80 1 (some (0, 0)) :=
  ⟨⟨rfl, rfl, rfl, rfl⟩, by unfold storeClean; decide +kernel, by decide +kernel,
    reaches_of (leaf := 0x4001F) (by decide +kernel),
    ⟨⟨0, 0, 4096, by decide +kernel, rfl, by decide⟩, by decide +kernel⟩⟩
theorem test_stores :
    gives (.st ⟨al, gr 8, gr 6, 7, 4, 0, 0, 0⟩) memS (fun u => numAt u none 0x40100 8 = 0x8002030405060780 && numAt u none 0x40108 1 = 0) = true ∧
    gives (.sts ⟨al, gr 8, gr 8, 0, 4, 0, 0, 0⟩) memS (fun u => numAt u (some (0, 0)) 0x80 1 = 0x80 && u.mem = memS.mem) = true := by
  decide +kernel
/-- StoreFrame: a fibre of four indices with lane addresses. -/
theorem witness_StoreFrame :
    OnFibre (onF lanes4) 0 0 lanes4 ∧ lanes4.guardAt ⟨false, 1⟩ = .m [0, 2] ∧ lanes4.guardAt al = .t ∧
      (∃ r, reqOf (.st ⟨al, gr 6, gr 4, 0, 4, 0, 0, 0⟩) = some r ∧ r.acc = 1) :=
  ⟨⟨rfl, rfl, rfl⟩, by decide +kernel, by decide +kernel, _, rfl, rfl⟩
/-- AtomicsReadModifyWrite: an add, a compare that fails, and a swap in the scratchpad. -/
def atomI (op : BitVec 3) : AtomO := ⟨al, gd 4, gr 6, gr 10, gr 8, .n32, op, 0, 0, false⟩
theorem witness_Atomics :
    OneIndex memS memT al ∧ takesU memT (gd 4) (RW.ofTy .n32) = true ∧ (memT.src 0 (gr 10) false).clean = true ∧
      Reaches memS memT ((memT.src 0 (gr 6) true).val 0) 4 .rw 0x40100 ∧ ReachesScratch memS memT 0x80 4 (some (0, 0)) :=
  ⟨⟨rfl, rfl, rfl, rfl⟩, by decide +kernel, by decide +kernel,
    reaches_of (leaf := 0x4001F) (by decide +kernel),
    ⟨⟨0, 0, 4096, by decide +kernel, rfl, by decide⟩, by decide +kernel⟩⟩
theorem test_atomics :
    gives (.atom (atomI 0)) memS (fun u => numAt u none 0x40100 8 = 0x0102030405060783 &&
      (u.fibre? 0 0).map (fun v => v.reg 4) = some (.u 0x05060780 false)) = true ∧
    gives (.atom (atomI 7)) memS (fun u => u.mem = memS.mem) = true ∧
    gives (.atoms { atomI 6 with a := gr 8 }) memS (fun u => numAt u (some (0, 0)) 0x80 4 = 3) = true := by decide +kernel
/-- The compare-and-swap of 16 bytes: the operands in pairs g8:g11 and g12:g15. -/
def casT (lo : Word) : Thread :=
  { memT with regs := pairAt 6 0x100 ++ pairAt 8 lo ++ pairAt 10 0 ++ pairAt 12 0x55 ++ pairAt 14 0x66 ++ pairAt 16 0x80 }
def casS (lo : Word) : State := withVm (withLaunch (onF (casT lo))) [(0x40100, 0x0102030405060780)]
def casI : AtomO := ⟨al, gd 20, gr 6, gr 8, gr 12, .n64, 7, 0, 0, true⟩
theorem witness_Swap16 :
    let s := casS 0x0102030405060780
    let t := casT 0x0102030405060780
    OneIndex s t al ∧ takesU t (gd 20) .w64 = true ∧ storeClean s t (gr 8) 8 ∧ storeClean s t (gr 12) 8 ∧
      Reaches s t ((t.src 0 (gr 6) true).val 0) 16 .rw 0x40100 ∧ ReachesScratch s t 0x80 16 (some (0, 0)) :=
  ⟨⟨rfl, rfl, rfl, rfl⟩, by decide +kernel, by unfold storeClean; decide +kernel, by unfold storeClean; decide +kernel,
    reaches_of (leaf := 0x4001F) (by decide +kernel), ⟨⟨0, 0, 4096, by decide +kernel, rfl, by decide⟩, by decide +kernel⟩⟩
theorem test_swap16 :
    gives (.atom casI) (casS 0x0102030405060780) (fun u => numAt u none 0x40100 16 = 0x66 * 2 ^ 64 + 0x55 &&
      (u.fibre? 0 0).map (fun v => (v.reg 20, v.reg 22, v.pc)) = some (.u 0x0102030405060780 false, .u 0 false, 16)) = true ∧
    gives (.atom casI) (casS 1) (fun u => u.mem = (casS 1).mem && (u.fibre? 0 0).map (fun v => v.reg 20) = some (.u 0x0102030405060780 false))
      = true := by decide +kernel
/-- FencesChangeViews: a release store of the module at device scope, core 1's, that no load has read yet. -/
def relW : WriteRec :=
  { id := 7, space := none, addr := 0x40100, len := 8, old := List.replicate 8 0, oldBad := List.replicate 8 false, path := .F, core := 1
    launch := none, rel := [⟨1, 1, [3, 7]⟩], vis := .every
    rmw := false, tick := 0, unit := none }
def relS : State := { memS with log := [relW], nextId := 9 }
theorem test_fences :
    gives (.phase ⟨al⟩) memS (fun u => u.mem = memS.mem && (u.fibre? 0 0).map Thread.pc = some 16) = true ∧
    gives (.fence ⟨al, 3, 1⟩) memS (fun u => (u.fibre? 0 0).map Thread.pc = some 16) = true ∧
    gives (.pfence ⟨al, 15, 15⟩) memS (fun u => (u.fibre? 0 0).map Thread.pc = some 16) = true ∧
    gives (.pfence ⟨al, 15, 4⟩) (onS strm) (fun u => ((u.core 0).stream.map fun x => x.th.pc) = some 16) = true := by decide +kernel
theorem getsTo_of {s : State} {t : Thread} {va : Word} {n : Nat} {p : Perm} {pa : Nat} {leaf : Word}
    (h : (finds1 { s with log := [] } t va n p pa leaf && !s.slow) = true) (hx : s.xlat (s.curSpace t) va.toNat p = .ok pa 2 leaf)
    (hb : s.badRead none pa n = false) : GetsTo s t va n p pa := by
  simp only [finds1, Bool.and_eq_true, decide_eq_true_eq, List.isEmpty_iff, Bool.not_eq_true', Bool.or_eq_true] at h
  obtain ⟨⟨⟨⟨⟨⟨⟨⟨⟨⟨h1, h2⟩, h3⟩, h4⟩, h5⟩, h6⟩, h7⟩, h8⟩, h9⟩, h10⟩, h11⟩ := h
  exact ⟨h1, h2, fun hk => h3.resolve_left (by simp [hk]), ⟨2, leaf, hx⟩, h5, h6, ⟨h7, h8⟩, hb, h11⟩
theorem witness_Acquires :
    OneIndex relS memT al ∧ takesU memT (gd 4) (sizeRW 7) = true ∧ takesU memT (gd 4) (RW.ofTy .n32) = true ∧
      (memT.src 0 (gr 6) true).isU = true ∧ (memT.src 0 (gr 10) false).clean = true ∧
      GetsTo relS memT ((memT.src 0 (gr 6) true).u + (0#20).signExtend 64) 8 .r 0x40100 ∧
      GetsTo relS memT ((memT.src 0 (gr 6) true).val 0) 4 .rw 0x40100 ∧ (relS.log.map WriteRec.id).Nodup ∧
      relW ∈ relS.log ∧ relW.covers none 0x40100 4 = true ∧ Synchronizes ⟨1, 1, [3, 7]⟩ 1 relS.curAgent ∧
      storeClean relS memT (gr 8) 6 ∧ Reaches memS memT ((memT.src 0 (gr 6) true).val 0 + (0#20).signExtend 64) 4 .w 0x40100 :=
  ⟨⟨rfl, rfl, rfl, rfl⟩, by decide +kernel, by decide +kernel, by decide +kernel, by decide +kernel,
    getsTo_of (leaf := 0x4001F) (by decide +kernel) (by decide +kernel) (by decide +kernel),
    getsTo_of (leaf := 0x4001F) (by decide +kernel) (by decide +kernel) (by decide +kernel), by decide, by decide, by decide +kernel,
    ⟨⟨by decide, by decide +kernel⟩, by decide, by decide +kernel⟩, by unfold storeClean; decide +kernel,
    reaches_of (leaf := 0x4001F) (by decide +kernel)⟩
/-- An acquiring atomic gains what core 1's release of the word published; a release fence makes releases of later stores; a release
store is one itself. -/
theorem test_acquires :
    gives (.atom { atomI 0 with ord := 1, scp := 1 }) relS (fun u => (u.fibre? 0 0).map (fun v => v.view.hb.contains 3) = some true) = true ∧
    gives (.fence ⟨al, 2, 1⟩) memS (fun u => (u.fibre? 0 0).map (fun v => v.view.rel) = some [1]) = true ∧
    gives (.st ⟨al, gr 8, gr 6, 0, 6, 2, 1, 0⟩) memS (fun u => u.log.map (fun w => w.rel.map Release.scope) = [[1]]) = true := by
  decide +kernel
/-- PromotionRoundTrip: no owner; owner core 5. -/
def ownS (w : Nat) : State := withVm (withLaunch (onF memT)) [(0x40108, w)]
theorem witness_Promote :
    OneIndex (ownS 0) memT al ∧ memT.why = .none ∧ Reaches (ownS 0) memT ((memT.src 0 (gr 6) true).val 0) 4 .r 0x40100 ∧
      (ownS 0).badRead none 0x40108 8 = false ∧ ownerAt (ownS 0) 0x40100 = none ∧ ownerAt (ownS 0x8000000000000005) 0x40100 = some 5 :=
  ⟨⟨rfl, rfl, rfl, rfl⟩, rfl, reaches_of (leaf := 0x4001F) (by decide +kernel),
    by decide +kernel, by decide +kernel, by decide +kernel⟩
theorem witness_PromotionReply :
    let w : Thread := { memT with why := .promote 1 [(0, 5)] [] }
    (onF w).fibre? 0 0 = some w ∧ Tab.find? ((onF w).core 0).swaps 0 = none ∧ w.why = .promote 1 [(0, 5)] [] := ⟨rfl, rfl, rfl⟩
theorem test_promote :
    let w : Thread := { memT with why := .promote 1 [(0, 5)] [] }
    gives (.promote ⟨al, gr 6⟩) (ownS 0) (fun u => (u.fibre? 0 0).map Thread.pc = some 16) = true ∧
    gives (.promote ⟨al, gr 6⟩) (ownS 0x8000000000000005) (fun u => (u.fibre? 0 0).map (fun v => (v.pc, v.why)) = some (8, .promote 1 [(0, 5)] []) &&
      u.agenda = [.promotionRequest 5 0]) = true ∧
    gives (.promotionRequest 5 8193) s0 (fun u => u.agenda = [.promotionReply 1 1]) = true ∧
    gives (.promotionReply 0 0) (onF w) (fun u => (u.fibre? 0 0).map Thread.why = some (.promoted [(0, 5)] [])) = true := by decide +kernel
/-- WaitaWaitsForWord: the word is 3 or is not; a fibre that waits resumes. -/
def waitaI : WaitaO := ⟨al, gr 6, gr 10, true, 0, false, 0⟩
def waitT : Thread := { memT with regs := pairAt 6 0x100 ++ pairAt 10 3 }
def waitS (v : Nat) : State := withVm (onF waitT) [(0x40100, v)]
def waitsT : Thread :=
  let w := (encode (.waita waitaI)).getD 0
  { waitT with st := .wait, why := .waita [], clause := some { cl3 0 with words := [w, 0, 0] } }
theorem witness_Waita :
    OnFibre (waitS 3) 0 0 waitT ∧ OneIndex (waitS 3) waitT al ∧ Reaches (waitS 3) waitT ((waitT.src 0 (gr 6) true).val 0) 8 .r 0x40100 ∧
      (waitT.src 0 (gr 10) true).clean = true ∧ numAt (waitS 3) none 0x40100 8 = 3 ∧ numAt (waitS 4) none 0x40100 8 ≠ 3 ∧
      decode waitsT.word = .ok (.waita waitaI) ∧ waitsT.why = .waita [] :=
  ⟨⟨rfl, rfl, rfl⟩, ⟨rfl, rfl, rfl, rfl⟩,
    reaches_of (leaf := 0x4001F) (by decide +kernel), by decide +kernel,
    by decide +kernel, by decide +kernel, by decide +kernel, rfl⟩
theorem test_waita :
    gives (.waita waitaI) (waitS 3) (fun u => (u.fibre? 0 0).map (fun v => (v.st, v.pc)) = some (.ready, 16)) = true ∧
    gives (.waita waitaI) (waitS 4) (fun u => (u.fibre? 0 0).map (fun v => (v.st, v.pc, v.why)) = some (.wait, 8, .waita []) &&
      u.agenda = [.waitaSatisfied 0 0]) = true ∧
    gives (.waitaSatisfied 0 0) (withVm (onF waitsT) [(0x40100, 3)]) (fun u =>
      (u.fibre? 0 0).map (fun v => (v.st, v.pc, v.why)) = some (.ready, 16, .none)) = true := by decide +kernel
/-- LoadDataArrives: a load of HBM, a far store that is acknowledged, and the load that stays outstanding. -/
def outLd : LdO := ⟨al, gd 4, gr 6, 0, 6, 0, 0, 0⟩
def outT : Thread := { memT with why := .loadData, pc := 16 }
def outOf (w : Word) (pa : Nat) (data : List FVal) : OutAccess := ⟨0, 1, w, 8, [(0, pa)], [(0, 0x100)], [], [], [], .u 0x100, data, [], none, []⟩
def outS (o : OutAccess) : State :=
  let s := withVm (onF outT) [(0x40100, 0x81828384)]
  s.setCore 0 { s.core 0 with loads := [o] }
def ldOut (pa : Nat) : OutAccess := outOf ((encode (.ld outLd)).getD 0) pa []
def outSt : StO := ⟨al, gr 8, gr 6, 0, 6, 0, 0, 0⟩
def stOut : OutAccess := outOf ((encode (.st outSt)).getD 0) 0x40104 [.u 0x80]
theorem witness_LoadDataArrives :
    let s := outS (ldOut 0x40100)
    s.fibre? 0 0 = some outT ∧ outT.box.count = 1 ∧ (s.core 0).loads = [ldOut 0x40100] ∧ decode (ldOut 0).instr = .ok (.ld outLd) ∧
      takesU outT (gd 4) (sizeRW 6) = true ∧ s.heldAt 0x40100 1 = false ∧ s.farLost 0x40100 = false ∧ s.mem.flaws = [] ∧
      s.badRead none 0x40100 4 = false ∧ (∀ w ∈ s.log, w.covers none 0x40100 4 = false) ∧
      decode stOut.instr = .ok (.st outSt) ∧ (outS stOut).deadAt 0x40104 4 = false ∧ (outS stOut).fibre? 0 0 = some outT ∧
      ∀ k, k < 4 → lineOf (0x40104 + k) ∉ (outS stOut).mem.plines :=
  ⟨rfl, rfl, rfl, by decide +kernel, by decide +kernel, by decide +kernel, by decide +kernel, rfl, by decide +kernel, nofun,
    by decide +kernel, by decide +kernel, rfl, by decide +kernel⟩
theorem test_load_data_arrives :
    gives (.loadDataArrival 0 0) (outS (ldOut 0x40100)) (fun u => (u.core 0).loads = [] &&
      (u.fibre? 0 0).map (fun v => (v.reg 4, v.why, v.pc)) = some (.u 0x81828384 false, .none, 16)) = true ∧
    gives (.loadDataArrival 0 0) (outS stOut) (fun u => (u.core 0).loads = [] && numAt u none 0x40100 8 = 0x8081828384 &&
      (u.fibre? 0 0).map (fun v => (v.why, v.pc)) = some (.none, 16)) = true := by decide +kernel
theorem witness_SlowLoad :
    let s := { memS with slow := true }
    OnFibre s 0 0 memT ∧ memT.guard al = .t ∧ Finds s memT ((memT.src 0 (gr 6) true).u + (0#20).signExtend 64) 8 .r 0x40100 ∧ s.slow = true :=
  ⟨⟨rfl, rfl, rfl⟩, rfl, finds_of (leaf := 0x4001F) (by decide +kernel), rfl⟩
theorem test_slow_load : gives (.ld ⟨al, gd 4, gr 6, 0, 7, 0, 0, 0⟩) { memS with slow := true } (fun u =>
    (u.core 0).loads.map OutAccess.pend = [[(0, 0x40100)]] && u.agenda = [.loadDataArrival 0 0] &&
    (u.fibre? 0 0).map (fun v => (v.why, v.pc, v.reg 4)) = some (.loadData, 16, .u 0 false)) = true := by decide +kernel
/-- 22 R398: a store that another core's store of the word follows in modification order: the word keeps the other's value, which replaces
this store's, and this store replaces what the word held before both. -/
theorem test_storeUnder :
    (let x := relS.writeBytes none 0x40100 (List.replicate 8 5#8) []
     let y := (x.storeUnder [relW] none View.empty none 0x40100 (List.replicate 8 9#8) [] .F 0 none).1
     y.readBytes none 0x40100 8 = List.replicate 8 5#8 ∧ y.log.map (fun w => (w.id, w.old)) = [(7, List.replicate 8 9#8), (9, List.replicate 8 0#8)]) := by
  decide +kernel
/-- A store goes beneath none that an atomic made of what it read, that was made in the same step, or that is ordered before it. -/
theorem test_passes :
    ({ relS with tick := 5, log := [{ relW with rmw := true }] }).passes View.empty (fun _ => false) none 0x40100 8 = [] ∧
    ({ relS with tick := 0 }).passes View.empty (fun _ => false) none 0x40100 8 = [] ∧
    ({ relS with tick := 5 }).passes { View.empty with hb := [7] } (fun _ => false) none 0x40100 8 = [] := by decide +kernel

/-! ### Engines -/

/-- The descriptor of one row of `n` bytes from 0x100 to 0x200 in g16 to g31. -/
def descT (n : Word) : Thread :=
  { fib with regs := [(16, .u 0x100 false), (18, .u 0x200 false), (20, .u n false), (21, .u 1 false), (22, .u 1 false)], inst := some 0 }
def copyS (n : Word) : State := withVm (withLaunch (onF (descT n))) [(0x40100, 0x0102030405060708)]
def copyI : CopyO := ⟨al, 16, 3, 0, 0, false, 0⟩
def cmd : CopyCmd := { (copyS 8).copyCmd 0 0 (descT 8) .plain .n8 copyI with id := 0 }
def cmdS (q : CopyCmd) : State := (copyS 8).setCore 0 { (copyS 8).core 0 with copyq := [q] }
theorem witness_CopyCommands :
    let s := copyS 8
    Commands s 0 0 (descT 8) al true (groupOpds 16 16 (descT 8) s.draw) ∧ s.copyBad (descT 8) (s.copyCmd 0 0 (descT 8) .plain .n8 copyI) = none ∧
      (∃ b, (copyS 0).copyBad (descT 0) ((copyS 0).copyCmd 0 0 (descT 0) .plain .n8 copyI) = some b) ∧ QueueRoom s 0 ∧
      copyForm (.copyx ⟨copyI, .f16⟩) = some (copyI, .expand, .f16) :=
  ⟨⟨⟨rfl, rfl, rfl⟩, rfl, fun _ => by decide +kernel, by decide +kernel⟩, by decide +kernel, ⟨(cReservedField, 0, 0), by decide +kernel⟩,
    by unfold QueueRoom; decide +kernel, rfl⟩
theorem test_copy_commands :
    gives (.copy copyI) (copyS 8) (fun u => (u.core 0).copyq.map (fun q => (q.tok, q.st, q.d 4)) = [(3, .queued, 8)] &&
      (u.fibre? 0 0).map Thread.pc = some 16) = true ∧
    gives (.copy copyI) ((copyS 8).setCore 0 { (copyS 8).core 0 with copyq := List.replicate 4 cmd }) (fun u =>
      (u.core 0).copyq.length = 4 && (u.fibre? 0 0).map (fun v => (v.st, v.why, v.pc)) = some (.wait, .fifth, 8)) = true ∧
    gives (.copy copyI) (copyS 0) (fun u => (u.fibre? 0 0).map (fun v => (v.st, v.lcause, v.pc)) = some (.parked, cReservedField, 8)) = true := by
  decide +kernel
theorem test_structured_copies :
    let t := { descT 8 with regs := [(16, .u 0x100 false), (18, .u 0x200 false), (20, .u 8 false), (21, .u 1 false)] }
    let s := withVm (withLaunch (onF t)) []
    gives (.copyt copyI) (withVm (withLaunch (onF { t with regs := [(16, .u 0x100 false), (18, .u 5 false), (20, .u 8 false), (21, .u 1 false)] })) [])
      (fun u => (u.core 0).copyq.map (fun q => q.kind) = [.toTile]) = true ∧
    gives (.copyx ⟨copyI, .bf16⟩) s (fun u => (u.fibre? 0 0).map Thread.pc ≠ none) = true ∧
    gives (.copyc ⟨copyI, .n8⟩) s (fun u => (u.fibre? 0 0).map Thread.pc ≠ none) = true := by decide +kernel
theorem witness_CopyRuns :
    let s := cmdS cmd
    (s.core 0).copyq = [cmd] ∧ EngineFree s 0 cmd.ctx ∧ cmd.gone = [] ∧ cmd.cw = 0 ∧ cmd.d 4 = 8 ∧ cmd.d 5 = 1 ∧ cmd.d 6 = 1 ∧
      InPage s (.port cmd.ctx 0 .C) (BitVec.ofNat 64 (cmd.d64 0)) 8 .r 0x40100 ∧ InPage s (.port cmd.ctx 0 .C) (BitVec.ofNat 64 (cmd.d64 2)) 8 .w 0x40200 ∧
      QueueRoom s 0 :=
  ⟨rfl, by unfold EngineFree; decide +kernel, by decide +kernel, by decide +kernel, by decide +kernel, by decide +kernel, by decide +kernel,
    inPage_of (leaf := 0x4001F) (by decide +kernel),
    inPage_of (leaf := 0x4001F) (by decide +kernel),
    by unfold QueueRoom; decide +kernel⟩
theorem only_of {α : Type} (a : α) (k : Nat) : ([a][k]?.orElse fun _ => [a].head?) = some a := by cases k <;> rfl
/-- One step of the copy engine on a state whose one command is `q`. -/
theorem copyRun_of {s : State} {q : CopyCmd} {p : State → Bool} (hr : s.runnable 0 = [q]) (hc : s.copyCancelled 0 q = false)
    (h : p (((s.setCopy 0 { q with st := .running, fault := none }).copyStep 0 { q with st := .running, fault := none }).kickCopies 0) = true) :
    gives (.copyRun 0) s p = true := by
  simpa only [gives, Machine.exec, execCopyRun, hr, only_of, hc, Bool.false_and, Bool.false_eq_true, if_false] using h
theorem test_copy_run : gives (.copyRun 0) (cmdS cmd) (fun u => (u.core 0).copyq.map CopyCmd.done = [8] &&
    numAt u none 0x40200 16 = 0x0102030405060708 && u.agenda.contains (.copyRun 0)) = true :=
  copyRun_of (q := cmd) (by decide +kernel) (by decide +kernel) (by decide +kernel)
/-- The next step of the same command ends it: with no completion word, and with one at 0x300. -/
def doneCmd (cw : Word) : CopyCmd :=
  { cmd with st := .running, done := 8, desc := [0x100, 0, 0x200, 0, 8, 1, 1, 0, 0, 0, 0, 0, cw.setWidth 32, 0, 77, 0] }
theorem witness_CopyEnds :
    (cmdS (doneCmd 0)).copyCancelled 0 (doneCmd 0) = false ∧ (doneCmd 0).total ≤ (doneCmd 0).done ∧ (doneCmd 0).cw = 0 ∧
      (doneCmd 0x300).cw = 0x300 ∧ (doneCmd 0x300).cwsp = false ∧
      InPage (cmdS (doneCmd 0x300)) (.port 0 0 .C) (BitVec.ofNat 64 (doneCmd 0x300).cw) 8 .w 0x40300 :=
  ⟨by decide +kernel, by decide +kernel, by decide +kernel, by decide +kernel, rfl, inPage_of (leaf := 0x4001F) (by decide +kernel)⟩
theorem test_copy_ends : gives (.copyRun 0) (cmdS (doneCmd 0x300)) (fun u => (u.core 0).copyq = [] && numAt u none 0x40300 16 = 77) = true :=
  copyRun_of (q := doneCmd 0x300) (by decide +kernel) (by decide +kernel) (by decide +kernel)
/-- COPYX and COPYC of one pair of groups of 16-bit elements (08 R231, R232): dense at 0x100, values at 0x200, metadata at 0x280. -/
def pairCmd (k : CopyKind) (f : Fmt) : CopyCmd :=
  { cmd with kind := k, fmt := f, desc := [0x100, 0, 0x200, 0, 8, 1, 0, 0, 0, 0, 0x280, 0, 0, 0, 0, 0] }
def pairS (k : CopyKind) (cells : List (Nat × Nat)) : State :=
  let s := withVm (withLaunch (onF (descT 8))) cells
  s.setCore 0 { s.core 0 with copyq := [pairCmd k .f16] }
def expS : State := pairS .expand [(0x40200, 0x4444333322221111), (0x40280, 0x8D)]
def compS : State := pairS .compact [(0x40100, 0xBC003C0040000001), (0x40108, 0x000080007C018001)]
theorem witness_StructuredCopies :
    structBytes .f16 = some 2 ∧ (pairCmd .expand .f16).d 4 = 8 ∧ (pairCmd .expand .f16).d 5 = 1 ∧ Apart 0x40100 16 0x40200 8 ∧
      Apart 0x40100 16 0x40280 1 ∧ Apart 0x40200 8 0x40280 1 ∧ EngineFree expS 0 0 ∧
      InPage expS (.port 0 0 .C) 0x100 16 .w 0x40100 ∧ InPage expS (.port 0 0 .C) 0x200 8 .r 0x40200 ∧
      InPage expS (.port 0 0 .C) 0x280 1 .r 0x40280 ∧ InPage compS (.port 0 0 .C) 0x100 16 .r 0x40100 ∧
      InPage compS (.port 0 0 .C) 0x200 8 .w 0x40200 ∧ InPage compS (.port 0 0 .C) 0x280 1 .w 0x40280 := by
  refine ⟨rfl, by decide +kernel, by decide +kernel, by unfold Apart; decide, by unfold Apart; decide, by unfold Apart; decide,
    by unfold EngineFree; decide +kernel, ?_, ?_, ?_, ?_, ?_, ?_⟩ <;> exact inPage_of (leaf := 0x4001F) (by decide +kernel)
theorem test_copyx_run : gives (.copyRun 0) expS (fun u => numAt u none 0x40100 8 = 0x2222000011110000 &&
    numAt u none 0x40108 8 = 0x0000444400003333 && (u.core 0).copyq.map CopyCmd.done = [16]) = true :=
  copyRun_of (q := pairCmd .expand .f16) (by decide +kernel) (by decide +kernel) (by decide +kernel)
/-- Of 2^-24, 2, 1 and -1 the greatest are 2 and, of the equal ones, the lower: positions 1 and 2; of -2^-24, a NaN, -0 and 0 they are
positions 0 and 1. -/
theorem test_copyc_run : gives (.copyRun 0) compS (fun u => numAt u none 0x40200 8 = 0x7C0180013C004000 &&
    numAt u none 0x40280 1 = 0x49 && (u.core 0).copyq.map CopyCmd.done = [9]) = true :=
  copyRun_of (q := pairCmd .compact .f16) (by decide +kernel) (by decide +kernel) (by decide +kernel)
theorem test_copy_engine :
    gives (.operandsConsumed 0 0 5) (cmdS { cmd with kind := .toTile, st := .tileWait, desc := [0, 0, 5], buf := [(7, false), (9, false)] })
      (fun u => (u.core 0).copyq = [] && (((u.core 0).ctx 0).tile 5) = ⟨[(0, 7), (1, 9)], [], false, 1⟩) = true ∧
    gives (.peerWriteUndeliverable 0) (cmdS { cmd with st := .peerWait }) (fun u => (u.core 0).copyq.map CopyCmd.st = [.stopped] &&
      (u.cluster 0).trapq.map (fun r => (r.kind, r.cause, r.aux)) = [(2, cMemPoison, 3)]) = true := by decide +kernel
/-- TOKEN_WAIT_END: a fifth command; a header whose token is free, and one whose token is busy. -/
def hdrT : Thread :=
  { descT 8 with st := .wait, why := .header, pc := 0, clause := some { cl3 0 with hdr := 0x0000000000000008#64 ||| (cl3 0).hdr, begun := false } }
theorem test_token_wait_end :
    gives (.tokenWaitEnd 0 0) (onF { fib with st := .wait, why := .fifth }) (fun u => u.fibre? 0 0 = some fib) = true ∧
    gives (.tokenWaitEnd 0 0) (onF { hdrT with clause := some { cl3 0 with begun := false } }) (fun u =>
      (u.fibre? 0 0).map (fun v => (v.st, v.pc, v.clause.map Clause.begun)) = some (.ready, 8, some true)) = true := by decide +kernel
/-- StreamsAndJoins. -/
def forkI : ForkO := ⟨al, gr 6, 8, 2⟩
def forkT : Thread := { fib with regs := pairAt 6 0x300 ++ pairAt 8 0x11 ++ pairAt 10 0x22, inst := some 0 }
def forkS (f : Option Bool) : State :=
  let s := withLaunch (onF forkT)
  s.setCore 0 { s.core 0 with insts := [(0, { tile0 with fork := f })] }
def reqF : ForkReq := ⟨0, 0, 0, 0x300, [0x11, 0x22], 0, 0⟩
theorem witness_Streams :
    Commands (forkS none) 0 0 forkT al true (forkT.src 0 (gr 6) true :: forkOpds forkI forkT) ∧ forkT.inst = some 0 ∧
      Tab.find? ((forkS none).core 0).insts 0 = some { tile0 with fork := none } ∧ EngineFree s0 0 0 ∧
      (let s := s0.setCore 0 { Core.reset with forkq := [reqF] }; (s.core 0).stream = none ∧ (s.core 0).forkq = [reqF]) ∧
      OnStream (onS strm) 0 strm ∧ strm.th.guard al = .t :=
  ⟨⟨⟨rfl, rfl, rfl⟩, rfl, fun _ => by decide +kernel, by decide +kernel⟩, rfl, by decide +kernel, by unfold EngineFree; decide +kernel,
    ⟨rfl, rfl⟩, ⟨rfl, rfl, rfl, rfl, rfl⟩, rfl⟩
theorem test_streams :
    gives (.fork forkI) (forkS none) (fun u => (u.core 0).forkq.map (fun r => (r.entry, r.args)) = [(0x300, [0x11, 0x22])] &&
      (u.fibre? 0 0).map Thread.pc = some 16) = true ∧
    gives (.fork forkI) (forkS (some true)) (fun u => (u.fibre? 0 0).map (fun v => (v.st, v.why, v.pc)) = some (.wait, .fork, 8)) = true ∧
    gives (.streamStart 0) (s0.setCore 0 { Core.reset with forkq := [reqF] }) (fun u => (u.core 0).forkq = [] &&
      ((u.core 0).stream.map fun x => (x.th.pc, x.th.reg 0, x.th.reg 1)) = some (0x300, .u 0x11 false, .u 0x22 false)) = true ∧
    gives (.rdzv ⟨al⟩) (onS strm) (fun u => ((u.core 0).stream.map fun x => x.th.pc) = some 16) = true ∧
    gives (.rdzv ⟨al⟩) (forkS (some true)) (fun u => (u.fibre? 0 0).map (fun v => (v.st, v.pc)) = some (.ready, 16)) = true ∧
    gives (.rdzv ⟨al⟩) (forkS (some false)) (fun u => (u.fibre? 0 0).map (fun v => (v.st, v.why, v.pc)) = some (.wait, .rdzv, 8)) = true := by
  decide +kernel
/-- LaunchAndCancel: a record of a launch of 8 by 2 by 1 tiles at 0x800 and object 1. -/
def recCells : List (Nat × Nat) :=
  [(0x40800, 0x0000000500000300), (0x40808, 0x0000000000000001), (0x40810, 0x0000000200000008), (0x40818, 0x0000000400000001),
    (0x40820, 0x0000000100000002), (0x40830, 0x0020004000000000)]
def launT : Thread := { fib with regs := pairAt 6 0x800 ++ [(4, .u 5 false)], inst := some 0 }
def ctxL : Ctx := { ctx0 with objs := [⟨1, 0, 0x1000, 0, 0⟩] }
def launS (cells : List (Nat × Nat)) (q : Nat) : State :=
  let s := withVm (withLaunch (onF launT)) cells
  { s.setCore 0 { s.core 0 with pendq := List.replicate q ⟨lrec, 0, 0, 0, [], []⟩ } with ctxs := [(0, ctxL)] }
def launI (nb : Bool) : LaunchO := ⟨al, nb, 2, gr 6⟩
theorem witness_Launch :
    let s := launS recCells 0
    Commands s 0 0 launT al false [launT.src 0 (gr 6) true] ∧ InPage s (.port 0 0 .F) 0x800 128 .r 0x40800 ∧ s.ctx? 0 = some ctxL ∧
      recordOk ctxL (s.readBytes none 0x40800 128) = true ∧ recordOk ctxL ((launS [] 0).readBytes none 0x40800 128) = false ∧
      Commands s 0 0 launT al false [launT.src 0 (gr 4) false] :=
  ⟨⟨⟨rfl, rfl, rfl⟩, rfl, nofun, by decide +kernel⟩,
    inPage_of (leaf := 0x4001F) (by decide +kernel), rfl,
    by decide +kernel, by decide +kernel, ⟨⟨rfl, rfl, rfl⟩, rfl, nofun, by decide +kernel⟩⟩
theorem test_launch :
    gives (.launch (launI true)) (launS recCells 3) (fun u => (u.core 0).pendq.length = 4 && (((u.core 0).pendq.getD 3 ⟨lrec, 1, 0, 0, [], []⟩).lr.gx) = 8 &&
      (u.fibre? 0 0).map (fun v => (v.st, v.pc, v.pred 2)) = some (.ready, 16, .t)) = true ∧
    gives (.launch (launI true)) (launS recCells 4) (fun u => (u.fibre? 0 0).map (fun v => (v.st, v.pc, v.pred 2)) = some (.ready, 16, .f)) = true ∧
    gives (.launch (launI false)) (launS recCells 4) (fun u => (u.fibre? 0 0).map (fun v => (v.st, v.pc)) = some (.launchWait, 16)) = true ∧
    gives (.launch (launI false)) (launS [] 0) (fun u => (u.fibre? 0 0).map (fun v => (v.st, v.pc, v.lcause)) = some (.parked, 8, cLaunchRecord))
      = true := by decide +kernel
theorem test_cancel :
    let w : Thread := { fib with why := .cancel 5 [193], st := .wait }
    gives (.cancel ⟨al, gr 4⟩) (launS [] 0) (fun u => (u.fibre? 0 0).map (fun v => v.why) = some (.cancel 5 (List.range 194)) &&
      u.agenda.length = 194) = true ∧
    gives (.cancelBroadcast 0 0 5 0) s0 (fun u => (u.die 0).cancelled = [(0, 5)]) = true ∧
    gives (.cancelAcknowledgement 0 193 0 5 0) (onF w) (fun u => (u.fibre? 0 0).map (fun v => (v.st, v.why)) = some (.ready, .none)) = true := by
  decide +kernel
/-- CounterWaitsAndSwaps: a counter of zero and of 1 at 0x100; a fibre that waits on one. -/
def waitcT : Thread := { fib with regs := pairAt 6 0x100 ++ [(4, .u 1 false)], inst := some 0 }
def waitcS (v : Nat) : State := withVm (withLaunch (onF waitcT)) [(0x40100, v)]
def waitsC : Thread := { waitcT with st := .wait, why := .waitc 1 0x40100 0x100 0, pc := 16 }
def waitsS (v : Nat) : State :=
  { withVm (withLaunch (onF waitsC)) [(0x40100, v)] with launches := [(0, { launch0 with lr := { lrec with carry := 1 } })] }
theorem witness_CounterWaits :
    Commands (waitcS 0) 0 0 waitcT al false [waitcT.src 0 (gr 6) true, waitcT.src 0 (gr 4) false] ∧
      InPage (waitcS 0) (.port 0 0 .F) 0x100 8 .r 0x40100 ∧ numAt (waitcS 0) none 0x40100 8 = 0 ∧ numAt (waitcS 1) none 0x40100 8 ≠ 0 ∧
      (waitsS 0).fibre? 0 0 = some waitsC ∧ (waitsS 0).badRead none 0x40100 8 = false ∧ s0.swapChoice 0 = none ∧
      (∃ r, (waitsS 1).swapRecord 0 waitsC true = some r) ∧
      ((waitsS 1).core 0).anyToken 1 = false :=
  ⟨⟨⟨rfl, rfl, rfl⟩, rfl, nofun, by decide +kernel⟩,
    inPage_of (leaf := 0x4001F) (by decide +kernel), by decide +kernel,
    by decide +kernel, rfl, by decide +kernel, by decide +kernel, Option.isSome_iff_exists.mp (by decide +kernel), by decide +kernel⟩
theorem test_counter_waits :
    gives (.waitc ⟨al, gr 6, gr 4⟩) (waitcS 0) (fun u => (u.fibre? 0 0).map (fun v => (v.st, v.pc)) = some (.ready, 16)) = true ∧
    gives (.waitc ⟨al, gr 6, gr 4⟩) { waitcS 1 with ctxs := [(0, { ctx0 with swapDelay := 9 })] } (fun u =>
      (u.fibre? 0 0).map (fun v => (v.st, v.pc, v.why)) = some (.wait, 16, .waitc 1 0x40100 0x100 0) &&
      u.agenda.contains (.swapDelayExpiry 0 0) && u.agenda.contains (.waitcResume 0 0)) = true ∧
    gives (.waitc ⟨al, gr 6, gr 4⟩) { waitcS 1 with launches := [(0, { launch0 with lr := { lrec with carry := 1 } })] } (fun u =>
      (u.fibre? 0 0).map Thread.st = some .swapped && u.agenda.contains (.waitcResume 0 0)) = true ∧
    gives (.waitcResume 0 0) (waitsS 0) (fun u => (u.fibre? 0 0).map (fun v => (v.st, v.pc, v.why)) = some (.ready, 16, .none)) = true ∧
    gives (.waitcResume 0 0) (waitsS 1) (fun u => u = { waitsS 1 with agenda := [.waitcResume 0 0] }) = true ∧
    gives (.swapDelayExpiry 0 0) (waitsS 1) (fun u => (u.fibre? 0 0).map Thread.st = some .swapped &&
      (Tab.find? (u.core 0).swaps 0).isSome) = true := by decide +kernel
/-- RESOURCE_SWAP_OUT: a fibre that waits on a word beside one in RESOURCE_WAIT. -/
def swapS : State :=
  let s := withVm (withLaunch (onF waitsC)) []
  s.setCore 0 { s.core 0 with fibres := [(0, waitsC), (1, { fib with uid := 2, st := .resourceWait, why := .resource })] }
theorem witness_SwapChoice : ∃ r, swapS.swapChoice 0 = some r := Option.isSome_iff_exists.mp (by decide +kernel)
theorem test_resource_swap_out : gives (.resourceSwapOut 0) swapS (fun u => (u.fibre? 0 0).map Thread.st = some .swapped &&
    (Tab.find? (u.core 0).swaps 0).isSome) = true := by decide +kernel

/-! ### The matrix engine -/

/-- A stream whose m0 and m1 hold `a` and `b`, on core 0 with tiles `ts` and configuration `f`. -/
def strmM (a b : Word) : Stream := { strm with th := { strm.th with regs := [(0, .u a false), (1, .u b false)] } }
def matS (a b : Word) (k : CoreCtx) : State :=
  let s := withVm (onS (strmM a b)) [(0x40100, 0x1122334455667788), (0x40120, 0x99)]
  s.setCore 0 { s.core 0 with cctx := [(0, k)] }
/-- Tile n: one f32 1.5 at (0, 1), and scale byte 0 is 0x21. -/
def tA : Tile := ⟨[(6, 0xC0), (7, 0x3F)], [(0, 0x21)], false, 4⟩
def kA : CoreCtx := { CoreCtx.reset with tiles := [(3, tA), (4, { tA with version := 0 })] }
def elemOf (u : State) (n i j : Nat) : Nat := (((u.core 0).ctx 0).tile n).elem 4 i j
theorem onStrm (a b : Word) (k : CoreCtx) : Streams (matS a b k) 0 (strmM a b) al := ⟨⟨rfl, rfl, rfl, rfl, rfl⟩, rfl⟩
theorem witness_TileState :
    TCfg.ofBlock ((strmM 0x8888000 0).m 0) = some ⟨8, 8, 8, 8, false, false, false, false⟩ ∧
      ((State.kOf (matS 0 0 kA) 0 (strmM 0 0)).tile 3).poison = false ∧ (∀ o ∈ kA.ops, o.running = false) := by decide +kernel
theorem test_tile_state :
    gives (.tcfg ⟨al, 0⟩) (matS 0x8888000 0 kA) (fun u => ((u.core 0).ctx 0).cfg = ⟨8, 8, 8, 8, false, false, false, false⟩ &&
      (((u.core 0).ctx 0).tile 3).bytes = []) = true ∧
    gives (.tlatch ⟨al, 3⟩) (matS 0 0 { kA with resid := [(9, 8), (4, 4)] }) (fun u => ((u.core 0).ctx 0).resid = [(4, 4), (3, 4)]) = true ∧
    gives (.mstat ⟨al, gd 4, true⟩) (matS 0 0 { kA with rcnf := true, ops := [⟨[], none, false, true, false, false, 0⟩] }) (fun u =>
      ((u.core 0).stream.map fun x => x.th.reg 4) = some (.u 3 false) && !((u.core 0).ctx 0).rcnf && !((u.core 0).ctx 0).aovf) = true ∧
    gives (.tileInstructionCompletion 0 0) (s0.setCore 0 { Core.reset with cctx := [(0, { kA with ops := [⟨[], none, true, false, false, false, 0⟩] })] })
      (fun u => ((u.core 0).ctx 0).rcnf && ((u.core 0).ctx 0).ops = []) = true := by decide +kernel
/-- TFILL and TDRAIN: row 31, chunk 3; and the scale chunk. -/
def fillT : Thread := { fib with regs := [(4, .u 31 false), (8, .u 0x11223344 false)], inst := some 0 }
def fillS (t : Thread) : State := let s := withLaunch (onF t); s.setCore 0 { s.core 0 with cctx := [(0, kA)] }
theorem witness_Fill :
    OnRange (fillS fillT) 0 0 fillT ∧ fillT.box.count = 1 ∧ fillT.guard al = .t ∧ (fillT.src 0 (gr 4) false).clean = true ∧
      ((fillT.src 0 (gr 4) false).val 0).toNat < 32 ∧ (∀ k, k < 8 → (fillT.read32 (8 + k)).clean = true) ∧ Settled (fillS fillT) :=
  ⟨⟨rfl, rfl, rfl, rfl, by decide⟩, rfl, rfl, by decide +kernel, by decide +kernel, by decide +kernel,
    ⟨by decide +kernel, by intro c e h; cases h; decide +kernel⟩⟩
theorem test_fill :
    gives (.tfill ⟨al, 8, gr 4, 5, 3⟩) (fillS fillT) (fun u => (((u.core 0).ctx 0).tile 5).bytes =
      [(4064, 0x44), (4065, 0x33), (4066, 0x22), (4067, 0x11)] && (u.fibre? 0 0).map Thread.pc = some 16) = true ∧
    gives (.tdrain ⟨al, 8, gr 6, 3, 0⟩) (fillS fillT) (fun u =>
      (u.fibre? 0 0).map (fun v => (v.reg 8, v.reg 9)) = some (.u 0 false, .u 0x3FC00000 false)) = true ∧
    gives (.tdrain ⟨al, 8, gr 6, 3, 4⟩) (fillS fillT) (fun u => (u.fibre? 0 0).map (fun v => v.reg 8) = some (.u 0x21 false)) = true := by
  decide +kernel
/-- While a split MMA into tile 3 is under way, TFILL and TDRAIN wait. -/
def formS : State :=
  let s := withLaunch (onF fillT)
  s.setCore 0 { s.core 0 with cctx := [(0, { kA with ops := [⟨[1], some 3, false, false, false, true, 0⟩] })] }
theorem test_fill_waits : ((formS.core 0).ctx 0).forming 3 = true ∧ ((fillS fillT).core 0).ctx 0 = kA ∧ kA.forming 3 = false ∧
    gives (.tfill ⟨al, 8, gr 4, 3, 3⟩) formS (fun u => u = formS) = true ∧ gives (.tdrain ⟨al, 8, gr 6, 3, 0⟩) formS (fun u => u = formS) = true := by
  decide +kernel
/-- TileMoves: a row of two 4-byte elements at 0x100. -/
def moveHi : Word := 0x0000020100000000
def memI (sp : Bool) : TmemO := ⟨al, 3, 0, sp, 2⟩
theorem witness_Moves :
    let s := matS 0x100 moveHi kA
    let d := TDesc.of ((strmM 0x100 moveHi).m 0) ((strmM 0x100 moveHi).m 1) 2
    s.tmemBad (strmM 0x100 moveHi).th (memI false) ((strmM 0x100 moveHi).m 1) d = none ∧ d.rows = 1 ∧ d.bytes = 8 ∧
      InPage s (.port 0 0 .X) ((strmM 0x100 moveHi).m 0) 8 .r 0x40100 ∧ InPage s (.port 0 0 .X) ((strmM 0x100 moveHi).m 0) 8 .w 0x40100 ∧
      InPage s (.port 0 0 .X) ((strmM 0x100 moveHi).m 0) 32 .r 0x40100 :=
  ⟨by decide +kernel, by decide +kernel, by decide +kernel,
    inPage_of (leaf := 0x4001F) (by decide +kernel),
    inPage_of (leaf := 0x4001F) (by decide +kernel),
    inPage_of (leaf := 0x4001F) (by decide +kernel)⟩
theorem test_moves :
    let s := matS 0x100 moveHi kA
    gives (.tzero ⟨al, 3⟩) s (fun u => ((u.core 0).ctx 0).tile 3 = ⟨[], [], false, 5⟩) = true ∧
    gives (.ttrn ⟨al, 6, 3, 2⟩) s (fun u => elemOf u 6 1 0 = 0x3FC00000 && elemOf u 6 0 1 = 0) = true ∧
    gives (.tload (memI false)) s (fun u => elemOf u 3 0 0 = 0x55667788 && elemOf u 3 0 1 = 0x11223344 && elemOf u 3 1 0 = 0) = true ∧
    gives (.tstore (memI false)) s (fun u => numAt u none 0x40100 16 = 0x3FC0000000000000) = true ∧
    gives (.tscl (memI false)) s (fun u => (((u.core 0).ctx 0).tile 3).scale.take 2 = [(0, 0x88), (1, 0x77)] && elemOf u 3 0 1 = 0x3FC00000)
      = true := by decide +kernel
/-- TileArithmetic: a doubling, a difference, and one integer product. -/
def kI : CoreCtx :=
  { CoreCtx.reset with
    cfg := ⟨0, 0, 0, 0, true, false, false, false⟩
    tiles := [(1, ⟨[(0, 0xFE)], [], false, 0⟩), (2, ⟨[(0, 5)], [], false, 0⟩), (3, ⟨[(0, 7)], [], false, 0⟩)] }
def mmaI : MmaO := ⟨al, 9, 1, 2, 3, 0, 0⟩
theorem witness_Arith :
    fmtOf4 10 = some .f32 ∧ ((State.kOf (matS 0 0 kA) 0 (strmM 0 0)).tile 3).poison = false ∧ mmaFormats mmaI kI.cfg = some (.i8, .i8) ∧
      maskOf ((strmM 0x202020 0).m 0) = some (32, 32, 32) ∧ kI.hold = none ∧
      (∀ n ∈ [mmaI.a.toNat, mmaI.b.toNat, mmaI.c.toNat, mmaI.d.toNat], (kI.tile n).poison = false) := by decide +kernel
theorem test_tscale : gives (.tscale ⟨al, 6, 3, 1, 10⟩) (matS 0 0 kA) (fun u => elemOf u 6 0 1 = 0x40400000) = true := by decide +kernel
theorem test_tscale_q4 :
    gives (.tscale ⟨al, 6, 3, 1, 14⟩) (matS 0 0 kA) (fun u => (((u.core 0).ctx 0).tile 6).scale.take 2 = [(0, 0x22), (1, 1)]) = true := by decide +kernel
theorem test_tadd : gives (.tadd ⟨al, 6, 3, 4, false, false⟩) (matS 0 0 kA) (fun u => elemOf u 6 0 1 = 0x40400000) = true := by decide +kernel
theorem test_mma : gives (.mma mmaI) (matS 0x202020 0 kI) (fun u => elemOf u 9 0 0 = 0xFFFFFFFD && elemOf u 9 0 1 = 0) = true := by
  decide +kernel
/-- A split MMA: with SG 1 it has two stages; it stops after the first, and the second leaves what one piece leaves. -/
def kF : CoreCtx :=
  { CoreCtx.reset with
    cfg := ⟨0, 0, 0, 0, true, true, false, false⟩
    tiles := [(1, ⟨[(0, 0xFE), (20, 3)], [], false, 0⟩), (2, ⟨[(0, 5), (2560, 7)], [], false, 0⟩), (3, ⟨[(0, 7)], [], false, 0⟩)] }
def mmaF : MmaO := ⟨al, 9, 1, 2, 3, 0, 0x0020⟩
def splitX : Stream := strmM 0x202020 0
def splitS : State := { matS 0x202020 0 kF with slow := true }
/-- The stream and the state after the first stage. -/
def midX : Stream := (match Machine.exec (.mma mmaF) splitS with
  | .next u => (u.core 0).stream
  | _ => none).getD splitX
def midS (slow : Bool) : State := (match Machine.exec (.mma mmaF) splitS with
  | .next u => { u with slow := slow }
  | _ => splitS)
theorem witness_SplitMma :
    mmaFormats mmaF kF.cfg = some (.i8, .i8) ∧ mmaStages mmaF kF.cfg .i8 .i8 = 2 ∧ maskOf (splitX.m 0) = some (32, 32, 32) ∧
      splitS.slow = true ∧ splitX.mma = none ∧ (midX.mma.map fun r => (r.stage, r.a, r.b)) = some (1, kF.tile 1, kF.tile 2) ∧
      ((midS true).core 0).stream = some midX := by decide +kernel
theorem test_split_mma : gives (.mma mmaF) splitS (fun u => ((u.core 0).ctx 0).tiles = kF.tiles &&
    (((u.core 0).ctx 0).ops.map TileOp.running) = [true] && ((u.core 0).stream.map fun x => x.th.pc) = some 8) = true := by decide +kernel
theorem test_split_mma_ends : gives (.mma mmaF) (midS true) (fun u => elemOf u 9 0 0 = 18 &&
    ((u.core 0).stream.map fun x => (x.th.pc, x.mma)) = some (16, none)) = true := by decide +kernel
/-- Rewriting: default rules on a management core; a misaligned image; rewriting off. -/
def planS (p : List (Word × PlanItem)) : State :=
  let x := { strm with plan := p, th := { strm.th with clause := some { cl3 1 with words := [((encode (.tzero ⟨al, 3⟩)).getD 0), 0, 0] } } }
  { withVm (onS x) [] with turn := .event 0 }
theorem witness_Rewriting :
    Acts (onM mc1) mc1.th al ∧ takesU mc1.th (gd 4) (.w32 false) = true ∧ Settled (onM mc1) ∧ (withVm (onM mc1) []).ctx? 0 = some ctx0 ∧
      (∃ x, ((planS []).core 0).stream = some x ∧ x.planned = none ∧ x.th.clause ≠ none) ∧
      (∃ x, ((planS [(8, .drop 8)]).core 0).stream = some x ∧ x.planned = some (.drop 8)) :=
  ⟨⟨rfl, rfl⟩, by decide +kernel, ⟨by decide +kernel, nofun⟩, rfl, ⟨_, rfl, rfl, by decide⟩, ⟨_, rfl, rfl⟩⟩
theorem test_rewriting :
    gives (.rwload ⟨al, gd 4, gr 6, true⟩) (withVm (onM mc1) []) (fun u => (u.ctx? 0).map (fun k => k.rules.length) = some 12 &&
      (u.mc 0).th.reg 4 = .u 0 false) = true ∧
    gives (.rwload ⟨al, gd 4, gr 1, false⟩) (matS 0x100 8 kA) (fun u => ((u.core 0).stream.map fun x => x.th.reg 4) = some (.u 5 false)) = true ∧
    gives (.rewriteWindow 0) (planS []) (fun u => (u.core 0).stream.bind Stream.planned = some .pass) = true ∧
    gives (.rewriteWindow 0) (planS [(8, .drop 8)]) (fun u => ((u.core 0).stream.map fun x => x.th.pc) = some 16) = true ∧
    gives (.rewriteWindow 0) (planS [(8, .emit 0 8 [.tzero ⟨.always, 3⟩] true [])]) (fun u =>
      (((u.core 0).ctx 0).tile 3).version = 1 && ((u.core 0).stream.map fun x => x.th.pc) = some 16) = true := by decide +kernel
/-- RWLOAD of an image of one rule (12 R292): the first default rule. -/
def imageS : State :=
  let es := ((defaultRules.getD 0 []).zipIdx.map fun (wk : Word × Nat) => (0x40140 + 8 * wk.2, wk.1.toNat))
  let crc := (crc32 ((defaultRules.getD 0 []).flatMap fun w => leBytes 8 w.toNat)).toNat
  withVm (onS (strmM 0x100 0)) ((0x40100, 0x00010001 + 2 ^ 32 * crc) :: es)
theorem witness_RuleImage :
    fieldAt (imageS.readBytes none 0x40100 64) 0 1 = 1 ∧ fieldAt (imageS.readBytes none 0x40100 64) 2 2 = 1 ∧
      (crc32 (imageS.readBytes none 0x40140 64)).toNat = fieldAt (imageS.readBytes none 0x40100 64) 4 4 ∧
      (entriesOf 1 (imageS.readBytes none 0x40140 64)).all entryOk = true := by decide +kernel
theorem test_rule_image : gives (.rwload ⟨al, gd 4, gr 0, false⟩) imageS (fun u => (u.ctx? 0).map (fun k => k.rules) = some [defaultRules.getD 0 []] &&
    ((u.core 0).stream.map fun x => x.th.reg 4) = some (.u 0 false)) = true := by decide +kernel
/-- 12 R298: the rule's own window: entry 0 takes the two transposes and keeps the first, entry 8 the scale and the product. -/
def rwCtx : Ctx := { ctx0 with rwEn := true, rwR := true, rules := defaultRules }
def rwStream (l : List Instr) : State :=
  let x := { strm with th := { strm.th with regs := [(2, .u 0x202020 false)], clause := some { cl3 1 with words := l.map fun i => (encode i).getD 0 } } }
  { withVm (onS x) [] with ctxs := [(0, rwCtx)] }
def rwWin (l : List Instr) : List WIns := (rwStream l).window (State.kOf (rwStream l) 0 strm).cfg 17 8 ⟨[], [], []⟩ [] none
def rw298 : List Instr :=
  [.ttrn ⟨al, 1, 0, 1⟩, .ttrn ⟨al, 0, 1, 1⟩, .tscale ⟨al, 2, 0, 2, 8⟩, .mma ⟨al, 3, 2, 4, 3, 2, 0x0810⟩, .tzero ⟨al, 2⟩]
theorem test_rewrite_r298 : planWindow rwCtx (State.kOf (rwStream rw298) 0 strm).cfg 8 (rwWin rw298) =
    [(8, .drop 8), (16, .emit 0 8 [.ttrn ⟨al, 1, 0, 1⟩] false [0]), (24, .drop 24),
      (32, .emit 8 24 [.mma ⟨al, 3, 0, 4, 3, 2, 0x0810⟩, .tscale ⟨al, 3, 3, 2, 10⟩] false [0, 4]), (40, .pass)] := by decide +kernel
/-- Entry 5: the zero tile goes into the flag, and the TZERO is dropped where the tile is overwritten. -/
def rw5 : List Instr := [.tzero ⟨al, 5⟩, .mma ⟨al, 6, 1, 2, 5, 2, 0x0010⟩, .ttrn ⟨al, 5, 1, 1⟩]
theorem test_rewrite_entry5 : planWindow rwCtx (State.kOf (rwStream rw5) 0 strm).cfg 8 (rwWin rw5) =
    [(8, .drop 8), (16, .emit 5 8 [.mma ⟨al, 6, 1, 2, 5, 2, 0x0810⟩] false [1, 2]), (24, .pass)] := by decide +kernel
/-- The window that a stream at its first word opens, and the rule that takes it (Rewriting). -/
theorem witness_RewriteRules :
    rwWin rw298 ≠ [] ∧ (tryRule rwCtx (State.kOf (rwStream rw298) 0 strm).cfg (defaultRules.getD 0 []) (rwWin rw298)).isSome = true ∧
      rwCtx.rwEn = true ∧ rwCtx.rules[0]? = some (defaultRules.getD 0 []) ∧
      (tryRule rwCtx (State.kOf (rwStream rw298) 0 strm).cfg (defaultRules.getD 8 []) ((rwWin rw298).drop 2)).isSome = true ∧
      ruleKeep (defaultRules.getD 8 []) = 0 ∧ ruleClass (defaultRules.getD 8 []) = 1 ∧
      (∃ x, ((rwStream rw298).core 0).stream = some x ∧ x.planned = none ∧ x.th.clause ≠ none ∧ x.th.st = .ready ∧ (rwWin rw298).map WIns.pc = [8, 16, 24, 32, 40] ∧
        x.th.pc = 8) := by
  refine ⟨by decide +kernel, by decide +kernel, rfl, rfl, by decide +kernel, by decide +kernel, by decide +kernel, _, rfl, rfl, by decide, rfl,
    by decide +kernel, rfl⟩

/-! ### Management cores -/

/-- A management core with g4 = `a` and the pair g6 = `b`, on a machine with context 0 and fibre `f` at (0, 0). -/
def mcR (a b : Word) : Mc := { mc1 with hvec := 0x1000, th := { mc1.th with regs := (4, .u a false) :: pairAt 6 b } }
def mcS (m : Mc) (f : Thread) : State := withVm { (onF f).setMc 0 m with turn := .mc 0 } []
def parkT : Thread := { fib with st := .parked, lcause := cPageFault, regs := [(4, .u 9 false)] }
theorem onMcR (a b : Word) (f : Thread) : OnMc (mcS (mcR a b) f) 0 (mcR a b).th := ⟨rfl, rfl, rfl, rfl, rfl⟩
/-- ControlRegisters: KNIT of the selected context, MC_STATUS, and the write that leaves the upper half. -/
def csrI (n : BitVec 12) (w : Bool) : CsrO := ⟨al, gd 8, gr 6, n, w⟩
theorem witness_Csr :
    let s := mcS (mcR 0 3) fib
    csrEffect (.csrs (csrI 0x10 true)) = some (csrI 0x10 true, some fun old x => old ||| x) ∧ Acts s (mcR 0 3).th al ∧
      s.csrBy.mc.isSome = true ∧ csrListed s.csrBy.mc.isSome 0x10 = true ∧ s.csrGet s.csrBy 0x10 = some 64 ∧
      csrListed s.csrBy.mc.isSome 0x203 = true ∧ s.csrGet s.csrBy 0x203 = some 0x1000 ∧ takesU (mcR 0 3).th (gd 8) (rwOf true) = true ∧ Settled s :=
  ⟨rfl, ⟨rfl, rfl⟩, by decide +kernel, by decide +kernel, by decide +kernel, by decide +kernel, by decide +kernel, by decide +kernel,
    ⟨by decide +kernel, nofun⟩⟩
theorem test_csr :
    let s := mcS (mcR 0 0x40) fib
    gives (.csrr (csrI 0x203 true)) s (fun u => (u.mc 0).th.reg 8 = .u 0x1000 false && (u.mc 0).hvec = 0x1000) = true ∧
    gives (.csrw (csrI 0x203 true)) s (fun u => (u.mc 0).th.reg 8 = .u 0x1000 false && (u.mc 0).hvec = 0x40) = true ∧
    gives (.csrs (csrI 0x203 true)) s (fun u => (u.mc 0).hvec = 0x1040) = true ∧
    gives (.csrc (csrI 0x10 true)) s (fun u => (u.ctx? 0).map (fun k => k.knit) = some 0) = true ∧
    gives (.csrw (csrI 0x203 false)) (mcS { mcR 0 0x40 with hvec := 0x500001000 } fib) (fun u => (u.mc 0).hvec = 0x500000040) = true := by
  decide +kernel
def rec0 : TrapRec :=
  { seq := 0, peeled := false, kind := 0, cause := cPageFault, handle := 0, pc := 0, addr := 0, aux := 0, index := .none, disp := 0
    rule := 0, tile := 0, core := 0, uid := 1, who := [], fbv := none, replay := false }
def qS (q : List TrapRec) (m : Mc) : State :=
  let s := mcS m parkT
  { s with clusters := [(0, { Cluster.reset with mc := m, trapq := q })] }
/-- The head record declares its agent fatal, which has no access outstanding; there is no head record. -/
theorem witness_HeadQuiet :
    (HeadQuiet (mcS (mcR 0 3) fib) 0) ∧ (HeadQuiet (qS [{ rec0 with disp := 1 }] (mcR 0 0)) 0) ∧
      (qS [{ rec0 with disp := 1 }] (mcR 0 0)).recEntry { rec0 with disp := 1 } = some (0, parkT) ∧
      rising ((qS [{ rec0 with disp := 1 }] (mcR 0 0)).core 0).fibres = true := by
  refine ⟨fun r rest h => (nomatch h), fun r rest h _ o ho => ?_, by decide +kernel, by decide +kernel⟩
  obtain ⟨rfl, rfl⟩ := List.cons.inj (show ({ rec0 with disp := 1 } : TrapRec) :: [] = r :: rest from h)
  exact absurd (show o ∈ ([] : List OutAccess) from ho) (List.not_mem_nil)
theorem test_mc_registers :
    gives (.mcEpc 0 0x48) (mcS (mcR 0 0) fib) (fun u => (u.mc 0).epc = 0x48) = true ∧
    gives (.mcPtroot 0 0x10001) (mcS (mcR 0 0) fib) (fun u => (u.mc 0).root = 1 && (u.mc 0).en) = true ∧
    gives (.trapCause 0 0x100) (qS [rec0] (mcR 0 0)) (fun u => (u.cluster 0).trapq = []) = true ∧
    gives (.trapCause 0 0) (qS [rec0] (mcR 0 0)) (fun u => (u.cluster 0).trapq = [rec0]) = true ∧
    gives (.trapWindowStore 0 0xC0) (qS [rec0] (mcR 0 0)) (fun u => (u.cluster 0).trapq = [{ rec0 with disp := 3 }]) = true := by decide +kernel
/-- CLPM_CTL and CLPM_RETN: a refused GO changes ERR alone; SAVE while the engines run is ignored; RESTORE with RETV 0 sets RERR. -/
theorem test_csr_power :
    let w (n : BitVec 12) (v : Word) (f : Clpm → Bool) : Bool := gives (.csrw ⟨al, nwb, gr 6, n, true⟩) (mcS (mcR 0 v) fib) fun u => f (u.cluster 0).pm
    w 0x300 0x1D (fun p => p = { Clpm.reset with err := true }) = true ∧ w 0x300 0x04 (fun p => p = { Clpm.reset with estop := true }) = true ∧
      w 0x302 1 (fun p => p = Clpm.reset) = true ∧ w 0x302 2 (fun p => p = { Clpm.reset with rerr := true }) = true := by decide +kernel
theorem test_csr_write : gives (.csrWrite 0 0 0x12 77) (mcS (mcR 0 0) fib) (fun u => (u.ctx? 0).map (fun k => k.swapDelay) = some 77) = true := by
  decide +kernel
/-- HandlerSleepTlbi: a trap queued at a clause boundary with IE. -/
def mcB : Mc := { mcR 1 0x40000 with ie := true, th := { (mcR 1 0x40000).th with clause := none, pc := 0x60 } }
theorem witness_Handler :
    (qS [rec0] mcB).handlerDue 0 = true ∧ (qS [] mcB).handlerDue 0 = false ∧ OnMc (qS [] (mcR 1 0x40000)) 0 (mcR 1 0x40000).th ∧
      (mcR 1 0x40000).resume = .header ∧ ((mcR 1 0x40000).th.src 0 (gr 4) false).clean = true ∧
      (BitVec.ofNat 3 (eventsOf (qS [rec0] (mcR 1 0)) 0)) &&& 1 ≠ 0#3 ∧ (BitVec.ofNat 3 (eventsOf (qS [] (mcR 1 0)) 0)) &&& 1 = 0#3 :=
  ⟨by decide +kernel, by decide +kernel, ⟨rfl, rfl, rfl, rfl, rfl⟩, rfl, by decide +kernel, by decide +kernel, by decide +kernel⟩
theorem test_handler :
    gives (.mcHandlerEntry 0) (qS [rec0] mcB) (fun u => (u.mc 0).epc = 0x60 && (u.mc 0).inh && (u.mc 0).th.pc = 0x1000) = true ∧
    gives (.eret ⟨al⟩) (mcS { mcR 0 0 with inh := true, epc := 0x88 } fib) (fun u => !(u.mc 0).inh && (u.mc 0).th.pc = 0x88 &&
      (u.mc 0).th.clause = none) = true ∧
    gives (.eret ⟨al⟩) (mcS { mcR 0 0 with inh := true, epc := 16, resume := .inClause (cl3 2) } fib) (fun u => (u.mc 0).th.pc = 16 &&
      (u.mc 0).th.clause.map Clause.pos = some 1) = true := by decide +kernel
theorem test_sleep :
    gives (.sleep ⟨al, gd 8, gr 4⟩) (qS [rec0] (mcR 1 0)) (fun u => (u.mc 0).asleep = none && (u.mc 0).th.reg 8 = .u 1 false) = true ∧
    gives (.sleep ⟨al, gd 8, gr 4⟩) (qS [] (mcR 1 0)) (fun u => (u.mc 0).asleep = some (1, gd 8) && (u.mc 0).th.pc = 8) = true ∧
    gives (.sleepWake 0) (qS [rec0] { mcR 1 0 with asleep := some (7, gd 8) }) (fun u => (u.mc 0).asleep = none && (u.mc 0).th.reg 8 = .u 1 false) = true ∧
    gives (.sleepWake 0) (qS [] { mcR 1 0 with asleep := some (7, gd 8) }) (fun u => (u.mc 0).asleep = some (7, gd 8)) = true := by decide +kernel
theorem test_tlbi :
    let e (c p : Nat) : TlbEnt := ⟨.die 0, c, 2, p, 0x4001F⟩
    let l (c p : Nat) : PtrEnt := ⟨0, c, 1, p, 0x30001⟩
    gives (.tlbi ⟨al, 0, gr 6, gr 4⟩) { mcS (mcR 1 0x40000) fib with tlb := [e 1 4, e 1 5, e 2 4], ptrs := [l 1 0, l 1 1, l 2 0] } (fun u =>
      u.tlb = [e 1 5, e 2 4] && u.ptrs = [l 1 1, l 2 0] && (u.mc 0).th.pc = 16) = true := by decide +kernel
/-- FibreControl: fibre 0 of core 0 is selected, parked and ready. -/
def selM (off v : Word) : Mc := { mcR off v with sel := .fibre 0 0 1 }
theorem witness_FibreControl :
    OnMc (mcS (selM 8 0) parkT) 0 (selM 8 0).th ∧ Selected (mcS (selM 8 0) parkT) 0 0 0 parkT ∧ (selM 8 0).th.guard al = .t ∧
      ((selM 8 0).th.src 0 (gr 4) false).clean = true ∧ handleOf false 0 0 0 = 0 ∧ parkT.st = .parked ∧ fib.st ≠ .parked ∧ fib.clause ≠ none :=
  ⟨⟨rfl, rfl, rfl, rfl, rfl⟩, ⟨rfl, rfl, rfl⟩, rfl, by decide +kernel, by decide +kernel, rfl, by decide, by decide⟩
theorem test_fibre_control :
    gives (.fsel ⟨al, 2, gr 4⟩) (mcS (mcR 0 0) parkT) (fun u => (u.mc 0).sel = .fibre 0 0 1 && (u.mc 0).th.pred 2 = .t) = true ∧
    gives (.fsel ⟨al, 2, gr 4⟩) (mcS (mcR 0x08000000 0) parkT) (fun u => (u.mc 0).sel = .none && (u.mc 0).th.pred 2 = .f) = true ∧
    gives (.fget ⟨al, gd 8, gr 4⟩) (mcS (selM 8 0) parkT) (fun u => (u.mc 0).th.reg 8 = .u 8 false) = true ∧
    gives (.fget ⟨al, gd 8, gr 4⟩) (mcS (selM 0x188 0) parkT) (fun u => (u.mc 0).th.reg 8 = .u 9 false) = true ∧
    gives (.fset ⟨al, 2, gr 4, gr 6⟩) (mcS (selM 8 0x50) parkT) (fun u => (u.fibre? 0 0).map Thread.pc = some 0x50 && (u.mc 0).th.pred 2 = .t)
      = true ∧
    gives (.fset ⟨al, 2, gr 4, gr 6⟩) (mcS (selM 8 0x50) fib) (fun u => (u.fibre? 0 0).map Thread.pc = some 8 && (u.mc 0).th.pred 2 = .f)
      = true ∧
    gives (.fresume ⟨al, 2, none⟩) (mcS (selM 8 0) parkT) (fun u => (u.fibre? 0 0).map Thread.st = some .ready && (u.mc 0).th.pred 2 = .t)
      = true := by decide +kernel
/-- A fibre in the middle of its clause has no value of a boundary yet: FGET waits. -/
theorem test_fget_waits : gives (.fget ⟨al, gd 8, gr 4⟩) (mcS (selM 8 0) fib) (fun u => u = mcS (selM 8 0) fib) = true ∧
    gives (.fget ⟨al, gd 8, gr 4⟩) (mcS (selM 8 0) { fib with clause := none }) (fun u => (u.mc 0).th.reg 8 = .u 8 false) = true := by decide +kernel
theorem test_privilege : gives (.eret ⟨al⟩) (onF fib) (fun u => (u.fibre? 0 0).map (fun v => (v.st, v.lcause, v.pc)) =
    some (.parked, cPrivilege, 8)) = true := by decide +kernel
/-- ReplayWalkAndQueue: a record of a load of one index at va 0x100. -/
def bookR : FbRec :=
  { level := 2, port := 0, ctx := 0, entry := 0, uid := 1, replaying := true, size := 4, acc := 0, cause := cPageFault, farlink := false, hits := []
    pc := 8, va := 0x100, instr := (encode (.ld outLd)).getD 0, pend := [0], data := [], dbad := [], addr := .u 0x100, off := 0
    cl := none, latches := [], frame := memT.frame, root := memT.root }
def replayT : Thread := { memT with st := .replayWait, why := .none, pc := 16, fbrec := some 0 }
def bookS (b : FbRec) : State :=
  let s := withVm (onF replayT) [(0x40100, 0x81828384)]
  { s.setCore 0 { s.core 0 with book := [(0, b)] } with turn := .event 0 }
theorem witness_Replay :
    Tab.find? ((bookS bookR).core 0).book 0 = some bookR ∧ (bookS bookR).fibre? 0 0 = some replayT ∧ ((bookS bookR).core 0).bookq = [] ∧
      decode bookR.instr = .ok (.ld outLd) ∧ Reaches { bookS bookR with turn := .fibre 0 0 } replayT (0x100 + 0) 4 .r 0x40100 ∧
      (bookS bookR).rootOf (.hub 0 0) = some 0x10000 ∧ (bookS bookR).walk 0x100 3 0x10000 0 = .ok (2, 0x4001F) ∧
      (∃ f, (bookS bookR).walk 0x30000 3 0x10000 0 = .error f) ∧ replayT.fbrec = some 0 ∧ replayT.frame = bookR.frame ∧
      (∀ p ∈ bookR.pend, p ∈ replayT.places) ∧ ((bookS bookR).core 0).loads = [] ∧ ((bookS bookR).core 0).swaps = [] ∧ Calm (bookS bookR) :=
  ⟨rfl, rfl, rfl, by decide +kernel,
    reaches_of (leaf := 0x4001F) (by decide +kernel), rfl, by decide +kernel,
    ⟨2, by decide +kernel⟩, rfl, rfl, by decide +kernel, rfl, rfl, ⟨rfl, rfl⟩⟩
theorem test_replay :
    gives (.replayComplete 0 0) (bookS bookR) (fun u => (u.fibre? 0 0).map (fun v => (v.st, v.pc, v.reg 4)) =
      some (.ready, 16, .u 0x81828384 false) && (u.core 0).book = []) = true ∧
    gives (.replayComplete 0 0) (bookS { bookR with acc := 4 }) (fun u => (u.fibre? 0 0).map (fun v => (v.st, v.pc)) = some (.ready, 16))
      = true ∧
    gives (.replay ⟨al, 2, false⟩) (let s := mcS (selM 0 0) replayT; s.setCore 0 { s.core 0 with book := [(0, { bookR with replaying := false })] })
      (fun u => ((u.core 0).book.map fun kv => kv.2.replaying) = [true] && (u.mc 0).th.pred 2 = .t) = true ∧
    gives (.pageWalkComplete 0 0x100) (bookS bookR) (fun u =>
      [0, 1].all fun d => u.tlb.contains ⟨.die d, 0, 2, 0, 0x4001F⟩) = true ∧
    gives (.heldTrapPush 0) { s0 with clusters := [(0, { Cluster.reset with held := [rec0], seq := 5 })] } (fun u =>
      (u.cluster 0).trapq.map TrapRec.seq = [5] && (u.cluster 0).held = []) = true := by decide +kernel
/-- ClausesBegin: no knit; a knit; a stream's class and the reserved bit. -/
def begT (h : Word) : Thread :=
  { fib with pc := 0, wdog := 5, clause := some { cl3 0 with hdr := h, begun := false }, regs := [(0, .u 1 false), (2, .u 2 false)] }
def hPlain : Word := hdrOf 0 ||| 0x0200000000000000#64
theorem witness_Clauses :
    (begT hPlain).clause = some { cl3 0 with hdr := hPlain, begun := false } ∧ headerCause .fibre false hPlain = none ∧
      hdrKnit hPlain = false ∧ waitless ((onF (begT hPlain)).core 0) (begT hPlain) hPlain ∧ hdrClass (hdrOf 1) = 1 ∧ hdrClass (hdrOf 2) = 2 ∧
      (hPlain ||| 2 ^ 44).getLsbD 44 = true ∧ OnFibre (onF (begT hPlain)) 0 0 (begT hPlain) :=
  ⟨rfl, by decide +kernel, by decide +kernel, ⟨by decide +kernel, by decide +kernel, nofun⟩, by decide +kernel, by decide +kernel,
    by decide +kernel, rfl, rfl, rfl⟩
theorem test_clauses :
    let trapsH (h : Word) (cause : BitVec 8) := gives (.clauseHeader h) (onF (begT h)) fun u =>
      (u.fibre? 0 0).map (fun v => (v.st, v.lcause, v.pc)) = some (.parked, cause, 0)
    gives (.clauseHeader hPlain) (onF (begT hPlain)) (fun u => (u.fibre? 0 0).map (fun v => (v.pc, v.wdog, v.regs)) =
      some (8, 5, (begT hPlain).regs)) = true ∧
    trapsH (hdrOf 1) cIllegalClass = true ∧ trapsH (hdrOf 2) cPrivilege = true ∧ trapsH (hPlain ||| 2 ^ 44) cReservedField = true ∧
    gives (.knitHoldExpiry 0 0) (onF { begT hPlain with st := .wait, why := .knitHold }) (fun u =>
      (u.fibre? 0 0).map (fun v => (v.pc, v.why, v.st)) = some (8, .none, .ready)) = true := by decide +kernel
/-- A knit whose live set is g0 and g1: they are kept, and the watchdog restarts. -/
def hKnit : Word := hPlain ||| 0x0000400000000001#64
theorem test_knit : hdrKnit hKnit = true ∧ hdrLiveReg hKnit 0 = true ∧ hdrLiveReg hKnit 2 = false ∧
    gives (.clauseHeader hKnit) (onF (begT hKnit)) (fun u => (u.fibre? 0 0).map (fun v => (v.pc, v.wdog, v.reg 0)) =
      some (8, 0, .u 1 false)) = true := by decide +kernel
theorem witness_Watchdog :
    let t := { fib with clause := none, wdog := 9 }
    let s := { withVm (onF t) [] with ctxs := [(0, { ctx0 with wdog := 8 })] }
    s.fibre? 0 0 = some t ∧ s.overBudget t = true ∧ (withVm (onF t) []).overBudget t = false ∧ QueueRoom s 0 ∧
      rising (s.core 0).fibres = true :=
  ⟨rfl, by decide +kernel, by decide +kernel, by unfold QueueRoom; decide +kernel, by decide +kernel⟩
theorem test_watchdog :
    let t := { fib with clause := none, wdog := 9 }
    gives (.watchdog 0 0) { withVm (onF t) [] with ctxs := [(0, { ctx0 with wdog := 8 })] } (fun u =>
      (u.fibre? 0 0).map (fun v => (v.st, v.lcause)) = some (.parked, cWatchdog) && (u.cluster 0).trapq.map TrapRec.aux = [9]) = true ∧
    gives (.resourceRetry 0) (onF { fib with st := .resourceWait, why := .resource }) (fun u => u.fibre? 0 0 = some fib) = true := by
  decide +kernel

/-! ### Tasks -/

/-- Context 0's queue: a ring of 8 slots at 0x9_0000, HEAD 0, a completion ring of 4 at 0xA_0000. -/
def putAll (m : Bytes) (l : List (Nat × Nat)) : Bytes := l.foldl (fun m (aw : Nat × Nat) => Bytes.write m aw.1 (leBytes 8 aw.2)) m
def ringS (s : State) : State :=
  { s with mem := { s.mem with cells := putAll s.mem.cells [(0x70000, 0x90000), (0x70008, 8), (0x70010, 0xA0000), (0x70018, 4)] } }
def ctxS (k : Ctx) : State := ringS { s0 with ctxs := [(0, k)] }
def task (i : Nat) (lent : Option Nat) : Task := ⟨⟨0, i, 0, 0, 0⟩, lent, 0⟩
/-- Core 0 with a backlog, of the launch of `launch0` on context 0 with object 1. -/
def taskS (b : List Task) : State :=
  { (ctxS ctxL).setCore 0 { Core.reset with backlog := b } with launches := [(0, launch0)] }
theorem witness_Admission :
    let s := (ctxS ctxL).setCore 0 { Core.reset with pendq := [⟨lrec, 0, 0, 0, [], []⟩] }
    s.nextCand 0 = some ⟨0, 0, 0, .pend 0⟩ ∧ s.gen 0 = 0 ∧ s0.nextCand 0 = none ∧ (s.die 0).toPlace = [] ∧
      (8 + 2 ^ 32 - s.qHead ctxL) % 2 ^ 32 ≤ s.qSize ctxL ∧ s.qSize ctxL < (9 + 2 ^ 32 - s.qHead ctxL) % 2 ^ 32 ∧ Sound s (ctxL.q + 40) 1 ∧
      s.nextCore 0 = some 0 ∧ (taskS [task 0 none]).nextTask 0 = some (task 0 none, launch0) ∧
      (taskS [task 0 none]).tileFits 0 (task 0 none) launch0 = true ∧ (taskS [task 0 none]).taskCancelled 0 (task 0 none) = false ∧
      s.doneRoom ctxL = true :=
  ⟨by decide +kernel, by decide +kernel, by decide +kernel, rfl, by decide +kernel, by decide +kernel, by unfold Sound; decide +kernel,
    by decide +kernel, by decide +kernel, by decide +kernel, by decide +kernel, by decide +kernel⟩
theorem test_admission :
    gives (.ctxDoorbell 0 8) (ctxS ctxL) (fun u => (u.ctx? 0).map (fun k => k.tail) = some 8 && u.agenda.contains (.dispatchAdmit 0)) = true ∧
    gives (.ctxDoorbell 0 9) (ctxS ctxL) (fun u => (u.ctx? 0).map (fun k => k.tail) = some 0 && numAt u none 0x70028 1 = 1) = true ∧
    gives (.dispatchAdmit 0) ((ctxS ctxL).setCore 0 { Core.reset with pendq := [⟨lrec, 0, 0, 0, [], []⟩] }) (fun u =>
      (u.core 0).pendq = [] && (u.die 0).toPlace = [⟨1, 0, 0, 0, 0⟩] && (u.die 1).toPlace = [⟨1, 1, 0, 0, 0⟩]) = true ∧
    gives (.dispatchPlace 0) { taskS [] with dies := [(0, { Die.reset with toPlace := [(task 1 none).msg] })] } (fun u =>
      (u.core 0).backlog.map Task.msg = [(task 1 none).msg] && (u.die 0).toPlace = [] && (u.die 0).last = 0) = true := by decide +kernel
theorem test_tile_start : gives (.tileStart 0) (taskS [task 1 none]) (fun u => (u.core 0).backlog = [] &&
    (u.core 0).fibres.map (fun kv => (kv.2.box, kv.2.pc, kv.2.window, kv.2.st)) = [(⟨4, 8, 0, 2, 0, 1⟩, 0, 64, .ready)]) = true := by decide +kernel
theorem test_held_entry : gives (.heldCompletionEntry 0) (ctxS { ctxL with held := [(0x500000000, [])] }) (fun u =>
    numAt u none 0xA0000 8 = 0x500000000 && numAt u none 0x7001C 4 = 1 && u.host.msix = [8]) = true := by decide +kernel
/-- CompletionOfWork: a launch with a counter at 0x100; a token at core position 1 and one that ends its second clean round. -/
def doneS (counter : Word) : State :=
  let s := withVm s0 [(0x40100, 3)]
  { s with launches := [(0, { launch0 with lr := { lrec with counter := counter }, ended := 2 })] }
def jobS (t : Option Token) : State := ctxS { ctxL with jobs := [(5, { Job.fresh with token := t })], tail := 0 }
theorem witness_Completion :
    (doneS 0).launch? 0 = some { launch0 with lr := { lrec with counter := 0 }, ended := 2 } ∧
      (Tab.vals (doneS 0).cores).any (·.hasLaunch 0) = false ∧ InPage (doneS 0x100) (.hub 0 0) 0x100 8 .rw 0x40100 ∧
      (jobS none).passive 0 0 5 = true ∧ (jobS none).passive 1 0 5 = true ∧ (taskS [task 0 none]).passive 1 0 5 = false ∧
      coreOfPos 1 = some 0 ∧ (jobS none).inC0 0 = true :=
  ⟨rfl, by decide +kernel, inPage_of (leaf := 0x4001F) (by decide +kernel),
    by decide +kernel, by decide +kernel, by decide +kernel, by decide +kernel, by decide +kernel⟩
theorem test_completion :
    gives (.launchFinish 0) (doneS 0x100) (fun u => u.launches = [] && numAt u none 0x40100 8 = 2) = true ∧
    gives (.traverseToken 0 5) (jobS none) (fun u => (u.ctx? 0).map (fun k => k.jobs.map fun j => j.2.token) = some [some ⟨1, false, 0, 0⟩]) = true ∧
    gives (.traverseToken 0 5) (jobS (some ⟨193, true, 4, 0⟩)) (fun u => (u.ctx? 0).map (fun k => k.jobs.map fun j => j.2.token) =
      some [some ⟨0, true, 4, 0⟩]) = true := by decide +kernel
theorem test_job_completes :
    gives (.traverseToken 0 5) (jobS (some ⟨0, false, 0, 1⟩)) (fun u => (u.ctx? 0).map (fun k => k.jobs.length) = some 0 &&
      numAt u none 0xA0000 8 = 5 * 2 ^ 32 && numAt u none 0x7001C 4 = 1) = true := by decide +kernel
/-- StealingAndDraining. -/
theorem witness_Stealing :
    (taskS []).canSteal 0 = true ∧ (stealOrder 0)[0]? = some 1 ∧ (stealOrder 0)[94]? = some 95 ∧
      (taskS [task 0 none, task 1 none]).lendable 0 = some (task 1 none) ∧ 2 ≤ ((taskS [task 0 none, task 1 none]).core 0).unlent.length ∧
      (taskS []).gen 0 = 0 := by decide +kernel
theorem test_stealing :
    gives (.stealRequest 0) (taskS []) (fun u => u.agenda = [.stealVictim 1 0] && (u.core 0).steal.asking = some 1) = true ∧
    gives (.stealVictim 0 3) (taskS [task 0 none, task 1 none]) (fun u => u.agenda = [.lentRecord 3 0 ⟨0, 1, 1, 0, 0⟩] &&
      (u.core 0).backlog.map Task.lent = [none, some 3]) = true ∧
    gives (.stealVictim 0 3) (taskS [task 0 none]) (fun u => u.agenda = [.stealNone 3]) = true ∧
    gives (.lentRecord 0 7 ⟨0, 1, 1, 0, 0⟩) (taskS []) (fun u => (u.core 0).backlog.length = 1 && u.agenda.contains (.stealAck 7 ⟨0, 1, 1, 0, 0⟩))
      = true ∧
    gives (.stealAck 0 (task 1 (some 3)).msg) (taskS [task 0 none, task 1 (some 3)]) (fun u => (u.core 0).backlog = [task 0 none]) = true ∧
    gives (.stealNone 0) (taskS []) (fun u => (u.core 0).steal.asked = 1) = true ∧
    gives (.stealNone 0) ((taskS []).setCore 0 { Core.reset with steal := ⟨some 95, 94, false⟩ }) (fun u => (u.core 0).steal = ⟨none, 0, true⟩) = true ∧
    gives (.stealRetryTimer 1) ((taskS [task 0 none, task 1 none]).setCore 1 { Core.reset with steal := ⟨none, 0, true⟩ })
      (fun u => !(u.core 1).steal.backoff) = true := by decide +kernel
theorem test_draining :
    gives (.drainNotice 0) { taskS [task 0 none, task 1 (some 3)] with clusters := [(0, { Cluster.reset with pm := { Clpm.reset with dstop := true } })] } (fun u => (u.core 0).draining && (u.core 0).backlog = [task 1 (some 3)] &&
      u.agenda = [.unstartedRecordReturn 0 0 [(task 0 none).msg]]) = true ∧
    gives (.unstartedRecordReturn 0 0 [(task 0 none).msg]) (taskS []) (fun u => (u.die 0).toPlace = [(task 0 none).msg]) = true := by decide +kernel

/-- A drain notice that comes after DSTOP was cleared; a record lent to a core that drains goes back to the dispatcher. -/
theorem test_draining_late :
    gives (.drainNotice 0) (taskS [task 0 none]) (fun u => !(u.core 0).draining && (u.core 0).backlog = [task 0 none]) = true ∧
    gives (.lentRecord 0 7 ⟨0, 1, 1, 0, 0⟩) ((taskS []).setCore 0 { Core.reset with draining := true }) (fun u => (u.core 0).backlog = [] &&
      u.agenda.contains (.unstartedRecordReturn 0 0 [⟨0, 1, 1, 0, 0⟩])) = true := by decide +kernel

/-! ### Contexts and the host -/

/-- SwitchAndRestore: fibre 0 stands between clauses; it is in a clause; a saved area whose header matches. -/
def switchS (t : Thread) : State := withVm (onF t) []
def savedV : Saved := ⟨0, [(3, { fib with clause := none })], [], [], [], CoreCtx.reset, none, [], [], [], [], []⟩
def restS (hdr : Nat) : State :=
  { withVm s0 [(0x80000, hdr)] with ctxs := [(0, { ctx0 with saved := [(0, savedV)] })] }
theorem witness_Switch :
    ((switchS { fib with clause := none }).core 0).settled 0 = true ∧ ((switchS fib).core 0).settled 0 = false ∧
      ((restS 0x0200).core 0).roomToRestore 0 savedV = true ∧ ctx0.areaOf 0 = 0x80000 ∧
      ([1, 2, 3, 4].map fun i => ((restS 0x0200).readByte none (ctx0.areaOf 0 + i)).toNat) = [2, 0, 0, 0] ∧ rising savedV.fibres = true ∧
      (restS 0x0200).flowing = true ∧ ((restS 0x0200).core 0).cancelled = [] ∧ (switchS { fib with clause := none }).flowing = true ∧
      (switchS { fib with clause := none }).deadAt 0x80000 8 = false ∧ (switchS { fib with clause := none }).mem.plines = [] := by
  decide +kernel
theorem test_switch :
    gives (.contextSwitch 0 0) (switchS fib) (fun u => u.agenda = [.contextSwitch 0 0] && (u.core 0).stopped = [0]) = true ∧
    gives (.contextRestore 0 0) (restS 0x0300) (fun u => (u.core 0).fibres = []) = true := by decide +kernel
/-- MailboxCommands: a block of CTX_CREATE at 0xC_0000 with the host's majors. -/
def blockS (cells : List (Nat × Nat)) : State :=
  { s0 with mem := { s0.mem with cells := putAll [] cells } }
def createC : List (Nat × Nat) :=
  let w := leNat (leBytes 1 7 ++ leBytes 1 1 ++ (deviceMajors.flatMap fun m => leBytes 2 m.toNat) ++ leBytes 4 0)
  [(0xC0000, w % 2 ^ 64), (0xC0008, w / 2 ^ 64), (0xC0010, 0x10000), (0xC0018, 0x70000), (0xC0020, 0x80000), (0xC0028, 4096)]
theorem witness_Mailbox :
    let raw := (blockS createC).readBytes none 0xC0000 88
    let host := (List.range 5).map fun i => BitVec.ofNat 16 (fieldAt raw (2 + 2 * i) 2)
    (∃ m, chooseMajors host = some m) ∧ createBad (createBlock raw 4) (fun n => ((blockS createC).ctx? n).isSome) = false ∧
      chooseMajors [0, 0, 0, 0, 0] = none ∧ (ctxS ctxL).ctxReqBad 0xC0000 = false ∧ s0.ctxReqBad 0xC0000 = true ∧
      s0.host.booted = true ∧ s0.host.mb.busy = false :=
  ⟨Option.isSome_iff_exists.mp (by decide +kernel), by decide +kernel, by decide +kernel, by decide +kernel, by decide +kernel, rfl, rfl⟩
theorem test_mailbox :
    gives (.mbDb 3 0xC0000 1) s0 (fun u => u.host.mb.busy && u.agenda = [.ctxDestroy 0xC0000]) = true ∧
    gives (.mbDb 3 0xC0000 0) s0 (fun u => !u.host.mb.busy && u.agenda = []) = true ∧
    gives (.mbUnknownCmd 99) s0 (fun u => u.host.mb.status = 0x40 && u.host.msix = [0]) = true ∧
    gives (.ctxCreate 0xC0000) (blockS createC) (fun u => u.host.mb.status = 0 && (u.ctx? 7).map (fun k => (k.root, k.qdesc, k.pool, k.priv)) =
      some (0x10000, 0x70000, 4096, true)) = true ∧
    gives (.ctxCreate 0xC0000) s0 (fun u => u.host.mb.status = 0x41) = true ∧
    gives (.ctxReset 0xC0000) (ctxS ctxL) (fun u => u.host.mb.status = 0 && u.gen 0 = 1 && (u.ctx? 0).isSome) = true ∧
    gives (.ctxDestroy 0xC0000) (ctxS ctxL) (fun u => u.host.mb.status = 0 && u.ctx? 0 = none) = true ∧
    gives (.ctxDestroy 0xC0000) s0 (fun u => u.host.mb.status = 0x42) = true := by decide +kernel
theorem test_halt_info_none : gives (.haltInfo 0xC0000) s0 (fun u => u.host.mb.status = 0 && u.mem = s0.mem) = true := by decide +kernel
/-- AttestationAndBoot: what no free value decides. -/
theorem test_attestation :
    gives .getVersion s0 (fun u => u.host.spdm.response = [1, 3] && u.host.spdm.version) = true ∧
    gives .getCapabilities s0 (fun u => u.host.spdm.caps) = true ∧ gives .negotiateAlgorithms s0 (fun u => u.host.spdm.algs) = true ∧
    gives (.getMeasurements 16) (ctxS ctxL) (fun u => u.host.spdm.response = List.replicate 64 0) = true := by decide +kernel

/-! ### Power, links and memory hardware -/

def pmS (p : Clpm) : State := { s0 with clusters := [(0, { Cluster.reset with pm := p })] }
def flushedP : Clpm := { Clpm.reset with estop := true, flushed := true }
theorem witness_Power :
    stepAllowed (pmS flushedP) 0 1 ∧ ¬ stepAllowed (pmS flushedP) 0 2 ∧ ¬ stepAllowed (pmS Clpm.reset) 0 1 ∧
      (pmS flushedP).estopped 0 = true ∧ (pmS Clpm.reset).estopped 0 = false :=
  ⟨⟨by decide +kernel, fun _ => by decide +kernel, by decide⟩, by rintro ⟨h, -⟩; revert h; decide +kernel,
    by rintro ⟨-, h, -⟩; exact absurd (h rfl).2.2 (by decide), by decide +kernel, by decide +kernel⟩
theorem test_power :
    let pm (i : Instr) (p : Clpm) (f : Clpm → Bool) : Bool := gives i (pmS p) fun u => f (u.cluster 0).pm
    pm (.clpmGo 0 1) flushedP (fun q => q.busy && q.dest = 1) = true ∧ pm (.clpmGo 0 1) Clpm.reset (fun q => q.err && !q.busy) = true ∧
    pm (.clpmStepDone 0) { flushedP with busy := true, dest := 1 } (fun q => !q.busy && q.cur = 1) = true ∧
    pm (.flush 0) Clpm.reset (fun q => q.flush) = true ∧ pm (.flushDone 0) { Clpm.reset with flush := true } (fun q => q.flushed) = true ∧
    pm (.estop 0 true) Clpm.reset (fun q => q.estop) = true ∧ pm (.dstop 0 true) Clpm.reset (fun q => q.dstop) = true ∧
    pm (.clpmWake 0) { Clpm.reset with pend := true } (fun q => !q.pend) = true ∧ pm (.clpmWakeMirror 0) Clpm.reset (fun q => q.pend) = true ∧
    gives (.alwaysOnAnswer 0 (.stealRequest 1 9)) (pmS { Clpm.reset with cur := 1 }) (fun u => u.agenda = [.stealNone 9]) = true := by
  decide +kernel
theorem test_retention :
    let pm (i : Instr) (p : Clpm) (f : Clpm → Bool) : Bool := gives i (pmS p) fun u => f (u.cluster 0).pm
    pm (.save 0) flushedP (fun q => q.save) = true ∧ pm (.save 0) Clpm.reset (fun q => !q.save) = true ∧
    pm (.saveDone 0) { flushedP with save := true } (fun q => !q.save && q.retv) = true ∧
    pm (.restore 0) Clpm.reset (fun q => q.rerr) = true ∧ pm (.restore 0) { Clpm.reset with retv := true } (fun q => q.restore) = true ∧
    gives (.restoreDone 0) (pmS { Clpm.reset with restore := true, kept := [rec0] }) (fun u => (u.cluster 0).trapq = [rec0]) = true := by
  decide +kernel
/-- HostAndPeers. -/
def farA (port : Nat) : Nat := 2 ^ 50 + port * 2 ^ 48
def ldOut' (pa : Nat) (f : Tab Word) : OutAccess := { ldOut pa with leaves := f }
def farT : Thread := { outT with regs := [(4, .u 1 false)] }
def farS : State :=
  let s := onF farT
  s.setCore 0 { s.core 0 with loads := [ldOut' (farA 1) [(0, 0)]] }
theorem witness_Host :
    (2 ^ 39 - 1) + 1 ≤ 2 ^ 39 ∧ Calm s0 ∧ Sound s0 0x100 8 ∧ s0.flowing = true ∧ State.reset.host.booted = false ∧
      Outstanding farS 0 0 farT (ldOut' (farA 1) [(0, 0)]) outLd (farA 1) ∧ inFar (farA 1) = true ∧ farPort (farA 1) = 1 :=
  ⟨by decide, ⟨by decide +kernel, rfl⟩, ⟨rfl, rfl, by decide +kernel⟩, by decide +kernel, rfl,
    ⟨rfl, by decide +kernel, rfl, rfl, rfl, rfl, ⟨0x100, rfl⟩, rfl, rfl, rfl, rfl, rfl, by decide +kernel, rfl, by decide +kernel, by decide +kernel,
      by decide +kernel⟩, by decide +kernel, by decide +kernel⟩
theorem test_host :
    gives (.hostCxlMemAccess (.write 0x7FFFFFFFFF [9])) s0 (fun u => numAt u none 0x7FFFFFFFFF 1 = 9) = true ∧
    gives (.hostCxlMemAccess (.read 0x40100 2)) (withVm s0 [(0x40100, 0x0102)]) (fun u => u.host.lastRead = [2, 1]) = true ∧
    gives (.peerWrite 0x10 [1, 2]) s0 (fun u => numAt u none 0x10 2 = 0x201) = true ∧
    gives (.peerLinkTrained 15 0x1000) s0 (fun u => u.host.peerup = 0x8000) = true ∧
    gives (.farLinkDown 1) farS (fun u => u.host.farDown = [1] && (u.fibre? 0 0).map (fun v => (v.why, v.pc)) = some (.none, 16)) = true ∧
    gives (.farCompletionTimeout 0 0) farS (fun u => (u.core 0).loads = [] && (u.fibre? 0 0).map (fun v => v.why) = some .none) = true ∧
    gives (.farRetrainDone 1) { s0 with host := { s0.host with farDown := [0, 1] } } (fun u => u.host.farDown = [0]) = true := by decide +kernel
theorem test_host_not_decoded : Machine.exec (.hostCxlMemAccess (.read 0x7FFFFFFFFF 2)) s0 = .fault (.notDecoded 0x7FFFFFFFFF) := by
  simp [Machine.exec, execHostCxlMemAccess, State.hostAccess]
  decide +kernel
/-- MemoryHardware. -/
def pchS (x : Pch) : State := { s0 with hbm := { s0.hbm with pchs := [(2, x)] } }
theorem witness_Memory :
    (pchS Pch.reset).pch 2 = Pch.reset ∧ (pchS { Pch.reset with st := 2 }).pch 2 = { Pch.reset with st := 2 } ∧ s0.hbm.en = true ∧
      s0.heldAt 0 1 = false ∧ s0.deadAt 0 1 = false ∧
      Tab.find? ({ s0 with mem := { s0.mem with flaws := [(0, 2)] } } : State).mem.flaws 0 = some 2 := by decide +kernel
theorem test_memory :
    let px (i : Instr) (x : Pch) (f : Pch → Bool) : Bool := gives i (pchS x) fun u => f (u.pch 2)
    px (.linkCrcFail 2 4) Pch.reset (fun y => y.lc = 4 && y.st = 0) = true ∧ px (.linkCrcFail 2 5) Pch.reset (fun y => y.lc = 5 && y.lf = 1 && y.st = 2) = true ∧
    px (.hbmRetrainDone 2 true true) { Pch.reset with st := 2 } (fun y => y.st = 0) = true ∧
    px (.hbmRetrainDone 2 false true) { Pch.reset with st := 2, fails := 2 } (fun y => y.st = 3 && y.oos = 1) = true ∧
    px (.remapTableError 2) Pch.reset (fun y => y.st = 1) = true ∧ px (.clr 2) { Pch.reset with lc := 7, oos := 1 } (fun y => y.lc = 0 && y.oos = 1) = true ∧
    gives (.scrubCtl 0x0AA801) s0 (fun u => u.hbm.en && u.hbm.period = 168 && u.hbm.rmthr = 10) = true := by decide +kernel
theorem test_scrub :
    gives .scrubRead { s0 with mem := { s0.mem with flaws := [(0, 2)] } } (fun u => u.hbm.cursor = 1 && u.mem.flaws = [] && u.mem.plines = [0]) = true ∧
    gives .scrubRead { s0 with mem := { s0.mem with flaws := [(0, 1)] } } (fun u => u.hbm.cursor = 1 && u.mem.flaws = [] &&
      (u.pch (pchOf 0)).sc = 1) = true := by decide +kernel
/-- MailboxData: the arguments are free values of the block (log 30), so the states take them as they are. -/
abbrev block0 : List Byte := s0.readBytes none 0 64
def dataS : State := { s0 with ctxs := [(Config.reqCtx block0, ctx0)] }
def clpmS : State :=
  let cur : BitVec 2 := if Config.reqState block0 = 0#2 then 1 else if Config.reqState block0 = 2#2 then 3 else 2
  { s0 with clusters := [(Config.reqCluster block0, { Cluster.reset with pm := { Clpm.reset with cur := cur } })] }
def haltS : State := { s0 with host := { s0.host with mb := { s0.host.mb with halt := true, haltCluster := 3 } } }
theorem sound_of (s : State) (a n : Nat) (h : s.mem = s0.mem) (hp : s.hbm = s0.hbm) : Sound s a n := by
  refine ⟨by rw [h]; rfl, by rw [h]; rfl, ?_⟩
  simp only [State.deadAt, State.pchIn, State.pch, hp]
  simp [Tab.get, Tab.find?, s0, State.reset]
theorem witness_MailboxData :
    s0.ctx? (Config.reqCtx block0) = none ∧ dataS.ctx? (Config.reqCtx (dataS.readBytes none 0 64)) = some ctx0 ∧ ctx0.meas.length = 64 ∧
      Sound dataS (0 + Config.measOffset % 64) 64 ∧ haltS.host.mb.halt = true ∧ Sound haltS (0 + Config.haltOffset % 63) 2 :=
  ⟨rfl, by rw [show dataS.readBytes none 0 64 = block0 from rfl]; simp [State.ctx?, Tab.find?, dataS], rfl, sound_of _ _ _ rfl rfl, rfl,
    sound_of _ _ _ rfl rfl⟩
theorem witness_MailboxClpm : let n := Config.reqCluster (clpmS.readBytes none 0 64)
    24 ≤ n ∨ (n < 24 ∧ (State.pmOf clpmS n).busy = false ∧ stepAllowed clpmS n (Config.reqState (clpmS.readBytes none 0 64))) := by
  rw [show clpmS.readBytes none 0 64 = block0 from rfl]
  rcases Nat.lt_or_ge (Config.reqCluster block0) 24 with h | h
  · right
    have hp : State.pmOf clpmS (Config.reqCluster block0) = { Clpm.reset with
        cur := if Config.reqState block0 = 0#2 then 1 else if Config.reqState block0 = 2#2 then 3 else 2 } := by
      simp [State.pmOf, State.cluster, Tab.get, Tab.find?, clpmS]
    refine ⟨h, by rw [hp], ?_⟩
    unfold stepAllowed
    rw [hp]
    simp only
    generalize Config.reqState block0 = x
    have : x = 0#2 ∨ x = 1#2 ∨ x = 2#2 ∨ x = 3#2 := by revert x; decide
    rcases this with rfl | rfl | rfl | rfl <;> decide
  · exact .inl h
/-- CLPM towards state 3 in single steps (19 R374): a step that may be made, one under way, the last reached, one refused. -/
def goalS (p : Clpm) (tgt : BitVec 2) : State :=
  { pmS p with host := { s0.host with mb := { s0.host.mb with busy := true, goal := some (0, tgt) } } }
theorem witness_MailboxGoal :
    stepAllowed (goalS { Clpm.reset with cur := 2 } 3) 0 3 ∧ (goalS { Clpm.reset with cur := 2 } 3).host.mb.goal = some (0, 3) ∧
      ¬ stepAllowed (goalS Clpm.reset 2) 0 1 ∧ (State.pmOf (goalS { Clpm.reset with busy := true } 2) 0).busy = true :=
  ⟨⟨by decide, by decide +kernel, by decide +kernel⟩, rfl, fun h => absurd (h.2.1 rfl).2.2 (by decide +kernel), rfl⟩
theorem test_mailbox_goal :
    gives (.mbClpm 0) (goalS { Clpm.reset with cur := 1, retv := true } 3) (fun u => (u.cluster 0).pm.busy && (u.cluster 0).pm.dest = 2 &&
      u.agenda = [.clpmStepDone 0, .mbClpm 0] && u.host.mb.busy) = true ∧
    gives (.mbClpm 0) (goalS { Clpm.reset with busy := true } 3) (fun u => u.agenda = [.mbClpm 0]) = true ∧
    gives (.mbClpm 0) (goalS { Clpm.reset with cur := 3 } 3) (fun u => u.host.mb.status = 0 && !u.host.mb.busy && u.host.mb.goal = none) = true ∧
    gives (.mbClpm 0) (goalS Clpm.reset 3) (fun u => u.host.mb.status = 0x43 && (u.cluster 0).pm.err) = true := by decide +kernel
/-- The registers of BAR0 that the host reads (19 R372-R374, R380, 21 R393, R396). -/
theorem test_bar0 :
    let s := { pmS { Clpm.reset with estop := true, pend := true } with hbm := { s0.hbm with pchs := [(2, { Pch.reset with lc := 7, sc := 9 })] } }
    s.bar0 0 = 0x4E374352 ∧ s.bar0 0x30000 = 4 ∧ (s.bar0 0x30018).getLsbD 0 = true ∧ s.bar0 0x1000000 = 0x041801 ∧
      s.bar0 (0x1010000 + 128) = 0x0200 * 2 ^ 32 ∧ s.bar0 0x40000 = 0 := by decide +kernel
/-- A pseudo-channel that retrains holds a host access (21 R386, R392). -/
def frozenS : State := { pchS { Pch.reset with st := 2 } with hbm := { s0.hbm with pchs := [(pchOf 0x100, { Pch.reset with st := 2 })] } }
theorem witness_HostHeld : frozenS.host.booted = true ∧ ∃ j ∈ pchsOf 0x100 8, frozenS.frozen j = true :=
  ⟨rfl, pchOf 0x100, by decide +kernel, by decide +kernel⟩
theorem test_host_held : gives (.hostCxlMemAccess (.read 0x100 8)) frozenS (fun u => u.agenda = [.hostCxlMemAccess (.read 0x100 8)] &&
    u.host = frozenS.host) = true := by decide +kernel
/-- A remap table that is lost: the read sent to its pseudo-channel completes with poison. -/
def sentS : State := { outS (ldOut 0x40100) with turn := .event 0 }
theorem witness_RemapError :
    Outstanding sentS 0 0 outT (ldOut 0x40100) outLd 0x40100 ∧ (sentS.pch (pchOf 0x40100)).st = 0 ∧ inHbm 0x40100 = true ∧ Calm sentS :=
  ⟨⟨rfl, by decide +kernel, rfl, rfl, rfl, rfl, ⟨0x100, rfl⟩, rfl, rfl, rfl, rfl, rfl, by decide +kernel, rfl, by decide +kernel, by decide +kernel,
    by decide +kernel⟩, by decide +kernel, by decide +kernel, ⟨by decide +kernel, rfl⟩⟩
theorem test_remap_error : gives (.remapTableError (pchOf 0x40100)) sentS (fun u => (u.core 0).loads = [] &&
    (u.pch (pchOf 0x40100)).st = 1 && (u.fibre? 0 0).map (fun v => (v.why, v.pc, match v.reg 4 with
      | .u _ p => p
      | _ => false)) = some (.none, 16, true)) = true := by decide +kernel
/-- R389: a check that fails in a core poisons the lane, one in the L2 the line. -/
theorem test_upsets :
    let s := { onF lanes4 with upsets := [.lane 0 0 4 2] }
    (s.applyUpsets.fibre? 0 0).map (fun v => v.reg 4) = some (.e [(0, 7), (1, 8), (2, 9), (3, 10)] [2]) ∧
      ({ s0 with upsets := [.line 5] } : State).applyUpsets.mem.plines = [5] := by decide +kernel
/-- R384, R381: RESTORE puts the context's registers back. -/
theorem test_kept_registers :
    let s := { pmS { flushedP with save := true } with ctxs := [(0, { ctx0 with knit := 9, wdog := 5 })] }
    gives (.saveDone 0) s (fun u => (Tab.find? (u.cluster 0).pm.keptCsr 0).isSome &&
      gives (.restoreDone 0) { u with ctxs := [(0, ctx0)], clusters := [(0, { u.cluster 0 with pm := { (u.cluster 0).pm with restore := true } })] }
        (fun v => (v.ctx? 0).map (fun k => (k.knit, k.wdog)) = some (9, 5))) = true := by decide +kernel
/-- The states above whose accesses nothing holds and no erred line meets. -/
theorem witness_Calm :
    Calm (ctxS ctxL) ∧ Calm (restS 0x0200) ∧ Calm (blockS createC) ∧ Calm s0 ∧ Calm dataS ∧ Calm clpmS ∧ Calm haltS ∧
      Calm (goalS { Clpm.reset with cur := 2 } 3) ∧ (jobS none).mem.flaws = [] ∧ (taskS []).mem.flaws = [] ∧ (pmS flushedP).mem.flaws = [] :=
  ⟨⟨rfl, rfl⟩, ⟨rfl, rfl⟩, ⟨rfl, rfl⟩, ⟨rfl, rfl⟩, ⟨rfl, rfl⟩, ⟨rfl, rfl⟩, ⟨rfl, rfl⟩, ⟨rfl, rfl⟩, rfl, rfl, rfl⟩
/-- The lane of an expanded fibre that a failed check hits. -/
theorem witness_Upset :
    let s := { onF lanes4 with upsets := [.lane 0 0 4 2] }
    s.upsets = [.lane 0 0 4 2] ∧ s.fibre? 0 0 = some lanes4 ∧ lanes4.reg 4 = .e [(0, 7), (1, 8), (2, 9), (3, 10)] [] ∧ 0 < Config.numCores :=
  ⟨rfl, rfl, rfl, by decide⟩

end Sys2Proof.Tests
end

section
/-!
What every step keeps (O4). `Kept` is the invariant: memory's form, and the form of each core's and each context's fibres, while the
turn stays. Each operation of the model has one lemma `Kept.<operation>`, in the order of the model's text; a change of a thread has
one about its cuts, `Cuts.<change>`. The dispatch and the step put them together.
-/

namespace Sys2Proof.Machine

open Sys2Proof Sys2Proof.Spec

/-! ### Tables -/

/-- Every entry of a table has a property. -/
def AllVals {α : Type} (p : α → Prop) (t : Tab α) : Prop := ∀ kv ∈ t, p kv.2

section
variable {α β : Type} {p : α → Prop} {t : Tab α} {k : Nat} {v d : α}

@[simp] theorem AllVals.nil : AllVals p [] := fun _ hk => absurd hk List.not_mem_nil

theorem Tab.mem_of_find? (h : Tab.find? t k = some v) : (k, v) ∈ t := by
  induction t with
  | nil => simp [Tab.find?] at h
  | cons x t ih =>
    obtain ⟨k', v'⟩ := x
    simp only [Tab.find?] at h
    split at h
    · simp_all
    · exact List.mem_cons_of_mem _ (ih h)

theorem AllVals.find? (h : AllVals p t) (hf : Tab.find? t k = some v) : p v := h _ (Tab.mem_of_find? hf)

theorem AllVals.get (h : AllVals p t) (hd : p d) : p (Tab.get t d k) := by
  unfold Tab.get
  split
  · exact h.find? ‹_›
  · exact hd

theorem Tab.mem_set {kv : Nat × α} (h : kv ∈ Tab.set t k v) : kv = (k, v) ∨ kv ∈ t := by
  induction t with
  | nil => exact .inl (List.mem_singleton.1 h)
  | cons x t ih =>
    obtain ⟨k', v'⟩ := x
    simp only [Tab.set] at h
    split at h
    · exact List.mem_cons.1 h
    · split at h
      · exact (List.mem_cons.1 h).imp_right (List.mem_cons_of_mem _)
      · rcases List.mem_cons.1 h with h | h
        · exact .inr (h ▸ List.mem_cons_self)
        · exact (ih h).imp_right (List.mem_cons_of_mem _)

theorem AllVals.set (h : AllVals p t) (hv : p v) : AllVals p (Tab.set t k v) := fun kv hk => by
  rcases Tab.mem_set hk with rfl | hk
  · exact hv
  · exact h kv hk

theorem Tab.del_sublist (t : Tab α) (k : Nat) : List.Sublist (Tab.del t k) t := by
  induction t with
  | nil => exact .slnil
  | cons x t ih =>
    obtain ⟨k', v'⟩ := x
    simp only [Tab.del]
    split
    · exact ih.cons _
    · exact ih.cons_cons _

theorem AllVals.sublist {u : Tab α} (h : AllVals p t) (hu : List.Sublist u t) : AllVals p u := fun kv hk => h kv (hu.subset hk)

theorem AllVals.del (h : AllVals p t) : AllVals p (Tab.del t k) := h.sublist (Tab.del_sublist t k)

theorem AllVals.filter {f : Nat × α → Bool} (h : AllVals p t) : AllVals p (List.filter f t) := h.sublist List.filter_sublist

theorem AllVals.setAll {l : List (Nat × α)} (h : AllVals p t) (hl : ∀ kv ∈ l, p kv.2) : AllVals p (Tab.setAll t l) := by
  induction l generalizing t with
  | nil => exact h
  | cons x l ih => exact ih (h.set (hl x List.mem_cons_self)) fun kv hk => hl kv (List.mem_cons_of_mem _ hk)

theorem AllVals.map {q : β → Prop} {f : Nat × α → Nat × β} (h : AllVals p t) (hf : ∀ kv, p kv.2 → q (f kv).2) :
    AllVals q (List.map f t) := fun kv hk => by
  obtain ⟨x, hx, rfl⟩ := List.mem_map.1 hk
  exact hf x (h x hx)

/-! Rising keys. -/

theorem rising_iff : rising t = true ↔ t.Pairwise fun a b => a.1 < b.1 := by simp [rising]

theorem rising_set (h : rising t = true) : rising (Tab.set t k v) = true := by
  rw [rising_iff] at h ⊢
  induction t with
  | nil => exact List.pairwise_singleton _ _
  | cons x t ih =>
    obtain ⟨k', v'⟩ := x
    obtain ⟨hx, ht⟩ := List.pairwise_cons.1 h
    simp only [Tab.set]
    split
    next hlt =>
      refine List.pairwise_cons.2 ⟨fun y hy => ?_, h⟩
      rcases List.mem_cons.1 hy with rfl | hy
      · exact hlt
      · exact lt_trans hlt (hx y hy)
    next hge =>
      split
      next heq => exact List.pairwise_cons.2 ⟨heq ▸ hx, ht⟩
      next hne =>
        refine List.pairwise_cons.2 ⟨fun y hy => ?_, ih ht⟩
        rcases Tab.mem_set hy with rfl | hy
        · simp only; omega
        · exact hx y hy

theorem rising_sublist {u : Tab α} (h : rising t = true) (hu : List.Sublist u t) : rising u = true :=
  rising_iff.2 ((rising_iff.1 h).sublist hu)

theorem rising_del (h : rising t = true) : rising (Tab.del t k) = true := rising_sublist h (Tab.del_sublist t k)

theorem rising_filter {f : Nat × α → Bool} (h : rising t = true) : rising (List.filter f t) = true :=
  rising_sublist h List.filter_sublist

theorem rising_setAll {l : List (Nat × α)} (h : rising t = true) : rising (Tab.setAll t l) = true := by
  induction l generalizing t with
  | nil => exact h
  | cons x l ih => exact ih (rising_set h)

theorem rising_map {f : Nat × α → Nat × β} (h : rising t = true) (hf : ∀ kv, (f kv).1 = kv.1) : rising (List.map f t) = true :=
  rising_iff.2 (List.pairwise_map.2 ((rising_iff.1 h).imp fun {a b} hab => by rw [hf, hf]; exact hab))

end

/-! ### The invariant -/

/-- Where `P` holds, a fibre that is not expanded has its cuts in normal form. -/
def Cuts (P : Prop) (t : Thread) : Prop := P → t.expanded = false → ∀ kv ∈ t.preds, kv.2.norm t.box = kv.2

/-- What a core keeps. -/
def CoreOk (F : Prop) (x : Core) : Prop :=
  (F → rising x.fibres = true) ∧ AllVals (Cuts F) x.fibres ∧ AllVals (fun r : SwapRec => Cuts F r.th) x.swaps

/-- What a core's saved area keeps. -/
def SavedOk (F : Prop) (x : Saved) : Prop :=
  AllVals (Cuts F) x.fibres ∧ AllVals (fun r : SwapRec => Cuts F r.th) x.swaps

/-- What a context keeps. -/
def CtxOk (F : Prop) (k : Ctx) : Prop := AllVals (SavedOk F) k.saved

/-- What the steps keep, the turn staying with `T`: memory's form where `M` holds, the fibres' form where `F` holds. The two
statements are its cases (True, False) and (False, True). -/
def Kept (M F : Prop) (T : Turn) (s : State) : Prop :=
  (M → s.mem.wf = true) ∧ AllVals (CoreOk F) s.cores ∧ AllVals (CtxOk F) s.ctxs ∧ s.turn = T

/-- `F`, for the thread of a turn that is a fibre's. -/
def Ranged (F : Prop) : Turn → Prop
  | .fibre _ _ => F
  | _ => False

/-! ### Cuts of one fibre -/

section
variable {P Q F : Prop} {T : Turn} {t u : Thread} {q : Pred} {b : Box} {n : Nat}

/-- A predicate is in normal form for a fibre, where `P` holds and the fibre is not expanded. -/
def InForm (P : Prop) (t : Thread) (q : Pred) : Prop := P → t.expanded = false → q.norm t.box = q

theorem normalCuts_iff : NormalCuts t ↔ Cuts True t := by
  have hbox : t.setBox t.box = t ↔ ∀ kv ∈ t.preds, kv.2.norm t.box = kv.2 := by
    calc t.setBox t.box = t
      _ ↔ t.preds.map (fun kv => (kv.1, kv.2.norm t.box)) = t.preds.map id := by
        rw [List.map_id]
        exact ⟨fun h => congrArg Thread.preds h, fun h => by unfold Thread.setBox; rw [h]⟩
      _ ↔ _ := by rw [List.map_inj_left]; simp [Prod.ext_iff]
  simp [NormalCuts, Cuts, hbox]

theorem Cuts.imp (h : Cuts P t) (hq : Q → P) : Cuts Q t := fun hQ => h (hq hQ)

theorem Ranged.imp : Ranged F T → F := by
  cases T <;> simp [Ranged]

theorem Cuts.ranged (h : Cuts F t) : Cuts (Ranged F T) t := h.imp Ranged.imp

theorem Cuts.of_expanded (h : t.expanded = true) : Cuts P t := fun _ he => by simp [h] at he

theorem Cuts.of_preds_nil (h : t.preds = []) : Cuts P t := fun _ _ kv hk => by simp [h] at hk

theorem Cuts.of_same (h : Cuts P t) (hx : u.expanded = t.expanded) (hb : u.box = t.box) (hp : u.preds = t.preds) : Cuts P u := by
  unfold Cuts
  rw [hx, hb, hp]
  exact h

theorem Pred.norm_c_eq_self {a : Axis} {thr : Nat} {ge : Bool} :
    (Pred.c a thr ge).norm b = .c a thr ge ↔ b.lo a < thr ∧ thr < b.hi a := by
  simp only [Pred.norm]
  split
  · cases ge <;> simp <;> omega
  · split
    · cases ge <;> simp <;> omega
    · simp; omega

theorem Pred.norm_norm (b : Box) (q : Pred) : (q.norm b).norm b = q.norm b := by
  cases q with
  | c a thr ge =>
    by_cases h : b.lo a < thr ∧ thr < b.hi a
    · rw [Pred.norm_c_eq_self.2 h, Pred.norm_c_eq_self.2 h]
    · rw [Pred.norm]
      split
      · cases ge <;> rfl
      · split
        · cases ge <;> rfl
        · exact absurd ⟨by omega, by omega⟩ h
  | t => rfl
  | f => rfl
  | m l => rfl

theorem Cuts.setBox : Cuts P (t.setBox b) := fun _ _ kv hk => by
  obtain ⟨x, -, rfl⟩ := List.mem_map.1 hk
  exact Pred.norm_norm _ _

@[simp] theorem InForm.true_ : InForm P t .t := fun _ _ => rfl
@[simp] theorem InForm.false_ : InForm P t .f := fun _ _ => rfl
@[simp] theorem InForm.mask {l : List Nat} : InForm P t (.m l) := fun _ _ => rfl

theorem InForm.norm : InForm P t (q.norm t.box) := fun _ _ => Pred.norm_norm _ _

theorem InForm.neg {l : List Nat} (h : InForm P t q) : InForm P t (q.neg l) := fun hP he => by
  have hq := h hP he
  cases q with
  | c a thr ge => exact Pred.norm_c_eq_self.2 (Pred.norm_c_eq_self.1 hq)
  | t => rfl
  | f => rfl
  | m l => rfl

theorem InForm.simplify : InForm P t (t.simplify q) := fun _ he => by
  cases q with
  | c a thr ge => simp [Thread.simplify, he, Pred.norm_norm]
  | t => rfl
  | f => rfl
  | m l => simp [Thread.simplify, he, Pred.norm]

theorem Cuts.pred (h : Cuts P t) : InForm P t (t.pred n) := fun hP he => by
  refine AllVals.get (p := fun q : Pred => q.norm t.box = q) (h hP he) ?_
  rfl

theorem Cuts.setPred (h : Cuts P t) (hq : InForm P t q) : Cuts P (t.setPred n q) := fun hP he =>
  AllVals.set (p := fun q : Pred => q.norm t.box = q) (h hP he) (hq hP he)

theorem Cuts.leave {a : Word} (h : Cuts P t) : Cuts P (t.leave a) := h

@[simp] theorem cuts_advance : Cuts P t.advance ↔ Cuts P t := by
  simp [Cuts]

theorem Cuts.advance (h : Cuts P t) : Cuts P t.advance := cuts_advance.2 h

theorem Cuts.under (h : Cuts P t) : Cuts P t.under := by
  unfold Thread.under
  split <;> exact h

/-- A fibre in RESOURCE_WAIT stands as what it was before. -/
theorem Cuts.over (h : Cuts P u) : Cuts P (t.over u) := by
  unfold Thread.over
  split <;> exact h

theorem Cuts.resumeNext (h : Cuts P t) : Cuts P t.resumeNext := h.advance

theorem Cuts.ite {c : Prop} [Decidable c] (h : Cuts P t) (hu : Cuts P u) : Cuts P (if c then t else u) := by
  split
  · exact h
  · exact hu

end

/-! ### Shared operations on the state -/

section
variable {M F : Prop} {T : Turn} {s s' : State} {c e k : Nat} {t : Thread} {x : Core}

theorem Kept.turn (h : Kept M F T s) : s.turn = T := h.2.2.2

/-- A state that differs in nothing the invariant speaks of. -/
theorem Kept.of_same (h : Kept M F T s) (hm : s'.mem.cells = s.mem.cells) (hc : s'.cores = s.cores) (hk : s'.ctxs = s.ctxs)
    (ht : s'.turn = s.turn) : Kept M F T s' := by
  unfold Kept Memory.wf
  rw [hm, hc, hk, ht]
  exact h

theorem Kept.of_fst {α : Type} {p : State × α} {a : α} (hp : p = (s', a)) (h : Kept M F T p.1) : Kept M F T s' := by
  rw [hp] at h
  exact h

theorem Cuts.of_fst {α : Type} {p : Thread × α} {a : α} (hp : p = (t, a)) (h : Cuts F p.1) : Cuts F t := by
  rw [hp] at h
  exact h

theorem Cuts.of_snd {α : Type} {p : α × Thread} {a : α} (hp : p = (a, t)) (h : Cuts F p.2) : Cuts F t := by
  rw [hp] at h
  exact h

/-- An operation that may refuse keeps the invariant where it gives a state. -/
def OptKept (M F : Prop) (T : Turn) (o : Option State) : Prop := ∀ s, o = some s → Kept M F T s

theorem Kept.of_some {o : Option State} (ho : o = some s) (h : OptKept M F T o) : Kept M F T s := h s ho

theorem OptKept.none : OptKept M F T none := fun _ h => nomatch h

theorem OptKept.some (h : Kept M F T s) : OptKept M F T (some s) := fun _ hs => Option.some.inj hs ▸ h

/-- What a meaning keeps, where it gives a state. -/
def OutKept (M F : Prop) (T : Turn) (o : Out) : Prop := ∀ s, o = .next s → Kept M F T s

theorem OutKept.next (h : Kept M F T s) : OutKept M F T (.next s) := fun _ hs => by
  cases hs
  exact h

theorem OutKept.faulted {r : Fault} : OutKept M F T (.fault r) := fun _ hs => nomatch hs

theorem Kept.foldl {α : Type} {l : List α} {f : State → α → State} (h : Kept M F T s)
    (hf : ∀ s a, Kept M F T s → Kept M F T (f s a)) : Kept M F T (l.foldl f s) := by
  induction l generalizing s with
  | nil => exact h
  | cons a l ih => exact ih (hf s a h)

theorem Kept.foldl_fst {α β : Type} {l : List α} {p : State × β} {f : State × β → α → State × β} (h : Kept M F T p.1)
    (hf : ∀ p a, Kept M F T p.1 → Kept M F T (f p a).1) : Kept M F T (l.foldl f p).1 := by
  induction l generalizing p with
  | nil => exact h
  | cons a l ih => exact ih (hf p a h)

theorem CoreOk.of_same {x y : Core} (h : CoreOk F x) (hf : y.fibres = x.fibres) (hs : y.swaps = x.swaps) : CoreOk F y := by
  unfold CoreOk
  rw [hf, hs]
  exact h

theorem CoreOk.mapFibres {x y : Core} {g : Nat × Thread → Thread} (hx : CoreOk F x)
    (hf : y.fibres = x.fibres.map fun kv => (kv.1, g kv)) (hs : y.swaps = x.swaps) (hg : ∀ kv, Cuts F kv.2 → Cuts F (g kv)) :
    CoreOk F y := by
  obtain ⟨hr, hc, hw⟩ := hx
  unfold CoreOk
  rw [hf, hs]
  exact ⟨fun hF => rising_map (hr hF) fun _ => rfl, hc.map hg, hw⟩

theorem CtxOk.of_same {k y : Ctx} (h : CtxOk F k) (hs : y.saved = k.saved) : CtxOk F y := by
  unfold CtxOk
  rw [hs]
  exact h

theorem CoreOk.reset : CoreOk F Core.reset := ⟨fun _ => rfl, .nil, .nil⟩

theorem Kept.core (h : Kept M F T s) : CoreOk F (s.core c) := h.2.1.get .reset

theorem Kept.ctx? {y : Ctx} (h : Kept M F T s) (hy : s.ctx? k = some y) : CtxOk F y := h.2.2.1.find? hy

theorem Kept.fibre? (h : Kept M F T s) (ht : s.fibre? c e = some t) : Cuts F t := h.core.2.1.find? ht

theorem Kept.setCore (h : Kept M F T s) (hx : CoreOk F x) : Kept M F T (s.setCore c x) := ⟨h.1, h.2.1.set hx, h.2.2⟩

theorem Kept.setCtx {y : Ctx} (h : Kept M F T s) (hy : CtxOk F y) : Kept M F T (s.setCtx k y) :=
  ⟨h.1, h.2.1, h.2.2.1.set hy, h.2.2.2⟩

theorem CoreOk.setFibre (h : CoreOk F x) (ht : Cuts F t) : CoreOk F { x with fibres := Tab.set x.fibres e t } :=
  ⟨fun hF => rising_set (h.1 hF), h.2.1.set ht, h.2.2⟩

theorem CoreOk.delFibre (h : CoreOk F x) : CoreOk F { x with fibres := Tab.del x.fibres e } :=
  ⟨fun hF => rising_del (h.1 hF), h.2.1.del, h.2.2⟩

theorem Kept.setFibre (h : Kept M F T s) (ht : Cuts F t) : Kept M F T (s.setFibre c e t) := h.setCore (h.core.setFibre ht)

theorem Kept.modFibre {f : Thread → Thread} (h : Kept M F T s) (hf : ∀ t, Cuts F t → Cuts F (f t)) :
    Kept M F T (s.modFibre c e f) := by
  unfold State.modFibre
  split
  next t ht => exact h.setFibre (hf t (h.fibre? ht))
  next => exact h

theorem Kept.cur (h : Kept M F T s) (ht : s.cur? = some t) : Cuts (Ranged F T) t := by
  obtain rfl := h.turn
  unfold State.cur? at ht
  generalize s.turn = T at *
  cases T with
  | fibre c e => exact h.fibre? ht
  | stream c => exact fun hR => hR.elim
  | mc k => exact fun hR => hR.elim
  | event n => simp at ht
  | input => simp at ht
  | idle => simp at ht

theorem Kept.setCur (h : Kept M F T s) (ht : Cuts (Ranged F T) t) : Kept M F T (s.setCur t) := by
  have hT := h.turn
  unfold State.setCur
  split
  next c e hc =>
    obtain rfl := hT.symm.trans hc
    exact h.setFibre ht
  next c hc =>
    split
    · exact h.setCore h.core
    · exact h
  next k hk => exact h
  next => exact h

end

/-! ### Shared operations -/

section
variable {M F P : Prop} {T : Turn} {s s' : State} {c e k : Nat} {t u : Thread} {x : Core}

theorem Kept.asTurn {T' : Turn} {f : State → State} (h : Kept M F T s) (hf : ∀ s, Kept M F T' s → Kept M F T' (f s)) :
    Kept M F T (s.asTurn T' f) := by
  obtain ⟨hm, hc, hk, ht⟩ := hf { s with turn := T' } ⟨h.1, h.2.1, h.2.2.1, rfl⟩
  exact ⟨hm, hc, hk, h.turn⟩

theorem CoreOk.setCtx {k : Nat} {y : CoreCtx} (hx : CoreOk F x) : CoreOk F (x.setCtx k y) := by
  unfold Core.setCtx
  exact hx

theorem Kept.setCluster {k : Nat} {x : Cluster} (h : Kept M F T s) : Kept M F T (s.setCluster k x) := by
  unfold State.setCluster
  exact h

theorem Kept.setMc {k : Nat} {m : Mc} (h : Kept M F T s) : Kept M F T (s.setMc k m) := by
  unfold State.setMc
  exact h.setCluster

theorem Kept.setLaunch {l : Nat} {x : Launch} (h : Kept M F T s) : Kept M F T (s.setLaunch l x) := by
  unfold State.setLaunch
  exact h

theorem Kept.setDie {d : Nat} {x : Die} (h : Kept M F T s) : Kept M F T (s.setDie d x) := by
  unfold State.setDie
  exact h

theorem Kept.post {e : Instr} (h : Kept M F T s) : Kept M F T (s.post e) := by
  unfold State.post
  exact h

theorem Kept.advance (h : Kept M F T s) : Kept M F T s.advance := by
  unfold State.advance
  split
  next hx => exact h.setCur (.advance (h.cur hx))
  · exact h

theorem Kept.endClause (h : Kept M F T s) : Kept M F T s.endClause := by
  unfold State.endClause
  split
  next hx => exact h.setCur (.leave (h.cur hx))
  · exact h

theorem Kept.orWait (h : Kept M F T s) (h' : Kept M F T s') : Kept M F T (s.orWait s') := by
  unfold State.orWait
  split
  · split
    · exact h'
    · exact h.modFibre fun _ hx3 => hx3
  · exact h'

theorem Kept.pushTrap {k : Nat} {r : TrapRec} (h : Kept M F T s) : Kept M F T (s.pushTrap k r) := by
  unfold State.pushTrap
  extract_lets +onlyGivenNames c
  split
  · exact h.setCluster
  · exact .post h.setCluster

theorem Kept.mcTrap {k : Nat} {cause : BitVec 8} {next : Bool} (h : Kept M F T s) : Kept M F T (s.mcTrap k cause next) := by
  unfold State.mcTrap
  extract_lets +onlyGivenNames m
  split
  · exact h
  · extract_lets +onlyGivenNames t t' res
    exact h.setMc

theorem Kept.fibreTrap {cause : BitVec 8} {addr aux : Word} {who : Option (List Nat)} {next : Bool} (h : Kept M F T s)
    (ht : Cuts F t) : Kept M F T (s.fibreTrap c e t cause addr aux who next) := by
  unfold State.fibreTrap
  extract_lets +onlyGivenNames pc t1
  have ht1 : Cuts F t1 := by
    unfold t1
    split
    · exact ht.advance
    · exact ht
  extract_lets +onlyGivenNames t1'
  have ht1' : Cuts F t1' := ht1
  extract_lets +onlyGivenNames ws
  split
  · exact .pushTrap (h.setFibre ht1')
  · exact .post (h.setFibre ht1')

theorem Kept.streamTrap {y : Stream} {cause : BitVec 8} {addr aux : Word} {next : Bool} (h : Kept M F T s) :
    Kept M F T (s.streamTrap c y cause addr aux next) := by
  unfold State.streamTrap
  extract_lets +onlyGivenNames t t'
  exact .pushTrap (h.setCore (.of_same h.core rfl rfl))

theorem Kept.takeTrap {cause : BitVec 8} {addr aux : Word} {who : Option (List Nat)} {next : Bool} (h : Kept M F T s) :
    Kept M F T (s.takeTrap cause addr aux who next) := by
  unfold State.takeTrap
  split
  · split
    next hx2 => exact h.fibreTrap (h.fibre? hx2)
    · exact h
  · split
    · exact h.streamTrap
    · exact h
  · exact h.mcTrap
  · exact h

theorem Kept.trapAll {cause : BitVec 8} (h : Kept M F T s) : Kept M F T (s.trapAll cause) := by
  unfold State.trapAll
  exact h.takeTrap

theorem Kept.mcReturn (h : Kept M F T s) : Kept M F T (s.mcReturn k) := by
  unfold State.mcReturn
  extract_lets +onlyGivenNames m
  split
  · exact h.setMc
  · extract_lets +onlyGivenNames pos
    exact h.setMc

theorem Kept.waitCur {st : FState} {why : Why} (h : Kept M F T s) : Kept M F T (s.waitCur st why) := by
  unfold State.waitCur
  split
  next hx => exact h.setCur (.of_same (h.cur hx) rfl rfl rfl)
  · exact h

theorem Kept.resourcesFreed (h : Kept M F T s) : Kept M F T (s.resourcesFreed c) := by
  unfold State.resourcesFreed
  split
  · exact h.post
  · exact h

end

/-! ### Fibres -/

section
variable {M F P : Prop} {T : Turn} {s s' : State} {c e k : Nat} {t u : Thread} {x : Core} {q : Pred}

theorem Kept.curFibre (h : Kept M F T s) (hT : s.turn = .fibre c e) (ht : s.cur? = some t) : Cuts F t := by
  obtain rfl := h.turn.symm.trans hT
  exact h.cur ht

theorem CoreOk.swap {r : SwapRec} (hx : CoreOk F x) (hr : Tab.find? x.swaps e = some r) : Cuts F r.th := hx.2.2.find? hr

theorem Cuts.modViewAt {p : Nat} {f : View → View} (ht : Cuts P t) : Cuts P (s.modViewAt t p f) := by
  unfold State.modViewAt
  split
  · exact ht
  · exact ht

theorem Cuts.modViewOf {ps : List Nat} {f : View → View} (ht : Cuts P t) : Cuts P (s.modViewOf t ps f) := by
  unfold State.modViewOf
  split
  · exact ht
  next hne =>
    clear hne
    induction ps generalizing t with
    | nil => exact ht
    | cons p ps ih => exact ih ht.modViewAt

theorem Cuts.gain {hb : List Nat} (ht : Cuts P t) : Cuts P (t.gain hb) := ht

theorem Cuts.progressed (ht : Cuts P t) : Cuts P t.progressed := ht

theorem Cuts.putPairU {n : Nat} {v : Word} (ht : Cuts P t) : Cuts P (t.putPairU n v) := by
  unfold Thread.putPairU
  split
  · exact ht
  · exact ht

theorem Cuts.voteResult {i : Instr} {arrived trues : Nat} (ht : Cuts P t) : Cuts P (t.voteResult i arrived trues) := by
  have hbit : ∀ b : Bool, InForm P t (if b then .t else .f) := fun b => by cases b <;> simp
  unfold Thread.voteResult
  split
  next o => exact ht.setPred (by simpa using hbit (decide (0 < trues)))
  next o => exact ht.setPred (by simpa using hbit (decide (trues = arrived)))
  next o =>
    have h1 : Cuts P (if o.d.nwb then t else t.putPairU o.d.n.toNat (BitVec.ofNat 64 trues)) := .ite ht ht.putPairU
    dsimp only
    split
    · exact h1
    · exact h1
  next => exact ht

theorem Cuts.placeholder : Cuts P t.placeholder := .of_preds_nil rfl

theorem CoreOk.setSwapped {r : SwapRec} (hx : CoreOk F x) (ht : Cuts F t) :
    CoreOk F { x with swaps := Tab.set x.swaps e { r with th := t }, fibres := Tab.set x.fibres e t.placeholder } := by
  obtain ⟨hr, hf, hs⟩ := hx
  exact ⟨fun hF => rising_set (hr hF), hf.set .placeholder, hs.set ht⟩

theorem Kept.setSwapped {r : SwapRec} (h : Kept M F T s) (ht : Cuts F t) : Kept M F T (s.setSwapped c e r t) :=
  h.setCore (h.core.setSwapped ht)

theorem Kept.modThread {f : Thread → Thread} (h : Kept M F T s) (hf : ∀ t, Cuts F t → Cuts F (f t)) :
    Kept M F T (s.modThread c e f) := by
  unfold State.modThread
  split
  next r hr => exact h.setSwapped (hf _ (h.core.swap hr))
  next => exact h.modFibre hf

theorem Kept.wake {f : Thread → Thread} (h : Kept M F T s) (hf : ∀ t, Cuts F t → Cuts F (f t)) : Kept M F T (s.wake c e f) := by
  unfold State.wake
  extract_lets +onlyGivenNames s1
  have hs1 : Kept M F T s1 := by
    unfold s1
    exact h.modThread fun _ hx => .over (hf _ hx.under)
  split
  · exact hs1.post
  · exact hs1

theorem Kept.checkSet (h : Kept M F T s) : Kept M F T (s.checkSet c k) := by
  unfold State.checkSet
  extract_lets +onlyGivenNames x
  have hx : CoreOk F x := h.core
  split
  · exact h
  · extract_lets +onlyGivenNames n
    split
    · exact h.setCore hx
    · split
      · extract_lets +onlyGivenNames ws hb s1
        have hs1 : Kept M F T s1 := h.setCore hx
        refine .resourcesFreed ?_
        refine hs1.foldl ?_
        intro _ _ hx5
        refine hx5.wake ?_
        intro _ hx6
        extract_lets +onlyGivenNames t1
        have ht1 : Cuts F t1 := by
          unfold t1
          split
          · exact hx6.voteResult
          · exact hx6
        exact .resumeNext ht1.gain
      · exact h

theorem Kept.addFibre (h : Kept M F T s) (ht : Cuts F t) : Kept M F T (s.addFibre c t).1 :=
  h.setFibre (c := c) (t := { t with
    uid := s.fresh, tokId := s.fresh, failed := [], tokHb := [], fbrec := none, peeled := false, slotNo := none }) ht

theorem Kept.followWith {es : List Nat} (h : Kept M F T s) : Kept M F T (s.followWith c es) := by
  unfold State.followWith
  exact h.setCore (.of_same h.core rfl rfl)

theorem Cuts.onLanes {ps : List Nat} (ht : Cuts P t) : Cuts P (t.onLanes ps) := fun hP he => by
  refine AllVals.map (p := fun q : Pred => q.norm t.box = q) (q := fun q : Pred => q.norm t.box = q) (ht hP he) fun kv hk => ?_
  dsimp only
  split
  · rfl
  · exact hk

theorem Cuts.parts (ht : Cuts P t) : Cuts P (t.parts q).1 := by
  unfold Thread.parts
  split
  · extract_lets +onlyGivenNames lo
    have hlo : Cuts P lo := .setBox
    extract_lets +onlyGivenNames hi
    have hhi : Cuts P hi := .setBox
    split
    · exact hhi
    · exact hlo
  · exact ht.onLanes
  · exact ht

theorem Cuts.parts_snd (ht : Cuts P t) : Cuts P (t.parts q).2 := by
  unfold Thread.parts
  split
  · extract_lets +onlyGivenNames lo
    have hlo : Cuts P lo := .setBox
    extract_lets +onlyGivenNames hi
    have hhi : Cuts P hi := .setBox
    split
    · exact hlo
    · exact hhi
  · exact ht.onLanes
  · exact ht

theorem Kept.splitTwo {low other : Thread} (h : Kept M F T s) (hl : Cuts F low) (ho : Cuts F other) :
    Kept M F T (s.splitTwo c e low other).1 := by
  unfold State.splitTwo
  exact .addFibre (h.setFibre hl) ho

theorem Kept.splitAt {run pass : State → State} (h : Kept M F T s) (hrun : ∀ s, Kept M F T s → Kept M F T (run s))
    (hpass : ∀ s, Kept M F T s → Kept M F T (pass s)) : Kept M F T (s.splitAt q run pass) := by
  unfold State.splitAt
  split
  next hturn hcur =>
    split
    next hparts =>
      have hyes : Cuts F _ := .of_fst hparts (.parts (h.curFibre hturn hcur))
      have hno : Cuts F _ := .of_snd hparts (.parts_snd (h.curFibre hturn hcur))
      split
      · split
        next htwo => exact h.orWait (hpass _ (hrun _ (.followWith (.of_fst htwo (h.splitTwo hyes hno.advance)))))
      · split
        next htwo => exact h.orWait (hpass _ (.followWith (.of_fst htwo (h.splitTwo hno.advance hyes))))
  · exact h

theorem Kept.guardedDst {g : Guard} {run : Option (List Nat) → State → State} (h : Kept M F T s)
    (hrun : ∀ m s, Kept M F T s → Kept M F T (run m s)) : Kept M F T (s.guardedDst g run) := by
  unfold State.guardedDst
  split
  · exact h
  · split
    · exact hrun _ _ h
    · exact h.advance
    · exact hrun _ _ h
    · exact h.splitAt (fun _ hx3 => hrun _ _ hx3) fun _ hx3 => hx3

theorem Kept.guarded {g : Guard} {run : Option (List Nat) → State → State} (h : Kept M F T s)
    (hrun : ∀ m s, Kept M F T s → Kept M F T (run m s)) : Kept M F T (s.guarded g run) := by
  unfold State.guarded
  split
  · exact h
  · split
    · exact hrun _ _ h
    · exact h.advance
    · exact hrun _ _ h
    · exact h.splitAt (fun _ hx3 => hrun _ _ hx3) fun _ hx3 => hx3

theorem Cuts.expandIn {blocks : List Nat} : Cuts P (t.expandIn blocks) := .of_expanded rfl

theorem Kept.grow (h : Kept M F T s) : Kept M F T (s.grow c e t) := by
  unfold State.grow
  extract_lets +onlyGivenNames n free
  exact h.setFibre .expandIn

theorem Kept.cutUp (h : Kept M F T s) : Kept M F T (s.cutUp c t).1 := by
  unfold State.cutUp
  extract_lets +onlyGivenNames pieces s1
  have hs1 : Kept M F T s1 := by
    unfold s1
    refine h.foldl fun s b hs => ?_
    exact hs.addFibre (Cuts.setBox (t := t) (b := b) :)
  split
  · exact hs1
  · exact hs1.post

theorem Kept.expandThen {k : State → State} (h : Kept M F T s) (hk : ∀ s, Kept M F T s → Kept M F T (k s)) :
    Kept M F T (s.expandThen k) := by
  unfold State.expandThen
  split
  · split
    · exact hk _ h
    · split
      next hx4 => exact h.orWait (hk _ (.grow (.of_fst hx4 h.cutUp)))
  · exact hk _ h

/-! Ending. -/

theorem Kept.checkLaunch {l : Nat} (h : Kept M F T s) : Kept M F T (s.checkLaunch l) := by
  unfold State.checkLaunch
  split
  · split
    · exact h.post
    · exact h
  · exact h

theorem Kept.checkInst {i : Nat} (h : Kept M F T s) : Kept M F T (s.checkInst c i) := by
  unfold State.checkInst
  extract_lets +onlyGivenNames x
  have hx : CoreOk F x := h.core
  split
  · exact h
  · extract_lets +onlyGivenNames s1
    have hs1 : Kept M F T s1 := by
      unfold s1
      split
      · exact h
      · split
        next hx4 => exact .setCore (h.setCtx (.of_same (h.ctx? hx4) rfl)) hx
        · exact h
    split
    · exact hs1
    · extract_lets +onlyGivenNames y
      have hy : CoreOk F y := hs1.core
      extract_lets +onlyGivenNames y1
      have hy1 : CoreOk F y1 := hy
      extract_lets +onlyGivenNames s2
      have hs2 : Kept M F T s2 := hs1.setCore hy1
      extract_lets +onlyGivenNames s3
      have hs3 : Kept M F T s3 := by
        unfold s3
        split
        · exact hs2.setLaunch
        · exact hs2
      exact .post hs3.checkLaunch

theorem Kept.addStores {l : Nat} {hb : List Nat} (h : Kept M F T s) : Kept M F T (s.addStores l hb) := by
  unfold State.addStores
  split
  · exact h.setLaunch
  · exact h

theorem Kept.endStores {ps : List Nat} (h : Kept M F T s) : Kept M F T (s.endStores t ps) := by
  unfold State.endStores
  exact h.addStores

theorem CoreOk.endFibre {fo : List Nat} (hx : CoreOk F x) :
    CoreOk F { x with fibres := Tab.del x.fibres e, swaps := Tab.del x.swaps e, follow := fo } := by
  obtain ⟨hr, hf, hs⟩ := hx
  exact ⟨fun hF => rising_del (hr hF), hf.del, hs.del⟩

theorem Kept.endFibre (h : Kept M F T s) : Kept M F T (s.endFibre c e) := by
  unfold State.endFibre
  split
  · exact h
  next hx =>
    extract_lets +onlyGivenNames x
    have hx : CoreOk F x := h.core
    extract_lets +onlyGivenNames s'
    have hs' : Kept M F T s' := h.addStores
    extract_lets +onlyGivenNames s1
    have hs1 : Kept M F T s1 := hs'.setCore hx.endFibre
    extract_lets +onlyGivenNames s2
    have hs2 : Kept M F T s2 := by
      unfold s2
      exact hs1.foldl fun _ _ hx2 => hx2.checkSet
    extract_lets +onlyGivenNames s3
    have hs3 : Kept M F T s3 := by
      unfold s3
      split
      · exact hs2.checkInst
      · exact hs2.checkLaunch
    exact hs3.resourcesFreed

theorem Kept.endLanes {ps : List Nat} (h : Kept M F T s) : Kept M F T (s.endLanes c e ps) := by
  unfold State.endLanes
  split
  · exact h
  next hx =>
    extract_lets +onlyGivenNames left
    split
    · exact h.endFibre
    · exact .foldl (.setFibre h.endStores (.onLanes (h.fibre? hx))) fun _ _ hx3 => hx3.checkSet

end

/-! ### Memory -/

section
variable {M F P : Prop} {T : Turn} {s : State}

theorem Kept.setPch {k : Nat} {x : Pch} (h : Kept M F T s) : Kept M F T (s.setPch k x) := by
  unfold State.setPch
  exact h

theorem Kept.writeBytes {sp : Space} {a : Nat} {data : List Byte} {poison : List Bool} (h : Kept M F T s) :
    Kept M F T (s.writeBytes sp a data poison) := by
  obtain ⟨hm, hc, hk, ht⟩ := h
  have hmem := fun hM => s.wf_writeBytes sp a data poison (hm hM)
  unfold State.writeBytes at hmem ⊢
  split
  · exact ⟨hmem, hc, hk, ht⟩
  next c al =>
    split
    · exact Kept.setCore ⟨hm, hc, hk, ht⟩ (.of_same (Kept.core ⟨hm, hc, hk, ht⟩) rfl rfl)
    · exact ⟨hm, hc, hk, ht⟩

theorem Kept.store {sp : Space} {a : Nat} {data : List Byte} {poison : List Bool} {path : Path} {agent : Nat}
    {rel : List Release} (h : Kept M F T s) : Kept M F T (s.store sp a data poison path agent rel) :=
  (h.writeBytes (sp := sp) (a := a) (data := data) (poison := poison) :)

theorem Kept.markStore {before : State} {f : WriteRec → WriteRec} (h : Kept M F T s) : Kept M F T (s.markStore before f) := by
  unfold State.markStore
  split
  · exact h
  · exact h

theorem Kept.storeBy {v : View} {sp : Space} {a : Nat} {data : List Byte} {poison : List Bool} {path : Path} {agent : Nat}
    {scope : Option Nat} (h : Kept M F T s) : Kept M F T (s.storeBy v sp a data poison path agent scope).1 := by
  unfold State.storeBy
  exact h.store

theorem Kept.fillTlb {sp : VSpace} {va level : Nat} {leaf : Word} (h : Kept M F T s) : Kept M F T (s.fillTlb sp va level leaf) := by
  unfold State.fillTlb
  split
  · split
    · exact h
    · extract_lets +onlyGivenNames ptrs
      exact h
  · split
    · exact h
    · exact h.setMc

theorem Cuts.separate {t : Thread} {n : Nat} (ht : Cuts P t) : Cuts P (t.separate n) := by
  unfold Thread.separate
  extract_lets +onlyGivenNames e
  split
  · exact ht
  · extract_lets +onlyGivenNames hi
    exact ht
  · exact ht

theorem Cuts.write32 {t : Thread} {n : Nat} {r : Opd} (ht : Cuts P t) : Cuts P (t.write32 n r) := by
  unfold Thread.write32
  extract_lets +onlyGivenNames t1
  have ht1 : Cuts P t1 := ht.separate
  extract_lets +onlyGivenNames v
  exact ht1

theorem Cuts.write64 {t : Thread} {n : Nat} {r : Opd} (ht : Cuts P t) : Cuts P (t.write64 n r) := by
  unfold Thread.write64
  split
  · exact ht
  · exact ht
  · extract_lets +onlyGivenNames po lo hi
    exact ht

theorem Cuts.writeReg {t : Thread} {n : Nat} {w : RW} {mask : Option (List Nat)} {r : Opd} (ht : Cuts P t) :
    Cuts P (t.writeReg n w mask r) := by
  unfold Thread.writeReg
  extract_lets +onlyGivenNames t'
  have ht' : Cuts P t' := by
    unfold t'
    split
    · exact ht
    · exact ht
  split
  · extract_lets +onlyGivenNames v
    exact ht'
  · extract_lets +onlyGivenNames r'
    split
    · exact ht'.write64
    · exact ht'.write32

theorem Cuts.writeLatch {t : Thread} {draw : Nat} {w : RW} {mask : Option (List Nat)} {r : Opd} (ht : Cuts P t) :
    Cuts P (t.writeLatch draw w mask r) := by
  unfold Thread.writeLatch
  split
  · exact ht
  · extract_lets +onlyGivenNames j w64 r'
    exact ht

theorem Cuts.putResult {t : Thread} {draw : Nat} {d : Dst} {w : RW} {mask : Option (List Nat)} {r : Opd} (ht : Cuts P t) :
    Cuts P (t.putResult draw d w mask r) := by
  unfold Thread.putResult
  exact .writeLatch (ht.ite ht.writeReg)

theorem Cuts.putCarried {t : Thread} {draw : Nat} {d : Dst} {w : RW} {mask : Option (List Nat)} {r : Opd} (ht : Cuts P t) :
    Cuts P (t.putCarried draw d w mask r) := by
  unfold Thread.putCarried
  extract_lets +onlyGivenNames t1
  have ht1 : Cuts P t1 := ht.putResult
  split
  · exact ht1
  · exact ht1

theorem Kept.poisonTrap {who : Option (List Nat)} {next : Bool} (h : Kept M F T s) : Kept M F T (s.poisonTrap who next) := by
  unfold State.poisonTrap
  extract_lets +onlyGivenNames far
  exact h.takeTrap

theorem Kept.deliver {d : Dst} {w : RW} {mask : Option (List Nat)} {carry : Bool} {r : Opd} (h : Kept M F T s) :
    Kept M F T (s.deliver d w mask carry r) := by
  unfold State.deliver
  split
  · exact h
  next hx =>
    split
    · exact h.setCur (.advance (.putResult (h.cur hx)))
    · split
      · exact h.setCur (.advance (.putCarried (h.cur hx)))
      · extract_lets +onlyGivenNames ps bad good
        split
        · exact h.setCur (.advance (.putResult (h.cur hx)))
        · split
          · exact h.poisonTrap
          · exact .poisonTrap (h.setCur (.putResult (h.cur hx)))

theorem Kept.result {g : Guard} {d : Dst} {w : RW} {carry : Bool} {f : State → Thread → Opd} (h : Kept M F T s) :
    Kept M F T (s.result g d w carry f) := by
  unfold State.result
  refine h.guardedDst ?_
  intro _ _ hx
  split
  · exact hx
  · extract_lets +onlyGivenNames r
    split
    · refine hx.orWait ?_
      refine hx.expandThen ?_
      intro _ hx4
      split
      · exact hx4.deliver
      · exact hx4
    · split
      · exact hx.orWait hx.deliver
      · exact hx.deliver

theorem Kept.forU {d : Dst} {w : RW} {k : State → State} (h : Kept M F T s) (hk : ∀ s, Kept M F T s → Kept M F T (k s)) :
    Kept M F T (s.forU d w k) := by
  unfold State.forU
  split
  · exact h
  · split
    · exact h.orWait (h.expandThen fun _ hx3 => hk _ hx3)
    · exact hk _ h

theorem Cuts.putPred {t : Thread} {n : Nat} {mask : Option (List Nat)} {p : Pred} (ht : Cuts P t) (hp : InForm P t p) :
    Cuts P (t.putPred n mask p) := by
  unfold Thread.putPred
  split
  · exact ht.setPred hp
  · exact ht.setPred .mask

/-- The predicate of a fibre that is not expanded has to be in normal form. -/
theorem Kept.predResult {g : Guard} {n : Nat} {f : State → Thread → Pred × Opd} (h : Kept M F T s)
    (hf : ∀ s t, Cuts (Ranged F T) t → InForm (Ranged F T) t (f s t).1) : Kept M F T (s.predResult g n f) := by
  unfold State.predResult
  refine h.guardedDst fun mask s hs => ?_
  split
  · exact hs
  next t ht =>
    extract_lets +onlyGivenNames put
    have hput : ∀ s, Kept M F T s → Kept M F T (put s) := by
      intro s hs
      unfold put
      split
      · exact hs
      next t ht =>
        have hc := hs.cur ht
        have hp := hf s t hc
        split
        next p o hpo =>
          rw [hpo] at hp
          split
          · exact hs.setCur (.advance (.putPred hc hp))
          · extract_lets +onlyGivenNames ps bad good
            split
            · exact hs.setCur (.advance (.putPred hc hp))
            · split
              · exact hs.poisonTrap
              · exact .poisonTrap (hs.setCur (.putPred hc hp))
    split
    · split
      · exact hput s hs
      · exact hs.expandThen hput
    · exact hput s hs

theorem Kept.needU {x : Src} {w64 next : Bool} {k : Word → State → State} (h : Kept M F T s)
    (hk : ∀ a s, Kept M F T s → Kept M F T (k a s)) : Kept M F T (s.needU x w64 next k) := by
  unfold State.needU
  split
  · exact h
  · extract_lets +onlyGivenNames o
    split
    · split
      · exact h.poisonTrap
      · exact hk _ _ h
    · exact h.trapAll

theorem Kept.progressed (h : Kept M F T s) : Kept M F T (s.progressed) := by
  unfold State.progressed
  split
  next hx => exact h.setCur (.progressed (h.cur hx))
  · exact h

end

/-! ### Faults -/

section
variable {M F P : Prop} {T : Turn} {s : State}

theorem Kept.expandFor {c e : Nat} (h : Kept M F T s) : OptKept M F T (s.expandFor c e) := by
  unfold State.expandFor
  split
  · exact .none
  · split
    · exact .some h
    · extract_lets +onlyGivenNames s'
      have hs' : Kept M F T s' := h.grow
      split
      · exact .some hs'
      · exact .none

theorem Kept.pushFaults {c e : Nat} {rs : List TrapRec} {st : FState} (h : Kept M F T s) : Kept M F T (s.pushFaults c e rs st) := by
  unfold State.pushFaults
  split
  · exact h
  next t ht =>
    extract_lets go
    have hgo : ∀ s t, Kept M F T s → Cuts F t → Kept M F T (go s t) := fun s t hs hc => by
      unfold go
      exact .foldl (hs.setFibre hc) fun _ _ hx => hx.pushTrap
    have hc := h.fibre? ht
    split
    · exact hgo _ _ h hc
    · split
      next s1 hs1 =>
        have h1 : Kept M F T s1 := .of_some hs1 h.expandFor
        split
        next t1 ht1 => exact hgo _ _ h1 (h1.fibre? ht1)
        · exact h1
      · exact .post (h.setFibre hc)

theorem Kept.bookRecord {c e : Nat} {r : FbRec} {mk : Option Nat → List TrapRec} {st : FState} (h : Kept M F T s) :
    Kept M F T (s.bookRecord c e r mk st) := by
  unfold State.bookRecord
  extract_lets +onlyGivenNames x
  have hx : CoreOk F x := h.core
  split
  · extract_lets +onlyGivenNames s1
    have hs1 : Kept M F T s1 := h.setCore hx
    exact .pushFaults (hs1.modFibre fun _ hx3 => hx3)
  · exact .modFibre (h.setCore hx) fun _ hx3 => hx3

theorem Kept.recordFaults {c e : Nat} {pc : Word} {fs : List IdxFault} {r : FbRec} {enter : FState} (h : Kept M F T s) :
    Kept M F T (s.recordFaults c e pc fs r enter) := by
  unfold State.recordFaults
  split
  · exact h
  · extract_lets +onlyGivenNames rep st r1
    split
    · exact h.pushFaults
    · exact h.bookRecord

theorem Kept.putRecord {c k : Nat} {r : FbRec} (h : Kept M F T s) : Kept M F T (s.putRecord c k r) := by
  unfold State.putRecord
  extract_lets +onlyGivenNames x
  have hx : CoreOk F x := h.core
  extract_lets +onlyGivenNames s1
  have hs1 : Kept M F T s1 := by
    unfold s1
    exact .modFibre (h.setCore hx) fun _ hx2 => hx2
  split
  · exact hs1.post
  · exact hs1

theorem Kept.addRecord {c : Nat} {r : FbRec} (h : Kept M F T s) : Kept M F T (s.addRecord c r) := by
  unfold State.addRecord
  extract_lets +onlyGivenNames x
  have hx : CoreOk F x := h.core
  split
  · exact h.putRecord
  · exact h.setCore hx

theorem Cuts.toBox {t : Thread} {b : Box} : Cuts P (t.toBox b) := (Cuts.setBox (t := t) (b := b) :)

theorem Kept.fibreFaults {c e : Nat} {pc : Word} {fs : List IdxFault} {r : FbRec} {enter : FState} (h : Kept M F T s) :
    Kept M F T (s.fibreFaults c e pc fs r enter) := by
  unfold State.fibreFaults
  split
  · exact h
  next t ht =>
    split
    · exact h.recordFaults
    · extract_lets pieces
      split
      next s1 es hp =>
        have h1 : Kept M F T s1 := by
          refine .of_fst hp (.foldl_fst (h.setFibre .toBox) fun p b hs => ?_)
          dsimp only
          exact hs.addFibre .toBox
        split
        · exact .post (h.setFibre (h.fibre? ht :))
        · refine h1.foldl fun s be hs => ?_
          split
          · split
            · exact hs
            · exact hs.addRecord
          · exact hs.recordFaults
          · exact hs

theorem Kept.agentFault {f : IdxFault} (h : Kept M F T s) : Kept M F T (s.agentFault f) := by
  unfold State.agentFault
  exact h.takeTrap

end

/-! ### Computation -/

section
variable {M F P : Prop} {T : Turn} {s : State}

theorem InForm.boolPred {t : Thread} {b : Bool} : InForm P t (boolPred b) := by
  unfold Machine.boolPred
  split
  · exact .true_
  · exact .false_

theorem InForm.predM {t : Thread} {f : Nat → Bool} : InForm P t (t.predM f) := .mask

theorem norm_boolPred (bx : Box) (b : Bool) : (boolPred b).norm bx = boolPred b := by
  cases b <;> rfl

/-- The one cut that a compare gives is in normal form for the box that it is of (02 R45). -/
theorem cutCompare_norm {bx : Box} {a : Axis} {rel : Rel} {b s u : Int} {q : Pred} (h : cutCompare bx a rel b s u = some q) :
    q.norm bx = q := by
  have hb : ∀ {c : Bool}, some (boolPred c) = some q → q.norm bx = q := fun hc => by
    obtain rfl := Option.some.inj hc
    exact norm_boolPred bx _
  unfold cutCompare at h
  extract_lets at h
  split at h
  · split at h
    · cases h
    · exact hb h
  · split at h
    · cases h
    · exact hb h
  · split at h
    · exact hb h
    · obtain rfl := Option.some.inj h
      exact Pred.norm_norm _ _

theorem Thread.frame_of_not_expanded {t : Thread} (he : t.expanded = false) : t.frame = t.box := by
  simp [Thread.frame, he]

theorem InForm.compare {t : Thread} {w64 signed : Bool} {rel : Rel} {x y : Opd} : InForm P t (t.compare w64 signed rel x y) := by
  unfold Thread.compare
  extract_lets at_ m ok go
  have hgo : ∀ b sx sy sz r u, InForm P t (go b sx sy sz r u) := by
    intro b sx sy sz r u
    unfold go
    split
    split
    · exact .boolPred
    · split
      · exact .predM
      · extract_lets bi e0 e1
        split
        · split
          next hq =>
            split
            · exact .predM
            next he => exact fun _ hx => Thread.frame_of_not_expanded hx ▸ cutCompare_norm hq
          next p _ hq => exact fun _ hx => Thread.frame_of_not_expanded hx ▸ cutCompare_norm hq
          · exact .predM
        · exact .predM
  split
  · exact .boolPred
  · exact hgo _ _ _ _ _ _
  · exact hgo _ _ _ _ _ _
  · exact .predM

theorem InForm.logic {t : Thread} {f : Bool → Bool → Bool} {a b : Pred} : InForm P t (t.logic f a b) := by
  unfold Thread.logic
  split
  · split
    · exact .boolPred
    · exact .boolPred
    · exact .boolPred
    · exact .boolPred
    · exact .predM
  · split
    · exact .norm
    · exact .predM

theorem InForm.psrc {t : Thread} {n : BitVec 6} {neg : Bool} (ht : Cuts P t) : InForm P t (t.psrc n neg) := by
  unfold Thread.psrc
  extract_lets p
  split
  · exact .neg ht.pred
  · exact ht.pred

theorem Kept.aluRR {o : RR} {f : Op2} (h : Kept M F T s) : Kept M F T (s.aluRR o f) := by
  unfold State.aluRR
  exact h.result

theorem Kept.aluRC {o : RR} {f : Op2} (h : Kept M F T s) : Kept M F T (s.aluRC o f) := by
  unfold State.aluRC
  exact h.result

theorem Kept.aluRI {o : RI} {f : Op2} (h : Kept M F T s) : Kept M F T (s.aluRI o f) := by
  unfold State.aluRI
  exact h.result

theorem Kept.aluRIC {o : RI} {f : Op2} (h : Kept M F T s) : Kept M F T (s.aluRIC o f) := by
  unfold State.aluRIC
  exact h.result

theorem Kept.alu1 {o : R1} {w : RW} {f : Thread → Bool → Bool → Opd → Opd} (h : Kept M F T s) : Kept M F T (s.alu1 o w f) := by
  unfold State.alu1
  exact h.result

theorem Kept.execIcmp {o : CmpO} (h : Kept M F T s) : OutKept M F T (execIcmp o s) := by
  unfold Machine.execIcmp
  refine .next (h.predResult fun _ _ _ => ?_)
  extract_lets +onlyGivenNames x y
  exact .compare

theorem Kept.execIcmpImm {o : CmpIO} (h : Kept M F T s) : OutKept M F T (execIcmpImm o s) := by
  unfold Machine.execIcmpImm
  refine .next (h.predResult fun _ _ _ => ?_)
  extract_lets +onlyGivenNames x y
  exact .compare

theorem Kept.flt2 {o : FRR} {g : FpFmt → Rnd → Nat → Nat → Nat} (h : Kept M F T s) : Kept M F T (s.flt2 o g) := by
  unfold State.flt2
  exact h.result

theorem Kept.flt1 {o : FR1} {g : FpFmt → Rnd → Nat → Nat} (h : Kept M F T s) : Kept M F T (s.flt1 o g) := by
  unfold State.flt1
  exact h.result

theorem Kept.execFcmp {o : FCmpO} (h : Kept M F T s) : OutKept M F T (execFcmp o s) := by
  unfold Machine.execFcmp
  refine .next (h.predResult fun _ _ _ => ?_)
  extract_lets +onlyGivenNames x y h'
  split
  · exact .boolPred
  · exact .predM

theorem Kept.predLogic {o : PPP} {f : Bool → Bool → Bool} (h : Kept M F T s) : Kept M F T (s.predLogic o f) := by
  unfold State.predLogic
  exact h.predResult fun _ _ _ => .logic

theorem Kept.arrive {k trues : Nat} {why : Why} (h : Kept M F T s) : Kept M F T (s.arrive k trues why) := by
  unfold State.arrive
  split
  · extract_lets +onlyGivenNames x
    have hx : CoreOk F x := h.core
    extract_lets +onlyGivenNames st s1
    have hs1 : Kept M F T s1 := h.setCore hx
    exact .checkSet hs1.waitCur
  · exact h

theorem Kept.vote {a : BitVec 6} {na : Bool} {key : Src} {i : Instr} (h : Kept M F T s) : Kept M F T (s.vote a na key i) := by
  unfold State.vote
  refine h.needU fun kv s hs => ?_
  split
  · exact hs
  next t ht =>
    obtain ⟨t0, ht0, ht1⟩ := Option.map_eq_some_iff.1 ht
    have hc := hs.cur ht0
    have hc1 : Cuts (Ranged F T) t := by
      rw [← ht1]
      exact .ite hc.progressed hc
    extract_lets s' q trues
    have hs' : Kept M F T s' := hs.setCur hc1
    split
    · exact hs'.setCur hc1.voteResult.advance
    · split
      · exact hs'.arrive
      · exact hs'.setCur hc1.voteResult.advance

theorem Kept.execSjoin {o : SjoinO} (h : Kept M F T s) : OutKept M F T (execSjoin o s) := by
  unfold Machine.execSjoin
  refine .next (h.needU fun _ _ hs => ?_)
  split
  next he he2 =>
    extract_lets +onlyGivenNames x
    have hx : CoreOk F x := hs.core
    split
    · exact hs.setCur (.advance (.setPred (hs.cur he2) .false_))
    · split
      · exact hs.setCur (.advance (.setPred (hs.cur he2) .true_))
      · split
        · exact hs.setCur (.advance (.setPred (hs.cur he2) .false_))
        · extract_lets +onlyGivenNames x1
          have hx1 : CoreOk F x1 := hx
          exact .setFibre (hs.setCore hx1) (.advance (.setPred (.of_same (hs.curFibre he he2) rfl rfl rfl) .true_))
  next he _ => exact hs.setCur (.advance (.setPred (hs.cur he) .false_))
  · exact hs

theorem Kept.execSleave {o : KeyO} (h : Kept M F T s) : OutKept M F T (execSleave o s) := by
  unfold Machine.execSleave
  refine .next (h.needU fun _ _ hs => ?_)
  split
  next he2 =>
    refine .advance ?_
    split
    · exact .checkSet (hs.setCur (.of_same (hs.cur he2) rfl rfl rfl))
    · exact hs
  · exact hs.advance

theorem Kept.execSbar {o : KeyO} (h : Kept M F T s) : OutKept M F T (execSbar o s) := by
  unfold Machine.execSbar
  refine .next (h.needU fun _ _ hs => ?_)
  extract_lets +onlyGivenNames s'
  have hs' : Kept M F T s' := hs.progressed
  split
  · split
    · exact hs'.arrive
    · exact hs'.advance
  · exact hs'.advance

end

/-! ### Fibre operations -/

section
variable {M F P : Prop} {T : Turn} {s : State}

theorem Cuts.toLanes {t : Thread} {n : Nat} (ht : Cuts P t) : Cuts P (t.toLanes n) := by
  unfold Thread.toLanes
  extract_lets +onlyGivenNames r
  exact ht.write32

theorem Kept.execExpand {o : ExpandO} (h : Kept M F T s) : OutKept M F T (execExpand o s) := by
  unfold Machine.execExpand
  refine .next (h.guardedDst fun _ _ hs => ?_)
  split
  · exact hs
  · split
    · exact hs.advance
    · refine hs.orWait (hs.expandThen fun _ hs2 => ?_)
      split
      · exact hs2
      next he2 =>
        split
        · exact hs2.setCur (.advance (.toLanes (hs2.cur he2)))
        · exact hs2.advance

theorem Kept.splitBoth {p : Pred} {onYes onNo : Thread → Thread} (h : Kept M F T s) (honYes : ∀ t, Cuts F t → Cuts F (onYes t))
    (honNo : ∀ t, Cuts F t → Cuts F (onNo t)) : Kept M F T (s.splitBoth p onYes onNo) := by
  unfold State.splitBoth
  split
  next he he2 =>
    split
    next he3 =>
      extract_lets +onlyGivenNames y
      have hy : Cuts F y := by
        unfold y
        exact honYes _ (.of_fst he3 (.parts (h.curFibre he he2)))
      extract_lets +onlyGivenNames n
      have hn : Cuts F n := by
        unfold n
        exact honNo _ (.of_snd he3 (.parts_snd (h.curFibre he he2)))
      split
      next he4 =>
        refine h.orWait (.followWith (.of_fst he4 ?_))
        split
        · exact h.splitTwo hy hn
        · exact h.splitTwo hn hy
  · exact h

theorem Kept.execSplit {o : SplitO} (h : Kept M F T s) : OutKept M F T (execSplit o s) := by
  unfold Machine.execSplit
  refine .next ?_
  split
  · exact h
  · split
    · exact h.advance
    · exact h.advance
    · exact h.splitBoth (fun _ hc => hc.advance) fun _ hc => hc.advance

theorem Cuts.putPeeled {t : Thread} {o : PeelO} {mask : Option (List Nat)} {v0 : Word} (ht : Cuts P t) :
    Cuts P (t.putPeeled o mask v0) := by
  unfold Thread.putPeeled
  exact ht.writeReg

theorem Kept.peel {o : PeelO} {mask : Option (List Nat)} (h : Kept M F T s) : Kept M F T (s.peel o mask) := by
  unfold State.peel
  split
  · exact h
  next he =>
    extract_lets +onlyGivenNames x ls bad
    split
    · exact h.poisonTrap
    · split
      · exact h.setCur (.advance (.putPred (.putPeeled (h.cur he)) .true_))
      · extract_lets +onlyGivenNames v0 same
        split
        · exact h.setCur (.advance (.putPred (.putPeeled (h.cur he)) .true_))
        · exact h.splitBoth (fun _ hc => .advance (.setPred hc.putPeeled .true_)) fun _ hc => .advance (hc.putPred .false_)

theorem Kept.execPeel {o : PeelO} (h : Kept M F T s) : OutKept M F T (execPeel o s) := by
  unfold Machine.execPeel
  refine .next (h.guardedDst fun _ _ hs => ?_)
  split
  · exact hs
  next he =>
    extract_lets +onlyGivenNames x
    split
    · split
      · exact hs.poisonTrap
      · exact hs.setCur (.advance (.putPred (hs.cur he) .true_))
    · exact hs.orWait (hs.expandThen fun _ hs2 => hs2.peel)

theorem Cuts.freshFibre {ctx : Nat} {gen : BitVec 8} {launch : Nat} {inst : Option Nat} {box : Box} {window : Nat} {pc : Word}
    {hb : List Nat} : Cuts P (s.freshFibre ctx gen launch inst box window pc hb) := .of_preds_nil rfl

theorem Kept.fnewOne {c : Nat} {o : FnewO} {t : Thread} {p : Nat} (h : Kept M F T s) : Kept M F T (s.fnewOne c o t p) := by
  unfold State.fnewOne
  extract_lets +onlyGivenNames rd b
  split
  · exact h
  · extract_lets +onlyGivenNames w f
    have hf : Cuts F f := .freshFibre
    extract_lets +onlyGivenNames arg
    exact h.addFibre hf

theorem Kept.fnewAll {c e : Nat} {o : FnewO} {t : Thread} {ps : List Nat} {k : Nat} (h : Kept M F T s) :
    Kept M F T (s.fnewAll c e o t ps k).1 := by
  induction ps generalizing s k with
  | nil => exact h.modFibre fun _ hc => hc
  | cons p ps ih =>
    unfold State.fnewAll
    split
    · exact ih h.fnewOne
    · exact h.modFibre fun _ hc => hc

theorem Kept.execFnew {o : FnewO} (h : Kept M F T s) : OutKept M F T (execFnew o s) := by
  unfold Machine.execFnew
  refine .next (h.guarded fun _ _ hs => ?_)
  split
  · extract_lets +onlyGivenNames ps k bad
    split
    next he3 =>
      split
      · exact .of_fst he3 hs.fnewAll
      · split
        · exact .advance (.of_fst he3 hs.fnewAll)
        · exact .poisonTrap (.of_fst he3 hs.fnewAll)
  · exact hs.advance

theorem Kept.setRedCtx {t : Thread} {x : CoreCtx} (h : Kept M F T s) : Kept M F T (s.setRedCtx t x) := by
  unfold State.setRedCtx
  exact h.setCore (.setCtx h.core)

theorem Kept.wakeRdsum {c ctx : Nat} (h : Kept M F T s) : Kept M F T (s.wakeRdsum c ctx) := by
  unfold State.wakeRdsum
  refine h.foldl fun _ _ hs => ?_
  split
  · exact .resourcesFreed (hs.wake fun _ hc => hc)
  · exact hs

theorem Kept.redBy {o : RedO} {t : Thread} {ps : List Nat} (h : Kept M F T s) : Kept M F T (s.redBy o t ps) := by
  unfold State.redBy
  extract_lets +onlyGivenNames x r v start sum hb s1
  have hs1 : Kept M F T s1 := h.setRedCtx
  exact hs1.wakeRdsum

theorem Kept.redAll {o : RedO} {mask : Option (List Nat)} (h : Kept M F T s) : Kept M F T (s.redAll o mask) := by
  unfold State.redAll
  extract_lets +onlyGivenNames s'
  have hs' : Kept M F T s' := h.progressed
  split
  · exact hs'
  · extract_lets +onlyGivenNames ps bad good
    split
    · exact .advance hs'.redBy
    · extract_lets +onlyGivenNames s1
      have hs1 : Kept M F T s1 := by
        unfold s1
        split
        · exact hs'
        · exact hs'.redBy
      exact hs1.poisonTrap

theorem Kept.redCount {o : RedO} {t : Thread} (h : Kept M F T s) : Kept M F T (s.redCount o t) := by
  unfold State.redCount
  extract_lets +onlyGivenNames x r
  exact .wakeRdsum h.setRedCtx

theorem Kept.execRed {o : RedO} (h : Kept M F T s) : OutKept M F T (execRed o s) := by
  unfold Machine.execRed
  refine .next ?_
  split
  · exact h
  · split
    · exact h.splitAt (fun _ hs => hs.redAll) fun _ hs => hs.redCount
    · exact h.guarded fun _ _ hs => hs.redAll

theorem Kept.execRdsum {o : RdsumO} (h : Kept M F T s) : OutKept M F T (execRdsum o s) := by
  unfold Machine.execRdsum
  refine .next (h.guardedDst fun _ _ hs => ?_)
  split
  · exact hs
  next he =>
    split
    · exact hs.orWait hs.deliver
    · extract_lets +onlyGivenNames ps exp bad good
      split
      · exact hs.poisonTrap
      · extract_lets +onlyGivenNames r
        split
        · exact hs.waitCur
        · extract_lets +onlyGivenNames v' w s1
          have hs1 : Kept M F T s1 := hs.setCur (.gain (.progressed (hs.cur he)))
          extract_lets +onlyGivenNames put
          have hput : ∀ s, Kept M F T s → Kept M F T (put s) := fun _ hs2 => hs2.deliver
          refine hs.orWait ?_
          split
          · exact hs1.expandThen fun _ hs2 => hput _ hs2
          · exact hput _ hs1

theorem Kept.execShfl {o : ShflO} (h : Kept M F T s) : OutKept M F T (execShfl o s) := by
  unfold Machine.execShfl
  refine .next (h.guardedDst fun _ _ hs => hs.orWait (hs.expandThen fun _ hs2 => ?_))
  split
  · exact hs2
  · extract_lets +onlyGivenNames x y
    split
    · exact hs2.deliver
    · extract_lets +onlyGivenNames src xb yb
      exact hs2.deliver

end

/-! ### Clauses -/

section
variable {M F P : Prop} {T : Turn} {s : State}

theorem Cuts.begin {t : Thread} (ht : Cuts P t) : Cuts P (t.begin) := by
  unfold Thread.begin
  split
  · exact ht
  · exact ht

theorem Kept.headerWaits (h : Kept M F T s) : Kept M F T (s.headerWaits) := by
  unfold State.headerWaits
  split
  · exact h
  next he =>
    split
    · exact h
    · extract_lets +onlyGivenNames toks
      split
      · exact .trapAll (h.setCur (.of_same (h.cur he) rfl rfl rfl))
      · split
        · exact h.setCur (.begin (.gain (h.cur he)))
        · exact h.waitCur

theorem Kept.tokensChanged {c : Nat} (h : Kept M F T s) : Kept M F T (s.tokensChanged c) := by
  unfold State.tokensChanged
  refine h.foldl fun _ _ hs => ?_
  split
  · exact hs.post
  · exact hs

theorem Kept.memChanged {c uid : Nat} (h : Kept M F T s) : Kept M F T (s.memChanged c uid) := by
  unfold State.memChanged
  split
  · split
    · exact h
    · exact h.post
  · exact h

theorem Kept.execTokenWaitEnd {core entry : Nat} (h : Kept M F T s) : OutKept M F T (execTokenWaitEnd core entry s) := by
  unfold Machine.execTokenWaitEnd
  refine .next ?_
  split
  · exact h
  next he =>
    split
    · exact .resourcesFreed (h.asTurn fun _ hs => hs.headerWaits)
    · exact .resourcesFreed (h.setFibre (.of_same (h.fibre? he) rfl rfl rfl))
    · exact h

theorem Cuts.knitUndef {t : Thread} {draw : Nat} {w : Word} (ht : Cuts P t) : Cuts P (t.knitUndef draw w) := fun hP he => by
  refine AllVals.setAll (p := fun q : Pred => q.norm t.box = q) (ht hP he) fun kv hk => ?_
  obtain ⟨n, -, rfl⟩ := List.mem_map.1 hk
  exact norm_boolPred t.box _

theorem Cuts.mergeTokens {x : Core} {a b m : Thread} (hm : Cuts P m) : Cuts P (x.mergeTokens a b m) := by
  unfold Core.mergeTokens
  split
  · exact hm
  · exact hm

theorem Cuts.mergeRange {x : Core} {w : Word} {a b u : Thread} (hu : s.mergeRange x w a b = some u) : Cuts P u := by
  unfold State.mergeRange at hu
  split at hu
  · cases hu
  next bx _ =>
    extract_lets at hu
    split at hu
    · split at hu
      obtain rfl := Option.some.inj hu
      exact .mergeTokens (Cuts.setBox (t := a) (b := bx) :)
    · cases hu

theorem Cuts.mergeLanes {x : Core} {w : Word} {a b u : Thread} (hu : s.mergeLanes x w a b = some u) : Cuts P u := by
  unfold State.mergeLanes at hu
  split at hu
  next ha =>
    have hx : a.expanded = true := by
      simp only [Bool.and_eq_true] at ha
      exact ha.1.1.1.1.1
    extract_lets at hu
    split at hu
    obtain rfl := Option.some.inj hu
    exact .mergeTokens (.of_expanded hx)
  · cases hu

theorem Kept.mergeAt {c e e' : Nat} {w : Word} {s' : State} (h : Kept M F T s) (hm : s.mergeAt c e w = some (s', e')) :
    Kept M F T s' := by
  unfold State.mergeAt at hm
  extract_lets x at hm
  split at hm
  · cases hm
  next t ht =>
    obtain ⟨kv, -, hkv⟩ := List.exists_of_findSome?_eq_some hm
    split at hkv
    · extract_lets nearest at hkv
      split at hkv
      next a ea b eb hp =>
        split at hkv
        · cases hkv
        next m hmm =>
          extract_lets x1 at hkv
          split at hkv
          · have hc : Cuts F m := by
              rcases hr : s.mergeRange x w a b with _ | u
              · rw [hr] at hmm
                exact .mergeLanes hmm
              · rw [hr] at hmm
                obtain rfl := Option.some.inj hmm
                exact .mergeRange hr
            have hx := h.core (c := c)
            have hx1 : CoreOk F x1 := CoreOk.setFibre (x := { x with fibres := Tab.del x.fibres eb }) hx.delFibre hc
            cases hkv
            exact .resourcesFreed (h.setCore hx1)
          · cases hkv
    · cases hkv

theorem Cuts.collapse {t u : Thread} {w : Word} (hu : t.collapse w = some u) : Cuts P u := by
  unfold Thread.collapse at hu
  split at hu
  · cases hu
  · extract_lets at hu
    split at hu
    · obtain rfl := Option.some.inj hu
      exact .setBox
    · cases hu

theorem Kept.knit {w : Word} (h : Kept M F T s) : Kept M F T (s.knit w) := by
  unfold State.knit
  split
  · exact h
  next he =>
    extract_lets +onlyGivenNames t'
    have ht' : Cuts (Ranged F T) t' := .progressed (.knitUndef (h.cur he))
    split
    next he2 =>
      extract_lets +onlyGivenNames t1
      have ht1 : Cuts F t1 := by
        unfold t1
        split
        next he3 =>
          split
          · exact .collapse he3
          · exact .progressed (.knitUndef (h.curFibre he2 he))
        · exact .progressed (.knitUndef (h.curFibre he2 he))
      extract_lets +onlyGivenNames s1
      have hs1 : Kept M F T s1 := .resourcesFreed (h.setFibre ht1)
      split
      next he3 =>
        split
        · exact .asTurn (hs1.mergeAt he3) fun _ hs => hs.headerWaits
        · exact hs1.headerWaits
      · split
        · exact .post hs1.waitCur
        · exact hs1.headerWaits
    · exact .headerWaits (h.setCur ht')

theorem Kept.execClauseHeader {hdr : Word} (h : Kept M F T s) : OutKept M F T (execClauseHeader hdr s) := by
  unfold Machine.execClauseHeader
  refine .next ?_
  split
  · exact h
  next he =>
    split
    · exact .trapAll (h.setCur (.of_same (h.cur he) rfl rfl rfl))
    · split
      · exact h.knit
      · exact h.headerWaits

theorem Kept.endHolds (h : Kept M F T s) : Kept M F T (s.endHolds) := by
  unfold State.endHolds
  refine h.foldl fun _ _ hs => hs.foldl fun _ _ hs2 => ?_
  split
  · exact .resourcesFreed (hs2.asTurn fun _ hs3 => hs3.headerWaits)
  · exact hs2

theorem Kept.execKnitHoldExpiry {core entry : Nat} (h : Kept M F T s) : OutKept M F T (execKnitHoldExpiry core entry s) := by
  unfold Machine.execKnitHoldExpiry
  refine .next ?_
  split
  · split
    · exact .resourcesFreed (h.asTurn fun _ hs => hs.headerWaits)
    · exact h
  · exact h

theorem Kept.execWatchdog {core entry : Nat} (h : Kept M F T s) : OutKept M F T (execWatchdog core entry s) := by
  unfold Machine.execWatchdog
  refine .next ?_
  split
  · split
    · split
      · exact h.asTurn fun _ hs => hs.takeTrap
      · exact h
    · exact h
  · split
    · split
      · exact h.asTurn fun _ hs => hs.takeTrap
      · exact h
    · exact h

theorem Kept.touchJob {ctx job : Nat} (h : Kept M F T s) : Kept M F T (s.touchJob ctx job) := by
  unfold State.touchJob
  split
  · exact h
  next he =>
    extract_lets +onlyGivenNames s1
    have hs1 : Kept M F T s1 := by
      unfold s1
      split
      · exact h
      · exact h.setCtx (.of_same (h.ctx? he) rfl)
    split
    · exact hs1
    · exact hs1.post

theorem Kept.modJob {ctx job : Nat} {f : Job → Job} (h : Kept M F T s) : Kept M F T (s.modJob ctx job f) := by
  unfold State.modJob
  split
  · exact h
  next he =>
    split
    · exact h.setCtx (.of_same (h.ctx? he) rfl)
    · exact h

theorem Kept.jobStatus {ctx job : Nat} {code : BitVec 8} (h : Kept M F T s) : Kept M F T (s.jobStatus ctx job code) := by
  unfold State.jobStatus
  exact h.modJob

theorem Kept.postAdmit {die : Nat} (h : Kept M F T s) : Kept M F T (s.postAdmit die) := by
  unfold State.postAdmit
  split
  · exact h
  · exact h.post

theorem Kept.enqueue {c : Nat} {r : PendRec} (h : Kept M F T s) : Kept M F T (s.enqueue c r) := by
  unfold State.enqueue
  extract_lets +onlyGivenNames x
  have hx : CoreOk F x := h.core
  exact .postAdmit (.touchJob (h.setCore hx))

end

/-! ### Memory controllers and streams -/

section
variable {M F P : Prop} {T : Turn} {s : State}

theorem Kept.logError {cls pa k : Nat} {noSpare : Bool} (h : Kept M F T s) : Kept M F T (s.logError cls pa k noSpare) := by
  unfold State.logError
  extract_lets +onlyGivenNames w0 time w1 h'
  exact h

theorem Kept.remap {k row pa : Nat} (h : Kept M F T s) : Kept M F T (s.remap k row pa) := by
  unfold State.remap
  extract_lets +onlyGivenNames x
  split
  · exact h.logError
  · extract_lets +onlyGivenNames m x1 x2
    exact .logError h.setPch

theorem Kept.corrected {pa : Nat} {scrub : Bool} (h : Kept M F T s) : Kept M F T (s.corrected pa scrub) := by
  unfold State.corrected
  extract_lets +onlyGivenNames k x row n x1 x2 _ _ s1
  have hs1 : Kept M F T s1 := h
  split
  · exact hs1.remap
  · exact hs1

theorem Kept.poisonLine {line : Nat} (h : Kept M F T s) : Kept M F T (s.poisonLine line) := by
  obtain ⟨hm, hc⟩ := h
  have hmem : M → (s.poisonLine line).mem.wf = true := fun hM => s.wf_poisonLine line (hm hM)
  unfold State.poisonLine at hmem ⊢
  unfold Kept
  dsimp only at hmem ⊢
  exact ⟨hmem, hc⟩

theorem Kept.uncorrected {pa : Nat} (h : Kept M F T s) : Kept M F T (s.uncorrected pa) := by
  unfold State.uncorrected
  extract_lets +onlyGivenNames k x s1
  have hs1 : Kept M F T s1 := by
    unfold s1
    exact .poisonLine h.setPch
  exact .remap hs1.logError

theorem Kept.readLine {line : Nat} {scrub : Bool} (h : Kept M F T s) : Kept M F T (s.readLine line scrub) := by
  unfold State.readLine
  split
  · exact h
  · split
    · exact h.corrected
    · exact h.uncorrected
    · exact h

theorem Kept.readLines {ls : List Nat} (h : Kept M F T s) : Kept M F T (s.readLines ls) := by
  unfold State.readLines
  refine h.foldl fun _ _ hs => ?_
  split
  · exact hs
  · exact hs.readLine

theorem Kept.demand {pa n : Nat} (h : Kept M F T s) : Kept M F T (s.demand pa n) := by
  unfold State.demand
  split
  · exact h
  · exact h.readLines

theorem Kept.demandGot {pa n : Nat} {g : Got} (h : Kept M F T s) : Kept M F T (s.demandGot pa n g) := by
  unfold State.demandGot
  split
  · exact h
  · extract_lets +onlyGivenNames h' from_
    exact h.readLines

theorem Kept.demandPieces {ps : List Piece} {g : Got} (h : Kept M F T s) : Kept M F T (s.demandPieces ps g) := by
  unfold State.demandPieces
  exact h.foldl fun _ _ hs => hs.demandGot

theorem Kept.storeAt {v : View} {sp : Space} {a : Nat} {data : List Byte} {poison : List Bool} {path : Path} {agent : Nat}
    {scope : Option Nat} (h : Kept M F T s) : Kept M F T (s.storeAt v sp a data poison path agent scope).1 := by
  unfold State.storeAt
  extract_lets +onlyGivenNames s1
  have hs1 : Kept M F T s1 := by
    unfold s1
    split
    · exact h
    · exact h.readLines
  split
  · split
    · exact hs1
    · extract_lets +onlyGivenNames k
      exact hs1.storeBy
  · exact hs1.storeBy

theorem Kept.storeFor {launch : Option Nat} {v : View} {sp : Space} {a : Nat} {data : List Byte} {poison : List Bool} {path : Path}
    {agent : Nat} {scope : Option Nat} (h : Kept M F T s) :
    Kept M F T (s.storeFor launch v sp a data poison path agent scope).1 := by
  unfold State.storeFor
  split
  next he => exact .markStore (.of_fst he h.storeAt)

theorem Kept.storeUnder {newer : List WriteRec} {launch : Option Nat} {v : View} {sp : Space} {a : Nat} {data : List Byte}
    {poison : List Bool} {path : Path} {agent : Nat} {scope : Option Nat} (h : Kept M F T s) :
    Kept M F T (s.storeUnder newer launch v sp a data poison path agent scope).1 := by
  unfold State.storeUnder
  extract_lets +onlyGivenNames last mine now
  split
  next he =>
    extract_lets +onlyGivenNames then_
    split
    · extract_lets +onlyGivenNames was
      exact .of_same (.of_fst he h.storeFor) rfl rfl rfl rfl
    · exact .of_fst he h.storeFor

theorem Kept.storeMo {after : WriteRec → Bool} {atomic : Bool} {launch : Option Nat} {v : View} {sp : Space} {a : Nat}
    {data : List Byte} {poison : List Bool} {path : Path} {agent : Nat} {scope : Option Nat} (h : Kept M F T s) :
    Kept M F T (s.storeMo after atomic launch v sp a data poison path agent scope).1 := by
  unfold State.storeMo
  extract_lets +onlyGivenNames parts unit overs
  split
  · split
    next he2 => exact .markStore (.of_fst he2 h.storeFor)
  · extract_lets +onlyGivenNames all
    exact .foldl_fst h fun _ _ hs => .of_same hs.storeUnder rfl rfl rfl rfl

theorem Kept.demands {ps : List (Nat × Nat)} (h : Kept M F T s) : Kept M F T (s.demands ps) := by
  unfold State.demands
  split
  · exact h
  · exact h.foldl fun _ _ hs => hs.demand

theorem Kept.joinQueue {w : Waiter} (h : Kept M F T s) : Kept M F T (s.joinQueue w) := by
  unfold State.joinQueue
  exact h

theorem Kept.queueUp {w : Waiter} (h : Kept M F T s) : Kept M F T (s.queueUp w) := by
  unfold State.queueUp
  split
  · exact h
  · exact h.joinQueue

theorem Kept.served {name uid : Nat} {ks : List Nat} {k : State → State} {again : Option Instr} (h : Kept M F T s)
    (hk : ∀ s, Kept M F T s → Kept M F T (k s)) : Kept M F T (s.served name uid ks k again) := by
  unfold State.served
  split
  · exact hk _ h
  · split
    · split
      · exact h
      · exact h.joinQueue
    · exact hk _ h

theorem Kept.holding {again : Instr} {ks : List Nat} {k : State → State} (h : Kept M F T s)
    (hk : ∀ s, Kept M F T s → Kept M F T (k s)) : Kept M F T (s.holding again ks k) := by
  unfold State.holding
  split
  · exact .post h.queueUp
  · exact hk _ h

theorem Kept.reading {again : Instr} {ps : List (Nat × Nat)} {k : State → State} (h : Kept M F T s)
    (hk : ∀ s, Kept M F T s → Kept M F T (k s)) : Kept M F T (s.reading again ps k) := by
  unfold State.reading
  exact h.holding fun _ hs => hk _ hs.demands

theorem Kept.pruneQueue (h : Kept M F T s) : Kept M F T (s.pruneQueue) := by
  unfold State.pruneQueue
  split
  · exact h
  · exact h

theorem Kept.curServed {ks : State → List Nat} {k : State → State} (h : Kept M F T s) (hk : ∀ s, Kept M F T s → Kept M F T (k s)) :
    Kept M F T (s.curServed ks k) := by
  unfold State.curServed
  split
  · exact hk _ h
  · exact h.served fun _ hs => hk _ hs

theorem Kept.demandWalk {sp : VSpace} {va : Nat} (h : Kept M F T s) : Kept M F T (s.demandWalk sp va) := by
  unfold State.demandWalk
  split
  · exact h
  · split
    · exact h
    · exact h.foldl fun _ _ hs => hs.demand

theorem Kept.walkRange {sp : VSpace} {va n : Nat} {p : Perm} (h : Kept M F T s) : Kept M F T (s.walkRange sp va n p) := by
  unfold State.walkRange
  refine h.foldl fun _ _ hs => ?_
  extract_lets +onlyGivenNames a' s1
  have hs1 : Kept M F T s1 := hs.demandWalk
  split
  · exact hs1.fillTlb
  · exact hs1

theorem Kept.completeOps {c ctx : Nat} (h : Kept M F T s) : Kept M F T (s.completeOps c ctx) := by
  unfold State.completeOps
  extract_lets +onlyGivenNames x
  have hx : CoreOk F x := h.core
  extract_lets +onlyGivenNames k
  exact h.setCore hx.setCtx

theorem Kept.completeOne {c ctx : Nat} (h : Kept M F T s) : Kept M F T (s.completeOne c ctx) := by
  unfold State.completeOne
  extract_lets +onlyGivenNames x
  have hx : CoreOk F x := h.core
  extract_lets +onlyGivenNames k
  split
  · exact h
  · exact h.setCore hx.setCtx

theorem Kept.wakeRdzv {c inst : Nat} {hb : List Nat} (h : Kept M F T s) : Kept M F T (s.wakeRdzv c inst hb) := by
  unfold State.wakeRdzv
  refine .resourcesFreed (h.foldl fun _ _ hs => ?_)
  split
  · exact hs.wake fun _ hc => .resumeNext hc.gain
  · exact hs

theorem Kept.wakeFork {c inst : Nat} (h : Kept M F T s) : Kept M F T (s.wakeFork c inst) := by
  unfold State.wakeFork
  refine h.foldl fun _ _ hs => ?_
  split
  · exact hs.modFibre fun _ hc => hc
  · exact hs

theorem Kept.modInst {c i : Nat} {f : TileInst → TileInst} (h : Kept M F T s) : Kept M F T (s.modInst c i f) := by
  unfold State.modInst
  extract_lets +onlyGivenNames x
  have hx : CoreOk F x := h.core
  split
  · exact h.setCore hx
  · exact h

theorem Kept.streamEnd {c : Nat} (h : Kept M F T s) : Kept M F T (s.streamEnd c) := by
  unfold State.streamEnd
  split
  · exact h
  · extract_lets +onlyGivenNames ctx hb s1
    have hs1 : Kept M F T s1 := by
      unfold s1
      exact .addStores h.completeOps
    extract_lets +onlyGivenNames y
    have hy : CoreOk F y := hs1.core
    extract_lets +onlyGivenNames _ s2
    have hs2 : Kept M F T s2 := by
      unfold s2
      exact hs1.setCore (.setCtx hy)
    extract_lets +onlyGivenNames s3
    have hs3 : Kept M F T s3 := by
      unfold s3
      exact .wakeRdzv hs2.modInst
    exact .post (.checkInst (.tokensChanged hs3.wakeFork))

end

/-! ### Control and the window -/

section
variable {M F P : Prop} {T : Turn} {s : State}

/-- A transfer may be performed by the part of a fibre that takes a new entry. -/
theorem Kept.transferOn {q : Pred} {go : State → State} (h : Kept M F T s) (hgo : ∀ T s, Kept M F T s → Kept M F T (go s)) :
    Kept M F T (s.transferOn q go) := by
  unfold State.transferOn
  split
  · exact hgo _ _ h
  · exact h.endClause
  · split
    next hturn hcur =>
      split
      next hparts =>
        extract_lets +onlyGivenNames no'
        have hyes : Cuts F _ := .of_fst hparts (.parts (h.curFibre hturn hcur))
        have hno : Cuts F no' := .leave (.of_snd hparts (.parts_snd (h.curFibre hturn hcur)))
        split
        · exact h.orWait (hgo _ _ (h.splitTwo hyes hno))
        · split
          next htwo => exact h.orWait (.asTurn (.of_fst htwo (h.splitTwo hno hyes)) fun _ hs => hgo _ _ hs)
    · exact h

theorem Kept.transfer {g : Guard} {go : State → State} (h : Kept M F T s) (hgo : ∀ T s, Kept M F T s → Kept M F T (go s)) :
    Kept M F T (s.transfer g go) := by
  unfold State.transfer
  split
  · exact h
  · exact h.transferOn fun _ _ hs => hgo _ _ hs

theorem Kept.jump {a : Word} (h : Kept M F T s) : Kept M F T (s.jump a) := by
  unfold State.jump
  split
  next he => exact h.setCur (.leave (h.cur he))
  · exact h

theorem Kept.execBra {o : BrO} (h : Kept M F T s) : OutKept M F T (execBra o s) := by
  unfold Machine.execBra
  refine .next (h.transfer fun _ _ hs => ?_)
  split
  · exact hs.jump
  · exact hs

theorem Kept.execBrc {o : BrcO} (h : Kept M F T s) : OutKept M F T (execBrc o s) := by
  unfold Machine.execBrc
  refine .next ?_
  split
  · exact h
  · extract_lets +onlyGivenNames ps bad
    split
    · exact h.poisonTrap
    · extract_lets +onlyGivenNames go
      have hgo : ∀ s, Kept M F T s → Kept M F T (go s) := by
        intro _ hs
        unfold go
        split
        · exact hs
        · refine hs.transferOn fun _ _ hs2 => ?_
          split
          · exact hs2.jump
          · exact hs2
      split
      · split
        · exact hgo _ h
        · exact h.orWait (h.expandThen fun _ hs => hgo _ hs)
      · exact hgo _ h

theorem Cuts.push {t u : Thread} {a : REntry} {slotFree : Bool} (ht : Cuts P t) (hu : t.push a slotFree = some u) : Cuts P u := by
  unfold Thread.push at hu
  split at hu
  · obtain rfl := Option.some.inj hu
    exact ht
  · split at hu
    · cases hu
    · split at hu
      · split at hu
        · obtain rfl := Option.some.inj hu
          exact ht
        · cases hu
      · cases hu

theorem Cuts.pop {t u : Thread} {a : REntry} (ht : Cuts P t) (hu : t.pop = some (a, u)) : Cuts P u := by
  unfold Thread.pop at hu
  split at hu
  · cases hu
  · cases hu
    exact ht
  · cases hu
    exact ht
  · cases hu
    exact ht

theorem Kept.spillOne {c e : Nat} {t : Thread} (h : Kept M F T s) (ht : Cuts F t) : Kept M F T (s.spillOne c e t) := by
  -- The translation is a variable here: the check of the proof would compute with the length of the range.
  have key : ∀ xlat, State.xlatRange = xlat → Kept M F T (s.spillOne c e t) := fun xlat hx => by
    unfold State.spillOne
    rw [hx]
    split
    · split
      · exact h.setFibre ht
      · exact h
    · split
      · exact h
      · extract_lets +onlyGivenNames n s1
        have hs1 : Kept M F T s1 := by
          unfold s1
          split
          · exact h
          · exact h.setFibre ht
        extract_lets +onlyGivenNames bs
        split
        · exact hs1
        · refine .foldl_fst hs1 fun _ _ hs => ?_
          extract_lets +onlyGivenNames b
          split
          · exact hs
          · exact .writeBytes hs.demand
  exact key _ rfl

theorem Kept.slotRead {k : State → State} (h : Kept M F T s) (hk : ∀ s, Kept M F T s → Kept M F T (k s)) :
    Kept M F T (s.slotRead k) := by
  unfold State.slotRead
  split
  · exact hk _ h
  · refine h.curServed fun _ hs => ?_
    extract_lets +onlyGivenNames s1
    have hs1 : Kept M F T s1 := hs.walkRange
    refine hk _ ?_
    split
    · exact hs1.demand
    · exact hs1

theorem Kept.foldl_mem {α : Type} {l : List α} {f : State → α → State} (h : Kept M F T s)
    (hf : ∀ s a, a ∈ l → Kept M F T s → Kept M F T (f s a)) : Kept M F T (l.foldl f s) := by
  induction l generalizing s with
  | nil => exact h
  | cons a l ih => exact ih (hf s a List.mem_cons_self h) fun s b hb => hf s b (List.mem_cons_of_mem _ hb)

theorem Kept.spill (h : Kept M F T s) : Kept M F T s.spill := by
  unfold State.spill
  refine h.foldl_mem fun s1 kx hx h1 => h1.foldl_mem fun s2 kt ht h2 => ?_
  obtain ⟨-, hf, -⟩ := h.2.1 kx hx
  split
  · exact h2
  · exact h2.spillOne (hf kt ht)

theorem Kept.callTo {a : Word} (h : Kept M F T s) : Kept M F T (s.callTo a) := by
  unfold State.callTo
  split
  · exact h
  next he =>
    split
    next he2 => exact h.setCur (.leave (.push (h.cur he) he2))
    · exact h.trapAll

theorem Kept.goTarget {x : Src} {k : Word → State → State} (h : Kept M F T s) (hk : ∀ a s, Kept M F T s → Kept M F T (k a s)) :
    Kept M F T (s.goTarget x k) := by
  unfold State.goTarget
  split
  · exact h
  · split
    · split
      · exact hk _ _ h
      · exact h.takeTrap

theorem Kept.withTarget {x : Src} {k : Word → State → State} (h : Kept M F T s) (hk : ∀ a s, Kept M F T s → Kept M F T (k a s)) :
    Kept M F T (s.withTarget x k) := by
  unfold State.withTarget
  split
  · exact h
  · extract_lets +onlyGivenNames v' bad
    split
    · exact h.poisonTrap
    · extract_lets +onlyGivenNames differ
      split
      · exact h.expandThen fun _ hs => hs.goTarget fun _ _ hs2 => hk _ _ hs2
      · exact h.goTarget fun _ _ hs => hk _ _ hs

theorem Kept.agreeing {x : Thread → Nat → Opd} {mask : Option (List Nat)} {k : Word → Bool → State → State} (h : Kept M F T s)
    (hk : ∀ a b s, Kept M F T s → Kept M F T (k a b s)) : Kept M F T (s.agreeing x mask k) := by
  unfold State.agreeing
  extract_lets +onlyGivenNames look go
  have hgo : ∀ s, Kept M F T s → Kept M F T (go s) := by
    intro _ hs
    unfold go
    split
    · exact hs
    · split
      · split
        · exact hk _ _ _ hs
        · exact hs.takeTrap
  split
  · exact h
  · extract_lets +onlyGivenNames differ
    split
    · exact h.expandThen fun _ hs => hgo _ hs
    · exact hgo _ h

theorem Kept.execCall {o : BrO} (h : Kept M F T s) : OutKept M F T (execCall o s) := by
  unfold Machine.execCall
  refine .next (h.transfer fun _ _ hs => ?_)
  split
  · exact hs.callTo
  · exact hs

theorem Kept.retNow (h : Kept M F T s) : Kept M F T (s.retNow) := by
  unfold State.retNow
  split
  · exact h
  next he =>
    split
    · exact h.poisonTrap
    · split
      · exact h.trapAll
      next he2 => exact h.setCur (.leave (.pop (h.cur he) he2))
      next he2 =>
        split
        next he4 =>
          extract_lets +onlyGivenNames s1
          have hs1 : Kept M F T s1 := by
            unfold s1
            exact h.setCur (.leave (.onLanes (.pop (h.cur he) he2)))
          refine h.orWait (.foldl_fst hs1 fun _ _ hs => ?_)
          split
          next he5 => exact .of_fst he5 (hs.addFibre (.of_same (.onLanes (.pop (h.curFibre he4 he) he2)) rfl rfl rfl))
        · exact h.setCur (.leave (.pop (h.cur he) he2))

theorem Kept.ret (h : Kept M F T s) : Kept M F T (s.ret) := by
  unfold State.ret
  exact h.slotRead fun _ hs => hs.retNow

theorem Kept.exitAll (h : Kept M F T s) : Kept M F T (s.exitAll) := by
  unfold State.exitAll
  split
  · exact h.endFibre
  · exact h.streamEnd
  · exact h.endClause

theorem Kept.trapCode {g : Guard} {cause : BitVec 8} {code : BitVec 10} (h : Kept M F T s) :
    Kept M F T (s.trapCode g cause code) := by
  unfold State.trapCode
  exact h.guarded fun _ _ hs => hs.takeTrap

theorem Kept.execYield {o : G} (h : Kept M F T s) : OutKept M F T (execYield o s) := by
  unfold Machine.execYield
  refine .next (h.transfer fun _ _ hs => ?_)
  split
  next he he2 =>
    extract_lets +onlyGivenNames others
    exact hs.setFibre (.of_same (hs.curFibre he he2) rfl rfl rfl)
  · exact hs.endClause

theorem Kept.setDisp {k : Nat} {v : Byte} (h : Kept M F T s) : Kept M F T (s.setDisp k v) := by
  unfold State.setDisp
  extract_lets +onlyGivenNames c
  split
  · exact h
  · exact h.setCluster

theorem Kept.windowStore {k off : Nat} {data : List Byte} (h : Kept M F T s) : Kept M F T (s.windowStore k off data) := by
  unfold State.windowStore
  split
  · exact h.setDisp
  · exact h

end

/-! ### Memory operations -/

section
variable {M F P : Prop} {T : Turn} {s : State}

theorem Kept.load1 {t : Thread} {ps : List Nat} {r : Req} {sp : Space} {a : Nat} {own : Option Nat} {leaf : Word} (h : Kept M F T s)
    : Kept M F T (s.load1 t ps r sp a own leaf).1 := by
  unfold State.load1
  extract_lets +onlyGivenNames read s1
  have hs1 : Kept M F T s1 := by
    unfold s1
    split
    · exact h
    · split
      · exact h.demand
      · exact h.demandGot
  extract_lets +onlyGivenNames g
  exact hs1

theorem Kept.store1 {t : Thread} {p : Nat} {r : Req} {sp : Space} {a : Nat} {data : List Byte} {poison late : Bool} {leaf : Word}
    (h : Kept M F T s) : Kept M F T (s.store1 t p r sp a data poison late leaf).1 := by
  unfold State.store1
  extract_lets +onlyGivenNames bad
  split
  next he =>
    refine .of_fst he ?_
    split
    · exact h.storeFor
    · exact h.storeMo

theorem Kept.atom1 {t : Thread} {p : Nat} {r : Req} {sp : Space} {a : Nat} {y z : Nat} {own : Option Nat} {leaf : Word}
    (h : Kept M F T s) : Kept M F T (s.atom1 t p r sp a y z own leaf).1 := by
  unfold State.atom1
  extract_lets +onlyGivenNames s1
  have hs1 : Kept M F T s1 := by
    unfold s1
    split
    · exact h.demand
    · exact h
  extract_lets +onlyGivenNames v g v1
  split
  · split
    next he2 => exact .markStore (.of_fst he2 hs1.storeFor)
  · exact hs1

theorem Kept.readOwner {t : Thread} {ps : List Nat} {pa : Nat} {leaf : Word} (h : Kept M F T s) :
    Kept M F T (s.readOwner t ps pa leaf).1 := by
  unfold State.readOwner
  extract_lets +onlyGivenNames a read s1
  have hs1 : Kept M F T s1 := h.demandGot
  extract_lets +onlyGivenNames g
  exact hs1

theorem Kept.demandFault {sp : VSpace} {r : Req} {va : Nat} {f : IdxFault} {bad : Bool} (h : Kept M F T s) :
    Kept M F T (s.demandFault sp r va f bad) := by
  unfold State.demandFault
  split
  · exact h
  · extract_lets +onlyGivenNames s1
    have hs1 : Kept M F T s1 := h.demandWalk
    split
    · exact hs1
    · split
      · exact hs1.demand
      · exact hs1

theorem Kept.memServed {r : Req} {ps : List Nat} {ops : Nat → IdxOps} {k : State → State} (h : Kept M F T s)
    (hk : ∀ s, Kept M F T s → Kept M F T (k s)) : Kept M F T (s.memServed r ps ops k) := by
  unfold State.memServed
  split
  · exact hk _ h
  · exact h.curServed fun _ hs => hk _ hs

theorem Cuts.putGroup {t : Thread} {draw : Nat} {d : Dst} {w : RW} {four : Bool} {mask : Option (List Nat)} {lo hi : Opd}
    (ht : Cuts P t) : Cuts P (t.putGroup draw d w four mask lo hi) := by
  unfold Thread.putGroup
  extract_lets +onlyGivenNames t1
  have ht1 : Cuts P t1 := ht.putResult
  split
  · exact ht1.writeReg
  · exact ht1

theorem Cuts.lateResult {t : Thread} {draw : Nat} {i : Instr} {pc : Word} {vals : Tab (Word × Word)} {pois : List Nat}
    {uni far : Bool} (ht : Cuts P t) : Cuts P (t.lateResult draw i pc vals pois uni far) := by
  unfold Thread.lateResult
  split
  · exact ht
  · extract_lets +onlyGivenNames ps v0 one lo hi mask t1
    have ht1 : Cuts P t1 := by
      unfold t1
      split
      · exact ht
      · exact ht.writeReg
    extract_lets +onlyGivenNames t2
    have ht2 : Cuts P t2 := by
      unfold t2
      split
      · exact ht1.writeReg
      · exact ht1
    extract_lets +onlyGivenNames pos t3
    have ht3 : Cuts P t3 := by
      unfold t3
      split
      · split
        · exact .writeLatch ht2
        · exact ht2
      · exact ht2
    exact ht3

theorem Cuts.of_mid {α β : Type} {t : Thread} {p : α × Thread × β} {a : α} {b : β} (hp : p = (a, t, b)) (h : Cuts P p.2.1) :
    Cuts P t := by
  rw [hp] at h
  exact h

theorem Cuts.load1 {t : Thread} {ps : List Nat} {r : Req} {sp : Space} {a : Nat} {own : Option Nat} {leaf : Word} (ht : Cuts P t) :
    Cuts P (s.load1 t ps r sp a own leaf).2.1 := by
  unfold State.load1
  exact ht.modViewOf

theorem Cuts.store1 {t : Thread} {p : Nat} {r : Req} {sp : Space} {a : Nat} {data : List Byte} {poison late : Bool} {leaf : Word}
    (ht : Cuts P t) : Cuts P (s.store1 t p r sp a data poison late leaf).2 := by
  unfold State.store1
  extract_lets bad
  split
  exact ht.modViewAt

theorem Cuts.atom1 {t : Thread} {p : Nat} {r : Req} {sp : Space} {a y z : Nat} {own : Option Nat} {leaf : Word} (ht : Cuts P t) :
    Cuts P (s.atom1 t p r sp a y z own leaf).2.1 := by
  unfold State.atom1
  extract_lets s1 v g v1
  split
  · split
    exact ht.modViewAt
  · exact ht.modViewAt

theorem Cuts.readOwner {t : Thread} {ps : List Nat} {pa : Nat} {leaf : Word} (ht : Cuts P t) :
    Cuts P (s.readOwner t ps pa leaf).2.1 := by
  unfold State.readOwner
  exact ht.modViewOf

/-! Accesses of many indices: the thread that carries their views is the current one. -/

/-- What the accesses of one instruction keep. -/
def MemKept (M F : Prop) (T : Turn) (m : MemRes) : Prop := Kept M F T m.s ∧ Cuts (Ranged F T) m.t

theorem MemKept.state {m : MemRes} (h : MemKept M F T m) : Kept M F T m.s := h.1

theorem MemKept.thread {m : MemRes} (h : MemKept M F T m) : Cuts (Ranged F T) m.t := h.2

theorem MemKept.start {t : Thread} (h : Kept M F T s) (ht : Cuts (Ranged F T) t) : MemKept M F T (MemRes.start s t) := ⟨h, ht⟩

theorem MemKept.one {m : MemRes} {r : Req} {now : Bool} {own : Tab Nat} {ps : List Nat} {o : IdxOps} (h : MemKept M F T m) :
    MemKept M F T (m.one r now own ps o) := by
  unfold MemRes.one
  extract_lets +onlyGivenNames cl p late failed
  have hfailed : ∀ m f, MemKept M F T m → MemKept M F T (failed m f) := fun _ _ hm => hm
  obtain ⟨hs, ht⟩ := h
  split
  · exact hfailed _ _ ⟨hs.demandFault, ht⟩
  · split
    · exact ⟨hs, ht⟩
    · exact ⟨hs, ht⟩
  · extract_lets +onlyGivenNames bs
    split
    · exact ⟨hs.windowStore, ht⟩
    · extract_lets m1
      split
      · exact ⟨hs.windowStore, ht⟩
      · exact ⟨hs, ht⟩
    · split
      · exact ⟨hs, ht⟩
      · exact ⟨hs, ht⟩
    · exact ⟨hs, ht⟩
  next sp a level leaf _ =>
    extract_lets m1 ow lost
    have hm1 : MemKept M F T m1 := by
      unfold m1
      split
      · exact ⟨.fillTlb hs.demandWalk, ht⟩
      · exact ⟨hs, ht⟩
    have hlost : MemKept M F T lost := hfailed _ _ hm1
    obtain ⟨hs1, ht1⟩ := hm1
    split
    · split
      · exact ⟨hs1, ht1⟩
      · split
        · exact hlost
        · split
          next s2 t2 he => exact ⟨.of_fst he hs1.store1, .of_snd he ht1.store1⟩
    · split
      next s2 t2 bs he => exact ⟨.of_fst he hs1.atom1, .of_mid he ht1.atom1⟩
    · split
      next s2 t2 bs bad he =>
        have h2 : Kept M F T s2 ∧ Cuts (Ranged F T) t2 := ⟨.of_fst he hs1.load1, .of_mid he ht1.load1⟩
        split
        · exact h2
        · exact ⟨h2.1, ht1⟩
    · split
      · exact ⟨hs1, ht1⟩
      · split
        · split
          · exact hlost
          · exact ⟨hs1, ht1⟩
        · split
          next s2 t2 bs bad he => exact ⟨.of_fst he hs1.load1, .of_mid he ht1.load1⟩

theorem MemKept.access {t : Thread} {r : Req} {now : Bool} {own : Tab Nat} {gs : List (List Nat)} {ops : Nat → IdxOps}
    (h : Kept M F T s) (ht : Cuts (Ranged F T) t) : MemKept M F T (s.access t r now own gs ops) := by
  unfold State.access
  have hm : MemKept M F T (MemRes.start s t) := .start h ht
  generalize MemRes.start s t = m at hm
  induction gs generalizing m with
  | nil => exact hm
  | cons ps gs ih => exact ih _ hm.one

theorem Kept.cuts {c e : Nat} {t : Thread} (h : Kept M F T s) (hT : s.turn = .fibre c e) (ht : Cuts (Ranged F T) t) : Cuts F t := by
  obtain rfl := h.turn.symm.trans hT
  exact ht

theorem Kept.withTurn {T' : Turn} (h : Kept M F T s) : Kept M F T' { s with turn := T' } := ⟨h.1, h.2.1, h.2.2.1, rfl⟩

end

/-! ### Memory instructions -/

section
variable {M F P : Prop} {T : Turn} {s : State}

theorem Kept.readOwners {t : Thread} {r : Req} {gs : List (List Nat)} {ops : Nat → IdxOps} (h : Kept M F T s)
    (ht : Cuts (Ranged F T) t) : Kept M F T (s.readOwners t r gs ops).1 ∧ Cuts (Ranged F T) (s.readOwners t r gs ops).2.1 := by
  unfold State.readOwners
  have hacc : Kept M F T (s, t, ([] : Tab Nat)).1 ∧ Cuts (Ranged F T) (s, t, ([] : Tab Nat)).2.1 := ⟨h, ht⟩
  generalize (s, t, ([] : Tab Nat)) = acc at hacc
  induction gs generalizing acc with
  | nil => exact hacc
  | cons ps gs ih =>
    refine ih _ ?_
    obtain ⟨s1, t1, own⟩ := acc
    obtain ⟨h1, ht1⟩ := hacc
    dsimp only
    split
    · split
      · exact ⟨h1, ht1⟩
      · exact ⟨h1.readOwner, ht1.readOwner⟩
    · exact ⟨h1, ht1⟩

theorem Kept.withOwners {r : Req} {gs : List (List Nat)} {ops : Nat → IdxOps} {k : Tab Nat → State → State} (h : Kept M F T s)
    (hk : ∀ a s, Kept M F T s → Kept M F T (k a s)) : Kept M F T (s.withOwners r gs ops k) := by
  unfold State.withOwners
  split
  · exact h
  next t ht =>
    have hc := h.cur ht
    refine h.memServed fun s hs => ?_
    split
    · exact hk _ _ hs
    · split
      · exact hk _ _ (hs.setCur hc)
      · extract_lets met
        split
        next s1 t1 own he =>
          obtain ⟨h1, ht1⟩ := hs.readOwners (r := r) (gs := gs) (ops := ops) hc
          rw [he] at h1 ht1
          extract_lets s2 cores
          have h2 : Kept M F T s2 := h1.setCur ht1
          split
          · exact hk _ _ h2
          · exact .foldl h2.waitCur fun _ _ hs => hs.post

theorem Kept.asWaiter {core entry : Nat} {f : State → State} (h : Kept M F T s) (hf : ∀ T s, Kept M F T s → Kept M F T (f s)) :
    Kept M F T (s.asWaiter core entry f) := by
  unfold State.asWaiter
  split
  next he _ =>
    extract_lets +onlyGivenNames s1
    have hs1 : Kept M F T s1 := by
      unfold s1
      exact .asTurn (h.setFibre (CoreOk.swap h.core he)) fun _ hs => hf _ _ hs
    split
    next he3 => exact hs1.setSwapped (hs1.fibre? he3)
    · exact hs1
  · exact h.asTurn fun _ hs => hf _ _ hs

theorem Kept.execPromotionReply {core entry : Nat} (h : Kept M F T s) : OutKept M F T (execPromotionReply core entry s) := by
  unfold Machine.execPromotionReply
  extract_lets +onlyGivenNames s1
  have hs1 : Kept M F T s1 := by
    unfold s1
    refine h.asWaiter fun _ _ hs => ?_
    split
    · exact hs
    next he =>
      split
      · exact hs.setCur (.of_same (hs.cur he) rfl rfl rfl)
      · exact hs
  refine .next ?_
  split
  · exact hs1.post
  · exact hs1.resourcesFreed

theorem Kept.memEnd {m : MemRes} {t1 : Thread} {r : Req} {own : Tab Nat} {base : Opd} {off : Word} {data : List Opd}
    (h : Kept M F T s) (hm : MemKept M F T m) (ht1 : Cuts (Ranged F T) t1) : Kept M F T (s.memEnd m t1 r own base off data) := by
  unfold State.memEnd
  split
  next c e t hT _ =>
    extract_lets +onlyGivenNames s1
    have h1 : Kept M F T s1 := hm.state.setFibre (h.cuts hT ht1).advance
    split
    · split
      · exact h1
      · exact h1.fibreFaults
    · extract_lets f o
      exact .post (.modFibre (h1.setCore (.of_same h1.core rfl rfl)) fun _ hc => hc)
  · split
    · exact h.agentFault
    · exact hm.state.setCur ht1.advance

theorem Kept.loadU {i : Instr} {r : Req} {mask : Option (List Nat)} {b : Opd} {w64 : Bool} {off : Word} (h : Kept M F T s) :
    Kept M F T (s.loadU i r mask b w64 off) := by
  unfold State.loadU
  split
  · exact h
  · extract_lets +onlyGivenNames ps p0 ops
    refine h.withOwners fun _ _ hs => ?_
    split
    · exact hs
    next he2 =>
      extract_lets +onlyGivenNames m
      have hm : MemKept M F T m := by
        unfold m
        exact .access hs (hs.cur he2)
      extract_lets +onlyGivenNames _ t2'
      have ht2' : Cuts (Ranged F T) t2' := by
        unfold t2'
        split
        · exact .putGroup hm.thread
        · exact hm.thread
      exact hs.memEnd hm ht2'

theorem Kept.loadE {i : Instr} {r : Req} {mask : Option (List Nat)} {base : Src} {w64 : Bool} {off : Word} (h : Kept M F T s) :
    Kept M F T (s.loadE i r mask base w64 off) := by
  unfold State.loadE
  split
  · exact h
  · extract_lets +onlyGivenNames b ps ops
    refine h.withOwners fun _ _ hs => ?_
    split
    · exact hs
    next he2 =>
      extract_lets +onlyGivenNames m
      have hm : MemKept M F T m := by
        unfold m
        exact .access hs (hs.cur he2)
      extract_lets +onlyGivenNames done t2'
      have ht2' : Cuts (Ranged F T) t2' := by
        unfold t2'
        split
        · split
          · exact hm.thread
          · exact .putGroup hm.thread
        · exact hm.thread
      exact hs.memEnd hm ht2'

theorem Kept.loadNone {i : Instr} (h : Kept M F T s) : Kept M F T (s.loadNone i) := by
  unfold State.loadNone
  split
  next he _ => exact h.orWait (h.setCur (.advance (.putGroup (h.cur he))))
  · exact h

theorem Kept.forDest {i : Instr} {k : State → State} (h : Kept M F T s) (hk : ∀ s, Kept M F T s → Kept M F T (k s)) :
    Kept M F T (s.forDest i k) := by
  unfold State.forDest
  split
  · exact h.forU fun _ hs => hk _ hs
  · exact hk _ h

theorem Kept.load {i : Instr} {g : Guard} {base : Option Src} {w64 : Bool} {off : Word} (h : Kept M F T s) :
    Kept M F T (s.load i g base w64 off) := by
  unfold State.load
  split
  · exact h
  · refine h.guardedDst fun _ _ hs => ?_
    split
    · exact hs.loadNone
    · split
      · exact hs
      · split
        · exact hs.orWait hs.loadU
        · exact hs.forDest fun _ hs2 => hs2.loadU
      · extract_lets +onlyGivenNames b
        split
        · split
          · exact hs.orWait hs.loadU
          · exact hs.forDest fun _ hs2 => hs2.loadU
        · exact hs.orWait (hs.expandThen fun _ hs2 => hs2.loadE)

theorem Kept.storeInstr {i : Instr} {o : StO} {w64 : Bool} (h : Kept M F T s) : Kept M F T (s.storeInstr i o w64) := by
  unfold State.storeInstr
  split
  · exact h
  · refine h.guarded fun _ _ hs => ?_
    extract_lets +onlyGivenNames s'
    have hs' : Kept M F T s' := hs.progressed
    split
    · exact hs'
    next he2 =>
      extract_lets +onlyGivenNames b ds off ops
      refine hs'.memServed fun _ hs2 => ?_
      extract_lets +onlyGivenNames m'
      have hm' : MemKept M F T m' := by
        unfold m'
        exact .access hs2 (hs'.cur he2)
      exact hs2.memEnd hm' hm'.thread

theorem Kept.atomics {i : Instr} {o : AtomO} {r : Req} {mask : Option (List Nat)} {w64 : Bool} (h : Kept M F T s) :
    Kept M F T (s.atomics i o r mask w64) := by
  unfold State.atomics
  split
  · exact h
  · extract_lets +onlyGivenNames b y z ps ops
    refine h.withOwners fun _ _ hs => ?_
    split
    · exact hs
    next he2 =>
      extract_lets +onlyGivenNames m
      have hm : MemKept M F T m := by
        unfold m
        exact .access hs (hs.cur he2)
      extract_lets +onlyGivenNames done _ t2'
      have ht2' : Cuts (Ranged F T) t2' := by
        unfold t2'
        split
        · split
          · exact hm.thread
          · split
            · exact .putGroup hm.thread
            · exact .putGroup hm.thread
        · exact hm.thread
      exact hs.memEnd hm ht2'

theorem Kept.atomInstr {i : Instr} {o : AtomO} {w64 : Bool} (h : Kept M F T s) : Kept M F T (s.atomInstr i o w64) := by
  unfold State.atomInstr
  split
  · exact h
  · refine h.guardedDst fun _ _ hs => ?_
    split
    · exact hs.loadNone
    · extract_lets +onlyGivenNames s'
      have hs' : Kept M F T s' := hs.progressed
      split
      · exact hs'
      · split
        · exact hs'.orWait (hs'.expandThen fun _ hs2 => hs2.atomics)
        · split
          · exact hs'.orWait hs'.atomics
          · exact hs'.forDest fun _ hs2 => hs2.atomics

theorem Cuts.foldl {α : Type} {t : Thread} {l : List α} {f : Thread → α → Thread} (ht : Cuts P t)
    (hf : ∀ t a, Cuts P t → Cuts P (f t a)) : Cuts P (l.foldl f t) := by
  induction l generalizing t with
  | nil => exact ht
  | cons a l ih => exact ih (hf t a ht)

theorem Kept.modViews {mask : Option (List Nat)} {f : View → View} (h : Kept M F T s) : Kept M F T (s.modViews mask f) := by
  unfold State.modViews
  split
  · exact h
  next he =>
    split
    · exact h.setCur (.of_same (h.cur he) rfl rfl rfl)
    · exact h.setCur (.foldl (h.cur he) fun _ _ hc => hc.modViewAt)

theorem Kept.execFence {o : FenceO} (h : Kept M F T s) : OutKept M F T (execFence o s) := by
  unfold Machine.execFence
  refine .next (h.guarded fun _ _ hs => ?_)
  extract_lets +onlyGivenNames stream scope
  exact .advance (.modViews hs.progressed)

theorem Kept.execPfence {o : PfenceO} (h : Kept M F T s) : OutKept M F T (execPfence o s) := by
  unfold Machine.execPfence
  refine .next ?_
  split
  · exact h
  · split
    · exact h.trapAll
    · exact h.guarded fun _ _ hs => .advance (.modViews hs.progressed)

theorem Kept.promoteInstr {o : JmpO} (h : Kept M F T s) : Kept M F T (s.promoteInstr o) := by
  unfold State.promoteInstr
  split
  · exact h
  · refine h.guarded fun _ _ hs => ?_
    extract_lets +onlyGivenNames s'
    have hs' : Kept M F T s' := hs.progressed
    split
    · exact hs'
    · extract_lets +onlyGivenNames b ps ops
      refine hs'.withOwners fun _ _ hs2 => ?_
      split
      · exact hs2
      next he3 =>
        extract_lets +onlyGivenNames m'
        have hm' : MemKept M F T m' := by
          unfold m'
          exact .access hs2 (hs2.cur he3)
        exact hs2.memEnd hm' hm'.thread

theorem Kept.waitOn {o : WaitaO} {r : Req} {mask : Option (List Nat)} {met : List Nat} (h : Kept M F T s) :
    Kept M F T (s.waitOn o r mask met) := by
  unfold State.waitOn
  split
  · exact h
  · extract_lets +onlyGivenNames w64 b0 b v' ps ops
    refine h.withOwners fun _ _ hs => ?_
    split
    · exact hs
    next he2 =>
      extract_lets +onlyGivenNames m
      have hm : MemKept M F T m := by
        unfold m
        exact .access hs (hs.cur he2)
      split
      · exact hs.memEnd hm (.of_same hm.thread rfl rfl rfl)
      · split
        · exact hs.memEnd hm hm.thread
        · extract_lets +onlyGivenNames bad met'
          exact .waitCur (.setCur hm.state hm.thread)

theorem Kept.execWaita {o : WaitaO} (h : Kept M F T s) : OutKept M F T (execWaita o s) := by
  unfold Machine.execWaita
  refine .next ?_
  split
  · exact h
  · refine h.guarded fun _ _ hs => ?_
    extract_lets +onlyGivenNames s1
    have hs1 : Kept M F T s1 := by
      unfold s1
      exact .waitOn hs.progressed
    split
    · split
      · exact hs1.post
      · exact hs1
    · exact hs1

theorem Kept.execWaitaSatisfied {core entry : Nat} (h : Kept M F T s) : OutKept M F T (execWaitaSatisfied core entry s) := by
  unfold Machine.execWaitaSatisfied
  refine .next ?_
  split
  · split
    · exact h.post
    · extract_lets +onlyGivenNames s1
      have hs1 : Kept M F T s1 := by
        unfold s1
        refine h.asWaiter fun _ _ hs => ?_
        split
        · exact hs
        · split
          · split
            · exact hs.waitOn
            · exact hs
          · exact hs
      split
      · exact hs1.post
      · exact hs1.post
      · exact hs1
      · split
        · exact hs1.post
        · exact hs1.resourcesFreed
  · exact h

theorem Kept.pushLost {c e : Nat} {pc : Word} {r : Req} {fs : List IdxFault} (h : Kept M F T s) :
    Kept M F T (s.pushLost c e pc r fs).1 := by
  unfold State.pushLost
  split
  · split
    · exact h.pushTrap
    · exact h

theorem Kept.outEnd {c e : Nat} {o : OutAccess} {i : Instr} {r : Req} (h : Kept M F T s) : Kept M F T (s.outEnd c e o i r) := by
  unfold State.outEnd
  extract_lets +onlyGivenNames s1
  have hs1 : Kept M F T s1 := by
    unfold s1
    exact h.modFibre fun _ hc => .ite hc hc
  split
  next he =>
    split
    · split
      · exact .of_fst he (.pushLost hs1.memChanged)
      · exact .fibreFaults (.of_fst he (.pushLost hs1.memChanged))
    · exact .of_fst he (.pushLost hs1.memChanged)

theorem Kept.landStores {o : OutAccess} {r : Req} {ps : List (Nat × Nat)} (h : Kept M F T s) :
    Kept M F T (s.landStores o r ps) := by
  unfold State.landStores
  refine h.foldl fun s pa hs => ?_
  split
  next t ht =>
    split
    next s1 t1 he => exact .setCur (.of_fst he hs.store1) (.of_snd he (hs.cur ht).store1)
  · exact hs

theorem Kept.lose {o : OutAccess} {i : Instr} {r : Req} {ps : List (Nat × Nat)} (h : Kept M F T s) :
    Kept M F T (s.lose o i r ps).1 := by
  unfold State.lose
  split
  · exact h
  next he =>
    extract_lets +onlyGivenNames rpl fault
    split
    · exact h.landStores
    · split
      · extract_lets +onlyGivenNames vals
        split
        · exact h
        · exact h.setCur (.lateResult (h.cur he))

theorem Kept.landed {o : OutAccess} {i : Instr} {r : Req} {ps : List (Nat × Nat)} {poison : Bool} (h : Kept M F T s) :
    Kept M F T (s.landed o i r ps poison) := by
  unfold State.landed
  split
  · exact h
  next t ht =>
    split
    · exact h.landStores
    · extract_lets +onlyGivenNames gs m
      have hm : MemKept M F T m := by
        unfold m
        have h0 : MemKept M F T (MemRes.start s t) := .start h (h.cur ht)
        generalize MemRes.start s t = m0 at h0
        induction gs generalizing m0 with
        | nil => exact h0
        | cons qs gs ih =>
          refine ih _ ?_
          beta_reduce
          extract_lets p
          split
          next s1 t1 bs bad he => exact ⟨.of_fst he h0.state.load1, .of_mid he h0.thread.load1⟩
      exact hm.state.setCur hm.thread.lateResult

theorem Kept.settleOut {c e : Nat} {o : OutAccess} {ps : List (Nat × Nat)} {k : Instr → Req → State → State × List IdxFault}
    (h : Kept M F T s) (hk : ∀ i r s, Kept M F (.fibre c e) s → Kept M F (.fibre c e) (k i r s).1) :
    Kept M F T (s.settleOut c e o ps k) := by
  obtain rfl := h.turn
  unfold State.settleOut
  split
  · split
    · split
      next s1 fs he =>
        have hs : Kept M F (.fibre c e) s1 := .of_fst he (hk _ _ _ h.withTurn)
        extract_lets +onlyGivenNames o1 x
        have hx : CoreOk F x := hs.core
        extract_lets +onlyGivenNames src s2
        have hsrc : Kept M F (.fibre c e) src := by
          unfold src
          exact .setCore hs hx
        have h2 : Kept M F s.turn s2 := hsrc.withTurn
        clear_value s2
        split
        · exact h2.outEnd
        · exact h2
    · exact h
  · exact h

theorem Kept.loseAt {c e : Nat} {o : OutAccess} {ps : List (Nat × Nat)} (h : Kept M F T s) : Kept M F T (s.loseAt c e o ps) := by
  unfold State.loseAt
  exact h.settleOut fun _ _ _ hs => hs.lose

theorem Kept.landAt {c e : Nat} {o : OutAccess} {ps : List (Nat × Nat)} {poison : Bool} (h : Kept M F T s) :
    Kept M F T (s.landAt c e o ps poison) := by
  unfold State.landAt
  exact h.settleOut fun _ _ _ hs => hs.landed

theorem Kept.endOuts {c uid : Nat} (h : Kept M F T s) : Kept M F T (s.endOuts c uid) := by
  unfold State.endOuts
  refine h.foldl_mem fun _ _ _ hs => ?_
  split
  · extract_lets +onlyGivenNames s1
    have hs1 : Kept M F T s1 := by
      unfold s1
      split
      · exact hs
      · exact hs.loseAt
    split
    · exact hs1
    · split
      · exact hs1.landAt
      · exact hs1

theorem Kept.execLoadDataArrival {core entry : Nat} (h : Kept M F T s) : OutKept M F T (execLoadDataArrival core entry s) := by
  unfold Machine.execLoadDataArrival
  refine .next ?_
  split
  · exact h
  · split
    · extract_lets +onlyGivenNames s1
      have hs1 : Kept M F T s1 := by
        unfold s1
        split
        · exact h
        · exact h.landAt
      split
      · exact hs1
      · extract_lets +onlyGivenNames s2
        have hs2 : Kept M F T s2 := hs1.post
        split
        · exact hs2.post
        · exact hs2

end

/-! ### Copy commands -/

section
variable {M F P : Prop} {T : Turn} {s : State}

theorem Kept.copyRead {q : CopyCmd} {l : CLoc} {n : Nat} (h : Kept M F T s) : Kept M F T (s.copyRead q l n).1 := by
  unfold State.copyRead
  extract_lets +onlyGivenNames own
  split
  · extract_lets +onlyGivenNames s1
    have hs1 : Kept M F T s1 := h.demandGot
    exact hs1
  · exact h
  · exact h

theorem Kept.copyWrite {c : Nat} {q : CopyCmd} {ext : List (CLoc × Nat) × List (CLoc × Nat)} {l : CLoc} {bs : List PByte}
    (h : Kept M F T s) : Kept M F T (s.copyWrite c q ext l bs).1 := by
  unfold State.copyWrite
  extract_lets hits undef data marks put
  have hput : ∀ sp a, Kept M F T (put sp a).1 := fun sp a => by
    unfold put
    split
    next s1 v he => exact .of_fst he h.storeMo
  split
  · exact hput _ _
  · exact hput _ _
  · exact h

theorem Kept.unitWalks {c : Nat} {q : CopyCmd} {u : CUnit} (h : Kept M F T s) : Kept M F T (s.unitWalks c q u) := by
  unfold State.unitWalks
  extract_lets walk
  have hwalk : ∀ p s r, Kept M F T s → Kept M F T (walk p s r) := fun p s r hs => by
    unfold walk
    split
    · exact hs.walkRange
    · exact hs
  exact .foldl (h.foldl fun _ _ hs => hwalk _ _ _ hs) fun _ _ hs => hwalk _ _ _ hs

theorem Kept.copyUnit {c : Nat} {q : CopyCmd} {ext : List (CLoc × Nat) × List (CLoc × Nat)} {u : CUnit} (h : Kept M F T s) :
    Kept M F T (s.copyUnit c q ext u).1 := by
  unfold State.copyUnit
  extract_lets +onlyGivenNames s0
  have hs0 : Kept M F T s0 := h.unitWalks
  split
  · exact hs0
  · exact hs0
  · extract_lets +onlyGivenNames s'
    have hs' : Kept M F T s' := hs0
    extract_lets +onlyGivenNames lost
    split
    · exact hs'
    · split
      next he3 =>
        extract_lets +onlyGivenNames out
        split
        · extract_lets +onlyGivenNames b'
          refine .of_fst he3 (.foldl_fst hs' fun _ _ hs => ?_)
          split
          next he5 => exact .of_fst he5 hs.copyRead
        · split
          next he4 =>
            refine .of_fst he4 (.foldl_fst ?_ ?_)
            · refine .of_fst he3 (.foldl_fst hs' fun _ _ hs => ?_)
              split
              next he5 => exact .of_fst he5 hs.copyRead
            · intro _ _ hs
              split
              next he5 => exact .of_fst he5 hs.copyWrite

theorem Kept.setCopy {c : Nat} {q : CopyCmd} (h : Kept M F T s) : Kept M F T (s.setCopy c q) := by
  unfold State.setCopy
  extract_lets +onlyGivenNames x
  have hx : CoreOk F x := h.core
  exact h.setCore hx

theorem Kept.kickCopies {c : Nat} (h : Kept M F T s) : Kept M F T (s.kickCopies c) := by
  unfold State.kickCopies
  split
  · exact h
  · exact h.post

theorem Kept.copyTrap {c : Nat} {q : CopyCmd} {cause : BitVec 8} {addr aux : Nat} (h : Kept M F T s) :
    Kept M F T (s.copyTrap c q cause addr aux) := by
  unfold State.copyTrap
  exact h.pushTrap

theorem Kept.copyGone {c : Nat} {q : CopyCmd} (h : Kept M F T s) : Kept M F T (s.copyGone c q) := by
  unfold State.copyGone
  extract_lets +onlyGivenNames x
  have hx : CoreOk F x := h.core
  extract_lets +onlyGivenNames s1
  have hs1 : Kept M F T s1 := h.setCore hx
  exact .kickCopies (.checkInst (.tokensChanged hs1.addStores))

theorem Kept.copyDone {c : Nat} {q : CopyCmd} (h : Kept M F T s) : Kept M F T (s.copyDone c q) := by
  unfold State.copyDone
  extract_lets +onlyGivenNames x
  have hx : CoreOk F x := h.core
  extract_lets +onlyGivenNames own later
  exact .copyGone (h.setCore (.mapFibres hx rfl rfl fun _ hc => .ite hc hc))

theorem Kept.storeCw {c : Nat} {q : CopyCmd} {sp : Space} {a : Nat} (h : Kept M F T s) : Kept M F T (s.storeCw c q sp a).1 := by
  unfold State.storeCw
  extract_lets +onlyGivenNames id
  split
  next he => exact .markStore (.of_fst he h.storeFor)

theorem Kept.copyStop {c : Nat} {q : CopyCmd} {a : Nat} {x : Xlat} (h : Kept M F T s) : Kept M F T (s.copyStop c q a x) := by
  unfold State.copyStop
  split
  · exact h
  · exact .copyTrap h.setCopy

theorem Kept.copyLost {c : Nat} {q : CopyCmd} {a : Nat} {peer : Bool} (h : Kept M F T s) : Kept M F T (s.copyLost c q a peer) := by
  unfold State.copyLost
  exact .copyTrap h.setCopy

theorem Kept.copyFinish {c : Nat} {q : CopyCmd} (h : Kept M F T s) : Kept M F T (s.copyFinish c q) := by
  unfold State.copyFinish
  split
  · exact h.copyGone
  · split
    · exact h.copyDone
    · split
      · split
        · split
          next he3 => exact .copyDone (.of_fst he3 h.storeCw)
        · exact h.copyDone
      · extract_lets +onlyGivenNames sp
        refine h.served fun _ hs => ?_
        extract_lets +onlyGivenNames s'
        have hs' : Kept M F T s' := hs.walkRange
        split
        · exact hs'.copyStop
        · split
          · exact hs'.copyLost
          · split
            next he2 => exact .copyDone (.of_fst he2 hs'.storeCw)
        · exact hs'.copyDone

theorem Kept.copyTile {c : Nat} {q : CopyCmd} (h : Kept M F T s) : Kept M F T (s.copyTile c q) := by
  unfold State.copyTile
  extract_lets +onlyGivenNames k
  split
  · exact .post h.setCopy
  · extract_lets +onlyGivenNames bytes q1
    exact .kickCopies (.copyFinish (.setCopy (h.setCore (.setCtx h.core))))

theorem Kept.copyPayload {c : Nat} {q : CopyCmd} (h : Kept M F T s) : Kept M F T (s.copyPayload c q) := by
  unfold State.copyPayload
  split
  · exact h.copyFinish
  · split
    · exact h.copyTile
    · split
      · exact h.copyFinish
      · split
        · extract_lets +onlyGivenNames q1
          exact .copyFinish h.setCopy
        · exact .post h.setCopy

theorem Kept.copyStep {c : Nat} {q : CopyCmd} (h : Kept M F T s) : Kept M F T (s.copyStep c q) := by
  unfold State.copyStep
  split
  · exact h.copyPayload
  · extract_lets +onlyGivenNames same ext
    split
    · split
      · refine h.served fun _ hs => ?_
        split
        next he3 => exact .setCopy (.of_fst he3 hs.copyUnit)
        next he3 => exact .copyLost (.of_fst he3 hs.copyUnit)
        next he3 => exact .copyStop (.of_fst he3 hs.copyUnit)

theorem Kept.execCopyRun {core : Nat} (h : Kept M F T s) : OutKept M F T (execCopyRun core s) := by
  unfold Machine.execCopyRun
  refine .next ?_
  extract_lets +onlyGivenNames cs
  split
  · exact h
  · split
    · exact h.copyGone
    · extract_lets +onlyGivenNames q1
      exact .kickCopies (.copyStep h.setCopy)

theorem Kept.execOperandsConsumed {core ctx tile : Nat} (h : Kept M F T s) :
    OutKept M F T (execOperandsConsumed core ctx tile s) := by
  unfold Machine.execOperandsConsumed
  refine .next ?_
  split
  · exact h
  · exact h.copyTile

theorem Kept.execPeerWriteUndeliverable {core : Nat} (h : Kept M F T s) : OutKept M F T (execPeerWriteUndeliverable core s) := by
  unfold Machine.execPeerWriteUndeliverable
  refine .next ?_
  split
  · exact h
  · exact h.copyLost

theorem Kept.copyFatal {c : Nat} {q : CopyCmd} {cause : BitVec 8} (h : Kept M F T s) : Kept M F T (s.copyFatal c q cause) := by
  unfold State.copyFatal
  extract_lets +onlyGivenNames x
  have hx : CoreOk F x := h.core
  extract_lets +onlyGivenNames dead s1
  have hs1 : Kept M F T s1 := by
    unfold s1
    exact h.setCore (.mapFibres hx rfl rfl fun _ hc => .ite hc hc)
  extract_lets +onlyGivenNames gone s2
  have hs2 : Kept M F T s2 := by
    unfold s2
    exact hs1.foldl fun _ _ hs => hs.addStores
  exact .kickCopies (.foldl hs2.tokensChanged fun _ _ hs => hs.checkInst)

theorem Kept.resumeCopies {c : Nat} {f : CopyCmd → Bool} (h : Kept M F T s) : Kept M F T (s.resumeCopies c f) := by
  unfold State.resumeCopies
  extract_lets +onlyGivenNames x
  have hx : CoreOk F x := h.core
  exact .kickCopies (h.setCore hx)

theorem Kept.engine {g : Guard} {rights : Bool} {ops : Thread → Nat → List Opd} {k : State → State} (h : Kept M F T s)
    (hk : ∀ s, Kept M F T s → Kept M F T (k s)) : Kept M F T (s.engine g rights ops k) := by
  unfold State.engine
  split
  · exact h.trapAll
  · refine h.guarded fun _ _ hs => ?_
    split
    · exact hs
    · extract_lets +onlyGivenNames os
      split
      · exact hs.trapAll
      · split
        · exact hs.trapAll
        · split
          · exact hs.poisonTrap
          · exact hk _ hs

theorem Kept.copyIssue {kind : CopyKind} {fmt : Fmt} {o : CopyO} (h : Kept M F T s) : Kept M F T (s.copyIssue kind fmt o) := by
  unfold State.copyIssue
  refine h.engine fun _ hs => ?_
  split
  · extract_lets +onlyGivenNames q
    split
    · exact hs.takeTrap
    · extract_lets +onlyGivenNames x
      have hx : CoreOk F x := hs.core
      split
      · exact hs.waitCur
      · extract_lets +onlyGivenNames src s1
        have hsrc : Kept M F T src := hs.setCore hx
        have hs1 : Kept M F T s1 := hsrc
        exact .kickCopies (.advance hs1.progressed)
  · exact hs

end

/-! ### Swaps -/

section
variable {M F P : Prop} {T : Turn} {s : State}

/-- Every predicate of a carried thread is T or F. -/
theorem Cuts.carryOf {t : Thread} {draw : Nat} {m : BitVec 32} : Cuts P (t.carryOf draw m) := by
  unfold Thread.carryOf
  extract_lets dead regs ks preds t1 lanes
  have hp : ∀ b : Box, ∀ kv ∈ preds, kv.2.norm b = kv.2 := by
    intro b kv hk
    obtain ⟨n, -, rfl⟩ := List.mem_map.1 hk
    exact norm_boolPred b _
  split
  · exact fun _ _ => hp _
  · exact fun _ _ => hp _

theorem Cuts.swapRecord {c : Nat} {t : Thread} {wc : Bool} {r : SwapRec} (ht : Cuts P t) (hr : s.swapRecord c t wc = some r) :
    Cuts P r.th := by
  unfold State.swapRecord at hr
  extract_lets mask pairs n th carry own at hr
  clear_value mask
  have hth : Cuts P th := by
    unfold th
    split
    · exact .carryOf
    · exact ht
  split at hr
  · cases hr
  · split at hr
    · cases hr
      exact hth
    · split at hr
      · cases hr
        exact hth
      · cases hr

theorem Cuts.swapChoice {c e : Nat} {t : Thread} {r : SwapRec} (h : Kept M F T s) (hr : s.swapChoice c = some (e, t, r)) :
    Cuts F r.th := by
  unfold State.swapChoice at hr
  extract_lets x waits at hr
  split at hr
  · cases hr
  · have hf : AllVals (Cuts F) x.fibres := h.core.2.1
    refine List.foldlRecOn (motive := fun best => ∀ b, best = some b → Cuts F b.2.2.th) x.fibres _ ?_ ?_ (e, t, r) hr
    · exact fun _ hb => nomatch hb
    intro best hbest kv hkv b hb
    generalize (_ || _ : Bool) = skip at hb
    split at hb
    · exact hbest b hb
    · split at hb
      next he =>
        cases hb
        exact .swapRecord (hf kv hkv) he
      · exact hbest b hb

theorem Kept.drawPool {ctx n : Nat} (h : Kept M F T s) : Kept M F T (s.drawPool ctx n) := by
  unfold State.drawPool
  split
  next he => exact h.setCtx (.of_same (h.ctx? he) rfl)
  · exact h

theorem Kept.returnPool {ctx n : Nat} (h : Kept M F T s) : Kept M F T (s.returnPool ctx n) := by
  unfold State.returnPool
  split
  next he => exact h.setCtx (.of_same (h.ctx? he) rfl)
  · exact h

theorem CoreOk.swapped {x : Core} {e : Nat} {t : Thread} {r : SwapRec} (hx : CoreOk F x) (hr : Cuts F r.th) :
    CoreOk F { x with swaps := Tab.set x.swaps e r, fibres := Tab.set x.fibres e t.placeholder } := by
  obtain ⟨hf, hc, hs⟩ := hx
  exact ⟨fun hF => rising_set (hf hF), hc.set .placeholder, hs.set hr⟩

theorem CoreOk.back {x : Core} {e : Nat} {t : Thread} (hx : CoreOk F x) (ht : Cuts F t) :
    CoreOk F { x with fibres := Tab.set x.fibres e t, swaps := Tab.del x.swaps e } := by
  obtain ⟨hf, hc, hs⟩ := hx
  exact ⟨fun hF => rising_set (hf hF), hc.set ht, hs.del⟩

theorem Kept.swapOut {c e : Nat} {t : Thread} {r : SwapRec} (h : Kept M F T s) (hr : Cuts F r.th) :
    Kept M F T (s.swapOut c e t r) := by
  unfold State.swapOut
  extract_lets s1 x
  have hs1 : Kept M F T s1 := by
    unfold s1
    split
    · split
      · exact h.modInst
      · exact h
    · exact h.drawPool
  exact .resourcesFreed (hs1.setCore (hs1.core.swapped hr))

theorem Kept.swapIn {c e : Nat} {r : SwapRec} (h : Kept M F T s) (hr : Cuts F r.th) : OptKept M F T (s.swapIn c e r) := by
  unfold State.swapIn
  extract_lets +onlyGivenNames x n free _ x1
  have hx1 : CoreOk F x1 := h.core.back hr
  split
  · exact .none
  · extract_lets s1
    have hs1 : Kept M F T s1 := h.setCore hx1
    refine .some ?_
    split
    · split
      · exact hs1.modInst
      · exact hs1
    · exact hs1.returnPool

theorem Kept.execResourceSwapOut {core : Nat} (h : Kept M F T s) : OutKept M F T (execResourceSwapOut core s) := by
  unfold Machine.execResourceSwapOut
  refine .next ?_
  split
  next he => exact h.swapOut (.swapChoice h he)
  · exact h

theorem Kept.swapDue {c e : Nat} (h : Kept M F T s) : Kept M F T (s.swapDue c e) := by
  unfold State.swapDue
  split
  · exact h
  next he =>
    split
    · split
      · exact h.post
      · split
        next hr => exact h.swapOut (.swapRecord (h.fibre? he) hr)
        · exact h
    · exact h

theorem Kept.waitcOn {c e : Nat} {pc : Word} {r : FbRec} {a : Word} {carry : BitVec 32} (h : Kept M F T s) :
    Kept M F T (s.waitcOn c e pc r a carry) := by
  unfold State.waitcOn
  split
  · exact h
  next t ht =>
    extract_lets fail sp
    split
    · exact h.fibreFaults
    · split
      · exact h.fibreFaults
      · extract_lets +onlyGivenNames s1
        have hs1 : Kept M F T s1 := .demand h.walkRange
        split
        · exact hs1.fibreFaults
        · exact hs1.modFibre fun _ hc => hc
        · extract_lets s2
          have hs2 : Kept M F T s2 := hs1.modFibre fun _ hc => hc
          refine .post ?_
          split
          · exact hs2.swapDue
          · exact hs2.post

theorem Kept.execWaitc {o : WaitcO} (h : Kept M F T s) : OutKept M F T (execWaitc o s) := by
  unfold Machine.execWaitc
  refine .next (h.engine fun _ hs => ?_)
  split
  next he he2 =>
    extract_lets +onlyGivenNames a m
    split
    · exact hs.takeTrap
    · exact hs.curServed fun _ hs2 => .waitcOn (hs2.setFibre (.advance (.progressed (hs.curFibre he he2))))
  · exact hs

theorem Kept.execWaitcResume {core entry : Nat} (h : Kept M F T s) : OutKept M F T (execWaitcResume core entry s) := by
  unfold Machine.execWaitcResume
  refine .next ?_
  extract_lets again poison goOn look
  have hpoison : ∀ va s, Kept M F T s → Kept M F T (poison va s) := fun va s hs => by
    unfold poison
    split
    · exact hs.fibreFaults
    · exact hs
  have hlook : ∀ t pa va since (back : Thread → State → (State → State) → State), Cuts F t →
      (∀ t s k, Cuts F t → Kept M F T s → (∀ s, Kept M F T s → Kept M F T (k s)) → Kept M F T (back t s k)) →
      Kept M F T (look t pa va since back) := fun t pa va since back ht hback => by
    unfold look
    split
    · exact h.post
    · extract_lets s
      have hs : Kept M F T s := h.demand
      split
      · exact hback _ _ _ ht hs fun _ h => h
      · exact hs.post
      · exact hback _ _ _ ht hs fun _ => hpoison _ _
  split
  next r hr =>
    have hth : Cuts F r.th := h.core.swap hr
    extract_lets back
    have hback : ∀ t s k, Cuts F t → Kept M F T s → (∀ s, Kept M F T s → Kept M F T (k s)) → Kept M F T (back t s k) :=
      fun t s k ht hs hk => by
        unfold back
        split
        next he => exact .resourcesFreed (hk _ (.of_some he (hs.swapIn ht)))
        · exact hs.post
    split
    · exact hlook _ _ _ _ _ hth hback
    · exact h
    · exact hback _ _ _ hth h fun _ h => h
  next t _ ht =>
    split
    · exact hlook _ _ _ _ _ (h.fibre? ht) fun _ _ _ ht hs hk => .resourcesFreed (hk _ (hs.setFibre ht))
    · exact h
  · exact h

end

/-! ### The engine -/

section
variable {M F P : Prop} {T : Turn} {s : State}

theorem Kept.postStream {c : Nat} (h : Kept M F T s) : Kept M F T (s.postStream c) := by
  unfold State.postStream
  split
  · exact h
  · exact h.post

theorem Kept.execFork {o : ForkO} (h : Kept M F T s) : OutKept M F T (execFork o s) := by
  unfold Machine.execFork
  refine .next (h.engine fun _ hs => ?_)
  split
  · split
    · exact hs.waitCur
    · extract_lets +onlyGivenNames i r s1
      have hs1 : Kept M F T s1 := hs.modInst
      extract_lets +onlyGivenNames x
      have hx' : CoreOk F x := hs1.core
      exact .postStream (.advance (.progressed (hs1.setCore hx')))
  · exact hs

theorem Kept.execStreamStart {core : Nat} (h : Kept M F T s) : OutKept M F T (execStreamStart core s) := by
  unfold Machine.execStreamStart
  refine .next ?_
  extract_lets x
  have hx : CoreOk F x := h.core
  split
  next r rest _ _ =>
    split
    · exact h
    · refine .of_same (s := s.setCore core { x with forkq := rest, stream := _ }) (h.setCore ?_) rfl rfl rfl rfl
      exact hx
  · exact h

theorem Kept.execRdzv {o : G} (h : Kept M F T s) : OutKept M F T (execRdzv o s) := by
  unfold Machine.execRdzv
  refine .next ?_
  split
  · refine h.guarded fun _ _ hs => ?_
    split
    · exact hs
    · extract_lets +onlyGivenNames s1
      have hs1 : Kept M F T s1 := by
        unfold s1
        exact .progressed hs.completeOps
      extract_lets +onlyGivenNames hb
      exact .advance (.wakeRdzv hs1.modInst)
  · refine h.engine fun _ hs => ?_
    split
    next he he2 =>
      split
      · split
        · exact .waitCur (hs.setFibre (hs.cuts he (Kept.cur hs.progressed he2)))
        · exact hs.setFibre (.advance (.gain (hs.cuts he (Kept.cur hs.progressed he2))))
        · exact hs.setFibre (.advance (.gain (hs.cuts he (Kept.cur hs.progressed he2))))
      · exact hs.setFibre (.advance (hs.cuts he (Kept.cur hs.progressed he2)))
    · exact hs

theorem Kept.launchRec {c e : Nat} {o : LaunchO} {r : PendRec} (h : Kept M F T s) : Kept M F T (s.launchRec c e o r) := by
  unfold State.launchRec
  split
  · refine .enqueue (h.modFibre fun t ht => ?_)
    split
    · exact .of_same (t := t.setPred o.p.toNat .t) (ht.setPred .true_) rfl rfl rfl
    · exact ht
  · split
    · exact h.modFibre fun t ht => .of_same (t := t.setPred o.p.toNat .f) (ht.setPred .false_) rfl rfl rfl
    · exact h.modFibre fun _ ht => ht

theorem Kept.launchOn {c e : Nat} {pc : Word} {fb : FbRec} {a : Word} {o : LaunchO} {back : Thread → Thread} (h : Kept M F T s)
    (hback : ∀ t, Cuts F t → Cuts F (back t)) : Kept M F T (s.launchOn c e pc fb a o back) := by
  -- The translation is a variable here: the check of the proof would compute with the length of the range.
  have key : ∀ xlat, State.xlatRange = xlat → Kept M F T (s.launchOn c e pc fb a o back) := fun xlat hx => by
    unfold State.launchOn
    rw [hx]
    split
    · exact h
    next t ht =>
      extract_lets +onlyGivenNames sp
      split
      · exact h.fibreFaults
      · exact h
      · extract_lets +onlyGivenNames s0 s1
        have hs1 : Kept M F T s1 := .demandPieces h.walkRange
        clear_value s1
        split
        · exact hs1.fibreFaults
        · extract_lets +onlyGivenNames v g
          split
          · exact hs1.fibreFaults
          · extract_lets +onlyGivenNames s2
            have hs2 : Kept M F T s2 := hs1.setFibre (.modViewAt (h.fibre? ht))
            clear_value s2
            split
            · exact hs2
            · split
              · exact hs2.launchRec
              · exact .pushFaults (hs2.modFibre hback)
  exact key _ rfl

theorem Kept.execLaunch {o : LaunchO} (h : Kept M F T s) : OutKept M F T (execLaunch o s) := by
  unfold Machine.execLaunch
  refine .next (h.engine fun s hs => ?_)
  split
  next c e t hT ht =>
    have hc : Cuts F t := hs.curFibre hT ht
    extract_lets a
    split
    · exact hs.takeTrap
    · exact hs.curServed fun _ hs => .launchOn (hs.setFibre hc.progressed.advance) fun _ _ => hc
  · exact hs

theorem Kept.launchWaiter1 {c : Nat} (h : Kept M F T s) : Kept M F T (s.launchWaiter1 c) := by
  unfold State.launchWaiter1
  split
  · exact h
  · extract_lets ws
    split
    next e t he =>
      have hmem : (e, t) ∈ ws := by
        refine List.foldlRecOn (motive := fun b => ∀ kv, b = some kv → kv ∈ ws) ws _ ?_ ?_ (e, t) he
        · exact fun _ hb => nomatch hb
        intro b hb a ha kv hkv
        split at hkv
        · split at hkv
          · exact hb kv hkv
          · cases hkv
            exact ha
        · cases hkv
          exact ha
      have ht : Cuts F t := h.core.2.1 _ (List.mem_of_mem_filter hmem)
      split
      · extract_lets s1
        have hs1 : Kept M F T s1 := h.setFibre ht
        refine .resourcesFreed ?_
        split
        · exact hs1.enqueue
        · exact hs1
      · exact h
    · exact h

theorem Kept.launchWaiter {c : Nat} (h : Kept M F T s) : Kept M F T (s.launchWaiter c) := by
  unfold State.launchWaiter
  exact h.foldl fun _ _ hs => hs.launchWaiter1

theorem Kept.execCancel {o : JmpO} (h : Kept M F T s) : OutKept M F T (execCancel o s) := by
  unfold Machine.execCancel
  refine .next (h.engine fun _ hs => ?_)
  split
  next he he2 =>
    extract_lets +onlyGivenNames job ps _ s1
    have hs1 : Kept M F T s1 := by
      unfold s1
      exact hs.setFibre (.of_same (.advance (.progressed (hs.curFibre he he2))) rfl rfl rfl)
    exact hs1.foldl fun _ _ hs2 => hs2.post
  · exact hs

end

/-! ### The matrix engine -/

section
variable {M F P : Prop} {T : Turn} {s : State}

theorem Kept.onStream {g : Guard} {k : Nat → Stream → State → State} (h : Kept M F T s)
    (hk : ∀ a b s, Kept M F T s → Kept M F T (k a b s)) : Kept M F T (s.onStream g k) := by
  unfold State.onStream
  split
  · refine h.guarded fun _ _ hs => ?_
    split
    · exact hk _ _ _ hs
    · exact hs
  · exact h.trapAll

theorem Kept.admitOp {c ctx : Nat} {k : CoreCtx} {o : TileOp} (h : Kept M F T s) : Kept M F T (s.admitOp c ctx k o) := by
  unfold State.admitOp
  extract_lets +onlyGivenNames uid
  exact .post (h.setCore (.setCtx h.core))

theorem Kept.execTileInstructionCompletion {core ctx : Nat} (h : Kept M F T s) :
    OutKept M F T (execTileInstructionCompletion core ctx s) := by
  unfold Machine.execTileInstructionCompletion
  refine .next ?_
  extract_lets +onlyGivenNames s1
  have hs1 : Kept M F T s1 := h.completeOne
  extract_lets +onlyGivenNames k s2
  have hs2 : Kept M F T s2 := by
    unfold s2
    refine hs1.foldl fun _ _ hs => ?_
    split
    · exact hs.post
    · exact hs
  extract_lets +onlyGivenNames s3
  have hs3 : Kept M F T s3 := hs2.tokensChanged
  split
  · split
    · exact hs3.asTurn fun _ hs => hs.headerWaits
    · exact hs3
  · exact hs3

theorem Kept.execTcfg {o : TcfgO} (h : Kept M F T s) : OutKept M F T (execTcfg o s) := by
  unfold Machine.execTcfg
  refine .next (h.onStream fun _ _ _ hs => ?_)
  split
  · exact hs.trapAll
  · extract_lets +onlyGivenNames s1
    have hs1 : Kept M F T s1 := hs.completeOps
    extract_lets +onlyGivenNames k k1
    exact .advance (hs1.setCore (.setCtx hs1.core))

theorem Kept.rowsServed {t : Thread} {sp : Bool} {p : Perm} {rows : List (Nat × Nat)} {k : State → State} (h : Kept M F T s)
    (hk : ∀ s, Kept M F T s → Kept M F T (k s)) : Kept M F T (s.rowsServed t sp p rows k) := by
  unfold State.rowsServed
  split
  · exact hk _ h
  · exact h.curServed fun _ hs => hk _ (hs.foldl fun _ _ hs2 => hs2.walkRange)

theorem Kept.streamFault {c : Nat} {a : Nat} {x : Xlat} (h : Kept M F T s) : Kept M F T (s.streamFault c a x) := by
  unfold State.streamFault
  split
  · exact h
  · extract_lets +onlyGivenNames s1
    have hs1 : Kept M F T s1 := h.agentFault
    split
    · exact hs1.setCore (.of_same hs1.core rfl rfl)
    · exact hs1

theorem Kept.xRead {ls : List (CLoc × Nat)} (h : Kept M F T s) : Kept M F T (s.xRead ls).1 := by
  unfold State.xRead
  refine .foldl_fst h fun _ _ hs => ?_
  split
  next hs =>
    split
    next he _ =>
      extract_lets +onlyGivenNames s1'
      have hs1' : Kept M F T s1' := by
        unfold s1'
        exact .demandGot hs
      extract_lets +onlyGivenNames g
      exact hs1'.setCur (.of_same (Kept.cur hs he) rfl rfl rfl)
    next he _ =>
      extract_lets +onlyGivenNames g
      exact .setCur hs (.of_same (Kept.cur hs he) rfl rfl rfl)
    · exact hs

theorem Kept.xWrite {ls : List (CLoc × Nat)} {bs : List PByte} (h : Kept M F T s) : Kept M F T (s.xWrite ls bs) := by
  unfold State.xWrite
  refine .foldl_fst h fun acc l hs => ?_
  split
  next s1 bs1 =>
    replace hs : Kept M F T s1 := hs
    extract_lets d put
    have hput : ∀ t sp a, s1.cur? = some t → Kept M F T (put t sp a) := fun t sp a ht => by
      unfold put
      split
      next he =>
        have hc := hs.cur ht
        exact .setCur (.of_fst he hs.storeMo) hc
    clear_value put
    dsimp only
    split
    next ht _ =>
      split
      · exact hs
      · exact hput _ _ _ ht
    next ht _ => exact hput _ _ _ ht
    · exact hs

theorem Kept.streamNotice {c : Nat} {x : Stream} {a : Nat} (h : Kept M F T s) : Kept M F T (s.streamNotice c x a) := by
  unfold State.streamNotice
  exact h.pushTrap

theorem Kept.tmemTrap {b : BitVec 8 × Nat × Nat} (h : Kept M F T s) : Kept M F T (s.tmemTrap b) := by
  unfold State.tmemTrap
  exact h.takeTrap

theorem Kept.execTload {o : TmemO} (h : Kept M F T s) : OutKept M F T (execTload o s) := by
  unfold Machine.execTload
  refine .next (h.onStream fun _ _ _ hs => ?_)
  extract_lets +onlyGivenNames hi d
  split
  · exact hs.tmemTrap
  · refine hs.rowsServed fun _ hs2 => ?_
    split
    · exact hs2.streamFault
    · split
      next he3 =>
        extract_lets +onlyGivenNames k
        refine .advance (.admitOp (.of_fst he3 (.foldl_fst hs2 fun _ _ hs3 => ?_)))
        split
        next he4 => exact .of_fst he4 hs3.xRead

theorem Kept.execTstore {o : TmemO} (h : Kept M F T s) : OutKept M F T (execTstore o s) := by
  unfold Machine.execTstore
  refine .next (h.onStream fun _ _ _ hs => ?_)
  extract_lets +onlyGivenNames hi d
  split
  · exact hs.tmemTrap
  · refine hs.rowsServed fun _ hs2 => ?_
    split
    · exact hs2.streamFault
    · extract_lets +onlyGivenNames k t s0
      have hs0 : Kept M F T s0 := by
        unfold s0
        exact .foldl hs2.progressed fun _ _ hs3 => hs3.xWrite
      extract_lets +onlyGivenNames lost s1
      have hs1 : Kept M F T s1 := by
        unfold s1
        split
        · exact hs0.streamNotice
        · exact hs0
      exact .advance hs1.admitOp

theorem Kept.execTscl {o : TmemO} (h : Kept M F T s) : OutKept M F T (execTscl o s) := by
  unfold Machine.execTscl
  refine .next (h.onStream fun _ _ _ hs => ?_)
  extract_lets +onlyGivenNames a'
  split
  · exact hs.tmemTrap
  · refine hs.rowsServed fun _ hs2 => ?_
    split
    · exact hs2.streamFault
    · split
      next he3 =>
        extract_lets +onlyGivenNames k t
        exact .advance (.admitOp (.of_fst he3 hs2.xRead))

theorem Kept.execTzero {o : TileO} (h : Kept M F T s) : OutKept M F T (execTzero o s) := by
  unfold Machine.execTzero
  refine .next (h.onStream fun _ _ _ hs => ?_)
  extract_lets +onlyGivenNames k
  exact .advance hs.admitOp

theorem Kept.execTtrn {o : TtrnO} (h : Kept M F T s) : OutKept M F T (execTtrn o s) := by
  unfold Machine.execTtrn
  refine .next (h.onStream fun _ _ _ hs => ?_)
  extract_lets +onlyGivenNames k t
  split
  · exact hs.trapAll
  · split
    · exact hs.trapAll
    · extract_lets +onlyGivenNames n img
      exact .advance hs.admitOp

theorem Kept.execTscale {o : TscaleO} (h : Kept M F T s) : OutKept M F T (execTscale o s) := by
  unfold Machine.execTscale
  refine .next (h.onStream fun c x s hs => ?_)
  extract_lets +onlyGivenNames k t e put
  have hput : ∀ b sc, Kept M F T (put b sc) := fun _ _ => .advance hs.admitOp
  split
  · exact hs.trapAll
  · exact hs.trapAll
  · exact hs.trapAll
  · extract_lets sc
    split
    · exact hs.trapAll
    · split
      · exact hs.trapAll
      · exact hput _ _
  · split
    · exact hs.trapAll
    · exact hput _ _

theorem Kept.execTadd {o : TaddO} (h : Kept M F T s) : OutKept M F T (execTadd o s) := by
  unfold Machine.execTadd
  refine .next (h.onStream fun _ _ _ hs => ?_)
  extract_lets +onlyGivenNames k a' b'
  split
  · exact hs.trapAll
  · extract_lets +onlyGivenNames _ cell rows bytes op
    exact .advance hs.admitOp

theorem Kept.execTlatch {o : TileO} (h : Kept M F T s) : OutKept M F T (execTlatch o s) := by
  unfold Machine.execTlatch
  refine .next (h.onStream fun _ _ _ hs => ?_)
  extract_lets +onlyGivenNames k
  split
  · exact hs.trapAll
  · split
    · extract_lets +onlyGivenNames n rest
      exact .advance hs.admitOp

theorem Kept.tileEnd {pc : Word} {fs : List IdxFault} (h : Kept M F T s) : Kept M F T (s.tileEnd pc fs) := by
  unfold State.tileEnd
  split
  next he he2 =>
    extract_lets +onlyGivenNames s1
    have hs1 : Kept M F T s1 := by
      unfold s1
      exact h.setFibre (.advance (h.curFibre he he2))
    split
    · exact hs1
    · exact hs1.fibreFaults
  · exact h

theorem Kept.execTfill {o : TfillO} (h : Kept M F T s) : OutKept M F T (execTfill o s) := by
  unfold Machine.execTfill
  refine .next ?_
  split
  · exact h.trapAll
  · refine h.guarded fun _ _ hs => ?_
    extract_lets +onlyGivenNames s'
    have hs' : Kept M F T s' := hs.progressed
    split
    · extract_lets +onlyGivenNames row grp ps bad fs good
      split
      · exact hs
      · split
        · exact hs'.tileEnd
        · extract_lets +onlyGivenNames k n old new
          exact .tileEnd hs'.admitOp
    · exact hs'

theorem Kept.drain {c : Nat} {o : TfillO} {mask : Option (List Nat)} (h : Kept M F T s) : Kept M F T (s.drain c o mask) := by
  unfold State.drain
  split
  · exact h
  next he =>
    extract_lets +onlyGivenNames row ps fs good
    split
    · exact .advance (h.setCur (.foldl (h.cur he) fun _ _ hc => hc.writeReg))
    · split
      · exact h.tileEnd
      · extract_lets +onlyGivenNames k u m word t1
        have ht1 : Cuts (Ranged F T) t1 := by
          unfold t1
          exact .foldl (h.cur he) fun _ _ hc => hc.writeReg
        exact .tileEnd (.admitOp (h.setCur ht1))

theorem Kept.execTdrain {o : TfillO} (h : Kept M F T s) : OutKept M F T (execTdrain o s) := by
  unfold Machine.execTdrain
  refine .next ?_
  split
  · exact h.trapAll
  · refine h.guardedDst fun _ _ hs => ?_
    split
    · split
      · exact hs
      · split
        · exact hs.orWait hs.drain
        · exact hs.orWait (hs.expandThen fun _ hs2 => hs2.drain)
    · exact hs

theorem Kept.mmaGo {c : Nat} {o : MmaO} {f : TCfg} {fa fb : Fmt} {lim : Nat × Nat × Nat} {r : MmaRun} (h : Kept M F T s) :
    Kept M F T (s.mmaGo c o f fa fb lim r) := by
  unfold State.mmaGo
  split
  · exact h
  · split
    · extract_lets +onlyGivenNames n vals
      split
      · exact h.setCore (.of_same h.core rfl rfl)
      · extract_lets +onlyGivenNames all res _ s1
        have hs1 : Kept M F T s1 := by
          unfold s1
          exact h.setCore (.of_same h.core rfl rfl)
        extract_lets +onlyGivenNames k _ k1
        exact .advance (.post (hs1.setCore (.setCtx hs1.core)))

theorem Kept.finishMma {c : Nat} (h : Kept M F T s) : Kept M F T (s.finishMma c) := by
  unfold State.finishMma
  have h0 : Kept M F T { s with slow := false } := h
  split
  · split
    · split
      next fa fb lim _ _ =>
        exact .of_same (h0.asTurn (T' := .stream c) fun _ hs => hs.mmaGo (fa := fa) (fb := fb) (lim := lim)) rfl rfl rfl rfl
      · exact h
    · exact h
  · exact h

theorem Kept.execMma {o : MmaO} (h : Kept M F T s) : OutKept M F T (execMma o s) := by
  unfold Machine.execMma
  refine .next (h.onStream fun _ _ _ hs => ?_)
  extract_lets +onlyGivenNames k
  split
  · split
    · exact hs.mmaGo
    · extract_lets +onlyGivenNames h' ta tb tc td
      split
      · extract_lets +onlyGivenNames whole
        split
        · exact hs.trapAll
        · extract_lets +onlyGivenNames hold reads
          split
          · extract_lets +onlyGivenNames sums
            exact .mmaGo (hs.setCore (.setCtx hs.core))
          · extract_lets +onlyGivenNames r
            exact .advance hs.admitOp
  · exact hs.trapAll

theorem Kept.execMstat {o : MstatO} (h : Kept M F T s) : OutKept M F T (execMstat o s) := by
  unfold Machine.execMstat
  refine .next ?_
  split
  · exact h.trapAll
  · refine h.guardedDst fun _ _ hs => ?_
    split
    · extract_lets +onlyGivenNames s1
      have hs1 : Kept M F T s1 := by
        unfold s1
        split
        · exact hs.completeOps
        · exact hs
      extract_lets +onlyGivenNames k s2'
      have hs2' : Kept M F T s2' := by
        unfold s2'
        split
        · exact hs1.setCore (.setCtx hs1.core)
        · exact hs1
      exact hs.orWait hs2'.deliver
    · exact hs

end

/-! ### Traps -/

section
variable {M F P : Prop} {T : Turn} {s : State}

theorem Kept.execHeldTrapPush {cluster : Nat} (h : Kept M F T s) : OutKept M F T (execHeldTrapPush cluster s) := by
  unfold Machine.execHeldTrapPush
  refine .next ?_
  extract_lets +onlyGivenNames c
  exact h.setCluster

theorem Cuts.unbook {t : Thread} {k : Nat} {other : Option Nat} (ht : Cuts P t) : Cuts P (t.unbook k other) := by
  unfold Thread.unbook
  exact ht

theorem Kept.fillBook {c k : Nat} (h : Kept M F T s) : Kept M F T (s.fillBook c k) := by
  unfold State.fillBook
  split
  · exact h.setCore (.of_same h.core rfl rfl)
  · extract_lets +onlyGivenNames _ s1
    have hs1 : Kept M F T s1 := by
      unfold s1
      exact .putRecord (h.setCore (.of_same h.core rfl rfl))
    extract_lets +onlyGivenNames e rs
    split
    · exact hs1
    next he2 _ =>
      split
      · exact hs1.pushFaults
      · exact hs1.setFibre (.of_same (hs1.fibre? he2) rfl rfl rfl)
    · exact hs1

theorem Kept.freeBook {c k : Nat} (h : Kept M F T s) : Kept M F T (s.freeBook c k) := by
  unfold State.freeBook
  extract_lets +onlyGivenNames x
  have hx : CoreOk F x := h.core
  extract_lets +onlyGivenNames book other s1
  have hs1 : Kept M F T s1 := by
    unfold s1
    exact .fillBook (h.setCore (.mapFibres hx rfl rfl fun _ hc => hc.unbook))
  refine .resourcesFreed ?_
  split
  · exact hs1.memChanged
  · exact hs1

theorem Kept.bookDone {c e k : Nat} (h : Kept M F T s) : Kept M F T (s.bookDone c e k) := by
  unfold State.bookDone
  extract_lets +onlyGivenNames waits s1
  have hs1 : Kept M F T s1 := h.freeBook
  split
  · exact .resourcesFreed (hs1.modFibre fun _ hc => hc)
  · exact hs1

theorem Kept.settleRecord {c k : Nat} (h : Kept M F T s) : Kept M F T (s.settleRecord c k) := by
  unfold State.settleRecord
  split
  · exact h
  · split
    · exact h
    · split
      · exact h.freeBook
      · extract_lets +onlyGivenNames x
        have hx' : CoreOk F x := h.core
        extract_lets +onlyGivenNames s1
        have hs1 : Kept M F T s1 := by
          unfold s1
          exact h.setCore (.mapFibres hx' rfl rfl fun _ hc => .ite hc hc.unbook)
        exact hs1.foldl fun _ _ hs => hs.addRecord

theorem Kept.settleQueue {c : Nat} (h : Kept M F T s) : Kept M F T (s.settleQueue c) := by
  unfold State.settleQueue
  extract_lets +onlyGivenNames x
  have hx : CoreOk F x := h.core
  extract_lets +onlyGivenNames parts
  exact h.setCore hx

theorem Kept.settleWaits {c : Nat} (h : Kept M F T s) : Kept M F T (s.settleWaits c) := by
  unfold State.settleWaits
  refine h.foldl_mem fun s' kv hkv hs => ?_
  split
  · exact .resourcesFreed (hs.setFibre (h.core.2.1 kv hkv :))
  · exact hs

theorem Kept.settleBooks (h : Kept M F T s) : Kept M F T (s.settleBooks) := by
  unfold State.settleBooks
  refine h.foldl fun _ _ hs => ?_
  split
  · exact hs
  · exact .settleWaits (.settleQueue (hs.foldl fun _ _ hs2 => hs2.settleRecord))

theorem Kept.killFibre {c e : Nat} (h : Kept M F T s) : Kept M F T (s.killFibre c e) := by
  unfold State.killFibre
  split
  · exact h
  next he =>
    extract_lets +onlyGivenNames full
    have hfull : Cuts F full := by
      unfold full
      split
      · exact .of_same (h.fibre? he) rfl rfl rfl
      · exact h.fibre? he
    extract_lets +onlyGivenNames s1
    have hs1 : Kept M F T s1 := by
      unfold s1
      split
      · split
        · split
          · exact h.modInst
          · exact h
        · exact h.returnPool
      · exact h
    extract_lets +onlyGivenNames x
    have hx : CoreOk F x := hs1.core
    extract_lets +onlyGivenNames back sets s3
    have hs3 : Kept M F T s3 := hs1.setCore hx
    exact .endFibre (hs3.setFibre hfull)

theorem Kept.intoBoxes {c e : Nat} {t : Thread} {bs : List Box} (h : Kept M F T s) : Kept M F T (s.intoBoxes c e t bs).1 := by
  unfold State.intoBoxes
  extract_lets +onlyGivenNames low
  split
  · exact h
  · extract_lets +onlyGivenNames lead
    refine .foldl_fst (h.setFibre .toBox) fun _ _ hs => ?_
    split
    next he => exact .of_fst he (hs.addFibre .toBox)

theorem Kept.rearm {c e : Nat} {t : Thread} (h : Kept M F T s) (ht : Cuts F t) : Kept M F T (s.rearm c e t) := by
  unfold State.rearm
  extract_lets +onlyGivenNames again
  have hagain : ∀ s, Kept M F T s → Kept M F T (again s) := by
    intro _ hs
    unfold again
    split
    · exact hs
    · exact hs.post
  split
  · exact h.post
  · exact h.post
  · exact h.post
  · exact hagain _ h
  · exact h.launchWaiter
  · exact h.post
  · exact h.post
  · exact .post (h.setFibre ht)
  · exact .post h.post
  · exact h.post
  · exact h.post
  · exact h.post
  · exact h.setFibre ht
  · exact h.setFibre ht
  · exact h

theorem Kept.rearmNew {s0 : State} {c : Nat} (h : Kept M F T s) : Kept M F T (s.rearmNew s0 c) := by
  unfold State.rearmNew
  refine h.foldl_mem fun s' kv hkv hs => ?_
  split
  · exact hs
  · exact hs.rearm (h.core.2.1 kv hkv)

theorem Kept.dispWait {c e : Nat} {t : Thread} {r : TrapRec} (h : Kept M F T s) (ht : Cuts F t) :
    Kept M F T (s.dispWait c e t r) := by
  unfold State.dispWait
  exact h.setFibre ht

theorem Cuts.peeledOf {t : Thread} {b : FbRec} (ht : Cuts P t) : Cuts P (t.peeledOf b) := by
  unfold Thread.peeledOf
  exact ht

theorem Cuts.restOf {t : Thread} (ht : Cuts P t) : Cuts P (t.restOf) := by
  unfold Thread.restOf
  split
  · exact ht
  · exact ht

theorem Kept.peelOne {c e : Nat} {b : FbRec} {r : TrapRec} (h : Kept M F T s) : Kept M F T (s.peelOne c e b r) := by
  unfold State.peelOne
  split
  · exact h
  · extract_lets +onlyGivenNames s0
    have hs0 : Kept M F T s0 := by
      unfold s0
      split
      · exact h
      · exact h.grow
    split
    · exact h
    next he2 =>
      extract_lets +onlyGivenNames left i made
      have hmade : Cuts F made := by
        unfold made
        split
        · exact .onLanes (hs0.fibre? he2)
        · exact .toBox
      extract_lets +onlyGivenNames _ s1
      have hs1 : Kept M F T s1 := by
        unfold s1
        split
        · exact hs0.setCore (.delFibre hs0.core)
        · split
          · exact hs0.setFibre (.onLanes (.restOf (hs0.fibre? he2)))
          · exact hs0.intoBoxes
      split
      next he3 =>
        split
        next he4 =>
          extract_lets +onlyGivenNames u
          have hu : Cuts F u := by
            unfold u
            exact .of_same (Kept.fibre? (.of_fst he3 (hs1.addFibre hmade.peeledOf)) he4) rfl rfl rfl
          exact .pushFaults (.setFibre (.of_fst he3 (hs1.addFibre hmade.peeledOf)) hu)
        · exact .of_fst he3 (hs1.addFibre hmade.peeledOf)

theorem Kept.peelPending {c e : Nat} {r : TrapRec} (h : Kept M F T s) : Kept M F T (s.peelPending c e r) := by
  unfold State.peelPending
  split
  next he _ =>
    split
    · exact h
    · extract_lets +onlyGivenNames whole
      split
      next he3 =>
        extract_lets +onlyGivenNames s2
        have hs2 : Kept M F T s2 := by
          unfold s2
          refine .foldl ?_ ?_
          · refine .of_fst he3 ?_
            split
            · exact h
            · split
              next he4 => exact .of_fst he4 h.intoBoxes
          · intro _ _ hs
            split
            next he4 =>
              extract_lets +onlyGivenNames p
              split
              · exact hs.setFibre (.restOf (hs.fibre? he4))
              · exact hs.peelOne
            · exact hs
        split
        · exact .rearmNew hs2.freeBook
        · exact h.dispWait (h.fibre? he)
  · exact h

theorem Kept.endTrapped {c e : Nat} {t : Thread} {r : TrapRec} (h : Kept M F T s) (ht : Cuts F t) :
    Kept M F T (s.endTrapped c e t r) := by
  unfold State.endTrapped
  split
  · exact h.killFibre
  · split
    · exact h.killFibre
    · exact h.endLanes
  · extract_lets +onlyGivenNames ps
    split
    · exact h.killFibre
    · split
      · exact h.endLanes
      · split
        · extract_lets +onlyGivenNames s1
          have hs1 : Kept M F T s1 := by
            unfold s1
            exact .intoBoxes h.endStores
          split
          · exact .rearmNew (hs1.foldl fun _ _ hs => hs.checkSet)
          · exact h.dispWait ht
        · exact h

theorem Kept.dispFibre {c e : Nat} {r : TrapRec} (h : Kept M F T s) : Kept M F T (s.dispFibre c e r) := by
  unfold State.dispFibre
  split
  next he =>
    split
    · exact h.peelPending
    · split
      · exact h
      · exact h.endTrapped (h.fibre? he)
  · exact h

theorem Kept.dispAt {c e : Nat} {r : TrapRec} (h : Kept M F T s) : Kept M F T (s.dispAt c e r) := by
  unfold State.dispAt
  split
  · exact h.dispFibre
  next he =>
    split
    next he2 => exact .dispFibre (.of_some he2 (h.swapIn (CoreOk.swap h.core he)))
    · exact .post (h.setSwapped (.of_same (CoreOk.swap h.core he) rfl rfl rfl))

theorem Kept.disp {r : TrapRec} (h : Kept M F T s) : Kept M F T (s.disp r) := by
  unfold State.disp
  split
  · exact h
  · split
    · extract_lets +onlyGivenNames s'
      have hs' : Kept M F T s' := by
        unfold s'
        split
        · exact h.endOuts
        · exact h
      split
      · exact hs'.dispAt
      · exact hs'
    · split
      · split
        · exact .streamEnd h.finishMma
        · exact h
      · exact h
    · split
      · exact h.copyFatal
      · exact h

theorem Kept.popTrap {k : Nat} (h : Kept M F T s) : Kept M F T (s.popTrap k) := by
  unfold State.popTrap
  extract_lets +onlyGivenNames c
  split
  · exact h
  · extract_lets +onlyGivenNames s1
    have hs1 : Kept M F T s1 := h.setCluster
    refine .disp ?_
    split
    · exact hs1
    · exact hs1.post

theorem Kept.execTrapCause {cluster : Nat} {value : Word} (h : Kept M F T s) : OutKept M F T (execTrapCause cluster value s) := by
  unfold Machine.execTrapCause
  refine .next ?_
  split
  · exact h.popTrap
  · exact h

theorem Kept.retryOne {c e : Nat} (h : Kept M F T s) : Kept M F T (s.retryOne c e) := by
  unfold State.retryOne
  split
  · exact h
  next he =>
    extract_lets +onlyGivenNames back
    have hback : ∀ s, Kept M F T s → Kept M F T (back s) := by
      intro _ hs
      unfold back
      split
      next he2 =>
        split
        · exact hs.rearm (hs.fibre? he2)
        · exact hs
      · exact hs
    split
    · exact hback _ h.pushFaults
    · split
      · exact hback _ (.dispFibre (h.setFibre (.of_same (.under (h.fibre? he)) rfl rfl rfl)))
      · exact hback _ (.fibreFaults (h.setFibre (.of_same (.under (h.fibre? he)) rfl rfl rfl)))
      · extract_lets +onlyGivenNames s1
        have hs1 : Kept M F T s1 := h.grow
        split
        · exact hs1.setCore (.of_same hs1.core rfl rfl)
        · exact h
      · extract_lets +onlyGivenNames why s1
        have hs1 : Kept M F T s1 := by
          unfold s1
          exact h.setFibre (.of_same (h.fibre? he) rfl rfl rfl)
        exact hs1.setCore (.of_same hs1.core rfl rfl)

theorem Kept.execResourceRetry {core : Nat} (h : Kept M F T s) : OutKept M F T (execResourceRetry core s) := by
  unfold Machine.execResourceRetry
  refine .next (.foldl_fst h fun _ _ hs => ?_)
  extract_lets +onlyGivenNames name
  split
  · exact hs.retryOne
  · split
    · exact hs
    · extract_lets +onlyGivenNames s1
      have hs1 : Kept M F T s1 := hs.retryOne
      exact hs1

theorem Kept.startReplay {c k : Nat} {hb : List Nat} (h : Kept M F T s) : Kept M F T (s.startReplay c k hb) := by
  unfold State.startReplay
  split
  · exact h
  · split
    · exact h
    · extract_lets +onlyGivenNames x
      have hx' : CoreOk F x := h.core
      exact .post (.modThread (h.setCore hx') fun _ hc => .ite hc.gain hc)

theorem Kept.reissue {c c' e' k : Nat} {b : FbRec} {i : Instr} {r : Req} (h : Kept M F (.fibre c' e') s) :
    Kept M F (.fibre c' e') (s.reissue c k b i r) := by
  unfold State.reissue
  extract_lets +onlyGivenNames e
  split
  · exact h
  next t ht =>
    have hc : Cuts F t := h.fibre? ht
    extract_lets +onlyGivenNames ps gs w n ops
    split
    next s0 t0 own ho =>
      have h0 : Kept M F (.fibre c' e') s0 ∧ Cuts F t0 := by
        split at ho
        · have hr := h.readOwners (r := r) (gs := gs) (ops := ops) hc
          rw [ho] at hr
          exact hr
        · cases ho
          exact ⟨h, hc⟩
      extract_lets +onlyGivenNames m uni lost late
      have hm : MemKept M F (.fibre c' e') m := .access h0.1 h0.2
      have hlate : ∀ t far, Cuts F t → Cuts F (late t far) := fun t far ht => by
        unfold late
        extract_lets vs
        split
        · exact ht
        · exact ht.lateResult
      clear_value m late
      split
      next s1 fs hl =>
        have hs1 : Kept M F (.fibre c' e') s1 :=
          .of_fst hl (.pushLost (hm.state.setFibre (hlate _ _ (hlate _ _ hm.thread))))
        split
        · exact hs1.bookDone
        · split
          · exact .fibreFaults hs1.freeBook
          · extract_lets +onlyGivenNames b1 _ s2
            have hs2 : Kept M F (.fibre c' e') s2 := by
              unfold s2
              split
              · exact hs1.freeBook
              · exact hs1.setCore hs1.core
            split
            · exact hs2.post
            · split
              · exact hs2.pushFaults
              · exact hs2

theorem Kept.execReplayComplete {core rec : Nat} (h : Kept M F T s) : OutKept M F T (execReplayComplete core rec s) := by
  unfold Machine.execReplayComplete
  refine .next ?_
  split
  · exact h
  next b _ =>
    extract_lets +onlyGivenNames e again s'
    have hs' : Kept M F T s' := by
      unfold s'
      split
      · exact h.endOuts
      · exact h
    clear_value s'
    split
    · exact hs'
    · split
      · exact hs'.post
      · refine hs'.asTurn fun s hs => ?_
        extract_lets +onlyGivenNames ks
        split
        · exact .post (hs.served fun _ hs => hs)
        · refine hs.served fun s hs => ?_
          extract_lets +onlyGivenNames base mask waits
          split
          · exact hs.bookDone
          · split
            · split
              · exact .waitcOn hs.freeBook
              · exact hs.freeBook
            · split
              · exact .launchOn hs.freeBook fun _ ht => ht
              · split
                · exact hs.reissue
                · exact hs.freeBook
              · exact hs.freeBook

theorem Kept.execPageWalkComplete {ctx va : Nat} (h : Kept M F T s) : OutKept M F T (execPageWalkComplete ctx va s) := by
  unfold Machine.execPageWalkComplete
  refine .next ?_
  split
  · exact h
  · split
    · exact h
    · refine h.reading fun _ hs => ?_
      split
      · exact .fillTlb hs.fillTlb
      · exact hs

theorem Kept.resumeStream {c : Nat} {hb : List Nat} (h : Kept M F T s) : Kept M F T (s.resumeStream c hb) := by
  unfold State.resumeStream
  split
  · exact h.setCore (.of_same h.core rfl rfl)
  · exact h

theorem Kept.endFaulted {p : IdxFault → Bool} (h : Kept M F T s) : Kept M F T (s.endFaulted p) := by
  unfold State.endFaulted
  exact h.foldl fun _ _ hs => hs.foldl fun _ _ hs2 => hs2.endOuts

theorem Kept.tlbiDo {x : TlbiSel} {hb : List Nat} (h : Kept M F T s) : Kept M F T (s.tlbiDo x hb) := by
  unfold State.tlbiDo
  extract_lets +onlyGivenNames drop dropPtr s0
  have hs0 : Kept M F T s0 := h.endFaulted
  extract_lets +onlyGivenNames s1
  have hs1 : Kept M F T s1 := hs0
  refine hs1.foldl fun _ _ hs => ?_
  extract_lets +onlyGivenNames s2'
  have hs2' : Kept M F T s2' := by
    unfold s2'
    refine hs.foldl fun _ _ hs2 => ?_
    split
    · split
      · exact hs2.startReplay
      · exact hs2
    · split
      · exact hs2.startReplay
      · exact hs2
  extract_lets +onlyGivenNames s3
  have hs3 : Kept M F T s3 := hs2'.resumeCopies
  split
  · split
    · split
      · exact hs3.resumeStream
      · exact hs3
    · exact hs3
  · exact hs3

end

/-! ### Tasks -/

section
variable {M F P : Prop} {T : Turn} {s : State}

theorem Kept.sent {ctx job src dst : Nat} (h : Kept M F T s) : Kept M F T (s.sent ctx job src dst) := by
  unfold State.sent
  exact h.modJob

theorem Kept.received {ctx job dst : Nat} (h : Kept M F T s) : Kept M F T (s.received ctx job dst) := by
  unfold State.received
  exact h.modJob

theorem Kept.hubStore {die a n v : Nat} {hb : List Nat} (h : Kept M F T s) : Kept M F T (s.hubStore die a n v hb) := by
  unfold State.hubStore
  exact h.storeAt

theorem Kept.countError {ctx : Nat} {k : Ctx} (h : Kept M F T s) : Kept M F T (s.countError ctx k) := by
  unfold State.countError
  exact h.hubStore

theorem Kept.writeEntry {ctx : Nat} {k : Ctx} {entry : Word} {hb : List Nat} (h : Kept M F T s) :
    Kept M F T (s.writeEntry ctx k entry hb) := by
  unfold State.writeEntry
  extract_lets +onlyGivenNames d n s1
  have hs1 : Kept M F T s1 := h.hubStore
  extract_lets +onlyGivenNames s2
  have hs2 : Kept M F T s2 := hs1.hubStore
  exact hs2

theorem Kept.complete {ctx job : Nat} {status : BitVec 8} {hb : List Nat} (h : Kept M F T s) :
    Kept M F T (s.complete ctx job status hb) := by
  unfold State.complete
  split
  · exact h
  next he =>
    extract_lets +onlyGivenNames w
    split
    · exact h.writeEntry
    · exact .post (h.setCtx (.of_same (h.ctx? he) rfl))

theorem Kept.execHeldCompletionEntry {ctx : Nat} (h : Kept M F T s) : OutKept M F T (execHeldCompletionEntry ctx s) := by
  unfold Machine.execHeldCompletionEntry
  refine .next ?_
  split
  · exact h
  next he =>
    split
    · exact h
    · refine h.reading fun _ hs => ?_
      split
      · extract_lets +onlyGivenNames s1
        have hs1 : Kept M F T s1 := by
          unfold s1
          exact .writeEntry (hs.setCtx (.of_same (h.ctx? he) rfl))
        split
        · exact hs1
        · exact hs1.post
      · exact hs.post

theorem Kept.execCtxDoorbell {ctx : Nat} {value : Word} (h : Kept M F T s) : OutKept M F T (execCtxDoorbell ctx value s) := by
  unfold Machine.execCtxDoorbell
  refine .next ?_
  split
  · exact h
  next he =>
    refine h.reading fun _ hs => ?_
    extract_lets +onlyGivenNames tail head dist
    split
    · exact hs.countError
    · extract_lets +onlyGivenNames named host
      exact .postAdmit (hs.setCtx (.of_same (h.ctx? he) rfl))

theorem Kept.makeVisible {launch : Nat} (h : Kept M F T s) : Kept M F T (s.makeVisible launch) := by
  unfold State.makeVisible
  exact h

theorem Kept.decrement {die ctx job : Nat} {counter : Word} {scope : Nat} {hb : List Nat} (h : Kept M F T s) :
    Kept M F T (s.decrement die ctx job counter scope hb) := by
  unfold State.decrement
  split
  · exact h
  · extract_lets +onlyGivenNames bad
    have hbad : Kept M F T bad := h.jobStatus
    split
    · exact hbad
    · split
      · exact hbad
      · extract_lets +onlyGivenNames s1
        have hs1 : Kept M F T s1 := by
          unfold s1
          exact .demand h.walkRange
        split
        · exact hs1.jobStatus
        · extract_lets +onlyGivenNames v'
          exact .markStore hs1.storeAt

theorem Kept.execLaunchFinish {launch : Nat} (h : Kept M F T s) : OutKept M F T (execLaunchFinish launch s) := by
  unfold Machine.execLaunchFinish
  refine .next ?_
  split
  · exact h
  · split
    · exact h
    · split
      · extract_lets +onlyGivenNames s1
        have hs1 : Kept M F T s1 := h.makeVisible
        exact hs1
      · extract_lets +onlyGivenNames job ks
        refine h.holding fun _ hs => ?_
        extract_lets +onlyGivenNames s1
        have hs1 : Kept M F T s1 := hs.makeVisible
        extract_lets +onlyGivenNames s2'
        have hs2' : Kept M F T s2' := hs1.decrement
        extract_lets +onlyGivenNames s3
        have hs3 : Kept M F T s3 := hs2'.modJob
        exact hs3

theorem Kept.postPlace {die : Nat} (h : Kept M F T s) : Kept M F T (s.postPlace die) := by
  unfold State.postPlace
  split
  · exact h
  · exact h.post

theorem Kept.addLaunch {l : Launch} (h : Kept M F T s) : Kept M F T (s.addLaunch l).1 := by
  unfold State.addLaunch
  exact h

theorem Kept.readBank {die ctx : Nat} {args : Word} {v : View} {s1 : State} {b : Bytes} {ps : List Nat} (h : Kept M F T s)
    (hb : s.readBank die ctx args v = some (s1, b, ps)) : Kept M F T s1 := by
  unfold State.readBank at hb
  split at hb
  · cases hb
    exact h
  · split at hb
    · cases hb
    · cases hb
      exact .demandPieces h.walkRange

theorem Kept.admit1 {die : Nat} {lr : LaunchRec} {ctx : Nat} {gen : BitVec 8} {host : Bool} {hb : List Nat} {pv : List (Nat × Path)}
    {cancelled : Bool} {err : State → State} (h : Kept M F T s) (herr : ∀ s, Kept M F T s → Kept M F T (err s)) :
    Kept M F T (s.admit1 die lr ctx gen host hb pv cancelled err) := by
  unfold State.admit1
  extract_lets +onlyGivenNames job s' base
  have hs' : Kept M F T s' := h.touchJob
  clear_value s'
  split
  · split
    next he => exact .checkLaunch (.of_fst he (.addLaunch hs'.jobStatus))
  · split
    · split
      next he => exact .checkLaunch (.of_fst he (.addLaunch (.jobStatus (herr _ hs'))))
    next s0 bank pois hb =>
      have hs0 : Kept M F T s0 := hs'.readBank hb
      extract_lets +onlyGivenNames n
      split
      next he =>
        extract_lets +onlyGivenNames own msg other s2 s3
        have h1 := Kept.of_fst he hs0.addLaunch
        exact .postPlace (.postPlace h1)

theorem Kept.admitRing {die ctx : Nat} {k : Ctx} (h : Kept M F T s) (hk : CtxOk F k) : Kept M F T (s.admitRing die ctx k) := by
  unfold State.admitRing
  extract_lets +onlyGivenNames n a _ v slot s0
  have hs0 : Kept M F T s0 := h.demandPieces
  extract_lets +onlyGivenNames g raw head s1
  have hs1 : Kept M F T s1 := by
    unfold s1
    exact .setCtx hs0.hubStore hk
  extract_lets +onlyGivenNames r job err
  have herr : ∀ s, Kept M F T s → Kept M F T (err s) := fun _ hs => .countError hs.hubStore
  split
  · extract_lets +onlyGivenNames s2
    have hs2 : Kept M F T s2 := by
      unfold s2
      exact .jobStatus (herr _ hs1)
    extract_lets +onlyGivenNames s3
    have hs3 : Kept M F T s3 := hs2.decrement
    exact hs3.complete
  · exact hs1.admit1 fun _ hs => herr _ hs

theorem Kept.execDispatchAdmit {die : Nat} (h : Kept M F T s) : OutKept M F T (execDispatchAdmit die s) := by
  unfold Machine.execDispatchAdmit
  refine .next (h.reading fun _ hs => ?_)
  split
  · exact hs
  · refine hs.holding fun _ hs2 => ?_
    extract_lets +onlyGivenNames s1
    have hs1 : Kept M F T s1 := by
      unfold s1
      split
      · split
        · extract_lets +onlyGivenNames _ s1'
          have hs1' : Kept M F T s1' := by
            unfold s1'
            exact .launchWaiter (hs2.setCore (.of_same hs2.core rfl rfl))
          extract_lets +onlyGivenNames key
          split
          · exact hs1'
          · exact hs1'.admit1 fun _ hs3 => hs3
        · exact hs2
      · split
        next he3 => exact hs2.admitRing (hs2.ctx? he3)
        · exact hs2
    split
    · exact hs1.postAdmit
    · exact hs1

theorem Kept.postStart {c : Nat} (h : Kept M F T s) : Kept M F T (s.postStart c) := by
  unfold State.postStart
  split
  · exact h
  · exact h.post

theorem Kept.discard {m : TaskMsg} (h : Kept M F T s) : Kept M F T (s.discard m) := by
  unfold State.discard
  split
  · exact .checkLaunch (.jobStatus h.setLaunch)
  · exact h

theorem Kept.postSteal {c : Nat} (h : Kept M F T s) : Kept M F T (s.postSteal c) := by
  unfold State.postSteal
  split
  · exact h.post
  · exact h

theorem Kept.execDispatchPlace {die : Nat} (h : Kept M F T s) : OutKept M F T (execDispatchPlace die s) := by
  unfold Machine.execDispatchPlace
  refine .next ?_
  extract_lets +onlyGivenNames d
  split
  · exact h
  · extract_lets +onlyGivenNames s0
    have hs0 : Kept M F T s0 := h.setDie
    split
    · exact hs0.postPlace
    · extract_lets +onlyGivenNames job
      split
      · exact .postPlace hs0.discard
      · split
        · exact h
        · extract_lets +onlyGivenNames s1
          have hs1 : Kept M F T s1 := hs0.setDie
          extract_lets +onlyGivenNames x
          have hx' : CoreOk F x := hs1.core
          extract_lets +onlyGivenNames s2
          have hs2 : Kept M F T s2 := hs1.setCore hx'
          exact .postPlace (.postStart (.received hs2.sent))

theorem Kept.startTile {c : Nat} {t : Task} {l : Launch} (h : Kept M F T s) : Kept M F T (s.startTile c t l) := by
  unfold State.startTile
  extract_lets +onlyGivenNames r
  split
  · extract_lets +onlyGivenNames bx base i set x
    have hx : CoreOk F x := h.core
    extract_lets +onlyGivenNames inst x1
    have hx1 : CoreOk F x1 := hx
    extract_lets +onlyGivenNames src s1
    have hsrc : Kept M F T src := h.setCore hx1
    have hs1 : Kept M F T s1 := by
      unfold s1
      exact .drawPool hsrc
    extract_lets +onlyGivenNames f
    have hf : Cuts F f := by
      unfold f
      exact .freshFibre
    exact hs1.addFibre hf

theorem Kept.execTileStart {core : Nat} (h : Kept M F T s) : OutKept M F T (execTileStart core s) := by
  unfold Machine.execTileStart
  refine .next ?_
  split
  · exact h
  · extract_lets +onlyGivenNames done
    have hdone : ∀ s, Kept M F T s → Kept M F T (done s) := by
      intro _ hs
      unfold done
      refine .postPlace ?_
      split
      · exact hs.postStart
      · exact hs.postSteal
    split
    · extract_lets +onlyGivenNames x
      have hx : CoreOk F x := h.core
      exact hdone _ (.discard (h.setCore hx))
    · split
      · exact hdone _ h.startTile
      · exact h

theorem Kept.modSteal {c : Nat} {f : StealSt → StealSt} (h : Kept M F T s) : Kept M F T (s.modSteal c f) := by
  unfold State.modSteal
  exact h.setCore (.of_same h.core rfl rfl)

theorem Kept.execStealRequest {core : Nat} (h : Kept M F T s) : OutKept M F T (execStealRequest core s) := by
  unfold Machine.execStealRequest
  refine .next ?_
  split
  · exact h
  · split
    · exact .post h.modSteal
    · exact h

theorem Kept.execStealVictim {victim thief : Nat} (h : Kept M F T s) : OutKept M F T (execStealVictim victim thief s) := by
  unfold Machine.execStealVictim
  refine .next ?_
  extract_lets +onlyGivenNames x
  have hx : CoreOk F x := h.core
  extract_lets +onlyGivenNames none_
  have hnone_ : Kept M F T none_ := h.post
  split
  · exact hnone_
  · split
    · exact hnone_
    · extract_lets +onlyGivenNames _ m t' s1
      have hs1 : Kept M F T s1 := h.setCore hx
      exact .post hs1.sent

theorem Kept.execStealNone {thief : Nat} (h : Kept M F T s) : OutKept M F T (execStealNone thief s) := by
  unfold Machine.execStealNone
  refine .next ?_
  extract_lets +onlyGivenNames x
  split
  · exact .postSteal h.modSteal
  · exact .post h.modSteal

theorem Kept.drainCore {c : Nat} (h : Kept M F T s) : Kept M F T (s.drainCore c) := by
  unfold State.drainCore
  extract_lets +onlyGivenNames x
  have hx : CoreOk F x := h.core
  extract_lets +onlyGivenNames d ts s1
  have hs1 : Kept M F T s1 := h.setCore hx
  extract_lets +onlyGivenNames s2
  have hs2 : Kept M F T s2 := by
    unfold s2
    exact hs1.foldl fun _ _ hs => hs.sent
  split
  · exact hs2
  · exact hs2.post

theorem Kept.execLentRecord {thief victim : Nat} {task : TaskMsg} (h : Kept M F T s) :
    OutKept M F T (execLentRecord thief victim task s) := by
  unfold Machine.execLentRecord
  refine .next ?_
  extract_lets +onlyGivenNames s0
  have hs0 : Kept M F T s0 := h.modSteal
  extract_lets +onlyGivenNames x
  have hx : CoreOk F x := hs0.core
  split
  · exact hs0
  · extract_lets +onlyGivenNames s1
    have hs1 : Kept M F T s1 := hs0.setCore hx
    extract_lets +onlyGivenNames s2
    have hs2 : Kept M F T s2 := by
      unfold s2
      exact .post hs1.received
    split
    · exact hs2.drainCore
    · exact hs2.postStart

theorem Kept.execStealAck {victim : Nat} {task : TaskMsg} (h : Kept M F T s) : OutKept M F T (execStealAck victim task s) := by
  unfold Machine.execStealAck
  refine .next ?_
  extract_lets +onlyGivenNames x
  have hx : CoreOk F x := h.core
  split
  · exact h
  · extract_lets +onlyGivenNames s1
    have hs1 : Kept M F T s1 := h.setCore hx
    exact .postPlace hs1.postSteal

theorem Kept.mapCores {f : Nat × Core → Core} (h : Kept M F T s) (hf : ∀ kv, CoreOk F kv.2 → CoreOk F (f kv)) :
    Kept M F T { s with cores := s.cores.map fun kv => (kv.1, f kv) } := ⟨h.1, h.2.1.map hf, h.2.2⟩

theorem Kept.completeJob {ctx job : Nat} {k : Ctx} {j : Job} (h : Kept M F T s) (hk : CtxOk F k) :
    Kept M F T (s.completeJob ctx job k j) := by
  unfold State.completeJob
  extract_lets +onlyGivenNames s1 s2
  have hs1 : Kept M F T s1 := h.setCtx hk
  have hs2 : Kept M F T s2 :=
    .of_same (hs1.mapCores (f := fun kv => { kv.2 with cancelled := kv.2.cancelled.filter (· ≠ (ctx, job)) }) fun _ hx =>
      hx.of_same rfl rfl) rfl rfl rfl rfl
  exact hs2.complete

theorem Kept.moveToken {ctx job : Nat} {k : Ctx} {j : Job} (h : Kept M F T s) (hk : CtxOk F k) :
    Kept M F T (s.moveToken ctx job k j) := by
  unfold State.moveToken
  extract_lets put start
  have hput : ∀ j, Kept M F T (put j) := fun _ => .post (h.setCtx hk)
  have hstart : ∀ n, Kept M F T (start n) := fun _ => hput _
  clear_value put start
  split
  · exact hstart _
  · split
    · split
      · split
        · exact h.completeJob hk
        · exact hstart _
      · exact hstart _
    · exact hput _

theorem Kept.execTraverseToken {ctx job : Nat} (h : Kept M F T s) : OutKept M F T (execTraverseToken ctx job s) := by
  unfold Machine.execTraverseToken
  refine .next ?_
  split
  · exact h
  next he =>
    split
    · exact h
    · extract_lets +onlyGivenNames pos
      refine h.reading fun _ hs => ?_
      split
      · exact hs.moveToken (h.ctx? he)
      · exact hs.post

theorem Kept.execDrainNotice {core : Nat} (h : Kept M F T s) : OutKept M F T (execDrainNotice core s) := by
  unfold Machine.execDrainNotice
  refine .next ?_
  split
  · exact h.drainCore
  · exact h

theorem Kept.execUnstartedRecordReturn {die from_ : Nat} {tasks : List TaskMsg} (h : Kept M F T s) :
    OutKept M F T (execUnstartedRecordReturn die from_ tasks s) := by
  unfold Machine.execUnstartedRecordReturn
  refine .next ?_
  split
  · exact h
  · extract_lets +onlyGivenNames live s1
    have hs1 : Kept M F T s1 := by
      unfold s1
      exact h.foldl fun _ _ hs => .received hs.setDie
    exact hs1.postPlace

theorem Kept.cancelCopies {c : Nat} {is : Nat → Bool} (h : Kept M F T s) : Kept M F T (s.cancelCopies c is) := by
  unfold State.cancelCopies
  exact h.foldl fun _ _ hs => hs.copyGone

theorem Kept.cancelStreams {c : Nat} {is : Nat → Bool} (h : Kept M F T s) : Kept M F T (s.cancelStreams c is) := by
  unfold State.cancelStreams
  extract_lets +onlyGivenNames fs _ s1
  have hs1 : Kept M F T s1 := by
    unfold s1
    exact h.setCore (.of_same h.core rfl rfl)
  extract_lets +onlyGivenNames s2
  have hs2 : Kept M F T s2 := by
    unfold s2
    exact hs1.foldl fun _ _ hs => .checkInst (.wakeFork hs.modInst)
  split
  · split
    · exact hs2.streamEnd
    · exact hs2
  · exact hs2

theorem Kept.cancelWork {c ctx job : Nat} (h : Kept M F T s) : Kept M F T (s.cancelWork c ctx job) := by
  unfold State.cancelWork
  extract_lets +onlyGivenNames is es
  exact .cancelStreams (.cancelCopies (h.foldl fun _ _ hs => hs.killFibre))

theorem Kept.cancelAt {c ctx job : Nat} (h : Kept M F T s) : Kept M F T (s.cancelAt c ctx job) := by
  unfold State.cancelAt
  exact .postStart h.cancelWork

theorem Kept.cancelSweep (h : Kept M F T s) : Kept M F T (s.cancelSweep) := by
  unfold State.cancelSweep
  exact h.foldl fun _ _ hs => hs.foldl fun _ _ hs2 => hs2.cancelWork

theorem Kept.cancelArrive {pos ctx job : Nat} {gen : Nat} (h : Kept M F T s) : Kept M F T (s.cancelArrive pos ctx job gen) := by
  unfold State.cancelArrive
  extract_lets +onlyGivenNames key s1
  have hs1 : Kept M F T s1 := by
    unfold s1
    split
    · exact h.setDie
    · exact h.setCore (.of_same h.core rfl rfl)
    · exact h
  extract_lets +onlyGivenNames live s2
  have hs2 : Kept M F T s2 := by
    unfold s2
    split
    · exact hs1.jobStatus
    · exact hs1
  extract_lets +onlyGivenNames s3
  have hs3 : Kept M F T s3 := by
    unfold s3
    split
    · exact hs2.cancelAt
    · exact hs2
  refine hs3.foldl fun _ _ hs => ?_
  split
  · exact hs.post
  · exact hs

theorem Kept.execCancelBroadcast {pos ctx job gen : Nat} (h : Kept M F T s) :
    OutKept M F T (execCancelBroadcast pos ctx job gen s) := by
  unfold Machine.execCancelBroadcast
  refine .next ?_
  split
  · exact h
  · exact h.cancelArrive

theorem Kept.execCancelAcknowledgement {core pos ctx job gen : Nat} (h : Kept M F T s) :
    OutKept M F T (execCancelAcknowledgement core pos ctx job gen s) := by
  unfold Machine.execCancelAcknowledgement
  refine .next ?_
  split
  · exact h
  · refine h.foldl_mem fun s' kv hkv hs => ?_
    have hc : Cuts F kv.2 := h.core.2.1 kv hkv
    split
    · split
      · exact hs
      · extract_lets left
        split
        · exact .resourcesFreed (hs.setFibre (.of_same hc rfl rfl rfl))
        · exact hs.setFibre (.of_same hc rfl rfl rfl)
    · exact hs

end

/-! ### Power -/

section
variable {M F P : Prop} {T : Turn} {s : State}

theorem Kept.setPm {k : Nat} {p : Clpm} (h : Kept M F T s) : Kept M F T (s.setPm k p) := by
  unfold State.setPm
  exact h.setCluster

theorem Kept.clpmStart {k : Nat} {tgt : BitVec 2} {fields : State → State} (h : Kept M F T s)
    (hfields : ∀ s, Kept M F T s → Kept M F T (fields s)) : Kept M F T (s.clpmStart k tgt fields) := by
  unfold State.clpmStart
  extract_lets +onlyGivenNames p
  split
  · exact h
  · split
    · exact h.setPm
    · extract_lets +onlyGivenNames s1
      have hs1 : Kept M F T s1 := hfields _ h
      exact .post hs1.setPm

theorem Kept.setEstop {k : Nat} {on : Bool} (h : Kept M F T s) : Kept M F T (s.setEstop k on) := by
  unfold State.setEstop
  extract_lets +onlyGivenNames _ s1
  have hs1 : Kept M F T s1 := h.setPm
  split
  · exact hs1
  · refine hs1.foldl fun _ _ hs => ?_
    extract_lets +onlyGivenNames s2'
    have hs2' : Kept M F T s2' := by
      unfold s2'
      exact .postStream hs.kickCopies
    split
    · split
      · exact hs2'.post
      · exact hs2'
    · exact hs2'

theorem Kept.setDstop {k : Nat} {on : Bool} (h : Kept M F T s) : Kept M F T (s.setDstop k on) := by
  unfold State.setDstop
  extract_lets +onlyGivenNames p s1
  have hs1 : Kept M F T s1 := h.setPm
  extract_lets +onlyGivenNames s2
  have hs2 : Kept M F T s2 := by
    unfold s2
    split
    · exact hs1
    · split
      · exact hs1.foldl fun _ _ hs => hs.post
      · exact hs1.foldl fun _ _ hs => .postSteal (hs.setCore (.of_same hs.core rfl rfl))
  split
  · exact hs2
  · exact hs2.postPlace

theorem Kept.startFlush {k : Nat} (h : Kept M F T s) : Kept M F T (s.startFlush k) := by
  unfold State.startFlush
  exact .post h.setPm

theorem Kept.writeCtlFields {k : Nat} {v : Word} (h : Kept M F T s) : Kept M F T (State.writeCtlFields k v s) := by
  unfold State.writeCtlFields
  extract_lets +onlyGivenNames _ s1
  have hs1 : Kept M F T s1 := h.setPm
  extract_lets +onlyGivenNames s2
  have hs2 : Kept M F T s2 := by
    unfold s2
    exact .setDstop hs1.setEstop
  split
  · exact hs2.startFlush
  · exact hs2

theorem Kept.writeCtl {k : Nat} {v : Word} (h : Kept M F T s) : Kept M F T (s.writeCtl k v) := by
  unfold State.writeCtl
  split
  · exact h.clpmStart fun _ hs => hs.writeCtlFields
  · exact h.writeCtlFields

theorem Kept.startSave {k : Nat} (h : Kept M F T s) : Kept M F T (s.startSave k) := by
  unfold State.startSave
  extract_lets +onlyGivenNames p
  split
  · exact h
  · exact .post h.setPm

theorem Kept.startRestore {k : Nat} (h : Kept M F T s) : Kept M F T (s.startRestore k) := by
  unfold State.startRestore
  extract_lets +onlyGivenNames p
  split
  · exact h
  · split
    · exact h.setPm
    · exact .post h.setPm

theorem Kept.writeRetn {k : Nat} {v : Word} (h : Kept M F T s) : Kept M F T (s.writeRetn k v) := by
  unfold State.writeRetn
  extract_lets +onlyGivenNames s1
  have hs1 : Kept M F T s1 := by
    unfold s1
    split
    · exact h.startSave
    · exact h
  split
  · exact hs1.startRestore
  · exact hs1

theorem Kept.clearWake {k : Nat} (h : Kept M F T s) : Kept M F T (s.clearWake k) := by
  unfold State.clearWake
  exact h.setPm

theorem Kept.setTgt {k : Nat} {tgt : BitVec 2} (h : Kept M F T s) : Kept M F T (State.setTgt k tgt s) := h.setPm

theorem Kept.areaStore {c a : Nat} {bs : List Byte} (h : Kept M F T s) : Kept M F T (s.areaStore c a bs) := by
  unfold State.areaStore
  exact h.storeAt

theorem Kept.demandTiles {a : Nat} (h : Kept M F T s) : Kept M F T (s.demandTiles a) := by
  unfold State.demandTiles
  exact .demand h.demand

theorem Kept.resetCore {c : Nat} (h : Kept M F T s) : Kept M F T (s.resetCore c) := by
  unfold State.resetCore
  extract_lets +onlyGivenNames x
  have hx : CoreOk F x := h.core
  extract_lets +onlyGivenNames s'
  have hs' : Kept M F T s' := by
    unfold s'
    refine h.foldl fun _ _ hs => ?_
    split
    · split
      · exact hs.demandTiles
      · exact hs
    · exact hs
  extract_lets +onlyGivenNames back
  exact hs'.setCore (.of_same .reset rfl rfl)

theorem Kept.execClpmStepDone {cluster : Nat} (h : Kept M F T s) : OutKept M F T (execClpmStepDone cluster s) := by
  unfold Machine.execClpmStepDone
  refine .next ?_
  extract_lets +onlyGivenNames p
  split
  · exact h
  · refine h.holding fun _ hs => ?_
    extract_lets +onlyGivenNames s1
    have hs1 : Kept M F T s1 := hs.setPm
    split
    · refine hs1.foldl fun _ _ hs2 => ?_
      extract_lets +onlyGivenNames x
      have hx' : CoreOk F x := hs2.core
      exact hs2.setCore hx'
    · split
      · exact hs1.foldl fun _ _ hs2 => hs2.resetCore
      · exact hs1

theorem Kept.flushTiles {c ctx : Nat} {k : CoreCtx} (h : Kept M F T s) : Kept M F T (s.flushTiles c ctx k) := by
  unfold State.flushTiles
  split
  · exact h
  next he =>
    extract_lets +onlyGivenNames a s1
    have hs1 : Kept M F T s1 := by
      unfold s1
      exact .areaStore h.areaStore
    exact hs1.setCtx (.of_same (h.ctx? he) rfl)

theorem Kept.execFlushDone {cluster : Nat} (h : Kept M F T s) : OutKept M F T (execFlushDone cluster s) := by
  unfold Machine.execFlushDone
  refine .next ?_
  extract_lets +onlyGivenNames p
  split
  · exact h
  · refine h.holding fun _ hs => ?_
    extract_lets +onlyGivenNames s1
    have hs1 : Kept M F T s1 := hs.setPm
    refine hs1.foldl fun _ _ hs2 => ?_
    extract_lets +onlyGivenNames s2'
    have hs2' : Kept M F T s2' := by
      unfold s2'
      exact hs2.foldl fun _ _ hs3 => hs3.flushTiles
    extract_lets +onlyGivenNames x
    have hx' : CoreOk F x := hs2'.core
    exact hs2'.setCore hx'

theorem Kept.execSaveDone {cluster : Nat} (h : Kept M F T s) : OutKept M F T (execSaveDone cluster s) := by
  unfold Machine.execSaveDone
  refine .next ?_
  extract_lets +onlyGivenNames c
  split
  · exact h
  · exact h.setPm

theorem Kept.execRestoreDone {cluster : Nat} (h : Kept M F T s) : OutKept M F T (execRestoreDone cluster s) := by
  unfold Machine.execRestoreDone
  refine .next ?_
  extract_lets +onlyGivenNames c
  split
  · exact h
  · split
    · refine ⟨h.1, h.2.1, h.2.2.1.map fun kv hk => ?_, h.turn⟩
      split
      · exact hk.of_same rfl
      · exact hk
    · exact h.setPm

theorem Kept.execAlwaysOnAnswer {cluster : Nat} {msg : AlwaysOnMsg} (h : Kept M F T s) :
    OutKept M F T (execAlwaysOnAnswer cluster msg s) := by
  unfold Machine.execAlwaysOnAnswer
  refine .next ?_
  split
  · exact h
  · split
    · split
      · exact h.post
      · exact h
    · exact h.post
    · split
      · exact h.cancelArrive
      · exact h
    · split
      next k j he =>
        have hk : CtxOk F k := by
          obtain ⟨k', hk', he⟩ := Option.bind_eq_some_iff.1 he
          obtain ⟨j', -, hj⟩ := Option.map_eq_some_iff.1 he
          cases hj
          exact h.ctx? hk'
        split
        · split
          · extract_lets s1
            have hs1 : Kept M F T s1 := h.moveToken hk
            split
            · exact hs1
            · exact hs1
          · exact h
        · exact h
      · exact h

end

/-! ### The system interface -/

section
variable {M F P : Prop} {T : Turn} {s : State}

theorem Kept.writeEpc {k : Nat} {v : Word} (h : Kept M F T s) : Kept M F T (s.writeEpc k v) := by
  unfold State.writeEpc
  exact h.setMc

theorem Kept.writePtroot {k : Nat} {v : Word} (h : Kept M F T s) : Kept M F T (s.writePtroot k v) := by
  unfold State.writePtroot
  exact h.setMc

theorem Kept.putCtxCsr {core ctx : Nat} {x : Ctx} {csr : Nat} {v : Word} (h : Kept M F T s) (hx : CtxOk F x) :
    Kept M F T (s.putCtxCsr core ctx x csr v) := by
  unfold State.putCtxCsr
  split
  · exact h.setCtx hx
  · exact h.setCtx hx
  · exact h.setCtx hx
  · exact h.setCtx hx
  · exact h.setCore (.setCtx h.core)
  · exact h

theorem Kept.putMcCsr {k csr : Nat} {v : Word} (h : Kept M F T s) : Kept M F T (s.putMcCsr k csr v) := by
  unfold State.putMcCsr
  split
  · split
    · exact h.popTrap
    · exact h
  · exact h.setMc
  · exact h.writeEpc
  · exact h.setMc
  · exact h.setMc
  · exact h.writePtroot
  · exact h.writeCtl
  · exact h.writeRetn
  · split
    · exact h.clearWake
    · exact h
  · exact h

theorem Kept.csrPut {b : CsrBy} {csr : Nat} {v : Word} (h : Kept M F T s) : Kept M F T (s.csrPut b csr v) := by
  unfold State.csrPut
  split
  · split
    next he => exact h.putCtxCsr (h.ctx? he)
    · exact h
  · split
    · exact h.putMcCsr
    · exact h

theorem Kept.csrOp {o : CsrO} {reads : Bool} {f : Word → Word → Word} (h : Kept M F T s) : Kept M F T (s.csrOp o reads f) := by
  unfold State.csrOp
  extract_lets +onlyGivenNames b
  split
  · exact h.trapAll
  · refine h.guardedDst fun _ _ hs => ?_
    split
    · exact hs.trapAll
    · split
      · exact hs.orWait hs.deliver
      · extract_lets +onlyGivenNames x
        split
        · exact hs.trapAll
        · split
          · exact hs.poisonTrap
          · extract_lets +onlyGivenNames w act
            have hact : ∀ s, Kept M F T s → Kept M F T (act s) := by
              intro _ hs2
              unfold act
              extract_lets +onlyGivenNames s1
              have hs1 : Kept M F T s1 := by
                unfold s1
                split
                · exact hs2.csrPut
                · exact hs2
              exact hs1.deliver
            split
            · exact hs.orWait (hact _ hs)
            · exact hs.forU fun _ hs2 => hact _ hs2
    · exact hs

theorem Kept.execMcHandlerEntry {cluster : Nat} (h : Kept M F T s) : OutKept M F T (execMcHandlerEntry cluster s) := by
  unfold Machine.execMcHandlerEntry
  refine .next ?_
  split
  · exact h
  · extract_lets +onlyGivenNames m
    exact h.setMc

theorem Kept.mcOnly {g : Guard} {f : Nat → State → State} (h : Kept M F T s) (hf : ∀ a s, Kept M F T s → Kept M F T (f a s)) :
    Kept M F T (s.mcOnly g f) := by
  unfold State.mcOnly
  split
  · exact h.guarded fun _ _ hs => hf _ _ hs
  · exact h.trapAll

theorem Kept.sleepOn {k : Nat} {mask : BitVec 3} {d : Dst} (h : Kept M F T s) : Kept M F T (s.sleepOn k mask d) := by
  unfold State.sleepOn
  split
  · exact h.setMc
  · exact .asTurn h.setMc fun _ hs => hs.deliver

theorem Kept.execSleep {o : FgetO} (h : Kept M F T s) : OutKept M F T (execSleep o s) := by
  unfold Machine.execSleep
  refine .next (h.mcOnly fun _ _ hs => ?_)
  split
  · exact hs
  · extract_lets +onlyGivenNames x
    split
    · exact hs.poisonTrap
    · exact hs.sleepOn

theorem Kept.execSleepWake {cluster : Nat} (h : Kept M F T s) : OutKept M F T (execSleepWake cluster s) := by
  unfold Machine.execSleepWake
  refine .next ?_
  split
  · exact h.sleepOn
  · exact h

theorem Kept.mcPred {g : Guard} {p : BitVec 6} {xs : Thread → Nat → List Opd} {f : Nat → State → Thread → State × Bool}
    (h : Kept M F T s) (hf : ∀ k s t, Kept M F T s → Kept M F T (f k s t).1) : Kept M F T (s.mcPred g p xs f) := by
  unfold State.mcPred
  refine h.mcOnly fun k s hs => ?_
  split
  · exact hs
  · split
    · exact hs.poisonTrap
    · split
      next s1 b he =>
        have hs1 : Kept M F T s1 := .of_fst he (hf _ _ _ hs)
        split
        next ht => exact hs1.setCur (.advance ((hs1.cur ht).setPred .boolPred))
        · exact hs1

theorem Kept.execFsel {o : FselO} (h : Kept M F T s) : OutKept M F T (execFsel o s) := by
  unfold Machine.execFsel
  refine .next (h.mcPred fun _ _ _ hs => ?_)
  split
  · exact hs.setMc
  · exact hs.setMc

theorem Kept.execFget {o : FgetO} (h : Kept M F T s) : OutKept M F T (execFget o s) := by
  unfold Machine.execFget
  refine .next (h.mcOnly fun _ _ hs => ?_)
  split
  · exact hs
  · extract_lets +onlyGivenNames x running
    split
    · exact hs.poisonTrap
    · split
      · exact hs
      · extract_lets +onlyGivenNames off v'
        exact hs.deliver

theorem Kept.shrinkBox {c e : Nat} {t : Thread} {b : Box} (h : Kept M F T s) : Kept M F T (s.shrinkBox c e t b) := by
  unfold State.shrinkBox
  extract_lets +onlyGivenNames _ s1
  have hs1 : Kept M F T s1 := .setFibre h.addStores (.of_same (t := t.setBox b) .setBox rfl rfl rfl)
  exact hs1.foldl fun _ _ hs => hs.checkSet

theorem OptKept.ite {c : Prop} [Decidable c] {o o' : Option State} (h : OptKept M F T o) (h' : OptKept M F T o') :
    OptKept M F T (if c then o else o') := by
  split
  · exact h
  · exact h'

theorem OptKept.bind {α : Type} {o : Option α} {f : α → Option State} (hf : ∀ a, o = Option.some a → OptKept M F T (f a)) :
    OptKept M F T (o.bind f) := by
  cases o with
  | none => exact .none
  | some a => exact hf a rfl

theorem OptKept.map {o : Option State} {f : State → State} (h : OptKept M F T o) (hf : ∀ s, Kept M F T s → Kept M F T (f s)) :
    OptKept M F T (o.map f) := by
  cases o with
  | none => exact .none
  | some s => exact .some (hf s (h s rfl))

theorem InForm.predOfWord {t : Thread} {n : Nat} {v : Word} {q : Pred} (hq : t.predOfWord n v = some q) : InForm P t q := by
  unfold Thread.predOfWord at hq
  split at hq
  · cases hq
    exact .true_
  · cases hq
    exact .false_
  · obtain ⟨a, -, rfl⟩ := Option.map_eq_some_iff.1 hq
    exact .simplify
  · split at hq
    · cases hq
      exact .mask
    · cases hq

theorem Cuts.putLanes {t u : Thread} {n p : Nat} {v : Word} (ht : Cuts P t) (hu : t.putLanes n p v = some u) : Cuts P u := by
  unfold Thread.putLanes at hu
  split at hu
  · cases hu
  · split at hu
    · cases hu
      exact ht
    · cases hu

theorem Cuts.putMbits {t u : Thread} {k j : Nat} {b : BitVec 32} (ht : Cuts P t) (hu : t.putMbits k j b = some u) : Cuts P u := by
  unfold Thread.putMbits at hu
  split at hu
  · split at hu
    · cases hu
    · cases hu
      exact ht.setPred .mask
  · cases hu

theorem Kept.fibrePut {c e : Nat} {t : Thread} {off : Nat} {v : Word} (h : Kept M F T s) (ht : Cuts F t) :
    OptKept M F T (s.fibrePut c e t off v) := by
  unfold State.fibrePut
  extract_lets +onlyGivenNames put lo hi axis
  have hput : ∀ u, Cuts F u → OptKept M F T (put u) := fun _ hu => .some (h.setFibre hu)
  have haxis : ∀ a, OptKept M F T (axis a) := fun a => .ite .none (.some h.shrinkBox)
  clear_value put axis
  refine .ite (hput _ ht) (.ite (haxis _) (.ite (haxis _) (.ite (haxis _) (.ite (hput _ ht)
    (.ite ?preds (.ite ?regs (.ite ?stack (.ite ?lanes .none))))))))
  case preds => exact .bind fun p hp => hput _ (ht.setPred (.predOfWord hp))
  case regs => exact .bind fun r _ => .map (hput _ ht) fun _ hs => hs.resourcesFreed
  case stack =>
    split
    · exact hput _ ht
    · exact .none
  case lanes =>
    refine .ite .none (.ite (.bind fun u hu => hput _ (ht.putLanes hu)) (.ite ?mbits (.ite (.ite (.some ?amask) .none) .none)))
    case mbits =>
      extract_lets k a
      have ha : ∀ u, a = some u → Cuts F u := fun u hu => ht.putMbits hu
      have hget : Cuts F (a.getD t) := by
        cases ha' : a with
        | none => exact ht
        | some u => exact ha u ha'
      split
      next hu => exact hput _ (hget.putMbits hu)
      · exact .bind fun u hu => hput _ (ha u hu)
    case amask =>
      split
      · exact h
      · exact h.endLanes

theorem Cuts.reach {k c e : Nat} {t : Thread} (h : Kept M F T s) (hr : s.reach k = .fibre c e t) : Cuts F t := by
  unfold State.reach at hr
  split at hr
  · cases hr
  · split at hr
    next ht =>
      split at hr
      · cases hr
        exact h.fibre? ht
      · cases hr
    · cases hr
  · split at hr
    · split at hr
      · cases hr
      · cases hr
    · cases hr

theorem Kept.execFset {o : FsetO} (h : Kept M F T s) : OutKept M F T (execFset o s) := by
  unfold Machine.execFset
  refine .next (h.mcPred fun k s t hs => ?_)
  extract_lets off v
  split
  · exact hs
  · split
    · exact hs
    next c e u hr =>
      have hput : OptKept M F T (if u.st = .parked then s.fibrePut c e u off v else none) := .ite (hs.fibrePut (.reach hs hr)) .none
      split
      next he => exact .of_some he hput
      · exact hs
    · split
      · exact hs.setCore hs.core
      · exact hs

theorem Kept.resumeFibre {c e : Nat} {t : Thread} {hb : List Nat} (h : Kept M F T s) (ht : Cuts F t) :
    Kept M F T (s.resumeFibre c e t hb) := by
  unfold State.resumeFibre
  extract_lets +onlyGivenNames out
  exact .resourcesFreed (h.setFibre ht)

theorem Kept.resumePart {c e : Nat} {t : Thread} {b : Box} {hb : List Nat} {s1 : State} {x : Bool} (h : Kept M F T s)
    (ht : Cuts F t) (hr : s.resumePart c e t b hb = some (s1, x)) : Kept M F T s1 := by
  unfold State.resumePart at hr
  extract_lets +onlyGivenNames ps go left done at hr
  have hgo : ∀ u, Cuts F u → Cuts F (go u) := fun _ hu => hu
  have hdone : ∀ s', Kept M F T s' → done s' = some (s1, x) → Kept M F T s1 := fun s' hs hd => by
    unfold done at hd
    split at hd
    · cases hd
      exact hs
    · cases hd
  clear_value go done
  split at hr
  · cases hr
    exact h
  · split at hr
    · cases hr
      exact h.resumeFibre ht
    · split at hr
      · exact hdone _ (.addFibre (h.setFibre ht.onLanes) (hgo _ ht.onLanes)) hr
      · extract_lets made at hr
        have hmade : Cuts F made := hgo _ .setBox
        split at hr
        next r _ =>
          refine hdone _ (.addFibre (h.setFibre ?_) hmade) hr
          exact .of_same (t := t.setBox r) .setBox rfl rfl rfl
        · split at hr
          · exact hdone _ (.addFibre (h.intoBoxes) hmade) hr
          · obtain ⟨s2, he, hr⟩ := Option.bind_eq_some_iff.1 hr
            have hs2 : Kept M F T s2 := .of_some he h.expandFor
            split at hr
            next hu => exact hdone _ (.addFibre (hs2.setFibre (.onLanes (hs2.fibre? hu))) hmade) hr
            · cases hr

theorem Kept.execFresume {o : FresumeO} (h : Kept M F T s) : OutKept M F T (execFresume o s) := by
  unfold Machine.execFresume
  refine .next (h.mcOnly fun k s hs => ?_)
  split
  · exact hs
  · extract_lets +onlyGivenNames hb grp
    split
    · exact hs.poisonTrap
    · extract_lets +onlyGivenNames rd r
      have hr : ∀ p, r = some p → Kept M F T p.1 := fun p hp => by
        unfold r at hp
        split at hp
        · cases hp
          exact hs
        next he _ =>
          split at hp
          · cases hp
            exact hs.resumeFibre (.reach hs he)
          · cases hp
            exact hs
        · split at hp
          · cases hp
            exact hs
          · extract_lets s1 at hp
            have hs1 : Kept M F T s1 := hs.endOuts
            split at hp
            next hu => exact hs1.resumePart (hs1.fibre? hu) hp
            · cases hp
              exact hs1
        · split at hp
          · cases hp
            exact hs.resumeStream
          · cases hp
            exact hs
        · cases hp
          exact hs
      clear_value r
      split
      · exact hs
      next s1 b =>
        have hs1 : Kept M F T s1 := hr _ rfl
        split
        next ht => exact hs1.setCur (.advance ((hs1.cur ht).setPred .boolPred))
        · exact hs1

theorem Kept.replayBooks {c : Nat} {uid : Option Nat} {hb : List Nat} (h : Kept M F T s) :
    Kept M F T (s.replayBooks c uid hb).1 := by
  unfold State.replayBooks
  extract_lets +onlyGivenNames ks
  exact h.foldl fun _ _ hs => hs.startReplay

theorem Kept.execReplay {o : ReplayO} (h : Kept M F T s) : OutKept M F T (execReplay o s) := by
  unfold Machine.execReplay
  refine .next (h.mcPred fun k s t hs => ?_)
  extract_lets hb all
  have hall : ∀ c, Kept M F T (all c).1 := fun c => by
    unfold all
    split
    next he =>
      extract_lets s2
      have hs2 : Kept M F T s2 := .resumeCopies (.of_fst he hs.replayBooks)
      split
      · exact hs2.resumeStream
      · exact hs2
  clear_value all
  split
  · exact hs
  · split
    · exact hall _
    · exact hs.replayBooks
  · split
    · exact hall _
    · split
      · exact hs.resumeStream
      · exact hs

theorem Kept.execTlbi {o : TlbiO} (h : Kept M F T s) : OutKept M F T (execTlbi o s) := by
  unfold Machine.execTlbi
  refine .next (h.mcOnly fun k s hs => ?_)
  split
  · exact hs
  · extract_lets +onlyGivenNames va cx n sel
    clear_value sel
    split
    · exact hs.poisonTrap
    · split
      · exact hs.trapAll
      · exact .advance hs.tlbiDo

end

/-! ### The rewriter -/

section
variable {M F P : Prop} {T : Turn} {s : State}

theorem Kept.readImage {t : Thread} {a n : Nat} {s1 : State} {bs : List Byte} (h : Kept M F T s) (ht : Cuts (Ranged F T) t)
    (hr : s.readImage t a n = some (s1, bs)) : Kept M F T s1 := by
  unfold State.readImage at hr
  extract_lets +onlyGivenNames path sp s0 at hr
  have hs0 : Kept M F T s0 := h.walkRange
  clear_value s0
  split at hr
  · cases hr
  · extract_lets s2 at hr
    have hs2 : Kept M F T s2 := hs0.demandPieces
    clear_value s2
    split at hr
    · cases hr
    · split at hr
      · cases hr
      · split at hr
        · cases hr
        · cases hr
          exact hs2.setCur ht.modViewAt

theorem Kept.ruleImage {t : Thread} {a : Nat} (h : Kept M F T s) (ht : Cuts (Ranged F T) t) : Kept M F T (s.ruleImage t a).1 := by
  unfold State.ruleImage
  split
  · exact h
  · split
    · exact h
    next s1 hdr he =>
      have hs1 : Kept M F T s1 := h.readImage ht he
      split
      · exact hs1
      · split
        · exact hs1
        · split
          · exact hs1
          next s2 bs he =>
            have hs2 : Kept M F T s2 := by
              refine hs1.readImage ?_ he
              cases hc : s1.cur? with
              | none => exact ht
              | some u => exact hs1.cur hc
            split
            · exact hs2
            · extract_lets es
              split
              · exact hs2
              · exact hs2

theorem Kept.rwloadAt {d : Dst} {mask : Option (List Nat)} {a : Option Word} (h : Kept M F T s) :
    Kept M F T (s.rwloadAt d mask a) := by
  unfold State.rwloadAt
  split
  · exact h
  next t ht =>
    refine h.curServed fun s' hs => ?_
    split
    next s1 st es he =>
      have hs1 : Kept M F T s1 := by
        refine .of_fst he ?_
        split
        · exact hs
        · exact hs.ruleImage (h.cur ht)
      extract_lets +onlyGivenNames n s2
      have hs2 : Kept M F T s2 := by
        unfold s2
        split
        next hk =>
          split
          · exact hs1.setCtx ((hs1.ctx? hk).of_same rfl)
          · exact hs1
        · exact hs1
      exact hs.orWait hs2.deliver

theorem Kept.execRwload {o : RwloadO} (h : Kept M F T s) : OutKept M F T (execRwload o s) := by
  unfold Machine.execRwload
  refine .next (h.guardedDst fun _ _ hs => ?_)
  split
  · exact hs
  · split
    · exact hs.orWait hs.deliver
    · split
      · exact hs.forU fun _ hs2 => hs2.rwloadAt
      · exact hs.agreeing fun _ _ _ hs2 => hs2.forU fun _ hs3 => hs3.rwloadAt

theorem Kept.openWindow {c : Nat} {x : Stream} (h : Kept M F T s) : Kept M F T (s.openWindow c x) := by
  unfold State.openWindow
  split
  · exact h.setCore (.of_same h.core rfl rfl)
  · extract_lets +onlyGivenNames cfg win plan
    exact h.setCore (.of_same h.core rfl rfl)

theorem Kept.unitExec {i : Instr} (h : Kept M F T s) : Kept M F T (unitExec i s) := by
  unfold Machine.unitExec
  split
  next he =>
    split at he
    · exact h.execTzero _ he
    · exact h.execTtrn _ he
    · exact h.execTscale _ he
    · exact h.execTadd _ he
    · exact h.execMma _ he
    · exact OutKept.next h.trapAll _ he
    · exact OutKept.next h _ he
  · exact h

theorem Kept.pinTo {c : Nat} {t : Thread} (h : Kept M F T s) : Kept M F T (s.pinTo c t) := by
  unfold State.pinTo
  split
  · exact h.setCore (.of_same h.core rfl rfl)
  · exact h

theorem Kept.unitRun {c : Nat} {t : Thread} {is : List Instr} {s1 : State} (h : Kept M F T s) (hr : s.unitRun c t is = .ok s1) :
    Kept M F T s1 := by
  induction is generalizing s with
  | nil =>
    cases hr
    exact h
  | cons i is ih =>
    unfold State.unitRun at hr
    extract_lets s2 at hr
    have hs2 : Kept M F T s2 := .unitExec h.pinTo
    clear_value s2
    split at hr
    · split at hr
      · exact ih hs2 hr
      · cases hr
    · cases hr
      exact hs2

theorem Kept.unitTrap {c : Nat} {x : Stream} {rule : Nat} {before : Thread} {lastPc : Word} {cause : BitVec 8} (h : Kept M F T s) :
    Kept M F T (s.unitTrap c x rule before lastPc cause) := by
  unfold State.unitTrap
  extract_lets +onlyGivenNames code t
  exact .pushTrap (h.setCore (.of_same h.core rfl rfl))

theorem Kept.emitUnit {c : Nat} {x : Stream} {rule : Nat} {firstPc : Word} {out : List Instr} {reads : List Nat} (h : Kept M F T s)
    : Kept M F T (s.emitUnit c x rule firstPc out reads) := by
  unfold State.emitUnit
  have h0 : Kept M F T { s with slow := false } := h
  extract_lets +onlyGivenNames t before k
  split
  · exact h.unitTrap
  · split
    · exact h.unitTrap
    next s0 he =>
      have hs0 : Kept M F T s0 := h0.unitRun he
      extract_lets +onlyGivenNames s1 k1 s2
      have hs1 : Kept M F T s1 := hs0
      have hs2 : Kept M F T s2 := hs1.setCore (.setCtx hs1.core)
      clear_value s2
      split
      · exact hs2.setCore hs2.core
      · exact hs2

theorem Kept.execRewriteWindow {core : Nat} (h : Kept M F T s) : OutKept M F T (execRewriteWindow core s) := by
  unfold Machine.execRewriteWindow
  refine .next ?_
  split
  · exact h
  · split
    · exact h
    · refine h.asTurn fun _ hs => ?_
      split
      · exact hs.openWindow
      · exact hs
      · extract_lets +onlyGivenNames snap
        exact hs.setCore (.of_same hs.core rfl rfl)
      · exact hs.emitUnit

end

/-! ### Contexts -/

section
variable {M F P : Prop} {T : Turn} {s : State}

theorem Kept.copyTiles {c ctx : Nat} (h : Kept M F T s) : Kept M F T (s.copyTiles c ctx) := by
  unfold State.copyTiles
  exact h.foldl fun _ _ hs => hs.copyTile

theorem CoreOk.without {x : Core} {ctx : Nat} (hx : CoreOk F x) : CoreOk F (x.without ctx) := by
  obtain ⟨hr, hf, hs⟩ := hx
  exact ⟨fun hF => rising_filter (hr hF), hf.filter, hs.filter⟩

theorem SavedOk.save {x : Core} {ctx : Nat} {gen : BitVec 8} (hx : CoreOk F x) : SavedOk F (x.save ctx gen) :=
  ⟨hx.2.1.filter, hx.2.2.filter⟩

theorem SavedOk.savedBack {a : Nat} {v : Saved} (hv : SavedOk F v) : SavedOk F (s.savedBack a v) :=
  ⟨hv.1.map fun _ ht => ht, hv.2⟩

theorem CtxOk.saved {k : Ctx} {c : Nat} {v : Saved} (hk : CtxOk F k) (hv : Tab.find? k.saved c = some v) : SavedOk F v := hk.find? hv

theorem CtxOk.setSaved {k : Ctx} {c : Nat} {v : Saved} (hk : CtxOk F k) (hv : SavedOk F v) :
    CtxOk F { k with saved := Tab.set k.saved c v } := hk.set hv

theorem CtxOk.delSaved {k : Ctx} {c : Nat} (hk : CtxOk F k) : CtxOk F { k with saved := Tab.del k.saved c } := hk.del

theorem Kept.leaveX {c ctx : Nat} (h : Kept M F T s) : Kept M F T (s.leaveX c ctx) := by
  unfold State.leaveX
  split
  · split
    · exact h.setCore (.of_same h.core rfl rfl)
    · exact h
  · exact h

theorem Kept.switchOut {c ctx : Nat} {k : Ctx} (h : Kept M F T s) (hk : CtxOk F k) : Kept M F T (s.switchOut c ctx k) := by
  unfold State.switchOut
  extract_lets +onlyGivenNames s0 x s1 s2
  have hs0 : Kept M F T s0 := h.leaveX
  have hx : CoreOk F x := hs0.core
  have hs1 : Kept M F T s1 := hs0.foldl fun _ _ hs => hs.areaStore
  have hs2 : Kept M F T s2 := hs1.foldl fun _ _ hs => hs.areaStore
  clear_value s2
  extract_lets +onlyGivenNames s3
  have hs3 : Kept M F T s3 := hs2.setCtx (hk.setSaved (.save hx))
  exact .resourcesFreed (.postStream (hs3.setCore hx.without))

theorem Kept.execContextSwitch {core ctx : Nat} (h : Kept M F T s) : OutKept M F T (execContextSwitch core ctx s) := by
  unfold Machine.execContextSwitch
  refine .next ?_
  split
  · exact h
  · split
    · exact h
    · extract_lets +onlyGivenNames x
      have hx' : CoreOk F x := h.core
      extract_lets +onlyGivenNames s1
      have hs1 : Kept M F T s1 := h.setCore hx'
      extract_lets +onlyGivenNames s2
      have hs2 : Kept M F T s2 := by
        unfold s2
        split
        · exact hs1
        · exact .copyTiles hs1.completeOps
      split
      · refine hs2.holding fun _ hs => ?_
        split
        next he3 => exact hs.switchOut (hs.ctx? he3)
        · exact hs
      · exact hs2.post

theorem CoreOk.restored {x : Core} {ctx : Nat} {v : Saved} (hx : CoreOk F x) (hv : SavedOk F v) : CoreOk F (x.restored ctx v) := by
  obtain ⟨hr, hf, hs⟩ := hx
  exact ⟨fun hF => rising_setAll (hr hF), hf.setAll (hv.1.map fun _ ht => ht), hs.setAll hv.2⟩

theorem Kept.rearmAll {c ctx : Nat} {v : Saved} (h : Kept M F T s) : Kept M F T (s.rearmAll c ctx v) := by
  unfold State.rearmAll
  extract_lets +onlyGivenNames s1
  have hs1 : Kept M F T s1 := by
    unfold s1
    refine h.foldl fun _ _ hs => ?_
    split
    next he => exact hs.rearm (hs.fibre? he)
    · exact hs
  extract_lets +onlyGivenNames s2
  have hs2 : Kept M F T s2 := by
    unfold s2
    refine hs1.foldl fun _ _ hs => ?_
    split
    · exact hs.post
    · exact hs
  extract_lets +onlyGivenNames s2'
  have hs2' : Kept M F T s2' := by
    unfold s2'
    split
    · split
      · exact hs2.post
      · exact hs2.post
      · exact hs2.post
      · exact hs2
    · exact hs2
  extract_lets +onlyGivenNames s3
  have hs3 : Kept M F T s3 := by
    unfold s3
    exact hs2'.foldl fun _ _ hs => hs.cancelAt
  exact .postStart (.postStream hs3.kickCopies)

theorem Kept.execContextRestore {core ctx : Nat} (h : Kept M F T s) : OutKept M F T (execContextRestore core ctx s) := by
  unfold Machine.execContextRestore
  refine .next ?_
  split
  · exact h
  next k hk =>
    split
    · exact h
    next v hv =>
      have hck : CtxOk F k := h.ctx? hk
      refine h.holding fun s hs => ?_
      extract_lets +onlyGivenNames s0
      have hs0 : Kept M F T s0 := hs.demand
      clear_value s0
      split
      · exact hs0
      · split
        · exact hs0.post
        · extract_lets +onlyGivenNames s1 s2
          have hs1 : Kept M F T s1 := hs0.demands
          have hs2 : Kept M F T s2 := .setCore (hs1.setCtx hck.delSaved) (hs1.core.restored (hck.saved hv).savedBack)
          exact hs2.rearmAll

theorem Kept.mbDone {status : BitVec 8} (h : Kept M F T s) : Kept M F T (s.mbDone status) := by
  unfold State.mbDone
  extract_lets +onlyGivenNames ids
  exact h

theorem Kept.mbStore {a : Nat} {bs : List Byte} (h : Kept M F T s) : Kept M F T (s.mbStore a bs) := by
  unfold State.mbStore
  exact h.storeAt

theorem CtxOk.createCtx {bs : List Byte} {majors : List (BitVec 16)} {gen : BitVec 8} {head : Nat} {rules : List (List Word)} :
    CtxOk F (createCtx bs majors gen head rules) := AllVals.nil

theorem Kept.peerSizes {n : Nat} (h : Kept M F T s) : Kept M F T (s.peerSizes n) := by
  unfold State.peerSizes
  extract_lets +onlyGivenNames new
  exact h

theorem Kept.execCtxCreate {req : Nat} (h : Kept M F T s) : OutKept M F T (execCtxCreate req s) := by
  unfold Machine.execCtxCreate
  refine .next (h.reading fun s hs => ?_)
  extract_lets +onlyGivenNames raw
  split
  · exact hs.mbDone
  · extract_lets +onlyGivenNames bs n
    split
    · exact hs.mbDone
    · refine hs.reading fun s hs => ?_
      extract_lets +onlyGivenNames head k _ s1 s2
      have hs1 : Kept M F T s1 :=
        (hs.setCtx .createCtx).mapCores (f := fun kv => { kv.2 with cctx := Tab.del kv.2.cctx n }) fun _ hx => hx.of_same rfl rfl
      exact .mbDone (.mbStore (.peerSizes hs1))

theorem CoreOk.forget {x : Core} {ctx : Nat} (hx : CoreOk F x) : CoreOk F (x.forget ctx) := by
  unfold Core.forget
  exact hx

theorem Kept.resetCtx {ctx : Nat} {k : Ctx} (h : Kept M F T s) (hk : CtxOk F k) : Kept M F T (s.resetCtx ctx k) := by
  unfold State.resetCtx
  extract_lets +onlyGivenNames g
  exact .mapCores (h.setCtx hk) fun _ hx => hx.forget

theorem Kept.oldLaunches {ctx : Nat} (h : Kept M F T s) : Kept M F T (s.oldLaunches ctx) := by
  unfold State.oldLaunches
  refine h.foldl fun _ _ hs => ?_
  split
  · exact hs
  · exact .checkLaunch hs.setLaunch

theorem Kept.launchWaiters (h : Kept M F T s) : Kept M F T (s.launchWaiters) := by
  unfold State.launchWaiters
  exact h.foldl fun _ _ hs => hs.launchWaiter

theorem Kept.execCtxReset {req : Nat} (h : Kept M F T s) : OutKept M F T (execCtxReset req s) := by
  unfold Machine.execCtxReset
  refine .next (h.reading fun _ hs => ?_)
  split
  · exact hs.mbDone
  · split
    · exact hs.mbDone
    next he => exact hs.reading fun _ hs2 => .mbDone (.launchWaiters (.oldLaunches (hs2.resetCtx (hs.ctx? he))))

theorem Kept.dropCtx {ctx : Nat} (h : Kept M F T s) : Kept M F T (s.dropCtx ctx) := by
  unfold State.dropCtx
  extract_lets s0
  obtain ⟨hm, hc, hk, ht⟩ : Kept M F T s0 := h.foldl fun _ _ hs => hs.leaveX
  exact ⟨hm, hc.map fun _ hx => hx.without.of_same rfl rfl, hk.del, ht⟩

theorem Kept.execCtxDestroy {req : Nat} (h : Kept M F T s) : OutKept M F T (execCtxDestroy req s) := by
  unfold Machine.execCtxDestroy
  refine .next (h.reading fun _ hs => ?_)
  split
  · exact hs.mbDone
  · split
    · exact hs.mbDone
    next he => exact .mbDone (.launchWaiters (.dropCtx (hs.resetCtx (hs.ctx? he))))

end

/-! ### The loader -/

section
variable {M F P : Prop} {T : Turn} {s : State}

theorem Kept.fwStore {v : View} {a : Nat} {bs : List Byte} {rel : Option Nat} {q : State × View} (h : Kept M F T s)
    (hq : s.fwStore v a bs rel = q) : Kept M F T q.1 := hq ▸ h.storeAt

/-! The proofs of this part take pairs apart by equations, and name an operation and what it calls by variables before they look
inside it: checked with the terms themselves, they would compute with stores at the addresses of the arena. -/

theorem Kept.foldl_pair {α β : Type} {l : List α} {p q : State × β} {f : State × β → α → State × β} (h : Kept M F T p.1)
    (hq : l.foldl f p = q) (hf : ∀ p a q, f p a = q → Kept M F T p.1 → Kept M F T q.1) : Kept M F T q.1 := by
  induction l generalizing p with
  | nil => exact hq ▸ h
  | cons a l ih => exact ih (hf p a _ rfl h) hq

theorem Kept.setPerm {ctx root : Nat} {v : View} {p : PagePerm} {q : State × View} (h : Kept M F T s)
    (hq : s.setPerm ctx root v p = q) : Kept M F T q.1 := by
  have key : ∀ loc f, @State.leafLoc = loc → @State.setPerm = f → f s ctx root v p = q → Kept M F T q.1 :=
      fun loc f hloc hf hq => by
    delta State.setPerm at hf
    rw [hloc] at hf
    subst hf
    beta_reduce at hq
    split at hq
    · exact hq ▸ h
    · extract_lets +onlyGivenNames new at hq
      split at hq
      · exact hq ▸ h
      · split at hq
        next he => exact hq ▸ .tlbiDo (h.fwStore he)
  exact key _ _ rfl rfl hq

theorem Kept.fwVStore {root : Nat} {v : View} {va : Nat} {bs : List Byte} {rel : Option Nat} {q : State × View} (h : Kept M F T s)
    (hq : s.fwVStore root v va bs rel = q) : Kept M F T q.1 := by
  unfold State.fwVStore at hq
  refine .foldl_pair h hq fun p a q hf hs => ?_
  split at hf
  · exact hs.fwStore hf
  · exact hf ▸ hs

theorem Kept.writeObject {ctx : Nat} {k : Ctx} {o : Nco} {l : Layout} {ns : List Sym} {bss : List (List Byte)} {vs : Veneers}
    {s' : State} {hb : List Nat} (h : Kept M F T s) (hw : s.writeObject ctx k o l ns bss vs = (s', hb)) : Kept M F T s' := by
  have key : ∀ perms f, pagePerms = perms → @State.writeObject = f → f s ctx k o l ns bss vs = (s', hb) → Kept M F T s' :=
      fun perms f hp hf hw => by
    delta State.writeObject at hf
    rw [hp] at hf
    subst hf
    beta_reduce at hw
    extract_lets +onlyGivenNames root base host _ v0 at hw
    split at hw
    next s1 v1 h1 =>
      have hs1 : Kept M F T s1 := .foldl_pair h h1 fun _ _ _ hq hs => hs.setPerm hq
      extract_lets +onlyGivenNames secs vens at hw
      split at hw
      next s2 v2 h2 =>
        have hs2 : Kept M F T s2 := .foldl_pair hs1 h2 fun _ _ _ hq hs => hs.fwVStore hq
        extract_lets +onlyGivenNames cells at hw
        split at hw
        next s3 v3 h3 =>
          have hs3 : Kept M F T s3 := .foldl_pair hs2 h3 fun _ _ _ hq hs => hs.fwVStore hq
          exact .of_fst hw hs3
  exact key _ _ rfl rfl hw

theorem Kept.loadObject {ctx : Nat} {k : Ctx} {img : List Byte} {s' : State} {r : LoadRes} (h : Kept M F T s) (hk : CtxOk F k)
    (hl : s.loadObject ctx k img = (s', r)) : Kept M F T s' := by
  have key : ∀ wr f, @State.writeObject = wr → @State.loadObject = f → f s ctx k img = (s', r) → Kept M F T s' :=
      fun wr f hwr hf hl => by
    delta State.loadObject at hf
    rw [hwr] at hf
    subst hf
    beta_reduce at hl
    split at hl
    · exact .of_fst hl h
    · extract_lets +onlyGivenNames base l at hl
      split at hl
      · exact .of_fst hl h
      · split at hl
        · exact .of_fst hl h
        · split at hl
          · exact .of_fst hl h
          · extract_lets +onlyGivenNames num at hl
            split at hl
            next s1 hb he =>
              subst hwr
              have hs1 : Kept M F T s1 := h.writeObject he
              extract_lets +onlyGivenNames obj k1 at hl
              have hk1 : CtxOk F k1 := hk.of_same rfl
              exact .of_fst hl (hs1.setCtx hk1)
  exact key _ _ rfl rfl hl

theorem Kept.execObjLoad {req : Nat} (h : Kept M F T s) : OutKept M F T (execObjLoad req s) := by
  unfold Machine.execObjLoad
  refine .next (h.reading fun s hs => ?_)
  extract_lets +onlyGivenNames b ctx a n
  split
  · exact hs.mbDone
  next k hk =>
    split
    · exact hs.mbDone
    · refine hs.reading fun s1 hs1 => ?_
      split
      · exact hs1.mbDone
      · extract_lets +onlyGivenNames img
        refine hs1.reading fun s2 hs2 => hs2.holding fun s3 hs3 => ?_
        split
        next s4 r hl =>
          have hs4 : Kept M F T s4 := hs3.loadObject (hs.ctx? hk) hl
          extract_lets +onlyGivenNames off
          refine .mbDone ?_
          split
          · exact hs4
          · exact hs4.mbStore

end

/-! ### The host interface -/

section
variable {M F P : Prop} {T : Turn} {s : State}

theorem Kept.execMbDb {cmd : BitVec 8} {req value : Word} (h : Kept M F T s) : OutKept M F T (execMbDb cmd req value s) := by
  unfold Machine.execMbDb
  refine .next ?_
  extract_lets +onlyGivenNames mb go _ s1
  have hs1 : Kept M F T s1 := h
  split
  · exact hs1.post
  · exact hs1

theorem Kept.execMeasRead {req : Nat} (h : Kept M F T s) : OutKept M F T (execMeasRead req s) := by
  unfold Machine.execMeasRead
  refine .next (h.reading fun _ hs => ?_)
  split
  · exact hs.mbDone
  · exact .mbDone hs.mbStore

theorem Kept.setGoal {g : Option (Nat × BitVec 2)} (h : Kept M F T s) : Kept M F T (s.setGoal g) := by
  unfold State.setGoal
  exact h

theorem Kept.execMbClpm {req : Nat} (h : Kept M F T s) : OutKept M F T (execMbClpm req s) := by
  unfold Machine.execMbClpm
  refine .next (h.reading fun _ hs => ?_)
  split
  · extract_lets +onlyGivenNames p
    split
    · exact hs.mbDone
    · split
      · exact hs.post
      · split
        · exact .mbDone hs.setGoal
        · extract_lets +onlyGivenNames next
          split
          · exact .mbDone (.setGoal (hs.clpmStart fun _ hs2 => hs2))
          · exact .post (.setGoal (hs.clpmStart fun _ hs2 => hs2.setTgt))

theorem Kept.execHaltInfo {req : Nat} (h : Kept M F T s) : OutKept M F T (execHaltInfo req s) := by
  unfold Machine.execHaltInfo
  refine .next (h.reading fun _ hs => ?_)
  extract_lets +onlyGivenNames k
  refine .mbDone ?_
  split
  · exact hs.mbStore
  · exact hs

theorem Kept.respond {bs : List Byte} (h : Kept M F T s) : Kept M F T (s.respond bs) := by
  unfold State.respond
  exact h

theorem Kept.execModuleReset (h : Kept M F T s) : OutKept M F T (execModuleReset s) := by
  unfold Machine.execModuleReset
  refine .next ?_
  extract_lets +onlyGivenNames _ s0
  have hs0 : Kept M F T s0 := ⟨h.1, .nil, .nil, h.turn⟩
  split
  · exact hs0
  · exact hs0

theorem Kept.hostStore {a : Nat} {bs : List Byte} (h : Kept M F T s) : Kept M F T (s.hostStore a bs) := by
  unfold State.hostStore
  exact .of_same h.storeAt rfl rfl rfl rfl

theorem Kept.peerStore {a : Nat} {bs : List Byte} (h : Kept M F T s) : Kept M F T (s.peerStore a bs) := by
  unfold State.peerStore
  exact h.storeAt

theorem Kept.hostRead {a n : Nat} (h : Kept M F T s) : Kept M F T (s.hostRead a n) := by
  unfold State.hostRead
  extract_lets +onlyGivenNames s1
  have hs1 : Kept M F T s1 := h.demandGot
  extract_lets +onlyGivenNames g
  exact hs1

theorem Kept.hostAccess {again : Instr} {name a n : Nat} {k : State → State} (h : Kept M F T s)
    (hk : ∀ s, Kept M F T s → Kept M F T (k s)) : OutKept M F T (s.hostAccess again name a n k) := by
  unfold State.hostAccess
  split
  · exact .faulted
  · extract_lets +onlyGivenNames ks
    refine .next ?_
    split
    · exact .post h.joinQueue
    · split
      · exact .post (h.served fun _ hs => hs)
      · exact h.served fun _ hs => hk _ hs

theorem Kept.execHostCxlMemAccess {acc : HostAcc} (h : Kept M F T s) : OutKept M F T (execHostCxlMemAccess acc s) := by
  unfold Machine.execHostCxlMemAccess
  split
  · exact h.hostAccess fun _ hs => hs.hostRead
  · exact h.hostAccess fun _ hs => hs.hostStore

theorem Kept.execPeerWrite {addr : Nat} {data : List Byte} (h : Kept M F T s) : OutKept M F T (execPeerWrite addr data s) := by
  unfold Machine.execPeerWrite
  exact h.hostAccess fun _ hs => hs.peerStore

end

/-! ### Reliability -/

section
variable {M F P : Prop} {T : Turn} {s : State}

theorem Kept.outOfService {k cause : Nat} (h : Kept M F T s) : Kept M F T (s.outOfService k cause) := by
  unfold State.outOfService
  exact h.setPch

theorem Kept.execLinkCrcFail {pch failures : Nat} (h : Kept M F T s) : OutKept M F T (execLinkCrcFail pch failures s) := by
  unfold Machine.execLinkCrcFail
  refine .next ?_
  extract_lets +onlyGivenNames x
  split
  · exact h
  · extract_lets +onlyGivenNames x1
    split
    · exact h.setPch
    · exact .logError h.setPch

theorem Kept.execHbmRetrainDone {pch : Nat} {ok burstOk : Bool} (h : Kept M F T s) :
    OutKept M F T (execHbmRetrainDone pch ok burstOk s) := by
  unfold Machine.execHbmRetrainDone
  refine .next ?_
  extract_lets +onlyGivenNames x
  split
  · exact h
  · split
    · split
      · exact h.outOfService
      · exact h.setPch
    · split
      · exact h.setPch
      · exact .outOfService h.setPch

theorem Cuts.upset {t : Thread} {n place : Nat} (ht : Cuts P t) : Cuts P (t.upset n place) := by
  unfold Thread.upset
  extract_lets +onlyGivenNames m
  split
  · exact ht
  · exact ht
  · exact ht
  · exact ht

theorem Kept.applyUpset {u : Upset} (h : Kept M F T s) : Kept M F T (s.applyUpset u) := by
  unfold State.applyUpset
  split
  · refine h.asTurn fun s hs => ?_
    split
    next t ht => exact hs.setCur (hs.cur ht).upset
    next => exact hs
  · exact h.poisonLine

theorem Kept.applyUpsets (h : Kept M F T s) : Kept M F T (s.applyUpsets) := by
  unfold State.applyUpsets
  exact .foldl h fun _ _ hs => hs.applyUpset

theorem Kept.nextPass (h : Kept M F T s) : Kept M F T (s.nextPass) := by
  unfold State.nextPass
  extract_lets +onlyGivenNames h'
  exact h

theorem Kept.execScrubRead (h : Kept M F T s) : OutKept M F T (execScrubRead s) := by
  unfold Machine.execScrubRead
  refine .next ?_
  extract_lets +onlyGivenNames l
  split
  · exact h
  · extract_lets +onlyGivenNames s1
    have hs1 : Kept M F T s1 := by
      unfold s1
      split
      · exact h
      · exact h.readLine
    split
    · exact hs1.nextPass
    · exact hs1

theorem Kept.poisonSent {pch : Nat} (h : Kept M F T s) : Kept M F T (s.poisonSent pch) := by
  unfold State.poisonSent
  exact h.foldl fun _ _ hs => hs.foldl fun _ _ hs2 => hs2.landAt

theorem Kept.execRemapTableError {pch : Nat} (h : Kept M F T s) : OutKept M F T (execRemapTableError pch s) := by
  unfold Machine.execRemapTableError
  refine .next ?_
  extract_lets +onlyGivenNames x
  split
  · exact h
  · extract_lets +onlyGivenNames s1
    have hs1 : Kept M F T s1 := by
      unfold s1
      split
      · exact h.poisonSent
      · exact h
    exact .post hs1.setPch

theorem Kept.execTableReloadDone {pch : Nat} (h : Kept M F T s) : OutKept M F T (execTableReloadDone pch s) := by
  unfold Machine.execTableReloadDone
  refine .next ?_
  extract_lets +onlyGivenNames x
  split
  · exact h
  · extract_lets +onlyGivenNames goodA goodB
    split
    · exact .logError (.outOfService h.setPch)
    · exact h.setPch

theorem Kept.execScrubCtl {value : Word} (h : Kept M F T s) : OutKept M F T (execScrubCtl value s) := by
  unfold Machine.execScrubCtl
  refine .next ?_
  extract_lets +onlyGivenNames p
  exact h

end

/-! ### Dispatch -/

section
variable {M F P : Prop} {T : Turn} {s : State} {i : Instr}

theorem Kept.exec (h : Kept M F T s) : OutKept M F T (exec i s) := by
  cases i with
  | nop _ => exact .next h.advance
  | illegal => exact .next h.trapAll
  | iadd _ => exact .next h.aluRR
  | iaddImm _ => exact .next h.aluRI
  | isub _ => exact .next h.aluRR
  | isubImm _ => exact .next h.aluRI
  | imul _ => exact .next h.aluRR
  | imulImm _ => exact .next h.aluRI
  | imulh _ => exact .next h.aluRR
  | imulhImm _ => exact .next h.aluRI
  | imulw _ => exact .next h.result
  | imulwImm _ => exact .next h.result
  | imad _ => exact .next h.result
  | ineg _ => exact .next h.alu1
  | iabs _ => exact .next h.alu1
  | imin _ => exact .next h.aluRR
  | iminImm _ => exact .next h.aluRI
  | imax _ => exact .next h.aluRR
  | imaxImm _ => exact .next h.aluRI
  | shl _ => exact .next h.aluRC
  | shlImm _ => exact .next h.aluRIC
  | shr _ => exact .next h.aluRC
  | shrImm _ => exact .next h.aluRIC
  | sar _ => exact .next h.aluRC
  | sarImm _ => exact .next h.aluRIC
  | and_ _ => exact .next h.aluRR
  | andImm _ => exact .next h.aluRI
  | or_ _ => exact .next h.aluRR
  | orImm _ => exact .next h.aluRI
  | xor_ _ => exact .next h.aluRR
  | xorImm _ => exact .next h.aluRI
  | not_ _ => exact .next h.alu1
  | andn _ => exact .next h.aluRR
  | andnImm _ => exact .next h.aluRI
  | clz _ => exact .next h.alu1
  | popc _ => exact .next h.alu1
  | brev _ => exact .next h.alu1
  | bfx _ => exact .next h.aluRC
  | bfi _ => exact .next h.result
  | sel _ => exact .next h.result
  | icmp _ => exact h.execIcmp
  | icmpImm _ => exact h.execIcmpImm
  | mov _ => exact .next h.result
  | movi _ => exact .next h.result
  | movh _ => exact .next h.result
  | lea _ => exact .next h.result
  | fadd _ => exact .next h.flt2
  | fsub _ => exact .next h.flt2
  | fmul _ => exact .next h.flt2
  | ffma _ => exact .next h.result
  | fmin _ => exact .next h.flt2
  | fmax _ => exact .next h.flt2
  | fabs _ => exact .next h.flt1
  | fneg _ => exact .next h.flt1
  | fcmp _ => exact h.execFcmp
  | fclass _ => exact .next h.result
  | frcp _ => exact .next h.flt1
  | frsq _ => exact .next h.flt1
  | fsqrt _ => exact .next h.flt1
  | fex2 _ => exact .next h.flt1
  | flg2 _ => exact .next h.flt1
  | fsin _ => exact .next h.flt1
  | fcos _ => exact .next h.flt1
  | frnd _ => exact .next h.flt1
  | fcvt _ => exact .next h.result
  | ftoi _ => exact .next h.result
  | itof _ => exact .next h.result
  | hadd2 _ => exact .next h.result
  | hmul2 _ => exact .next h.result
  | hfma2 _ => exact .next h.result
  | dot4 _ => exact .next h.result
  | dot2h _ => exact .next h.result
  | pand _ => exact .next h.predLogic
  | por _ => exact .next h.predLogic
  | pxor _ => exact .next h.predLogic
  | pnot _ => exact .next (h.predResult fun _ _ hc => .psrc hc)
  | pmov _ => exact .next (h.predResult fun _ _ hc => .psrc hc)
  | pany _ => exact .next h.vote
  | pall _ => exact .next h.vote
  | pcnt _ => exact .next h.vote
  | idx _ => exact .next h.result
  | box _ => exact .next h.result
  | form _ => exact .next h.result
  | expand _ => exact h.execExpand
  | split _ => exact h.execSplit
  | peel _ => exact h.execPeel
  | fnew _ => exact h.execFnew
  | sjoin _ => exact h.execSjoin
  | sleave _ => exact h.execSleave
  | sbar _ => exact h.execSbar
  | red _ => exact h.execRed
  | rdsum _ => exact h.execRdsum
  | shfl _ => exact h.execShfl
  | bra _ => exact h.execBra
  | brc _ => exact h.execBrc
  | call _ => exact h.execCall
  | calli _ => exact .next (h.transfer fun _ _ hs => hs.withTarget fun _ _ hs2 => hs2.callTo)
  | ret _ => exact .next (h.transfer fun _ _ hs => hs.ret)
  | jmpi _ => exact .next (h.transfer fun _ _ hs => hs.withTarget fun _ _ hs2 => hs2.jump)
  | exit_ _ => exact .next (h.transfer fun _ _ hs => hs.exitAll)
  | trap_ _ => exact .next h.trapCode
  | brk _ => exact .next h.trapCode
  | yield _ => exact h.execYield
  | ld _ => exact .next h.load
  | st _ => exact .next h.storeInstr
  | lds _ => exact .next h.load
  | sts _ => exact .next h.storeInstr
  | ldc _ => exact .next h.load
  | pref _ => exact .next (h.guarded fun _ _ hs => hs.advance)
  | atom _ => exact .next h.atomInstr
  | atoms _ => exact .next h.atomInstr
  | phase _ => exact .next (h.guarded fun _ _ hs => .advance (.modViews hs.progressed))
  | fence _ => exact h.execFence
  | pfence _ => exact h.execPfence
  | promote _ => exact .next h.promoteInstr
  | promotionRequest _ _ => exact .next h.post
  | waita _ => exact h.execWaita
  | waitaSatisfied _ _ => exact h.execWaitaSatisfied
  | loadDataArrival _ _ => exact h.execLoadDataArrival
  | copy _ => exact .next h.copyIssue
  | copyx _ => exact .next h.copyIssue
  | copyc _ => exact .next h.copyIssue
  | copyt _ => exact .next h.copyIssue
  | copyRun _ => exact h.execCopyRun
  | tokenWaitEnd _ _ => exact h.execTokenWaitEnd
  | fork _ => exact h.execFork
  | streamStart _ => exact h.execStreamStart
  | rdzv _ => exact h.execRdzv
  | launch _ => exact h.execLaunch
  | waitc _ => exact h.execWaitc
  | swapDelayExpiry _ _ => exact .next h.swapDue
  | waitcResume _ _ => exact h.execWaitcResume
  | cancel _ => exact h.execCancel
  | cancelBroadcast _ _ _ _ => exact h.execCancelBroadcast
  | tcfg _ => exact h.execTcfg
  | tload _ => exact h.execTload
  | tstore _ => exact h.execTstore
  | tfill _ => exact h.execTfill
  | tdrain _ => exact h.execTdrain
  | tzero _ => exact h.execTzero
  | ttrn _ => exact h.execTtrn
  | tscale _ => exact h.execTscale
  | tadd _ => exact h.execTadd
  | mma _ => exact h.execMma
  | tlatch _ => exact h.execTlatch
  | tscl _ => exact h.execTscl
  | mstat _ => exact h.execMstat
  | operandsConsumed _ _ _ => exact h.execOperandsConsumed
  | rewriteWindow _ => exact h.execRewriteWindow
  | csrr _ => exact .next h.csrOp
  | csrw _ => exact .next h.csrOp
  | csrs _ => exact .next h.csrOp
  | csrc _ => exact .next h.csrOp
  | csrWrite _ _ _ _ => exact .next h.csrPut
  | fsel _ => exact h.execFsel
  | fget _ => exact h.execFget
  | fset _ => exact h.execFset
  | fresume _ => exact h.execFresume
  | replay _ => exact h.execReplay
  | tlbi _ => exact h.execTlbi
  | eret _ => exact .next (h.mcOnly fun _ _ hs => hs.mcReturn)
  | sleep _ => exact h.execSleep
  | sleepWake _ => exact h.execSleepWake
  | rwload _ => exact h.execRwload
  | clauseHeader _ => exact h.execClauseHeader
  | knitHoldExpiry _ _ => exact h.execKnitHoldExpiry
  | resourceRetry _ => exact h.execResourceRetry
  | resourceSwapOut _ => exact h.execResourceSwapOut
  | watchdog _ _ => exact h.execWatchdog
  | heldTrapPush _ => exact h.execHeldTrapPush
  | pageWalkComplete _ _ => exact h.execPageWalkComplete
  | replayComplete _ _ => exact h.execReplayComplete
  | mcHandlerEntry _ => exact h.execMcHandlerEntry
  | trapCause _ _ => exact h.execTrapCause
  | trapWindowStore _ _ => exact .next h.setDisp
  | mcEpc _ _ => exact .next h.writeEpc
  | mcPtroot _ _ => exact .next h.writePtroot
  | dispatchAdmit _ => exact h.execDispatchAdmit
  | dispatchPlace _ => exact h.execDispatchPlace
  | tileStart _ => exact h.execTileStart
  | launchFinish _ => exact h.execLaunchFinish
  | ctxDoorbell _ _ => exact h.execCtxDoorbell
  | stealRequest _ => exact h.execStealRequest
  | stealRetryTimer _ => exact .next (.postSteal h.modSteal)
  | stealVictim _ _ => exact h.execStealVictim
  | lentRecord _ _ _ => exact h.execLentRecord
  | stealAck _ _ => exact h.execStealAck
  | stealNone _ => exact h.execStealNone
  | traverseToken _ _ => exact h.execTraverseToken
  | heldCompletionEntry _ => exact h.execHeldCompletionEntry
  | drainNotice _ => exact h.execDrainNotice
  | contextSwitch _ _ => exact h.execContextSwitch
  | contextRestore _ _ => exact h.execContextRestore
  | mbDb _ _ _ => exact h.execMbDb
  | ctxCreate _ => exact h.execCtxCreate
  | ctxReset _ => exact h.execCtxReset
  | ctxDestroy _ => exact h.execCtxDestroy
  | objLoad _ => exact h.execObjLoad
  | measRead _ => exact h.execMeasRead
  | mbClpm _ => exact h.execMbClpm
  | haltInfo _ => exact h.execHaltInfo
  | mbUnknownCmd _ => exact .next h.mbDone
  | getVersion => exact .next (.respond h)
  | getCapabilities => exact .next (.respond h)
  | negotiateAlgorithms => exact .next (.respond h)
  | getDigests => exact .next h.respond
  | getCertificate _ => exact .next h.respond
  | getMeasurements _ => exact .next h.respond
  | moduleReset => exact h.execModuleReset
  | clpmGo _ _ => exact .next (h.clpmStart fun _ hs => hs.setTgt)
  | clpmStepDone _ => exact h.execClpmStepDone
  | flush _ => exact .next h.startFlush
  | flushDone _ => exact h.execFlushDone
  | estop _ _ => exact .next h.setEstop
  | dstop _ _ => exact .next h.setDstop
  | save _ => exact .next h.startSave
  | saveDone _ => exact h.execSaveDone
  | restore _ => exact .next h.startRestore
  | restoreDone _ => exact h.execRestoreDone
  | clpmWake _ => exact .next h.clearWake
  | clpmWakeMirror _ => exact .next h.setPm
  | alwaysOnAnswer _ _ => exact h.execAlwaysOnAnswer
  | hostCxlMemAccess _ => exact h.execHostCxlMemAccess
  | peerWrite _ _ => exact h.execPeerWrite
  | peerLinkTrained _ _ => exact .next h
  | farLinkDown _ => exact .next (.foldl h fun _ _ hs => hs.foldl fun _ _ hs2 => hs2.loseAt)
  | farCompletionTimeout _ _ => exact .next (h.foldl fun _ _ hs => hs.loseAt)
  | farRetrainDone _ => exact .next (.foldl (.endFaulted h) fun _ _ hs => hs.foldl fun _ _ hs2 => hs2.startReplay)
  | linkCrcFail _ _ => exact h.execLinkCrcFail
  | hbmRetrainDone _ _ _ => exact h.execHbmRetrainDone
  | scrubRead => exact h.execScrubRead
  | remapTableError _ => exact h.execRemapTableError
  | tableReloadDone _ => exact h.execTableReloadDone
  | scrubCtl _ => exact h.execScrubCtl
  | clr _ => exact .next h.setPch
  | tileInstructionCompletion _ _ => exact h.execTileInstructionCompletion
  | cancelAcknowledgement _ _ _ _ _ => exact h.execCancelAcknowledgement
  | promotionReply _ _ => exact h.execPromotionReply
  | unstartedRecordReturn _ _ _ => exact h.execUnstartedRecordReturn
  | peerWriteUndeliverable _ => exact h.execPeerWriteUndeliverable

end

/-! ### Fetch -/

section
variable {M F P : Prop} {T : Turn} {s : State}

/-- What a part of a fetch keeps: the state it goes on in, or the one after its fault. -/
def PartKept (M F : Prop) (T : Turn) : Except State (State × Got) → Prop
  | .error u => Kept M F T u
  | .ok p => Kept M F T p.1

/-- What an agent's choice of action keeps. -/
def ActKept (M F : Prop) (T : Turn) : Action → Prop
  | .run _ u => Kept M F T u
  | .done u => Kept M F T u

theorem Kept.fetchFault {t : Thread} {f : IdxFault} (h : Kept M F T s) : Kept M F T (s.fetchFault t f) := by
  unfold State.fetchFault
  split
  · exact h.fibreFaults
  · exact h.agentFault

theorem Kept.fetchPart {t : Thread} {va n : Nat} {r : Except State (State × Got)} (h : Kept M F T s) (hr : s.fetchPart t va n = r) :
    PartKept M F T r := by
  -- The read and the fetch are variables here: the check of the proof would compute with the addresses.
  have key : ∀ rd f, @State.readSpace = rd → @State.fetchPart = f → f s t va n = r → PartKept M F T r :=
      fun rd f hrd hf hr => by
    delta State.fetchPart at hf
    rw [hrd] at hf
    subst hf
    beta_reduce at hr
    extract_lets +onlyGivenNames sp s0 at hr
    have hs0 : Kept M F T s0 := h.walkRange
    split at hr
    · subst hr; exact hs0.fetchFault
    · subst hr; exact hs0
    · extract_lets +onlyGivenNames s1 poison at hr
      have hs1 : Kept M F T s1 := hs0.demandPieces
      have hpoison (far) : Kept M F T (poison far) := hs1.fetchFault
      split at hr
      · subst hr; exact hpoison _
      · split at hr
        · subst hr; exact hs1
        · split at hr
          · subst hr; exact hpoison _
          · subst hr; exact hs1
  exact key _ _ rfl rfl hr

theorem Kept.clearPlan (h : Kept M F T s) : Kept M F T (s.clearPlan) := by
  unfold State.clearPlan
  split
  · split
    · exact h.setCore (.of_same h.core rfl rfl)
    · exact h
  · exact h

theorem Kept.fetchNow {t : Thread} (h : Kept M F T s) (ht : Cuts (Ranged F T) t) : ActKept M F T (s.fetchNow t) := by
  unfold State.fetchNow
  extract_lets +onlyGivenNames va
  split
  next u hu => exact h.fetchPart hu
  next s1 g hg =>
    have hs1 : Kept M F T s1 := h.fetchPart hg
    extract_lets +onlyGivenNames n
    split
    next u hu => exact hs1.fetchPart hu
    next s2 g2 hg2 =>
      have hs2 : Kept M F T s2 := hs1.fetchPart hg2
      extract_lets +onlyGivenNames _ t'
      have ht' : Cuts (Ranged F T) t' := by
        refine .of_same (t := s2.cur?.getD t) ?_ rfl rfl rfl
        cases hcur : s2.cur? with
        | none => exact ht
        | some t2 => exact hs2.cur hcur
      exact (hs2.setCur ht').clearPlan

theorem Kept.fetch {t : Thread} (h : Kept M F T s) (ht : Cuts (Ranged F T) t) : ActKept M F T (s.fetch t) := by
  unfold State.fetch
  split
  · exact h.fetchFault
  · split
    · exact h.trapAll
    · split
      · exact h.fetchNow ht
      · extract_lets +onlyGivenNames ks
        split
        · exact h.served fun _ hs => hs
        · exact Kept.fetchNow (h.served fun _ hs => hs) ht

theorem Kept.wordAction {t : Thread} {c : Clause} (h : Kept M F T s) : ActKept M F T (s.wordAction t c) := by
  unfold State.wordAction
  split
  · exact h.trapAll
  · split
    · split
      · exact h
      · exact h
    · split
      · exact h
      · exact h
    · exact h

theorem Kept.agentAction {t : Thread} (h : Kept M F T s) (ht : Cuts (Ranged F T) t) : ActKept M F T (s.agentAction t) := by
  unfold State.agentAction
  split
  · exact h.fetch ht
  · split
    · exact h.wordAction
    · exact h

theorem Kept.nextAction (h : Kept M F T s) : ActKept M F T s.nextAction := by
  obtain rfl := h.turn
  unfold State.nextAction
  split
  next c e hc =>
    split
    · exact h
    next t ht =>
      split
      · exact h
      · extract_lets +onlyGivenNames _ s1
        have hs1 : Kept M F s.turn s1 := h.setCore (.of_same h.core rfl rfl)
        split
        · exact hs1.killFibre
        · split
          · exact hs1
          · exact hs1.agentAction (h.fibre? ht).ranged
  next c hc =>
    split
    · exact h
    · split
      · exact h
      · split
        · exact h.streamEnd
        · split
          · exact h
          · refine h.agentAction ?_
            rw [hc]
            exact fun hR => hR.elim
  next k hk =>
    split
    · exact h
    · split
      · exact h
      · refine h.agentAction ?_
        rw [hk]
        exact fun hR => hR.elim
  next n hn =>
    split
    · exact h
    · exact h
  next =>
    split
    · exact h
    · exact h
  next => exact h

theorem Kept.postDue (h : Kept M F T s) : Kept M F T (s.postDue) := by
  unfold State.postDue
  exact h

theorem Kept.tidy (h : Kept M F T s) : Kept M F T (s.tidy) := by
  unfold State.tidy
  exact .pruneQueue (.spill (.settleBooks (.cancelSweep h.endHolds)))

theorem Kept.settle (h : Kept M F T s) : Kept M F s.settle.turn s.settle := by
  obtain ⟨hm, hc, hk, -⟩ := h.tidy.postDue
  exact ⟨hm, hc, hk, rfl⟩

theorem Kept.issued (h : Kept M F T s) : Kept M F T (s.issued) := by
  unfold State.issued
  split
  · split
    · exact h.setCore (.mapFibres h.core rfl rfl fun _ hc => hc)
    · exact h
  · exact h

end

/-! ### The step -/

section
variable {M F : Prop} {T : Turn} {s t : State}

theorem Kept.step (h : Kept M F T s) (ht : step s = .next t) : Kept M F t.turn t := by
  have hact : ActKept M F T s.applyUpsets.issued.nextAction := h.applyUpsets.issued.nextAction
  unfold Machine.step at ht
  split at ht
  next u hu =>
    rw [hu] at hact
    obtain rfl := Host.Outcome.next.inj ht
    exact Kept.settle hact
  next i u hu =>
    rw [hu] at hact
    split at ht
    next v hv =>
      obtain rfl := Host.Outcome.next.inj ht
      exact (Kept.exec hact v hv).settle
    next => exact nomatch ht
    next => exact nomatch ht

theorem cuts_false {p : Thread} : Cuts False p := fun h => h.elim

theorem coreOk_false {x : Core} : CoreOk False x := ⟨fun h => h.elim, fun _ _ => cuts_false, fun _ _ => cuts_false⟩

theorem ctxOk_false {k : Ctx} : CtxOk False k := fun _ _ => ⟨fun _ _ => cuts_false, fun _ _ => cuts_false⟩

theorem canonical_iff_kept : s.Canonical ↔ Kept True False s.turn s :=
  ⟨fun h => ⟨fun _ => h, fun _ _ => coreOk_false, fun _ _ => ctxOk_false, rfl⟩, fun h => h.1 trivial⟩

theorem fibresInForm_iff_kept : FibresInForm s ↔ Kept False True s.turn s := by
  simp [FibresInForm, Kept, CoreOk, CtxOk, SavedOk, AllVals, normalCuts_iff]

end

/-- Settles O4: memory's form and the fibres' form are the two cases of `Kept`, which every step keeps. -/
theorem stepKeepsInvariants : Obligations.StepKeepsInvariants := by
  refine ⟨fun s t h ht => ?_, fun s t h ht => ?_, fun s h c => ?_⟩
  · exact canonical_iff_kept.2 ((canonical_iff_kept.1 h).step ht)
  · exact fibresInForm_iff_kept.2 ((fibresInForm_iff_kept.1 h).step ht)
  · have hk : Kept False True s.turn s := fibresInForm_iff_kept.1 h
    exact ⟨hk.core.1 trivial, fun e t ht => normalCuts_iff.2 (hk.fibre? ht)⟩

end Sys2Proof.Machine
end

section
/-!
The state of a turn, written and read: a unit written twice, what the current agent is once its thread is replaced, and a thread that
moves on. These hold for every agent's turn, or for a fibre's.
-/

namespace Sys2Proof.Machine

open Sys2Proof Sys2Proof.Spec

/-! ### Lists without order -/

section
variable {α β : Type} [BEq α] [LawfulBEq α] {a b : List α} {x : α}

theorem mem_listUnion : x ∈ listUnion a b ↔ x ∈ a ∨ x ∈ b := by
  simp only [listUnion, List.mem_append, List.mem_filter, Bool.not_eq_true', List.contains_iff_mem, ← Bool.not_eq_true]
  tauto

theorem mem_foldl_listUnion {f : β → List α} {l : List β} :
    x ∈ l.foldl (fun acc y => listUnion acc (f y)) a ↔ x ∈ a ∨ ∃ y ∈ l, x ∈ f y := by
  induction l generalizing a with
  | nil => simp
  | cons y l ih => simp [ih, mem_listUnion, or_assoc]

end

/-! ### Tables -/

section
variable {α : Type} {t : Tab α} {k j : Nat} {u v : α}

theorem Tab.set_set : Tab.set (Tab.set t k v) k u = Tab.set t k u := by
  induction t with
  | nil => simp [Tab.set]
  | cons x t ih =>
    obtain ⟨k', v'⟩ := x
    by_cases h : k < k'
    · simp [Tab.set, h]
    · by_cases h' : k = k'
      · simp [Tab.set, h']
      · simp [Tab.set, h, h', ih]

/-- In rising order an entry is where its key is looked for. -/
theorem Tab.find?_of_mem (h : rising t = true) (hm : (k, v) ∈ t) : Tab.find? t k = some v := by
  induction t with
  | nil => exact nomatch hm
  | cons x t ih =>
    obtain ⟨hx, ht⟩ := List.pairwise_cons.1 (rising_iff.1 h)
    rcases List.mem_cons.1 hm with rfl | hm
    · simp [Tab.find?]
    · have : k ≠ x.1 := (hx _ hm).ne'
      simp [Tab.find?, this, ih (rising_iff.2 ht) hm]

/-- Writing a listed key in a table of rising order replaces its entry where it stands. -/
theorem Tab.set_replaces (h : rising t = true) (hf : Tab.find? t k = some v) :
    ∃ a b, t = a ++ (k, v) :: b ∧ ∀ u, Tab.set t k u = a ++ (k, u) :: b := by
  induction t with
  | nil => exact nomatch hf
  | cons x t ih =>
    obtain ⟨k', v'⟩ := x
    obtain ⟨hx, ht⟩ := List.pairwise_cons.1 (rising_iff.1 h)
    by_cases hk : k = k'
    · subst hk
      simp only [Tab.find?, if_true, Option.some.injEq] at hf
      exact ⟨[], t, by simp [hf], fun u => by simp [Tab.set]⟩
    · simp only [Tab.find?, hk, if_false] at hf
      obtain ⟨a, b, hab, hset⟩ := ih (rising_iff.2 ht) hf
      have hlt : ¬ k < k' := (hx _ (Tab.mem_of_find? hf)).not_gt
      exact ⟨(k', v') :: a, b, by simp [← hab], fun u => by simp [Tab.set, hlt, hk, hset]⟩

theorem nodup_keys (h : rising t = true) : (t.map Prod.fst).Nodup :=
  List.pairwise_map.2 ((rising_iff.1 h).imp fun hab => hab.ne)

end

/-! ### Units written twice -/

section
variable {s : State} {c d e k : Nat} {x y : Core} {t u v : Thread}

@[simp] theorem setCore_setCore : (s.setCore c x).setCore c y = s.setCore c y := by
  simp [State.setCore, Tab.set_set]

@[simp] theorem setFibre_setFibre : (s.setFibre c e t).setFibre c e u = s.setFibre c e u := by
  simp [State.setFibre, Tab.set_set]

theorem setCur_fibre (h : s.turn = .fibre c e) : s.setCur t = s.setFibre c e t := by simp [State.setCur, h]

theorem cur?_fibre (h : s.turn = .fibre c e) : s.cur? = s.fibre? c e := by simp [State.cur?, h]

theorem fibre?_eq : s.fibre? c e = Tab.find? (s.core c).fibres e := rfl

/-- The current agent's thread, replaced twice. -/
theorem setCur_setCur (h : s.cur? = some u) : (s.setCur t).setCur v = s.setCur v := by
  unfold State.cur? at h
  split at h
  next ht => simp [State.setCur, ht]
  next ht =>
    obtain ⟨x, hx, -⟩ := Option.map_eq_some_iff.1 h
    simp [State.setCur, ht, hx]
  next ht => simp [State.setCur, ht, State.setMc, State.setCluster, State.cluster, Tab.set_set, State.mc]
  next => exact nomatch h

/-- An agent whose thread is replaced moves on with the new one. -/
theorem setCur_advance (h : s.cur? = some u) : (s.setCur t).advance = s.setCur t.advance := by
  rw [State.advance_eq _ _ (State.cur?_setCur s t u h), setCur_setCur h]

end

/-! ### Moving on -/

section
variable {t u : Thread}

/-- Where a thread goes next is told by its place and clause. -/
theorem advance_congr (hp : u.pc = t.pc) (hc : u.clause = t.clause) :
    u.advance.pc = t.advance.pc ∧ u.advance.clause = t.advance.clause := by
  unfold Thread.advance
  rw [hc, hp]
  split
  · split <;> exact ⟨rfl, rfl⟩
  · exact ⟨rfl, rfl⟩

/-- Moving on changes place, clause, latches and the watchdog's count alone. -/
theorem advance_frame : ∃ p c l w g, t.advance = { t with pc := p, clause := c, latches := l, wdog := w, progress := g } := by
  unfold Thread.advance
  split
  · split <;> exact ⟨_, _, _, _, _, rfl⟩
  · exact ⟨_, _, _, _, _, rfl⟩

@[simp] theorem regs_advance : t.advance.regs = t.regs := by
  obtain ⟨_, _, _, _, _, h⟩ := advance_frame (t := t)
  rw [h]

@[simp] theorem preds_advance : t.advance.preds = t.preds := by
  obtain ⟨_, _, _, _, _, h⟩ := advance_frame (t := t)
  rw [h]

@[simp] theorem view_advance : t.advance.view = t.view := by
  obtain ⟨_, _, _, _, _, h⟩ := advance_frame (t := t)
  rw [h]

end

/-! ### A uniform source -/

/-- A source that is uniform and not marked is what the operation gets. -/
theorem needU_eq {s : State} {t : Thread} {x : Src} {w next : Bool} {b : Word} {k : Word → State → State} (h : s.cur? = some t)
    (hf : (t.src s.draw x w).form = .u b) (hc : (t.src s.draw x w).clean = true) : s.needU x w next k = k b s := by
  have hp : (t.src s.draw x w).pAll = false := by
    simp only [Opd.clean, Bool.and_eq_true, Bool.not_eq_true'] at hc
    exact hc.1
  simp [State.needU, h, hf, hp]

end Sys2Proof.Machine
end

section
/-!
Sets, barriers and votes (02 R62-R65, 07 R172): what an arrival makes of the core, what the check of a set then does, and from these
O22 and O23.
-/

namespace Sys2Proof.Machine

open Sys2Proof Sys2Proof.Spec

/-! ### Members -/

section
variable {s : State} {c e j k m : Nat} {t u v : Thread} {x : Core} {st : SetSt} {kv : Word} {key : Src}

theorem memberOf_of_mem (hk : setId t (kv.toNat % 2 ^ 16) = some k) (hm : k ∈ t.sets) : t.memberOf kv = some k := by
  simp only [Thread.memberOf, hk]
  simp [hm]

theorem memberOf_of_not_mem (h : ∀ k, setId t (kv.toNat % 2 ^ 16) = some k → k ∉ t.sets) : t.memberOf kv = none := by
  unfold Thread.memberOf
  split
  next k hk => simp [h k hk]
  next => rfl

/-- What one fibre counts in a set. -/
def Thread.countIn (k : Nat) (t : Thread) : Nat := if t.sets.contains k then t.count else 0

theorem countIn_of_mem (h : k ∈ t.sets) : t.countIn k = t.count := by simp [Thread.countIn, h]

theorem members_eq_sum : x.members k = (x.fibres.map fun kv => kv.2.countIn k).sum := by
  have hfold : ∀ (l : List Thread) n,
      l.foldl (fun acc t => if t.sets.contains k then acc + t.count else acc) n = n + (l.map (·.countIn k)).sum := by
    intro l
    induction l with
    | nil => simp
    | cons t l ih =>
      intro n
      rw [List.foldl_cons, ih, List.map_cons, List.sum_cons, Thread.countIn]
      split
      · rw [Nat.add_assoc]
      · rw [Nat.zero_add]
  rw [Core.members, hfold, Core.threads, Tab.vals, List.map_map, Nat.zero_add]
  rfl

theorem members_pos (h : Tab.find? x.fibres j = some v) (hk : k ∈ v.sets) (hc : 0 < v.count) : 0 < x.members k := by
  have hle : v.countIn k ≤ x.members k := by
    rw [members_eq_sum]
    exact List.single_le_sum (fun _ _ => Nat.zero_le _) _ (List.mem_map_of_mem (Tab.mem_of_find? h))
  rw [countIn_of_mem hk] at hle
  omega

/-- A fibre that counts as before leaves the member count. -/
theorem members_set (hr : rising x.fibres = true) (h : Tab.find? x.fibres e = some t) (hu : u.countIn k = t.countIn k) (y : Core)
    (hy : y.fibres = Tab.set x.fibres e u) : y.members k = x.members k := by
  obtain ⟨a, b, hab, hset⟩ := Tab.set_replaces hr h
  rw [members_eq_sum, members_eq_sum, hy, hset, hab]
  simp [hu]

/-! ### The check of a set -/

theorem checkSet_eq_self (h : Tab.find? (s.core c).sets k = some st) (hm : 0 < (s.core c).members k)
    (ha : st.arrived = 0 ∨ st.arrived ≠ (s.core c).members k) : s.checkSet c k = s := by
  have h0 : (s.core c).members k ≠ 0 := by omega
  simp only [State.checkSet, h, h0, if_false]
  rw [if_neg]
  simp only [Bool.and_eq_true, decide_eq_true_eq]
  omega

/-- What the completed barrier of a set makes of a fibre that waits at it; `hb`: what its members had observed. -/
def Thread.released (st : SetSt) (hb : List Nat) (t : Thread) : Thread :=
  Thread.resumeNext (Thread.gain (match t.why with
    | .vote _ i => t.voteResult i st.arrived st.trues
    | _ => t) hb)

/-- The fibres that wait at the barrier of a set. -/
def Core.waiters (x : Core) (k : Nat) : Tab Thread := x.fibres.filter fun kv => kv.2.sets.contains k && kv.2.atBarrier k

/-- What those have observed. -/
def State.barrierHb (s : State) (c k : Nat) : List Nat :=
  ((s.core c).waiters k).foldl (fun acc kv => listUnion acc (s.hbAll kv.2)) []

/-- 02 R65: the last arrival. -/
theorem checkSet_complete (h : Tab.find? (s.core c).sets k = some st) (ha : st.arrived = (s.core c).members k)
    (hp : 0 < st.arrived) : s.checkSet c k =
      (((s.core c).waiters k).foldl (fun u kv => u.wake c kv.1 (Thread.released st (s.barrierHb c k)))
        (s.setCore c { s.core c with sets := Tab.set (s.core c).sets k ⟨st.ctx, 0, 0⟩ })).resourcesFreed c := by
  have h0 : (s.core c).members k ≠ 0 := by omega
  have hc : (decide (0 < st.arrived) && decide (st.arrived = (s.core c).members k)) = true := by simp [hp, ← ha]
  simp only [State.checkSet, h, h0, hc, if_false, if_true]
  rfl

/-! ### Waking -/

/-- A fibre in its entry is woken there. -/
theorem wake_of_entry {f : Thread → Thread} (h : Tab.find? (s.core c).swaps e = none) :
    s.wake c e f = s.modFibre c e fun t => t.over (f t.under) := by
  simp [State.wake, State.modThread, h]

theorem modFibre_core {f : Thread → Thread} :
    ((s.modFibre c e f).core c).swaps = (s.core c).swaps ∧ ((s.modFibre c e f).core c).sets = (s.core c).sets := by
  unfold State.modFibre
  split <;> simp [State.setFibre]

theorem fibre?_modFibre {f : Thread → Thread} :
    (s.modFibre c e f).fibre? c j = if j = e then (s.fibre? c e).map f else s.fibre? c j := by
  unfold State.modFibre
  split
  next t ht =>
    by_cases hj : j = e
    · subst hj
      simp [ht]
    · simp [hj, State.fibre?_setFibre_ne _ _ _ _ _ hj]
  next hn =>
    by_cases hj : j = e
    · subst hj
      simp [hn]
    · simp [hj]

/-- Waking several fibres, each in its entry, changes each of them once. -/
theorem fold_wake {f : Thread → Thread} {l : Tab Thread} (hl : (l.map Prod.fst).Nodup)
    (hs : ∀ kv ∈ l, Tab.find? (s.core c).swaps kv.1 = none) :
    let u := l.foldl (fun u kv => u.wake c kv.1 f) s
    (u.core c).sets = (s.core c).sets ∧
      ∀ j, u.fibre? c j = if j ∈ l.map Prod.fst then (s.fibre? c j).map (fun t => t.over (f t.under)) else s.fibre? c j := by
  induction l generalizing s with
  | nil => exact ⟨rfl, fun _ => rfl⟩
  | cons kv l ih =>
    obtain ⟨hkv, hl⟩ := List.nodup_cons.1 hl
    obtain ⟨hswaps, hsets⟩ := modFibre_core (s := s) (c := c) (e := kv.1) (f := fun t => t.over (f t.under))
    rw [List.foldl_cons, wake_of_entry (hs kv List.mem_cons_self)]
    obtain ⟨h1, h2⟩ := ih hl (s := s.modFibre c kv.1 fun t => t.over (f t.under))
      fun x hx => by rw [hswaps]; exact hs x (List.mem_cons_of_mem _ hx)
    refine ⟨h1.trans hsets, fun j => (h2 j).trans ?_⟩
    rw [fibre?_modFibre, List.map_cons]
    by_cases hj : j = kv.1
    · subst hj
      simp [hkv]
    · simp only [List.mem_cons, hj, false_or, if_false]

theorem resourcesFreed_core {d : Nat} : (s.resourcesFreed c).core d = s.core d := by
  unfold State.resourcesFreed
  split <;> rfl

/-- A thread under which nothing stands is replaced whole. -/
theorem over_of_under_self (h : v.under = v) : v.over u = u := by
  unfold Thread.over
  split
  next r st' w hw =>
    have hw' := congrArg Thread.why h
    simp only [Thread.under, hw] at hw'
    cases hw'
  next fs fb st' w hw =>
    have hw' := congrArg Thread.why h
    simp only [Thread.under, hw] at hw'
    cases hw'
  next w hw =>
    have hw' := congrArg Thread.why h
    simp only [Thread.under, hw] at hw'
    cases hw'
  next => rfl

/-! ### What a released fibre is -/

/-- A vote's result leaves all but registers, predicates and latches. -/
theorem voteResult_frame {i : Instr} {n : Nat} :
    ∃ r p q l, t.voteResult i m n = { t with regs := r, preds := p, undefP := q, latches := l } := by
  unfold Thread.voteResult
  split
  · exact ⟨_, _, _, _, rfl⟩
  · exact ⟨_, _, _, _, rfl⟩
  · extract_lets v t1
    have ht1 : ∃ r, t1 = { t with regs := r } := by
      unfold t1 Thread.putPairU
      split
      · exact ⟨_, rfl⟩
      · split <;> exact ⟨_, rfl⟩
    obtain ⟨r, hr⟩ := ht1
    rw [hr]
    split <;> exact ⟨_, _, _, _, rfl⟩
  · exact ⟨_, _, _, _, rfl⟩

variable {hb : List Nat} {n : Nat}

theorem released_of_vote {i : Instr} (h : t.why = .vote k i) :
    t.released st hb = ((t.voteResult i st.arrived st.trues).gain hb).resumeNext := by
  simp [Thread.released, h]

theorem released_of_sbar (h : t.why = .sbar k) : t.released st hb = (t.gain hb).resumeNext := by simp [Thread.released, h]

/-- A released fibre goes on at its next word, having acquired `hb`. -/
theorem released_goesOn : (t.released st hb).st = .ready ∧ (t.released st hb).why = .none ∧
    (t.released st hb).pc = t.advance.pc ∧ (t.released st hb).clause = t.advance.clause ∧
    ∀ n ∈ hb, n ∈ (t.released st hb).view.hb := by
  have key : ∀ u : Thread, u.pc = t.pc → u.clause = t.clause →
      (u.gain hb).resumeNext.st = .ready ∧ (u.gain hb).resumeNext.why = .none ∧ (u.gain hb).resumeNext.pc = t.advance.pc ∧
        (u.gain hb).resumeNext.clause = t.advance.clause ∧ ∀ n ∈ hb, n ∈ (u.gain hb).resumeNext.view.hb := fun u hp hc => by
    obtain ⟨h1, h2⟩ := advance_congr (u := u.gain hb) hp hc
    exact ⟨rfl, rfl, h1, h2, fun n hn => by simp [Thread.resumeNext, Thread.gain, View.gain, mem_listUnion, hn]⟩
  unfold Thread.released
  split
  next i _ =>
    obtain ⟨r, p, q, l, hv⟩ := voteResult_frame (t := t) (i := i) (m := st.arrived) (n := st.trues)
    exact key _ (by rw [hv]) (by rw [hv])
  next => exact key t rfl rfl

@[simp] theorem regs_resumeNext_gain : (t.gain hb).resumeNext.regs = t.regs := regs_advance
@[simp] theorem preds_resumeNext_gain : (t.gain hb).resumeNext.preds = t.preds := preds_advance

theorem pred_congr (h : u.preds = t.preds) (n : Nat) : u.pred n = t.pred n := by simp [Thread.pred, h]

theorem pred_setPred_self {q : Pred} : (t.setPred n q).pred n = q := by simp [Thread.pred, Thread.setPred]

/-- What PANY and PALL write. -/
theorem pred_released_pany {o : VoteO} (h : t.why = .vote k (.pany o)) :
    (t.released st hb).pred o.p.toNat = boolPred (decide (0 < st.trues)) := by
  rw [released_of_vote h, pred_congr preds_resumeNext_gain]
  exact pred_setPred_self.trans (by simp [boolPred])

theorem pred_released_pall {o : VoteO} (h : t.why = .vote k (.pall o)) :
    (t.released st hb).pred o.p.toNat = boolPred (decide (st.trues = st.arrived)) := by
  rw [released_of_vote h, pred_congr preds_resumeNext_gain]
  exact pred_setPred_self.trans (by simp [boolPred])

/-- What PCNT writes. -/
theorem reg_released_pcnt {o : PcntO} (h : t.why = .vote k (.pcnt o)) (hk : t.kind = .fibre) (hd : o.d.nwb = false) :
    (t.released st hb).reg o.d.n.toNat = .u (BitVec.ofNat 64 st.trues) false ∧ (t.released st hb).reg (o.d.n.toNat + 1) = .p := by
  have hr : (t.voteResult (.pcnt o) st.arrived st.trues).regs =
      Tab.set (Tab.set t.regs o.d.n.toNat (.u (BitVec.ofNat 64 st.trues) false)) (o.d.n.toNat + 1) .p := by
    simp only [Thread.voteResult, hd, Thread.putPairU, hk]
    cases t.clause <;> rfl
  rw [released_of_vote h]
  simp [Thread.reg, hr, Tab.get_set]

/-! ### Arrivals -/

/-- The thread of a fibre that waits at a barrier since this instruction. -/
def arrivedThread (s : State) (t : Thread) (why : Why) : Thread := { t.progressed with st := .wait, why := why, since := waitFrom s t }

/-- The state in which fibre (c, e) has arrived at the barrier of set k, `n` of its indices voting true. -/
def arrivedState (s : State) (c e k : Nat) (t : Thread) (st : SetSt) (n : Nat) (why : Why) : State :=
  s.setCore c { s.core c with sets := Tab.set (s.core c).sets k ⟨st.ctx, st.arrived + t.count, st.trues + n⟩
                              fibres := Tab.set (s.core c).fibres e (arrivedThread s t why) }

theorem arrive_eq {why : Why} (ht : s.turn = .fibre c e) (h : Tab.find? (s.core c).sets k = some st) :
    (s.setFibre c e t.progressed).arrive k n why = (arrivedState s c e k t st n why).checkSet c k := by
  have hget : Tab.get (s.core c).sets ⟨t.progressed.ctx, 0, 0⟩ k = st := by simp [Tab.get, h]
  have hturn : (s.setFibre c e t.progressed).turn = .fibre c e := ht
  simp only [State.arrive, hturn, cur?_fibre hturn, State.fibre?_setFibre_self]
  refine congrArg (State.checkSet · c k) ?_
  simp only [State.setFibre, State.core_setCore_self, setCore_setCore, hget]
  unfold State.waitCur
  simp only [State.cur?, State.turn_setCore, ht, State.fibre?, State.core_setCore_self, Tab.find?_set_self, State.setCur, State.setFibre,
    setCore_setCore, Tab.set_set]
  rfl

theorem mem_waiters (hr : rising x.fibres = true) (h : Tab.find? x.fibres j = some v) :
    j ∈ (x.waiters k).map Prod.fst ↔ k ∈ v.sets ∧ v.atBarrier k = true := by
  simp only [Core.waiters, List.mem_map, List.mem_filter, Bool.and_eq_true, List.contains_iff_mem]
  constructor
  · rintro ⟨⟨j', v'⟩, ⟨hm, hw⟩, rfl⟩
    have := Tab.find?_of_mem hr hm
    rw [h] at this
    cases this
    exact hw
  · exact fun hw => ⟨(j, v), ⟨Tab.mem_of_find? h, hw⟩, rfl⟩

/-- 02 R65: with the last arrival every waiter of the core is released, and no other fibre changes. -/
theorem checkSet_releases (h : Tab.find? (s.core c).sets k = some st) (ha : st.arrived = (s.core c).members k)
    (hp : 0 < st.arrived) (hr : rising (s.core c).fibres = true)
    (hw : ∀ kv ∈ (s.core c).waiters k, Tab.find? (s.core c).swaps kv.1 = none ∧ kv.2.under = kv.2) :
    Tab.find? ((s.checkSet c k).core c).sets k = some ⟨st.ctx, 0, 0⟩ ∧
      ∀ j v, s.fibre? c j = some v → (s.checkSet c k).fibre? c j =
        some (if k ∈ v.sets ∧ v.atBarrier k = true then v.released st (s.barrierHb c k) else v) := by
  let x := { s.core c with sets := Tab.set (s.core c).sets k ⟨st.ctx, 0, 0⟩ }
  obtain ⟨hsets, hfib⟩ := fold_wake (s := s.setCore c x) (c := c) (l := (s.core c).waiters k)
    (f := Thread.released st (s.barrierHb c k)) (nodup_keys (rising_filter hr))
    (by simpa [x] using fun a b hm => (hw (a, b) hm).1)
  rw [checkSet_complete h ha hp]
  refine ⟨?_, fun j v hv => ?_⟩
  · rw [resourcesFreed_core, hsets]
    simp [x, Tab.find?_set_self]
  · have hv' : (s.setCore c x).fibre? c j = some v := by simpa [State.fibre?, x] using hv
    rw [fibre?_eq, resourcesFreed_core, ← fibre?_eq, hfib, hv']
    by_cases hj : k ∈ v.sets ∧ v.atBarrier k = true
    · have hmem := (mem_waiters hr hv).2 hj
      have hun : v.under = v := (hw (j, v) (by
        simp [Core.waiters, Tab.mem_of_find? hv, hj])).2
      rw [if_pos hmem, if_pos hj, Option.map_some, over_of_under_self hun, hun]
    · rw [if_neg fun hm => hj ((mem_waiters hr hv).1 hm), if_neg hj]

/-! ### The state after an arrival -/

section
variable {why : Why} {n : Nat}

theorem core_arrivedState : (arrivedState s c e k t st n why).core c =
    { s.core c with sets := Tab.set (s.core c).sets k ⟨st.ctx, st.arrived + t.count, st.trues + n⟩
                    fibres := Tab.set (s.core c).fibres e (arrivedThread s t why) } := by
  simp [arrivedState]

theorem sets_arrivedState : Tab.find? ((arrivedState s c e k t st n why).core c).sets k =
    some ⟨st.ctx, st.arrived + t.count, st.trues + n⟩ := by
  simp [core_arrivedState, Tab.find?_set_self]

theorem fibre?_arrivedState : (arrivedState s c e k t st n why).fibre? c j =
    if j = e then some (arrivedThread s t why) else s.fibre? c j := by
  simp [fibre?_eq, core_arrivedState, Tab.find?_set]

theorem members_arrivedState (hr : rising (s.core c).fibres = true) (h : s.fibre? c e = some t) :
    ((arrivedState s c e k t st n why).core c).members k = (s.core c).members k :=
  members_set hr h (u := arrivedThread s t why) rfl _ (by rw [core_arrivedState])

theorem mem_barrierHb {m : Nat} (h : s.fibre? c j = some v) (hk : k ∈ v.sets)
    (hb : v.atBarrier k = true) (hm : m ∈ s.hbAll v) : m ∈ s.barrierHb c k :=
  mem_foldl_listUnion.2 (.inr ⟨(j, v), by simp [Core.waiters, Tab.mem_of_find? h, hk, hb], hm⟩)

end

/-- SBAR of a member. -/
theorem exec_sbar_member (h : OnFibre s c e t) (hf : (t.src s.draw key false).form = .u kv) (hc : (t.src s.draw key false).clean = true)
    (hm : t.memberOf kv = some k) (hs : Tab.find? (s.core c).sets k = some st) :
    Machine.exec (.sbar ⟨key⟩) s = .next ((arrivedState s c e k t st 0 (.sbar k)).checkSet c k) := by
  obtain ⟨ht, hft, -⟩ := h
  have hcur : s.cur? = some t := (cur?_fibre ht).trans hft
  have hturn : (s.setFibre c e t.progressed).turn = .fibre c e := ht
  have hm' : t.progressed.memberOf kv = some k := hm
  show execSbar ⟨key⟩ s = _
  rw [execSbar, needU_eq hcur hf hc, State.progressed_eq s t hcur, setCur_fibre ht]
  simp only [hturn, cur?_fibre hturn, State.fibre?_setFibre_self, hm', arrive_eq ht hs]

/-- A vote of a member. -/
theorem vote_member {a : BitVec 6} {na : Bool} {i : Instr} (h : OnFibre s c e t) (hf : (t.src s.draw key false).form = .u kv)
    (hc : (t.src s.draw key false).clean = true) (hm : t.memberOf kv = some k) (hs : Tab.find? (s.core c).sets k = some st) :
    s.vote a na key i =
      (arrivedState s c e k t st (t.places.filter fun p => t.predAt (t.psrc a na) p).length (.vote k i)).checkSet c k := by
  obtain ⟨ht, hft, hk⟩ := h
  have hcur : s.cur? = some t := (cur?_fibre ht).trans hft
  have hm' : t.progressed.memberOf kv = some k := hm
  have hk' : t.progressed.kind = .fibre := hk
  rw [State.vote, needU_eq hcur hf hc]
  simp only [hcur, Option.map_some, hk, if_true, hk', setCur_fibre ht, hm', ne_eq, not_true_eq_false, if_false, arrive_eq ht hs]
  rfl

end
end Sys2Proof.Machine
end

section
/-! O22 and O23, from the rules about sets. -/

namespace Sys2Proof.Machine

open Sys2Proof Sys2Proof.Spec

section
variable {s : State} {c e k : Nat} {t : Thread} {st : SetSt} {kv : Word} {key : Src}

/-! ### Barriers and votes of members (O23) -/

theorem under_arrivedThread {why : Why} (h : why = .sbar k ∨ ∃ i, why = .vote k i) :
    (arrivedThread s t why).under = arrivedThread s t why ∧ (arrivedThread s t why).atBarrier k = true := by
  rcases h with rfl | ⟨i, rfl⟩ <;> simp [arrivedThread, Thread.under, Thread.atBarrier, Thread.waitsOn]

/-- What a release makes of the fibre that has just arrived. -/
theorem arrived_goesOn {why : Why} {st' : SetSt} {hb : List Nat} :
    let v := (arrivedThread s t why).released st' hb
    v.st = .ready ∧ v.why = .none ∧ v.pc = t.advance.pc ∧ v.clause = t.advance.clause ∧ ∀ n ∈ hb, n ∈ v.view.hb := by
  obtain ⟨hpc, hcl⟩ := advance_congr (t := t) (u := arrivedThread s t why) rfl rfl
  rw [← hpc, ← hcl]
  exact released_goesOn

theorem arrived_sbar {st' : SetSt} {hb : List Nat} :
    let v := (arrivedThread s t (.sbar k)).released st' hb
    v.regs = t.regs ∧ v.preds = t.preds := by
  intro v
  rw [show v = _ from released_of_sbar (k := k) rfl]
  exact ⟨regs_resumeNext_gain, preds_resumeNext_gain⟩

/-- 02 R64: an arrival while members are missing. -/
theorem checkSet_arrived_early {n : Nat} {why : Why} (h : s.fibre? c e = some t) (hr : rising (s.core c).fibres = true)
    (hlt : st.arrived + t.count < (s.core c).members k) :
    (arrivedState s c e k t st n why).checkSet c k = arrivedState s c e k t st n why := by
  have hm := members_arrivedState (st := st) (k := k) (n := n) (why := why) hr h
  exact checkSet_eq_self sets_arrivedState (by omega) (.inr (by simp only; omega))

/-- 02 R65: the last arrival releases every waiter: those that waited, and the fibre itself. -/
theorem checkSet_arrived_last {n : Nat} {why : Why} (h : s.fibre? c e = some t) (hr : rising (s.core c).fibres = true)
    (hk : k ∈ t.sets) (hw : why = .sbar k ∨ ∃ i, why = .vote k i) (hn : st.arrived + t.count = (s.core c).members k)
    (hp : 0 < t.count) (hsw : Tab.find? (s.core c).swaps e = none)
    (hwait : ∀ j v, s.fibre? c j = some v → j ≠ e → Tab.find? (s.core c).swaps j = none ∧ v.under = v) :
    let a := arrivedState s c e k t st n why
    let st' : SetSt := ⟨st.ctx, st.arrived + t.count, st.trues + n⟩
    Tab.find? ((a.checkSet c k).core c).sets k = some ⟨st.ctx, 0, 0⟩ ∧
      (a.checkSet c k).fibre? c e = some ((arrivedThread s t why).released st' (a.barrierHb c k)) ∧
      ∀ j v, s.fibre? c j = some v → j ≠ e → (a.checkSet c k).fibre? c j =
        some (if k ∈ v.sets ∧ v.atBarrier k = true then v.released st' (a.barrierHb c k) else v) := by
  intro a st'
  obtain ⟨hun, hat⟩ := under_arrivedThread (s := s) (t := t) hw
  have hra : rising (a.core c).fibres = true := by
    rw [core_arrivedState]
    exact rising_set hr
  have hm := members_arrivedState (st := st) (k := k) (n := n) (why := why) hr h
  have hfe : a.fibre? c e = some (arrivedThread s t why) := by simp [a, fibre?_arrivedState]
  have hfj : ∀ j, j ≠ e → a.fibre? c j = s.fibre? c j := fun j hj => by simp [a, fibre?_arrivedState, hj]
  have hswaps : (a.core c).swaps = (s.core c).swaps := by rw [core_arrivedState]
  obtain ⟨h1, h2⟩ := checkSet_releases (s := a) (st := st') sets_arrivedState (by rw [hm]; exact hn) (by simp only [st']; omega) hra
    fun kv hkv => by
      obtain ⟨j, v⟩ := kv
      have hv : a.fibre? c j = some v := Tab.find?_of_mem hra (List.mem_of_mem_filter hkv)
      by_cases hj : j = e
      · subst hj
        rw [hfe] at hv
        cases hv
        exact ⟨by rw [hswaps]; exact hsw, hun⟩
      · rw [hswaps]
        exact hwait j v ((hfj j hj).symm.trans hv) hj
  refine ⟨h1, ?_, fun j v hv hj => h2 j v ((hfj j hj).trans hv)⟩
  rw [h2 e _ hfe, if_pos ⟨hk, hat⟩]

/-- 02 R65: in a fibre alone in its core. -/
theorem checkSet_arrived_lone {n : Nat} {why : Why} (hk : k ∈ t.sets) (hw : why = .sbar k ∨ ∃ i, why = .vote k i)
    (ha : st.arrived = 0) (hp : 0 < t.count) (hfib : (s.core c).fibres = [(e, t)]) (hsw : Tab.find? (s.core c).swaps e = none) :
    let a := arrivedState s c e k t st n why
    Tab.find? ((a.checkSet c k).core c).sets k = some ⟨st.ctx, 0, 0⟩ ∧ ∃ hb,
      let v := (arrivedThread s t why).released ⟨st.ctx, t.count, st.trues + n⟩ hb
      (a.checkSet c k).fibre? c e = some v ∧ v.st = .ready ∧ v.pc = t.advance.pc := by
  have hf : ∀ j v, s.fibre? c j = some v → j = e ∧ v = t := fun j v hv => by
    rw [fibre?_eq, hfib] at hv
    simpa [Tab.find?, eq_comm] using hv
  have hm : (s.core c).members k = t.count := by simp [members_eq_sum, hfib, countIn_of_mem hk]
  obtain ⟨h1, h2, -⟩ := checkSet_arrived_last (st := st) (n := n) (why := why) (by simp [fibre?_eq, hfib, Tab.find?])
    (by simp [hfib, rising]) hk hw (by omega) hp hsw fun j v hv hj => absurd (hf j v hv).1 hj
  rw [ha, Nat.zero_add] at h2
  obtain ⟨hst, -, hpc, -⟩ := arrived_goesOn
  exact ⟨h1, _, h2, hst, hpc⟩

/-! ### Joining and leaving (O22) -/

/-- SJOIN of a fibre that names a set. -/
theorem exec_sjoin {o : SjoinO} (h : OnFibre s c e t) (hf : (t.src s.draw o.key false).form = .u kv)
    (hc : (t.src s.draw o.key false).clean = true) (hk : setId t (kv.toNat % 2 ^ 16) = some k) :
    Machine.exec (.sjoin o) s = .next (
      if k ∈ t.sets then s.setCur (t.setPred o.p.toNat .t).advance
      else if Tab.find? (s.core c).sets k = none ∧ 256 ≤ (s.core c).sets.length then s.setCur (t.setPred o.p.toNat .f).advance
      else s.setCore c { s.core c with
        sets := if Tab.find? (s.core c).sets k = none then Tab.set (s.core c).sets k ⟨t.ctx, 0, 0⟩ else (s.core c).sets
        fibres := Tab.set (s.core c).fibres e ({ t with sets := insertAsc k t.sets }.setPred o.p.toNat .t).advance }) := by
  obtain ⟨ht, hft, -⟩ := h
  have hcur : s.cur? = some t := (cur?_fibre ht).trans hft
  show execSjoin o s = _
  rw [execSjoin, needU_eq hcur hf hc]
  simp only [ht, hcur, hk, List.contains_iff_mem, Option.isNone_iff_eq_none, Bool.and_eq_true, decide_eq_true_eq, setCore_setCore,
    State.setFibre, State.core_setCore_self]

/-- SLEAVE of a fibre that does not belong to the set. -/
theorem exec_sleave_outside (h : OnFibre s c e t) (hf : (t.src s.draw key false).form = .u kv)
    (hc : (t.src s.draw key false).clean = true) (hm : t.memberOf kv = none) : NextIs (.sleave ⟨key⟩) s t.advance := by
  obtain ⟨ht, hft, -⟩ := h
  have hcur : s.cur? = some t := (cur?_fibre ht).trans hft
  show execSleave ⟨key⟩ s = _
  rw [execSleave, needU_eq hcur hf hc]
  simp only [ht, hcur, hm, State.advance_eq s t hcur]

/-- SBAR of a fibre that does not belong to the set: a progress event. -/
theorem exec_sbar_outside (h : OnFibre s c e t) (hf : (t.src s.draw key false).form = .u kv)
    (hc : (t.src s.draw key false).clean = true) (hm : t.memberOf kv = none) : NextIs (.sbar ⟨key⟩) s t.progressed.advance := by
  obtain ⟨ht, hft, -⟩ := h
  have hcur : s.cur? = some t := (cur?_fibre ht).trans hft
  have hm' : t.progressed.memberOf kv = none := hm
  show execSbar ⟨key⟩ s = _
  rw [execSbar, needU_eq hcur hf hc, State.progressed_eq s t hcur]
  simp only [State.turn_setCur, ht, State.cur?_setCur s _ t hcur, hm', setCur_advance hcur]

/-- SLEAVE of a fibre that leaves other members behind, none of which waits at the barrier. -/
theorem exec_sleave_member (h : OnFibre s c e t) (hf : (t.src s.draw key false).form = .u kv)
    (hc : (t.src s.draw key false).clean = true) (hm : t.memberOf kv = some k) (hs : Tab.find? (s.core c).sets k = some st)
    (ha : st.arrived = 0) (hv : ∃ j v, j ≠ e ∧ s.fibre? c j = some v ∧ k ∈ v.sets ∧ 0 < v.count) :
    NextIs (.sleave ⟨key⟩) s { t with sets := t.sets.filter (· ≠ k) }.advance := by
  obtain ⟨ht, hft, -⟩ := h
  obtain ⟨j, v, hj, hfv, hkv, hcv⟩ := hv
  have hcur : s.cur? = some t := (cur?_fibre ht).trans hft
  let t1 : Thread := { t with sets := t.sets.filter (· ≠ k) }
  have hcheck : (s.setFibre c e t1).checkSet c k = s.setFibre c e t1 :=
    checkSet_eq_self (st := st) (by simpa [State.setFibre] using hs)
      (members_pos (j := j) (v := v) ((State.fibre?_setFibre_ne s c e j t1 hj).trans hfv) hkv hcv) (.inl ha)
  show execSleave ⟨key⟩ s = _
  rw [execSleave, needU_eq hcur hf hc]
  simp only [ht, hcur, hm, setCur_fibre ht]
  rw [show State.checkSet (State.setFibre s c e _) c k = _ from hcheck, ← setCur_fibre ht, setCur_advance hcur, setCur_fibre ht]

/-! ### Votes outside a set (O22) -/

/-- A vote of a fibre that does not belong to the set. -/
theorem vote_outside {a : BitVec 6} {na : Bool} {i : Instr} (h : OnFibre s c e t) (hf : (t.src s.draw key false).form = .u kv)
    (hc : (t.src s.draw key false).clean = true) (hm : t.memberOf kv = none) :
    s.vote a na key i = s.setCur (t.progressed.voteResult i 0 0).advance := by
  obtain ⟨ht, hft, hk⟩ := h
  have hcur : s.cur? = some t := (cur?_fibre ht).trans hft
  have hm' : t.progressed.memberOf kv = none := hm
  have hk' : t.progressed.kind = .fibre := hk
  rw [State.vote, needU_eq hcur hf hc]
  simp only [hcur, Option.map_some, hk, if_true, hk', hm', ne_eq, not_true_eq_false, if_false, setCur_setCur hcur]

/-- A management core votes alone, with the value of its one index. -/
theorem vote_mc {a : BitVec 6} {na : Bool} {i : Instr} (h : OnMc s k t) (hf : (t.src s.draw key false).form = .u kv)
    (hc : (t.src s.draw key false).clean = true) :
    s.vote a na key i = s.setCur (t.voteResult i 1 (if t.predAt (t.psrc a na) 0 then 1 else 0)).advance := by
  obtain ⟨ht, rfl, hk, hex, hbox⟩ := h
  have hcur : s.cur? = some (s.mc k).th := by simp [State.cur?, ht]
  have hpl : (s.mc k).th.places = [0] := by simp [Thread.places, hex, hbox]; decide
  rw [State.vote, needU_eq hcur hf hc]
  simp only [hcur, Option.map_some, hk, if_false, reduceCtorEq, ne_eq, not_false_eq_true, if_true, setCur_setCur hcur, hpl]
  cases h : (s.mc k).th.predAt ((s.mc k).th.psrc a na) 0 <;> simp [h]

/-- PCNT's destination. -/
theorem holds_pcnt {o : PcntO} {m n : Nat} (hk : t.kind ≠ .stream) :
    Holds t (t.voteResult (.pcnt o) m n) o.d .w64 (BitVec.ofNat 64 n) := by
  have hr : (t.voteResult (.pcnt o) m n).regs = if o.d.nwb then t.regs else
      Tab.set (Tab.set t.regs o.d.n.toNat (.u (BitVec.ofNat 64 n) false)) (o.d.n.toNat + 1) .p := by
    simp only [Thread.voteResult, Thread.putPairU, hk, if_false]
    cases t.clause <;> cases o.d.nwb <;> rfl
  unfold Holds
  split
  next hd => rw [hr, if_pos hd]
  next hd => simp [RW.is64, Thread.reg, hr, hd, Tab.get_set]

end

/-- Settles O23: an arrival leaves `arrivedState`, which the check of the set leaves as it is while members are missing, and in which
it releases every waiter with the last one. -/
theorem barrierArrival : Obligations.BarrierArrival := by
  intro s c e k t st kv key hon hform hclean hset hk hst
  have hmem := memberOf_of_mem hset hk
  have hexec := exec_sbar_member hon hform hclean hmem hst
  obtain ⟨hturn, hft, hkind⟩ := id hon
  refine ⟨fun hr hlt => ?_, fun hr hn hp hsw hun => ?_, fun ha htr hp hfib hsw => ⟨?_, fun o ho => ?_, fun o ho hd => ?_⟩⟩
  · rw [checkSet_arrived_early hft hr hlt] at hexec
    exact ⟨_, hexec, by simp [fibre?_arrivedState, arrivedThread], sets_arrivedState, fun j hj => by simp [fibre?_arrivedState, hj]⟩
  · intro waits
    obtain ⟨h1, he, hothers⟩ := checkSet_arrived_last (st := st) (n := 0) (why := .sbar k) hft hr hk (.inl rfl) hn hp (hsw e)
      fun j v hv _ => ⟨hsw j, hun j v hv⟩
    have hbe : ∀ n ∈ s.hbAll t, n ∈ (arrivedState s c e k t st 0 (.sbar k)).barrierHb c k := fun n =>
      mem_barrierHb (s := arrivedState s c e k t st 0 (.sbar k)) (j := e) (v := arrivedThread s t (.sbar k))
        (by simp [fibre?_arrivedState]) hk (under_arrivedThread (.inl rfl)).2
    have hbj : ∀ j v, waits j v → ∀ n ∈ s.hbAll v, n ∈ (arrivedState s c e k t st 0 (.sbar k)).barrierHb c k :=
      fun j v ⟨hv, hj, hkv, hat⟩ n =>
        mem_barrierHb (s := arrivedState s c e k t st 0 (.sbar k)) (j := j) (v := v) (by simp [fibre?_arrivedState, hj, hv]) hkv hat
    have hb : ∀ n, n ∈ s.hbAll t ∨ (∃ j' v', waits j' v' ∧ n ∈ s.hbAll v') →
        n ∈ (arrivedState s c e k t st 0 (.sbar k)).barrierHb c k := by
      rintro n (hn | ⟨j', v', hw, hn⟩)
      · exact hbe n hn
      · exact hbj j' v' hw n hn
    refine ⟨_, hexec, h1, ?_, fun j v hv hj hw => ?_⟩
    · rintro j v (⟨hv, hj, hw⟩ | ⟨rfl, rfl⟩)
      · obtain ⟨hst1, hwhy, hpc, hcl, hview⟩ := released_goesOn (t := v) (st := ⟨st.ctx, st.arrived + t.count, st.trues⟩)
          (hb := (arrivedState s c e k t st 0 (.sbar k)).barrierHb c k)
        refine ⟨_, (hothers j v hv hj).trans (congrArg some (if_pos hw)), hst1, hwhy, hpc, hcl, fun n h => hview n (hb n h), ?_,
          fun o _ => pred_released_pany, fun o _ h => (pred_released_pall h).trans (by rw [hn]; rfl)⟩
        rintro (h | h)
        · exact absurd h hj
        · rw [released_of_sbar h]
          exact ⟨regs_resumeNext_gain, preds_resumeNext_gain⟩
      · obtain ⟨hst1, hwhy, hpc, hcl, hview⟩ := arrived_goesOn (s := s) (t := v) (why := .sbar k)
          (st' := ⟨st.ctx, st.arrived + v.count, st.trues⟩) (hb := (arrivedState s c j k v st 0 (.sbar k)).barrierHb c k)
        exact ⟨_, he, hst1, hwhy, hpc, hcl, fun n h => hview n (hb n h), fun _ => arrived_sbar, fun o h => absurd rfl h,
          fun o h => absurd rfl h⟩
    · rw [hothers j v hv hj, if_neg fun hw' => hw ⟨hv, hj, hw'⟩]
  · obtain ⟨h1, hb, he, hready, hpc⟩ :=
      checkSet_arrived_lone (s := s) (st := st) (n := 0) hk (.inl (Eq.refl (Why.sbar k))) ha hp hfib hsw
    exact ⟨_, hexec, _, he, hready, hpc, arrived_sbar.1, h1⟩
  · subst ho
    intro n
    have hvote := fun i => vote_member (a := o.a) (na := o.na) (i := i) hon hform hclean hmem hst
    have hlone := fun i => checkSet_arrived_lone (s := s) (st := st) (n := n) hk (.inr ⟨i, Eq.refl (Why.vote k i)⟩) ha hp hfib hsw
    constructor
    · obtain ⟨h1, hb, he, hready, hpc⟩ := hlone (.pany o)
      exact ⟨_, congrArg Host.Outcome.next (hvote _), _, he, hready, hpc, (pred_released_pany rfl).trans (by simp [htr]), h1⟩
    · obtain ⟨h1, hb, he, hready, hpc⟩ := hlone (.pall o)
      exact ⟨_, congrArg Host.Outcome.next (hvote _), _, he, hready, hpc, (pred_released_pall rfl).trans (by simp [htr]), h1⟩
  · subst ho
    intro n
    obtain ⟨-, hb, he, hready, hpc⟩ :=
      checkSet_arrived_lone (s := s) (st := st) (n := n) hk (.inr ⟨.pcnt o, Eq.refl (Why.vote k _)⟩) ha hp hfib hsw
    obtain ⟨hreg, hreg'⟩ := reg_released_pcnt (t := arrivedThread s t (.vote k (.pcnt o))) (st := ⟨st.ctx, t.count, st.trues + n⟩)
      (hb := hb) rfl hkind hd
    exact ⟨_, congrArg Host.Outcome.next (vote_member hon hform hclean hmem hst), _, he, hready, hpc, hreg.trans (by simp [htr]), hreg'⟩

/-- Settles O22, case by case of what the key names and the core holds. -/
theorem setMembership : Obligations.SetMembership := by
  refine ⟨fun s c e t kv key hon hform hclean => ⟨?_, ?_, ?_⟩, ?_⟩
  · rintro o k rfl hk
    have hx := exec_sjoin hon hform hclean hk
    obtain ⟨hturn, hft, hkind⟩ := hon
    refine ⟨fun hm => ?_, fun hm hn hl => ?_, fun hm hn hl => ?_, fun st hm hn => ?_⟩
    · rwa [if_pos hm] at hx
    · rwa [if_neg hm, if_pos ⟨hn, hl⟩] at hx
    · rw [if_neg hm, if_neg (by omega), if_pos hn] at hx
      refine ⟨_, hx, ?_, ?_, fun j hj => ?_⟩ <;> simp [fibre?_eq, Tab.find?_set, *]
    · rw [if_neg hm, if_neg (by simp [hn]), if_neg (by simp [hn])] at hx
      rw [NextIs, setCur_fibre hturn]
      exact hx
  · intro hout
    have hm := memberOf_of_not_mem hout
    exact ⟨exec_sleave_outside hon hform hclean hm, exec_sbar_outside hon hform hclean hm⟩
  · exact fun k st hk hm hst ha hv => exec_sleave_member hon hform hclean (memberOf_of_mem hk hm) hst ha hv
  · refine fun s t kv key hform hclean => ⟨fun c e hon hout => ⟨?_, ?_⟩, fun k hmc => ⟨?_, ?_⟩⟩
    · rintro o rfl
      have hv := fun i => vote_outside (a := o.a) (na := o.na) (i := i) hon hform hclean (memberOf_of_not_mem hout)
      exact ⟨congrArg Host.Outcome.next (hv _), congrArg Host.Outcome.next (hv _)⟩
    · rintro o rfl
      refine ⟨_, congrArg Host.Outcome.next (vote_outside hon hform hclean (memberOf_of_not_mem hout)), ?_⟩
      exact holds_pcnt (by simp [Thread.progressed, hon.2.2])
    · rintro o rfl b
      have hv := fun i => vote_mc (a := o.a) (na := o.na) (i := i) hmc hform hclean
      refine ⟨(congrArg Host.Outcome.next (hv _)).trans ?_, (congrArg Host.Outcome.next (hv _)).trans ?_⟩ <;>
        cases hb : t.predAt (t.psrc o.a o.na) 0 <;> simp [hb, b, Thread.voteResult, boolPred]
    · rintro o rfl
      refine ⟨_, congrArg Host.Outcome.next (vote_mc hmc hform hclean), ?_⟩
      have := holds_pcnt (t := t) (o := o) (m := 1) (n := if t.predAt (t.psrc o.a o.na) 0 then 1 else 0) (by simp [hmc.2.2.1])
      cases hb : t.predAt (t.psrc o.a o.na) 0 <;> simpa [hb] using this

end Sys2Proof.Machine
end

section
/-!
Words as residues: a word of width w is a number modulo 2^w, and so is its reading as an integer of a type.
-/

namespace Sys2Proof.Machine

open Sys2Proof Sys2Proof.Spec

/-! ### Words as residues -/

section
variable {w sg : Bool} {a b : Word} {u v : Int}

/-- A word as a residue of its width. -/
abbrev resOf (w : Bool) (a : Word) : ZMod (2 ^ bitsOf w) := (a.toNat : ZMod (2 ^ bitsOf w))

theorem wordOf_inj : wordOf w u = wordOf w v ↔ (u : ZMod (2 ^ bitsOf w)) = v := by
  rw [ZMod.intCast_eq_intCast_iff, Int.ModEq]
  cases w
  · have h32 : ∀ x y : BitVec 32, x.setWidth 64 = y.setWidth 64 ↔ x = y := fun x y => by
      refine ⟨fun h => ?_, fun h => h ▸ rfl⟩
      have := congrArg (BitVec.setWidth 32) h
      simpa using this
    simp only [wordOf, Bool.false_eq_true, if_false, h32, bitsOf]
    rw [← BitVec.toNat_inj]
    simp [BitVec.toNat_ofInt]
    omega
  · simp only [wordOf, if_true, bitsOf]
    rw [← BitVec.toNat_inj]
    simp [BitVec.toNat_ofInt]
    omega

theorem resOf_wordOf : resOf w (wordOf w v) = v := by
  rw [resOf, ← Int.cast_natCast, ZMod.intCast_eq_intCast_iff, Int.ModEq]
  cases w <;> simp [wordOf, bitsOf, BitVec.toNat_ofInt] <;> omega

theorem wordOf_toNat : wordOf w a.toNat = w32or w a := by
  cases w
  · apply BitVec.eq_of_toNat_eq
    simp [wordOf, w32or, low32]
  · simp [wordOf, w32or]

theorem resOf_w32or : resOf w (w32or w a) = resOf w a := by
  rw [← wordOf_toNat, resOf_wordOf, Int.cast_natCast]

theorem w32or_eq_iff : w32or w a = w32or w b ↔ resOf w a = resOf w b := by
  rw [← wordOf_toNat, ← wordOf_toNat, wordOf_inj, Int.cast_natCast, Int.cast_natCast]

theorem w32or_wordOf : w32or w (wordOf w v) = wordOf w v := by
  rw [← wordOf_toNat, wordOf_inj, Int.cast_natCast]
  exact resOf_wordOf

theorem w32or_w32or : w32or w (w32or w a) = w32or w a := w32or_eq_iff.2 resOf_w32or

theorem resOf_add : resOf w (a + b) = resOf w a + resOf w b := by
  simp only [resOf, ← Nat.cast_add, BitVec.toNat_add]
  rw [ZMod.natCast_eq_natCast_iff, Nat.ModEq]
  cases w <;> simp [bitsOf]

theorem resOf_sub : resOf w (a - b) = resOf w a - resOf w b := by
  rw [eq_sub_iff_add_eq, ← resOf_add]
  simp

theorem signedOf_cast : (signedOf w a : ZMod (2 ^ bitsOf w)) = resOf w a := by
  rw [resOf, ← Int.cast_natCast, ZMod.intCast_eq_intCast_iff, Int.ModEq]
  cases w
  · simpa [signedOf, bitsOf, BitVec.toInt_eq_toNat_bmod] using Int.bmod_emod (x := (a.toNat : Int) % 4294967296) (m := 4294967296)
  · simpa [signedOf, bitsOf, BitVec.toInt_eq_toNat_bmod] using Int.bmod_emod (x := (a.toNat : Int)) (m := 18446744073709551616)

theorem typedOf_cast : (typedOf w sg a : ZMod (2 ^ bitsOf w)) = resOf w a := by
  cases sg
  · cases w
    · simp only [typedOf, Bool.false_eq_true, if_false, Int.cast_natCast]
      exact resOf_w32or (w := false)
    · simp [typedOf]
  · exact signedOf_cast

theorem wordOf_typedOf : wordOf w (typedOf w sg a) = w32or w a := by
  rw [← wordOf_toNat, wordOf_inj, typedOf_cast, Int.cast_natCast]

theorem strideOf_cast : (strideOf w v : ZMod (2 ^ bitsOf w)) = v := by
  cases w
  · rw [ZMod.intCast_eq_intCast_iff, Int.ModEq]
    simpa [strideOf, bitsOf, BitVec.toInt_ofInt] using Int.bmod_emod (x := v) (m := 4294967296)
  · rfl

end

end Sys2Proof.Machine
end

section
/-!
Operands: an operand whose form tells its values (`Opd.Faithful`), and what the operations of 02 R41 make of such operands
(`Opd.Yields`).
-/

namespace Sys2Proof.Machine

open Sys2Proof Sys2Proof.Spec

/-! ### Operands whose form tells their values -/

/-- A stride that a register holds (02 R40). -/
def IsStride (s : Int) : Prop := -(2 ^ 31) ≤ s ∧ s < 2 ^ 31

/-- The values of an operand of width `w` are those that its form tells: one for U, and for A those of base and strides at the places
of the thread's frame (02 R40). -/
def Opd.Faithful (t : Thread) (w : Bool) (x : Opd) : Prop :=
  match x.form with
  | .u b => ∀ p, p < t.frame.count → x.val p = b
  | .a b sx sy sz => w32or w b = b ∧ (IsStride sx ∧ IsStride sy ∧ IsStride sz) ∧
      ∀ p, p < t.frame.count → x.val p = t.affAt w b sx sy sz p
  | .e => True

/-- A result of width `w` that carries no poison, is what its form tells, and has the values `f`. -/
structure Opd.Yields (t : Thread) (w : Bool) (r : Opd) (f : Nat → Word) : Prop where
  clean : r.clean = true
  faithful : r.Faithful t w
  val : ∀ p, p < t.frame.count → w32or w (r.val p) = w32or w (f p)

section
variable {t : Thread} {w sub : Bool} {x y r : Opd} {b : Word} {sx sy sz k : Int} {p : Nat} {f : Nat → Word}

theorem Opd.clean_iff : x.clean = true ↔ x.pAll = false ∧ x.pL = [] := by simp [Opd.clean]

theorem clean_ofU : (Opd.ofU b).clean = true := rfl

theorem faithful_ofU {po : Bool} : (Opd.ofU b po).Faithful t w := fun _ _ => rfl

theorem faithful_ofE {v : Nat → Word} {po : Bool} {l : List Nat} : Opd.Faithful t w ⟨.e, v, po, l⟩ := trivial

theorem isStride_toInt (s : BitVec 32) : IsStride s.toInt := ⟨s.le_toInt, s.toInt_lt⟩

theorem IsStride.toInt_bvInt32 (h : IsStride k) : (bvInt32 k).toInt = k := by
  obtain ⟨h1, h2⟩ := h
  simp only [bvInt32, BitVec.toInt_ofInt, Int.bmod_def]
  split <;> omega

theorem isStride_strideOf (h : strideOk w k = true) : IsStride (strideOf w k) := by
  cases w
  · exact isStride_toInt _
  · simpa [strideOk, strideOf, IsStride] using h

theorem resOf_affAt : resOf w (t.affAt w b sx sy sz p) =
    resOf w b + sx * (t.idxAt p).x + sy * (t.idxAt p).y + sz * (t.idxAt p).z := by
  rw [Thread.affAt, resOf_wordOf]
  push_cast
  rfl

theorem w32or_affAt : w32or w (t.affAt w b sx sy sz p) = t.affAt w b sx sy sz p := w32or_wordOf

/-- The base counts in its width alone. -/
theorem affAt_w32or : t.affAt w (w32or w b) sx sy sz p = t.affAt w b sx sy sz p := by
  rw [← w32or_affAt, ← w32or_affAt (b := b), w32or_eq_iff, resOf_affAt, resOf_affAt, resOf_w32or]

theorem affAt_zero : t.affAt w b 0 0 0 p = w32or w b := by
  rw [← w32or_affAt, w32or_eq_iff, resOf_affAt]
  simp

theorem faithful_ofA (hx : IsStride sx) (hy : IsStride sy) (hz : IsStride sz) : (Opd.ofA t w b sx sy sz).Faithful t w := by
  unfold Opd.ofA
  split
  · exact faithful_ofU
  · exact ⟨w32or_w32or, ⟨hx, hy, hz⟩, fun p _ => affAt_w32or.symm⟩

/-- The value of an operand read as A, whatever its strides are. -/
theorem val_ofA : (Opd.ofA t w b sx sy sz).val p = t.affAt w b sx sy sz p := by
  unfold Opd.ofA
  split
  next h =>
    simp only [Bool.and_eq_true, decide_eq_true_eq] at h
    obtain ⟨⟨rfl, rfl⟩, rfl⟩ := h
    exact affAt_zero.symm
  next => rfl

/-- A value made by base and strides. -/
theorem Opd.Faithful.resOf_val (h : x.Faithful t w) (hl : x.lin = some (b, sx, sy, sz)) (hp : p < t.frame.count) :
    resOf w (x.val p) = resOf w b + sx * (t.idxAt p).x + sy * (t.idxAt p).y + sz * (t.idxAt p).z := by
  unfold Opd.Faithful at h
  unfold Opd.lin at hl
  split at hl
  next a hf =>
    simp only [hf] at h
    simp only [Option.some.injEq, Prod.mk.injEq] at hl
    obtain ⟨rfl, rfl, rfl, rfl⟩ := hl
    simp [h p hp]
  next hf =>
    simp only [hf] at h
    simp only [Option.some.injEq, Prod.mk.injEq] at hl
    obtain ⟨rfl, rfl, rfl, rfl⟩ := hl
    rw [h.2.2 p hp, resOf_affAt]
  next => exact nomatch hl

/-! What sources read. -/

theorem faithful_read32 {n : Nat} : (t.read32 n).Faithful t false := by
  unfold Thread.read32
  split
  · exact faithful_ofU
  · exact faithful_ofA (isStride_toInt _) (isStride_toInt _) (isStride_toInt _)
  · exact faithful_ofE
  · split
    · exact faithful_ofU
    · exact faithful_ofE
    · exact faithful_ofU

theorem Opd.faithful_pair : (x.pair y).Faithful t w := by
  unfold Opd.pair
  split
  · exact faithful_ofU
  · exact faithful_ofE

theorem faithful_read64 {n : Nat} : (t.read64 n).Faithful t true := by
  unfold Thread.read64
  split
  · split <;> exact faithful_ofU
  · split
    · exact faithful_ofU
    · exact faithful_ofA (isStride_toInt _) (isStride_toInt _) (isStride_toInt _)
    · exact Opd.faithful_pair

theorem faithful_readLatch {draw j : Nat} : (t.readLatch draw j w).Faithful t w := by
  unfold Thread.readLatch
  split
  · exact faithful_ofU
  · extract_lets wide ext
    split
    · exact faithful_ofU
    · split
      · exact faithful_ofE
      · exact faithful_ofA (isStride_toInt _) (isStride_toInt _) (isStride_toInt _)
    · exact faithful_ofE

/-- Every source is what its form tells. -/
theorem faithful_src {draw : Nat} {a : Src} : (t.src draw a w).Faithful t w := by
  have h0 : IsStride 0 := ⟨by decide, by decide⟩
  have h1 : IsStride 1 := ⟨by decide, by decide⟩
  have hix : ∀ {sx sy sz : Int}, IsStride sx → IsStride sy → IsStride sz →
      (if t.kind = .fibre then Opd.ofA t w 0 sx sy sz else Opd.ofU 0).Faithful t w := fun hx hy hz => by
    split
    · exact faithful_ofA hx hy hz
    · exact faithful_ofU
  cases a with
  | reg n =>
    cases w
    · exact faithful_read32
    · exact faithful_read64
  | latch j => exact faithful_readLatch
  | ix => exact hix h1 h0 h0
  | iy => exact hix h0 h1 h0
  | iz => exact hix h0 h0 h1

/-- A register read at 32 bits has no bits above them. -/
theorem low32_read32 {n : Nat} : low32 ((t.read32 n).val p) = (t.read32 n).val p := by
  have hlow : ∀ v : Word, low32 (low32 v) = low32 v := fun v => w32or_w32or (w := false)
  have hset : ∀ v : BitVec 32, low32 (v.setWidth 64) = v.setWidth 64 := fun v => by simp [low32]
  have hshr : ∀ v : Word, low32 (v >>> 32) = v >>> 32 := fun v => by
    apply BitVec.eq_of_toNat_eq
    simp [low32, Nat.shiftRight_eq_div_pow]
    omega
  unfold Thread.read32
  split
  · exact hlow _
  · rw [val_ofA]
    exact w32or_affAt (w := false)
  · exact hset _
  · split
    · exact hshr _
    · exact hshr _
    · rfl

/-! Combining operands. -/

theorem Opd.Yields.congr {g : Nat → Word} (h : r.Yields t w f)
    (hg : ∀ p, p < t.frame.count → w32or w (f p) = w32or w (g p)) : r.Yields t w g :=
  ⟨h.clean, h.faithful, fun p hp => (h.val p hp).trans (hg p hp)⟩

/-- A source as its own result (MOV). -/
theorem Opd.Faithful.yields (h : x.Faithful t w) (hc : x.clean = true) : x.Yields t w x.val := ⟨hc, h, fun _ _ => rfl⟩

theorem yields_ofU : (Opd.ofU b).Yields t w fun _ => b := ⟨rfl, faithful_ofU, fun _ _ => rfl⟩

theorem yields_ofE : Opd.Yields t w ⟨.e, f, false, []⟩ f := ⟨rfl, faithful_ofE, fun _ _ => rfl⟩

variable {wx wy wz : Bool} {z : Opd}

theorem Opd.Faithful.val_u (h : x.Faithful t w) (hf : x.form = .u b) (hp : p < t.frame.count) : x.val p = b := by
  simp only [Opd.Faithful, hf] at h
  exact h p hp

theorem yields_map1 {g : Word → Word} (hx : x.Faithful t wx) (cx : x.clean = true) :
    (Opd.map1 g x).Yields t w fun p => g (x.val p) := by
  obtain ⟨ax, lx⟩ := Opd.clean_iff.1 cx
  unfold Opd.map1
  split
  next hf =>
    rw [ax]
    exact yields_ofU.congr fun p hp => by rw [hx.val_u hf hp]
  next =>
    rw [ax, lx]
    exact yields_ofE

theorem yields_map2 {g : Word → Word → Word} (hx : x.Faithful t wx) (hy : y.Faithful t wy) (cx : x.clean = true)
    (cy : y.clean = true) : (Opd.map2 g x y).Yields t w fun p => g (x.val p) (y.val p) := by
  obtain ⟨ax, lx⟩ := Opd.clean_iff.1 cx
  obtain ⟨ay, ly⟩ := Opd.clean_iff.1 cy
  unfold Opd.map2
  split
  next hf hg =>
    rw [ax, ay]
    exact yields_ofU.congr fun p hp => by rw [hx.val_u hf hp, hy.val_u hg hp]
  next =>
    rw [ax, ay, lx, ly]
    exact yields_ofE

theorem yields_map3 {g : Word → Word → Word → Word} (hx : x.Faithful t wx) (hy : y.Faithful t wy) (hz : z.Faithful t wz)
    (cx : x.clean = true) (cy : y.clean = true) (cz : z.clean = true) :
    (Opd.map3 g x y z).Yields t w fun p => g (x.val p) (y.val p) (z.val p) := by
  obtain ⟨ax, lx⟩ := Opd.clean_iff.1 cx
  obtain ⟨ay, ly⟩ := Opd.clean_iff.1 cy
  obtain ⟨az, lz⟩ := Opd.clean_iff.1 cz
  unfold Opd.map3
  split
  next hf hg hh =>
    rw [ax, ay, az]
    exact yields_ofU.congr fun p hp => by rw [hx.val_u hf hp, hy.val_u hg hp, hz.val_u hh hp]
  next =>
    rw [ax, ay, az, lx, ly, lz]
    exact yields_ofE

/-- 02 R41: base and strides, where these are in limits, make the values that they should. -/
theorem yields_affine (hb : w32or w b = b)
    (hf : ∀ p, p < t.frame.count → resOf w (f p) = resOf w b + sx * (t.idxAt p).x + sy * (t.idxAt p).y + sz * (t.idxAt p).z) :
    (Opd.affine t w b sx sy sz f false []).Yields t w f := by
  unfold Opd.affine
  split
  next h =>
    simp only [Bool.and_eq_true] at h
    obtain ⟨⟨hx, hy⟩, hz⟩ := h
    refine ⟨rfl, ⟨hb, ⟨isStride_strideOf hx, isStride_strideOf hy, isStride_strideOf hz⟩, fun p _ => rfl⟩, fun p hp => ?_⟩
    rw [w32or_eq_iff, hf p hp]
    simp only [resOf_affAt, strideOf_cast]
  next => exact yields_ofE

theorem Opd.lin_a (h : x.form = .a b sx sy sz) : x.lin = some (b, sx, sy, sz) := by simp [Opd.lin, h]

/-- 02 R41: IADD and ISUB. -/
theorem yields_addSub (hx : x.Faithful t w) (hy : y.Faithful t w) (cx : x.clean = true) (cy : y.clean = true) :
    (Opd.addSub t w sub x y).Yields t w fun p => if sub then x.val p - y.val p else x.val p + y.val p := by
  obtain ⟨ax, lx⟩ := Opd.clean_iff.1 cx
  obtain ⟨ay, ly⟩ := Opd.clean_iff.1 cy
  unfold Opd.addSub
  extract_lets g h
  have hg : ∀ a b, g a b = w32or w (if sub then a - b else a + b) := fun a b => by
    cases w <;> cases sub <;> rfl
  have hgr : ∀ a b, resOf w (g a b) = if sub then resOf w a - resOf w b else resOf w a + resOf w b := fun a b => by
    rw [hg, resOf_w32or]
    split
    · exact resOf_sub
    · exact resOf_add
  have hval : ∀ p, w32or w (g (x.val p) (y.val p)) = w32or w (if sub then x.val p - y.val p else x.val p + y.val p) := fun p => by
    rw [hg, w32or_w32or]
  split
  next hf hg' =>
    rw [ax, ay]
    exact yields_ofU.congr fun p hp => by rw [← hval, hx.val_u hf hp, hy.val_u hg' hp]
  next =>
    split
    next b bx by' bz c cx cy cz hlx hly =>
      rw [ax, ay, lx, ly]
      refine (yields_affine (by rw [hg, w32or_w32or]) fun p hp => ?_).congr fun p _ => hval p
      rw [hgr, hgr, hx.resOf_val hlx hp, hy.resOf_val hly hp]
      cases sub <;> simp [h] <;> ring
    next => exact (yields_map2 hx hy cx cy).congr fun p _ => hval p

/-- 02 R41: A times a U factor. -/
theorem yields_scale (hx : x.Faithful t w) (cx : x.clean = true) :
    (x.scale t w k false).Yields t w fun p => wordOf w ((x.val p).toNat * k) := by
  obtain ⟨ax, lx⟩ := Opd.clean_iff.1 cx
  unfold Opd.scale
  extract_lets g
  split
  next hf =>
    rw [ax]
    exact yields_ofU.congr fun p hp => by rw [hx.val_u hf hp]
  next hf =>
    rw [ax, lx]
    refine yields_affine w32or_wordOf fun p hp => ?_
    have hv := hx.resOf_val (Opd.lin_a hf) hp
    simp only [g, resOf_wordOf, Int.cast_mul, Int.cast_natCast]
    simp only [resOf] at hv
    rw [hv]
    ring
  next =>
    rw [ax, lx]
    exact yields_ofE

/-- 02 R41: IMUL. -/
theorem yields_mul (hx : x.Faithful t w) (hy : y.Faithful t w) (cx : x.clean = true) (cy : y.clean = true) :
    (Opd.mul t w x y).Yields t w fun p => wordOf w ((x.val p).toNat * (y.val p).toNat) := by
  obtain ⟨ax, lx⟩ := Opd.clean_iff.1 cx
  obtain ⟨ay, ly⟩ := Opd.clean_iff.1 cy
  have hword : ∀ a b : Word, wordOf w (a.toNat * signedOf w b) = wordOf w (a.toNat * b.toNat) := fun a b => by
    rw [wordOf_inj]
    push_cast
    rw [signedOf_cast]
  unfold Opd.mul
  split
  next hf =>
    rw [ay]
    exact (yields_scale hx cx).congr fun p hp => by rw [hword, hy.val_u hf hp]
  next hf hg =>
    rw [ax]
    exact (yields_scale hy cy).congr fun p hp => by rw [hword, hx.val_u hf hp, mul_comm]
  next => exact yields_map2 hx hy cx cy

/-- 02 R41: an A whose strides are zero, taken as U. -/
theorem Opd.Yields.norm (h : r.Yields t w f) : r.norm.Yields t w f := by
  unfold Opd.norm
  split
  next b hf =>
    obtain ⟨hc, hff, hv⟩ := h
    refine ⟨hc, ?_, hv⟩
    simp only [Opd.Faithful, hf] at hff
    obtain ⟨hb, -, hval⟩ := hff
    exact fun p hp => by rw [hval p hp, affAt_zero, hb]
  next => exact h

end

end Sys2Proof.Machine
end

section
/-!
Writing results (02 R42, R43, 05 R133): what a write to a register and to the latch of a word leaves, read back place by place.
-/

namespace Sys2Proof.Machine

open Sys2Proof Sys2Proof.Spec

/-! ### Writing results -/

/-- A thread that differs in registers, latches and far marks alone, its far marks being some of those it had. -/
def WritesOnly (t t' : Thread) : Prop :=
  ∃ r l f, t' = { t with regs := r, latches := l, farMarks := f } ∧ ∀ k ∈ f, k ∈ t.farMarks

section
variable {t u : Thread} {w : Bool} {rw_ : RW} {d : Dst} {r old : Opd} {v : Reg} {n m p draw : Nat} {a b : Word} {po : Bool}
  {mask : Option (List Nat)} {ps ms : List Nat}

theorem WritesOnly.refl : WritesOnly t t := ⟨t.regs, t.latches, t.farMarks, rfl, fun _ h => h⟩

theorem WritesOnly.regs {l : Tab Reg} : WritesOnly t { t with regs := l } := ⟨l, t.latches, t.farMarks, rfl, fun _ h => h⟩

theorem WritesOnly.trans {v : Thread} (h : WritesOnly t u) (h' : WritesOnly u v) : WritesOnly t v := by
  obtain ⟨r, l, f, rfl, hf⟩ := h
  obtain ⟨r', l', f', rfl, hf'⟩ := h'
  exact ⟨r', l', f', rfl, fun k hk => hf k (hf' k hk)⟩

theorem WritesOnly.ite {c : Prop} [Decidable c] {v : Thread} (h : WritesOnly t u) (h' : WritesOnly t v) :
    WritesOnly t (if c then u else v) := by
  split
  · exact h
  · exact h'

theorem separate_frame : ∃ l, t.separate n = { t with regs := l } := by
  unfold Thread.separate
  extract_lets e
  split
  · exact ⟨_, rfl⟩
  · exact ⟨_, rfl⟩
  · exact ⟨_, rfl⟩

theorem write32_frame : ∃ l, t.write32 n r = { t with regs := l } := by
  obtain ⟨l, h⟩ := separate_frame (t := t) (n := n)
  rw [Thread.write32, h]
  exact ⟨_, rfl⟩

theorem write64_frame : ∃ l, t.write64 n r = { t with regs := l } := by
  unfold Thread.write64
  split <;> exact ⟨_, rfl⟩

theorem writeReg_frame : ∃ l f, t.writeReg n rw_ mask r = { t with regs := l, farMarks := f } ∧ ∀ k ∈ f, k ∈ t.farMarks := by
  unfold Thread.writeReg
  extract_lets t' v' r'
  have ht' : ∃ f, t' = { t with farMarks := f } ∧ ∀ k ∈ f, k ∈ t.farMarks := by
    unfold t'
    split
    · exact ⟨t.farMarks, rfl, fun _ h => h⟩
    · exact ⟨_, rfl, fun k hk => List.mem_of_mem_filter hk⟩
  obtain ⟨f, hf, hsub⟩ := ht'
  rw [hf]
  split
  · exact ⟨_, f, rfl, hsub⟩
  · split
    · obtain ⟨l, hl⟩ := write64_frame (t := { t with farMarks := f }) (n := n) (r := r')
      exact ⟨l, f, hl, hsub⟩
    · obtain ⟨l, hl⟩ := write32_frame (t := { t with farMarks := f }) (n := n) (r := r')
      exact ⟨l, f, hl, hsub⟩

theorem writesOnly_separate : WritesOnly t (t.separate n) := by
  obtain ⟨l, h⟩ := separate_frame (t := t) (n := n)
  exact h ▸ .regs

theorem writesOnly_write32 : WritesOnly t (t.write32 n r) := by
  obtain ⟨l, h⟩ := write32_frame (t := t) (n := n) (r := r)
  exact h ▸ .regs

theorem writesOnly_write64 : WritesOnly t (t.write64 n r) := by
  obtain ⟨l, h⟩ := write64_frame (t := t) (n := n) (r := r)
  exact h ▸ .regs

theorem writesOnly_writeReg : WritesOnly t (t.writeReg n rw_ mask r) := by
  obtain ⟨l, f, h, hsub⟩ := writeReg_frame (t := t) (n := n) (rw_ := rw_) (mask := mask) (r := r)
  exact ⟨l, t.latches, f, h, hsub⟩

theorem latches_writeReg : (t.writeReg n rw_ mask r).latches = t.latches := by
  obtain ⟨l, f, h, -⟩ := writeReg_frame (t := t) (n := n) (rw_ := rw_) (mask := mask) (r := r)
  rw [h]

theorem writesOnly_writeLatch : WritesOnly t (t.writeLatch draw rw_ mask r) := by
  unfold Thread.writeLatch
  split
  · exact .refl
  · refine ⟨t.regs, _, _, rfl, fun k hk => ?_⟩
    split at hk
    · exact hk
    · exact List.mem_of_mem_filter hk

theorem writesOnly_putResult : WritesOnly t (t.putResult draw d rw_ mask r) :=
  (WritesOnly.ite .refl writesOnly_writeReg).trans writesOnly_writeLatch

theorem WritesOnly.frame (h : WritesOnly t u) : u.frame = t.frame := by
  obtain ⟨_, _, _, rfl, -⟩ := h
  rfl

theorem WritesOnly.active (h : WritesOnly t u) : u.active = t.active := by
  obtain ⟨_, _, _, rfl, -⟩ := h
  rfl

theorem WritesOnly.kind (h : WritesOnly t u) : u.kind = t.kind := by
  obtain ⟨_, _, _, rfl, -⟩ := h
  rfl

theorem WritesOnly.clause (h : WritesOnly t u) : u.clause = t.clause := by
  obtain ⟨_, _, _, rfl, -⟩ := h
  rfl

/-- Affine values depend on the frame alone. -/
theorem WritesOnly.affAt (h : WritesOnly t u) : u.affAt = t.affAt := by
  obtain ⟨_, _, _, rfl, -⟩ := h
  rfl

theorem WritesOnly.ofA (h : WritesOnly t u) : Opd.ofA u = Opd.ofA t := by
  obtain ⟨_, _, _, rfl, -⟩ := h
  rfl

theorem Opd.Faithful.of_writesOnly (hr : r.Faithful t w) (h : WritesOnly t u) : r.Faithful u w := by
  unfold Opd.Faithful at hr ⊢
  rwa [h.affAt, h.frame]

/-! Registers after a write. -/

theorem reg_set : Thread.reg { t with regs := Tab.set t.regs n v } m = if m = n then v else t.reg m := Tab.get_set ..

theorem reg_setPair {v v' : Reg} : Thread.reg { t with regs := Tab.set (Tab.set t.regs n v) (n + 1) v' } n = v ∧
    Thread.reg { t with regs := Tab.set (Tab.set t.regs n v) (n + 1) v' } (n + 1) = v' := by
  simp [Thread.reg, Tab.get_set]

theorem reg_separate_ne (h : m / 2 ≠ n / 2) : (t.separate n).reg m = t.reg m := by
  have h1 : m ≠ n / 2 * 2 := fun e => h (by omega)
  have h2 : m ≠ n / 2 * 2 + 1 := fun e => h (by omega)
  unfold Thread.separate
  extract_lets e
  split <;> simp [Thread.reg, Tab.get_set, e, h1, h2]

theorem reg_write32_ne (h : m / 2 ≠ n / 2) : (t.write32 n r).reg m = t.reg m :=
  (reg_set.trans (if_neg fun e => h (congrArg (· / 2) e))).trans (reg_separate_ne h)

theorem reg_write64_ne (h : m ≠ n) (h' : m ≠ n + 1) : (t.write64 n r).reg m = t.reg m := by
  unfold Thread.write64
  split <;> simp [Thread.reg, Tab.get_set, h, h']

theorem reg_writeReg_of_not_touches (hk : t.kind = .fibre) (h : touches d m = false) (hd : d.nwb = false) :
    (t.writeReg d.n.toNat rw_ mask r).reg m = t.reg m := by
  simp only [touches, hd, Bool.not_false, Bool.true_and, Bool.or_eq_false_iff, decide_eq_false_iff_not] at h
  obtain ⟨h1, h2⟩ := h
  unfold Thread.writeReg
  extract_lets t' v' r'
  have hkind : t'.kind = .fibre := by
    unfold t'
    split <;> exact hk
  have hreg : t'.reg m = t.reg m := by
    unfold t'
    split <;> rfl
  rw [if_neg (by simp [hkind]), ← hreg]
  split
  · exact reg_write64_ne (fun e => h2 (e ▸ rfl)) h1
  · exact reg_write32_ne h2

theorem reg_writeLatch : (t.writeLatch draw rw_ mask r).reg m = t.reg m := by
  unfold Thread.writeLatch
  split <;> rfl

/-! Lanes. -/

theorem get_setLanes {α : Type} {f : Nat → α} {z : α} {l : Tab α} :
    Tab.get (ps.foldl (fun t p => Tab.set t p (f p)) l) z p = if p ∈ ps then f p else Tab.get l z p := by
  induction ps generalizing l with
  | nil => simp
  | cons q ps ih =>
    rw [List.foldl_cons, ih, Tab.get_set]
    by_cases hp : p ∈ ps
    · simp [hp]
    · by_cases hq : p = q
      · simp [hq]
      · simp [hp, hq]

theorem get_lanesOf {α : Type} {f : Nat → α} {z : α} (hp : p ∈ ps) : Tab.get (lanesOf ps f) z p = f p := by
  rw [lanesOf, get_setLanes, if_pos hp]

/-! Reading what was written. -/

theorem read32_u (h : t.reg n = .u a po) : t.read32 n = Opd.ofU (low32 a) po := by simp [Thread.read32, h]

theorem read32_a {sx sy sz : BitVec 32} (h : t.reg n = .a a sx sy sz) :
    t.read32 n = Opd.ofA t false a sx.toInt sy.toInt sz.toInt := by simp [Thread.read32, h]

theorem read32_e {l : Tab (BitVec 32)} {pl : List Nat} (h : t.reg n = .e l pl) :
    t.read32 n = Opd.ofE (fun p => (Tab.get l 0#32 p).setWidth 64) pl := by simp [Thread.read32, h]

theorem low32_shiftRight : low32 (a >>> 32) = a >>> 32 := by
  apply BitVec.eq_of_toNat_eq
  simp [low32, Nat.shiftRight_eq_div_pow]
  omega

theorem halves_or : ((a >>> 32).setWidth 32).setWidth 64 <<< 32 ||| (a.setWidth 32).setWidth 64 = a := by
  apply BitVec.eq_of_getLsbD_eq
  intro i hi
  simp only [BitVec.getLsbD_or, BitVec.getLsbD_shiftLeft, BitVec.getLsbD_setWidth, BitVec.getLsbD_ushiftRight]
  by_cases h : i < 32
  · simp [h, hi]
  · have h1 : i - 32 < 32 := by omega
    have h2 : 32 + (i - 32) = i := by omega
    simp [h, h1, h2, hi]
    omega


/-- A 32-bit register reads back what was written to it. -/
theorem val_read32_write32 (hr : r.Faithful t false) (hp : p ∈ t.active) (hc : p < t.frame.count) :
    ((t.write32 n r).read32 n).val p = low32 (r.val p) := by
  have hreg : ∀ v, Thread.reg { t.separate n with regs := Tab.set (t.separate n).regs n v } n = v := fun v => by simp [reg_set]
  have hlow : ∀ a : Word, low32 (low32 a) = low32 a := fun a => w32or_w32or (w := false)
  have hofA := (writesOnly_write32 (t := t) (n := n) (r := r)).ofA
  have hact := (writesOnly_separate (t := t) (n := n)).active
  unfold Thread.write32 at hofA ⊢
  unfold Opd.Faithful at hr
  cases hf : r.form with
  | u b =>
    simp only [hf] at hr ⊢
    rw [read32_u (hreg _)]
    simp [Opd.ofU, hlow, hr p hc]
  | a b sx sy sz =>
    simp only [hf] at hr hofA ⊢
    obtain ⟨hb, ⟨hx, hy, hz⟩, hv⟩ := hr
    rw [read32_a (hreg _), hofA, val_ofA, hx.toInt_bvInt32, hy.toInt_bvInt32, hz.toInt_bvInt32, hv p hc]
    rw [show low32 b = w32or false b from rfl, affAt_w32or]
    exact (w32or_affAt (w := false)).symm
  | e =>
    rw [read32_e (hreg _)]
    simp [Opd.ofE, get_lanesOf hp, low32]

theorem read64_u (hk : t.kind ≠ .stream) (h : t.reg n = .u a po) (h' : t.reg (n + 1) = .p) : t.read64 n = Opd.ofU a po := by
  simp [Thread.read64, hk, h, h']

theorem read64_a {sx sy sz : BitVec 32} (hk : t.kind ≠ .stream) (h : t.reg n = .a a sx sy sz) (h' : t.reg (n + 1) = .p) :
    t.read64 n = Opd.ofA t true a sx.toInt sy.toInt sz.toInt := by
  simp [Thread.read64, hk, h, h']

theorem val_read64_e {l l' : Tab (BitVec 32)} {q q' : List Nat} (hk : t.kind ≠ .stream) (h : t.reg n = .e l q)
    (h' : t.reg (n + 1) = .e l' q') :
    (t.read64 n).val p = (Tab.get l' 0#32 p).setWidth 64 <<< 32 ||| (Tab.get l 0#32 p).setWidth 64 := by
  simp [Thread.read64, hk, h, h', read32_e h, read32_e h', Opd.pair, Opd.ofE]

/-- A pair reads back what was written to it. -/
theorem val_read64_write64 (hk : t.kind ≠ .stream) (hr : r.Faithful t true) (hp : p ∈ t.active) (hc : p < t.frame.count) :
    ((t.write64 n r).read64 n).val p = r.val p := by
  have hofA := (writesOnly_write64 (t := t) (n := n) (r := r)).ofA
  unfold Thread.write64 at hofA ⊢
  unfold Opd.Faithful at hr
  cases hf : r.form with
  | u b =>
    simp only [hf] at hr ⊢
    rw [read64_u (by exact hk) reg_setPair.1 reg_setPair.2, hr p hc]
    rfl
  | a b sx sy sz =>
    simp only [hf] at hr hofA ⊢
    obtain ⟨hb, ⟨hx, hy, hz⟩, hv⟩ := hr
    rw [read64_a (by exact hk) reg_setPair.1 reg_setPair.2, hofA, val_ofA, hx.toInt_bvInt32, hy.toInt_bvInt32, hz.toInt_bvInt32, hv p hc]
  | e =>
    simp only
    rw [val_read64_e (by exact hk) reg_setPair.1 reg_setPair.2, get_lanesOf hp, get_lanesOf hp, halves_or]

/-- What a mask lets through of a result, and what it keeps of the old value. -/
theorem val_masked : (r.masked old ps ms).val p = if p ∈ ms then r.val p else old.val p := by
  simp [Opd.masked]

theorem faithful_masked : (r.masked old ps ms).Faithful t w := trivial

theorem cutTo_eq {v : Word} : cutTo rw_ v = w32or rw_.is64 v := rfl

/-- What a write under a mask writes, of the result and of what the destination held (02 R43). -/
def Thread.toWrite (t : Thread) (mask : Option (List Nat)) (r old : Opd) : Opd :=
  match mask with
  | none => r
  | some ms => r.masked old t.active ms

theorem faithful_toWrite (hr : r.Faithful t w) : (t.toWrite mask r old).Faithful t w := by
  cases mask with
  | none => exact hr
  | some => exact faithful_masked

theorem val_toWrite (hp : p ∈ t.active) : (t.toWrite mask r old).val p = if p ∈ mask.getD t.active then r.val p else old.val p := by
  cases mask with
  | none => exact (if_pos hp).symm
  | some => exact val_masked

/-- `writeReg` on a fibre: a write of 32 or 64 bits, far marks dropped. -/
theorem writeReg_eq (hk : t.kind = .fibre) : ∃ f, t.writeReg n rw_ mask r =
    if rw_.is64 then Thread.write64 { t with farMarks := f } n (t.toWrite mask r (t.read64 n))
    else Thread.write32 { t with farMarks := f } n (t.toWrite mask r (t.read32 n)) := by
  have hs : ¬ t.kind = .stream := by simp [hk]
  cases hf : t.farMarks.isEmpty || mask.isSome
  · refine ⟨t.farMarks.filter fun k => k ≠ n && !(rw_.is64 && k = n + 1), ?_⟩
    simp only [Thread.writeReg, hf, Bool.false_eq_true, hs, if_false]
    cases rw_.is64 <;> rfl
  · refine ⟨t.farMarks, ?_⟩
    simp only [Thread.writeReg, hf, hs, if_true, if_false]
    cases rw_.is64 <;> rfl

/-- 02 R43: the destination of a fibre reads as the result at the lanes of the mask, and elsewhere as before. -/
theorem val_src_writeReg {n : BitVec 6} (hk : t.kind = .fibre) (hr : r.Faithful t rw_.is64) (hp : p ∈ t.active)
    (hc : p < t.frame.count) :
    ((t.writeReg n.toNat rw_ mask r).src draw (.reg n) rw_.is64).val p =
      if p ∈ mask.getD t.active then cutTo rw_ (r.val p) else (t.src draw (.reg n) rw_.is64).val p := by
  obtain ⟨f, hw⟩ := writeReg_eq (n := n.toNat) (rw_ := rw_) (mask := mask) (r := r) hk
  rw [hw, cutTo_eq]
  have hs : ¬ t.kind = .stream := by simp [hk]
  cases h64 : rw_.is64
  case false =>
    rw [h64] at hr
    refine (val_read32_write32 (t := { t with farMarks := f }) (faithful_toWrite (t := t) hr) hp hc).trans ?_
    rw [val_toWrite hp, apply_ite low32, low32_read32]
    rfl
  case true =>
    rw [h64] at hr
    refine (val_read64_write64 (t := { t with farMarks := f }) hs (faithful_toWrite (t := t) hr) hp hc).trans ?_
    rw [val_toWrite hp]
    rfl

/-! The other half of a pair. -/

/-- A register reads as before where it and, where it is an upper half, the lower one are as before. -/
theorem val_read32_congr (hw : WritesOnly t u) (h : u.reg n = t.reg n) (h' : t.reg n = .p → u.reg (n - 1) = t.reg (n - 1)) :
    (u.read32 n).val = (t.read32 n).val := by
  unfold Thread.read32
  rw [h, hw.ofA, hw.affAt]
  split
  · rfl
  · rfl
  · rfl
  next hn => rw [h' hn]

theorem read32_upper (h : t.reg (n + 1) = .p) (h' : t.reg n = .u a po) : t.read32 (n + 1) = Opd.ofU (a >>> 32) po := by
  simp [Thread.read32, h, h']

/-- 02 R42: what separating makes of a pair that is joined and uniform, of one that is joined and affine, and of any other. -/
theorem separate_cases (e : Nat) (he : e = m / 2 * 2) :
    (∃ b po, t.reg (e + 1) = .p ∧ t.reg e = .u b po ∧
      (t.separate m).reg e = .u (low32 b) po ∧ (t.separate m).reg (e + 1) = .u (b >>> 32) po) ∨
    (∃ b sx sy sz, t.reg (e + 1) = .p ∧ t.reg e = .a b sx sy sz ∧ (t.separate m).reg e = .a (low32 b) sx sy sz ∧
      (t.separate m).reg (e + 1) = .e (lanesOf t.active fun p => ((t.read32 (e + 1)).val p).setWidth 32) []) ∨
    (t.separate m = t ∧ (t.reg (e + 1) = .p → (∀ b po, t.reg e ≠ .u b po) ∧ ∀ b sx sy sz, t.reg e ≠ .a b sx sy sz)) := by
  unfold Thread.separate
  simp only [← he]
  split
  next hhi hlo => exact .inl ⟨_, _, hhi, hlo, reg_setPair.1, reg_setPair.2⟩
  next hhi hlo => exact .inr (.inl ⟨_, _, _, _, hhi, hlo, reg_setPair.1, reg_setPair.2⟩)
  next h1 h2 => exact .inr (.inr ⟨rfl, fun hp => ⟨fun b po h => h1 b po hp h, fun b sx sy sz h => h2 b sx sy sz hp h⟩⟩)

/-- 02 R42: separating a pair leaves its halves reading as they did. -/
theorem val_read32_separate (he : n / 2 = m / 2) (hp : p ∈ t.active) : ((t.separate m).read32 n).val p = (t.read32 n).val p := by
  have hofA := (writesOnly_separate (t := t) (n := m)).ofA
  obtain ⟨e, hem⟩ : ∃ e, e = m / 2 * 2 := ⟨_, rfl⟩
  have hn : n = e ∨ n = e + 1 := by omega
  rcases separate_cases (t := t) e hem with ⟨b, po, hhi, hlo, hlo', hhi'⟩ | ⟨b, sx, sy, sz, hhi, hlo, hlo', hhi'⟩ | ⟨hs, -⟩
  · rcases hn with rfl | rfl
    · rw [read32_u hlo', read32_u hlo]
      exact w32or_w32or (w := false)
    · rw [read32_u hhi', read32_upper hhi hlo]
      exact low32_shiftRight
  · rcases hn with rfl | rfl
    · rw [read32_a hlo', read32_a hlo, hofA, val_ofA, val_ofA]
      exact affAt_w32or (w := false)
    · rw [read32_e hhi']
      simp only [Opd.ofE, get_lanesOf hp]
      exact low32_read32
  · rw [hs]

/-- 02 R42: a 32-bit write leaves the other half of its pair reading as it did. -/
theorem val_read32_write32_other (ho : pairOk t n) (hd : n ≠ m) (he : n / 2 = m / 2) (hp : p ∈ t.active) :
    ((t.write32 m r).read32 n).val p = (t.read32 n).val p := by
  have hreg : ∀ k, k ≠ m → (t.write32 m r).reg k = (t.separate m).reg k := fun k hk => reg_set.trans (if_neg hk)
  have hw : WritesOnly (t.separate m) (t.write32 m r) := .regs
  rw [val_read32_congr hw (hreg n hd) fun hpn => ?_, val_read32_separate he hp]
  obtain ⟨e, hem⟩ : ∃ e, e = m / 2 * 2 := ⟨_, rfl⟩
  have hn : n = e ∨ n = e + 1 := by omega
  rcases separate_cases (t := t) e hem with ⟨b, po, hhi, hlo, hlo', hhi'⟩ | ⟨b, sx, sy, sz, hhi, hlo, hlo', hhi'⟩ | ⟨hs, hno⟩
  · rcases hn with rfl | rfl
    · exact nomatch hlo'.symm.trans hpn
    · exact nomatch hhi'.symm.trans hpn
  · rcases hn with rfl | rfl
    · exact nomatch hlo'.symm.trans hpn
    · exact nomatch hhi'.symm.trans hpn
  · rcases hn with rfl | rfl
    · exact hreg _ (by omega)
    · rw [hs] at hpn
      obtain ⟨hu, ha⟩ := hno hpn
      obtain ⟨-, ho⟩ := ho
      have he2 : (e + 1) / 2 * 2 = e := by omega
      rw [he2] at ho
      split at ho
      next b po h => exact absurd h (hu b po)
      next b sx sy sz h => exact absurd h (ha b sx sy sz)
      next => exact absurd hpn ho

/-! Latches. -/

variable {j : Nat} {l : Latch}

theorem low32_wordOf {v : Int} : low32 (wordOf true v) = wordOf false v := by
  apply BitVec.eq_of_toNat_eq
  simp [low32, wordOf, BitVec.toNat_ofInt]
  omega

/-- A 64-bit affine value cut to 32 bits. -/
theorem low32_affAt {sx sy sz : Int} : low32 (t.affAt w b sx sy sz p) = t.affAt false b sx sy sz p := by
  cases w
  · exact w32or_affAt (w := false)
  · exact low32_wordOf

/-- What a latch holds, read at 32 bits, is what it holds at its own width, cut. -/
theorem low32_readLatch (h : w = true → (Tab.find? t.latches j).any Latch.w64 = true) :
    low32 ((t.readLatch draw j w).val p) = (t.readLatch draw j false).val p := by
  have hlow : ∀ v : Word, low32 (if w then v else low32 v) = low32 v := fun v => by
    cases w
    · exact w32or_w32or (w := false)
    · rfl
  unfold Thread.readLatch
  cases hl : Tab.find? t.latches j with
  | none => exact hlow _
  | some l =>
    rw [hl, Option.any_some] at h
    have hwide : (w && !l.w64) = false := by
      cases w
      · rfl
      · simp [h rfl]
    simp only [hwide, Bool.false_and, Bool.false_eq_true, if_false]
    split
    · exact hlow _
    · rw [val_ofA, val_ofA]
      exact low32_affAt
    · exact hlow _

/-- A latch that holds a result, read at the result's width. -/
theorem val_readLatch_toFVal {po : Bool} {pl : List Nat} (hw : WritesOnly t u)
    (hl : Tab.find? u.latches j = some ⟨w, r.toFVal t.active, po, pl⟩)
    (hr : r.Faithful t w) (hp : p ∈ t.active) (hc : p < t.frame.count) : (u.readLatch draw j w).val p = w32or w (r.val p) := by
  unfold Opd.Faithful at hr
  simp only [Thread.readLatch, hl, Bool.and_not_self, Bool.false_eq_true, if_false]
  cases hf : r.form with
  | u b =>
    simp only [hf] at hr
    simp [Opd.toFVal, hf, hr p hc, Opd.ofU, w32or]
  | a b sx sy sz =>
    simp only [hf] at hr
    obtain ⟨hb, ⟨hx, hy, hz⟩, hv⟩ := hr
    simp only [Opd.toFVal, hf]
    rw [hw.ofA, val_ofA, hx.toInt_bvInt32, hy.toInt_bvInt32, hz.toInt_bvInt32, hv p hc, w32or_affAt]
  | e => simp [Opd.toFVal, hf, get_lanesOf hp, w32or]

/-- A latch that holds a result of the width `wide` or wider, read at 32 bits or at its width. -/
theorem val_readLatch_of_wider {wide : Bool} {po : Bool} {pl : List Nat} (hw : WritesOnly t u)
    (hl : Tab.find? u.latches j = some ⟨wide, r.toFVal t.active, po, pl⟩) (hr : r.Faithful t wide) (hwide : w = true → wide = true)
    (hp : p ∈ t.active) (hc : p < t.frame.count) : (u.readLatch draw j w).val p = w32or w (r.val p) := by
  have hval := val_readLatch_toFVal (draw := draw) hw hl hr hp hc
  cases w with
  | true =>
    rw [hwide rfl] at hval
    exact hval
  | false =>
    rw [← low32_readLatch (w := wide) (by simp [hl]), hval]
    cases wide
    · exact w32or_w32or (w := false)
    · rfl

theorem low32_widen : low32 ((r.widen draw j).val p) = low32 (r.val p) := by
  apply BitVec.eq_of_getLsbD_eq
  intro i hi
  simp only [Opd.widen, low32, BitVec.getLsbD_setWidth, BitVec.getLsbD_or, BitVec.getLsbD_shiftLeft]
  by_cases h : i < 32 <;> simp [h, hi]

/-- 05 R133: the latch of the word's place reads as the result at the lanes of the mask, and elsewhere as before. -/
theorem val_readLatch_writeLatch {c : Clause} (hcl : t.clause = some c) (hr : r.Faithful t rw_.is64) (hp : p ∈ t.active)
    (hc : p < t.frame.count) :
    ((t.writeLatch draw rw_ mask r).readLatch draw (c.pos % 8) rw_.is64).val p =
      if p ∈ mask.getD t.active then cutTo rw_ (r.val p) else (t.readLatch draw (c.pos % 8) rw_.is64).val p := by
  have hw := writesOnly_writeLatch (t := t) (draw := draw) (rw_ := rw_) (mask := mask) (r := r)
  rw [cutTo_eq]
  cases mask with
  | none =>
    have hl : Tab.find? (t.writeLatch draw rw_ none r).latches (c.pos % 8) =
        some ⟨rw_.is64, r.toFVal t.active, r.pAll, r.bads t.active⟩ := by
      simp [Thread.writeLatch, hcl, Tab.find?_set_self]
    rw [val_readLatch_of_wider hw hl hr (fun h => h) hp hc]
    exact (if_pos hp).symm
  | some ms =>
    obtain ⟨wide, hwide⟩ : ∃ wide, wide = (rw_.is64 || (Tab.find? t.latches (c.pos % 8)).any Latch.w64) := ⟨_, rfl⟩
    obtain ⟨new, hnew⟩ : ∃ new, new = if wide = rw_.is64 then r else r.widen draw (c.pos % 8) := ⟨_, rfl⟩
    obtain ⟨po, pl, hl⟩ : ∃ po pl, Tab.find? (t.writeLatch draw rw_ (some ms) r).latches (c.pos % 8) =
        some ⟨wide, (new.masked (t.readLatch draw (c.pos % 8) wide) t.active ms).toFVal t.active, po, pl⟩ := by
      simp [Thread.writeLatch, hcl, Tab.find?_set_self, hnew, hwide]
    rw [val_readLatch_of_wider hw hl faithful_masked (by simp +contextual [hwide]) hp hc, val_masked, Option.getD_some,
      apply_ite (w32or rw_.is64)]
    congr 1
    · rw [hnew]
      split
      · rfl
      next hne =>
        have h64 : rw_.is64 = false := by
          cases h : rw_.is64
          · rfl
          · exact absurd (by simp [hwide, h]) hne
        rw [h64]
        exact low32_widen
    · cases h64 : rw_.is64 with
      | false => exact low32_readLatch (by simp [hwide, h64])
      | true => rw [hwide, h64]; rfl

theorem readLatch_congr (hw : WritesOnly t u) (hl : u.latches = t.latches) : u.readLatch = t.readLatch := by
  unfold Thread.readLatch
  rw [hl, hw.ofA, hw.affAt]

theorem read32_congr (hw : WritesOnly t u) (h : u.reg = t.reg) : u.read32 = t.read32 := by
  unfold Thread.read32
  rw [h, hw.ofA, hw.affAt]

theorem read64_congr (hw : WritesOnly t u) (h : u.reg = t.reg) : u.read64 = t.read64 := by
  unfold Thread.read64
  rw [h, hw.ofA, hw.kind, read32_congr hw h]

theorem src_reg_congr {x : BitVec 6} (hw : WritesOnly t u) (h : u.reg = t.reg) : u.src draw (.reg x) w = t.src draw (.reg x) w := by
  simp only [Thread.src, read32_congr hw h, read64_congr hw h]

/-! ### A result of a fibre with lanes -/

/-- Registers and latches of a result, apart: the latch is written where the register has been. -/
theorem putResult_eq : t.putResult draw d rw_ mask r = (if d.nwb then t else t.writeReg d.n.toNat rw_ mask r).writeLatch draw rw_ mask r :=
  rfl

theorem reg_putResult : (t.putResult draw d rw_ mask r).reg = (if d.nwb then t else t.writeReg d.n.toNat rw_ mask r).reg :=
  funext fun _ => reg_writeLatch

theorem latches_written : (if d.nwb then t else t.writeReg d.n.toNat rw_ mask r).latches = t.latches := by
  split
  · rfl
  · exact latches_writeReg

theorem writesOnly_written : WritesOnly t (if d.nwb then t else t.writeReg d.n.toNat rw_ mask r) := .ite .refl writesOnly_writeReg

theorem onlyResult_putResult (hk : t.kind = .fibre) (hex : t.expanded = true) :
    OnlyResult t (t.putResult draw d rw_ mask r) d rw_ := by
  have hw := writesOnly_putResult (t := t) (draw := draw) (d := d) (rw_ := rw_) (mask := mask) (r := r)
  obtain ⟨rs, ls, fs, heq, hsub⟩ := id hw
  refine ⟨by rw [heq], by rw [heq]; exact hsub, fun n hn => ?_, fun n h64 hhalf hne hpair p hp => ?_, fun j hj => ?_⟩
  · rw [reg_putResult]
    cases hd : d.nwb
    · exact reg_writeReg_of_not_touches hk hn hd
    · rfl
  · have hp' : p ∈ t.active := by simpa [Thread.places, hex] using hp
    have hw' : WritesOnly (if d.nwb then t else t.writeReg d.n.toNat rw_ mask r) (t.putResult draw d rw_ mask r) := writesOnly_writeLatch
    rw [read32_congr hw' reg_putResult]
    cases hd : d.nwb
    · obtain ⟨f, hf⟩ := writeReg_eq (n := d.n.toNat) (rw_ := rw_) (mask := mask) (r := r) hk
      rw [hf, h64]
      exact val_read32_write32_other (t := { t with farMarks := f }) hpair hne hhalf hp'
    · rfl
  · rw [← latches_written (t := t) (d := d) (rw_ := rw_) (mask := mask) (r := r), putResult_eq]
    have hcl := (writesOnly_written (t := t) (d := d) (rw_ := rw_) (mask := mask) (r := r)).clause
    unfold Thread.writeLatch
    rw [hcl]
    split
    · rfl
    next c hc =>
      rw [hc] at hj
      exact Tab.find?_set_ne _ _ _ _ hj

/-- 02 R43: register and latch of a per-index result. -/
theorem laneValues_putResult {s : State} {f : Nat → Word} (hk : t.kind = .fibre) (hex : t.expanded = true)
    (hact : ∀ p ∈ t.active, p < t.frame.count) (hr : r.Yields t rw_.is64 f) :
    LaneValues s t (t.putResult s.draw d rw_ mask r) d rw_ (mask.getD t.active) f := by
  refine ⟨onlyResult_putResult hk hex, fun p hp => ?_⟩
  have hc := hact p hp
  have hval : cutTo rw_ (r.val p) = cutTo rw_ (f p) := hr.val p hc
  have hw := writesOnly_written (t := t) (d := d) (rw_ := rw_) (mask := mask) (r := r)
  rw [← hval]
  refine ⟨fun hd => ?_, fun c hcl => ?_⟩
  · rw [src_reg_congr (u := t.putResult s.draw d rw_ mask r) writesOnly_writeLatch reg_putResult, hd]
    exact val_src_writeReg hk hr.faithful hp hc
  · have hf' : r.Faithful (if d.nwb then t else t.writeReg d.n.toNat rw_ mask r) rw_.is64 :=
      hr.faithful.of_writesOnly hw
    rw [putResult_eq, val_readLatch_writeLatch (hw.clause.trans hcl) hf' (hw.active ▸ hp) (hw.frame ▸ hc), hw.active,
      readLatch_congr hw latches_written]

end

end Sys2Proof.Machine
end

section
/-!
A result under its guard in a fibre with lanes, and what it is for an instruction to compute what its shape tells (`Gives`).
-/

namespace Sys2Proof.Machine

open Sys2Proof Sys2Proof.Spec

/-! ### Delivering a result to a fibre with lanes -/

section
variable {s : State} {c e : Nat} {t : Thread} {d : Dst} {w : RW} {mask : Option (List Nat)} {carry : Bool} {r : Opd} {g : Guard}
  {ms : List Nat}

/-- A result without poison. -/
theorem deliver_clean (h : s.cur? = some t) (hr : r.clean = true) :
    s.deliver d w mask carry r = s.setCur (t.putResult s.draw d w mask r).advance := by
  obtain ⟨ha, hl⟩ := Opd.clean_iff.1 hr
  simp [State.deliver, h, ha, hl]

/-- A fibre with lanes takes no others. -/
theorem expandThen_onLanes {k : State → State} (h : OnLanes s c e t) : s.expandThen k = k s := by
  obtain ⟨ht, hf, -, hex, -⟩ := h
  simp [State.expandThen, ht, State.cur?, hf, hex]

/-- `State.result` on the places that its guard lets through. -/
def State.resultOn (s : State) (d : Dst) (w : RW) (carry : Bool) (f : State → Thread → Opd) (mask : Option (List Nat)) : State :=
  match s.cur? with
  | none => s
  | some t =>
    if t.needsLanes d w (f s t) then
      s.orWait (s.expandThen fun s =>
        match s.cur? with
        | some t => s.deliver d w mask carry (f s t)
        | none => s)
    else if mask.isSome then s.orWait (s.deliver d w mask carry (f s t))
    else s.deliver d w mask carry (f s t)

theorem result_eq {f : State → Thread → Opd} :
    s.result g d w carry f = s.guardedDst g fun mask s => s.resultOn d w carry f mask := rfl

theorem cur?_onLanes (h : OnLanes s c e t) : s.cur? = some t := by
  obtain ⟨ht, hf, -⟩ := h
  exact (cur?_fibre ht).trans hf

theorem resultOn_onLanes {f : State → Thread → Opd} (h : OnLanes s c e t) (hr : (f s t).clean = true) :
    s.resultOn d w carry f mask = s.setCur (t.putResult s.draw d w mask (f s t)).advance ∨
      s.resultOn d w carry f mask = s.orWait (s.setCur (t.putResult s.draw d w mask (f s t)).advance) := by
  simp only [State.resultOn, (cur?_onLanes h), expandThen_onLanes h, deliver_clean (cur?_onLanes h) hr]
  split
  · exact .inr rfl
  · split
    · exact .inr rfl
    · exact .inl rfl

/-- 02 R43, 06 R143: a fibre with lanes takes a result on the lanes of its guard, or waits. -/
theorem result_onLanes {f : State → Thread → Opd} (h : OnLanes s c e t) (hg : GuardedLanes t g ms) (hr : (f s t).clean = true) :
    ∃ mask, mask.getD t.active = ms ∧
      (s.result g d w carry f = s.setCur (t.putResult s.draw d w mask (f s t)).advance ∨
        s.result g d w carry f = s.orWait (s.setCur (t.putResult s.draw d w mask (f s t)).advance)) := by
  rw [result_eq]
  rcases hg with ⟨hg, rfl⟩ | ⟨l, hg, rfl⟩
  · exact ⟨none, rfl, by rw [State.guardedDst_t s t g _ (cur?_onLanes h) hg]; exact resultOn_onLanes h hr⟩
  · exact ⟨some _, rfl, by rw [State.guardedDst_m s t g l _ (cur?_onLanes h) hg]; exact resultOn_onLanes h hr⟩

/-- An instruction whose one effect is a result computes, of operands that carry no poison, the value that its shape tells. -/
def Gives (i : Instr) (sh : Shape) : Prop :=
  ∃ carry f, (∀ s, Machine.exec i s = .next (s.result sh.g sh.d sh.w carry f)) ∧
    ∀ s t, (sh.opds s t).all Opd.clean = true → (f s t).Yields t sh.w.is64 fun p => sh.val ((sh.opds s t).map fun x => x.val p)

theorem Gives.laneResult {i : Instr} {sh : Shape} (hi : Gives i sh) (h : OnLanes s c e t) (hg : GuardedLanes t sh.g ms)
    (hc : (sh.opds s t).all Opd.clean = true) :
    LaneResult i s t sh.d sh.w ms fun p => sh.val ((sh.opds s t).map fun x => x.val p) := by
  obtain ⟨carry, f, hexec, hval⟩ := hi
  have hy := hval s t hc
  obtain ⟨mask, rfl, hres⟩ := result_onLanes (d := sh.d) (w := sh.w) (carry := carry) h hg hy.clean
  obtain ⟨-, -, hk, hex, hact⟩ := h
  refine ⟨_, ?_, laneValues_putResult hk hex hact hy⟩
  exact hres.imp (fun h => (hexec s).trans (congrArg _ h)) fun h => (hexec s).trans (congrArg _ h)

end

end Sys2Proof.Machine
end

section
/-!
The values of the integer operations, as the types' integers have them (06 R144-R154).
-/

namespace Sys2Proof.Machine

open Sys2Proof Sys2Proof.Spec

/-! ### Values of integer operations, as integers of the type -/

section
variable {w sg : Bool} {a b c : Word} {v : Int}

theorem add_typed : w32or w (a + b) = wordOf w (typedOf w sg a + typedOf w sg b) := by
  rw [← w32or_wordOf, w32or_eq_iff, resOf_wordOf, resOf_add]
  push_cast
  rw [typedOf_cast, typedOf_cast]

theorem sub_typed : w32or w (a - b) = wordOf w (typedOf w sg a - typedOf w sg b) := by
  rw [← w32or_wordOf, w32or_eq_iff, resOf_wordOf, resOf_sub]
  push_cast
  rw [typedOf_cast, typedOf_cast]

theorem mul_typed : wordOf w (a.toNat * b.toNat) = wordOf w (typedOf w sg a * typedOf w sg b) := by
  rw [wordOf_inj]
  push_cast
  rw [typedOf_cast, typedOf_cast]

theorem min_typed : minMaxV false w sg a b = wordOf w (min (typedOf w sg a) (typedOf w sg b)) := by
  unfold minMaxV
  by_cases h : typedOf w sg a < typedOf w sg b
  · simp [h, min_eq_left h.le, wordOf_typedOf]
  · simp [h, min_eq_right (not_lt.1 h), wordOf_typedOf]

theorem max_typed : minMaxV true w sg a b = wordOf w (max (typedOf w sg a) (typedOf w sg b)) := by
  unfold minMaxV
  by_cases h : typedOf w sg a < typedOf w sg b
  · simp [h, max_eq_right h.le, wordOf_typedOf]
  · simp [h, max_eq_left (not_lt.1 h), wordOf_typedOf]

theorem neg_typed : w32or w (0 - a) = wordOf w (-signedOf w a) := by
  rw [← w32or_wordOf, w32or_eq_iff, resOf_wordOf, resOf_sub]
  push_cast
  rw [signedOf_cast]
  simp [resOf]

theorem not_typed : w32or w (~~~a) = wordOf w (-signedOf w a - 1) := by
  have h : ~~~a = 0#64 - a - 1#64 := by
    rw [BitVec.zero_sub, BitVec.neg_eq_not_add, BitVec.add_sub_cancel]
  rw [← w32or_wordOf, w32or_eq_iff, resOf_wordOf, h, resOf_sub, resOf_sub]
  push_cast
  rw [signedOf_cast]
  simp [resOf]

/-- A value of a type is one of its width. -/
theorem typedOf_bounds : -(2 ^ bitsOf w : Int) ≤ typedOf w sg a ∧ typedOf w sg a < 2 ^ bitsOf w := by
  have h64 := a.isLt
  have h1 := a.le_toInt
  have h2 := a.toInt_lt
  have h3 := (a.setWidth 32).le_toInt
  have h4 := (a.setWidth 32).toInt_lt
  have h5 := (a.setWidth 32).isLt
  cases w <;> cases sg <;> simp [typedOf, signedOf, bitsOf, low32] at * <;> omega

/-- 06 R148: a left shift by a count at or above the width leaves nothing. -/
theorem shl_typed (hc : low32 c = c) :
    wordOf w (a.toNat * 2 ^ min (low32 c).toNat 64) = wordOf w (shiftL w (typedOf w sg a) c.toNat) := by
  have hw : bitsOf w ≤ 64 := by cases w <;> decide
  rw [hc, wordOf_inj, shiftL]
  split
  next h =>
    rw [min_eq_left (by omega)]
    push_cast
    rw [typedOf_cast]
  next h =>
    obtain ⟨k, hk⟩ : ∃ k, min c.toNat 64 = bitsOf w + k := ⟨min c.toNat 64 - bitsOf w, by omega⟩
    have h0 : (2 ^ bitsOf w : ZMod (2 ^ bitsOf w)) = 0 := by exact_mod_cast ZMod.natCast_self (2 ^ bitsOf w)
    rw [hk]
    push_cast
    rw [pow_add, h0]
    ring

/-- 06 R148: a right shift by a count at or above the width leaves the sign alone. -/
theorem shr_typed (hc : low32 c = c) : shrV w sg a c = wordOf w (shiftR w (typedOf w sg a) c.toNat) := by
  obtain ⟨h1, h2⟩ := typedOf_bounds (w := w) (sg := sg) (a := a)
  unfold shrV shiftR
  simp only [hc]
  split
  next h => rw [min_eq_left h.le]
  next h =>
    rw [min_eq_right (not_lt.1 h)]
    split
    next hn =>
      congr 1
      have hpos : (0 : Int) < 2 ^ bitsOf w := by positivity
      exact le_antisymm (Int.lt_add_one_iff.1 (Int.ediv_lt_of_lt_mul hpos (by simpa using hn)))
        (Int.le_ediv_of_mul_le hpos (by simpa using h1))
    next hn =>
      congr 1
      exact Int.ediv_eq_zero_of_lt (not_lt.1 hn) h2

/-! Immediates (06 R142). -/

theorem typedOf_immOf {m : BitVec 32} : typedOf w sg (immOf w sg m) = immInt sg m := by
  have h := m.isLt
  cases w <;> cases sg
  · simp [typedOf, immOf, immInt, low32]
    omega
  · simp [typedOf, signedOf, immOf, immInt]
  · simp [typedOf, immOf, immInt]
    omega
  · simp only [typedOf, signedOf, immOf, immInt, if_true, Bool.and_self]
    exact BitVec.toInt_signExtend_of_le (by decide)

theorem w32or_immOf {m : BitVec 32} : w32or w (immOf w sg m) = wordOf w (immInt sg m) := by
  rw [← typedOf_immOf (w := w), wordOf_typedOf]

theorem low32_setWidth {m : BitVec 32} : low32 (m.setWidth 64) = m.setWidth 64 := by simp [low32]

/-! A bitwise operation looks at the width's bits alone (06 R147). -/

theorem getLsbD_w32or {i : Nat} : (w32or w a).getLsbD i = (a.getLsbD i && decide (i < bitsOf w)) := by
  cases w
  · by_cases h : i < 32
    · have h64 : i < 64 := by omega
      simp [w32or, low32, bitsOf, h, h64]
    · simp [w32or, low32, bitsOf, BitVec.getLsbD_setWidth, h]
  · by_cases h : i < 64
    · simp [w32or, bitsOf, h]
    · simp [w32or, bitsOf, BitVec.getLsbD_of_ge _ _ (not_lt.1 h)]

theorem and_w32or : w32or w (a &&& w32or w b) = w32or w (a &&& b) := by
  apply BitVec.eq_of_getLsbD_eq
  intro i hi
  simp only [getLsbD_w32or, BitVec.getLsbD_and]
  by_cases h : i < bitsOf w <;> simp [h]

theorem or_w32or : w32or w (a ||| w32or w b) = w32or w (a ||| b) := by
  apply BitVec.eq_of_getLsbD_eq
  intro i hi
  simp only [getLsbD_w32or, BitVec.getLsbD_or]
  by_cases h : i < bitsOf w <;> simp [h]

theorem xor_w32or : w32or w (a ^^^ w32or w b) = w32or w (a ^^^ b) := by
  apply BitVec.eq_of_getLsbD_eq
  intro i hi
  simp only [getLsbD_w32or, BitVec.getLsbD_xor]
  by_cases h : i < bitsOf w <;> simp [h]

theorem andn_w32or : w32or w (a &&& ~~~(w32or w b)) = w32or w (a &&& ~~~b) := by
  apply BitVec.eq_of_getLsbD_eq
  intro i hi
  simp only [getLsbD_w32or, BitVec.getLsbD_and, BitVec.getLsbD_not]
  by_cases h : i < bitsOf w <;> simp [h]

/-! ### Operations on operands -/

variable {t : Thread} {x y : Opd} {draw p : Nat} {src : Src}

theorem low32_readLatch_self {j : Nat} : low32 ((t.readLatch draw j false).val p) = (t.readLatch draw j false).val p :=
  low32_readLatch (w := false) (by simp)

/-- A source has no bits above its width. -/
theorem w32or_src : w32or w ((t.src draw src w).val p) = (t.src draw src w).val p := by
  cases w with
  | true => rfl
  | false =>
    have hix : ∀ sx sy sz, low32 ((if t.kind = .fibre then Opd.ofA t false 0 sx sy sz else Opd.ofU 0).val p) =
        (if t.kind = .fibre then Opd.ofA t false 0 sx sy sz else Opd.ofU 0).val p := fun sx sy sz => by
      split
      · rw [val_ofA]
        exact w32or_affAt (w := false)
      · rfl
    cases src with
    | reg n => exact low32_read32
    | latch j => exact low32_readLatch_self
    | ix => exact hix 1 0 0
    | iy => exact hix 0 1 0
    | iz => exact hix 0 0 1

/-- A two-source operation computes `h` of its operands' values. -/
def Op2.Computes (f : Op2) (w wy sg : Bool) (h : Word → Word → Word) : Prop :=
  ∀ t x y, x.Faithful t w → y.Faithful t wy → x.clean = true → y.clean = true →
    (f t w sg x y).Yields t w fun p => h (x.val p) (y.val p)

variable {wy : Bool}

theorem computes_anyOp {g : Bool → Bool → Word → Word → Word} : (anyOp g).Computes w wy sg (g w sg) :=
  fun _ _ _ hx hy cx cy => yields_map2 hx hy cx cy

theorem computes_opAdd : opAdd.Computes w w sg fun a b => a + b := fun _ _ _ hx hy cx cy => yields_addSub hx hy cx cy

theorem computes_opSub : opSub.Computes w w sg fun a b => a - b := fun _ _ _ hx hy cx cy => yields_addSub hx hy cx cy

theorem computes_opMul : opMul.Computes w w sg fun a b => wordOf w (a.toNat * b.toNat) := fun _ _ _ hx hy cx cy => yields_mul hx hy cx cy

theorem computes_opShl : opShl.Computes w wy sg fun a c => wordOf w (a.toNat * 2 ^ min (low32 c).toNat 64) :=
  fun t x y hx hy cx cy => by
  unfold opShl
  split
  next c hf =>
    rw [(Opd.clean_iff.1 cy).1]
    refine (yields_scale hx cx).congr fun p hp => ?_
    rw [hy.val_u hf hp]
  next => exact yields_map2 hx hy cx cy

end

end Sys2Proof.Machine
end

section
/-!
Instructions of one, two and three sources, and the families of the integer instructions, give what their shapes tell.
-/

namespace Sys2Proof.Machine

open Sys2Proof Sys2Proof.Spec

/-! ### Shapes of one, two and three sources -/

section
variable {i : Instr} {g : Guard} {d : Dst} {w : RW} {a b c : Src} {wa wb wc carry : Bool} {val : List Word → Word}

theorem all_clean_cons {x : Opd} {l : List Opd} : (x :: l).all Opd.clean = true ↔ x.clean = true ∧ l.all Opd.clean = true := by
  simp [List.all_cons]

theorem gives_unary {f : Thread → Opd → Opd} {h : Word → Word}
    (hexec : ∀ s, Machine.exec i s = .next (s.result g d w carry fun s t => f t (t.src s.draw a wa)))
    (hf : ∀ t x, x.Faithful t wa → x.clean = true → (f t x).Yields t w.is64 fun p => h (x.val p))
    (hval : ∀ x, w32or wa x = x → w32or w.is64 (h x) = w32or w.is64 (val [x])) : Gives i ⟨g, d, w, [(a, wa)], val⟩ := by
  refine ⟨carry, _, hexec, fun s t hc => ?_⟩
  obtain ⟨ca, -⟩ := all_clean_cons.1 hc
  exact (hf t _ faithful_src ca).congr fun p _ => hval _ w32or_src

theorem gives_binary {f : Thread → Opd → Opd → Opd} {h : Word → Word → Word}
    (hexec : ∀ s, Machine.exec i s = .next (s.result g d w carry fun s t => f t (t.src s.draw a wa) (t.src s.draw b wb)))
    (hf : ∀ t x y, x.Faithful t wa → y.Faithful t wb → x.clean = true → y.clean = true →
      (f t x y).Yields t w.is64 fun p => h (x.val p) (y.val p))
    (hval : ∀ x y, w32or wa x = x → w32or wb y = y → w32or w.is64 (h x y) = w32or w.is64 (val [x, y])) :
    Gives i ⟨g, d, w, [(a, wa), (b, wb)], val⟩ := by
  refine ⟨carry, _, hexec, fun s t hc => ?_⟩
  obtain ⟨ca, hc⟩ := all_clean_cons.1 hc
  obtain ⟨cb, -⟩ := all_clean_cons.1 hc
  exact (hf t _ _ faithful_src faithful_src ca cb).congr fun p _ => hval _ _ w32or_src w32or_src

theorem gives_ternary {f : Thread → Opd → Opd → Opd → Opd} {h : Word → Word → Word → Word}
    (hexec : ∀ s, Machine.exec i s =
      .next (s.result g d w carry fun s t => f t (t.src s.draw a wa) (t.src s.draw b wb) (t.src s.draw c wc)))
    (hf : ∀ t x y z, x.Faithful t wa → y.Faithful t wb → z.Faithful t wc → x.clean = true → y.clean = true → z.clean = true →
      (f t x y z).Yields t w.is64 fun p => h (x.val p) (y.val p) (z.val p))
    (hval : ∀ x y z, w32or w.is64 (h x y z) = w32or w.is64 (val [x, y, z])) :
    Gives i ⟨g, d, w, [(a, wa), (b, wb), (c, wc)], val⟩ := by
  refine ⟨carry, _, hexec, fun s t hc => ?_⟩
  obtain ⟨ca, hc⟩ := all_clean_cons.1 hc
  obtain ⟨cb, hc⟩ := all_clean_cons.1 hc
  obtain ⟨cc, -⟩ := all_clean_cons.1 hc
  exact (hf t _ _ _ faithful_src faithful_src faithful_src ca cb cc).congr fun p _ => hval _ _ _

/-! An operation that maps its operands' values. -/

theorem gives_map1 {G : Word → Word}
    (hexec : ∀ s, Machine.exec i s = .next (s.result g d w carry fun s t => Opd.map1 G (t.src s.draw a wa)))
    (hval : ∀ x, w32or w.is64 (G x) = w32or w.is64 (val [x])) : Gives i ⟨g, d, w, [(a, wa)], val⟩ :=
  gives_unary (f := fun _ => Opd.map1 G) hexec (fun _ _ hx cx => yields_map1 hx cx) fun x _ => hval x

theorem gives_map2 {G : Word → Word → Word}
    (hexec : ∀ s, Machine.exec i s = .next (s.result g d w carry fun s t => Opd.map2 G (t.src s.draw a wa) (t.src s.draw b wb)))
    (hval : ∀ x y, w32or w.is64 (G x y) = w32or w.is64 (val [x, y])) : Gives i ⟨g, d, w, [(a, wa), (b, wb)], val⟩ :=
  gives_binary (f := fun _ => Opd.map2 G) hexec (fun _ _ _ hx hy cx cy => yields_map2 hx hy cx cy) fun x y _ _ => hval x y

theorem gives_map3 {G : Word → Word → Word → Word}
    (hexec : ∀ s, Machine.exec i s =
      .next (s.result g d w carry fun s t => Opd.map3 G (t.src s.draw a wa) (t.src s.draw b wb) (t.src s.draw c wc)))
    (hval : ∀ x y z, w32or w.is64 (G x y z) = w32or w.is64 (val [x, y, z])) : Gives i ⟨g, d, w, [(a, wa), (b, wb), (c, wc)], val⟩ :=
  gives_ternary (f := fun _ => Opd.map3 G) hexec (fun _ _ _ _ hx hy hz cx cy cz => yields_map3 hx hy hz cx cy cz) hval

end

/-! ### The families of integer instructions -/

section
variable {i : Instr} {o : RR} {m : RI} {f : Op2} {h : Word → Word → Word} {F : Int → Int → Int} {B : Word → Word → Word}
  {S : Bool → Int → Nat → Int} {sg : Bool}

theorem is64_ofTy {ty : ITy} : (RW.ofTy ty).is64 = ty.is64 := by cases ty <;> rfl

theorem is64_riRW {w s : Bool} : (riRW w s).is64 = w := by cases w <;> rfl

/-- The shapes of format I write their width out. -/
theorem riRW_eq {w s : Bool} : (if w then RW.w64 else RW.w32 s) = riRW w s := rfl

theorem gives_rrInt (hexec : ∀ s, Machine.exec i s = .next (s.aluRR o f)) (hf : f.Computes o.ty.is64 o.ty.is64 o.ty.signed h)
    (hv : ∀ x y, w32or o.ty.is64 (h x y) = wordOf o.ty.is64 (F (typedOf o.ty.is64 o.ty.signed x) (typedOf o.ty.is64 o.ty.signed y))) :
    Gives i (rrInt o F) :=
  gives_binary (f := fun t => f t o.ty.is64 o.ty.signed) (h := h) hexec (by rw [is64_ofTy]; exact hf)
    fun x y _ _ => by rw [is64_ofTy, hv]; exact w32or_wordOf.symm

/-- Format I: the immediate is a uniform second operand. -/
theorem gives_immediate {imm : Word} {val : List Word → Word}
    (hexec : ∀ s, Machine.exec i s = .next (s.result m.g m.d (riRW m.w m.s) false fun s t =>
      f t m.w m.s (t.src s.draw m.a m.w) (Opd.ofU imm))) {wy : Bool}
    (hf : f.Computes m.w wy m.s h) (hval : ∀ x, w32or m.w (h x imm) = w32or m.w (val [x])) :
    Gives i ⟨m.g, m.d, riRW m.w m.s, [(m.a, m.w)], val⟩ :=
  gives_unary (f := fun t x => f t m.w m.s x (Opd.ofU imm)) (h := fun x => h x imm) hexec
    (by rw [is64_riRW]; exact fun t x hx cx => hf t x (Opd.ofU imm) hx faithful_ofU cx clean_ofU)
    fun x _ => by rw [is64_riRW]; exact hval x

theorem gives_riInt (hexec : ∀ s, Machine.exec i s = .next (s.aluRI m f)) (hf : f.Computes m.w m.w m.s h)
    (hv : ∀ x y, w32or m.w (h x y) = wordOf m.w (F (typedOf m.w m.s x) (typedOf m.w m.s y))) : Gives i (riInt m F) :=
  gives_immediate hexec hf fun x => by
    rw [hv, typedOf_immOf]
    exact w32or_wordOf.symm

theorem gives_rrBits (hexec : ∀ s, Machine.exec i s = .next (s.aluRR o (anyOp fun _ _ => B))) : Gives i (rrBits o B) :=
  gives_binary (f := fun t => anyOp (fun _ _ => B) t o.ty.is64 o.ty.signed) (h := B) hexec (by rw [is64_ofTy]; exact computes_anyOp)
    fun _ _ _ _ => rfl

theorem gives_riBits (hexec : ∀ s, Machine.exec i s = .next (s.aluRI m (anyOp fun _ _ => B)))
    (hB : ∀ w a b, w32or w (B a (w32or w b)) = w32or w (B a b)) : Gives i (riBits m B) :=
  gives_immediate hexec (wy := m.w) (h := B) computes_anyOp fun x => by
    rw [← hB, w32or_immOf]
    rfl

theorem gives_rrShift (hexec : ∀ s, Machine.exec i s = .next (s.aluRC o f)) (hf : f.Computes o.ty.is64 false o.ty.signed h)
    (hv : ∀ x c, low32 c = c → w32or o.ty.is64 (h x c) = wordOf o.ty.is64 (S o.ty.is64 (typedOf o.ty.is64 sg x) c.toNat)) :
    Gives i (rrShift o sg S) :=
  gives_binary (f := fun t => f t o.ty.is64 o.ty.signed) (h := h) hexec (by rw [is64_ofTy]; exact hf)
    fun x c _ hc => by rw [is64_ofTy, hv x c hc]; exact w32or_wordOf.symm

theorem gives_riShift (hexec : ∀ s, Machine.exec i s = .next (s.aluRIC m f)) (hf : f.Computes m.w false m.s h)
    (hv : ∀ x c, low32 c = c → w32or m.w (h x c) = wordOf m.w (S m.w (typedOf m.w sg x) c.toNat)) : Gives i (riShift m sg S) :=
  gives_immediate hexec hf fun x => by
    rw [hv x _ low32_setWidth, BitVec.toNat_setWidth, Nat.mod_eq_of_lt (by omega)]
    exact w32or_wordOf.symm

end

end Sys2Proof.Machine
end

section
/-!
Every integer, floating-point, conversion and packed instruction gives what its shape tells; from these O10.
-/

namespace Sys2Proof.Machine

open Sys2Proof Sys2Proof.Spec

/-! ### LEA's index (06 R154) -/

section
variable {t : Thread} {sg : Bool} {y : Opd} {p : Nat} {b : Word} {sx sy sz v : Int}

/-- The index at a place lies in the frame. -/
theorem idxAt_mem (hp : p < t.frame.count) (a : Axis) :
    (t.frame.lo a : Int) ≤ ((t.idxAt p).at_ a : Nat) ∧ ((t.idxAt p).at_ a : Int) ≤ (t.frame.hi a : Int) - 1 := by
  have hx : 0 < t.frame.ex := by
    by_contra h
    simp [Box.count, Nat.eq_zero_of_not_pos h] at hp
  have hy : 0 < t.frame.ey := by
    by_contra h
    simp [Box.count, Nat.eq_zero_of_not_pos h] at hp
  have h1 := Nat.mod_lt p hx
  have h2 := Nat.mod_lt (p / t.frame.ex) hy
  have h3 : p / (t.frame.ex * t.frame.ey) < t.frame.ez := Nat.div_lt_of_lt_mul hp
  have ex : t.frame.ex = t.frame.x1 - t.frame.x0 := rfl
  have ey : t.frame.ey = t.frame.y1 - t.frame.y0 := rfl
  have ez : t.frame.ez = t.frame.z1 - t.frame.z0 := rfl
  cases a <;> simp only [Thread.idxAt, Box.idx, Idx.at_, Box.lo, Box.hi]
  · generalize p % t.frame.ex = k at h1 ⊢
    omega
  · generalize p / t.frame.ex % t.frame.ey = k at h2 ⊢
    omega
  · generalize p / (t.frame.ex * t.frame.ey) = k at h3 ⊢
    omega

/-- A stride times a coordinate lies between its products with the ends. -/
theorem mul_between {s l h k : Int} (hl : l ≤ k) (hh : k ≤ h) : min (s * l) (s * h) ≤ s * k ∧ s * k ≤ max (s * l) (s * h) := by
  rcases le_total 0 s with hs | hs
  · exact ⟨(min_le_left _ _).trans (mul_le_mul_of_nonneg_left hl hs), (mul_le_mul_of_nonneg_left hh hs).trans (le_max_right _ _)⟩
  · exact ⟨(min_le_right _ _).trans (mul_le_mul_of_nonpos_left hh hs), (mul_le_mul_of_nonpos_left hl hs).trans (le_max_left _ _)⟩

/-- An integer in a type's range is what its word reads as. -/
theorem typedOf_wordOf (h1 : tyMin false sg ≤ v) (h2 : v ≤ tyMax false sg) : typedOf false sg (wordOf false v) = v := by
  cases sg
  · simp only [tyMin, tyMax, Bool.false_eq_true, if_false] at h1 h2
    simp [typedOf, wordOf, low32, BitVec.toNat_ofInt]
    omega
  · simp only [tyMin, tyMax, if_true, Bool.false_eq_true, if_false] at h1 h2
    simp only [typedOf, signedOf, wordOf, if_true, Bool.false_eq_true, if_false]
    rw [show ((BitVec.ofInt 32 v).setWidth 64).setWidth 32 = BitVec.ofInt 32 v by simp, BitVec.toInt_ofInt]
    exact Int.bmod_eq_of_le (by simpa using h1) (by norm_num; omega)

theorem yields_leaExt (hy : y.Faithful t false) (cy : y.clean = true) :
    (leaExt t sg y).Yields t true fun p => wordOf true (typedOf false sg (y.val p)) := by
  obtain ⟨ay, ly⟩ := Opd.clean_iff.1 cy
  unfold leaExt
  extract_lets ext
  split
  next b hf =>
    rw [ay]
    exact yields_ofU.congr fun p hp => by rw [hy.val_u hf hp]
  next b sx sy sz hf =>
    extract_lets bi
    rw [ay, ly]
    split
    next hr =>
      simp only [Bool.and_eq_true, decide_eq_true_eq] at hr
      simp only [Opd.Faithful, hf] at hy
      obtain ⟨-, hs, hv⟩ := hy
      refine ⟨rfl, ⟨rfl, hs, fun p hp => ?_⟩, fun p _ => rfl⟩
      obtain ⟨lx, hx⟩ := idxAt_mem hp .x
      obtain ⟨ly, hy⟩ := idxAt_mem hp .y
      obtain ⟨lz, hz⟩ := idxAt_mem hp .z
      obtain ⟨lx, hx⟩ := mul_between (s := sx) lx hx
      obtain ⟨ly, hy⟩ := mul_between (s := sy) ly hy
      obtain ⟨lz, hz⟩ := mul_between (s := sz) lz hz
      obtain ⟨hmn, hmx⟩ := hr
      have hval : y.val p = wordOf false (bi + sx * (t.idxAt p).x + sy * (t.idxAt p).y + sz * (t.idxAt p).z) := by
        rw [hv p hp, Thread.affAt, wordOf_inj]
        push_cast
        rw [typedOf_cast]
      have htyped : typedOf false sg (y.val p) = bi + sx * (t.idxAt p).x + sy * (t.idxAt p).y + sz * (t.idxAt p).z := by
        rw [hval]
        exact typedOf_wordOf (hmn.trans (add_le_add (add_le_add (add_le_add le_rfl lx) ly) lz))
          ((add_le_add (add_le_add (add_le_add le_rfl hx) hy) hz).trans hmx)
      rw [Thread.affAt]
      simp only [ext]
      rw [htyped, wordOf_inj]
      push_cast
      rw [show (((wordOf true bi).toNat : Nat) : ZMod (2 ^ bitsOf true)) = bi from resOf_wordOf]
    next => exact yields_ofE
  next =>
    rw [ay, ly]
    exact yields_ofE

end

/-! ### The integer instructions -/

theorem gives_lea (o : LeaO) : Gives (.lea o) ⟨o.g, o.d, .w64, [(o.a, true), (o.b, o.ty.is64)], fun l =>
    BitVec.ofInt 64 ((op l 0).toNat + typedOf o.ty.is64 o.ty.signed (op l 1) * 2 ^ o.sh.toNat)⟩ := by
  refine gives_binary (carry := false)
    (f := fun t x y =>
      Opd.addSub t true false x ((if o.ty.is64 then y else leaExt t o.ty.signed y).scale t true (2 ^ o.sh.toNat) false).norm)
    (h := fun x y => x + wordOf true ((wordOf true (typedOf o.ty.is64 o.ty.signed y)).toNat * 2 ^ o.sh.toNat))
    (fun _ => rfl) (fun t x y hx hy cx cy => ?_) fun x y _ _ => ?_
  · have he : (if o.ty.is64 then y else leaExt t o.ty.signed y).Yields t true fun p =>
        wordOf true (typedOf o.ty.is64 o.ty.signed (y.val p)) := by
      cases h : o.ty.is64
      · rw [h] at hy
        exact yields_leaExt hy cy
      · rw [h] at hy
        exact (hy.yields cy).congr fun p _ => congrArg (w32or true) (wordOf_typedOf (w := true)).symm
    have hs := (yields_scale (k := 2 ^ o.sh.toNat) he.faithful he.clean).norm
    refine (yields_addSub hx hs.faithful cx hs.clean).congr fun p hp => ?_
    have hev := he.val p hp
    have hsv := hs.val p hp
    simp only [w32or, if_true, Bool.false_eq_true, if_false] at hev hsv ⊢
    rw [hsv, hev]
  · refine (w32or_eq_iff (w := true)).2 ?_
    rw [resOf_add, resOf_wordOf, show BitVec.ofInt 64 _ = wordOf true _ from rfl, resOf_wordOf]
    push_cast
    rw [show (((wordOf true _).toNat : Nat) : ZMod (2 ^ bitsOf true)) = _ from resOf_wordOf]
    rfl

theorem gives_imad (o : RRR) : Gives (.imad o) ⟨o.g, o.d, RW.ofTy o.ty, [(o.a, o.ty.is64), (o.b, o.ty.is64), (o.c, o.ty.is64)], fun l =>
    let rd := typedOf o.ty.is64 o.ty.signed
    wordOf o.ty.is64 (rd (op l 0) * rd (op l 1) + rd (op l 2))⟩ := by
  refine gives_ternary (carry := false) (f := fun t x y z => Opd.addSub t o.ty.is64 false (Opd.mul t o.ty.is64 x y).norm z)
    (h := fun x y z => wordOf o.ty.is64 (x.toNat * y.toNat) + z) (fun _ => rfl) (fun t x y z hx hy hz cx cy cz => ?_) fun x y z => ?_
  · rw [is64_ofTy]
    have hm := (yields_mul hx hy cx cy).norm
    refine (yields_addSub hm.faithful hz hm.clean cz).congr fun p hp => ?_
    refine w32or_eq_iff.2 ?_
    simp only [Bool.false_eq_true, if_false, resOf_add, w32or_eq_iff.1 (hm.val p hp)]
  · rw [is64_ofTy, w32or_eq_iff, resOf_add, resOf_wordOf]
    simp only [resOf_wordOf]
    push_cast
    simp only [op, List.getD_cons_zero, List.getD_cons_succ, typedOf_cast]

theorem movh_value {hi : BitVec 32} {lo : Word} (h : low32 lo = lo) : hi.setWidth 64 <<< 32 ||| lo = hi ++ lo.setWidth 32 := by
  rw [← h]
  apply BitVec.eq_of_getLsbD_eq
  intro i hi
  simp only [BitVec.getLsbD_or, BitVec.getLsbD_shiftLeft, BitVec.getLsbD_setWidth, BitVec.getLsbD_append, low32]
  by_cases h : i < 32
  · simp [h, hi]
  · have h1 : i - 32 < 64 := by omega
    simp [h, h1, hi]

theorem gives_of_intShape {i : Instr} {sh : Shape} (h : intShape i = some sh) : Gives i sh := by
  unfold intShape at h
  split at h
  next o => cases h; exact gives_rrInt (fun _ => rfl) computes_opAdd fun _ _ => add_typed
  next o => cases h; exact gives_riInt (fun _ => rfl) computes_opAdd fun _ _ => add_typed
  next o => cases h; exact gives_rrInt (fun _ => rfl) computes_opSub fun _ _ => sub_typed
  next o => cases h; exact gives_riInt (fun _ => rfl) computes_opSub fun _ _ => sub_typed
  next o => cases h; exact gives_rrInt (fun _ => rfl) computes_opMul fun _ _ => w32or_wordOf.trans mul_typed
  next o => cases h; exact gives_riInt (fun _ => rfl) computes_opMul fun _ _ => w32or_wordOf.trans mul_typed
  next o => cases h; exact gives_rrInt (fun _ => rfl) computes_anyOp fun _ _ => w32or_wordOf
  next o => cases h; exact gives_riInt (fun _ => rfl) computes_anyOp fun _ _ => w32or_wordOf
  next o => -- IMULW
    cases h
    exact gives_map2 (G := mulwV o.ty.signed) (fun _ => rfl) fun _ _ => rfl
  next o =>
    cases h
    exact gives_unary (f := fun _ x => Opd.map2 (mulwV o.s) x (Opd.ofU (o.imm.setWidth 64))) (h := fun x => mulwV o.s x (o.imm.setWidth 64))
      (fun _ => rfl) (fun t x hx cx => yields_map2 (wy := false) hx faithful_ofU cx clean_ofU) fun x _ => by
        rw [mulwV, show typedOf false o.s (o.imm.setWidth 64) = immInt o.s o.imm from typedOf_immOf (w := false)]
        rfl
  next o => cases h; exact gives_imad o
  next o => -- INEG
    cases h
    exact gives_unary (f := fun t => Opd.addSub t o.ty.is64 true (Opd.ofU 0)) (h := fun x => 0 - x) (fun _ => rfl)
      (fun t x hx cx => by rw [is64_ofTy]; exact yields_addSub faithful_ofU hx clean_ofU cx) fun x _ => by
        rw [is64_ofTy, neg_typed]
        exact w32or_wordOf.symm
  next o => -- IABS
    cases h
    exact gives_map1 (G := fun a => wordOf o.ty.is64 (signedOf o.ty.is64 a).natAbs) (fun _ => rfl) fun _ => rfl
  next o => cases h; exact gives_rrInt (fun _ => rfl) computes_anyOp fun _ _ => (congrArg _ min_typed).trans w32or_wordOf
  next o => cases h; exact gives_riInt (fun _ => rfl) computes_anyOp fun _ _ => (congrArg _ min_typed).trans w32or_wordOf
  next o => cases h; exact gives_rrInt (fun _ => rfl) computes_anyOp fun _ _ => (congrArg _ max_typed).trans w32or_wordOf
  next o => cases h; exact gives_riInt (fun _ => rfl) computes_anyOp fun _ _ => (congrArg _ max_typed).trans w32or_wordOf
  next o => cases h; exact gives_rrShift (fun _ => rfl) computes_opShl fun _ _ hc => w32or_wordOf.trans (shl_typed hc)
  next o => cases h; exact gives_riShift (fun _ => rfl) computes_opShl fun _ _ hc => w32or_wordOf.trans (shl_typed hc)
  next o => cases h; exact gives_rrShift (fun _ => rfl) computes_anyOp fun _ _ hc => (congrArg _ (shr_typed hc)).trans w32or_wordOf
  next o => cases h; exact gives_riShift (fun _ => rfl) computes_anyOp fun _ _ hc => (congrArg _ (shr_typed hc)).trans w32or_wordOf
  next o => cases h; exact gives_rrShift (fun _ => rfl) computes_anyOp fun _ _ hc => (congrArg _ (shr_typed hc)).trans w32or_wordOf
  next o => cases h; exact gives_riShift (fun _ => rfl) computes_anyOp fun _ _ hc => (congrArg _ (shr_typed hc)).trans w32or_wordOf
  next o => cases h; exact gives_rrBits fun _ => rfl
  next o => cases h; exact gives_riBits (fun _ => rfl) fun _ _ _ => and_w32or
  next o => cases h; exact gives_rrBits fun _ => rfl
  next o => cases h; exact gives_riBits (fun _ => rfl) fun _ _ _ => or_w32or
  next o => cases h; exact gives_rrBits fun _ => rfl
  next o => cases h; exact gives_riBits (fun _ => rfl) fun _ _ _ => xor_w32or
  next o => -- NOT
    cases h
    exact gives_map1 (G := fun a => w32or o.ty.is64 (~~~a)) (fun _ => rfl) fun _ => congrArg _ not_typed
  next o => cases h; exact gives_rrBits fun _ => rfl
  next o => cases h; exact gives_riBits (fun _ => rfl) fun _ _ _ => andn_w32or
  next o => cases h; exact gives_map1 (G := clzV o.ty.is64) (fun _ => rfl) fun _ => rfl
  next o => cases h; exact gives_map1 (G := popcV o.ty.is64) (fun _ => rfl) fun _ => rfl
  next o => cases h; exact gives_map1 (G := brevV o.ty.is64) (fun _ => rfl) fun _ => rfl
  next o => cases h; exact gives_map2 (G := bfxV o.ty.is64 o.ty.signed) (fun _ => rfl) fun _ _ => rfl
  next o => cases h; exact gives_map3 (G := bfiV o.ty.is64) (fun _ => rfl) fun _ _ _ => rfl
  next o => -- MOV
    cases h
    exact gives_unary (f := fun _ x => x) (h := id) (fun _ => rfl) (fun t x hx cx => by rw [is64_ofTy]; exact hx.yields cx) fun _ _ => rfl
  next o => -- MOVI
    cases h
    refine ⟨false, fun _ _ => Opd.ofU (immOf o.w o.s o.imm), fun _ => rfl, fun s t _ => ?_⟩
    refine yields_ofU.congr fun p _ => ?_
    rw [riRW_eq, is64_riRW, w32or_immOf]
    exact w32or_wordOf.symm
  next o => -- MOVH
    cases h
    exact gives_unary (carry := false) (f := fun _ => Opd.map1 fun lo => (o.imm.setWidth 64 <<< 32) ||| lo) (fun _ => rfl)
      (fun _ _ hx cx => yields_map1 hx cx) fun x hx => congrArg _ (movh_value hx)
  next o => cases h; exact gives_lea o
  next => cases h

/-! ### The floating-point, conversion and packed instructions -/

theorem fltRW_eq {ty : FTy} : rwOf (FTy.is64 ty) = fltRW ty := by cases ty <;> rfl

theorem width_eq {ty : FTy} : (fpOf ty).width = (fpOf ty).eb + (fpOf ty).fb + 1 := by cases ty <;> rfl

theorem two_pow_xor {b n : Nat} (h : b < 2 ^ n) : 2 ^ n ^^^ b = 2 ^ n + b := by
  have hor := Nat.two_pow_add_eq_or_of_lt h 1
  rw [mul_one] at hor
  rw [hor]
  apply Nat.eq_of_testBit_eq
  intro i
  rw [Nat.testBit_xor, Nat.testBit_or, Nat.testBit_two_pow]
  by_cases hi : n = i
  · subst hi
    simp [Nat.testBit_lt_two_pow h]
  · simp [hi]

/-- FNEG flips the top bit. -/
theorem xor_two_pow {a n : Nat} (h : a < 2 ^ (n + 1)) : a ^^^ 2 ^ n = if a < 2 ^ n then a + 2 ^ n else a - 2 ^ n := by
  split
  next hlt => rw [Nat.xor_comm, two_pow_xor hlt, Nat.add_comm]
  next hge =>
    obtain ⟨b, rfl⟩ := Nat.exists_eq_add_of_le (not_lt.1 hge)
    rw [← two_pow_xor (by rw [pow_succ] at h; omega), Nat.xor_comm, ← Nat.xor_assoc, Nat.xor_self, Nat.zero_xor, two_pow_xor,
      Nat.add_sub_cancel_left]
    rw [pow_succ] at h
    omega

theorem packed_eq {f : Nat → Nat} : packed f = pack2 f := by rw [packed, pack2, Nat.mul_comm]

theorem fneg_bits {ty : FTy} {x : Nat} (h : x < 2 ^ (fpOf ty).width) :
    (if x < 2 ^ ((fpOf ty).eb + (fpOf ty).fb) then x + 2 ^ ((fpOf ty).eb + (fpOf ty).fb) else x - 2 ^ ((fpOf ty).eb + (fpOf ty).fb)) =
      x ^^^ 2 ^ ((fpOf ty).width - 1) := by
  rw [width_eq] at h ⊢
  rw [Nat.add_sub_cancel, xor_two_pow h]

theorem gives_flt1 {i : Instr} {o : FR1} {G : FpFmt → Rnd → Nat → Nat} {F : Nat → Nat}
    (hexec : ∀ s, Machine.exec i s = .next (s.flt1 o G))
    (hF : ∀ x, x < 2 ^ (fpOf o.ty).width → G (fpOf o.ty) o.rnd x = F x) : Gives i (fr1 o F) := by
  rw [fr1, ← fltRW_eq]
  exact gives_map1 hexec fun x => congrArg (fun v => w32or _ (BitVec.ofNat 64 v)) (hF _ (Nat.mod_lt _ (by positivity)))

theorem gives_flt2 {i : Instr} {o : FRR} {G : FpFmt → Rnd → Nat → Nat → Nat} {F : Nat → Nat → Nat}
    (hexec : ∀ s, Machine.exec i s = .next (s.flt2 o G)) (hF : ∀ x y, G (fpOf o.ty) o.rnd x y = F x y) : Gives i (frr o F) := by
  rw [frr, ← fltRW_eq]
  exact gives_map2 hexec fun x y => congrArg (fun v => w32or _ (BitVec.ofNat 64 v)) (hF _ _)

theorem gives_of_fltShape {i : Instr} {sh : Shape} (h : fltShape i = some sh) (hq : ∀ o, i = .fcvt o → o.ty ≠ .q4) : Gives i sh := by
  unfold fltShape at h
  split at h
  next o => cases h; exact gives_flt2 (fun _ => rfl) fun _ _ => rfl
  next o => cases h; exact gives_flt2 (fun _ => rfl) fun _ _ => rfl
  next o => cases h; exact gives_flt2 (fun _ => rfl) fun _ _ => rfl
  next o => -- FFMA
    cases h
    rw [← fltRW_eq]
    exact gives_map3 (fun _ => rfl) fun _ _ _ => rfl
  next o => cases h; exact gives_flt2 (fun _ => rfl) fun _ _ => rfl
  next o => cases h; exact gives_flt2 (fun _ => rfl) fun _ _ => rfl
  next o => cases h; exact gives_flt1 (fun _ => rfl) fun _ _ => by rw [width_eq, Nat.add_sub_cancel]
  next o => cases h; exact gives_flt1 (fun _ => rfl) fun _ hx => fneg_bits hx
  next o => cases h; exact gives_map1 (fun _ => rfl) fun _ => rfl
  next o => cases h; exact gives_flt1 (fun _ => rfl) fun _ _ => rfl
  next o => cases h; exact gives_flt1 (fun _ => rfl) fun _ _ => rfl
  next o => cases h; exact gives_flt1 (fun _ => rfl) fun _ _ => rfl
  next o => cases h; exact gives_flt1 (fun _ => rfl) fun _ _ => rfl
  next o => cases h; exact gives_flt1 (fun _ => rfl) fun _ _ => rfl
  next o => cases h; exact gives_flt1 (fun _ => rfl) fun _ _ => rfl
  next o => cases h; exact gives_flt1 (fun _ => rfl) fun _ _ => rfl
  next o => cases h; exact gives_flt1 (fun _ => rfl) fun _ _ => rfl
  next o => -- FCVT
    cases h
    have h4 := hq o rfl
    refine gives_map1 (carry := false) (G := fcvt o.ty o.from_ o.rnd o.ns) (fun s => ?_) fun _ => by rw [if_neg h4]; rfl
    show execFcvt o s = _
    simp only [execFcvt, if_neg h4]
  next o => cases h; exact gives_map1 (fun _ => rfl) fun _ => rfl
  next o => cases h; exact gives_map1 (fun _ => rfl) fun _ => rfl
  next o => cases h; exact gives_map2 (fun _ => rfl) fun _ _ => by rw [packed_eq]; rfl
  next o => cases h; exact gives_map2 (fun _ => rfl) fun _ _ => by rw [packed_eq]; rfl
  next o => cases h; exact gives_map3 (fun _ => rfl) fun _ _ _ => by rw [packed_eq]; rfl
  next o => cases h; exact gives_map3 (fun _ => rfl) fun _ _ _ => rfl
  next o => cases h; exact gives_map3 (fun _ => rfl) fun _ _ _ => rfl
  next => cases h

/-- Settles O10: what an instruction gives is what its shape tells (`Gives`), and a fibre with lanes takes it lane by lane. -/
theorem laneResults : Obligations.LaneResults := by
  rintro i sh s c e t ms (h | ⟨h, hq⟩) hon hg hc
  · exact (gives_of_intShape h).laneResult hon hg hc
  · exact (gives_of_fltShape h hq).laneResult hon hg hc

end Sys2Proof.Machine
end

section
/-!
Guards (02 R43, R48): how the instructions of `actsUnder` act under theirs, the division of a fibre at a word, and from these O24.
-/

namespace Sys2Proof.Machine

open Sys2Proof Sys2Proof.Spec

/-! ### Dividing a fibre -/

section
variable {s : State} {c e : Nat} {t low other : Thread} {next : Bool}

/-- Of more numbers than are used one is free. -/
theorem lowestFree_isSome {used : List Nat} {n : Nat} (h : used.length < n) : ∃ e, lowestFree used n = some e ∧ e ∉ used := by
  have hex : ∃ e ∈ List.range n, e ∉ used := by
    by_contra hno
    simp only [not_exists, not_and, not_not] at hno
    have := (List.nodup_range (n := n)).length_le_of_subset hno
    simp at this
    omega
  obtain ⟨k, hk, hku⟩ := hex
  cases hf : lowestFree used n with
  | none =>
    have := List.find?_eq_none.1 hf k hk
    simp [hku] at this
  | some e =>
    have := List.find?_some hf
    exact ⟨e, rfl, by simpa using this⟩

theorem find?_eq_none_iff {α : Type} {l : Tab α} {k : Nat} : Tab.find? l k = none ↔ k ∉ Tab.keys l := by
  induction l with
  | nil => simp [Tab.find?, Tab.keys]
  | cons x l ih =>
    by_cases h : k = x.1
    · simp [Tab.find?, Tab.keys, h]
    · simp only [Tab.find?, h, if_false, ih]
      simp [Tab.keys, h]

theorem length_set_le {α : Type} {l : Tab α} {k : Nat} {v : α} : (Tab.set l k v).length ≤ l.length + 1 := by
  induction l with
  | nil => simp [Tab.set]
  | cons x l ih =>
    simp only [Tab.set]
    split
    · simp
    · split
      · simp
      · simpa using ih

/-- 02 R47: where an entry is free, the other part takes one. -/
theorem divided_divide (h : HasEntry s c) : Divided s (State.divide s c e low other next) c e low other next := by
  have hlen : (Tab.keys ((s.setFibre c e low).core c).fibres).length < Config.fibreEntries + 1 := by
    have := length_set_le (l := (s.core c).fibres) (k := e) (v := low)
    simp only [State.setFibre, State.core_setCore_self, Tab.keys, List.length_map]
    unfold HasEntry at h
    omega
  obtain ⟨e', he', hnew⟩ := lowestFree_isSome hlen
  have hnone := find?_eq_none_iff.2 hnew
  rw [← fibre?_eq] at hnone
  have hne : e' ≠ e := fun h => by
    rw [h, State.fibre?_setFibre_self] at hnone
    exact nomatch hnone
  rw [State.fibre?_setFibre_ne _ _ _ _ _ hne] at hnone
  have hdiv : ∀ k, (State.divide s c e low other next).fibre? c k = ((s.setFibre c e low).setFibre c e' { other with
      uid := s.fresh, tokId := s.fresh, failed := [], tokHb := [], fbrec := none, peeled := false, slotNo := none }).fibre? c k := by
    intro k
    simp only [State.divide, State.splitTwo, State.addFibre, he', Option.getD_some]
    cases next <;> simp [State.followWith, State.fibre?, State.core, State.setFibre, State.setCore]
  refine ⟨?_, e', hne, hnone, ?_, ?_, fun k hk hk' => ?_, ?_, ?_⟩
  · rw [hdiv, State.fibre?_setFibre_ne _ _ _ _ _ hne.symm, State.fibre?_setFibre_self]
  · rw [hdiv, State.fibre?_setFibre_self]
  · simp only [State.divide, State.splitTwo, State.addFibre, he', Option.getD_some]
    cases next <;> simp [State.followWith, State.core, State.setFibre, State.setCore]
  · rw [hdiv, State.fibre?_setFibre_ne _ _ _ _ _ hk', State.fibre?_setFibre_ne _ _ _ _ _ hk]
  · cases next <;> rfl
  · cases next <;> rfl

theorem turn_divide : (State.divide s c e low other next).turn = s.turn := by cases next <;> rfl

/-! ### Splitting at a word (02 R48) -/

variable {a : Axis} {thr : Nat} {ge : Bool} {g : Guard} {run : Option (List Nat) → State → State} {go pass : State → State}

/-- A cut that is true below its threshold: the lower part acts, and keeps the entry. -/
theorem splitAt_low (ht : s.turn = .fibre c e) (hf : s.fibre? c e = some t) :
    s.splitAt (.c a thr false) go pass =
      s.orWait (pass (go (State.divide s c e (belowCut t a thr) (aboveCut t a thr).advance true))) := by
  simp only [State.splitAt, ht, State.cur?, hf, Thread.parts, Thread.trueLow, State.divide, belowCut, aboveCut, Bool.not_false,
    if_true, Bool.false_eq_true, if_false]

/-- A cut that is true from its threshold on: the lower part keeps the entry and passes the word. -/
theorem splitAt_high (ht : s.turn = .fibre c e) (hf : s.fibre? c e = some t) :
    s.splitAt (.c a thr true) go pass =
      s.orWait (pass (State.divide s c e (belowCut t a thr).advance (aboveCut t a thr) true)) := by
  simp only [State.splitAt, ht, State.cur?, hf, Thread.parts, Thread.trueLow, State.divide, belowCut, aboveCut, Bool.not_true,
    if_true, Bool.false_eq_true, if_false]

theorem guardedDst_c (h : s.cur? = some t) (hg : t.guard g = .c a thr ge) : s.guardedDst g run = s.splitAt (.c a thr ge) (run none) := by
  simp [State.guardedDst, h, hg]

theorem simplify_eq_c {q : Pred} (hx : t.expanded = false) (h : t.simplify q = .c a thr ge) :
    q = .c a thr ge ∧ t.box.lo a < thr ∧ thr < t.box.hi a := by
  cases q with
  | c a' thr' ge' =>
    simp only [Thread.simplify, hx, Bool.false_eq_true, if_false] at h
    have hnorm : (Pred.c a' thr' ge').norm t.box = .c a' thr' ge' := by
      have hn := h
      simp only [Pred.norm] at hn ⊢
      split at hn
      · cases ge' <;> exact nomatch hn
      · split at hn
        · cases ge' <;> exact nomatch hn
        next h1 h2 => rw [if_neg h1, if_neg h2]
    rw [hnorm] at h
    cases h
    exact ⟨rfl, Pred.norm_c_eq_self.1 hnorm⟩
  | m l =>
    simp only [Thread.simplify, hx] at h
    exact nomatch h
  | t => exact nomatch h
  | f => exact nomatch h

/-- What the guard of a range fibre tells of its predicate: a cut through the box. -/
theorem guard_c (hx : t.expanded = false) (hg : t.guard g = .c a thr ge) :
    g.pred ≠ 31#5 ∧ t.pred g.pred.toNat = .c a thr (ge != g.neg) ∧ t.box.lo a < thr ∧ thr < t.box.hi a := by
  unfold Thread.guard at hg
  split at hg
  next => exact nomatch hg
  next h31 =>
    refine ⟨h31, ?_⟩
    obtain ⟨q, hq⟩ : ∃ q, q = if g.neg then (t.pred g.pred.toNat).neg t.active else t.pred g.pred.toNat := ⟨_, rfl⟩
    simp only [← hq] at hg
    have hs : t.simplify q = .c a thr ge := by
      cases q with
      | m l => exact nomatch hg
      | _ => exact hg
    obtain ⟨rfl, hb⟩ := simplify_eq_c hx hs
    refine ⟨?_, hb⟩
    cases hn : g.neg
    · simp only [hn, Bool.false_eq_true, if_false] at hq
      simp [← hq]
    · simp only [hn, if_true] at hq
      cases hp : t.pred g.pred.toNat <;> simp_all [Pred.neg]

theorem guardAt_c (hx : t.expanded = false) (hg : t.guard g = .c a thr ge) : t.guardAt g = .c a thr ge := by
  obtain ⟨-, -, hlo, hhi⟩ := guard_c hx hg
  simp only [Thread.guardAt, hg, Thread.simplify, hx, Bool.false_eq_true, if_false]
  exact Pred.norm_c_eq_self.2 ⟨hlo, hhi⟩

theorem guarded_c (h : s.cur? = some t) (hx : t.expanded = false) (hg : t.guard g = .c a thr ge) :
    s.guarded g run = s.splitAt (.c a thr ge) (run none) := by
  simp [State.guarded, h, guardAt_c hx hg]

theorem pred_setBox {b : Box} {n : Nat} : (t.setBox b).pred n = (t.pred n).norm b := by
  have hfind : ∀ l : Tab Pred, Tab.find? (l.map fun kv => (kv.1, kv.2.norm b)) n = (Tab.find? l n).map (·.norm b) := by
    intro l
    induction l with
    | nil => rfl
    | cons x l ih =>
      simp only [List.map_cons, Tab.find?]
      split
      · rfl
      · exact ih
  simp only [Thread.pred, Thread.setBox, Tab.get, hfind]
  cases Tab.find? t.preds n <;> rfl

/-- In the part where a cut guard is true it is T. -/
theorem guard_belowCut (hx : t.expanded = false) (hg : t.guard g = .c a thr false) : (belowCut t a thr).guard g = .t := by
  obtain ⟨h31, hp, hlo, hhi⟩ := guard_c hx hg
  have hpred : (belowCut t a thr).pred g.pred.toNat = (t.pred g.pred.toNat).norm (t.box.setAxis a (t.box.lo a) thr) :=
    pred_setBox
  have hlo' : (t.box.setAxis a (t.box.lo a) thr).lo a = t.box.lo a := by cases a <;> rfl
  have hhi' : (t.box.setAxis a (t.box.lo a) thr).hi a = thr := by cases a <;> rfl
  have hnlo : ¬ thr ≤ t.box.lo a := by omega
  simp only [Thread.guard, h31, if_false, hpred, hp, Pred.norm, hlo', hhi', hnlo, le_refl, if_true]
  cases g.neg <;> simp [Pred.neg]

end

/-! ### The guarded instructions -/

/-- The instruction does nothing but act under the guard. -/
def ActsBy (i : Instr) (g : Guard) : Prop :=
  ∃ run, (∀ s, Machine.exec i s = .next (s.guardedDst g run)) ∨ ∀ s, Machine.exec i s = .next (s.guarded g run)

section
variable {i : Instr} {g : Guard} {sh : Shape} {psh : PShape}

theorem Gives.actsBy (h : Gives i sh) : ActsBy i sh.g := by
  obtain ⟨carry, f, hexec, -⟩ := h
  exact ⟨_, .inl fun s => (hexec s).trans (congrArg _ result_eq)⟩

theorem actsBy_of_fltShape (h : fltShape i = some sh) : ActsBy i sh.g := by
  by_cases hq : ∀ o, i = .fcvt o → o.ty ≠ .q4
  · exact (gives_of_fltShape h hq).actsBy
  · simp only [not_forall] at hq
    obtain ⟨o, rfl, -⟩ := hq
    cases h
    exact ⟨_, .inl fun _ => rfl⟩

theorem actsBy_of_predResult {n : Nat} {f : State → Thread → Pred × Opd}
    (h : ∀ s, Machine.exec i s = .next (s.predResult g n f)) : ActsBy i g := ⟨_, .inl h⟩

theorem actsBy_of_predShape (h : predShape i = some psh) : ActsBy i psh.g := by
  unfold predShape at h
  split at h
  case h_9 => exact nomatch h
  all_goals
    cases h
    exact actsBy_of_predResult fun _ => rfl

theorem actsBy_of_load {j : Instr} {base : Option Src} {w : Bool} {off : Word} (hj : (reqOf j).isSome = true)
    (h : ∀ s, Machine.exec i s = .next (s.load j g base w off)) : ActsBy i g := by
  obtain ⟨r, hr⟩ := Option.isSome_iff_exists.1 hj
  simp only [State.load, hr] at h
  exact ⟨_, .inl h⟩

theorem actsBy_of_store {j : Instr} {o : StO} {w : Bool} (hj : (reqOf j).isSome = true)
    (h : ∀ s, Machine.exec i s = .next (s.storeInstr j o w)) : ActsBy i o.g := by
  obtain ⟨r, hr⟩ := Option.isSome_iff_exists.1 hj
  simp only [State.storeInstr, hr] at h
  exact ⟨_, .inr h⟩

theorem actsBy_of_atomic {j : Instr} {o : AtomO} {w : Bool} (hj : (reqOf j).isSome = true)
    (h : ∀ s, Machine.exec i s = .next (s.atomInstr j o w)) : ActsBy i o.g := by
  obtain ⟨r, hr⟩ := Option.isSome_iff_exists.1 hj
  simp only [State.atomInstr, hr] at h
  exact ⟨_, .inl h⟩

/-- RED alone has an effect where it passes. -/
theorem actsBy_of_actsUnder (h : actsUnder i = some g) (hr : ∀ o, i ≠ .red o) : ActsBy i g := by
  unfold actsUnder at h
  split at h
  next hs => cases h; exact (gives_of_intShape hs).actsBy
  next hs _ => cases h; exact (actsBy_of_fltShape hs)
  next hs _ _ => cases h; exact (actsBy_of_predShape hs)
  next =>
    split at h
    case h_7 => exact absurd rfl (hr _)
    case h_10 | h_11 | h_12 => cases h; exact (actsBy_of_load rfl fun _ => rfl)
    case h_13 | h_14 => cases h; exact (actsBy_of_store rfl fun _ => rfl)
    case h_16 | h_17 => cases h; exact (actsBy_of_atomic rfl fun _ => rfl)
    case h_15 | h_18 | h_19 => cases h; exact ⟨_, .inr fun _ => rfl⟩
    case h_20 => exact nomatch h
    all_goals
      cases h
      exact ⟨_, .inl fun _ => rfl⟩

end

/-! ### Counting a RED -/

section
variable {s : State} {c e ctx d : Nat} {t : Thread} {o : RedO} {f : Thread → Thread}

theorem cctx_wake : ((s.wake c e f).core d).cctx = (s.core d).cctx := by
  have hset : ∀ x : Core, x.cctx = (s.core c).cctx → ((s.setCore c x).core d).cctx = (s.core d).cctx := fun x hx => by
    by_cases h : d = c
    · rw [h, State.core_setCore_self, hx]
    · rw [State.core_setCore_ne _ _ _ _ h]
  have hmod : ∀ g, ((s.modThread c e g).core d).cctx = (s.core d).cctx := fun g => by
    unfold State.modThread State.modFibre
    split
    · exact hset _ rfl
    · split
      · exact hset _ rfl
      · rfl
  unfold State.wake
  extract_lets s1
  split
  · exact hmod _
  · exact hmod _

theorem cctx_wakeRdsum : ((s.wakeRdsum c ctx).core d).cctx = (s.core d).cctx := by
  refine List.foldlRecOn (motive := fun u : State => (u.core d).cctx = (s.core d).cctx) (s.core c).fibres _ rfl fun u hu kv _ => ?_
  split
  · rw [resourcesFreed_core, cctx_wake, hu]
  · exact hu

/-- 07 R182: counting changes the register's number alone. -/
theorem sregOf_redCount (h : s.turn = .fibre c e) :
    sregOf (s.redCount o t) c t.ctx o.s.toNat =
      { sregOf s c t.ctx o.s.toNat with seq := (sregOf s c t.ctx o.s.toNat).seq + 1 } := by
  have hc : s.redCore = c := by simp [State.redCore, State.curCore, h]
  simp only [sregOf, State.redCount, Core.ctx, cctx_wakeRdsum]
  simp [State.setRedCtx, State.redCtx, hc, Core.setCtx, Core.ctx]

end

section
variable {i : Instr} {s : State} {c e thr : Nat} {t : Thread} {g : Guard} {a : Axis} {o : RedO}

theorem cur?_divide {low other : Thread} (h : s.turn = .fibre c e) (he : HasEntry s c) :
    (State.divide s c e low other true).cur? = some low := by
  obtain ⟨hlow, -⟩ := divided_divide (e := e) (low := low) (other := other) (next := true) he
  exact (cur?_fibre (turn_divide.trans h)).trans hlow

/-- 02 R48: under a cut that is true below its threshold the lower part, which keeps the entry, executes the word. -/
theorem ActsBy.exec_low (h : ActsBy i g) (hon : OnRange s c e t) (he : HasEntry s c) (hg : t.guard g = .c a thr false) :
    ∃ u, Machine.exec i (State.divide s c e (belowCut t a thr) (aboveCut t a thr).advance true) = .next u ∧
      Machine.exec i s = .next (s.orWait u) := by
  obtain ⟨ht, hf, -, hx, -⟩ := hon
  have hcur : s.cur? = some t := (cur?_fibre ht).trans hf
  have hlow := cur?_divide (low := belowCut t a thr) (other := (aboveCut t a thr).advance) ht he
  have hgl := guard_belowCut hx hg
  obtain ⟨run, hexec | hexec⟩ := h
  · exact ⟨_, (hexec _).trans (congrArg _ (State.guardedDst_t _ _ g run hlow hgl)),
      (hexec s).trans (congrArg _ ((guardedDst_c hcur hg).trans (splitAt_low ht hf)))⟩
  · exact ⟨_, (hexec _).trans (congrArg _ (State.guarded_t _ _ g run hlow hgl)),
      (hexec s).trans (congrArg _ ((guarded_c hcur hx hg).trans (splitAt_low ht hf)))⟩

/-- 02 R48: under a cut that is true from its threshold on the lower part passes the word. -/
theorem ActsBy.exec_high (h : ActsBy i g) (hon : OnRange s c e t) (hg : t.guard g = .c a thr true) :
    Machine.exec i s = .next (s.orWait (State.divide s c e (belowCut t a thr).advance (aboveCut t a thr) true)) := by
  obtain ⟨ht, hf, -, hx, -⟩ := hon
  have hcur : s.cur? = some t := (cur?_fibre ht).trans hf
  obtain ⟨run, hexec | hexec⟩ := h
  · exact (hexec s).trans (congrArg _ ((guardedDst_c hcur hg).trans (splitAt_high ht hf)))
  · exact (hexec s).trans (congrArg _ ((guarded_c hcur hx hg).trans (splitAt_high ht hf)))

/-- RED under a cut counts for the part that passes. -/
theorem exec_red_c {ge : Bool} (hcur : s.cur? = some t) (hx : t.expanded = false) (hg : t.guard o.g = .c a thr ge) :
    Machine.exec (.red o) s = .next (s.splitAt (.c a thr ge) (·.redAll o none) (·.redCount o t)) := by
  show execRed o s = _
  simp only [execRed, hcur, guardAt_c hx hg]

theorem exec_red_t (hcur : s.cur? = some t) (hg : t.guard o.g = .t) : Machine.exec (.red o) s = .next (s.redAll o none) := by
  show execRed o s = _
  simp only [execRed, hcur, Thread.guardAt, hg, Thread.simplify_t]
  rw [State.guarded_t s t o.g _ hcur hg]

theorem exec_red_f (hcur : s.cur? = some t) (hg : t.guard o.g = .f) : Machine.exec (.red o) s = .next (s.setCur t.advance) := by
  show execRed o s = _
  simp only [execRed, hcur, Thread.guardAt, hg, Thread.simplify_f]
  rw [State.guarded_f s t o.g _ hcur hg]

end

/-- Settles O24: an instruction of `actsUnder` other than RED does nothing but act under its guard (`ActsBy`). -/
theorem guardsSkipAndSplit : Obligations.GuardsSkipAndSplit := by
  refine ⟨fun i g s t hi hcur hg => ?_, fun i g s c e t a thr ge hi hon hentry hg => ⟨?_, ?_, ?_⟩⟩
  · by_cases hr : ∃ o, i = .red o
    · obtain ⟨o, rfl⟩ := hr
      cases hi
      exact exec_red_f hcur hg
    · obtain ⟨run, hexec | hexec⟩ := actsBy_of_actsUnder hi (not_exists.1 hr)
      · exact (hexec s).trans (congrArg _ (State.guardedDst_f s t g run hcur hg))
      · exact (hexec s).trans (congrArg _ (State.guarded_f s t g run hcur hg))
  · rintro rfl s1
    refine ⟨divided_divide hentry, ?_⟩
    split
    next o =>
      cases hi
      obtain ⟨ht, hf, -, hx, -⟩ := hon
      exact ⟨_, exec_red_t (cur?_divide ht hentry) (guard_belowCut hx hg),
        (exec_red_c ((cur?_fibre ht).trans hf) hx hg).trans (congrArg _ (splitAt_low ht hf))⟩
    next hr => exact (actsBy_of_actsUnder hi hr).exec_low hon hentry hg
  · rintro rfl s1
    refine ⟨divided_divide hentry, ?_⟩
    split
    next o =>
      cases hi
      obtain ⟨ht, hf, -, hx, -⟩ := hon
      exact (exec_red_c ((cur?_fibre ht).trans hf) hx hg).trans (congrArg _ (splitAt_high ht hf))
    next hr => exact (actsBy_of_actsUnder hi hr).exec_high hon hg
  · intro o u r hu
    exact sregOf_redCount (hu.trans hon.1)

end Sys2Proof.Machine
end

section
/-!
O12, O15 and O20 fail at states that their premises admit and no step reaches: cores whose fibres hold more lane blocks than there
are, and a core that lists an entry twice.
-/

namespace Sys2Proof.Machine

open Sys2Proof Sys2Proof.Spec

/-- A core that lists entry 0 twice: first the fibre of the turn, in WAIT, then one whose RDSUM waits for the first RED. -/
def twiceListed : State :=
  let word := (encode (.rdsum ⟨Guard.always, ⟨false, 4#6⟩, .reg 0#6, .n32, 0#4⟩)).getD 0
  let waiter : Thread := { Thread.blank .fibre with why := .rdsum, clause := some ⟨0, 0, [word], 0, true⟩ }
  { State.reset with
    cores := [(0, { Core.reset with fibres := [(0, { Thread.blank .fibre with st := .wait }), (0, waiter)] })]
    turn := .fibre 0 0 }

/-- Refutes O20: the clause on RED asks for no core that lists each entry once. In `twiceListed` this RED wakes the RDSUM of the
second fibre of entry 0, and waking goes by entry: it makes the first one, the turn's, ready, where the clause has its state kept. No
step reaches such a core. -/
theorem not_reductionRegisters : ¬ Obligations.ReductionRegisters := by
  intro h
  let red : RedO := ⟨Guard.always, .reg 0#6, .i32, 0#4, false⟩
  obtain ⟨u, hu, -, -, -, hf, -⟩ := h.1 red twiceListed 0 0 _ ⟨rfl, rfl, rfl⟩ rfl rfl (by decide +kernel)
  have hst : (match Machine.exec (.red red) twiceListed with
      | .next u => (u.fibre? 0 0).map Thread.st
      | _ => none) = some .ready := by decide +kernel
  rw [hu] at hst
  simp only [hf] at hst
  revert hst
  decide

/-- A range fibre of two by two indices that holds one lane block more than a core has, with an affine g0 and a cut on each of two
axes. -/
def holder : Thread :=
  { Thread.blank .fibre with
    box := ⟨0, 2, 0, 2, 0, 1⟩, regs := [(0, .a 0 1 0 0)], preds := [(0, .c .x 1 false), (1, .c .y 1 false)]
    blocks := List.range (Config.laneBlocks + 1) }

/-- Core 0 with `holder` as its one fibre, whose turn it is. -/
def overfull : State :=
  { State.reset with cores := [(0, { Core.reset with fibres := [(0, holder)] })], turn := .fibre 0 0 }

theorem onRange_holder : OnRange overfull 0 0 holder := ⟨rfl, rfl, rfl, rfl, by decide +kernel⟩

theorem setBox_holder : holder.setBox holder.box = holder := by
  have hcuts : ∀ kv ∈ holder.preds, kv.2.norm holder.box = kv.2 := by decide +kernel
  exact normalCuts_iff.2 (fun _ _ => hcuts) rfl

/-- Of the blocks that growing looks at none is free: the grown fibre has no block for its lanes. -/
theorem not_grown_holder (t0 : Thread) : ¬ Grown overfull 0 0 holder t0 := by
  rintro ⟨hf, -, bs, rfl, hlen, -⟩
  have hnone : ((overfull.grow 0 0 holder).fibre? 0 0).map Thread.blocks = some [] := by decide +kernel
  have hbs : bs = [] := by simpa [hf, Thread.expandIn] using hnone
  simp [hbs, holder, Box.count, Box.ex, Box.ey, Box.ez] at hlen

/-- Refutes O12: nothing in its premises bounds the lane blocks that the core's fibres hold. In `overfull` none of the core's blocks
is free, so FABS grows the fibre by fewer blocks than its lanes take. No step reaches such a core. -/
theorem not_rangeFibreResults : ¬ Obligations.RangeFibreResults := by
  intro h
  obtain ⟨t0, -, hg, -⟩ := h.2 (.fabs ⟨Guard.always, ⟨false, 4#6⟩, .reg 0#6, .f32, .rne⟩) _ overfull 0 0 holder rfl
    (fun _ h => nomatch h) onRange_holder (by decide +kernel) setBox_holder rfl (by decide +kernel)
    ⟨holder.read32 0, .head _, by decide +kernel⟩
  exact not_grown_holder t0 hg

/-- A predicate without lanes that is true at the first of the four indices is true at the second or at the third. -/
theorem holder_predAt {q : Pred} (hq : q.isM = false) (h0 : holder.predAt q 0 = true) :
    holder.predAt q 1 = true ∨ holder.predAt q 2 = true := by
  have hix : ∀ a, (holder.idxAt 0).at_ a = (holder.idxAt 1).at_ a ∨ (holder.idxAt 0).at_ a = (holder.idxAt 2).at_ a := by
    rintro (_ | _ | _) <;> decide +kernel
  cases q with
  | t => exact .inl rfl
  | f => cases h0
  | c a thr ge =>
    simp only [Thread.predAt] at h0 ⊢
    rcases hix a with h | h <;> simp [← h, h0]
  | m l => cases hq

/-- Refutes O15: as for O12, its premises do not bound the lane blocks that fibres hold. In `overfull` PAND of cuts on two axes has no
T, F or cut for its result, and the fibre that it grows has fewer blocks than its lanes take. -/
theorem not_cutResults : ¬ Obligations.CutResults := by
  intro h
  obtain ⟨q, hq, -, -, hgrow⟩ := h.2 (.pand ⟨Guard.always, 2#6, 0#6, 1#6, false, false⟩) _ overfull 0 0 holder rfl rfl
    onRange_holder rfl (by decide +kernel)
  have hval : ∀ p, p < 4 → holder.predAt q p = decide (p = 0) := by
    intro p hp
    rw [hq p (by simpa [holder, Box.count, Box.ex, Box.ey, Box.ez] using hp)]
    revert p
    decide +kernel
  have hm : q.isM = true := by
    by_contra hm
    have := holder_predAt (by simpa using hm) (hval 0 (by omega))
    simp [hval] at this
  obtain ⟨t0, -, hg, -⟩ := hgrow hm (by decide +kernel) setBox_holder
  exact not_grown_holder t0 hg

end Sys2Proof.Machine
end

section
/-!
O31 and O33 fail where their premises hold of an instruction that no word decodes to, and of a memory that no step reaches: a store
that asks for a promoting acquire, and bytes out of their canonical order.
-/

namespace Sys2Proof.Machine

open Sys2Proof Sys2Proof.Spec

/-- A context whose table maps addresses from 0 by one L2 leaf, which may be read and not written. -/
def readOnlyCtx : Ctx :=
  { priv := false, gen := 0, root := 0, qdesc := 0, save := 0, pool := 0, poolUsed := 0, rwF := false, rwR := false, rwEn := false
    wdog := 0, knit := 0, swapDelay := 0, arenaBase := 0, arenaSize := 0, arenaUsed := 0, majors := [], rules := [], meas := []
    objs := [], syms := [], tail := 0, bells := [], jobs := [], held := [], saved := [], flushed := [], hostHb := [], loadHb := [] }

/-- A fibre of one index, inside a clause, with the address 8 in g0. -/
def atEight : Thread :=
  { Thread.blank .fibre with regs := [(0, .u 8 false), (1, .p)], clause := some ⟨0, 0, [0], 0, true⟩ }

/-- Core 0 with `atEight` as its one fibre, whose turn it is, in the context `readOnlyCtx`. -/
def readOnly : State :=
  { State.reset with
    mem := ⟨[(0, 7)], [], [], []⟩, ctxs := [(0, readOnlyCtx)], turn := .fibre 0 0
    cores := [(0, { Core.reset with fibres := [(0, atEight)] })] }

/-- The causes in the trap queue of cluster 0 after an instruction. -/
def causesAfter (i : Instr) (s : State) : List (BitVec 8) :=
  match Machine.exec i s with
  | .next u => (u.cluster 0).trapq.map TrapRec.cause
  | _ => []

/-- Refutes O31: its clause on ST leaves ORD and SCP free. With both those of a promoting acquire, whose access must lie in the lower
half of its granule (03 R87), a byte store at 8 traps MISALIGNED before the page's missing W is looked at. 08 R213 has the word of such a
store trap RESERVED_FIELD, so none executes. -/
theorem not_accessChecks : ¬ Obligations.AccessChecks := by
  intro h
  let st : StO := ⟨Guard.always, .reg 0#6, .reg 0#6, 0#20, 4#4, 1#2, 3#2, 0#2⟩
  obtain ⟨-, hst, -⟩ := h readOnly 0 0 atEight ⟨rfl, rfl, rfl, rfl, by decide +kernel⟩ (by decide +kernel) nofun
    ⟨by decide +kernel, rfl⟩ ⟨rfl, rfl⟩
  obtain ⟨-, -, hperm⟩ := hst st rfl rfl
  obtain ⟨u, hu, -, -, -, r, hr, -, hc, -⟩ := hperm 2 0 (by decide +kernel) (by decide +kernel) (by decide +kernel)
  have hq : causesAfter (.st st) readOnly = [cMisaligned] := by decide +kernel
  have hempty : (readOnly.cluster 0).trapq = [] := rfl
  simp only [causesAfter, hu, hr] at hq
  rw [hempty, List.nil_append, List.map_singleton, hc] at hq
  exact absurd hq (by decide)

/-- A memory that lists address 1 before address 0, and a management core, whose addresses are not translated, with the turn. -/
def unsorted : State := { State.reset with mem := ⟨[(1, 1), (0, 1)], [], [], []⟩, turn := .mc 0 }

/-- The number at address 0 after an instruction. -/
def wordAfter (i : Instr) (s : State) : Nat :=
  match Machine.exec i s with
  | .next u => numAt u none 0 4
  | _ => 0

theorem reaches_unsorted : Reaches unsorted Mc.reset.th 0 4 .rw 0 :=
  ⟨⟨rfl, rfl, fun _ => rfl, ⟨2, 0x3F#64, by decide +kernel⟩, rfl, rfl, ⟨rfl, rfl⟩, rfl, nofun⟩, rfl⟩

/-- Refutes O33: nothing in its premises has memory in canonical form. In `unsorted` writing a zero at address 0 finds no cell of that
address where the order has it, and leaves the 1 that stands behind: swapping 0 for the word there stores 1. -/
theorem not_atomicsReadModifyWrite : ¬ Obligations.AtomicsReadModifyWrite := by
  intro h
  let swap : AtomO := ⟨Guard.always, ⟨false, 4#6⟩, .reg 0#6, .reg 0#6, .reg 0#6, .n32, 6#3, 0#2, 0#2, false⟩
  obtain ⟨hat, -⟩ := h.2 unsorted Mc.reset.th swap ⟨rfl, rfl, rfl, rfl⟩ rfl rfl rfl nofun (.inl (by decide))
  obtain ⟨u, hu, -, hstored, -⟩ := hat 0 rfl reaches_unsorted
  have hn : wordAfter (.atom swap) unsorted = 1 := by decide +kernel
  simp only [wordAfter, hu] at hn
  exact absurd (hn.symm.trans hstored) (by decide +kernel)

end Sys2Proof.Machine
end

section
/-!
Translation (17 R361, R362): what a walk, a TLB and the caches of pointers answer in states that differ elsewhere, and after the
caches have taken the leaf that served an access.
-/

namespace Sys2Proof.Machine

open Sys2Proof Sys2Proof.Spec

/-! ### States that differ in threads alone -/

/-- `u` differs from `s` in compute cores and in the threads of management cores alone. -/
def ThreadsOnly (s u : State) : Prop :=
  ∃ cs ks, u = { s with cores := cs, clusters := ks } ∧ ∀ k, ∃ th, u.mc k = { s.mc k with th := th }

section
variable {s u v : State} {t t' : Thread} {sp : VSpace} {va n pa c : Nat} {p : Perm} {x : Core}

theorem ThreadsOnly.refl : ThreadsOnly s s := ⟨s.cores, s.clusters, rfl, fun k => ⟨(s.mc k).th, rfl⟩⟩

theorem ThreadsOnly.trans (h : ThreadsOnly s u) (h' : ThreadsOnly u v) : ThreadsOnly s v := by
  obtain ⟨cs, ks, hu, hmc⟩ := h
  obtain ⟨cs', ks', hv, hmc'⟩ := h'
  refine ⟨cs', ks', by rw [hv, hu], fun k => ?_⟩
  obtain ⟨th, hk⟩ := hmc k
  obtain ⟨th', hk'⟩ := hmc' k
  exact ⟨th', by rw [hk', hk]⟩

theorem threadsOnly_setCore : ThreadsOnly s (s.setCore c x) := ⟨_, s.clusters, rfl, fun k => ⟨(s.mc k).th, rfl⟩⟩

theorem threadsOnly_setCur : ThreadsOnly s (s.setCur t) := by
  unfold State.setCur
  split
  next => exact threadsOnly_setCore
  next =>
    split
    next => exact threadsOnly_setCore
    next => exact .refl
  next k _ =>
    refine ⟨s.cores, _, rfl, fun j => ?_⟩
    by_cases hj : j = k
    · exact ⟨t, by rw [hj, State.mc_setMc_self]⟩
    · exact ⟨(s.mc j).th, by rw [State.mc_setMc_ne _ _ _ _ hj]⟩
  next => exact .refl

theorem threadsOnly_issued : ThreadsOnly s s.issued := by
  unfold State.issued
  split
  next =>
    split
    next => exact threadsOnly_setCore
    next => exact .refl
  next => exact .refl

theorem ThreadsOnly.mem (h : ThreadsOnly s u) : u.mem = s.mem := by obtain ⟨_, _, rfl, -⟩ := h; rfl
theorem ThreadsOnly.log (h : ThreadsOnly s u) : u.log = s.log := by obtain ⟨_, _, rfl, -⟩ := h; rfl
theorem ThreadsOnly.turn (h : ThreadsOnly s u) : u.turn = s.turn := by obtain ⟨_, _, rfl, -⟩ := h; rfl

/-! ### Walks -/

theorem badRead_congr (hm : u.mem = s.mem) (hb : u.hbm = s.hbm) : u.badRead none pa n = s.badRead none pa n := by
  unfold State.badRead State.poisonIn State.poisonAt State.lineBad State.deadAt State.pchIn State.pch
  rw [hm, hb]

/-- A walk looks at memory, at what is poisoned there and at what is populated. -/
theorem walk_congr (hm : u.mem = s.mem) (hb : u.hbm = s.hbm) (hh : u.host = s.host) (table level : Nat) :
    u.walk va n table level = s.walk va n table level := by
  have hleaf : ∀ k l, u.leafBad k l = s.leafBad k l := fun k l => by simp [State.leafBad, State.populated, hh]
  induction n generalizing table level with
  | zero => rfl
  | succ n ih => simp only [State.walk, hm, badRead_congr hm hb, hleaf, ih]

theorem xlatLeaf_congr (hh : u.host = s.host) (level : Nat) (l : Word) : u.xlatLeaf va p level l = s.xlatLeaf va p level l := by
  simp [State.xlatLeaf, State.populated, hh]

theorem xlatWalk_congr (hh : u.host = s.host) (w : Except (Nat × Nat) (Nat × Word)) : u.xlatWalk va p w = s.xlatWalk va p w := by
  unfold State.xlatWalk
  split
  next => exact xlatLeaf_congr hh _ _
  next => rfl

theorem ThreadsOnly.rootOf (h : ThreadsOnly s u) : u.rootOf sp = s.rootOf sp := by
  obtain ⟨_, _, hu, hmc⟩ := h
  cases sp with
  | ctx k unit => rw [hu]; rfl
  | mc k =>
    obtain ⟨th, hk⟩ := hmc k
    simp [State.rootOf, hk]

theorem ThreadsOnly.tlbHits (h : ThreadsOnly s u) : u.tlbHits sp va = s.tlbHits sp va := by
  obtain ⟨_, _, hu, hmc⟩ := h
  cases sp with
  | ctx k unit => rw [hu]; rfl
  | mc k =>
    obtain ⟨th, hk⟩ := hmc k
    simp [State.tlbHits, hk]

theorem ThreadsOnly.ptrHits (h : ThreadsOnly s u) : u.ptrHits sp va = s.ptrHits sp va := by
  obtain ⟨_, _, rfl, -⟩ := h
  rfl

theorem ThreadsOnly.walk (h : ThreadsOnly s u) (table level : Nat) : u.walk va n table level = s.walk va n table level := by
  obtain ⟨_, _, hu, -⟩ := h
  exact walk_congr (by rw [hu]) (by rw [hu]) (by rw [hu]) _ _

theorem ThreadsOnly.xlatWalk (h : ThreadsOnly s u) (w : Except (Nat × Nat) (Nat × Word)) : u.xlatWalk va p w = s.xlatWalk va p w := by
  obtain ⟨_, _, hu, -⟩ := h
  exact xlatWalk_congr (by rw [hu]) _

theorem ThreadsOnly.xlatLeaf (h : ThreadsOnly s u) (level : Nat) (l : Word) : u.xlatLeaf va p level l = s.xlatLeaf va p level l := by
  obtain ⟨_, _, hu, -⟩ := h
  exact xlatLeaf_congr (by rw [hu]) _ _

theorem ThreadsOnly.xlat (h : ThreadsOnly s u) : u.xlat sp va p = s.xlat sp va p := by
  have hd : u.draw = s.draw := by obtain ⟨_, _, rfl, -⟩ := h; rfl
  have hp : u.populated va = s.populated va := by obtain ⟨_, _, rfl, -⟩ := h; rfl
  simp only [State.xlat, State.xlat.go, h.rootOf, h.tlbHits, h.ptrHits, h.walk, h.xlatWalk, h.xlatLeaf, hd, hp]

theorem ThreadsOnly.curSpace (h : ThreadsOnly s u) (hc : t'.ctx = t.ctx) : u.curSpace t' = s.curSpace t := by
  simp only [State.curSpace, h.turn, hc]

theorem ThreadsOnly.addrBad (h : ThreadsOnly s u) : u.addrBad va = s.addrBad va := by
  obtain ⟨_, _, hu, hmc⟩ := h
  have ht : u.turn = s.turn := by rw [hu]
  unfold State.addrBad
  rw [ht]
  split
  next k _ =>
    obtain ⟨th, hk⟩ := hmc k
    rw [hk]
  next => rfl

theorem ThreadsOnly.calm (h : ThreadsOnly s u) (hc : Calm s) : Calm u := by
  obtain ⟨_, _, rfl, -⟩ := h
  exact hc

theorem ThreadsOnly.badRead (h : ThreadsOnly s u) : u.badRead none pa n = s.badRead none pa n := by
  obtain ⟨_, _, rfl, -⟩ := h
  rfl

theorem ThreadsOnly.resolves (h : ThreadsOnly s u) (hr : Resolves s sp va p pa) : Resolves u sp va p pa := by
  have hen : ∀ k, (u.mc k).en = (s.mc k).en := fun k => by
    obtain ⟨_, _, -, hmc⟩ := h
    obtain ⟨th, hk⟩ := hmc k
    rw [hk]
  simpa only [Resolves, h.xlat, h.rootOf, h.tlbHits, h.ptrHits, h.walk, h.xlatWalk, h.xlatLeaf, hen] using hr

end

/-! ### Other entries in the translation caches -/

/-- `u` is `s`, or `s` with other entries in the translation caches that serve the current agent. -/
def Cached (s u : State) : Prop := u = s ∨ ∃ l m ps, u = cachesOf s l m ps

section
variable {s u v : State} {t : Thread} {sp : VSpace} {va n pa level c : Nat} {leaf : Word} {p : Perm}

/-- The other entries lie in the die's TLBs and pointer caches, or in the current management core's own TLB. -/
theorem Cached.frame (h : Cached s u) : ∃ l ps ks, u = { s with tlb := l, ptrs := ps, clusters := ks } ∧
    ∀ k, ∃ m, u.mc k = { s.mc k with tlb := m } := by
  rcases h with rfl | ⟨l, m, ps, rfl⟩
  · exact ⟨_, _, _, rfl, fun k => ⟨_, rfl⟩⟩
  · unfold cachesOf
    split
    next k _ =>
      refine ⟨_, _, _, rfl, fun j => ?_⟩
      by_cases hj : j = k
      · exact ⟨m, by rw [hj, State.mc_setMc_self]⟩
      · exact ⟨(s.mc j).tlb, by rw [State.mc_setMc_ne _ _ _ _ hj]⟩
    next => exact ⟨l, ps, _, rfl, fun k => ⟨(s.mc k).tlb, rfl⟩⟩

theorem cachesOf_mc {k : Nat} {l m : List TlbEnt} {ps : List PtrEnt} (h : s.turn = .mc k) :
    cachesOf s l m ps = s.setMc k { s.mc k with tlb := m } := by simp only [cachesOf, h]

theorem cachesOf_of_ne {l m : List TlbEnt} {ps : List PtrEnt} (h : ∀ k, s.turn ≠ .mc k) :
    cachesOf s l m ps = { s with tlb := l, ptrs := ps } := by
  unfold cachesOf
  split
  next k hk => exact absurd hk (h k)
  next => rfl

theorem cachesOf_cachesOf {l l' m m' : List TlbEnt} {ps ps' : List PtrEnt} :
    cachesOf (cachesOf s l m ps) l' m' ps' = cachesOf s l' m' ps' := by
  cases ht : s.turn <;>
    simp [cachesOf, ht, State.setMc, State.setCluster, State.mc, State.cluster, Tab.set_set]

theorem Cached.refl : Cached s s := .inl rfl

theorem Cached.trans (h : Cached s u) (h' : Cached u v) : Cached s v := by
  rcases h with rfl | ⟨l, m, ps, rfl⟩
  · exact h'
  · rcases h' with rfl | ⟨l', m', ps', rfl⟩
    · exact .inr ⟨l, m, ps, rfl⟩
    · exact .inr ⟨l', m', ps', cachesOf_cachesOf⟩

/-- 17 R362: the TLBs and the cache of pointers take what served an access of the agent, and nothing else changes. -/
theorem cached_fillTlb : Cached s (s.fillTlb (s.curSpace t) va level leaf) := by
  have key : ∀ (n : Nat) (w : TlbUnit), (∀ k, s.turn ≠ .mc k) → Cached s (s.fillTlb (.ctx n w) va level leaf) := fun n w h => by
    simp only [State.fillTlb]
    split
    · exact .refl
    · exact .inr ⟨_, [], _, (cachesOf_of_ne h).symm⟩
  unfold State.curSpace
  split
  next k ht =>
    simp only [State.fillTlb]
    split
    · exact .refl
    · exact .inr ⟨[], _, [], (cachesOf_mc ht).symm⟩
  next ht => exact key _ _ (by simp [ht])
  next ht => exact key _ _ (by simp [ht])
  next h _ _ => exact key _ _ h

theorem Cached.mem (h : Cached s u) : u.mem = s.mem := by obtain ⟨_, _, _, rfl, -⟩ := h.frame; rfl
theorem Cached.log (h : Cached s u) : u.log = s.log := by obtain ⟨_, _, _, rfl, -⟩ := h.frame; rfl
theorem Cached.turn (h : Cached s u) : u.turn = s.turn := by obtain ⟨_, _, _, rfl, -⟩ := h.frame; rfl
theorem Cached.agenda (h : Cached s u) : u.agenda = s.agenda := by obtain ⟨_, _, _, rfl, -⟩ := h.frame; rfl
theorem Cached.hbm (h : Cached s u) : u.hbm = s.hbm := by obtain ⟨_, _, _, rfl, -⟩ := h.frame; rfl
theorem Cached.host (h : Cached s u) : u.host = s.host := by obtain ⟨_, _, _, rfl, -⟩ := h.frame; rfl
theorem Cached.core (h : Cached s u) : u.core c = s.core c := by obtain ⟨_, _, _, rfl, -⟩ := h.frame; rfl

theorem Cached.calm (h : Cached s u) (hc : Calm s) : Calm u := by
  obtain ⟨_, _, _, rfl, -⟩ := h.frame
  exact hc

theorem Cached.badRead (h : Cached s u) : u.badRead none pa n = s.badRead none pa n := by
  obtain ⟨_, _, _, rfl, -⟩ := h.frame
  rfl

theorem Cached.cur? (h : Cached s u) : u.cur? = s.cur? := by
  obtain ⟨_, _, _, hu, hmc⟩ := h.frame
  have ht : u.turn = s.turn := by rw [hu]
  have hc : ∀ c, u.core c = s.core c := fun c => by rw [hu]; rfl
  unfold State.cur?
  rw [ht]
  split
  next => simp only [State.fibre?, hc]
  next => rw [hc]
  next k _ =>
    obtain ⟨m, hk⟩ := hmc k
    rw [hk]
  next => rfl

end

end Sys2Proof.Machine
end

section
/-!
Translation after the caches have taken the leaf that served an access (17 R362): every address of its page goes on resolving.
-/

namespace Sys2Proof.Machine

open Sys2Proof Sys2Proof.Spec

/-- What a walk from the root, each TLB hit and each cached pointer answers for an address is `x`. -/
def ServedAs (s : State) (sp : VSpace) (root va : Nat) (p : Perm) (x : Xlat) : Prop :=
  s.xlatWalk va p (s.walk va 3 root 0) = x ∧
  (∀ e ∈ s.tlbHits sp va, s.xlatLeaf va p e.level e.leaf = x) ∧
  ∀ e ∈ s.ptrHits sp va, s.xlatWalk va p (s.walk va (2 - e.level) (leafPa e.entry) (e.level + 1)) = x

section
variable {s u : State} {sp : VSpace} {a b va n root table level pa pb : Nat} {leaf : Word} {p : Perm} {x : Xlat} {d : Nat}
  {e f : TlbEnt} {l : List TlbEnt} {w : Except (Nat × Nat) (Nat × Word)}

theorem xlat_of_root (h : s.rootOf sp = some root) : s.xlat sp va p = State.xlat.go s sp va p root := by
  unfold State.xlat
  split <;> simp_all

/-- Where whatever may serve an access agrees, that is its translation. -/
theorem xlat_eq_of_servedAs (h : s.rootOf sp = some root) (hva : va < 2 ^ 55) (hx : ServedAs s sp root va p x) :
    s.xlat sp va p = x := by
  obtain ⟨hw, ht, hp⟩ := hx
  have hothers : (((s.tlbHits sp va).map fun e => s.xlatLeaf va p e.level e.leaf) ++ (s.ptrHits sp va).map fun e =>
      s.xlatWalk va p (s.walk va (2 - e.level) (leafPa e.entry) (e.level + 1))).filter (· ≠ x) = [] := by
    simpa [List.filter_eq_nil_iff, or_imp, forall_and] using ⟨ht, hp⟩
  rw [xlat_of_root h, State.xlat.go, if_neg (by omega), hw]
  dsimp only
  rw [hothers]
  simp [upTo]

theorem lt_of_xlat_ok (h : s.rootOf sp = some root) (hx : s.xlat sp va p = .ok pa level leaf) : va < 2 ^ 55 := by
  by_contra hva
  rw [xlat_of_root h, State.xlat.go, if_pos (by omega)] at hx
  cases hx

/-- A translation that succeeds names the leaf that the walk ends at. -/
theorem eq_ok_of_xlatWalk (h : s.xlatWalk va p w = .ok pa level leaf) : w = .ok (level, leaf) := by
  unfold State.xlatWalk at h
  split at h
  next k m =>
    simp only [State.xlatLeaf] at h
    split at h
    · cases h
    · split at h
      · cases h; rfl
      · cases h
  next => split at h <;> cases h

/-- Addresses of one page of 64 KiB have the same entry at each of the three levels. -/
theorem entryAt_eq (h : a / 2 ^ 16 = b / 2 ^ 16) (hl : level ≤ 2) : entryAt a table level = entryAt b table level := by
  have hk : ∀ c : Nat, c / 2 ^ levelBits level = c / 2 ^ 16 / 2 ^ (levelBits level - 16) := fun c => by
    rw [Nat.div_div_eq_div_mul, ← Nat.pow_add]
    congr 2
    simp only [levelBits]
    omega
  rw [entryAt, entryAt, hk, hk, h]

theorem walk_eq_of_page (h : a / 2 ^ 16 = b / 2 ^ 16) (hl : n = 0 ∨ n + level ≤ 3) :
    s.walk a n table level = s.walk b n table level := by
  induction n generalizing table level with
  | zero => rfl
  | succ n ih =>
    have := fun t => ih (table := t) (level := level + 1) (by omega)
    simp only [State.walk, entryAt_eq h (show level ≤ 2 by omega), this]

/-- A walk that succeeds goes on from each table entry of its path to the same end. -/
theorem walk_from_entry {r : Nat × Word} {y : Nat × Nat × Word} (h : s.walk va n table level = .ok r)
    (hy : y ∈ s.walkPath va n table level) (hv : y.2.2.getLsbD 0 = true) (hn : y.2.2.getLsbD 1 = false) (hl : n + level = 3) :
    s.walk va (2 - y.1) (leafPa y.2.2) (y.1 + 1) = .ok r := by
  induction n generalizing table level with
  | zero => cases h
  | succ n ih =>
    simp only [State.walk] at h
    simp only [State.walkPath, List.mem_cons] at hy
    split at h
    · cases h
    next hbad =>
    split at h
    · cases h
    next hvalid =>
    split at h
    next hleaf =>
      rcases hy with rfl | hy
      · simp_all
      · simp_all
    next hleaf =>
      split at h
      · cases h
      · rcases hy with rfl | hy
        · rwa [show 2 - level = n by omega]
        · rw [if_neg (by simp only [Bool.or_eq_true, not_or]; exact ⟨⟨hbad, hvalid⟩, hleaf⟩)] at hy
          exact ih h hy (by omega)

theorem mem_tlbInsert (h : f ∈ tlbInsert d e l) : f = e ∨ f ∈ l := by
  unfold tlbInsert at h
  extract_lets own at h
  split at h
  · exact .inr h
  · rcases List.mem_cons.1 h with rfl | h
    · exact .inl rfl
    · right
      split at h
      · exact h
      · split at h
        · exact List.mem_of_mem_filter h
        · exact h

theorem mem_foldl_tlbInsert {us : List TlbUnit} {g : TlbUnit → TlbEnt} (h : f ∈ us.foldl (fun l u => tlbInsert d (g u) l) l) :
    (∃ u ∈ us, f = g u) ∨ f ∈ l := by
  induction us generalizing l with
  | nil => exact .inr h
  | cons u us ih =>
    rcases ih h with ⟨v, hv, rfl⟩ | h
    · exact .inl ⟨v, .tail _ hv, rfl⟩
    · rcases mem_tlbInsert h with rfl | h
      · exact .inl ⟨u, .head _, rfl⟩
      · exact .inr h

/-- A TLB hit after the TLBs have taken a leaf is that leaf or one from before. -/
theorem mem_tlbHits_fillTlb (h : e ∈ (s.fillTlb sp a level leaf).tlbHits sp b) :
    (e.level = level ∧ e.leaf = leaf) ∨ e ∈ s.tlbHits sp b := by
  cases sp with
  | ctx k unit =>
    simp only [State.fillTlb] at h
    split at h
    · exact .inr h
    · simp only [State.tlbHits, List.mem_filter] at h ⊢
      obtain ⟨⟨hm, hc⟩, hp⟩ := h
      rcases mem_foldl_tlbInsert hm with ⟨v, -, rfl⟩ | hm
      · exact .inl ⟨rfl, rfl⟩
      · exact .inr ⟨⟨hm, hc⟩, hp⟩
  | mc k =>
    simp only [State.fillTlb] at h
    split at h
    · exact .inr h
    · simp only [State.tlbHits, State.mc_setMc_self, List.mem_filter] at h ⊢
      obtain ⟨hm, hp⟩ := h
      rcases mem_tlbInsert hm with rfl | hm
      · exact .inl ⟨rfl, rfl⟩
      · exact .inr ⟨hm, hp⟩

/-- A cached pointer after the access is a table entry of its walk or one from before. -/
theorem mem_ptrHits_fillTlb {y : PtrEnt} (h : y ∈ (s.fillTlb sp a level leaf).ptrHits sp b) (hr : s.rootOf sp = some root) :
    (∃ q ∈ s.walkPath a 3 root 0, q.2.2.getLsbD 0 = true ∧ q.2.2.getLsbD 1 = false ∧ y.level = q.1 ∧ y.entry = q.2.2) ∨
      y ∈ s.ptrHits sp b := by
  cases sp with
  | mc k => exact nomatch h
  | ctx k unit =>
    simp only [State.fillTlb, hr, Option.getD_some] at h
    split at h
    · exact .inr h
    · simp only [State.ptrHits, List.mem_filter, mem_listUnion, List.mem_map, Bool.and_eq_true, Bool.not_eq_true'] at h ⊢
      obtain ⟨⟨q, ⟨hq, hv, hl⟩, rfl⟩ | hm, hp⟩ := h
      · exact .inl ⟨q, hq, hv, hl, rfl, rfl⟩
      · exact .inr ⟨hm, hp⟩

theorem rootOf_fillTlb : (s.fillTlb sp a level leaf).rootOf sp = s.rootOf sp := by
  cases sp with
  | ctx k unit =>
    simp only [State.fillTlb]
    split <;> rfl
  | mc k =>
    simp only [State.fillTlb]
    split
    · rfl
    · simp [State.rootOf]

/-- Filling leaves memory, the memory controllers and the host's side. -/
theorem fillTlb_frame : (s.fillTlb sp a level leaf).mem = s.mem ∧ (s.fillTlb sp a level leaf).hbm = s.hbm ∧
    (s.fillTlb sp a level leaf).host = s.host := by
  cases sp <;>
  · simp only [State.fillTlb]
    split <;> exact ⟨rfl, rfl, rfl⟩

/-- What serves an address goes on serving it once the caches have taken the leaf of an address of its page. -/
theorem ServedAs.fillTlb (hr : s.rootOf sp = some root) (ha : ServedAs s sp root a p (.ok pa level leaf))
    (hb : ServedAs s sp root b p x) (hab : a / 2 ^ 16 = b / 2 ^ 16) :
    ServedAs (s.fillTlb sp a level leaf) sp root b p x := by
  obtain ⟨hm, hh, ho⟩ := fillTlb_frame (s := s) (sp := sp) (a := a) (level := level) (leaf := leaf)
  have hwalk := eq_ok_of_xlatWalk ha.1
  have hwalk' : s.walk b 3 root 0 = .ok (level, leaf) := by rw [← walk_eq_of_page hab (by omega), hwalk]
  obtain ⟨hw, ht, hp⟩ := hb
  refine ⟨?_, fun e he => ?_, fun y hy => ?_⟩
  · rw [xlatWalk_congr ho, walk_congr hm hh ho, hw]
  · rw [xlatLeaf_congr ho]
    rcases mem_tlbHits_fillTlb he with ⟨h1, h2⟩ | he
    · rw [← hw, hwalk', h1, h2]
      rfl
    · exact ht e he
  · rw [xlatWalk_congr ho, walk_congr hm hh ho]
    rcases mem_ptrHits_fillTlb hy hr with ⟨q, hq, hv, hl, h1, h2⟩ | hy
    · have hlast := walk_from_entry hwalk hq hv hl rfl
      rw [h1, h2, ← walk_eq_of_page hab (by omega), hlast, ← hwalk', hw]
    · exact hp y hy

end

end Sys2Proof.Machine
end

section
/-!
Reading memory where no store of the bytes is in the log and nothing is poisoned (03 R82, R90): what memory holds.
-/

namespace Sys2Proof.Machine

open Sys2Proof Sys2Proof.Spec

/-- What a read of n sound bytes finds that no store in the log covers. -/
def State.soundGot (s : State) (sp : Space) (a n : Nat) : Got := ⟨s.readBytes sp a n, List.replicate n false, [], []⟩

section
variable {s u : State} {v : View} {path : Path} {home : Bool} {sp : Space} {a b n m who l : Nat} {whole : Option (Nat × Nat)}

theorem mem_linesOf : l ∈ linesOf a n ↔ 0 < n ∧ lineOf a ≤ l ∧ l ≤ lineOf (a + n - 1) := by
  unfold linesOf
  split
  next h => simp [h]
  next h =>
    have hle : lineOf a ≤ lineOf (a + n - 1) := Nat.div_le_div_right (by omega)
    simp only [List.mem_map, List.mem_range]
    constructor
    · rintro ⟨k, hk, rfl⟩
      omega
    · rintro ⟨-, h1, h2⟩
      exact ⟨l - lineOf a, by omega, by omega⟩

/-- A part of a range lies in no lines but those of the range. -/
theorem linesOf_subset (hab : a ≤ b) (hbn : b + m ≤ a + n) (h : l ∈ linesOf b m) : l ∈ linesOf a n := by
  rw [mem_linesOf] at h ⊢
  simp only [lineOf] at h ⊢
  omega

theorem pchIn_part {k : Nat} (hab : a ≤ b) (hbn : b + m ≤ a + n) (h : s.pchIn a n k = false) : s.pchIn b m k = false := by
  unfold State.pchIn at h ⊢
  simp only [Bool.and_eq_false_imp, List.any_eq_false, inHbm, decide_eq_true_eq] at h ⊢
  exact fun hin l hl => h (by omega) l (linesOf_subset hab hbn hl)

/-- A part of a sound range is sound. -/
theorem badRead_part (hab : a ≤ b) (hbn : b + m ≤ a + n) (h : s.badRead none a n = false) : s.badRead none b m = false := by
  simp only [State.badRead, Bool.or_eq_false_iff, Option.isNone_none, Bool.true_and, State.poisonIn, List.any_eq_false,
    List.mem_range] at h ⊢
  obtain ⟨hp, hd⟩ := h
  refine ⟨fun i hi => ?_, pchIn_part hab hbn hd⟩
  rw [show b + i = a + (b - a + i) by omega]
  exact hp _ (by omega)

theorem covers_part {w : WriteRec} (hab : a ≤ b) (hbn : b + m ≤ a + n) (h : w.covers sp a n = false) : w.covers sp b m = false := by
  simp only [WriteRec.covers, Bool.and_eq_false_iff, decide_eq_false_iff_not] at h ⊢
  rcases h with (h | h) | h
  · exact .inl (.inl h)
  · exact .inl (.inr (by omega))
  · exact .inr (by omega)

/-- A sound byte that no store in the log writes. -/
theorem readAt_sound (h : s.badRead none a 1 = false) : s.readAt none [] a 0 = ⟨[s.readByte none a], [false], [], []⟩ := by
  simp only [State.badRead, Bool.or_eq_false_iff, Option.isNone_none, Bool.true_and] at h
  obtain ⟨hp, hd⟩ := h
  have hp : s.poisonAt none a = false := by simpa [State.poisonIn] using hp
  simp [State.readAt, State.versionAt, undoByte, hp, hd]

theorem join_singletons {f : Nat → Byte} (is : List Nat) :
    Got.join (is.map fun i => ⟨[f i], [false], [], []⟩) = ⟨is.map f, List.replicate is.length false, [], []⟩ := by
  induction is with
  | nil => rfl
  | cons i is ih =>
    simp only [Got.join, Got.mk.injEq] at ih ⊢
    obtain ⟨h1, h2, h3, h4⟩ := ih
    simp [h1, h2, h3, h4, List.replicate_succ]

theorem join_readAt_sound (h : s.badRead none a n = false) :
    Got.join ((List.range n).map fun i => s.readAt none [] (a + i) 0) = s.soundGot none a n := by
  have hbyte : (List.range n).map (fun i => s.readAt none [] (a + i) 0) =
      (List.range n).map fun i => ⟨[s.readByte none (a + i)], [false], [], []⟩ := by
    refine List.map_congr_left fun i hi => readAt_sound (badRead_part (a := a) (n := n) (by omega) ?_ h)
    have := List.mem_range.1 hi
    omega
  rw [hbyte, join_singletons, List.length_range]
  rfl

theorem uncovered_eq_nil (h : ∀ w ∈ s.log, w.covers sp a n = false) : s.log.filter (·.covers sp a n) = [] :=
  List.filter_eq_nil_iff.2 (by simpa using h)

/-- 03 R82: a load has no choice where no store in the log is of its bytes. -/
theorem readChoice_sound (h : s.badRead none a n = false) (hl : ∀ w ∈ s.log, w.covers none a n = false) :
    s.readChoice v path home none a n who whole = s.soundGot none a n := by
  rw [← join_readAt_sound h]
  unfold State.readChoice
  rw [uncovered_eq_nil hl]
  simp [upTo, Function.comp_def]

theorem readHome_sound (h : s.badRead none a n = false) (hl : ∀ w ∈ s.log, w.covers none a n = false) :
    s.readHome none a n = s.soundGot none a n := by
  rw [← join_readAt_sound h, State.readHome, uncovered_eq_nil hl]

theorem readLoad_sound (hn : n ≠ 16) (h : s.badRead none a n = false) (hl : ∀ w ∈ s.log, w.covers none a n = false) :
    s.readLoad v path none a n who home = s.soundGot none a n := by
  rw [State.readLoad, if_neg hn, readChoice_sound h hl]

theorem bad_soundGot : (s.soundGot sp a n).bad = false := by simp [State.soundGot, Got.bad]

theorem readBytes_congr (hm : u.mem = s.mem) : u.readBytes none a n = s.readBytes none a n := by
  simp only [State.readBytes, State.readByte, hm]

theorem numAt_congr (hm : u.mem = s.mem) : numAt u none a n = numAt s none a n := by rw [numAt, numAt, readBytes_congr hm]

/-! Where no line has a bad symbol, reads leave memory as it is (21 R387). -/

theorem demandWalk_calm {va : Nat} {q : VSpace} (h : s.mem.flaws = []) : s.demandWalk q va = s := by simp [State.demandWalk, h]

theorem demand_calm (h : s.mem.flaws = []) : s.demand a n = s := by simp [State.demand, h]

theorem demandGot_calm {g : Got} (h : s.mem.flaws = []) : s.demandGot a n g = s := by simp [State.demandGot, h]

/-! The words of a clause. -/

theorem readBytes_add : s.readBytes sp a (n + m) = s.readBytes sp a n ++ s.readBytes sp (a + n) m := by
  simp [State.readBytes, List.range_add, Function.comp_def, Nat.add_assoc]

theorem length_readBytes : (s.readBytes sp a n).length = n := by simp [State.readBytes]

theorem length_wordsOf {bs : List Byte} : (wordsOf n bs).length = n := by
  induction n generalizing bs with
  | zero => rfl
  | succ n ih => simp [wordsOf, ih]

theorem getD_wordsOf_readBytes {k : Nat} (hk : k < n) :
    (wordsOf n (s.readBytes sp a (8 * n))).getD k 0 = BitVec.ofNat 64 (numAt s sp (a + 8 * k) 8) := by
  induction n generalizing a k with
  | zero => omega
  | succ n ih =>
    rw [show 8 * (n + 1) = 8 + 8 * n by omega, readBytes_add, wordsOf, List.take_left' length_readBytes,
      List.drop_left' length_readBytes]
    cases k with
    | zero => rfl
    | succ k =>
      rw [List.getD_cons_succ, ih (by omega)]
      congr 2
      omega

end

end Sys2Proof.Machine
end

section
/-!
Resolving, before and after the caches have taken a leaf of the page, and one part of a fetch of code (03 R92).
-/

namespace Sys2Proof.Machine

open Sys2Proof Sys2Proof.Spec

section
variable {s u : State} {t : Thread} {sp : VSpace} {a b va n pa pb root level : Nat} {leaf : Word} {p : Perm}

theorem en_of_rootOf {k : Nat} (h : s.rootOf sp = some root) (hk : sp = .mc k) : (s.mc k).en = true := by
  subst hk
  by_contra hen
  simp [State.rootOf, hen] at h

theorem servedAs_of_resolves (h : Resolves s sp va p pa) (hr : s.rootOf sp = some root) :
    ∃ level leaf, s.xlat sp va p = .ok pa level leaf ∧ ServedAs s sp root va p (.ok pa level leaf) := by
  obtain ⟨level, leaf, hx, hserved⟩ := h
  exact ⟨level, leaf, hx, hserved (fun k hk => en_of_rootOf hr hk) root hr⟩

theorem ServedAs.resolves (h : ServedAs s sp root va p (.ok pa level leaf)) (hr : s.rootOf sp = some root) (hva : va < 2 ^ 55) :
    Resolves s sp va p pa := by
  refine ⟨level, leaf, xlat_eq_of_servedAs hr hva h, fun _ root' hr' => ?_⟩
  obtain rfl := Option.some.inj (hr.symm.trans hr')
  exact h

/-- What resolves in a page goes on doing so once the caches have taken the leaf of an access to the page. -/
theorem resolves_fillTlb (ha : Resolves s sp a p pa) (hx : s.xlat sp a p = .ok pa level leaf) (hb : Resolves s sp b p pb)
    (hab : a / 2 ^ 16 = b / 2 ^ 16) : Resolves (s.fillTlb sp a level leaf) sp b p pb := by
  cases hr : s.rootOf sp with
  | some root =>
    obtain ⟨level', leaf', hx', hsa⟩ := servedAs_of_resolves ha hr
    obtain ⟨rfl, rfl⟩ : level' = level ∧ leaf' = leaf := by simpa [hx] using hx'.symm
    obtain ⟨_, _, hxb, hsb⟩ := servedAs_of_resolves hb hr
    exact (hsa.fillTlb hr hsb hab).resolves (rootOf_fillTlb.trans hr) (lt_of_xlat_ok hr hxb)
  | none =>
    cases sp with
    | ctx k unit => simp [State.xlat, hr] at hx
    | mc k =>
      have hen : (s.mc k).en = false := by simpa [State.rootOf] using hr
      simpa [State.fillTlb, hen] using hb

/-! ### One part of a fetch -/

theorem offWindow_eq (hn : 0 < n) (h : ∀ k, sp = .mc k → va + n ≤ windowBase ∨ windowBase + 64 ≤ va) :
    offWindow sp va n = [(va, n)] := by
  cases sp with
  | ctx k unit => rfl
  | mc k =>
    have := h k rfl
    simp only [offWindow]
    rcases this with h | h
    · rw [List.filter_cons_of_pos (by simp; omega), List.filter_cons_of_neg (by simp; omega), List.filter_nil]
      congr 2
      omega
    · rw [List.filter_cons_of_neg (by simp; omega), List.filter_cons_of_pos (by simp; omega), List.filter_nil]
      congr 2 <;> omega

theorem windowPart_eq_nil (h : ∀ k, sp = .mc k → va + n ≤ windowBase ∨ windowBase + 64 ≤ va) : s.windowPart sp va n = [] := by
  cases sp with
  | ctx k unit => rfl
  | mc k =>
    have := h k rfl
    have hz : min (va + n) (windowBase + 64) - max va windowBase = 0 := by omega
    simp only [State.windowPart, hz, State.windowBytes]
    split <;> simp

theorem pagesOf_eq (hn : 0 < n) (h : va % 2 ^ 16 + n ≤ 2 ^ 16) : pagesOf va n = [(va, n)] := by
  have hone : (va % 2 ^ 16 + n + 2 ^ 16 - 1) / 2 ^ 16 = 1 := by omega
  have hend : min (va + n) ((va / 2 ^ 16 + 1) * 2 ^ 16) - va = n := by omega
  unfold pagesOf
  rw [hone]
  exact congrArg (fun k => [(va, k)]) hend

/-- n bytes of code at an address in one page of the agent's space, as one part of a fetch finds them (03 R92). -/
structure Fetchable (s : State) (t : Thread) (va n pa : Nat) : Prop where
  pos      : 0 < n
  inPage   : va % 2 ^ 16 + n ≤ 2 ^ 16
  inSpace  : va < 2 ^ 55
  apart    : ∀ k, s.curSpace t = .mc k → va + n ≤ windowBase ∨ windowBase + 64 ≤ va
  resolves : Resolves s (s.curSpace t) va .x pa
  calm     : Calm s
  near     : inFar pa = false
  sound    : s.badRead none pa n = false
  newest   : ∀ w ∈ s.log, w.covers none pa n = false

/-- A fetch reads what memory holds, and the caches take its leaf. -/
theorem Fetchable.fetchPart (h : Fetchable s t va n pa) :
    ∃ u, Cached s u ∧ s.fetchPart t va n = .ok (u, s.soundGot none pa n) ∧
      ∀ b pb, va / 2 ^ 16 = b / 2 ^ 16 → Resolves s (s.curSpace t) b .x pb → Resolves u (s.curSpace t) b .x pb := by
  obtain ⟨hn, hpage, hva, hapart, hres, hcalm, hfar, hbad, hlog⟩ := h
  obtain ⟨level, leaf, hx, -⟩ := id hres
  have hmod : va % 2 ^ 64 = va := Nat.mod_eq_of_lt (by omega)
  have hoff := offWindow_eq hn hapart
  have hpages := pagesOf_eq hn hpage
  generalize hsp : s.curSpace t = sp at *
  have hu : Cached s (s.fillTlb sp va level leaf) := by
    rw [← hsp]
    exact cached_fillTlb
  have hwalk : s.walkRange sp va n .x = s.fillTlb sp va level leaf := by
    simp only [State.walkRange, hoff, List.flatMap_cons, List.flatMap_nil, List.append_nil, hpages, List.foldl_cons, List.foldl_nil, hmod,
      demandWalk_calm hcalm.2, hx]
  obtain ⟨level', leaf', hx', -⟩ := resolves_fillTlb hres hx hres rfl
  refine ⟨s.fillTlb sp va level leaf, hu, ?_, fun b pb hb hrb => resolves_fillTlb hres hx hrb hb⟩
  generalize s.fillTlb sp va level leaf = u at *
  have hread : ∀ v, u.readSpace v .F sp va n .x = .ok ([⟨pa, n, leafHome leaf', leafRpl leaf'⟩], s.soundGot none pa n) := fun v => by
    have hgot : u.readPieces v .F [⟨pa, n, leafHome leaf', leafRpl leaf'⟩] 0 = s.soundGot none pa n := by
      simp only [State.readPieces, List.map_cons, List.map_nil, readChoice_sound (hu.badRead.trans hbad) (hu.log ▸ hlog)]
      simp [Got.join, State.soundGot, readBytes_congr hu.mem]
    simp only [State.readSpace, State.xlatOff, State.xlatRange, hoff, List.foldr_cons, List.foldr_nil,
      hpages, hmod, hx', windowPart_eq_nil hapart, List.append_nil, hgot, Except.map]
    rfl
  have hlost : u.farLost pa = false := by simp [State.farLost, hfar]
  have hdemand : ∀ ps g, u.demandPieces ps g = u := fun ps g => by
    induction ps with
    | nil => rfl
    | cons q ps ih => simpa [State.demandPieces, demandGot_calm (hu.calm hcalm).2] using ih
  simp only [State.fetchPart, hsp, hwalk, hread, hdemand, List.find?_cons, hlost, List.find?_nil, bad_soundGot]
  rfl

end

end Sys2Proof.Machine
end

section
/-!
O8: the fetch of a clause (03 R92). Its two parts read what memory holds, and the second finds what the first did, the caches having
taken the leaf of the first.
-/

namespace Sys2Proof.Machine

open Sys2Proof Sys2Proof.Spec

section
variable {s u w : State} {t : Thread} {sp : VSpace} {va n m k table level pa c e : Nat} {leaf : Word} {p : Perm}

/-- A walk of n levels ends before the n-th level below its start. -/
theorem level_lt_of_walk (h : s.walk va n table level = .ok (m, leaf)) : m < level + n := by
  induction n generalizing table level with
  | zero => cases h
  | succ n ih =>
    simp only [State.walk] at h
    split at h
    · cases h
    split at h
    · cases h
    split at h
    · split at h
      · cases h
      · cases h
        omega
    split at h
    · cases h
    · have := ih h
      omega

/-- Pages are at least 64 KiB: an address and what it translates to have the same place in theirs. -/
theorem page_of_xlatLeaf (h : s.xlatLeaf va p level leaf = .ok pa k leaf) (hl : level ≤ 2) : pa % 2 ^ 16 = va % 2 ^ 16 := by
  have hdvd : 2 ^ 16 ∣ 2 ^ levelBits level := Nat.pow_dvd_pow 2 (by simp only [levelBits]; omega)
  simp only [State.xlatLeaf] at h
  split at h
  · cases h
  split at h
  · cases h
    rw [Nat.add_mod, Nat.mod_mod_of_dvd _ hdvd, Nat.mod_eq_zero_of_dvd (hdvd.mul_left _), Nat.zero_add, Nat.mod_mod]
  · cases h

theorem page_of_resolves (h : Resolves s sp va p pa) : pa % 2 ^ 16 = va % 2 ^ 16 := by
  cases hr : s.rootOf sp with
  | some root =>
    obtain ⟨level, leaf, -, hw, -⟩ := servedAs_of_resolves h hr
    have hwalk := eq_ok_of_xlatWalk hw
    rw [hwalk] at hw
    exact page_of_xlatLeaf hw (by have := level_lt_of_walk hwalk; omega)
  | none =>
    obtain ⟨level, leaf, hx, -⟩ := h
    cases sp with
    | ctx k unit => simp [State.xlat, hr] at hx
    | mc k =>
      simp only [State.xlat, hr] at hx
      split at hx
      · cases hx
      split at hx
      · cases hx
        rfl
      · cases hx

/-- A part of a range of code is one that a fetch finds. -/
theorem fetchable_part (h : CodeAt s (s.curSpace t) va n pa) (hm : 0 < m) (hk : k + m ≤ n) : Fetchable s t (va + k) m (pa + k) := by
  obtain ⟨-, hva, hpage, hapart, hres, hcalm, hfar, hbad, hlog⟩ := h
  have h0 := page_of_resolves (hres 0 (by omega))
  exact {
    pos := hm
    inPage := by omega
    inSpace := by omega
    apart := fun j hj => by have := hapart j hj; omega
    resolves := hres k (by omega)
    calm := hcalm
    near := by
      simp only [inFar, Bool.and_eq_false_iff, decide_eq_false_iff_not] at hfar ⊢
      omega
    sound := badRead_part (by omega) (by omega) hbad
    newest := fun w hw => covers_part (by omega) (by omega) (hlog w hw) }

/-- Code stays where a fetch finds it when the caches take other entries that resolve its address alike. -/
theorem Fetchable.of_cached (h : Fetchable s t va n pa) (hu : Cached s u) (hr : Resolves u (s.curSpace t) va .x pa) :
    Fetchable u t va n pa := by
  have hsp : u.curSpace t = s.curSpace t := by simp only [State.curSpace, hu.turn]
  exact {
    pos := h.pos
    inPage := h.inPage
    inSpace := h.inSpace
    apart := hsp ▸ h.apart
    resolves := hsp ▸ hr
    calm := hu.calm h.calm
    near := h.near
    sound := hu.badRead.trans h.sound
    newest := hu.log ▸ h.newest }

theorem soundGot_congr (hm : u.mem = s.mem) : u.soundGot none pa n = s.soundGot none pa n := by
  simp only [State.soundGot, readBytes_congr hm]

/-- What a fetch of the clause at an address of code makes of the thread. -/
theorem fetchNow_code (ht : s.cur? = some t) (hn : n = hdrWords (s.soundGot none pa 8).word)
    (h : CodeAt s (s.curSpace t) t.pc.toNat (8 + 8 * n) pa) :
    ∃ u v, Cached s u ∧ s.fetchNow t = .run (.clauseHeader (s.soundGot none pa 8).word) (u.setCur { t with
      clause := some ⟨t.pc, (s.soundGot none pa 8).word, wordsOf n (s.readBytes none (pa + 8) (8 * n)), 0, false⟩
      view := v }).clearPlan := by
  have hpos : 0 < n := by rw [hn, hdrWords]; omega
  have h1 : Fetchable s t t.pc.toNat 8 pa := fetchable_part (k := 0) h (by omega) (by omega)
  have h2 : Fetchable s t (t.pc.toNat + 8) (8 * n) (pa + 8) := fetchable_part h (by omega) (by omega)
  obtain ⟨u1, hu1, hf1, hr1⟩ := h1.fetchPart
  have hpage : t.pc.toNat / 2 ^ 16 = (t.pc.toNat + 8) / 2 ^ 16 := by
    have := h1.inPage
    have := h2.inPage
    have := h.2.2.1
    omega
  obtain ⟨u, hu, hf2, -⟩ := (h2.of_cached hu1 (hr1 _ _ hpage h2.resolves)).fetchPart
  let g := s.soundGot none (pa + 8) (8 * n)
  refine ⟨u, (t.view.afterLoad (s.soundGot none pa 8) u.curAgent none none).afterLoad g u.curAgent none none, hu1.trans hu, ?_⟩
  simp only [State.fetchNow, hf1, ← hn, hf2, soundGot_congr hu1.mem, hu.cur?, hu1.cur?, ht, Option.getD_some]
  rfl

/-- An untranslated address of a management core is one of physical memory. -/
theorem lt_of_xlat_untranslated (hen : (s.mc k).en = false) (hx : s.xlat (.mc k) va p = .ok pa level leaf) : va < 2 ^ 52 := by
  have hr : s.rootOf (.mc k) = none := by simp [State.rootOf, hen]
  by_contra hva
  simp only [State.xlat, hr, if_pos (Nat.not_lt.1 hva)] at hx
  cases hx

/-- Code is at an address that the current agent has, aligned: its fetch takes place. -/
theorem fetch_code (h : CodeAt s (s.curSpace t) t.pc.toNat n pa) (hn : 0 < n) : s.fetch t = s.fetchNow t := by
  obtain ⟨hal, hva, -, -, hres, ⟨hflow, -⟩, -⟩ := h
  have hbad : s.addrBad t.pc.toNat = false := by
    obtain ⟨level, leaf, hx, -⟩ := hres 0 hn
    simp only [State.addrBad, Bool.or_eq_false_iff, decide_eq_false_iff_not]
    refine ⟨by omega, ?_⟩
    split
    next k hk =>
      cases hen : (s.mc k).en with
      | true => rfl
      | false =>
        rw [State.curSpace, hk] at hx
        simpa using lt_of_xlat_untranslated hen hx
    next => rfl
  rw [State.fetch, hbad, hflow, if_neg (by decide), if_neg (by simpa using hal), if_pos rfl]

/-- The code of a clause at a thread's PC, as the statement gives it. -/
theorem begins_of_codeAt (hm : s.mem = w.mem) (ht : s.cur? = some t) (hdr : Word) (hhdr : hdr = BitVec.ofNat 64 (numAt w none pa 8))
    (hn : n = (hdr.extractLsb' 56 4).toNat + 1) (h : CodeAt s (s.curSpace t) t.pc.toNat (8 + 8 * n) pa) :
    ∃ (u : State) (v : View) (ws : List Word), ws.length = n ∧
      (∀ k, k < n → ws.getD k 0 = BitVec.ofNat 64 (numAt w none (pa + 8 + 8 * k) 8)) ∧
      (u = s ∨ ∃ l m ps, u = cachesOf s l m ps) ∧
      s.fetch t = .run (.clauseHeader hdr) (u.setCur { t with clause := some ⟨t.pc, hdr, ws, 0, false⟩, view := v }).clearPlan := by
  have hword : (s.soundGot none pa 8).word = hdr := by rw [hhdr, ← numAt_congr hm]; rfl
  obtain ⟨u, v, hu, hf⟩ := fetchNow_code ht (hword ▸ hn) h
  refine ⟨u, v, wordsOf n (s.readBytes none (pa + 8) (8 * n)), length_wordsOf, fun k hk => ?_, hu, ?_⟩
  · rw [getD_wordsOf_readBytes hk, numAt_congr hm]
  · rw [fetch_code h (by omega), hf, hword]

theorem ThreadsOnly.codeAt (h : ThreadsOnly s u) (hc : CodeAt s sp va n pa) : CodeAt u sp va n pa := by
  obtain ⟨hal, hva, hpage, hapart, hres, hcalm, hfar, hbad, hlog⟩ := hc
  exact ⟨hal, hva, hpage, hapart, fun k hk => h.resolves (hres k hk), h.calm hcalm, hfar, h.badRead.trans hbad, h.log ▸ hlog⟩

/-- A step whose action is an instruction executes it. -/
theorem step_of_run {s0 : State} {i : Instr} (h : s0.applyUpsets.issued.nextAction = .run i u) :
    step s0 = (match exec i u with
      | .next u => .next u.settle
      | r => r) := by
  rw [step, h]
  dsimp only
  cases exec i u <;> rfl

theorem isCancelled_issued : s.issued.isCancelled c t = s.isCancelled c t := by
  unfold State.issued
  split
  next d e _ =>
    split
    · by_cases hd : c = d
      · rw [hd, State.isCancelled, State.isCancelled, State.core_setCore_self]
        rfl
      · rw [State.isCancelled, State.isCancelled, State.core_setCore_ne _ _ _ _ hd]
        rfl
    · rfl
  next => rfl

theorem overBudget_issued : s.issued.overBudget t = s.overBudget t := by
  obtain ⟨_, _, hu, -⟩ := threadsOnly_issued (s := s)
  rw [hu]
  rfl

/-! At a clause boundary with nothing due an agent fetches. -/

theorem nextAction_fibre (hturn : s.turn = .fibre c e) (ht : s.cur? = some t) (hcl : t.clause = none) (hruns : t.runs = true)
    (hcan : s.isCancelled c t = false) (hover : s.overBudget t = false) :
    s.nextAction = (s.setCore c { s.core c with inClause := some e }).fetch t := by
  have hcan' : (s.setCore c { s.core c with inClause := some e }).isCancelled c t = false := by
    rw [← hcan, State.isCancelled, State.isCancelled, State.core_setCore_self]
    rfl
  have hover' : (s.setCore c { s.core c with inClause := some e }).overBudget t = false := hover
  rw [cur?_fibre hturn] at ht
  simp [State.nextAction, hturn, ht, hruns, hcl, hcan', hover', State.agentAction]

theorem nextAction_stream (hturn : s.turn = .stream c) (ht : s.cur? = some t) (hcl : t.clause = none) (hruns : t.runs = true)
    (hcan : s.isCancelled c t = false) (hover : s.overBudget t = false) : s.nextAction = s.fetch t := by
  simp only [State.cur?, hturn] at ht
  obtain ⟨x, hx, rfl⟩ := Option.map_eq_some_iff.1 ht
  simp [State.nextAction, hturn, hx, hruns, hcl, hcan, hover, State.agentAction]

theorem nextAction_mc (hturn : s.turn = .mc k) (ht : s.cur? = some t) (hcl : t.clause = none) (hact : (s.mc k).active = true)
    (hdue : s.handlerDue k = false) : s.nextAction = s.fetch t := by
  simp only [State.cur?, hturn, Option.some.injEq] at ht
  simp [State.nextAction, hturn, hact, hdue, ht, hcl, State.agentAction]

end

/-- Settles O8: nothing is due, so the agent fetches; both parts of the fetch read what memory holds. -/
theorem stepFetchesClause : Obligations.StepFetchesClause := by
  unfold Obligations.StepFetchesClause
  intro s0 t pa s hdr n ht hcl hruns hcode begins
  -- The fetch, in a state that differs from `s` in threads alone.
  have key : ∀ s2 : State, ThreadsOnly s s2 → s2.cur? = some t → s.issued.nextAction = s2.fetch t → begins s2 := by
    intro s2 hth ht2 hact
    have hcode2 : CodeAt s2 (s2.curSpace t) t.pc.toNat (8 + 8 * n) pa := by
      rw [hth.curSpace rfl]
      exact hth.codeAt hcode
    obtain ⟨u, v, ws, hlen, hws, hu, hf⟩ := begins_of_codeAt hth.mem ht2 hdr rfl rfl hcode2
    exact ⟨u, v, ws, hlen, hws, hu, step_of_run (hact.trans hf)⟩
  refine ⟨fun c e hturn hcan hover => ?_, fun c hturn hcan hover => ?_, fun k hturn hact hdue => ?_⟩
  · have hturn' : s.issued.turn = .fibre c e := threadsOnly_issued.turn.trans hturn
    refine key _ (threadsOnly_issued.trans threadsOnly_setCore) ?_ (nextAction_fibre hturn' ht hcl hruns ?_ ?_)
    · rw [← ht, cur?_fibre hturn', cur?_fibre (by exact hturn'), fibre?_eq, fibre?_eq, State.core_setCore_self]
    · rw [← hcan, isCancelled_issued]
    · exact hover ▸ overBudget_issued
  · have hiss : s.issued = s := by simp only [State.issued, hturn]
    refine key s .refl (hiss ▸ ht) ?_
    rw [hiss]
    exact nextAction_stream hturn (hiss ▸ ht) hcl hruns hcan hover
  · have hiss : s.issued = s := by simp only [State.issued, hturn]
    refine key s .refl (hiss ▸ ht) ?_
    rw [hiss]
    exact nextAction_mc hturn (hiss ▸ ht) hcl hact hdue

end Sys2Proof.Machine
end

section
/-!
One access of one index to memory (03 R82, 08 R212, R224): its checks, what it reads and what the agent has then observed, and the end
of an instruction none of whose accesses faults.
-/

namespace Sys2Proof.Machine

open Sys2Proof Sys2Proof.Spec

/-- `t'` is `t` but for what its indices have observed. -/
def OnlyViews (t t' : Thread) : Prop := ∃ v l, t' = { t with view := v, lviews := l }

/-- n bytes at a physical address that a load finds as memory holds them: nothing is poisoned, and no store of them is in the log. -/
def Sound (s : State) (pa n : Nat) : Prop :=
  Calm s ∧ s.badRead none pa n = false ∧ ∀ w ∈ s.log, w.covers none pa n = false

section
variable {s u : State} {t t' t'' : Thread} {c e k n p pa level : Nat} {va : Word} {leaf : Word} {r : Req} {ops : Nat → IdxOps}
  {own : Tab Nat} {q : Perm} {m : MemRes} {b : Opd} {off : Word} {data : List Opd}

theorem OnlyViews.refl : OnlyViews t t := ⟨t.view, t.lviews, rfl⟩

theorem OnlyViews.trans (h : OnlyViews t t') (h' : OnlyViews t' t'') : OnlyViews t t'' := by
  obtain ⟨v, l, rfl⟩ := h
  obtain ⟨v', l', rfl⟩ := h'
  exact ⟨v', l', rfl⟩

theorem OnlyViews.eq_views (h : OnlyViews t t') : t' = { t with view := t'.view, lviews := t'.lviews } := by
  obtain ⟨v, l, rfl⟩ := h
  rfl

theorem OnlyViews.kind (h : OnlyViews t t') : t'.kind = t.kind := by obtain ⟨v, l, rfl⟩ := h; rfl
theorem OnlyViews.ctx (h : OnlyViews t t') : t'.ctx = t.ctx := by obtain ⟨v, l, rfl⟩ := h; rfl
theorem OnlyViews.count (h : OnlyViews t t') : t'.count = t.count := by obtain ⟨v, l, rfl⟩ := h; rfl

theorem onlyViews_modViewOf {f : View → View} (h : t.count = 1) : OnlyViews t (s.modViewOf t [p] f) := by
  refine ⟨f (s.viewAt t p), [], ?_⟩
  simp [State.modViewOf, State.modViewAt, h]

/-! The places of an agent of one index. -/

theorem places_of_oneIndex {g : Guard} (h : OneIndex s t g) : t.places = [0] := by
  obtain ⟨-, -, hex, hbox⟩ := h
  simp [Thread.places, hex, hbox]

theorem count_of_oneIndex {g : Guard} (h : OneIndex s t g) : t.count = 1 := by
  obtain ⟨-, -, hex, hbox⟩ := h
  simp [Thread.count, hex, hbox]

/-! ### The checks -/

/-- What an access reaches does not depend on threads. -/
theorem reaches_of_threadsOnly (h : Reaches s t va n q pa) (hu : ThreadsOnly s u) (hk : t'.kind = t.kind) (hc : t'.ctx = t.ctx) :
    Reaches u t' va n q pa := by
  obtain ⟨⟨hal, hadr, hwin, ⟨level, leaf, hx⟩, hhbm, hfar, hcalm, hbad, hlog⟩, hslow⟩ := h
  have hslow' : u.slow = false := by obtain ⟨_, _, rfl, -⟩ := hu; exact hslow
  refine ⟨⟨hal, hu.addrBad.trans hadr, hk ▸ hwin, ⟨level, leaf, ?_⟩, hhbm, hfar, hu.calm hcalm, hu.badRead.trans hbad,
    hu.log ▸ hlog⟩, hslow'⟩
  rw [hu.curSpace hc, hu.xlat, hx]

/-- 08 R224: an access that reaches memory passes its checks. -/
theorem chk_of_reaches (h : Reaches s t va r.n r.perm pa) (hb : r.bank = false) (hs : r.spad = false)
    (hp : r.prom = true → va.toNat % 16 + r.n ≤ 8) : ∃ level leaf, s.chk t p r va false = .ok none pa level leaf := by
  obtain ⟨⟨hal, hadr, hwin, ⟨level, leaf, hx⟩, -, hfar, -, hbad, -⟩, -⟩ := h
  have haligned : r.aligned va.toNat = true := by
    simp only [Req.aligned, hal, Bool.and_eq_true, Bool.or_eq_true, Bool.not_eq_true', decide_eq_true_eq]
    cases hprom : r.prom with
    | false => simp
    | true => exact ⟨trivial, .inr (hp hprom)⟩
  refine ⟨level, leaf, ?_⟩
  have hw : ¬ (t.kind = .mc ∧ inWindow va.toNat r.n = true) := fun ⟨h1, h2⟩ => by simp [hwin h1] at h2
  simp [State.chk, hb, hs, hadr, haligned, hx, hfar, hbad, hw]

/-! ### The access -/

theorem Cached.slow (h : Cached s u) : u.slow = s.slow := by obtain ⟨_, _, _, rfl, -⟩ := h.frame; rfl

theorem sound_of_reaches (h : Reaches s t va n q pa) : Sound s pa n := by
  obtain ⟨⟨-, -, -, -, -, -, hcalm, hbad, hlog⟩, -⟩ := h
  exact ⟨hcalm, hbad, hlog⟩

theorem Sound.of_cached (h : Sound s pa n) (hu : Cached s u) : Sound u pa n :=
  ⟨hu.calm h.1, hu.badRead.trans h.2.1, hu.log ▸ h.2.2⟩

theorem Sound.of_threadsOnly (h : Sound s pa n) (hu : ThreadsOnly s u) : Sound u pa n :=
  ⟨hu.calm h.1, hu.badRead.trans h.2.1, hu.log ▸ h.2.2⟩

/-- A load of sound bytes reads what memory holds. -/
theorem load1_sound {own : Option Nat} (h : Sound s pa r.n) (hcount : t.count = 1) (hn : r.n ≠ 16) :
    ∃ t1, OnlyViews t t1 ∧ s.load1 t [p] r none pa own leaf = (s, t1, s.readBytes none pa r.n, false) := by
  obtain ⟨⟨-, hflaws⟩, hbad, hlog⟩ := h
  refine ⟨_, onlyViews_modViewOf (s := s) (p := p)
    (f := fun v => v.afterLoad (s.soundGot none pa r.n) s.curAgent (r.onLeaf leaf).acq own) hcount, ?_⟩
  by_cases hacc : r.acc = 3
  · simp [State.load1, hacc, demand_calm hflaws, readHome_sound hbad hlog, bad_soundGot]
    rfl
  · simp [State.load1, hacc, demandGot_calm hflaws, readLoad_sound hn hbad hlog, bad_soundGot]
    rfl

/-- 03 R87: the read of a sound owner word. -/
theorem readOwner_sound (h : Sound s (pa / 16 * 16 + 8) 8) (hcount : t.count = 1) :
    ∃ t1, OnlyViews t t1 ∧ s.readOwner t [p] pa leaf = (s, t1, ownerAt s pa) := by
  obtain ⟨⟨-, hflaws⟩, hbad, hlog⟩ := h
  refine ⟨_, onlyViews_modViewOf (s := s) (p := p)
    (f := fun v => v.afterLoad (s.soundGot none (pa / 16 * 16 + 8) 8) s.curAgent (some 1) none) hcount, ?_⟩
  simp [State.readOwner, demandGot_calm hflaws, readLoad_sound (by decide) hbad hlog, bad_soundGot]
  rfl

/-- 17 R362: the caches take the leaf of an access. -/
theorem cached_fill (h : Calm s) : Cached s ((s.demandWalk (s.curSpace t) va.toNat).fillTlb (s.curSpace t) va.toNat level leaf) := by
  rw [demandWalk_calm h.2]
  exact cached_fillTlb

/-- The access of one index that a request asks for: where it gets to, that nothing it needs is poisoned. -/
structure OneAccess (s : State) (t : Thread) (r : Req) (o : IdxOps) (pa : Nat) : Prop where
  count   : t.count = 1
  reaches : Reaches s t o.va r.n r.perm pa
  clean   : o.bad = false
  notBank : r.bank = false
  notSpad : r.spad = false
  half    : r.prom = true → o.va.toNat % 16 + r.n ≤ 8
  small   : r.n ≠ 16

theorem OneAccess.chk {o : IdxOps} (h : OneAccess s t r o pa) : ∃ level leaf, s.chk t p r o.va o.bad = .ok none pa level leaf := by
  rw [h.clean]
  exact chk_of_reaches h.reaches h.notBank h.notSpad h.half

theorem OneAccess.of_threadsOnly {o : IdxOps} (h : OneAccess s t r o pa) (hu : ThreadsOnly s u) (hk : t'.kind = t.kind)
    (hc : t'.ctx = t.ctx) (hn : t'.count = t.count) : OneAccess u t' r o pa :=
  { h with
    count := hn.trans h.count
    reaches := reaches_of_threadsOnly h.reaches hu hk hc }

theorem access_singleton : s.access t r false own [[p]] ops = (MemRes.start s t).one r false own [p] (ops p) := rfl

/-- Of an access neither a fault nor an outstanding part is left: it changes what the agent has observed and the caches alone. -/
def MemRes.Clean (m : MemRes) (s : State) (t : Thread) : Prop :=
  Cached s m.s ∧ OnlyViews t m.t ∧ m.faults = [] ∧ m.outs = []

/-- 08 R222: the load of a PROMOTE. -/
theorem access_promote (h : OneAccess s t r (ops p) pa) (hacc : r.acc = 7) : (s.access t r false own [[p]] ops).Clean s t := by
  obtain ⟨level, leaf, hchk⟩ := h.chk (p := p)
  obtain ⟨⟨-, -, -, -, -, hfar, hcalm, -⟩, hslow⟩ := id h.reaches
  have hfill := cached_fill (t := t) (va := (ops p).va) (level := level) (leaf := leaf) hcalm
  obtain ⟨t1, ht1, hload⟩ := load1_sound (p := p) (leaf := leaf) (own := Tab.find? own p)
    ((sound_of_reaches h.reaches).of_cached hfill) h.count h.small
  have hslow' := hfill.slow.trans hslow
  rw [access_singleton, MemRes.one]
  simp [MemRes.start, hchk, hacc, hfar, hslow', State.farLost, hload, MemRes.put, MemRes.Clean]
  exact ⟨hfill, ht1⟩

/-- 03 R91: the read of a WAITA. -/
theorem access_waita (h : OneAccess s t r (ops p) pa) (hacc : r.acc = 3) : (s.access t r false own [[p]] ops).Clean s t ∧
    (s.access t r false own [[p]] ops).unmet = if waitMet r.op r.n (numAt s none pa r.n) (ops p).y then [] else [p] := by
  obtain ⟨level, leaf, hchk⟩ := h.chk (p := p)
  obtain ⟨⟨-, -, -, -, -, hfar, hcalm, -⟩, -⟩ := id h.reaches
  have hfill := cached_fill (t := t) (va := (ops p).va) (level := level) (leaf := leaf) hcalm
  obtain ⟨t1, ht1, hload⟩ := load1_sound (p := p) (leaf := leaf) (own := Tab.find? own p)
    ((sound_of_reaches h.reaches).of_cached hfill) h.count h.small
  rw [readBytes_congr hfill.mem] at hload
  rw [access_singleton, MemRes.one]
  cases hmet : waitMet r.op r.n (numAt s none pa r.n) (ops p).y <;> rw [numAt] at hmet
  · simpa [MemRes.start, hchk, hacc, hload, MemRes.Clean, hmet] using ⟨hfill, .refl⟩
  · simpa [MemRes.start, hchk, hacc, hload, MemRes.Clean, hmet] using ⟨hfill, ht1⟩

/-- An instruction whose access is clean ends with the agent past its word. -/
theorem memEnd_clean (h : m.Clean s t) : s.memEnd m t' r own b off data = m.s.setCur t'.advance := by
  obtain ⟨hs, -, hf, ho⟩ := h
  unfold State.memEnd
  split
  next c e t hturn _ =>
    simp only [ho, hf, List.isEmpty_nil, if_pos]
    rw [setCur_fibre (hs.turn.trans hturn)]
  next => simp only [hf]

end

end Sys2Proof.Machine
end

section
/-!
O35: PROMOTE (08 R222, 03 R87, R88). A PROMOTE reads the owner word beside its granule, then performs its own load or asks the owner.
-/

namespace Sys2Proof.Machine

open Sys2Proof Sys2Proof.Spec

/-- 08 R222: a PROMOTE asks for a promoting acquire load of 4 bytes. -/
def promoteReq : Req := mkReq 7 false 4 1 3

/-- The operands of a PROMOTE, its address register being `b`. -/
def promoteOps (b : Opd) : Nat → IdxOps := addrOps b true 0 (fun _ => 0) (fun _ => 0) (fun _ => false) (fun _ => false)

/-- The load of a PROMOTE at place 0, once its owners have answered, and the end of the instruction. -/
def State.promoteLoad (b : Opd) (own : Tab Nat) (s : State) : State :=
  match s.cur? with
  | none => s
  | some t =>
    let m := s.access t promoteReq false own [[0]] (promoteOps b)
    s.memEnd m m.t promoteReq own b 0 []

section
variable {s s1 u : State} {t t1 : Thread} {c e k p pa left : Nat} {o : JmpO} {r : Req} {ops : Nat → IdxOps} {ps met : List Nat}
  {own : Tab Nat} {b : Opd} {y z : Nat → Nat} {bad dbad : Nat → Bool} {gs : List (List Nat)} {run : State → State}
  {go : Tab Nat → State → State}

/-! ### Owners -/

theorem ThreadsOnly.draw (h : ThreadsOnly s u) : u.draw = s.draw := by obtain ⟨_, _, rfl, -⟩ := h; rfl
theorem ThreadsOnly.agenda (h : ThreadsOnly s u) : u.agenda = s.agenda := by obtain ⟨_, _, rfl, -⟩ := h; rfl

theorem threadsOnly_waitCur {st : FState} {why : Why} : ThreadsOnly s (s.waitCur st why) := by
  unfold State.waitCur
  split
  · exact threadsOnly_setCur
  · exact .refl

theorem cur?_waitCur {st : FState} {why : Why} (h : s.cur? = some t) :
    ∃ n, (s.waitCur st why).cur? = some { t with st := st, why := why, since := n } := by
  refine ⟨if t.st = st then t.since else s.tick, ?_⟩
  simp only [State.waitCur, h, State.cur?_setCur _ _ _ h]

theorem curFrom_congr (h : u.turn = s.turn) : u.curFrom = s.curFrom := by rw [State.curFrom, h, State.curFrom]

theorem memServed_flowing (h : s.flowing = true) : s.memServed r ps ops run = run s := by
  unfold State.memServed State.curServed
  rw [if_pos h]
  split <;> rfl

theorem withOwners_plain (hcur : s.cur? = some t) (hflow : s.flowing = true) (hp : r.prom = false) :
    s.withOwners r gs ops go = go [] s := by
  simp only [State.withOwners, hcur, memServed_flowing hflow, hp]
  rfl

/-- A promoting acquire that no owner has to answer. -/
theorem withOwners_none (hcur : s.cur? = some t) (hflow : s.flowing = true) (hp : r.prom = true) (hwhy : t.why = .none)
    (hread : s.readOwners t r gs ops = (s1, t1, [])) : s.withOwners r gs ops go = go [] (s1.setCur t1) := by
  simp only [State.withOwners, hcur, memServed_flowing hflow, hp, hwhy, hread]
  rfl

/-- A promoting acquire that one owner has to answer. -/
theorem withOwners_one (hcur : s.cur? = some t) (hflow : s.flowing = true) (hp : r.prom = true) (hwhy : t.why = .none)
    (hacc : r.acc ≠ 3) (hread : s.readOwners t r gs ops = (s1, t1, [(p, k)])) : s.withOwners r gs ops go =
      ((s1.setCur t1).waitCur .ready (.promote 1 [(p, k)] [])).post
        (.promotionRequest k ((s1.setCur t1).waitCur .ready (.promote 1 [(p, k)] [])).curFrom) := by
  simp only [State.withOwners, hcur, memServed_flowing hflow, hp, hwhy, hread]
  simp [hacc, Tab.vals, sortAsc, insertAsc]

/-- 03 R87: what the read of one sound owner word finds. -/
theorem readOwners_singleton (h : OneAccess s t r (ops p) pa) (ho : Sound s (pa / 16 * 16 + 8) 8) :
    ∃ t1, OnlyViews t t1 ∧ s.readOwners t r [[p]] ops = (s, t1, (ownerAt s pa).elim [] fun c => [(p, c)]) := by
  obtain ⟨level, leaf, hchk⟩ := h.chk (p := p)
  obtain ⟨⟨-, -, -, -, -, hfar, -⟩, -⟩ := id h.reaches
  obtain ⟨t1, ht1, hread⟩ := readOwner_sound (p := p) (leaf := leaf) ho h.count
  refine ⟨t1, ht1, ?_⟩
  simp only [State.readOwners, List.foldl_cons, List.foldl_nil, List.headD_cons, hchk, State.farLost, hfar, hread]
  cases ownerAt s pa <;> rfl

theorem addrOps_va : (addrOps b true 0 y z bad dbad p).va = b.val p := by simp [addrOps]

theorem not_bad_of_clean (h : b.clean = true) : (b.pAll || b.pL.contains p) = false := by
  simp only [Opd.clean, Bool.and_eq_true, Bool.not_eq_true', List.isEmpty_iff] at h
  simp [h]

theorem addrOps_bad (h : b.clean = true) (hp : bad p = false) : (addrOps b true 0 y z bad dbad p).bad = false := by
  rw [addrOps, not_bad_of_clean h, hp]
  rfl

/-! ### The instruction -/

theorem promoteInstr_eq (h : OneIndex s t o.g) : s.promoteInstr o =
    (s.setCur t.progressed).withOwners promoteReq [[0]] (promoteOps (t.src s.draw o.a true))
      (State.promoteLoad (t.src s.draw o.a true)) := by
  have hps : t.progressed.places = [0] := show t.places = [0] from places_of_oneIndex h
  obtain ⟨hcur, hg, -⟩ := h
  have hdraw : (s.setCur t.progressed).draw = s.draw := threadsOnly_setCur.draw
  rw [State.promoteInstr]
  simp only [reqOf, State.guarded_t _ _ _ _ hcur hg, State.progressed_eq _ _ hcur, State.cur?_setCur _ _ _ hcur,
    Option.getD_none, hps, hdraw]
  rfl

/-- The load of a PROMOTE that reaches memory ends the instruction. -/
theorem promoteLoad_eq (hcur : s.cur? = some t) (h : OneAccess s t promoteReq (promoteOps b 0) pa) :
    ∃ u t1, Cached s u ∧ OnlyViews t t1 ∧ s.promoteLoad b own = u.setCur t1.advance := by
  have hclean := access_promote (own := own) h rfl
  refine ⟨_, _, hclean.1, hclean.2.1, ?_⟩
  simp only [State.promoteLoad, hcur, memEnd_clean hclean]

theorem oneAccess_promote (h : OneIndex s t o.g) (hb : b.clean = true) (hr : Reaches s t (b.val 0) 4 .r pa)
    (hhalf : (b.val 0).toNat % 16 ≤ 4) : OneAccess s t promoteReq (promoteOps b 0) pa where
  count := count_of_oneIndex h
  reaches := by rw [promoteOps, addrOps_va]; exact hr
  clean := addrOps_bad hb rfl
  notBank := rfl
  notSpad := rfl
  half := fun _ => by rw [promoteOps, addrOps_va]; exact Nat.add_le_add_right hhalf 4
  small := by decide

/-- The owner words of a PROMOTE, read by the agent that has made progress. -/
theorem readOwners_progressed (h : OneAccess s t promoteReq (ops 0) pa) (ho : Sound s (pa / 16 * 16 + 8) 8) :
    ∃ t1, OnlyViews t.progressed t1 ∧ (s.setCur t.progressed).readOwners t.progressed promoteReq [[0]] ops =
      (s.setCur t.progressed, t1, (ownerAt s pa).elim [] fun c => [(0, c)]) := by
  have hth : ThreadsOnly s (s.setCur t.progressed) := threadsOnly_setCur
  have h0 : OneAccess (s.setCur t.progressed) t.progressed promoteReq (ops 0) pa := h.of_threadsOnly hth rfl rfl rfl
  obtain ⟨t1, ht1, hread⟩ := readOwners_singleton h0 (ho.of_threadsOnly hth)
  rw [ownerAt, numAt_congr hth.mem] at hread
  exact ⟨t1, ht1, hread⟩

/-- 03 R87: with no owner PROMOTE completes at once. -/
theorem promoteInstr_none (h : OneIndex s t o.g) (hwhy : t.why = .none) (b : Opd) (hb : t.src s.draw o.a true = b)
    (hacc : OneAccess s t promoteReq (promoteOps b 0) pa) (ho : Sound s (pa / 16 * 16 + 8) 8) (hnone : ownerAt s pa = none) :
    ∃ t1, OnlyViews t.progressed t1 ∧ (s.promoteInstr o).cur? = some t1.advance ∧ (s.promoteInstr o).mem = s.mem := by
  have hcur := h.1
  have hcur0 := State.cur?_setCur s t.progressed t hcur
  obtain ⟨t1, ht1, hread⟩ := readOwners_progressed hacc ho
  have hth : ThreadsOnly s (s.setCur t.progressed) := threadsOnly_setCur
  have hth1 : ThreadsOnly s ((s.setCur t.progressed).setCur t1) := hth.trans threadsOnly_setCur
  have hcur1 := State.cur?_setCur _ t1 _ hcur0
  obtain ⟨u, t2, hu, ht2, heq⟩ := promoteLoad_eq (own := []) hcur1 (hacc.of_threadsOnly hth1 ht1.kind ht1.ctx ht1.count)
  rw [hnone] at hread
  rw [promoteInstr_eq h, hb, withOwners_none hcur0 (hth.calm ho.1).1 rfl hwhy hread, heq]
  refine ⟨t2, ht1.trans ht2, State.cur?_setCur _ _ _ (hu.cur?.trans hcur1), ?_⟩
  rw [threadsOnly_setCur.mem, hu.mem, hth1.mem]

/-- 03 R87: with an owner PROMOTE asks it, and keeps its place. -/
theorem promoteInstr_some (h : OneIndex s t o.g) (hwhy : t.why = .none) (b : Opd) (hb : t.src s.draw o.a true = b)
    (hacc : OneAccess s t promoteReq (promoteOps b 0) pa) (ho : Sound s (pa / 16 * 16 + 8) 8) (hsome : ownerAt s pa = some k) :
    ∃ (u : State) (t1 : Thread), OnlyViews t.progressed t1 ∧ ThreadsOnly s u ∧
      s.promoteInstr o = u.post (.promotionRequest k s.curFrom) ∧
      ∃ n, u.cur? = some { t1 with st := .ready, why := .promote 1 [(0, k)] [], since := n } := by
  have hcur := h.1
  have hcur0 := State.cur?_setCur s t.progressed t hcur
  obtain ⟨t1, ht1, hread⟩ := readOwners_progressed hacc ho
  have hth : ThreadsOnly s (s.setCur t.progressed) := threadsOnly_setCur
  have hcur1 := State.cur?_setCur _ t1 _ hcur0
  rw [hsome] at hread
  obtain ⟨n, hwait⟩ := cur?_waitCur (st := .ready) (why := .promote 1 [(0, k)] []) hcur1
  rw [promoteInstr_eq h, hb, withOwners_one hcur0 (hth.calm ho.1).1 rfl hwhy (by decide) hread]
  have hu : ThreadsOnly s (((s.setCur t.progressed).setCur t1).waitCur .ready (.promote 1 [(0, k)] [])) :=
    (hth.trans threadsOnly_setCur).trans threadsOnly_waitCur
  exact ⟨_, t1, ht1, hu, by rw [curFrom_congr hu.turn], n, hwait⟩

/-! ### The reply -/

/-- A fibre that stands in its entry is the agent of its entry. -/
theorem cur?_turnOf (hc : c < Config.numCores) (he : e < 4096) : ({ s with turn := turnOf c e } : State).cur? = s.fibre? c e := by
  have : turnOf c e = .fibre c e := by rw [turnOf, if_neg (by omega), if_neg (by omega)]
  rw [this]
  rfl

theorem asWaiter_fibre {f : State → State} (hc : c < Config.numCores) (he : e < 4096) (hswap : Tab.find? (s.core c).swaps e = none) :
    s.asWaiter c e f = s.asTurn (.fibre c e) f := by
  have : turnOf c e = .fibre c e := by rw [turnOf, if_neg (by omega), if_neg (by omega)]
  simp only [State.asWaiter, hswap, this]

theorem holdsAt_fibre (he : e < 4096) : s.holdsAt c e = false := by
  simp [State.holdsAt, show e ≠ 4096 by omega]

/-- What a reply does to the current agent, that of entry e of core c. -/
def State.reply (c e : Nat) (s : State) : State :=
  match s.cur? with
  | none => s
  | some t => match t.why with
    | .promote n own met =>
      s.setCur { t with why := if 1 < n then .promote (n - 1) own met else if s.holdsAt c e then .waita met else .promoted own met }
    | _ => s

/-- What PROMOTE waits for, one owner having replied. -/
def Why.replied (left : Nat) (own : Tab Nat) (met : List Nat) : Why := if left ≤ 1 then .promoted own met else .promote (left - 1) own met

theorem resourcesFreed_frame : (s.resourcesFreed c).fibre? c e = s.fibre? c e ∧ (s.resourcesFreed c).turn = s.turn ∧
    (s.resourcesFreed c).mem = s.mem := by
  unfold State.resourcesFreed
  split <;> exact ⟨rfl, rfl, rfl⟩

theorem execPromotionReply_eq : execPromotionReply c e s =
    .next (if (s.waitaMet c e).isNone && ((s.asWaiter c e (State.reply c e)).waitaMet c e).isSome
      then (s.asWaiter c e (State.reply c e)).post (.waitaSatisfied c e)
      else (s.asWaiter c e (State.reply c e)).resourcesFreed c) := rfl

/-- 03 R87: a fibre in its entry takes a reply; with the last one it goes on, through an event of its own where it is not READY. -/
theorem promotionReply_eq (hc : c < Config.numCores) (he : e < 4096) (hf : s.fibre? c e = some t)
    (hswap : Tab.find? (s.core c).swaps e = none) (hwhy : t.why = .promote left own met) :
    let u := s.setFibre c e { t with why := .replied left own met }
    execPromotionReply c e s =
      .next (if left ≤ 1 ∧ t.st ≠ .ready then u.post (.waitaSatisfied c e) else u.resourcesFreed c) := by
  have hnow : s.waitaMet c e = none := by simp only [State.waitaMet, cur?_turnOf hc he, hf, hwhy]
  have hcur : ({ s with turn := .fibre c e } : State).cur? = some t := hf
  intro u
  have hafter : u.waitaMet c e = if left ≤ 1 ∧ t.st ≠ .ready then some met else none := by
    simp only [State.waitaMet, cur?_turnOf hc he, u, State.fibre?_setFibre_self, Why.replied]
    by_cases hl : left ≤ 1 <;> by_cases hst : t.st = .ready <;> simp [hl, hst]
  have hreply : s.asWaiter c e (State.reply c e) = u := by
    simp only [asWaiter_fibre hc he hswap, State.asTurn, State.reply, hcur, hwhy, holdsAt_fibre he]
    by_cases hl : left ≤ 1
    · simp [u, Why.replied, hl, Nat.not_lt.2 hl, State.setCur]
      rfl
    · simp [u, Why.replied, hl, Nat.lt_of_not_le hl, State.setCur]
      rfl
  rw [execPromotionReply_eq, hreply, hnow, hafter]
  by_cases hl : left ≤ 1 ∧ t.st ≠ .ready
  · simp [if_pos hl]
  · simp [if_neg hl]

end

/-- Settles O35: the owner word decides whether PROMOTE performs its load or asks. -/
theorem promotionRoundTrip : Obligations.PromotionRoundTrip := by
  unfold Obligations.PromotionRoundTrip
  refine ⟨fun s t o pa hone hclean hwhy hreach _ hbad hlog hhalf => ?_, fun s owner from_ => ⟨_, rfl, rfl⟩,
    fun s c e t left own met hc he hf hswap hwhy => ?_⟩
  · have hacc := oneAccess_promote hone hclean hreach hhalf
    have ho : Sound s (pa / 16 * 16 + 8) 8 :=
      ⟨hreach.1.2.2.2.2.2.2.1, hbad, fun w hw => covers_part (by omega) (by omega) (hlog w hw)⟩
    refine ⟨fun hnone => ?_, fun k hsome => ?_⟩
    · obtain ⟨t1, ht1, hcur, hmem⟩ := promoteInstr_none hone hwhy _ rfl hacc ho hnone
      exact ⟨_, rfl, ⟨t1, hcur, ht1.eq_views⟩, hmem⟩
    · obtain ⟨u, t1, ⟨v, l, rfl⟩, hu, heq, n, hcur⟩ := promoteInstr_some hone hwhy _ rfl hacc ho hsome
      exact ⟨_, congrArg Host.Outcome.next heq, ⟨_, hcur, rfl, rfl, rfl⟩, congrArg (· ++ _) hu.agenda, hu.mem⟩
  · refine ⟨_, promotionReply_eq hc he hf hswap hwhy, ?_⟩
    have hth : { t with why := .replied left own met } =
        if left ≤ 1 then { t with why := .promoted own met } else { t with why := .promote (left - 1) own met } := by
      simp only [Why.replied]
      split <;> rfl
    rw [← hth]
    by_cases hl : left ≤ 1 ∧ t.st ≠ .ready
    · rw [if_pos hl]
      exact ⟨State.fibre?_setFibre_self _ _ _ _, fun _ _ => List.mem_append_right _ (.head _), rfl, rfl⟩
    · rw [if_neg hl]
      obtain ⟨hfib, hturn, hmem⟩ := resourcesFreed_frame (s := s.setFibre c e { t with why := .replied left own met }) (c := c) (e := e)
      exact ⟨hfib.trans (State.fibre?_setFibre_self _ _ _ _), fun h1 h2 => absurd ⟨h1, h2⟩ hl, hturn, hmem⟩

end Sys2Proof.Machine
end

section
/-!
O36: WAITA of one index (08 R223, 03 R91). It reads its word once: with its relation met it completes, else the agent waits.
-/

namespace Sys2Proof.Machine

open Sys2Proof Sys2Proof.Spec

/-- 08 R223: what a WAITA of global memory asks for. -/
def waitaReq (o : WaitaO) : Req := { mkReq 3 o.spad (if o.w64 then 8 else 4) 1 o.scp with op := o.rel.toNat }

/-- The operands of a WAITA, its address register being `b` and its value `v`. -/
def waitaOps (b v : Opd) : Nat → IdxOps :=
  addrOps b true 0 (fun p => (v.val p).toNat) (fun _ => 0) (fun p => v.pAll || v.pL.contains p) (fun _ => false)

/-- The fibre of one index `t` has the turn and looks at the word of a WAITA, whose physical address is `pa`. -/
structure WaitsOn (s : State) (t : Thread) (o : WaitaO) (pa : Nat) : Prop where
  cur      : s.cur? = some t
  fibre    : t.kind = .fibre
  places   : t.places = [0]
  count    : t.count = 1
  global   : o.spad = false
  noOwners : o.scp ≠ 3#2
  address  : (t.src s.draw o.a true).clean = true
  value    : (t.src s.draw o.b o.w64).clean = true
  reaches  : Reaches s t ((t.src s.draw o.a true).val 0) (waitaReq o).n .r pa

/-- The relation of the WAITA holds between the word at `pa` and its value. -/
def WaitsOn.Met (s : State) (t : Thread) (o : WaitaO) (pa : Nat) : Prop :=
  waitMet o.rel.toNat (waitaReq o).n (numAt s none pa (waitaReq o).n) ((t.src s.draw o.b o.w64).val 0).toNat = true

section
variable {s u : State} {t : Thread} {c e pa n word v : Nat} {o : WaitaO}

/-- 03 R91: the three relations. -/
theorem waitMet_iff : waitMet o.rel.toNat n word v = true ↔
    if o.rel = 0#2 then word = v % 2 ^ (8 * n) else if o.rel = 1#2 then word ≠ v % 2 ^ (8 * n)
      else (word + 2 ^ (8 * n) - v % 2 ^ (8 * n)) % 2 ^ (8 * n) < 2 ^ (8 * n - 1) := by
  by_cases h0 : o.rel = 0#2
  · simp [h0, waitMet]
  by_cases h1 : o.rel = 1#2
  · simp [h1, waitMet]
  have h2 : 2 ≤ o.rel.toNat := by
    have := o.rel.isLt
    bv_omega
  rw [if_neg h0, if_neg h1]
  unfold waitMet
  split
  next h => omega
  next h => omega
  next => simp

theorem WaitsOn.oneAccess (h : WaitsOn s t o pa) :
    OneAccess s t (waitaReq o) (waitaOps (t.src s.draw o.a true) (t.src s.draw o.b o.w64) 0) pa where
  count := h.count
  reaches := by rw [waitaOps, addrOps_va]; exact h.reaches
  clean := addrOps_bad h.address (not_bad_of_clean h.value)
  notBank := rfl
  notSpad := h.global
  half := fun hp => by simp [waitaReq, mkReq, h.noOwners] at hp
  small := by
    simp only [waitaReq, mkReq]
    split <;> decide

/-- What looking at the word makes of the agent. -/
theorem WaitsOn.waitOn_eq (h : WaitsOn s t o pa) (m : MemRes)
    (hm : s.access t (waitaReq o) false [] [[0]] (waitaOps (t.src s.draw o.a true) (t.src s.draw o.b o.w64)) = m) :
    s.waitOn o (waitaReq o) none [] =
      if m.unmet.isEmpty then
        s.memEnd m { m.t with why := .none, st := .ready } (waitaReq o) [] (t.src s.draw o.a true) 0 [t.src s.draw o.b o.w64]
      else (m.s.setCur m.t).waitCur .wait
        (.waita ([0].filter fun p => !m.unmet.contains p && !(m.faults.map IdxFault.place).contains p)) := by
  have hprom : (waitaReq o).prom = false := by simp [waitaReq, mkReq, h.noOwners]
  have hps : listDiff (sortAsc ((none : Option (List Nat)).getD t.places)) [] = [0] := by rw [Option.getD_none, h.places]; rfl
  subst hm
  rw [State.waitOn]
  simp only [h.cur, h.fibre, h.global, hps, withOwners_plain h.cur h.reaches.1.2.2.2.2.2.2.1.1 hprom]
  rfl

/-- 03 R91: with its relation met WAITA completes. -/
theorem WaitsOn.waitOn_met (h : WaitsOn s t o pa) (hmet : WaitsOn.Met s t o pa) : ∃ u t1, Cached s u ∧ OnlyViews t t1 ∧
    s.waitOn o (waitaReq o) none [] = u.setCur { t1 with why := .none, st := .ready }.advance := by
  obtain ⟨hclean, hunmet⟩ := access_waita (own := []) h.oneAccess rfl
  have hunmet := hunmet.trans (if_pos hmet)
  exact ⟨_, _, hclean.1, hclean.2.1, by rw [h.waitOn_eq _ rfl, hunmet, memEnd_clean hclean]; rfl⟩

/-- 03 R91: with its relation not met the agent waits. -/
theorem WaitsOn.waitOn_unmet (h : WaitsOn s t o pa) (hmet : ¬ WaitsOn.Met s t o pa) : ∃ u t1, Cached s u ∧ OnlyViews t t1 ∧
    s.waitOn o (waitaReq o) none [] = (u.setCur t1).waitCur .wait (.waita []) := by
  obtain ⟨hclean, hunmet⟩ := access_waita (own := []) h.oneAccess rfl
  have hunmet := hunmet.trans (if_neg hmet)
  exact ⟨_, _, hclean.1, hclean.2.1, by rw [h.waitOn_eq _ rfl, hunmet]; rfl⟩

theorem waitsOn_of_oneIndex (h : OneIndex s t o.g) (hk : t.kind = .fibre) (hspad : o.spad = false) (hscp : o.scp ≠ 3#2)
    (ha : (t.src s.draw o.a true).clean = true) (hb : (t.src s.draw o.b o.w64).clean = true)
    (hr : Reaches s t ((t.src s.draw o.a true).val 0) (if o.w64 then 8 else 4) .r pa) : WaitsOn s t o pa :=
  ⟨h.1, hk, places_of_oneIndex h, count_of_oneIndex h, hspad, hscp, ha, hb, hr⟩

/-! ### The instruction -/

theorem WaitsOn.progressed (h : WaitsOn s t o pa) : WaitsOn (s.setCur t.progressed) t.progressed o pa := by
  have hth : ThreadsOnly s (s.setCur t.progressed) := threadsOnly_setCur
  have hdraw : (s.setCur t.progressed).draw = s.draw := hth.draw
  exact {
    cur := State.cur?_setCur _ _ _ h.cur
    fibre := h.fibre
    places := h.places
    count := h.count
    global := h.global
    noOwners := h.noOwners
    address := hdraw ▸ h.address
    value := hdraw ▸ h.value
    reaches := hdraw ▸ reaches_of_threadsOnly h.reaches hth rfl rfl }

theorem WaitsOn.met_progressed : WaitsOn.Met (s.setCur t.progressed) t.progressed o pa ↔ WaitsOn.Met s t o pa := by
  have hth : ThreadsOnly s (s.setCur t.progressed) := threadsOnly_setCur
  have hdraw : (s.setCur t.progressed).draw = s.draw := hth.draw
  rw [WaitsOn.Met, WaitsOn.Met, numAt_congr hth.mem, hdraw]
  rfl

/-- A WAITA that its agent goes on from says so to no one; one that it waits on looks at its word again. -/
def State.waitaPost (s : State) : State :=
  match s.cur? with
  | some t => (match t.why with
    | .waita _ => s.post (.waitaSatisfied (s.curFrom / 8192) (s.curFrom % 8192))
    | _ => s)
  | none => s

theorem execWaita_eq (hcur : s.cur? = some t) (hg : t.guard o.g = .t) :
    execWaita o s = .next ((s.setCur t.progressed).waitOn o (waitaReq o) none []).waitaPost := by
  simp only [execWaita, reqOf, State.guarded_t _ _ _ _ hcur hg, State.progressed_eq _ _ hcur]
  rfl

/-- 03 R91: a READY fibre whose WAITA is met goes on. -/
theorem execWaita_met (h : WaitsOn s t o pa) (hg : t.guard o.g = .t) (hwhy : t.why = .none) (hst : t.st = .ready)
    (hmet : WaitsOn.Met s t o pa) :
    ∃ u t1, OnlyViews t.progressed t1 ∧ execWaita o s = .next u ∧ u.turn = s.turn ∧ u.mem = s.mem ∧ u.cur? = some t1.advance := by
  obtain ⟨u, t1, hu, ht1, heq⟩ := h.progressed.waitOn_met (WaitsOn.met_progressed.2 hmet)
  have hself : { t1 with why := .none, st := .ready } = t1 := by
    obtain ⟨v, l, rfl⟩ := ht1
    show ({ t.progressed with view := v, lviews := l, why := .none, st := .ready } : Thread) = { t.progressed with view := v, lviews := l }
    rw [← hwhy, ← hst]
    rfl
  have hwhy1 : t1.why = .none := by
    obtain ⟨v, l, rfl⟩ := ht1
    exact hwhy
  have hcur : (u.setCur t1.advance).cur? = some t1.advance := State.cur?_setCur _ _ _ (hu.cur?.trans h.progressed.cur)
  rw [hself] at heq
  refine ⟨u.setCur t1.advance, t1, ht1, ?_, ?_, ?_, hcur⟩
  · simp only [execWaita_eq h.cur hg, heq, State.waitaPost, hcur, Thread.why_advance, hwhy1]
  · rw [threadsOnly_setCur.turn, hu.turn, threadsOnly_setCur.turn]
  · rw [threadsOnly_setCur.mem, hu.mem, threadsOnly_setCur.mem]

/-- 03 R91: an agent whose WAITA is not met waits. -/
theorem execWaita_unmet (h : WaitsOn s t o pa) (hg : t.guard o.g = .t) (hmet : ¬ WaitsOn.Met s t o pa) :
    ∃ (u : State) (t1 : Thread) (n : Nat), OnlyViews t.progressed t1 ∧
      execWaita o s = .next (u.post (.waitaSatisfied (u.curFrom / 8192) (u.curFrom % 8192))) ∧
      u.turn = s.turn ∧ u.mem = s.mem ∧ u.cur? = some { t1 with st := .wait, why := .waita [], since := n } := by
  obtain ⟨u, t1, hu, ht1, heq⟩ := h.progressed.waitOn_unmet (mt WaitsOn.met_progressed.1 hmet)
  obtain ⟨n, hcur⟩ := cur?_waitCur (st := .wait) (why := .waita []) (State.cur?_setCur u t1 _ (hu.cur?.trans h.progressed.cur))
  have hth : ThreadsOnly u ((u.setCur t1).waitCur .wait (.waita [])) := threadsOnly_setCur.trans threadsOnly_waitCur
  refine ⟨_, t1, n, ht1, ?_, ?_, ?_, hcur⟩
  · simp only [execWaita_eq h.cur hg, heq, State.waitaPost, hcur]
  · rw [hth.turn, hu.turn, threadsOnly_setCur.turn]
  · rw [hth.mem, hu.mem, threadsOnly_setCur.mem]

/-! ### The waiting agent -/

/-- The current agent looks at the words of its WAITA again, those at the places `met` left out. -/
def State.lookAgain (met : List Nat) (s : State) : State :=
  match s.cur? with
  | none => s
  | some t =>
    match decode t.word with
    | .ok (.waita o) => match reqOf (.waita o) with
      | some r => s.waitOn o r (t.maskOf o.g) met
      | none => s
    | _ => s

theorem lookAgain_eq {met : List Nat} (hcur : s.cur? = some t) (hd : decode t.word = .ok (.waita o)) (hg : t.guard o.g = .t) :
    s.lookAgain met = s.waitOn o (waitaReq o) none met := by
  simp only [State.lookAgain, hcur, hd, reqOf, Thread.maskOf, hg]
  rfl

/-- Where the agent waits on nothing once it has looked, its core may have freed resources, or its swap record is due. -/
theorem execWaitaSatisfied_eq {met : List Nat} (hmet : s.waitaMet c e = some met) (hh : s.holdsAt c e = false)
    (hu : s.asWaiter c e (State.lookAgain met) = u) (hwhy : u.whyOf c e = .none) : execWaitaSatisfied c e s =
      .next (if (Tab.find? (u.core c).swaps e).isSome then u.post (.waitcResume c e) else u.resourcesFreed c) := by
  have hlook : execWaitaSatisfied c e s = .next (match u.whyOf c e with
      | .waita _ | .promoted _ _ => u.post (.waitaSatisfied c e)
      | .promote _ _ _ => u
      | _ => if (Tab.find? (u.core c).swaps e).isSome then u.post (.waitcResume c e) else u.resourcesFreed c) := by
    rw [← hu]
    simp only [execWaitaSatisfied, hmet, hh]
    rfl
  rw [hlook, hwhy]

/-- 03 R91: a waiting fibre whose word satisfies its WAITA goes on. -/
theorem waitaSatisfied_met (hc : c < Config.numCores) (he : e < 4096) (hswap : Tab.find? (s.core c).swaps e = none)
    (hwhy : t.why = .waita []) (hd : decode t.word = .ok (.waita o)) (hg : t.guard o.g = .t)
    (h : WaitsOn { s with turn := .fibre c e } t o pa) (hmet : WaitsOn.Met { s with turn := .fibre c e } t o pa) :
    ∃ u t1, OnlyViews t t1 ∧ execWaitaSatisfied c e s = .next u ∧ u.turn = s.turn ∧ u.mem = s.mem ∧
      u.fibre? c e = some { t1 with why := .none, st := .ready }.advance := by
  obtain ⟨u, t1, hu, ht1, heq⟩ := h.waitOn_met hmet
  let u1 : State := { u.setCur { t1 with why := .none, st := .ready }.advance with turn := s.turn }
  have hasked : s.waitaMet c e = some [] := by simp only [State.waitaMet, cur?_turnOf hc he, show s.fibre? c e = some t from h.cur, hwhy]
  have hlook : s.asWaiter c e (State.lookAgain []) = u1 := by
    rw [asWaiter_fibre hc he hswap, State.asTurn, lookAgain_eq h.cur hd hg, heq]
  have hfib : u1.fibre? c e = some { t1 with why := .none, st := .ready }.advance := by
    have hcur := State.cur?_setCur u { t1 with why := .none, st := .ready }.advance _ (hu.cur?.trans h.cur)
    rwa [cur?_fibre (threadsOnly_setCur.turn.trans hu.turn)] at hcur
  have hfree : u1.whyOf c e = .none := by simp only [State.whyOf, cur?_turnOf hc he, hfib, Thread.why_advance]
  have hmem : u1.mem = s.mem := threadsOnly_setCur.mem.trans hu.mem
  refine ⟨_, t1, ht1, execWaitaSatisfied_eq hasked (holdsAt_fibre he) hlook hfree, ?_⟩
  split
  · exact ⟨rfl, hmem, hfib⟩
  · obtain ⟨hf, ht, hm⟩ := resourcesFreed_frame (s := u1) (c := c) (e := e)
    exact ⟨ht, hm.trans hmem, hf.trans hfib⟩

end

/-- Settles O36: the access reads what memory holds, and the relation on it decides whether the agent goes on. -/
theorem waitaWaitsForWord : Obligations.WaitaWaitsForWord := by
  unfold Obligations.WaitaWaitsForWord
  refine ⟨fun s c e t o pa hfib hone hspad hscp hwhy ha hb => ?_,
    fun s c e t o pa hc he hswap hf hk hwhy hd => ?_⟩
  · intro n hreach word v met
    obtain ⟨hturn, -, hk⟩ := hfib
    have hw := waitsOn_of_oneIndex hone hk hspad hscp ha hb hreach
    have hmet : WaitsOn.Met s t o pa ↔ met := waitMet_iff
    refine ⟨fun h hst => ?_, fun h => ?_⟩
    · obtain ⟨u, t1, ht1, heq, hut, hum, hcur⟩ := execWaita_met hw hone.2.1 hwhy hst (hmet.2 h)
      rw [cur?_fibre (hut.trans hturn)] at hcur
      exact ⟨u, heq, ⟨t1, hcur, ht1.eq_views⟩, hum⟩
    · obtain ⟨u, t1, m, ⟨_, _, rfl⟩, heq, hut, hum, hcur⟩ := execWaita_unmet hw hone.2.1 (mt hmet.1 h)
      rw [cur?_fibre (hut.trans hturn)] at hcur
      refine ⟨_, heq, ⟨_, hcur, rfl, rfl, rfl⟩, fun hc he => ?_, hum⟩
      have hfrom : u.curFrom = c * 8192 + e := by simp only [State.curFrom, hut, hturn]
      rw [hfrom, show (c * 8192 + e) / 8192 = c by omega, show (c * 8192 + e) % 8192 = e by omega]
      exact List.mem_append_right _ (.head _)
  · let s' : State := { s with turn := .fibre c e }
    rintro ⟨hone, hspad, hscp, hw64, hrel, ha, hb, hreach, hnum⟩
    have hw : WaitsOn s' t o pa := waitsOn_of_oneIndex hone hk hspad hscp ha (by rw [hw64]; exact hb) (by rw [hw64]; exact hreach)
    have hmet : WaitsOn.Met s' t o pa := by
      rw [WaitsOn.Met, waitMet_iff, if_pos hrel, waitaReq, hw64]
      exact hnum.trans (Nat.mod_eq_of_lt (BitVec.isLt _)).symm
    obtain ⟨u, t1, ⟨v, l, rfl⟩, heq, hut, hum, hfib⟩ := waitaSatisfied_met hc he hswap hwhy hd hone.2.1 hw hmet
    exact ⟨u, heq, ⟨_, hfib, rfl⟩, hum, hut⟩

end Sys2Proof.Machine
end

section
/-!
The word of an instruction and back (O1, O2). A layout of fields undoes a parser of them where the two agree field by field;
`Undoes` says so of the encoder and the parser of each group of operands, and the opcode tells the group.
-/

namespace Sys2Proof

/-! ### Bits of a field -/

section
variable {w m n i j k l : Nat} {b : Bool}

@[simp] theorem append_eq_iff {x : BitVec m} {y : BitVec n} {z : BitVec (no_index (m + n))} :
    @HAppend.hAppend _ _ (BitVec (no_index (m + n))) _ x y = z ↔ x = z.extractLsb' n m ∧ y = z.extractLsb' 0 n := by
  constructor
  · rintro rfl
    exact ⟨BitVec.extractLsb'_append_eq_left.symm, BitVec.extractLsb'_append_eq_right.symm⟩
  · rintro ⟨rfl, rfl⟩
    exact BitVec.extractLsb'_append_extractLsb'

@[simp] theorem extractLsb'_extractLsb' {x : BitVec w} (h : k + l ≤ j) :
    (x.extractLsb' i j).extractLsb' k l = x.extractLsb' (i + k) l := by
  apply BitVec.eq_of_getLsbD_eq
  intro q hq
  simp only [BitVec.getLsbD_extractLsb', hq, decide_true, Bool.true_and, Nat.add_assoc]
  rw [decide_eq_true (by omega), Bool.true_and]

@[simp] theorem ofBool_eq_extractLsb' {x : BitVec w} : BitVec.ofBool b = x.extractLsb' i 1 ↔ x.getLsbD i = b := by
  rw [BitVec.getLsbD_eq_extractLsb']
  generalize x.extractLsb' i 1 = y
  revert y b; decide

@[simp] theorem zero_eq_extractLsb' {x : BitVec w} : 0#1 = x.extractLsb' i 1 ↔ x.getLsbD i = false :=
  ofBool_eq_extractLsb' (b := false)

theorem zero_eq_extractLsb'_two {x : BitVec w} : 0#2 = x.extractLsb' i 2 ↔ x.getLsbD i = false ∧ x.getLsbD (i + 1) = false := by
  have h : ∀ y : BitVec 2, 0#2 = y ↔ y.getLsbD 0 = false ∧ y.getLsbD 1 = false := by decide
  simp [h]

theorem ofBool_eq_iff {x : BitVec 1} : BitVec.ofBool b = x ↔ (x == 1#1) = b := by
  revert x b; decide

end

@[simp] theorem req_eq_some {c : Bool} {u : Unit} : req c = some u ↔ c = true := by
  cases c <;> simp [req]

/-! ### Fields -/

@[simp] theorem Guard.enc_eq_iff {g : Guard} {x : BitVec 6} : g.enc = x ↔ Guard.of x = g := by
  obtain ⟨neg, pred⟩ := g
  simp only [Guard.enc, append_eq_iff, ofBool_eq_extractLsb', Guard.of, Guard.mk.injEq]
  grind

@[simp] theorem Dst.enc_eq_iff {d : Dst} {x : BitVec 8} : d.enc = x ↔ Dst.of x = some d := by
  obtain ⟨nwb, n⟩ := d
  simp [Dst.enc, Dst.of]
  grind

/-- The numbers of a source field with L set: 0-7 the latches, 8-10 the indices. -/
theorem Src.of6_enc6 {s : Src} : Src.of6 s.encL s.enc6 = some s := by
  cases s with
  | latch j => revert j; decide
  | reg | ix | iy | iz => rfl

theorem Src.encL_enc6_of6 {l : Bool} {n : BitVec 6} {s : Src} (h : Src.of6 l n = some s) : s.encL = l ∧ s.enc6 = n := by
  unfold Src.of6 at h
  split at h
  · next hl =>
    split at h
    · next hn =>
      cases h
      refine ⟨hl.symm, ?_⟩
      revert n; decide
    · repeat' split at h
      all_goals simp_all [Src.encL, Src.enc6]
      all_goals (subst h; decide)
  · cases h
    simp_all [Src.encL, Src.enc6]

theorem Src.of6_eq_iff {l : Bool} {n : BitVec 6} {s : Src} : Src.of6 l n = some s ↔ s.encL = l ∧ s.enc6 = n :=
  ⟨encL_enc6_of6, fun ⟨hl, hn⟩ => hl ▸ hn ▸ of6_enc6⟩

@[simp] theorem Src.enc_eq_iff {s : Src} {x : BitVec 8} : s.enc = x ↔ Src.of x = some s := by
  simp [Src.enc, Src.of, Src.of6_eq_iff]
  grind

@[simp] theorem enc6_eq_iff {n : BitVec 6} {x : BitVec 8} : enc6 n = x ↔ plain6 x = some n := by
  have h : 0#2 = x.extractLsb' 6 2 ↔ x.getLsbD 6 = false ∧ x.getLsbD 7 = false := by revert x; decide
  simp [enc6, plain6, h]
  grind

@[simp] theorem ITy.enc_eq_iff {t : ITy} {x : BitVec 4} : t.enc = x ↔ ITy.of x = some t := by
  cases t <;> (revert x; decide)

@[simp] theorem FTy.enc_eq_iff {t : FTy} {x : BitVec 4} : t.enc = x ↔ FTy.of x = some t := by
  cases t <;> (revert x; decide)

@[simp] theorem Fmt.enc_eq_iff {t : Fmt} {x : BitVec 4} : t.enc = x ↔ Fmt.of x = some t := by
  cases t <;> (revert x; decide)

@[simp] theorem RTy.enc_eq_iff {t : RTy} {x : BitVec 4} : t.enc = x ↔ RTy.of x = some t := by
  cases t <;> (revert x; decide)

@[simp] theorem Rnd.enc_eq_iff {r : Rnd} {x : BitVec 2} : r.enc = x ↔ Rnd.of x = r := by
  cases r <;> (revert x; decide)

@[simp] theorem Rel.enc_eq_iff {r : Rel} {x : BitVec 3} : r.enc = x ↔ Rel.of x = some r := by
  cases r <;> (revert x; decide)

@[simp] theorem Rel.encCond_eq_iff {r : Rel} {x : BitVec 3} : r.encCond = x ↔ Rel.ofCond x = some r := by
  cases r <;> (revert x; decide)

@[simp] theorem FRel.enc_eq_iff {r : FRel} {x : BitVec 3} : r.enc = x ↔ FRel.of x = r := by
  cases r <;> (revert x; decide)

@[simp] theorem FormWhat.enc_eq_iff {f : FormWhat} {x : BitVec 2} : f.enc = x ↔ FormWhat.of x = some f := by
  cases f <;> (revert x; decide)

theorem optReg_eq_iff {p : Bool} {x : BitVec 8} {r : Option (BitVec 6)} :
    optReg p x = some r ↔ r.isSome = p ∧ encOptReg r = x := by
  cases p <;> cases r <;> simp [optReg, encOptReg]
  exact eq_comm

theorem LaneSel.of_eq_iff {i : Bool} {y : BitVec 5} {x : BitVec 8} {l : LaneSel} :
    LaneSel.of i y x = some l ↔ l.isImm = i ∧ l.encY = y ∧ l.encSb = x := by
  cases i <;> cases l <;> simp [LaneSel.of, LaneSel.isImm, LaneSel.encY, LaneSel.encSb] <;> grind

@[simp] theorem StO.dataEnc_eq_iff {s : Src} {x : BitVec 8} : StO.dataEnc s = x ↔ StO.dataOf x = some s := by
  simp [StO.dataEnc, StO.dataOf, Src.of6_eq_iff]
  grind

@[simp] theorem LdcO.baseEnc_eq_iff {s : Option Src} {x : BitVec 8} : LdcO.baseEnc s = x ↔ LdcO.baseOf x = some s := by
  have h : Src.of 0x40#8 = none := by decide
  by_cases hx : x = 0x40#8
  · subst hx
    cases s <;> simp [LdcO.baseEnc, LdcO.baseOf, h]
  · cases s <;> simp [LdcO.baseEnc, LdcO.baseOf, hx, Ne.symm hx]

@[simp] theorem mkMod_eq_iff {ty : BitVec 4} {rnd : BitVec 2} {opx : BitVec 10} {x : BitVec 16} :
    mkMod ty rnd opx = x ↔ ty = x.extractLsb' 12 4 ∧ rnd = x.extractLsb' 10 2 ∧ opx = x.extractLsb' 0 10 := by
  simp [mkMod, and_assoc]

/-! ### Groups of operands -/

/-- A parser and an encoder agree: the encoder lays out the word `w` exactly where the opcode of `w` is the one given and the parser
finds the operands in the fields of `w`. -/
abbrev Undoes {F O : Type} (fields : Word → F) (parse : F → Option O) (enc : BitVec 10 → O → Word) : Prop :=
  ∀ opc o w, enc opc o = w ↔ opc = w.extractLsb' 54 10 ∧ parse (fields w) = some o

section
variable {O : Type}

theorem undoes_cf {parse : CF → Option O} {lay : BitVec 10 → O → CF} (h : ∀ opc o f, lay opc o = f ↔ opc = f.opc ∧ parse f = some o) :
    Undoes CF.ofWord parse fun opc o => (lay opc o).toWord := fun opc o w =>
  Iff.trans ⟨fun e => (CF.ofWord_toWord _).symm.trans (congrArg CF.ofWord e), fun e => (congrArg CF.toWord e).trans (CF.toWord_ofWord w)⟩
    (h opc o (CF.ofWord w))

theorem undoes_if {parse : IF → Option O} {lay : BitVec 10 → O → IF} (h : ∀ opc o f, lay opc o = f ↔ opc = f.opc ∧ parse f = some o) :
    Undoes IF.ofWord parse fun opc o => (lay opc o).toWord := fun opc o w =>
  Iff.trans ⟨fun e => (IF.ofWord_toWord _).symm.trans (congrArg IF.ofWord e), fun e => (congrArg IF.toWord e).trans (IF.toWord_ofWord w)⟩
    (h opc o (IF.ofWord w))

theorem undoes_mf {parse : MF → Option O} {lay : BitVec 10 → O → MF} (h : ∀ opc o f, lay opc o = f ↔ opc = f.opc ∧ parse f = some o) :
    Undoes MF.ofWord parse fun opc o => (lay opc o).toWord := fun opc o w =>
  Iff.trans ⟨fun e => (MF.ofWord_toWord _).symm.trans (congrArg MF.ofWord e), fun e => (congrArg MF.toWord e).trans (MF.toWord_ofWord w)⟩
    (h opc o (MF.ofWord w))

theorem undoes_bf {parse : BF → Option O} {lay : BitVec 10 → O → BF} (h : ∀ opc o f, lay opc o = f ↔ opc = f.opc ∧ parse f = some o) :
    Undoes BF.ofWord parse fun opc o => (lay opc o).toWord := fun opc o w =>
  Iff.trans ⟨fun e => (BF.ofWord_toWord _).symm.trans (congrArg BF.ofWord e), fun e => (congrArg BF.toWord e).trans (BF.toWord_ofWord w)⟩
    (h opc o (BF.ofWord w))

theorem undoes_tf {parse : TF → Option O} {lay : BitVec 10 → O → TF} (h : ∀ opc o f, lay opc o = f ↔ opc = f.opc ∧ parse f = some o) :
    Undoes TF.ofWord parse fun opc o => (lay opc o).toWord := fun opc o w =>
  Iff.trans ⟨fun e => (TF.ofWord_toWord _).symm.trans (congrArg TF.ofWord e), fun e => (congrArg TF.toWord e).trans (TF.toWord_ofWord w)⟩
    (h opc o (TF.ofWord w))

end

@[simp] theorem CF.ty_mk {o : BitVec 10} {g : BitVec 6} {d a b c : BitVec 8} {m : BitVec 16} :
    (CF.mk o g d a b c m).ty = m.extractLsb' 12 4 := rfl
@[simp] theorem CF.rnd_mk {o : BitVec 10} {g : BitVec 6} {d a b c : BitVec 8} {m : BitVec 16} :
    (CF.mk o g d a b c m).rnd = m.extractLsb' 10 2 := rfl
@[simp] theorem CF.opx_mk {o : BitVec 10} {g : BitVec 6} {d a b c : BitVec 8} {m : BitVec 16} :
    (CF.mk o g d a b c m).opx = m.extractLsb' 0 10 := rfl

@[simp] theorem G.undoes : Undoes CF.ofWord G.of G.enc := undoes_cf fun opc ⟨g⟩ ⟨_, _, _, _, _, _, _⟩ => by
  simp [G.of, Option.bind_eq_some_iff]
  grind

@[simp] theorem RR.undoes : Undoes CF.ofWord RR.of RR.enc := undoes_cf fun opc ⟨g, d, a, b, ty⟩ ⟨_, _, _, _, _, _, _⟩ => by
  simp [RR.of, Option.bind_eq_some_iff]
  grind

@[simp] theorem RI.undoes : Undoes IF.ofWord RI.of RI.enc :=
  undoes_if fun opc ⟨g, ⟨nwb, n⟩, a, w, s, imm⟩ ⟨_, _, _, _, _, _, _, _, _⟩ => by
  simp [RI.of, Option.bind_eq_some_iff, ofBool_eq_iff, Src.of6_eq_iff]
  grind

@[simp] theorem RRR.undoes : Undoes CF.ofWord RRR.of RRR.enc := undoes_cf fun opc ⟨g, d, a, b, c, ty⟩ ⟨_, _, _, _, _, _, _⟩ => by
  simp [RRR.of, Option.bind_eq_some_iff]
  grind

@[simp] theorem R1.undoes : Undoes CF.ofWord R1.of R1.enc := undoes_cf fun opc ⟨g, d, a, ty⟩ ⟨_, _, _, _, _, _, _⟩ => by
  simp [R1.of, Option.bind_eq_some_iff]
  grind

@[simp] theorem SelO.undoes : Undoes CF.ofWord SelO.of SelO.enc :=
  undoes_cf fun opc ⟨g, d, a, b, ty, neg, p⟩ ⟨_, _, _, _, _, _, _⟩ => by
  simp [SelO.of, Option.bind_eq_some_iff]
  grind

@[simp] theorem CmpO.undoes : Undoes CF.ofWord CmpO.of CmpO.enc :=
  undoes_cf fun opc ⟨g, p, a, b, ty, rel⟩ ⟨_, _, _, _, _, _, _⟩ => by
  simp [CmpO.of, Option.bind_eq_some_iff]
  grind

@[simp] theorem MoviO.undoes : Undoes IF.ofWord MoviO.of MoviO.enc :=
  undoes_if fun opc ⟨g, ⟨nwb, n⟩, w, s, imm⟩ ⟨_, _, _, _, _, _, _, _, _⟩ => by
  simp [MoviO.of, Option.bind_eq_some_iff, ofBool_eq_iff]
  grind

@[simp] theorem MovhO.undoes : Undoes IF.ofWord MovhO.of MovhO.enc :=
  undoes_if fun opc ⟨g, ⟨nwb, n⟩, imm⟩ ⟨_, _, _, _, _, _, _, _, _⟩ => by
  simp [MovhO.of, Option.bind_eq_some_iff, ofBool_eq_iff]
  grind

@[simp] theorem LeaO.undoes : Undoes CF.ofWord LeaO.of LeaO.enc :=
  undoes_cf fun opc ⟨g, d, a, b, ty, sh⟩ ⟨_, _, _, _, _, _, _⟩ => by
  simp [LeaO.of, Option.bind_eq_some_iff]
  grind

@[simp] theorem FRR.undoes : Undoes CF.ofWord FRR.of FRR.enc :=
  undoes_cf fun opc ⟨g, d, a, b, ty, rnd⟩ ⟨_, _, _, _, _, _, _⟩ => by
  simp [FRR.of, Option.bind_eq_some_iff]
  grind

@[simp] theorem FRRR.undoes : Undoes CF.ofWord FRRR.of FRRR.enc :=
  undoes_cf fun opc ⟨g, d, a, b, c, ty, rnd⟩ ⟨_, _, _, _, _, _, _⟩ => by
  simp [FRRR.of, Option.bind_eq_some_iff]
  grind

@[simp] theorem FR1.undoes : Undoes CF.ofWord FR1.of FR1.enc := undoes_cf fun opc ⟨g, d, a, ty, rnd⟩ ⟨_, _, _, _, _, _, _⟩ => by
  simp [FR1.of, Option.bind_eq_some_iff]
  grind

@[simp] theorem FCmpO.undoes : Undoes CF.ofWord FCmpO.of FCmpO.enc :=
  undoes_cf fun opc ⟨g, p, a, b, ty, rel⟩ ⟨_, _, _, _, _, _, _⟩ => by
  simp [FCmpO.of, Option.bind_eq_some_iff]
  grind

@[simp] theorem CvtO.undoes : Undoes CF.ofWord CvtO.of CvtO.enc :=
  undoes_cf fun opc ⟨g, d, a, ty, from_, rnd, ns, qsel⟩ ⟨_, _, _, _, _, _, _⟩ => by
  simp [CvtO.of, Option.bind_eq_some_iff]
  grind

@[simp] theorem Dot4O.undoes : Undoes CF.ofWord Dot4O.of Dot4O.enc :=
  undoes_cf fun opc ⟨g, d, a, b, c, ta, tb, rnd⟩ ⟨_, _, _, _, _, _, _⟩ => by
  simp [Dot4O.of, Option.bind_eq_some_iff]
  grind

@[simp] theorem PPP.undoes : Undoes CF.ofWord PPP.of PPP.enc := undoes_cf fun opc ⟨g, p, a, b, na, nb⟩ ⟨_, _, _, _, _, _, _⟩ => by
  simp [PPP.of, Option.bind_eq_some_iff]
  grind

@[simp] theorem PP.undoes : Undoes CF.ofWord PP.of PP.enc := undoes_cf fun opc ⟨g, p, a, na⟩ ⟨_, _, _, _, _, _, _⟩ => by
  simp [PP.of, Option.bind_eq_some_iff]
  grind

@[simp] theorem VoteO.undoes : Undoes CF.ofWord VoteO.of VoteO.enc :=
  undoes_cf fun opc ⟨p, a, na, key⟩ ⟨_, _, _, _, _, _, _⟩ => by
  simp [VoteO.of, Option.bind_eq_some_iff, alwaysG]
  grind

@[simp] theorem PcntO.undoes : Undoes CF.ofWord PcntO.of PcntO.enc :=
  undoes_cf fun opc ⟨d, a, na, key⟩ ⟨_, _, _, _, _, _, _⟩ => by
  simp [PcntO.of, Option.bind_eq_some_iff, alwaysG]
  grind

@[simp] theorem SelOut.undoes : Undoes CF.ofWord SelOut.of SelOut.enc := undoes_cf fun opc ⟨g, d, sel⟩ ⟨_, _, _, _, _, _, _⟩ => by
  simp [SelOut.of, Option.bind_eq_some_iff]
  grind

@[simp] theorem FormO.undoes : Undoes CF.ofWord FormO.of FormO.enc :=
  undoes_cf fun opc ⟨g, d, what, n⟩ ⟨_, _, _, _, _, _, _⟩ => by
  simp [FormO.of, Option.bind_eq_some_iff]
  grind

@[simp] theorem ExpandO.undoes : Undoes CF.ofWord ExpandO.of ExpandO.enc := undoes_cf fun opc ⟨g, r⟩ ⟨_, _, _, _, _, _, _⟩ => by
  simp [ExpandO.of, Option.bind_eq_some_iff, optReg_eq_iff]
  grind

@[simp] theorem SplitO.undoes : Undoes CF.ofWord SplitO.of SplitO.enc := undoes_cf fun opc ⟨p, neg⟩ ⟨_, _, _, _, _, _, _⟩ => by
  simp [SplitO.of, Option.bind_eq_some_iff, alwaysG]
  grind

@[simp] theorem PeelO.undoes : Undoes CF.ofWord PeelO.of PeelO.enc := undoes_cf fun opc ⟨g, p, a, ty⟩ ⟨_, _, _, _, _, _, _⟩ => by
  simp [PeelO.of, Option.bind_eq_some_iff]
  grind

@[simp] theorem FnewO.undoes : Undoes CF.ofWord FnewO.of FnewO.enc := undoes_cf fun opc ⟨g, a, b, win⟩ ⟨_, _, _, _, _, _, _⟩ => by
  simp [FnewO.of, Option.bind_eq_some_iff]
  grind

@[simp] theorem SjoinO.undoes : Undoes CF.ofWord SjoinO.of SjoinO.enc := undoes_cf fun opc ⟨p, key⟩ ⟨_, _, _, _, _, _, _⟩ => by
  simp [SjoinO.of, Option.bind_eq_some_iff, alwaysG]
  grind

@[simp] theorem KeyO.undoes : Undoes CF.ofWord KeyO.of KeyO.enc := undoes_cf fun opc ⟨key⟩ ⟨_, _, _, _, _, _, _⟩ => by
  simp [KeyO.of, Option.bind_eq_some_iff, alwaysG]
  grind

@[simp] theorem RedO.undoes : Undoes CF.ofWord RedO.of RedO.enc :=
  undoes_cf fun opc ⟨g, a, ty, s, set⟩ ⟨_, _, _, _, _, _, _⟩ => by
  simp [RedO.of, Option.bind_eq_some_iff]
  grind

@[simp] theorem RdsumO.undoes : Undoes CF.ofWord RdsumO.of RdsumO.enc :=
  undoes_cf fun opc ⟨g, d, a, ty, s⟩ ⟨_, _, _, _, _, _, _⟩ => by
  simp [RdsumO.of, Option.bind_eq_some_iff]
  grind

@[simp] theorem ShflO.undoes : Undoes CF.ofWord ShflO.of ShflO.enc :=
  undoes_cf fun opc ⟨g, d, a, y, mode⟩ ⟨_, _, _, _, _, _, _⟩ => by
  simp [ShflO.of, Option.bind_eq_some_iff, LaneSel.of_eq_iff]
  grind

@[simp] theorem BrO.undoes : Undoes BF.ofWord BrO.of BrO.enc := undoes_bf fun opc ⟨g, disp⟩ ⟨_, _, _, _, _, _, _⟩ => by
  simp [BrO.of, Option.bind_eq_some_iff]
  grind

@[simp] theorem BrcO.undoes : Undoes BF.ofWord BrcO.of BrcO.enc :=
  undoes_bf fun opc ⟨g, a, rel, w, disp⟩ ⟨_, _, _, _, _, _, _⟩ => by
  simp [BrcO.of, Option.bind_eq_some_iff, ofBool_eq_iff]
  grind

@[simp] theorem JmpO.undoes : Undoes CF.ofWord JmpO.of JmpO.enc := undoes_cf fun opc ⟨g, a⟩ ⟨_, _, _, _, _, _, _⟩ => by
  simp [JmpO.of, Option.bind_eq_some_iff]
  grind

@[simp] theorem CodeO.undoes : Undoes CF.ofWord CodeO.of CodeO.enc := undoes_cf fun opc ⟨g, code⟩ ⟨_, _, _, _, _, _, _⟩ => by
  simp [CodeO.of, Option.bind_eq_some_iff]
  grind

@[simp] theorem LdO.undoes : Undoes MF.ofWord LdO.of LdO.enc :=
  undoes_mf fun opc ⟨g, d, base, off, size, ord, scp, hnt⟩ ⟨_, _, _, _, _, _, _, _, _, _⟩ => by
  simp [LdO.of, Option.bind_eq_some_iff]
  grind

@[simp] theorem StO.undoes : Undoes MF.ofWord StO.of StO.enc :=
  undoes_mf fun opc ⟨g, data, base, off, size, ord, scp, hnt⟩ ⟨_, _, _, _, _, _, _, _, _, _⟩ => by
  simp [StO.of, Option.bind_eq_some_iff]
  grind

@[simp] theorem LdcO.undoes : Undoes MF.ofWord LdcO.of LdcO.enc :=
  undoes_mf fun opc ⟨g, d, base, off, size⟩ ⟨_, _, _, _, _, _, _, _, _, _⟩ => by
  simp [LdcO.of, Option.bind_eq_some_iff]
  grind

@[simp] theorem PrefO.undoes : Undoes MF.ofWord PrefO.of PrefO.enc :=
  undoes_mf fun opc ⟨g, base, off, hnt⟩ ⟨_, _, _, _, _, _, _, _, _, _⟩ => by
  simp [PrefO.of, Option.bind_eq_some_iff]
  grind

@[simp] theorem AtomO.undoes : Undoes CF.ofWord AtomO.of AtomO.enc :=
  undoes_cf fun opc ⟨g, d, a, b, c, ty, op, ord, scp, w16⟩ ⟨_, _, _, _, _, _, _⟩ => by
  simp [AtomO.of, Option.bind_eq_some_iff, zero_eq_extractLsb'_two, @eq_comm _ _ 0#2]
  grind

@[simp] theorem FenceO.undoes : Undoes CF.ofWord FenceO.of FenceO.enc :=
  undoes_cf fun opc ⟨g, ord, scp⟩ ⟨_, _, _, _, _, _, _⟩ => by
  simp [FenceO.of, Option.bind_eq_some_iff]
  grind

@[simp] theorem PfenceO.undoes : Undoes CF.ofWord PfenceO.of PfenceO.enc :=
  undoes_cf fun opc ⟨g, prod, cons⟩ ⟨_, _, _, _, _, _, _⟩ => by
  simp [PfenceO.of, Option.bind_eq_some_iff]
  grind

@[simp] theorem WaitaO.undoes : Undoes CF.ofWord WaitaO.of WaitaO.enc :=
  undoes_cf fun opc ⟨g, a, b, w64, rel, spad, scp⟩ ⟨_, _, _, _, _, _, _⟩ => by
  simp [WaitaO.of, Option.bind_eq_some_iff]
  grind

@[simp] theorem CopyO.undoes : Undoes CF.ofWord CopyO.of CopyO.enc :=
  undoes_cf fun opc ⟨g, grp, tok, insp, outsp, cwsp, gran⟩ ⟨_, _, _, _, _, _, _⟩ => by
  simp [CopyO.of, Option.bind_eq_some_iff, CopyO.ofOpx]
  grind

@[simp] theorem CopyFO.undoes : Undoes CF.ofWord CopyFO.of CopyFO.enc :=
  undoes_cf fun opc ⟨⟨g, grp, tok, insp, outsp, cwsp, gran⟩, fmt⟩ ⟨_, _, _, _, _, _, _⟩ => by
  simp [CopyFO.of, Option.bind_eq_some_iff, CopyO.ofOpx]
  grind

@[simp] theorem ForkO.undoes : Undoes CF.ofWord ForkO.of ForkO.enc := undoes_cf fun opc ⟨g, a, b, cnt⟩ ⟨_, _, _, _, _, _, _⟩ => by
  simp [ForkO.of, Option.bind_eq_some_iff]
  grind

@[simp] theorem LaunchO.undoes : Undoes CF.ofWord LaunchO.of LaunchO.enc :=
  undoes_cf fun opc ⟨g, nb, p, a⟩ ⟨_, _, _, _, _, _, _⟩ => by
  simp [LaunchO.of, Option.bind_eq_some_iff]
  grind

@[simp] theorem WaitcO.undoes : Undoes CF.ofWord WaitcO.of WaitcO.enc := undoes_cf fun opc ⟨g, a, b⟩ ⟨_, _, _, _, _, _, _⟩ => by
  simp [WaitcO.of, Option.bind_eq_some_iff]
  grind

@[simp] theorem TcfgO.undoes : Undoes TF.ofWord TcfgO.of TcfgO.enc := undoes_tf fun opc ⟨g, msk⟩ ⟨_, _, _, _, _, _, _, _⟩ => by
  simp [TcfgO.of, Option.bind_eq_some_iff]
  grind

@[simp] theorem TmemO.undoes {b : Bool} : Undoes TF.ofWord (TmemO.of b) (TmemO.enc b) :=
  undoes_tf fun opc ⟨g, t, msk, sp, esz⟩ ⟨_, _, _, _, _, _, _, _⟩ => by
  simp [TmemO.of, Option.bind_eq_some_iff]
  grind

@[simp] theorem TfillO.undoes {b : Bool} : Undoes CF.ofWord (TfillO.of b) (TfillO.enc b) :=
  undoes_cf fun opc ⟨g, grp, row, tile, chunk⟩ ⟨_, _, _, _, _, _, _⟩ => by
  cases b <;> simp [TfillO.of, Option.bind_eq_some_iff] <;> grind

@[simp] theorem TileO.undoes {b : Bool} : Undoes TF.ofWord (TileO.of b) (TileO.enc b) :=
  undoes_tf fun opc ⟨g, t⟩ ⟨_, _, _, _, _, _, _, _⟩ => by
  simp [TileO.of, Option.bind_eq_some_iff]
  grind

@[simp] theorem TtrnO.undoes : Undoes TF.ofWord TtrnO.of TtrnO.enc :=
  undoes_tf fun opc ⟨g, d, a, esz⟩ ⟨_, _, _, _, _, _, _, _⟩ => by
  simp [TtrnO.of, Option.bind_eq_some_iff]
  grind

@[simp] theorem TscaleO.undoes : Undoes TF.ofWord TscaleO.of TscaleO.enc :=
  undoes_tf fun opc ⟨g, d, a, exp, fmt⟩ ⟨_, _, _, _, _, _, _, _⟩ => by
  simp [TscaleO.of, Option.bind_eq_some_iff]
  grind

@[simp] theorem TaddO.undoes : Undoes TF.ofWord TaddO.of TaddO.enc :=
  undoes_tf fun opc ⟨g, d, a, b, na, nb⟩ ⟨_, _, _, _, _, _, _, _⟩ => by
  simp [TaddO.of, Option.bind_eq_some_iff]
  grind

@[simp] theorem MmaO.undoes : Undoes TF.ofWord MmaO.of MmaO.enc :=
  undoes_tf fun opc ⟨g, d, a, b, c, msk, flags⟩ ⟨_, _, _, _, _, _, _, _⟩ => by
  simp [MmaO.of]
  grind

@[simp] theorem MstatO.undoes : Undoes CF.ofWord MstatO.of MstatO.enc := undoes_cf fun opc ⟨g, d, clr⟩ ⟨_, _, _, _, _, _, _⟩ => by
  simp [MstatO.of, Option.bind_eq_some_iff]
  grind

@[simp] theorem CsrO.undoes : Undoes CF.ofWord CsrO.of CsrO.enc :=
  undoes_cf fun opc ⟨g, d, a, csr, w64⟩ ⟨_, _, _, _, _, _, _⟩ => by
  simp [CsrO.of, Option.bind_eq_some_iff]
  grind

@[simp] theorem FselO.undoes : Undoes CF.ofWord FselO.of FselO.enc := undoes_cf fun opc ⟨g, p, a⟩ ⟨_, _, _, _, _, _, _⟩ => by
  simp [FselO.of, Option.bind_eq_some_iff]
  grind

@[simp] theorem FgetO.undoes : Undoes CF.ofWord FgetO.of FgetO.enc := undoes_cf fun opc ⟨g, d, a⟩ ⟨_, _, _, _, _, _, _⟩ => by
  simp [FgetO.of, Option.bind_eq_some_iff]
  grind

@[simp] theorem FsetO.undoes : Undoes CF.ofWord FsetO.of FsetO.enc := undoes_cf fun opc ⟨g, p, a, b⟩ ⟨_, _, _, _, _, _, _⟩ => by
  simp [FsetO.of, Option.bind_eq_some_iff]
  grind

@[simp] theorem FresumeO.undoes : Undoes CF.ofWord FresumeO.of FresumeO.enc :=
  undoes_cf fun opc ⟨g, p, part⟩ ⟨_, _, _, _, _, _, _⟩ => by
  simp [FresumeO.of, Option.bind_eq_some_iff, optReg_eq_iff]
  grind

@[simp] theorem ReplayO.undoes : Undoes CF.ofWord ReplayO.of ReplayO.enc :=
  undoes_cf fun opc ⟨g, p, core⟩ ⟨_, _, _, _, _, _, _⟩ => by
  simp [ReplayO.of, Option.bind_eq_some_iff]
  grind

@[simp] theorem TlbiO.undoes : Undoes CF.ofWord TlbiO.of TlbiO.enc := undoes_cf fun opc ⟨g, sel, a, b⟩ ⟨_, _, _, _, _, _, _⟩ => by
  simp [TlbiO.of, Option.bind_eq_some_iff]
  grind

@[simp] theorem RwloadO.undoes : Undoes CF.ofWord RwloadO.of RwloadO.enc :=
  undoes_cf fun opc ⟨g, d, a, dflt⟩ ⟨_, _, _, _, _, _, _⟩ => by
  simp [RwloadO.of, Option.bind_eq_some_iff]
  grind

theorem CmpIO.enc_eq_iff {o : CmpIO} {w : Word} :
    o.enc = w ↔ 12#7 = (w.extractLsb' 54 10).extractLsb' 3 7 ∧ CmpIO.of (IF.ofWord w) = some o := by
  obtain ⟨g, p, a, w64, s, imm, rel⟩ := o
  have h (f : IF) : f.toWord = w ↔ f = IF.ofWord w :=
    ⟨fun e => (IF.ofWord_toWord _).symm.trans (congrArg IF.ofWord e), fun e => (congrArg IF.toWord e).trans (IF.toWord_ofWord w)⟩
  rw [CmpIO.enc, h, show w.extractLsb' 54 10 = (IF.ofWord w).opc from rfl]
  obtain ⟨_, _, _, _, _, _, _, _, _⟩ := IF.ofWord w
  simp [CmpIO.of, Option.bind_eq_some_iff, ofBool_eq_iff, Src.of6_eq_iff]
  grind

/-! ### Instructions -/

section
variable {F O : Type} {fields : Word → F} {parse : F → Option O} {enc : BitVec 10 → O → Word} {opc : BitVec 10} {o : O} {w : Word}
  {mk : O → Instr} {i : Instr}

theorem Undoes.decodeOp_of_enc (hu : Undoes fields parse enc) (h : some (enc opc o) = some w)
    (hd : decodeOp opc.toNat w = some ((parse (fields w)).map mk)) : decodeOp (w.extractLsb' 54 10).toNat w = some (some (mk o)) := by
  obtain ⟨rfl, hp⟩ := (hu opc o w).1 (Option.some.inj h)
  rw [hd, hp, Option.map_some]

end

/-- The relation of an immediate ICMP stands in its opcode (06 R151). -/
theorem decodeOp_icmpImm {o : CmpIO} {w : Word} (h : o.enc = w) :
    decodeOp (w.extractLsb' 54 10).toNat w = some (some (.icmpImm o)) := by
  have hopc : w.extractLsb' 54 10 = 12#7 ++ o.rel.enc := h ▸ IF.opc_toWord _
  have ho : CmpIO.of (IF.ofWord w) = some o := (CmpIO.enc_eq_iff.1 h).2
  rw [hopc]
  cases o.rel <;> exact congrArg (fun x => some (x.map Instr.icmpImm)) ho

/-- The decoder finds the instruction in the word that the encoder gives it. -/
theorem decodeOp_of_encode {i : Instr} {w : Word} (h : encode i = some w) : decodeOp (w.extractLsb' 54 10).toNat w = some (some i) := by
  cases i
  case illegal => cases h; rfl
  case nop o | ret o | exit_ o | yield o | phase o | rdzv o | eret o => exact G.undoes.decodeOp_of_enc h rfl
  case iadd o | isub o | imul o | imulh o | imulw o | imin o | imax o | shl o | shr o | sar o | and_ o | or_ o | xor_ o | andn o
    | bfx o => exact RR.undoes.decodeOp_of_enc h rfl
  case iaddImm o | isubImm o | imulImm o | imulhImm o | imulwImm o | iminImm o | imaxImm o | shlImm o | shrImm o | sarImm o
    | andImm o | orImm o | xorImm o | andnImm o => exact RI.undoes.decodeOp_of_enc h rfl
  case imad o | bfi o => exact RRR.undoes.decodeOp_of_enc h rfl
  case ineg o | iabs o | not_ o | clz o | popc o | brev o | mov o => exact R1.undoes.decodeOp_of_enc h rfl
  case sel o => exact SelO.undoes.decodeOp_of_enc h rfl
  case icmp o => exact CmpO.undoes.decodeOp_of_enc h rfl
  case icmpImm o => exact decodeOp_icmpImm (Option.some.inj h)
  case movi o => exact MoviO.undoes.decodeOp_of_enc h rfl
  case movh o => exact MovhO.undoes.decodeOp_of_enc h rfl
  case lea o => exact LeaO.undoes.decodeOp_of_enc h rfl
  case fadd o | fsub o | fmul o | fmin o | fmax o | hadd2 o | hmul2 o => exact FRR.undoes.decodeOp_of_enc h rfl
  case ffma o | hfma2 o | dot2h o => exact FRRR.undoes.decodeOp_of_enc h rfl
  case fabs o | fneg o | fclass o | frcp o | frsq o | fsqrt o | fex2 o | flg2 o | fsin o | fcos o
    | frnd o => exact FR1.undoes.decodeOp_of_enc h rfl
  case fcmp o => exact FCmpO.undoes.decodeOp_of_enc h rfl
  case fcvt o | ftoi o | itof o => exact CvtO.undoes.decodeOp_of_enc h rfl
  case dot4 o => exact Dot4O.undoes.decodeOp_of_enc h rfl
  case pand o | por o | pxor o => exact PPP.undoes.decodeOp_of_enc h rfl
  case pnot o | pmov o => exact PP.undoes.decodeOp_of_enc h rfl
  case pany o | pall o => exact VoteO.undoes.decodeOp_of_enc h rfl
  case pcnt o => exact PcntO.undoes.decodeOp_of_enc h rfl
  case idx o | box o => exact SelOut.undoes.decodeOp_of_enc h rfl
  case form o => exact FormO.undoes.decodeOp_of_enc h rfl
  case expand o => exact ExpandO.undoes.decodeOp_of_enc h rfl
  case split o => exact SplitO.undoes.decodeOp_of_enc h rfl
  case peel o => exact PeelO.undoes.decodeOp_of_enc h rfl
  case fnew o => exact FnewO.undoes.decodeOp_of_enc h rfl
  case sjoin o => exact SjoinO.undoes.decodeOp_of_enc h rfl
  case sleave o | sbar o => exact KeyO.undoes.decodeOp_of_enc h rfl
  case red o => exact RedO.undoes.decodeOp_of_enc h rfl
  case rdsum o => exact RdsumO.undoes.decodeOp_of_enc h rfl
  case shfl o => exact ShflO.undoes.decodeOp_of_enc h rfl
  case bra o | call o => exact BrO.undoes.decodeOp_of_enc h rfl
  case brc o => exact BrcO.undoes.decodeOp_of_enc h rfl
  case calli o | jmpi o | promote o | cancel o => exact JmpO.undoes.decodeOp_of_enc h rfl
  case trap_ o | brk o => exact CodeO.undoes.decodeOp_of_enc h rfl
  case ld o | lds o => exact LdO.undoes.decodeOp_of_enc h rfl
  case st o | sts o => exact StO.undoes.decodeOp_of_enc h rfl
  case ldc o => exact LdcO.undoes.decodeOp_of_enc h rfl
  case pref o => exact PrefO.undoes.decodeOp_of_enc h rfl
  case atom o | atoms o => exact AtomO.undoes.decodeOp_of_enc h rfl
  case fence o => exact FenceO.undoes.decodeOp_of_enc h rfl
  case pfence o => exact PfenceO.undoes.decodeOp_of_enc h rfl
  case waita o => exact WaitaO.undoes.decodeOp_of_enc h rfl
  case copy o | copyt o => exact CopyO.undoes.decodeOp_of_enc h rfl
  case copyx o | copyc o => exact CopyFO.undoes.decodeOp_of_enc h rfl
  case fork o => exact ForkO.undoes.decodeOp_of_enc h rfl
  case launch o => exact LaunchO.undoes.decodeOp_of_enc h rfl
  case waitc o => exact WaitcO.undoes.decodeOp_of_enc h rfl
  case tcfg o => exact TcfgO.undoes.decodeOp_of_enc h rfl
  case tload o | tstore o | tscl o => exact TmemO.undoes.decodeOp_of_enc h rfl
  case tfill o | tdrain o => exact TfillO.undoes.decodeOp_of_enc h rfl
  case tzero o | tlatch o => exact TileO.undoes.decodeOp_of_enc h rfl
  case ttrn o => exact TtrnO.undoes.decodeOp_of_enc h rfl
  case tscale o => exact TscaleO.undoes.decodeOp_of_enc h rfl
  case tadd o => exact TaddO.undoes.decodeOp_of_enc h rfl
  case mma o => exact MmaO.undoes.decodeOp_of_enc h rfl
  case mstat o => exact MstatO.undoes.decodeOp_of_enc h rfl
  case csrr o | csrw o | csrs o | csrc o => exact CsrO.undoes.decodeOp_of_enc h rfl
  case fsel o => exact FselO.undoes.decodeOp_of_enc h rfl
  case fget o | sleep o => exact FgetO.undoes.decodeOp_of_enc h rfl
  case fset o => exact FsetO.undoes.decodeOp_of_enc h rfl
  case fresume o => exact FresumeO.undoes.decodeOp_of_enc h rfl
  case replay o => exact ReplayO.undoes.decodeOp_of_enc h rfl
  case tlbi o => exact TlbiO.undoes.decodeOp_of_enc h rfl
  case rwload o => exact RwloadO.undoes.decodeOp_of_enc h rfl
  all_goals cases h

/-- What the decoder finds in a word is encoded by that word, unless it is ILLEGAL. -/
theorem encode_of_decodeOp {i : Instr} {w : Word} (h : decodeOp (w.extractLsb' 54 10).toNat w = some (some i)) :
    i = .illegal ∨ encode i = some w := by
  generalize hn : (w.extractLsb' 54 10).toNat = n at h
  have hw : w.extractLsb' 54 10 = BitVec.ofNat 10 n := by rw [← hn, BitVec.ofNat_toNat, BitVec.setWidth_eq]
  unfold decodeOp at h
  split at h
  case h_1 => exact .inl (Option.some.inj (Option.some.inj h)).symm
  case h_157 => cases h
  -- In every other row of the table the opcode and the parser of the row are those of the encoder.
  all_goals
    obtain ⟨o, ho, rfl⟩ := Option.map_eq_some_iff.1 (Option.some.inj h)
    simp [encode, hw, ho, CmpIO.enc_eq_iff]

/-- Settles O1: the encoder and the parser of each group of operands undo each other (`Undoes`). -/
theorem decodeOfEncode : Obligations.DecodeOfEncode := by
  intro i w hwf h
  unfold decode
  rw [decodeOp_of_encode h]
  exact if_pos hwf

/-- Settles O2. -/
theorem encodeOfDecode : Obligations.EncodeOfDecode := by
  intro w i h
  unfold decode at h
  split at h
  · cases h
  · cases h
  · next j hj =>
    split at h
    · next hwf =>
      cases h
      exact ⟨hwf, encode_of_decodeOp hj⟩
    · cases h

/-- Settles O3. -/
theorem specWordsDecode : Obligations.SpecWordsDecode := by
  refine ⟨?_, ?_, ?_, ?_⟩ <;> rfl

end Sys2Proof
end

section
/-!
What a step does at a word of a clause (O7).
-/

namespace Sys2Proof.Machine

open Sys2Proof Sys2Proof.Spec

/-! ### The step at a word -/

section
variable {s u : State} {t : Thread} {cl : Clause} {c e k : Nat} {i : Instr} {cause : BitVec 8} {x : Stream}

theorem step_of_done {s0 : State} (h : s0.applyUpsets.issued.nextAction = .done u) : step s0 = .next u.settle := by
  rw [step, h]

theorem issued_of_not_fibre (h : ∀ c e, s.turn ≠ .fibre c e) : s.issued = s := by
  unfold State.issued
  split
  next c e hturn => exact absurd hturn (h c e)
  next => rfl

/-! An agent inside its clause comes to its word. -/

theorem nextAction_fibre_word (hturn : s.turn = .fibre c e) (ht : s.cur? = some t) (hcl : t.clause = some cl) (hb : cl.begun = true)
    (hruns : t.runs = true) : s.nextAction = (s.setCore c { s.core c with inClause := some e }).wordAction t cl := by
  rw [cur?_fibre hturn] at ht
  simp [State.nextAction, hturn, ht, hruns, hcl, hb, State.agentAction]

theorem nextAction_stream_word (hturn : s.turn = .stream c) (ht : s.cur? = some t) (hcl : t.clause = some cl) (hb : cl.begun = true)
    (hruns : t.runs = true) : s.nextAction = s.wordAction t cl := by
  simp only [State.cur?, hturn] at ht
  obtain ⟨x, hx, rfl⟩ := Option.map_eq_some_iff.1 ht
  simp [State.nextAction, hturn, hx, hruns, hcl, hb, State.agentAction]

theorem nextAction_mc_word (hturn : s.turn = .mc k) (ht : s.cur? = some t) (hcl : t.clause = some cl) (hb : cl.begun = true)
    (hact : (s.mc k).active = true) (hdue : s.handlerDue k = false) : s.nextAction = s.wordAction t cl := by
  simp only [State.cur?, hturn, Option.some.injEq] at ht
  simp [State.nextAction, hturn, hact, hdue, ht, hcl, hb, State.agentAction]

/-! What becomes of the word. -/

/-- The checks of the word at which a thread stands. -/
abbrev Thread.checked (t : Thread) (cl : Clause) : Except (BitVec 8) Instr :=
  checkWord (t.kind = .mc) (hdrClass cl.hdr) t.window cl.words cl.pos (cl.words.getD cl.pos 0)

theorem wordAction_error (h : t.checked cl = .error cause) : s.wordAction t cl = .done (s.trapAll cause) := by
  simp only [Thread.checked] at h
  simp only [State.wordAction, h]

theorem wordAction_fibre (hturn : s.turn = .fibre c e) (h : t.checked cl = .ok i) :
    s.wordAction t cl = if (s.core c).wordWaits t cl i then .done s else .run i s := by
  simp only [Thread.checked] at h
  simp only [State.wordAction, h, hturn]

theorem wordAction_stream (hturn : s.turn = .stream c) (hx : (s.core c).stream = some x) (h : t.checked cl = .ok i) :
    s.wordAction t cl = .run (if isTileInstr i && !x.plain then .rewriteWindow c else i) s := by
  simp only [Thread.checked] at h
  simp only [State.wordAction, h, hturn, hx]

theorem wordAction_mc (hturn : s.turn = .mc k) (h : t.checked cl = .ok i) : s.wordAction t cl = .run i s := by
  simp only [Thread.checked] at h
  simp only [State.wordAction, h, hturn]

end

/-- Settles O7. -/
theorem stepExecutesWord : Obligations.StepExecutesWord := by
  unfold Obligations.StepExecutesWord
  intro s0 t cl i s ht hcl hb hruns checked runs stops
  refine ⟨fun c e hturn => ?_, fun c x hturn hx => ?_, fun k hturn hact hdue => ?_⟩
  · intro s1
    have hturn' : s.issued.turn = .fibre c e := threadsOnly_issued.turn.trans hturn
    have hact : s.issued.nextAction = s1.wordAction t cl := nextAction_fibre_word hturn' ht hcl hb hruns
    refine ⟨fun hi hw => step_of_run (hact.trans ?_), fun hi hw => step_of_done (hact.trans ?_), fun cause hc =>
      step_of_done (hact.trans (wordAction_error hc))⟩
    · exact (wordAction_fibre (s := s1) hturn' hi).trans (if_neg (ne_true_of_eq_false hw))
    · exact (wordAction_fibre (s := s1) hturn' hi).trans (if_pos hw)
  · have hiss : s.issued = s := issued_of_not_fibre fun c' e' => by rw [hturn]; exact Turn.noConfusion
    have hact : s.issued.nextAction = s.wordAction t cl := hiss.symm ▸ nextAction_stream_word hturn (hiss ▸ ht) hcl hb hruns
    refine ⟨fun hi hx' => step_of_run (hact.trans ?_), fun hi htile hp => step_of_run (i := .rewriteWindow c) (u := s) (hact.trans ?_), fun cause hc =>
      step_of_done (hact.trans (wordAction_error hc))⟩
    · rw [wordAction_stream hturn hx hi]
      rcases hx' with h | h <;> simp [h]
    · rw [wordAction_stream hturn hx hi]
      simp [htile, hp]
  · have hiss : s.issued = s := issued_of_not_fibre fun c' e' => by rw [hturn]; exact Turn.noConfusion
    have hact' : s.issued.nextAction = s.wordAction t cl := hiss.symm ▸ nextAction_mc_word hturn (hiss ▸ ht) hcl hb hact hdue
    exact ⟨fun hi => step_of_run (hact'.trans (wordAction_mc hturn hi)), fun cause hc => step_of_done (hact'.trans (wordAction_error hc))⟩

end Sys2Proof.Machine
end

section
/-!
The checks of a word (O29): their order, and what each looks at.
-/

namespace Sys2Proof.Machine

open Sys2Proof Sys2Proof.Spec

/-! ### The checks in their order -/

/-- 05 R123: the opcodes that the table of classes lists. -/
theorem opcode_ranges {n : Nat} (h : opcodeClasses n ≠ none) :
    (0 ≤ n ∧ n ≤ 0x1E) ∨ (0x42 ≤ n ∧ n ≤ 0x46) ∨ (0x4A ≤ n ∧ n ≤ 0x51) ∨ (0x53 ≤ n ∧ n ≤ 0x53) ∨ (0x60 ≤ n ∧ n ≤ 0x65) ∨
    (0x100 ≤ n ∧ n ≤ 0x119) ∨ (0x200 ≤ n ∧ n ≤ 0x207) ∨ (0x210 ≤ n ∧ n ≤ 0x21C) ∨ (0x280 ≤ n ∧ n ≤ 0x289) ∨
    (0x300 ≤ n ∧ n ≤ 0x30C) ∨ (0x380 ≤ n ∧ n ≤ 0x388) ∨ (0x3C0 ≤ n ∧ n ≤ 0x3CC) ∨ (0x3F0 ≤ n ∧ n ≤ 0x3FC) := by
  by_contra hn
  refine h ?_
  unfold opcodeClasses
  repeat rw [if_neg (by omega)]

/-- The decoder has a row for each of them. -/
theorem decodeOp_ne_none {n : Nat} {w : Word} (h : opcodeClasses n ≠ none) : decodeOp n w ≠ none := by
  rcases opcode_ranges h with h | h | h | h | h | h | h | h | h | h | h | h | h
  all_goals
    obtain ⟨hl, hu⟩ := h
    interval_cases n <;> exact Option.some_ne_none _

theorem decode_ne_illegalOpcode {w : Word} (h : opcodeClasses (w.extractLsb' 54 10).toNat ≠ none) : decode w ≠ .error .illegalOpcode := by
  unfold decode
  split
  next hd => exact absurd hd (decodeOp_ne_none h)
  next => exact fun e => by cases e
  next => split <;> exact fun e => by cases e

section
variable {mc : Bool} {cls window pos : Nat} {words : List Word} {w : Word} {i : Instr} {c0 c1 c2 : Bool}

/-- The checks of the operands that a word names (05 R137, checks 3 to 5). -/
def operandChecks (mc : Bool) (cls window : Nat) (words : List Word) (pos : Nat) (i : Instr) : Except (BitVec 8) Instr :=
  if !csrOk mc i || !i.regsOk cls window then .error cReservedField
  else if i.overlaps cls then .error cOperandOverlap
  else if i.stale words pos then .error cStaleLatch
  else .ok i

/-- The opcode is one of a clause of the class, for this kind of agent (05 R120, R136). -/
def inClass (mc : Bool) (cls : Nat) (c : Bool × Bool × Bool) (opc : Nat) : Bool :=
  (if cls = 0 then c.1 else if cls = 1 then c.2.1 else c.2.2) &&
    !(mc && decide ((0x380 ≤ opc ∧ opc ≤ 0x388) ∨ (0x3C0 ≤ opc ∧ opc ≤ 0x3CC)))

theorem checkWord_unlisted (h : opcodeClasses (w.extractLsb' 54 10).toNat = none) :
    checkWord mc cls window words pos w = .error cIllegalOpcode := by
  simp only [checkWord, h]

theorem checkWord_privileged (h : opcodeClasses (w.extractLsb' 54 10).toNat ≠ none) (hcls : cls = 0)
    (hopc : 0x3F0 ≤ (w.extractLsb' 54 10).toNat) : checkWord mc cls window words pos w = .error cPrivilege := by
  obtain ⟨c, hc⟩ := Option.ne_none_iff_exists'.1 h
  simp only [checkWord, hc]
  exact if_pos (by rw [decide_eq_true hcls, decide_eq_true hopc]; rfl)

theorem checkWord_listed {c : Bool × Bool × Bool} (h : opcodeClasses (w.extractLsb' 54 10).toNat = some c)
    (hp : ¬ (cls = 0 ∧ 0x3F0 ≤ (w.extractLsb' 54 10).toNat)) :
    checkWord mc cls window words pos w =
      if inClass mc cls c (w.extractLsb' 54 10).toNat then
        match decode w with
        | .error _ => .error cReservedField
        | .ok i => operandChecks mc cls window words pos i
      else .error cIllegalClass := by
  have hd := decode_ne_illegalOpcode (w := w) (by rw [h]; exact Option.some_ne_none c)
  obtain ⟨c0, c1, c2⟩ := c
  simp only [checkWord, h]
  rw [if_neg (by rwa [Bool.and_eq_true, decide_eq_true_eq, decide_eq_true_eq])]
  unfold inClass
  generalize (if cls = 0 then c0 else if cls = 1 then c1 else c2) = mine
  generalize (w.extractLsb' 54 10).toNat = opc
  have hb : (mc && (decide (0x380 ≤ opc) && decide (opc ≤ 0x388) || decide (0x3C0 ≤ opc) && decide (opc ≤ 0x3CC))) =
      (mc && decide ((0x380 ≤ opc ∧ opc ≤ 0x388) ∨ (0x3C0 ≤ opc ∧ opc ≤ 0x3CC))) := by simp
  rw [hb]
  generalize (mc && decide ((0x380 ≤ opc ∧ opc ≤ 0x388) ∨ (0x3C0 ≤ opc ∧ opc ≤ 0x3CC))) = barred
  cases mine
  · rfl
  · cases barred
    · cases hw : decode w with
      | error e => cases e with
        | illegalOpcode => exact absurd hw hd
        | reservedField => rfl
      | ok i => rfl
    · rfl

theorem operandChecks_eq_ok {j : Instr} (h : operandChecks mc cls window words pos i = .ok j) : j = i := by
  unfold operandChecks at h
  repeat' split at h
  all_goals cases h
  rfl

/-- A word that passes the checks is listed, of its clause's class, and its operands pass theirs. -/
theorem checkWord_ok (h : checkWord mc cls window words pos w = .ok i) :
    decode w = .ok i ∧ operandChecks mc cls window words pos i = .ok i ∧ ¬ (cls = 0 ∧ 0x3F0 ≤ (w.extractLsb' 54 10).toNat) := by
  cases hc : opcodeClasses (w.extractLsb' 54 10).toNat with
  | none => rw [checkWord_unlisted hc] at h; cases h
  | some c =>
    by_cases hp : cls = 0 ∧ 0x3F0 ≤ (w.extractLsb' 54 10).toNat
    · rw [checkWord_privileged (by rw [hc]; exact Option.some_ne_none c) hp.1 hp.2] at h
      cases h
    · rw [checkWord_listed hc hp] at h
      split at h
      · split at h
        next => cases h
        next j hj =>
          obtain rfl := operandChecks_eq_ok h
          exact ⟨hj, h, hp⟩
      · cases h

theorem operandChecks_ok (h : operandChecks mc cls window words pos i = .ok i) :
    csrOk mc i = true ∧ i.regsOk cls window = true ∧ i.overlaps cls = false ∧ i.stale words pos = false := by
  unfold operandChecks at h
  split at h
  · cases h
  next hr =>
    split at h
    · cases h
    next ho =>
      split at h
      · cases h
      next hs => simpa [and_assoc] using And.intro hr (And.intro ho hs)

theorem operandChecks_error {cause : BitVec 8} (h : operandChecks mc cls window words pos i = .error cause) :
    cause = cReservedField ∨ cause = cOperandOverlap ∨ cause = cStaleLatch := by
  unfold operandChecks at h
  repeat' split at h
  all_goals cases h
  · exact .inl rfl
  · exact .inr (.inl rfl)
  · exact .inr (.inr rfl)

end

/-! ### The registers that a word names (05 R127, R133) -/

/-- Every group has a register. -/
def AllPos (l : List Grp) : Prop := ∀ g ∈ l, 0 < g.2

section
variable {l m : List Grp} {n k : Nat} {d : Dst} {x : Src}

@[simp] theorem allPos_nil : AllPos [] := fun _ h => absurd h List.not_mem_nil
@[simp] theorem allPos_cons {g : Grp} : AllPos (g :: l) ↔ 0 < g.2 ∧ AllPos l := List.forall_mem_cons
@[simp] theorem allPos_append : AllPos (l ++ m) ↔ AllPos l ∧ AllPos m := List.forall_mem_append

@[simp] theorem allPos_dst (h : 0 < n) : AllPos (d.grp n) := by
  unfold Dst.grp
  split <;> simp [h]

@[simp] theorem allPos_src (h : 0 < n) : AllPos (x.grp n) := by
  cases x <;> simp [Src.grp, h]

@[simp] theorem ITy.n_pos (ty : ITy) : 0 < ty.n := by cases ty <;> decide
@[simp] theorem FTy.n_pos (ty : FTy) : 0 < ty.n := by cases ty <;> decide
@[simp] theorem Fmt.n_pos (ty : Fmt) : 0 < ty.n := by cases ty <;> decide
@[simp] theorem RTy.n_pos (ty : RTy) : 0 < ty.n := by cases ty <;> decide
@[simp] theorem w1_pos (b : Bool) : 0 < w1 b := by cases b <;> decide
@[simp] theorem sizeRegs_pos (size : BitVec 4) : 0 < sizeRegs size := by unfold sizeRegs; split_ifs <;> decide

end

theorem allPos_groups (i : Instr) : AllPos i.groups := by
  unfold Instr.groups
  split <;> (repeat' split) <;> simp

/-! ### Overlaps and stale latches (05 R133-R135) -/

theorem mem_regsOf {g : Grp} {r : Nat} : r ∈ regsOf g ↔ g.1 ≤ r ∧ r < g.1 + g.2 := by
  simp only [regsOf, List.mem_map, List.mem_range]
  constructor
  · rintro ⟨k, hk, rfl⟩
    omega
  · exact fun h => ⟨r - g.1, by omega, by omega⟩

/-- Groups share some registers but not all where one of them has a register that the other has and one that it has not. -/
theorem overlapPart_iff {a b : Grp} (ha : 0 < a.2) (hb : 0 < b.2) : Grp.overlapPart a b = true ↔
    (∃ m, m ∈ regsOf a ∧ m ∈ regsOf b) ∧ ((∃ n ∈ regsOf a, n ∉ regsOf b) ∨ ∃ n ∈ regsOf b, n ∉ regsOf a) := by
  obtain ⟨a, k⟩ := a
  obtain ⟨b, l⟩ := b
  simp only [mem_regsOf, Grp.overlapPart, Bool.and_eq_true, decide_eq_true_eq, Bool.not_eq_true', Bool.and_eq_false_iff,
    decide_eq_false_iff_not] at ha hb ⊢
  constructor
  · rintro ⟨⟨h1, h2⟩, h3⟩
    refine ⟨⟨max a b, by omega, by omega⟩, ?_⟩
    by_cases h : a < b
    · exact .inl ⟨a, by omega, by omega⟩
    · by_cases h' : b < a
      · exact .inr ⟨b, by omega, by omega⟩
      · by_cases h'' : k < l
        · exact .inr ⟨b + k, by omega, by omega⟩
        · exact .inl ⟨a + l, by omega, by omega⟩
  · rintro ⟨⟨m, h1, h2⟩, ⟨n, h3, h4⟩ | ⟨n, h3, h4⟩⟩ <;> omega

theorem overlaps_iff {i : Instr} {cls : Nat} (h : cls ≠ 1) : i.overlaps cls = true ↔
    ∃ a ∈ i.groups, ∃ b ∈ i.groups, ∃ m n, m ∈ regsOf a ∧ m ∈ regsOf b ∧ n ∈ regsOf a ∧ n ∉ regsOf b := by
  have hpos := allPos_groups i
  rw [Instr.overlaps, if_neg h]
  simp only [List.any_eq_true]
  constructor
  · rintro ⟨a, ha, b, hb, hab⟩
    obtain ⟨⟨m, hma, hmb⟩, ⟨n, hna, hnb⟩ | ⟨n, hnb, hna⟩⟩ := (overlapPart_iff (hpos a ha) (hpos b hb)).1 hab
    · exact ⟨a, ha, b, hb, m, n, hma, hmb, hna, hnb⟩
    · exact ⟨b, hb, a, ha, m, n, hmb, hma, hnb, hna⟩
  · rintro ⟨a, ha, b, hb, m, n, hma, hmb, hna, hnb⟩
    exact ⟨a, ha, b, hb, (overlapPart_iff (hpos a ha) (hpos b hb)).2 ⟨⟨m, hma, hmb⟩, .inl ⟨n, hna, hnb⟩⟩⟩

theorem getLast?_filter_range {q r : Nat} {p : Nat → Bool} :
    ((List.range q).filter p).getLast? = some r ↔ r < q ∧ p r = true ∧ ∀ k, r < k → k < q → p k = false := by
  induction q with
  | zero => simp
  | succ q ih =>
    rw [List.range_succ, List.filter_append]
    cases hq : p q with
    | true =>
      simp only [List.filter_cons, hq, if_true, List.filter_nil, List.getLast?_concat, Option.some.injEq]
      constructor
      · rintro rfl
        exact ⟨by omega, hq, fun k _ _ => by omega⟩
      · rintro ⟨hr, hp, hk⟩
        by_contra hne
        exact absurd (hk q (by omega) (by omega)) (by simp [hq])
    | false =>
      simp only [List.filter_cons, hq, Bool.false_eq_true, if_false, List.filter_nil, List.append_nil, ih]
      constructor
      · rintro ⟨hr, hp, hk⟩
        refine ⟨by omega, hp, fun k h1 h2 => ?_⟩
        by_cases h : k = q
        · exact h ▸ hq
        · exact hk k h1 (by omega)
      · rintro ⟨hr, hp, hk⟩
        have : r ≠ q := by rintro rfl; simp [hq] at hp
        exact ⟨by omega, hp, fun k h1 h2 => hk k h1 (by omega)⟩

theorem latchFresh_iff {words : List Word} {q j : Nat} : latchFresh words q j = true ↔
    ∃ p k, p < q ∧ p % 8 = j ∧ (∀ r, p < r → r < q → r % 8 ≠ j) ∧ decode (words.getD p 0) = .ok k ∧ k.hasResult = true ∧
      ∀ r o, p < r → r < q → decode (words.getD r 0) ≠ .ok (.waitc o) := by
  have hlast (p : Nat) : ((List.range q).filter (· % 8 = j)).getLast? = some p ↔
      p < q ∧ p % 8 = j ∧ ∀ r, p < r → r < q → r % 8 ≠ j := by
    rw [getLast?_filter_range]
    simp
  simp only [latchFresh]
  cases hl : ((List.range q).filter (· % 8 = j)).getLast? with
  | none =>
    refine ⟨fun h => absurd h Bool.false_ne_true, fun ⟨p, k, hp, hj, hr, _⟩ => ?_⟩
    rw [(hlast p).2 ⟨hp, hj, hr⟩] at hl
    cases hl
  | some p =>
    obtain ⟨hp, hj, hr⟩ := (hlast p).1 hl
    simp only [Bool.and_eq_true, List.all_eq_true, List.mem_filter, List.mem_range, decide_eq_true_eq]
    constructor
    · rintro ⟨hres, hw⟩
      split at hres
      next k hk =>
        refine ⟨p, k, hp, hj, hr, hk, hres, fun r o h1 h2 hd => ?_⟩
        have h := hw r ⟨h2, h1⟩
        rw [hd] at h
        exact Bool.false_ne_true h
      next => cases hres
    · rintro ⟨p', k, hp', hj', hr', hk, hres, hw⟩
      obtain rfl : p' = p := Option.some.inj (((hlast p').2 ⟨hp', hj', hr'⟩).symm.trans hl)
      refine ⟨by rw [hk]; exact hres, fun r ⟨h2, h1⟩ => ?_⟩
      split
      next o hd => exact absurd hd (hw r o h1 h2)
      next => rfl

theorem stale_iff {i : Instr} {words : List Word} {pos : Nat} : i.stale words pos = true ↔
    ∃ j, .latch j ∈ i.srcs ∧ ¬ latchFresh words pos j.toNat = true := by
  simp only [Instr.stale, List.any_eq_true]
  constructor
  · rintro ⟨x, hx, h⟩
    cases x with
    | latch j => exact ⟨j, hx, by simpa using h⟩
    | reg | ix | iy | iz => cases h
  · rintro ⟨j, hj, h⟩
    exact ⟨.latch j, hj, by simpa using h⟩

/-! ### The operands of the instructions that the shapes tell -/

@[simp] theorem Dst.grp_eq {d : Dst} {n : Nat} : d.grp n = dstRegs d n := rfl
@[simp] theorem Src.grp_eq {x : Src} {n : Nat} : x.grp n = srcRegs x n := rfl
@[simp] theorem w1_of_ite {b : Bool} : (if b = true then 2 else 1) = w1 b := rfl
@[simp] theorem w1_true : w1 true = 2 := rfl
@[simp] theorem w1_false : w1 false = 1 := rfl
@[simp] theorem ITy.n_eq {ty : ITy} : ty.n = w1 ty.is64 := rfl
@[simp] theorem w1_of_f64 {ty : FTy} : (if ty = .f64 then 2 else 1) = w1 (ty = .f64) := by cases ty <;> rfl
@[simp] theorem FTy.n_eq {ty : FTy} : ty.n = w1 (ty = .f64) := by cases ty <;> rfl
@[simp] theorem Fmt.n_eq {f : Fmt} : f.n = w1 (Fmt.is64 f) := by cases f <;> rfl

@[simp] theorem RW.is64_w64 : RW.is64 .w64 = true := rfl
@[simp] theorem RW.is64_w32 {s : Bool} : RW.is64 (.w32 s) = false := rfl
@[simp] theorem RW.is64_ite {w s : Bool} : (if w = true then RW.w64 else .w32 s).is64 = w := is64_riRW
@[simp] theorem is64_fltRW {ty : FTy} : (fltRW ty).is64 = decide (ty = .f64) := by cases ty <;> rfl
@[simp] theorem is64_rwOf {w : Bool} : (rwOf w).is64 = w := by cases w <;> rfl

/-- What the table of a word's registers says of an instruction with a result whose shape is `sh`. -/
def NamesOf (i : Instr) (sh : Shape) : Prop :=
  i.hasResult = true ∧ ((∀ o, i ≠ .movh o) → i.srcs = sh.ins.map Prod.fst ∧
    i.groups = dstRegs sh.d (if sh.w.is64 then 2 else 1) ++ sh.ins.flatMap fun x => srcRegs x.1 (if x.2 then 2 else 1))

theorem namesOf_intShape {i : Instr} {sh : Shape} (h : intShape i = some sh) : NamesOf i sh := by
  unfold intShape at h
  split at h
  case h_40 => cases h; exact ⟨rfl, fun h => absurd rfl (h _)⟩
  case h_42 => cases h
  all_goals
    cases h
    refine ⟨rfl, fun _ => ⟨rfl, ?_⟩⟩
    simp [Instr.groups, rrInt, riInt, rrBits, riBits, rrShift, riShift, r1Int, is64_ofTy]

theorem namesOf_fltShape {i : Instr} {sh : Shape} (h : fltShape i = some sh) : NamesOf i sh := by
  unfold fltShape at h
  split at h <;> cases h
  all_goals
    refine ⟨rfl, fun _ => ⟨rfl, ?_⟩⟩
    simp [Instr.groups, frr, fr1, fltIns]

theorem names_predShape {i : Instr} {sh : PShape} (h : predShape i = some sh) : i.hasResult = false ∧
    i.srcs = sh.ins.map Prod.fst ∧ i.groups = sh.ins.flatMap fun x => srcRegs x.1 (if x.2 then 2 else 1) := by
  unfold predShape at h
  split at h <;> cases h
  all_goals
    refine ⟨rfl, rfl, ?_⟩
    simp [Instr.groups, fltIns]

theorem sizeRegs_eq {size : BitVec 4} : sizeRegs size = regsOfSize size := by
  revert size; decide

theorem names_wordGroups {i : Instr} {gs : List (Nat × Nat)} {res : Bool} (h : wordGroups i = some (gs, res)) :
    i.groups = gs ∧ i.hasResult = res := by
  unfold wordGroups at h
  split at h <;> cases h
  all_goals
    refine ⟨?_, rfl⟩
    simp [Instr.groups, sizeRegs_eq]

/-! ### O29 -/

theorem regsOk_class1 {i : Instr} {window : Nat} : i.regsOk 1 window = true ↔
    (∀ g ∈ i.groups, g.1 < 32) ∧ ∀ x ∈ i.srcs, x ≠ .ix ∧ x ≠ .iy ∧ x ≠ .iz := by
  simp only [Instr.regsOk, if_pos, Bool.and_eq_true, List.all_eq_true, decide_eq_true_eq]
  refine and_congr_right fun _ => forall₂_congr fun x _ => ?_
  cases x <;> simp

theorem regsOk_of_ne {i : Instr} {cls window : Nat} (h : cls ≠ 1) :
    i.regsOk cls window = true ↔ ∀ g ∈ i.groups, g.1 + g.2 ≤ window ∧ g.1 % g.2 = 0 := by
  simp [Instr.regsOk, h]

/-- Settles O29. -/
theorem wordChecks : Obligations.WordChecks := by
  unfold Obligations.WordChecks
  refine ⟨fun mc cls window words pos w => ?_, fun i cls window words pos => ?_, fun i sh h => ?_, fun i sh h => names_predShape h,
    fun i gs res h => names_wordGroups h, fun s0 t cl cause => ?_⟩
  · refine ⟨checkWord_unlisted, fun hcls hopc h => checkWord_privileged h hcls hopc, fun c0 c1 c2 hc hp => ?_, fun i h => ?_,
      fun i hl hd hr => ?_⟩
    · have hcheck := checkWord_listed (mc := mc) (window := window) (words := words) (pos := pos) hc hp
      refine ⟨fun hm => ?_, fun hm hd => ?_, fun i hm hd => ?_⟩
      · rw [hcheck, inClass, hm, if_neg Bool.false_ne_true]
      · rw [hcheck, inClass, hm, if_pos rfl]
        cases h : decode w with
        | error e => rfl
        | ok i => exact absurd h (hd i)
      · rw [hcheck, inClass, hm, if_pos rfl, hd]
        refine ⟨?_, ?_, ?_, ?_⟩
        · rintro (h | h) <;> simp [operandChecks, h]
        · intro h1 h2 h3
          simp [operandChecks, h1, h2, h3]
        · intro h1 h2 h3 h4
          simp [operandChecks, h1, h2, h3, h4]
        · intro h1 h2 h3 h4
          simp [operandChecks, h1, h2, h3, h4]
    · obtain ⟨hd, hops, hp⟩ := checkWord_ok h
      obtain ⟨-, hr, ho, hs⟩ := operandChecks_ok hops
      exact ⟨hd, (encodeOfDecode w i hd).1, hr, ho, hs, fun hcls => by_contra fun hn => hp ⟨hcls, by omega⟩⟩
    · obtain ⟨c, hc⟩ := Option.ne_none_iff_exists'.1 hl
      by_cases hp : cls = 0 ∧ 0x3F0 ≤ (w.extractLsb' 54 10).toNat
      · exact .inl (checkWord_privileged hl hp.1 hp.2)
      · rw [checkWord_listed hc hp, hd] at hr ⊢
        split at hr
        next hm =>
          rw [if_pos hm]
          cases hops : operandChecks mc cls window words pos i with
          | ok j => exact absurd hops (operandChecks_eq_ok hops ▸ hr)
          | error cause =>
            simp only [hops, Except.error.injEq]
            exact .inr (.inr (operandChecks_error hops))
        next hm => exact .inr (.inl (if_neg hm))
  · refine ⟨fun hcls => ⟨regsOk_of_ne hcls, overlaps_iff hcls⟩, fun hcls => ?_, ?_⟩
    · subst hcls
      exact ⟨regsOk_class1, rfl⟩
    · simp only [stale_iff, latchFresh_iff]
  · exact h.elim namesOf_intShape namesOf_fltShape
  · intro s ht hcl hb hruns hcheck
    refine ⟨fun c e hturn => ?_, fun c x hturn hx => ?_, fun k hturn hact hdue => ?_⟩
    · exact ((stepExecutesWord s0 t cl .illegal ht hcl hb hruns).1 c e hturn).2.2 cause hcheck
    · exact ((stepExecutesWord s0 t cl .illegal ht hcl hb hruns).2.1 c x hturn hx).2.2 cause hcheck
    · exact ((stepExecutesWord s0 t cl .illegal ht hcl hb hruns).2.2 k hturn hact hdue).2 cause hcheck

end Sys2Proof.Machine
end

section
/-!
Taking a trap as a whole (17 R348, R351; 07 R201), and the opcode that always does (O28).
-/

namespace Sys2Proof.Machine

open Sys2Proof Sys2Proof.Spec

/-! ### Taking a trap -/

section
variable {s : State} {c e k : Nat} {t : Thread} {cause : BitVec 8} {addr aux : Word} {who : Option (List Nat)} {next : Bool}

/-- A fibre stopped at a trap, at its word or at the next. -/
def Thread.parkedAt (t : Thread) (cause : BitVec 8) (next : Bool) : Thread :=
  { (if next then t.advance else t) with st := .parked, why := .none, lcause := cause, tmask := t.active }

/-- The places of the whole of a fibre, as a record names them (17 R351). -/
def Thread.allPlaces (t : Thread) : IndexSet := if t.expanded then lanesSet t.active else .box t.box

theorem indexSet_none (t : Thread) : t.indexSet none = some t.allPlaces := by
  unfold Thread.indexSet Thread.allPlaces
  split <;> rfl

theorem takeTrap_fibre (ht : s.turn = .fibre c e) (hf : s.fibre? c e = some t) :
    s.takeTrap cause addr aux who next = s.fibreTrap c e t cause addr aux who next := by
  simp only [State.takeTrap, ht, hf]

theorem takeTrap_stream {x : Stream} (ht : s.turn = .stream c) (hx : (s.core c).stream = some x) :
    s.takeTrap cause addr aux who next = s.streamTrap c x cause addr aux next := by
  simp only [State.takeTrap, ht, hx]

theorem takeTrap_mc (ht : s.turn = .mc k) :
    s.takeTrap cause addr aux who next = s.mcTrap k cause (next && (cause = cTrapInstr || cause = cBreakpoint)) := by
  simp only [State.takeTrap, ht]

/-- The whole of a fibre inside its clause takes a trap: it parks, and a record of it is pushed. -/
theorem fibreTrap_whole (hc : t.clause ≠ none) :
    s.fibreTrap c e t cause addr aux none next = (s.setFibre c e (t.parkedAt cause next)).pushTrap (clusterOf c)
      (t.record c e cause t.pc addr aux t.allPlaces (if t.expanded then t.active else []) none) := by
  have hs : t.clause.isSome = true := Option.isSome_iff_ne_none.2 hc
  have hn : t.clause.isNone = false := by rw [← Option.not_isSome, hs]; rfl
  simp [State.fibreTrap, hn, hs, indexSet_none, Thread.parkedAt]

theorem queueTakes_pushTrap {r : TrapRec} (h : QueueRoom s k) : QueueTakes s (s.pushTrap k r) k r := by
  obtain ⟨hlen, hheld⟩ := h
  rw [State.pushTrap_room _ _ _ hlen hheld]
  simp [QueueTakes, hheld]

/-- 17 R348: what the trap of the whole of a fibre leaves. -/
theorem takeTrap_whole (ht : s.turn = .fibre c e) (hf : s.fibre? c e = some t) (hc : t.clause ≠ none) (hq : QueueRoom s (c / 8)) :
    let u := s.takeTrap cause addr aux none next
    u.fibre? c e = some (t.parkedAt cause next) ∧
    QueueTakes s u (c / 8)
      (t.record c e cause t.pc addr aux t.allPlaces (if t.expanded then t.active else []) none) ∧
    u.mem = s.mem ∧ u.log = s.log ∧ ∀ j, j ≠ e → u.fibre? c j = s.fibre? c j := by
  rw [takeTrap_fibre ht hf, fibreTrap_whole hc]
  refine ⟨by simp, ?_, by simp, by simp [State.setFibre], fun j hj => by simp [State.fibre?_setFibre_ne _ _ _ _ _ hj]⟩
  exact queueTakes_pushTrap (s := s.setFibre c e (t.parkedAt cause next)) hq

/-- 17 R348, R351: a range fibre takes a trap with its box in the record. -/
theorem fibreTrapsAt_of_takeTrap {i : Instr} (h : OnRange s c e t) (hc : t.clause ≠ none) (hq : QueueRoom s (c / 8))
    (hx : Machine.exec i s = .next (s.takeTrap cause addr aux none next)) : FibreTrapsAt i s c e t cause addr aux next := by
  obtain ⟨ht, hf, -, hr, -⟩ := h
  refine ⟨_, hx, ?_⟩
  have hp : t.allPlaces = .box t.box := by simp [Thread.allPlaces, hr]
  have hw : (if t.expanded then t.active else []) = [] := by simp [hr]
  have hu := takeTrap_whole (cause := cause) (addr := addr) (aux := aux) (next := next) ht hf hc hq
  rwa [hp, hw] at hu

theorem Thread.regs_preds_resumed (t : Thread) (next : Bool) : (if next then t.advance else t).regs = t.regs ∧
    (if next then t.advance else t).preds = t.preds := by
  cases next <;> simp

/-- 07 R201: a management core takes a trap: it enters its handler, or halts. -/
theorem mcTraps_of_takeTrap {i : Instr} (h : OnMc s k t) (hn : next = true → cause = cTrapInstr ∨ cause = cBreakpoint)
    (hx : Machine.exec i s = .next (s.takeTrap cause addr aux who next)) : McTraps i s k t cause next := by
  obtain ⟨ht, rfl, -⟩ := h
  have he : (next && (cause = cTrapInstr || cause = cBreakpoint)) = next := by
    cases next
    · rfl
    · simpa using hn rfl
  rw [takeTrap_mc ht, he] at hx
  refine ⟨fun hi => ⟨_, hx, ?_⟩, fun hi => ⟨_, hx, ?_⟩⟩
  · obtain ⟨hregs, hpreds⟩ := (s.mc k).th.regs_preds_resumed next
    simp [State.mcTrap, hi, hregs, hpreds]
  · have hm : (s.mcTrap k cause next).mc k = { s.mc k with halted := true, cause := cause } := by
      simp only [State.mcTrap, if_pos hi]
      exact State.mc_setMc_self ..
    exact ⟨by rw [hm], by rw [hm], by simp [State.mcTrap, hi], by simp [State.mcTrap, hi], State.mem_mcTrap ..⟩

/-- 17 R351: a stream takes a trap at its word. -/
theorem streamTrap_parks {x : Stream} (hq : QueueRoom s (c / 8)) :
    let u := s.streamTrap c x cause addr aux false
    (u.core c).stream = some { x with th := { x.th with st := .parked, lcause := cause }, plan := [] } ∧
    ∃ r, (u.cluster (c / 8)).trapq = (s.cluster (c / 8)).trapq ++ [r] ∧ r.kind = 1 ∧ r.cause = cause ∧ r.pc = x.th.pc ∧
      r.handle = x.handle := by
  let s1 := s.setCore c { s.core c with stream := some { x with th := { x.th with st := .parked, lcause := cause }, plan := [] } }
  have hcore (r : TrapRec) : ((s1.pushTrap (c / 8) r).core c).stream = (s1.core c).stream := by simp [State.core]
  refine ⟨(hcore _).trans (by simp [s1]), _, (queueTakes_pushTrap (s := s1) hq).1, rfl, rfl, rfl, rfl⟩

end

/-! ### ILLEGAL -/

theorem decode_of_opcode_zero {w : Word} (h : w.extractLsb' 54 10 = 0#10) : decode w = .ok .illegal := by
  simp only [decode, h]
  rfl

/-- 05 R138: the opcode is one of every class, and its word names nothing. -/
theorem checkWord_of_opcode_zero {w : Word} (h : w.extractLsb' 54 10 = 0#10) (mc : Bool) (cls window : Nat) (words : List Word)
    (pos : Nat) : checkWord mc cls window words pos w = .ok .illegal := by
  have hz : (w.extractLsb' 54 10).toNat = 0 := by rw [h]; rfl
  have hc : opcodeClasses (w.extractLsb' 54 10).toNat = some (true, true, true) := by rw [hz]; rfl
  rw [checkWord_listed hc (by simp [hz]), decode_of_opcode_zero h]
  have hi : inClass mc cls (true, true, true) (w.extractLsb' 54 10).toNat = true := by simp [inClass, hz]
  have ho : operandChecks mc cls window words pos .illegal = .ok .illegal := by
    simp [operandChecks, csrOk, Instr.regsOk, Instr.overlaps, Instr.stale, Instr.groups, Instr.srcs]
  simp only [hi, ho, if_true]

/-- Settles O28: the opcode passes every check, and its execution is a trap of the whole agent at its word. -/
theorem illegalTraps : Obligations.IllegalTraps := by
  refine ⟨fun w h => ⟨decode_of_opcode_zero h, checkWord_of_opcode_zero h⟩, fun s => ⟨?_, ?_, ?_⟩⟩
  · intro c e t ⟨ht, hf, _⟩ hc hq
    obtain ⟨hpark, ⟨htrapq, -, -⟩, hmem, -, hothers⟩ :=
      takeTrap_whole (cause := cIllegalOpcode) (addr := 0) (aux := 0) (next := false) ht hf hc hq
    exact ⟨_, rfl, hpark, hmem, hothers, _, htrapq, rfl, rfl, rfl, rfl⟩
  · intro c x ⟨ht, hx, _⟩ hq
    obtain ⟨hpark, hrec⟩ := streamTrap_parks (s := s) (x := x) (cause := cIllegalOpcode) (addr := 0) (aux := 0) hq
    have he : s.trapAll cIllegalOpcode = s.streamTrap c x cIllegalOpcode 0 0 false := takeTrap_stream ht hx
    exact ⟨_, congrArg Host.Outcome.next he, ⟨_, hpark⟩, State.mem_streamTrap .., hrec⟩
  · intro k t h
    exact mcTraps_of_takeTrap (next := false) h (fun hn => by cases hn) rfl

end Sys2Proof.Machine
end

section
/-!
What ends a clause, a fibre or a stream (O27), and what the operations that follow an end leave as it was.
-/

namespace Sys2Proof.Machine

open Sys2Proof Sys2Proof.Spec

/-! ### What follows an end -/

section
variable {s u v : State} {c i l e ctx : Nat} {hb : List Nat}

/-- From `s` to `u` memory, the log and core `c`'s stream stay, and no started tile of the core gets a FORK. -/
structure Settles (c : Nat) (s u : State) : Prop where
  mem : u.mem = s.mem
  log : u.log = s.log
  stream : (u.core c).stream = (s.core c).stream
  forks : ∀ i ti, Tab.find? (u.core c).insts i = some ti → ∃ tj, Tab.find? (s.core c).insts i = some tj ∧ ti.fork = tj.fork

theorem Settles.of_core (hm : u.mem = s.mem) (hl : u.log = s.log) (hc : u.core c = s.core c) : Settles c s u :=
  ⟨hm, hl, by rw [hc], fun i ti h => ⟨ti, by rwa [← hc], rfl⟩⟩

theorem Settles.refl : Settles c s s := .of_core rfl rfl rfl

theorem settles_post {j : Instr} : Settles c s (s.post j) := .of_core rfl rfl rfl

theorem Settles.trans (h : Settles c s u) (h' : Settles c u v) : Settles c s v := by
  refine ⟨h'.mem.trans h.mem, h'.log.trans h.log, h'.stream.trans h.stream, fun i ti hi => ?_⟩
  obtain ⟨tj, hj, he⟩ := h'.forks i ti hi
  obtain ⟨tk, hk, he'⟩ := h.forks i tj hj
  exact ⟨tk, hk, he.trans he'⟩

theorem Settles.setCore {x : Core} (hs : x.stream = (s.core c).stream) (hi : x.insts = (s.core c).insts) : Settles c s (s.setCore c x) :=
  ⟨rfl, rfl, by simp [hs], fun i ti h => ⟨ti, by simpa [hi] using h, rfl⟩⟩

theorem Settles.foldl {α : Type} {f : State → α → State} {xs : List α} (h : ∀ v x, Settles c v (f v x)) :
    Settles c s (xs.foldl f s) :=
  List.foldlRecOn (motive := fun u => Settles c s u) xs f .refl fun _ hu x _ => hu.trans (h _ x)

theorem core_addStores : (s.addStores l hb).core c = s.core c := by
  unfold State.addStores
  split <;> rfl

theorem settles_addStores : Settles c s (s.addStores l hb) := by
  refine .of_core ?_ ?_ core_addStores
  all_goals unfold State.addStores; split <;> rfl

theorem core_checkLaunch : (s.checkLaunch l).core c = s.core c := by
  unfold State.checkLaunch
  split <;> (try split) <;> rfl

theorem settles_checkLaunch : Settles c s (s.checkLaunch l) := by
  refine .of_core ?_ ?_ core_checkLaunch
  all_goals unfold State.checkLaunch; split <;> (try split) <;> rfl

theorem settles_resourcesFreed : Settles c s (s.resourcesFreed e) := by
  refine .of_core ?_ ?_ resourcesFreed_core
  all_goals unfold State.resourcesFreed; split <;> rfl

/-- 03 R75: the reserve of a tile whose last fibre has ended returns. -/
def State.reserveBack (s : State) (c i : Nat) (ti : TileInst) : State :=
  if (s.core c).instFibres i || ti.reserve = 0 then s else
    match s.ctx? ti.ctx with
    | some k => (s.setCtx ti.ctx { k with poolUsed := k.poolUsed - ti.reserve }).setCore c
        { s.core c with insts := Tab.set (s.core c).insts i { ti with reserve := 0 } }
    | none => s

/-- 03 R75: the record and the scratch of a tile whose commands have completed too are freed. -/
def State.dropInst (s : State) (c i : Nat) (ti : TileInst) : State :=
  s.setCore c { s.core c with insts := Tab.del (s.core c).insts i
                              scratch := match ti.scratch with
                                | some a => Tab.del (s.core c).scratch a
                                | none => (s.core c).scratch }

/-- 16 R339: one more of the launch's task records has ended. -/
def State.countEnd (s : State) (ti : TileInst) : State :=
  match s.launch? ti.launch with
  | some l => s.setLaunch ti.launch { l with ended := l.ended + 1 }
  | none => s

/-- A tile's work has ended. -/
def State.instEnds (s : State) (c i : Nat) (ti : TileInst) : State :=
  (((s.dropInst c i ti).countEnd ti).checkLaunch ti.launch).post (.tileStart c)

theorem checkInst_cases : s.checkInst c i = s ∨ ∃ ti, Tab.find? (s.core c).insts i = some ti ∧
    (s.checkInst c i = s.reserveBack c i ti ∨ s.checkInst c i = (s.reserveBack c i ti).instEnds c i ti) := by
  cases h : Tab.find? (s.core c).insts i with
  | none => exact .inl (by simp only [State.checkInst, h])
  | some ti =>
    refine .inr ⟨ti, rfl, ?_⟩
    cases hb : (s.core c).instBusy i with
    | true =>
      left
      simp only [State.checkInst, h, hb, if_true]
      rfl
    | false =>
      right
      simp only [State.checkInst, h, hb, Bool.false_eq_true, if_false]
      rfl

theorem reserveBack_settles {ti : TileInst} (h : Tab.find? (s.core c).insts i = some ti) :
    Settles c s (s.reserveBack c i ti) ∧ ((s.reserveBack c i ti).core c).fibres = (s.core c).fibres := by
  unfold State.reserveBack
  split
  · exact ⟨.refl, rfl⟩
  · split
    · refine ⟨⟨rfl, rfl, by simp, fun j tj hj => ?_⟩, by simp⟩
      by_cases he : j = i
      · subst he
        simp only [State.core_setCore_self, Tab.find?_set_self, Option.some.injEq] at hj
        exact ⟨ti, h, by rw [← hj]⟩
      · simp only [State.core_setCore_self, Tab.find?_set_ne _ _ _ _ he] at hj
        exact ⟨tj, hj, rfl⟩
    · exact ⟨.refl, rfl⟩

theorem settles_dropInst {ti : TileInst} : Settles c s (s.dropInst c i ti) := by
  unfold State.dropInst
  refine ⟨rfl, rfl, by simp, fun j tj hj => ?_⟩
  by_cases he : j = i
  · subst he
    simp [Tab.find?_del_self] at hj
  · simp only [State.core_setCore_self, Tab.find?_del_ne _ _ _ he] at hj
    exact ⟨tj, hj, rfl⟩

theorem core_countEnd {ti : TileInst} : (s.countEnd ti).core c = s.core c := by
  unfold State.countEnd
  split <;> rfl

theorem settles_countEnd {ti : TileInst} : Settles c s (s.countEnd ti) := by
  refine .of_core ?_ ?_ core_countEnd
  all_goals unfold State.countEnd; split <;> rfl

theorem instEnds_settles {ti : TileInst} :
    Settles c s (s.instEnds c i ti) ∧ ((s.instEnds c i ti).core c).fibres = (s.core c).fibres := by
  refine ⟨settles_dropInst.trans (settles_countEnd.trans (settles_checkLaunch.trans settles_post)), ?_⟩
  calc ((s.instEnds c i ti).core c).fibres
      = ((s.dropInst c i ti).core c).fibres := congrArg Core.fibres (core_checkLaunch.trans core_countEnd)
    _ = (s.core c).fibres := by simp [State.dropInst]

/-- What the end of a tile's work leaves: the fibres too. -/
theorem checkInst_settles : Settles c s (s.checkInst c i) ∧ ((s.checkInst c i).core c).fibres = (s.core c).fibres := by
  rcases checkInst_cases (s := s) (c := c) (i := i) with h | ⟨ti, hti, h | h⟩
  · rw [h]
    exact ⟨.refl, rfl⟩
  · rw [h]
    exact reserveBack_settles hti
  · rw [h]
    obtain ⟨h1, hf1⟩ := reserveBack_settles hti
    obtain ⟨h2, hf2⟩ := instEnds_settles (s := s.reserveBack c i ti) (c := c) (i := i) (ti := ti)
    exact ⟨h1.trans h2, hf2.trans hf1⟩

theorem settles_modFibre {f : Thread → Thread} : Settles c s (s.modFibre c e f) := by
  unfold State.modFibre
  split
  · exact .setCore rfl rfl
  · exact .refl

theorem settles_wake {f : Thread → Thread} : Settles c s (s.wake c e f) := by
  have h (g : Thread → Thread) : Settles c s (s.modThread c e g) := by
    unfold State.modThread
    split
    · exact .setCore rfl rfl
    · exact settles_modFibre
  unfold State.wake
  extract_lets s1
  split
  · exact (h _).trans settles_post
  · exact h _

theorem settles_wakeRdzv : Settles c s (s.wakeRdzv c i hb) :=
  .trans (.foldl fun v kv => by split; exacts [settles_wake, .refl]) settles_resourcesFreed

theorem settles_wakeFork : Settles c s (s.wakeFork c i) :=
  .foldl fun v kv => by split; exacts [settles_modFibre, .refl]

theorem settles_tokensChanged : Settles c s (s.tokensChanged c) :=
  .foldl fun v kv => by split; exacts [settles_post, .refl]

theorem settles_completeOps : Settles c s (s.completeOps c ctx) := .setCore rfl rfl

end

/-! ### The end of a fibre, and of a stream -/

section
variable {s : State} {c e : Nat} {t : Thread} {x : Stream}

/-- 07 R193: a fibre in no set ends: its entry is freed. -/
theorem endFibre_ends (hf : s.fibre? c e = some t) (hs : t.sets = []) :
    let u := s.endFibre c e
    u.fibre? c e = none ∧ (∀ k, k ≠ e → u.fibre? c k = s.fibre? c k) ∧ u.mem = s.mem ∧ u.log = s.log := by
  have ha : Settles c s (s.addStores t.launch (s.hbAll t)) := settles_addStores
  let s1 := (s.addStores t.launch (s.hbAll t)).setCore c
    { s.core c with fibres := Tab.del (s.core c).fibres e, swaps := Tab.del (s.core c).swaps e
                    follow := (s.core c).follow.filter (· ≠ e) }
  have h1 : s1.mem = s.mem ∧ s1.log = s.log ∧ (s1.core c).fibres = Tab.del (s.core c).fibres e :=
    ⟨ha.mem, ha.log, by simp [s1]⟩
  obtain ⟨s3, h3, hf3, he⟩ : ∃ s3, Settles c s1 s3 ∧ (s3.core c).fibres = (s1.core c).fibres ∧
      s.endFibre c e = s3.resourcesFreed c := by
    unfold State.endFibre
    rw [hf]
    cases hi : t.inst with
    | none => exact ⟨_, settles_checkLaunch, congrArg Core.fibres core_checkLaunch, by simp only [hs, hi, List.foldl_nil]; rfl⟩
    | some i => exact ⟨_, checkInst_settles.1, checkInst_settles.2, by simp only [hs, hi, List.foldl_nil]; rfl⟩
  obtain ⟨hmem, hlog, hfib⟩ := h1
  have h4 : Settles c s3 (s3.resourcesFreed c) := settles_resourcesFreed
  have hall k : (s.endFibre c e).fibre? c k = Tab.find? (Tab.del (s.core c).fibres e) k := by
    rw [he, State.fibre?, resourcesFreed_core, hf3, hfib]
  refine ⟨(hall e).trans (Tab.find?_del_self ..), fun k hk => (hall k).trans (Tab.find?_del_ne _ _ _ hk), ?_, ?_⟩
  · rw [he, h4.mem, h3.mem, hmem]
  · rw [he, h4.log, h3.log, hlog]

theorem modInst_forkless {hb : List Nat} {i : Nat} :
    let u := s.modInst c i fun ti => { ti with fork := none, joinHb := hb }
    u.mem = s.mem ∧ u.log = s.log ∧ (u.core c).stream = (s.core c).stream ∧
      ∀ ti, Tab.find? (u.core c).insts i = some ti → ti.fork = none := by
  unfold State.modInst
  dsimp only
  split
  · refine ⟨rfl, rfl, by simp, fun ti h => ?_⟩
    simp only [State.core_setCore_self, Tab.find?_set_self, Option.some.injEq] at h
    rw [← h]
  next hn => exact ⟨rfl, rfl, rfl, fun ti h => by rw [hn] at h; cases h⟩

/-- The state in which a stream has left its core, its FORK joined. -/
def State.streamGone (s : State) (c : Nat) (x : Stream) : State :=
  let hb := s.hbAll x.th
  let s1 := (s.completeOps c x.th.ctx).addStores x.th.launch hb
  let y := s1.core c
  (s1.setCore c ({ y with stream := none, xview := y.xview.join (s1.xKeep c x.th.view) }.setCtx x.th.ctx
    { y.ctx x.th.ctx with hold := none })).modInst c x.inst fun ti => { ti with fork := none, joinHb := hb }

theorem streamGone_forkless : ((s.streamGone c x).core c).stream = none ∧
    (∀ ti, Tab.find? ((s.streamGone c x).core c).insts x.inst = some ti → ti.fork = none) ∧
    (s.streamGone c x).mem = s.mem ∧ (s.streamGone c x).log = s.log := by
  have h1 : Settles c s ((s.completeOps c x.th.ctx).addStores x.th.launch (s.hbAll x.th)) := settles_completeOps.trans settles_addStores
  obtain ⟨hmem, hlog, hstream, hforks⟩ := modInst_forkless
  exact ⟨hstream.trans (by simp [Core.setCtx]), hforks, hmem.trans h1.mem, hlog.trans h1.log⟩

theorem streamEnd_eq (hx : (s.core c).stream = some x) : s.streamEnd c =
    (((((s.streamGone c x).wakeRdzv c x.inst (s.hbAll x.th)).wakeFork c x.inst).tokensChanged c).checkInst c x.inst).post
      (.streamStart c) := by
  simp only [State.streamEnd, hx]
  rfl

/-- 08 R236: the core's stream ends, and its FORK is joined. -/
theorem streamEnd_ends (hx : (s.core c).stream = some x) :
    let u := s.streamEnd c
    (u.core c).stream = none ∧ (∀ ti, Tab.find? (u.core c).insts x.inst = some ti → ti.fork = none) ∧
      u.mem = s.mem ∧ u.log = s.log := by
  obtain ⟨hstream, hforks, hmem, hlog⟩ := streamGone_forkless (s := s) (c := c) (x := x)
  have h : Settles c (s.streamGone c x) (s.streamEnd c) := by
    rw [streamEnd_eq hx]
    exact settles_wakeRdzv.trans <| settles_wakeFork.trans <| settles_tokensChanged.trans <|
      checkInst_settles.1.trans settles_post
  refine ⟨h.stream.trans hstream, fun ti hti => ?_, h.mem.trans hmem, h.log.trans hlog⟩
  obtain ⟨tj, htj, he⟩ := h.forks _ ti hti
  rw [he, hforks tj htj]

end

/-! ### The header after a clause -/

section
variable {s : State} {t : Thread} {cl : Clause} {g : Guard} {go : State → State}

theorem Clause.after_eq (cl : Clause) : cl.after = headerAfter cl := by
  unfold Clause.after headerAfter
  rw [Nat.mul_comm, BitVec.ofNat_mul, BitVec.ofNat_add, BitVec.mul_comm]
  rfl

theorem Thread.leave_eq (t : Thread) (a : Word) : t.leave a = atHeader t a := rfl

theorem advance_eq_pastWord (h : t.clause = some cl) : t.advance = pastWord t cl := by
  simp only [Thread.advance, h, pastWord, Clause.after_eq, Thread.leave_eq]

theorem afterClause_eq (h : t.clause = some cl) : t.afterClause = headerAfter cl := by
  simp only [Thread.afterClause, h, Clause.after_eq]

theorem endClause_eq (hs : s.cur? = some t) (h : t.clause = some cl) : s.endClause = s.setCur (atHeader t (headerAfter cl)) := by
  simp only [State.endClause, hs, afterClause_eq h, Thread.leave_eq]

/-- 07 R186: a transfer whose guard is T is performed. -/
theorem transfer_t (hs : s.cur? = some t) (hg : t.guard g = .t) : s.transfer g go = go s := by
  simp only [State.transfer, hs, Thread.guardAt, hg, Thread.simplify_t, State.transferOn]

/-- 07 R194: TRAP and BRK under a guard that is T. -/
theorem trapCode_t {cause : BitVec 8} {code : BitVec 10} (hs : s.cur? = some t) (hg : t.guard g = .t) :
    s.trapCode g cause code = s.takeTrap cause 0 (code.setWidth 64) none true := State.guarded_t s t g _ hs hg

theorem cur?_mc {k : Nat} (h : OnMc s k t) : s.cur? = some t := by
  obtain ⟨ht, rfl, -⟩ := h
  simp only [State.cur?, ht]

theorem cur?_stream {c : Nat} {x : Stream} (h : OnStream s c x) : s.cur? = some x.th := by
  obtain ⟨ht, hx, -⟩ := h
  simp only [State.cur?, ht, hx, Option.map_some]

end

/-- Settles O27: NOP, YIELD and EXIT each by their rule above; TRAP and BRK by the rules of a trap of the whole agent. -/
theorem nopYieldExitTraps : Obligations.NopYieldExitTraps := by
  refine ⟨fun o s t cl hcl => ⟨fun hs => ?_, fun c e hon hg => ?_, fun c x hon hxt hg => ?_, fun k hon hg => ?_⟩,
    fun s t => ⟨fun c e hon hc hq o hg => ?_, fun k hon o hg => ?_⟩⟩
  · exact congrArg Host.Outcome.next ((State.advance_eq s t hs).trans (by rw [advance_eq_pastWord hcl]))
  · obtain ⟨ht, hf, -⟩ := hon
    have hs : s.cur? = some t := (cur?_fibre ht).trans hf
    refine ⟨congrArg Host.Outcome.next ((transfer_t hs hg).trans ?_), fun hsets => ⟨_, rfl, ?_⟩⟩
    · simp only [ht, hs, State.setCur, afterClause_eq hcl, Thread.leave_eq]
    · rw [transfer_t hs hg, State.exitAll, ht]
      exact endFibre_ends hf hsets
  · have hs := cur?_stream hon
    obtain ⟨ht, hx, -⟩ := hon
    refine ⟨_, rfl, ?_⟩
    rw [transfer_t hs (hxt ▸ hg), State.exitAll, ht]
    exact streamEnd_ends hx
  · have hs := cur?_mc hon
    obtain ⟨ht, -⟩ := hon
    have he := endClause_eq hs hcl
    refine ⟨congrArg Host.Outcome.next ((transfer_t hs hg).trans ?_), congrArg Host.Outcome.next ((transfer_t hs hg).trans ?_)⟩
    · simp only [ht, he]
    · simp only [State.exitAll, ht, he]
  · have hs : s.cur? = some t := (cur?_fibre hon.1).trans hon.2.1
    exact ⟨fibreTrapsAt_of_takeTrap hon hc hq (congrArg Host.Outcome.next (trapCode_t hs hg)),
      fibreTrapsAt_of_takeTrap hon hc hq (congrArg Host.Outcome.next (trapCode_t hs hg))⟩
  · have hs := cur?_mc hon
    exact ⟨mcTraps_of_takeTrap hon (fun _ => .inl rfl) (congrArg Host.Outcome.next (trapCode_t hs hg)),
      mcTraps_of_takeTrap hon (fun _ => .inr rfl) (congrArg Host.Outcome.next (trapCode_t hs hg))⟩

end Sys2Proof.Machine
end

section
/-!
O49 fails where its premises hold of a management core that no step reaches: one with a token marked failed.
-/

namespace Sys2Proof.Machine

open Sys2Proof Sys2Proof.Spec

/-- A clause of the management core's class that has not begun, whose header waits on token 0. -/
def tokenClause : Clause := ⟨0, 0x2001000000000000#64, [0], 0, false⟩

/-- A management core at that header, with token 0 marked failed. -/
def marked : Thread := { Thread.blank .mc with clause := some tokenClause, failed := [(0, cAccess)] }

/-- The management core of cluster 0 is `marked` and has the turn. -/
def markedMc : State := { State.reset.setMc 0 { Mc.reset with th := marked } with turn := .mc 0 }

/-- The clause that the agent of the turn is in after an instruction. -/
def clauseAfter (i : Instr) (s : State) : Option Clause :=
  match Machine.exec i s with
  | .next u => u.cur?.bind Thread.clause
  | _ => none

/-- Refutes O49: its first clause asks that a header waits for nothing of the agents of a core alone. The header in `markedMc` waits on
a token that is marked failed, and traps (08 R234), so its clause does not begin. A management core issues no command, so no step marks
a token of it. -/
theorem not_clausesBegin : ¬ Obligations.ClausesBegin := by
  intro h
  obtain ⟨hbegin, -⟩ := h.1 markedMc marked tokenClause rfl
  obtain ⟨u, hu, -, t1, ht1, ⟨-, hclause, -⟩, -⟩ := hbegin rfl (by decide +kernel) (by decide +kernel) nofun
  have hnone : clauseAfter (.clauseHeader tokenClause.hdr) markedMc = none := by decide +kernel
  simp only [clauseAfter, hu, ht1, Option.bind_some, hclause] at hnone
  cases hnone

end Sys2Proof.Machine
end

section
/-!
A result on uniform operands (02 R42, R43, 05 R127, R133): what it leaves in register and latch, of any kind of agent.
-/

namespace Sys2Proof.Machine

open Sys2Proof Sys2Proof.Spec

/-! ### Writing a uniform result -/

section
variable {s : State} {t u : Thread} {d : Dst} {w : RW} {v b : Word} {n m p draw : Nat} {mask : Option (List Nat)} {r : Opd} {g : Guard}
  {carry : Bool} {f : State → Thread → Opd}

/-- 05 R127: a stream writes one m register. -/
theorem writeReg_stream (hk : t.kind = .stream) (mask : Option (List Nat)) :
    ∃ fs, t.writeReg n w mask r = { t with regs := Tab.set t.regs n (.u (mValue w r.u) r.pAll), farMarks := fs } ∧
      ∀ k ∈ fs, k ∈ t.farMarks := by
  cases hf : t.farMarks.isEmpty || mask.isSome
  · refine ⟨t.farMarks.filter fun k => k ≠ n && !(w.is64 && k = n + 1), ?_, fun k hk => List.mem_of_mem_filter hk⟩
    rcases w with (_ | _) | _ <;> simp only [Thread.writeReg, hf, hk, Bool.false_eq_true, if_false, if_true] <;> rfl
  · refine ⟨t.farMarks, ?_, fun k hk => hk⟩
    rcases w with (_ | _) | _ <;> simp only [Thread.writeReg, hf, hk, if_true] <;> rfl

/-- A fibre and a management core write registers of 32 bits and pairs. -/
theorem writeReg_scalar (hk : t.kind ≠ .stream) : ∃ fs, t.writeReg n w none r =
    if w.is64 then Thread.write64 { t with farMarks := fs } n r else Thread.write32 { t with farMarks := fs } n r := by
  cases hf : t.farMarks.isEmpty || (none : Option (List Nat)).isSome
  · refine ⟨t.farMarks.filter fun k => k ≠ n && !(w.is64 && k = n + 1), ?_⟩
    simp only [Thread.writeReg, hf, hk, Bool.false_eq_true, if_false]
  · refine ⟨t.farMarks, ?_⟩
    simp only [Thread.writeReg, hf, hk, if_true, if_false]

theorem holds_written : Holds t (if d.nwb then t else t.writeReg d.n.toNat w none (Opd.ofU v)) d w v := by
  unfold Holds
  cases d.nwb with
  | true => rfl
  | false =>
    simp only [Bool.false_eq_true, if_false]
    split
    next hk =>
      obtain ⟨fs, hw, -⟩ := writeReg_stream (n := d.n.toNat) (w := w) (r := Opd.ofU v) hk none
      rw [hw]
      simp [Thread.reg, Opd.ofU, Opd.u]
    next hk =>
      obtain ⟨fs, hw⟩ := writeReg_scalar (n := d.n.toNat) (w := w) (r := Opd.ofU v) hk
      rw [hw]
      split
      · exact reg_setPair
      · exact reg_set.trans (if_pos rfl)

/-- Registers outside what a destination touches stay. -/
theorem reg_written_of_not_touches (h : touches d m = false) :
    (if d.nwb then t else t.writeReg d.n.toNat w none r).reg m = t.reg m := by
  cases hd : d.nwb with
  | true => rfl
  | false =>
    simp only [touches, hd, Bool.not_false, Bool.true_and, Bool.or_eq_false_iff, decide_eq_false_iff_not] at h
    obtain ⟨h1, h2⟩ := h
    simp only [Bool.false_eq_true, if_false]
    by_cases hk : t.kind = .stream
    · obtain ⟨fs, hw, -⟩ := writeReg_stream (n := d.n.toNat) (w := w) (r := r) hk none
      rw [hw]
      exact reg_set.trans (if_neg fun e => h2 (congrArg (· / 2) e))
    · obtain ⟨fs, hw⟩ := writeReg_scalar (n := d.n.toNat) (w := w) (r := r) hk
      rw [hw]
      split
      · exact reg_write64_ne (fun e => h2 (e ▸ rfl)) h1
      · exact reg_write32_ne h2

theorem reg_separate_farMarks {fs : List Nat} {k : Nat} : (Thread.separate { t with farMarks := fs } n).reg k = (t.separate n).reg k := by
  have h : Thread.separate { t with farMarks := fs } n = { t.separate n with farMarks := fs } := by
    have hr (k : Nat) : Thread.reg { t with farMarks := fs } k = t.reg k := rfl
    unfold Thread.separate
    simp only [hr]
    split <;> rfl
  rw [h]
  rfl

/-- 02 R42: a register whose pair the write does not separate, or separates into two uniform halves, reads as it did. -/
theorem read32_write32_half (ho : pairOk t n) (ht : takesU t d (.w32 false) = true) (hd : d.nwb = false) (hne : n ≠ d.n.toNat)
    (he : n / 2 = d.n.toNat / 2) (hu : WritesOnly t u) (hreg : ∀ k, k ≠ d.n.toNat → u.reg k = (t.separate d.n.toNat).reg k) :
    (u.read32 n).val p = (t.read32 n).val p := by
  obtain ⟨e, hem⟩ : ∃ e, e = d.n.toNat / 2 * 2 := ⟨_, rfl⟩
  have hn : n = e ∨ n = e + 1 := by omega
  obtain ⟨hks, hpair⟩ := ho
  rw [show n / 2 * 2 = e by omega] at hpair
  rcases separate_cases (t := t) e hem with ⟨b, po, hhi, hlo, hlo', hhi'⟩ | ⟨b, sx, sy, sz, hhi, hlo, -⟩ | ⟨hs, hno⟩
  · rcases hn with rfl | rfl
    · rw [read32_u ((hreg _ hne).trans hlo'), read32_u hlo]
      exact w32or_w32or (w := false)
    · rw [read32_u ((hreg _ hne).trans hhi'), read32_upper hhi hlo]
      exact low32_shiftRight
  · rw [hlo] at hpair
    have hfib : t.kind = .fibre := hpair
    simp [takesU, Thread.needsLanes, hfib, hd, ← hem, hhi, hlo, RW.is64] at ht
  · rw [val_read32_congr hu ((hreg n hne).trans (by rw [hs])) fun hpn => ?_]
    rcases hn with rfl | rfl
    · by_cases hz : n = 0
      · subst hz
        rw [Nat.zero_sub, hreg 0 hne, hs]
      · rw [hreg _ (by omega)]
        exact reg_separate_ne (by omega)
    · obtain ⟨hu', ha⟩ := hno hpn
      split at hpair
      next b po h => exact absurd h (hu' b po)
      next b sx sy sz h => exact absurd h (ha b sx sy sz)
      next => exact absurd hpn hpair

/-- 02 R42: after a 32-bit write the other half of the pair reads as it did. -/
theorem read32_written_half (h64 : w.is64 = false) (ho : pairOk t n) (ht : takesU t d w = true) (hne : n ≠ d.n.toNat)
    (he : n / 2 = d.n.toNat / 2) (hu : WritesOnly t u)
    (hreg : u.reg = (if d.nwb then t else t.writeReg d.n.toNat w none r).reg) : (u.read32 n).val p = (t.read32 n).val p := by
  cases hd : d.nwb with
  | true =>
    rw [hd] at hreg
    rw [read32_congr hu hreg]
  | false =>
    obtain ⟨fs, hw⟩ := writeReg_scalar (n := d.n.toNat) (w := w) (r := r) ho.1
    rw [hd, hw, h64] at hreg
    have hother : ∀ k, k ≠ d.n.toNat → u.reg k = (t.separate d.n.toNat).reg k := fun k hk =>
      (congrFun hreg k).trans ((reg_set.trans (if_neg hk)).trans reg_separate_farMarks)
    have ht' : takesU t d (.w32 false) = true := by
      rcases w with sx | _
      · exact ht
      · cases h64
    exact read32_write32_half ho ht' hd hne he hu hother

theorem onlyResult_uniform (ht : takesU t d w = true) (r : Opd) : OnlyResult t (t.putResult draw d w none r) d w := by
  have hw := writesOnly_putResult (t := t) (draw := draw) (d := d) (rw_ := w) (mask := none) (r := r)
  obtain ⟨rs, ls, fs, heq, hsub⟩ := id hw
  refine ⟨by rw [heq], by rw [heq]; exact hsub, fun n hn => ?_, fun n h64 hhalf hne hpair p _ => ?_, fun j hj => ?_⟩
  · rw [reg_putResult]
    exact reg_written_of_not_touches hn
  · exact read32_written_half h64 hpair ht hne hhalf hw reg_putResult
  · rw [← latches_written (t := t) (d := d) (rw_ := w) (mask := none) (r := r), putResult_eq]
    have hcl := (writesOnly_written (t := t) (d := d) (rw_ := w) (mask := none) (r := r)).clause
    unfold Thread.writeLatch
    rw [hcl]
    split
    · rfl
    next c hc =>
      rw [hc] at hj
      exact Tab.find?_set_ne _ _ _ _ hj

theorem latched_uniform : Latched t (t.putResult draw d w none (Opd.ofU v)) w v := by
  have hcl := (writesOnly_written (t := t) (d := d) (rw_ := w) (mask := none) (r := Opd.ofU v)).clause
  unfold Latched
  rw [putResult_eq, Thread.writeLatch, hcl]
  cases t.clause with
  | none => exact latches_written
  | some c => simp [Tab.find?_set_self, Opd.ofU, Opd.toFVal, Opd.bads]

theorem holds_uniform : Holds t (t.putResult draw d w none (Opd.ofU v)) d w v := by
  have hreg := reg_putResult (t := t) (draw := draw) (d := d) (rw_ := w) (mask := none) (r := Opd.ofU v)
  have hregs : (t.putResult draw d w none (Opd.ofU v)).regs = (if d.nwb then t else t.writeReg d.n.toNat w none (Opd.ofU v)).regs := by
    rw [putResult_eq]
    unfold Thread.writeLatch
    split <;> rfl
  have h := holds_written (t := t) (d := d) (w := w) (v := v)
  unfold Holds at h ⊢
  rwa [hreg, hregs]

/-- 02 R42: a uniform result of a place that takes it goes there as it is. -/
theorem result_uniform (hs : s.cur? = some t) (hg : t.guard g = .t) (ht : takesU t d w = true) (hr : f s t = Opd.ofU v) :
    s.result g d w carry f = s.setCur (t.putResult s.draw d w none (Opd.ofU v)).advance := by
  have hn : t.needsLanes d w (Opd.ofU v) = false := by
    rw [show t.needsLanes d w (Opd.ofU v) = t.needsLanes d w (Opd.ofU 0) from rfl]
    simpa [takesU] using ht
  rw [result_eq, State.guardedDst_t s t g _ hs hg]
  simp only [State.resultOn, hs, hr, hn, Bool.false_eq_true, if_false, Option.isSome_none]
  exact deliver_clean hs rfl

end

end Sys2Proof.Machine
end

section
/-!
What the arithmetic instructions compute of uniform operands (`GivesU`), and the first part of O9.
-/

namespace Sys2Proof.Machine

open Sys2Proof Sys2Proof.Spec

/-! ### Uniform operands -/

section
variable {t : Thread} {draw n j : Nat} {w : Bool} {x : Src} {o lo hi : Opd} {b : Word}

/-- A uniform operand has its one value at every place. -/
def Opd.Flat (o : Opd) : Prop := ∀ b, o.form = .u b → o.val = fun _ => b

theorem u_ofU {po : Bool} : (Opd.ofU b po).u = b := rfl

theorem flat_ofU {po : Bool} : (Opd.ofU b po).Flat := fun _ h => by
  cases h
  rfl

theorem flat_ofA {sx sy sz : Int} : (Opd.ofA t w b sx sy sz).Flat := by
  unfold Opd.ofA
  split
  · exact flat_ofU
  · exact fun _ h => nomatch h

theorem flat_of_e (h : o.form = .e) : o.Flat := fun _ hb => nomatch h.symm.trans hb

theorem flat_pair : (lo.pair hi).Flat := by
  unfold Opd.pair
  split
  · exact flat_ofU
  · exact flat_of_e rfl

theorem flat_read32 : (t.read32 n).Flat := by
  unfold Thread.read32
  split
  · exact flat_ofU
  · exact flat_ofA
  · exact flat_of_e rfl
  · split
    · exact flat_ofU
    · exact flat_of_e rfl
    · exact flat_ofU

theorem flat_read64 : (t.read64 n).Flat := by
  unfold Thread.read64
  split
  · split <;> exact flat_ofU
  · split
    · exact flat_ofU
    · exact flat_ofA
    · exact flat_pair

theorem flat_readLatch : (t.readLatch draw j w).Flat := by
  unfold Thread.readLatch
  split
  · exact flat_ofU
  · extract_lets wide ext
    split
    · exact flat_ofU
    · split
      · exact flat_of_e rfl
      · exact flat_ofA
    · exact flat_of_e rfl

theorem flat_src : (t.src draw x w).Flat := by
  have hix (sx sy sz : Int) : (if t.kind = .fibre then Opd.ofA t w 0 sx sy sz else Opd.ofU 0).Flat := by
    split
    · exact flat_ofA
    · exact flat_ofU
  cases x with
  | reg n =>
    cases w
    · exact flat_read32
    · exact flat_read64
  | latch j => exact flat_readLatch
  | ix => exact hix 1 0 0
  | iy => exact hix 0 1 0
  | iz => exact hix 0 0 1

theorem Opd.Flat.eq_ofU (h : o.Flat) (hu : o.isU = true) (hc : o.clean = true) : o = Opd.ofU o.u := by
  obtain ⟨form, val, pAll, pL⟩ := o
  obtain ⟨rfl, rfl⟩ := Opd.clean_iff.1 hc
  cases form with
  | u b => rw [show val = fun _ => b from h b rfl]; rfl
  | a => cases hu
  | e => cases hu

/-- A uniform source without poison, and its value, which has no bits above its width. -/
theorem src_uniform (hu : (t.src draw x w).isU = true) (hc : (t.src draw x w).clean = true) :
    ∃ a, t.src draw x w = Opd.ofU a ∧ w32or w a = a := by
  have h := flat_src.eq_ofU hu hc
  refine ⟨_, h, ?_⟩
  have hn := w32or_src (t := t) (draw := draw) (src := x) (w := w) (p := 0)
  rw [h] at hn
  exact hn

end

/-! ### Shapes on uniform operands -/

/-- Of uniform operands without poison an instruction computes, as a uniform result, the value that its shape tells. -/
def GivesU (i : Instr) (sh : Shape) : Prop :=
  ∃ carry f, (∀ s, Machine.exec i s = .next (s.result sh.g sh.d sh.w carry f)) ∧
    ∀ s t, sh.plain s t = true → f s t = Opd.ofU (sh.val ((sh.opds s t).map Opd.u))

/-- What such an instruction leaves. -/
theorem GivesU.resultIs {i : Instr} {sh : Shape} {s : State} {t : Thread} (h : GivesU i sh) (ha : Acts s t sh.g)
    (hp : sh.plain s t = true) (ht : takesU t sh.d sh.w = true) :
    ResultIs i s t sh.d sh.w (sh.val ((sh.opds s t).map Opd.u)) := by
  obtain ⟨carry, f, hexec, hval⟩ := h
  exact ⟨_, (hexec s).trans (congrArg _ (result_uniform ha.1 ha.2 ht (hval s t hp))), holds_uniform, latched_uniform,
    onlyResult_uniform ht _⟩

section
variable {i : Instr} {g : Guard} {d : Dst} {w : RW} {a b c : Src} {wa wb wc carry : Bool} {val : List Word → Word}

theorem plain_cons {x : Src × Bool} {ins : List (Src × Bool)} {s : State} {t : Thread} (h : (⟨g, d, w, x :: ins, val⟩ : Shape).plain s t = true) :
    (∃ v, t.src s.draw x.1 x.2 = Opd.ofU v ∧ w32or x.2 v = v) ∧ (⟨g, d, w, ins, val⟩ : Shape).plain s t = true := by
  simp only [Shape.plain, Shape.opds, List.map_cons, List.all_cons, Bool.and_eq_true] at h
  obtain ⟨⟨hu, hc⟩, h⟩ := h
  exact ⟨src_uniform hu hc, h⟩

theorem givesU_unary {f : Thread → Opd → Opd}
    (hexec : ∀ s, Machine.exec i s = .next (s.result g d w carry fun s t => f t (t.src s.draw a wa)))
    (hf : ∀ t x, w32or wa x = x → f t (Opd.ofU x) = Opd.ofU (val [x])) : GivesU i ⟨g, d, w, [(a, wa)], val⟩ := by
  refine ⟨carry, _, hexec, fun s t hp => ?_⟩
  obtain ⟨⟨x, hx, wx⟩, -⟩ := plain_cons hp
  simp only [Shape.opds, List.map_cons, List.map_nil, hx, hf t x wx, u_ofU]

theorem givesU_binary {f : Thread → Opd → Opd → Opd}
    (hexec : ∀ s, Machine.exec i s = .next (s.result g d w carry fun s t => f t (t.src s.draw a wa) (t.src s.draw b wb)))
    (hf : ∀ t x y, w32or wa x = x → w32or wb y = y → f t (Opd.ofU x) (Opd.ofU y) = Opd.ofU (val [x, y])) :
    GivesU i ⟨g, d, w, [(a, wa), (b, wb)], val⟩ := by
  refine ⟨carry, _, hexec, fun s t hp => ?_⟩
  obtain ⟨⟨x, hx, wx⟩, hp⟩ := plain_cons hp
  obtain ⟨⟨y, hy, wy⟩, -⟩ := plain_cons hp
  simp only [Shape.opds, List.map_cons, List.map_nil, hx, hy, hf t x y wx wy, u_ofU]

theorem givesU_ternary {f : Thread → Opd → Opd → Opd → Opd}
    (hexec : ∀ s, Machine.exec i s =
      .next (s.result g d w carry fun s t => f t (t.src s.draw a wa) (t.src s.draw b wb) (t.src s.draw c wc)))
    (hf : ∀ t x y z, f t (Opd.ofU x) (Opd.ofU y) (Opd.ofU z) = Opd.ofU (val [x, y, z])) :
    GivesU i ⟨g, d, w, [(a, wa), (b, wb), (c, wc)], val⟩ := by
  refine ⟨carry, _, hexec, fun s t hp => ?_⟩
  obtain ⟨⟨x, hx, -⟩, hp⟩ := plain_cons hp
  obtain ⟨⟨y, hy, -⟩, hp⟩ := plain_cons hp
  obtain ⟨⟨z, hz, -⟩, -⟩ := plain_cons hp
  simp only [Shape.opds, List.map_cons, List.map_nil, hx, hy, hz, hf t x y z, u_ofU]

theorem givesU_map1 {G : Word → Word}
    (hexec : ∀ s, Machine.exec i s = .next (s.result g d w carry fun s t => Opd.map1 G (t.src s.draw a wa)))
    (hval : ∀ x, G x = val [x]) : GivesU i ⟨g, d, w, [(a, wa)], val⟩ :=
  givesU_unary (f := fun _ => Opd.map1 G) hexec fun _ x _ => congrArg Opd.ofU (hval x)

theorem givesU_map2 {G : Word → Word → Word}
    (hexec : ∀ s, Machine.exec i s = .next (s.result g d w carry fun s t => Opd.map2 G (t.src s.draw a wa) (t.src s.draw b wb)))
    (hval : ∀ x y, G x y = val [x, y]) : GivesU i ⟨g, d, w, [(a, wa), (b, wb)], val⟩ :=
  givesU_binary (f := fun _ => Opd.map2 G) hexec fun _ x y _ _ => congrArg Opd.ofU (hval x y)

theorem givesU_map3 {G : Word → Word → Word → Word}
    (hexec : ∀ s, Machine.exec i s =
      .next (s.result g d w carry fun s t => Opd.map3 G (t.src s.draw a wa) (t.src s.draw b wb) (t.src s.draw c wc)))
    (hval : ∀ x y z, G x y z = val [x, y, z]) : GivesU i ⟨g, d, w, [(a, wa), (b, wb), (c, wc)], val⟩ :=
  givesU_ternary (f := fun _ => Opd.map3 G) hexec fun _ x y z => congrArg Opd.ofU (hval x y z)

end

/-! ### The families of integer instructions -/

section
variable {i : Instr} {o : RR} {m : RI} {f : Op2} {h : Word → Word → Word} {F : Int → Int → Int} {B : Word → Word → Word}
  {S : Bool → Int → Nat → Int} {w wy sg : Bool} {t : Thread} {a b c : Word}

/-- A two-source operation computes `h` of uniform operands. -/
def Op2.OnU (f : Op2) (w sg : Bool) (h : Word → Word → Word) : Prop := ∀ t x y, f t w sg (Opd.ofU x) (Opd.ofU y) = Opd.ofU (h x y)

theorem onU_anyOp {g : Bool → Bool → Word → Word → Word} : (anyOp g).OnU w sg (g w sg) := fun _ _ _ => rfl

theorem addSub_ofU {sub : Bool} : Opd.addSub t w sub (Opd.ofU a) (Opd.ofU b) = Opd.ofU (w32or w (if sub then a - b else a + b)) := by
  cases w <;> rfl

theorem onU_opAdd : opAdd.OnU w sg fun a b => w32or w (a + b) := fun _ _ _ => addSub_ofU

theorem onU_opSub : opSub.OnU w sg fun a b => w32or w (a - b) := fun _ _ _ => addSub_ofU

theorem mul_ofU : Opd.mul t w (Opd.ofU a) (Opd.ofU b) = Opd.ofU (wordOf w (a.toNat * b.toNat)) := by
  have hword : wordOf w (a.toNat * signedOf w b) = wordOf w (a.toNat * b.toNat) := by
    rw [wordOf_inj]
    push_cast
    rw [signedOf_cast]
  exact congrArg Opd.ofU hword

theorem onU_opMul : opMul.OnU w sg fun a b => wordOf w (a.toNat * b.toNat) := fun _ _ _ => mul_ofU

theorem onU_opShl : opShl.OnU w sg fun a c => wordOf w (a.toNat * 2 ^ min (low32 c).toNat 64) := fun _ _ _ => rfl

theorem givesU_rrInt (hexec : ∀ s, Machine.exec i s = .next (s.aluRR o f)) (hf : f.OnU o.ty.is64 o.ty.signed h)
    (hv : ∀ x y, h x y = wordOf o.ty.is64 (F (typedOf o.ty.is64 o.ty.signed x) (typedOf o.ty.is64 o.ty.signed y))) :
    GivesU i (rrInt o F) :=
  givesU_binary (f := fun t => f t o.ty.is64 o.ty.signed) hexec fun t x y _ _ => (hf t x y).trans (congrArg Opd.ofU (hv x y))

/-- Format I: the immediate is a uniform second operand. -/
theorem givesU_immediate {imm : Word} {val : List Word → Word}
    (hexec : ∀ s, Machine.exec i s = .next (s.result m.g m.d (riRW m.w m.s) false fun s t =>
      f t m.w m.s (t.src s.draw m.a m.w) (Opd.ofU imm)))
    (hf : f.OnU m.w m.s h) (hval : ∀ x, h x imm = val [x]) : GivesU i ⟨m.g, m.d, riRW m.w m.s, [(m.a, m.w)], val⟩ :=
  givesU_unary (f := fun t x => f t m.w m.s x (Opd.ofU imm)) hexec fun t x _ => (hf t x imm).trans (congrArg Opd.ofU (hval x))

theorem givesU_riInt (hexec : ∀ s, Machine.exec i s = .next (s.aluRI m f)) (hf : f.OnU m.w m.s h)
    (hv : ∀ x y, h x y = wordOf m.w (F (typedOf m.w m.s x) (typedOf m.w m.s y))) : GivesU i (riInt m F) :=
  givesU_immediate hexec hf fun x => by
    rw [hv, typedOf_immOf]
    rfl

theorem givesU_rrBits (hexec : ∀ s, Machine.exec i s = .next (s.aluRR o (anyOp fun _ _ => B))) : GivesU i (rrBits o B) :=
  givesU_binary (f := fun t => anyOp (fun _ _ => B) t o.ty.is64 o.ty.signed) hexec fun _ _ _ _ _ => rfl

theorem immOf_eq {v : BitVec 32} : immOf w sg v = wordOf w (immInt sg v) := by
  rw [← w32or_immOf]
  cases w
  · exact low32_setWidth.symm
  · rfl

theorem givesU_riBits (hexec : ∀ s, Machine.exec i s = .next (s.aluRI m (anyOp fun _ _ => B))) : GivesU i (riBits m B) :=
  givesU_immediate hexec (h := B) onU_anyOp fun x => congrArg (B x) immOf_eq

theorem givesU_rrShift (hexec : ∀ s, Machine.exec i s = .next (s.aluRC o f)) (hf : f.OnU o.ty.is64 o.ty.signed h)
    (hv : ∀ x c, low32 c = c → h x c = wordOf o.ty.is64 (S o.ty.is64 (typedOf o.ty.is64 sg x) c.toNat)) :
    GivesU i (rrShift o sg S) :=
  givesU_binary (f := fun t => f t o.ty.is64 o.ty.signed) hexec fun t x c _ hc => (hf t x c).trans (congrArg Opd.ofU (hv x c hc))

theorem givesU_riShift (hexec : ∀ s, Machine.exec i s = .next (s.aluRIC m f)) (hf : f.OnU m.w m.s h)
    (hv : ∀ x c, low32 c = c → h x c = wordOf m.w (S m.w (typedOf m.w sg x) c.toNat)) : GivesU i (riShift m sg S) :=
  givesU_immediate hexec hf fun x => by
    rw [hv x _ low32_setWidth, BitVec.toNat_setWidth, Nat.mod_eq_of_lt (by omega)]
    rfl

end

/-! ### The instructions -/

theorem givesU_lea (o : LeaO) : GivesU (.lea o) ⟨o.g, o.d, .w64, [(o.a, true), (o.b, o.ty.is64)], fun l =>
    BitVec.ofInt 64 ((op l 0).toNat + typedOf o.ty.is64 o.ty.signed (op l 1) * 2 ^ o.sh.toNat)⟩ := by
  refine givesU_binary (carry := false)
    (f := fun t x y =>
      Opd.addSub t true false x ((if o.ty.is64 then y else leaExt t o.ty.signed y).scale t true (2 ^ o.sh.toNat) false).norm)
    (fun _ => rfl) fun t x y _ _ => ?_
  have hy : (if o.ty.is64 then Opd.ofU y else leaExt t o.ty.signed (Opd.ofU y)) =
      Opd.ofU (wordOf true (typedOf o.ty.is64 o.ty.signed y)) := by
    cases h : o.ty.is64
    · rfl
    · exact congrArg Opd.ofU (wordOf_typedOf (w := true)).symm
  have hval : x + wordOf true ((wordOf true (typedOf o.ty.is64 o.ty.signed y)).toNat * 2 ^ o.sh.toNat) =
      wordOf true (x.toNat + typedOf o.ty.is64 o.ty.signed y * 2 ^ o.sh.toNat) := by
    refine (w32or_eq_iff (w := true)).2 ?_
    rw [resOf_add, resOf_wordOf, show BitVec.ofInt 64 _ = wordOf true _ from rfl, resOf_wordOf]
    push_cast
    rw [show (((wordOf true _).toNat : Nat) : ZMod (2 ^ bitsOf true)) = _ from resOf_wordOf]
  rw [hy]
  exact congrArg Opd.ofU hval

theorem givesU_imad (o : RRR) : GivesU (.imad o) ⟨o.g, o.d, RW.ofTy o.ty, [(o.a, o.ty.is64), (o.b, o.ty.is64), (o.c, o.ty.is64)], fun l =>
    let rd := typedOf o.ty.is64 o.ty.signed
    wordOf o.ty.is64 (rd (op l 0) * rd (op l 1) + rd (op l 2))⟩ := by
  refine givesU_ternary (carry := false) (f := fun t x y z => Opd.addSub t o.ty.is64 false (Opd.mul t o.ty.is64 x y).norm z)
    (fun _ => rfl) fun t x y z => ?_
  rw [mul_ofU, show (Opd.ofU _).norm = Opd.ofU _ from rfl, addSub_ofU]
  refine congrArg Opd.ofU (Eq.trans ?_ w32or_wordOf)
  rw [w32or_eq_iff]
  simp only [Bool.false_eq_true, if_false, resOf_add, resOf_wordOf]
  push_cast
  simp only [op, List.getD_cons_zero, List.getD_cons_succ, typedOf_cast]

/-- 06 R144-R154: the integer and address instructions. -/
theorem givesU_of_intShape {i : Instr} {sh : Shape} (h : intShape i = some sh) : GivesU i sh := by
  unfold intShape at h
  split at h
  next o => cases h; exact givesU_rrInt (fun _ => rfl) onU_opAdd fun _ _ => add_typed
  next o => cases h; exact givesU_riInt (fun _ => rfl) onU_opAdd fun _ _ => add_typed
  next o => cases h; exact givesU_rrInt (fun _ => rfl) onU_opSub fun _ _ => sub_typed
  next o => cases h; exact givesU_riInt (fun _ => rfl) onU_opSub fun _ _ => sub_typed
  next o => cases h; exact givesU_rrInt (fun _ => rfl) onU_opMul fun _ _ => mul_typed
  next o => cases h; exact givesU_riInt (fun _ => rfl) onU_opMul fun _ _ => mul_typed
  next o => cases h; exact givesU_rrInt (fun _ => rfl) onU_anyOp fun _ _ => rfl
  next o => cases h; exact givesU_riInt (fun _ => rfl) onU_anyOp fun _ _ => rfl
  next o => -- IMULW
    cases h
    exact givesU_map2 (G := mulwV o.ty.signed) (fun _ => rfl) fun _ _ => rfl
  next o =>
    cases h
    exact givesU_unary (f := fun _ x => Opd.map2 (mulwV o.s) x (Opd.ofU (o.imm.setWidth 64))) (fun _ => rfl) fun _ x _ =>
      congrArg Opd.ofU (by
        rw [mulwV, show typedOf false o.s (o.imm.setWidth 64) = immInt o.s o.imm from typedOf_immOf (w := false)]
        rfl)
  next o => cases h; exact givesU_imad o
  next o => -- INEG
    cases h
    exact givesU_unary (f := fun t => Opd.addSub t o.ty.is64 true (Opd.ofU 0)) (fun _ => rfl) fun _ _ _ =>
      addSub_ofU.trans (congrArg Opd.ofU neg_typed)
  next o => cases h; exact givesU_map1 (G := fun a => wordOf o.ty.is64 (signedOf o.ty.is64 a).natAbs) (fun _ => rfl) fun _ => rfl
  next o => cases h; exact givesU_rrInt (fun _ => rfl) onU_anyOp fun _ _ => min_typed
  next o => cases h; exact givesU_riInt (fun _ => rfl) onU_anyOp fun _ _ => min_typed
  next o => cases h; exact givesU_rrInt (fun _ => rfl) onU_anyOp fun _ _ => max_typed
  next o => cases h; exact givesU_riInt (fun _ => rfl) onU_anyOp fun _ _ => max_typed
  next o => cases h; exact givesU_rrShift (fun _ => rfl) onU_opShl fun _ _ hc => shl_typed hc
  next o => cases h; exact givesU_riShift (fun _ => rfl) onU_opShl fun _ _ hc => shl_typed hc
  next o => cases h; exact givesU_rrShift (fun _ => rfl) onU_anyOp fun _ _ hc => shr_typed hc
  next o => cases h; exact givesU_riShift (fun _ => rfl) onU_anyOp fun _ _ hc => shr_typed hc
  next o => cases h; exact givesU_rrShift (fun _ => rfl) onU_anyOp fun _ _ hc => shr_typed hc
  next o => cases h; exact givesU_riShift (fun _ => rfl) onU_anyOp fun _ _ hc => shr_typed hc
  next o => cases h; exact givesU_rrBits fun _ => rfl
  next o => cases h; exact givesU_riBits fun _ => rfl
  next o => cases h; exact givesU_rrBits fun _ => rfl
  next o => cases h; exact givesU_riBits fun _ => rfl
  next o => cases h; exact givesU_rrBits fun _ => rfl
  next o => cases h; exact givesU_riBits fun _ => rfl
  next o => cases h; exact givesU_map1 (G := fun a => w32or o.ty.is64 (~~~a)) (fun _ => rfl) fun _ => not_typed
  next o => cases h; exact givesU_rrBits fun _ => rfl
  next o => cases h; exact givesU_riBits fun _ => rfl
  next o => cases h; exact givesU_map1 (G := clzV o.ty.is64) (fun _ => rfl) fun _ => rfl
  next o => cases h; exact givesU_map1 (G := popcV o.ty.is64) (fun _ => rfl) fun _ => rfl
  next o => cases h; exact givesU_map1 (G := brevV o.ty.is64) (fun _ => rfl) fun _ => rfl
  next o => cases h; exact givesU_map2 (G := bfxV o.ty.is64 o.ty.signed) (fun _ => rfl) fun _ _ => rfl
  next o => cases h; exact givesU_map3 (G := bfiV o.ty.is64) (fun _ => rfl) fun _ _ _ => rfl
  next o => cases h; exact givesU_unary (f := fun _ x => x) (fun _ => rfl) fun _ _ _ => rfl
  next o => -- MOVI
    cases h
    exact ⟨false, fun _ _ => Opd.ofU (immOf o.w o.s o.imm), fun _ => rfl, fun _ _ _ => congrArg Opd.ofU immOf_eq⟩
  next o => -- MOVH
    cases h
    exact givesU_unary (carry := false) (f := fun _ => Opd.map1 fun lo => (o.imm.setWidth 64 <<< 32) ||| lo) (fun _ => rfl)
      fun _ x hx => congrArg Opd.ofU (movh_value hx)
  next o => cases h; exact givesU_lea o
  next => cases h

theorem givesU_flt1 {i : Instr} {o : FR1} {G : FpFmt → Rnd → Nat → Nat} {F : Nat → Nat}
    (hexec : ∀ s, Machine.exec i s = .next (s.flt1 o G))
    (hF : ∀ x, x < 2 ^ (fpOf o.ty).width → G (fpOf o.ty) o.rnd x = F x) : GivesU i (fr1 o F) := by
  rw [fr1, ← fltRW_eq]
  exact givesU_map1 hexec fun x => congrArg (BitVec.ofNat 64) (hF _ (Nat.mod_lt _ (by positivity)))

theorem givesU_flt2 {i : Instr} {o : FRR} {G : FpFmt → Rnd → Nat → Nat → Nat} {F : Nat → Nat → Nat}
    (hexec : ∀ s, Machine.exec i s = .next (s.flt2 o G)) (hF : ∀ x y, G (fpOf o.ty) o.rnd x y = F x y) : GivesU i (frr o F) := by
  rw [frr, ← fltRW_eq]
  exact givesU_map2 hexec fun x y => congrArg (BitVec.ofNat 64) (hF _ _)

/-- 06 R163: a uniform value stands at every lane of its block. -/
theorem q4_uniform {o : CvtO} (t : Thread) (mask : Option (List Nat)) (x : Word) :
    q4Opd t o (Opd.ofU x) mask = Opd.ofU (
      let v := (fpOfFmt o.from_).dec (x.toNat % 2 ^ (fpOfFmt o.from_).width)
      let (scale, codes) := q4Encode (if o.qsel = 0#3 then none else some (o.qsel.toNat - 4)) (List.replicate 32 v)
      BitVec.ofNat 64 (256 * scale + codes.getD 0 0)) := by
  simp only [Nat.mul_comm 256]
  rfl

/-- 06 R162, R163: FCVT, to q4 also. -/
theorem givesU_fcvt (o : CvtO) {sh : Shape} (h : fltShape (.fcvt o) = some sh) : GivesU (.fcvt o) sh := by
  cases h
  by_cases h4 : o.ty = .q4
  · refine ⟨false, _, fun s => rfl, fun s t hp => ?_⟩
    obtain ⟨⟨x, hx, -⟩, -⟩ := plain_cons hp
    simp only [Shape.opds, List.map_cons, List.map_nil, hx, if_pos h4]
    exact q4_uniform t _ x
  · refine givesU_unary (carry := false) (f := fun _ => Opd.map1 (fcvt o.ty o.from_ o.rnd o.ns)) (fun s => ?_) fun _ x _ =>
      congrArg Opd.ofU (by rw [if_neg h4]; rfl)
    show execFcvt o s = _
    simp only [execFcvt, if_neg h4]

/-- 06 R155-R167: the floating-point, conversion, packed and dot-product instructions. -/
theorem givesU_of_fltShape {i : Instr} {sh : Shape} (h : fltShape i = some sh) : GivesU i sh := by
  unfold fltShape at h
  split at h
  next o => cases h; exact givesU_flt2 (fun _ => rfl) fun _ _ => rfl
  next o => cases h; exact givesU_flt2 (fun _ => rfl) fun _ _ => rfl
  next o => cases h; exact givesU_flt2 (fun _ => rfl) fun _ _ => rfl
  next o => -- FFMA
    cases h
    rw [← fltRW_eq]
    exact givesU_map3 (fun _ => rfl) fun _ _ _ => rfl
  next o => cases h; exact givesU_flt2 (fun _ => rfl) fun _ _ => rfl
  next o => cases h; exact givesU_flt2 (fun _ => rfl) fun _ _ => rfl
  next o => cases h; exact givesU_flt1 (fun _ => rfl) fun _ _ => by rw [width_eq, Nat.add_sub_cancel]
  next o => cases h; exact givesU_flt1 (fun _ => rfl) fun _ hx => fneg_bits hx
  next o => cases h; exact givesU_map1 (fun _ => rfl) fun _ => rfl
  next o => cases h; exact givesU_flt1 (fun _ => rfl) fun _ _ => rfl
  next o => cases h; exact givesU_flt1 (fun _ => rfl) fun _ _ => rfl
  next o => cases h; exact givesU_flt1 (fun _ => rfl) fun _ _ => rfl
  next o => cases h; exact givesU_flt1 (fun _ => rfl) fun _ _ => rfl
  next o => cases h; exact givesU_flt1 (fun _ => rfl) fun _ _ => rfl
  next o => cases h; exact givesU_flt1 (fun _ => rfl) fun _ _ => rfl
  next o => cases h; exact givesU_flt1 (fun _ => rfl) fun _ _ => rfl
  next o => cases h; exact givesU_flt1 (fun _ => rfl) fun _ _ => rfl
  next o => exact givesU_fcvt o h
  next o => cases h; exact givesU_map1 (fun _ => rfl) fun _ => rfl
  next o => cases h; exact givesU_map1 (fun _ => rfl) fun _ => rfl
  next o => cases h; exact givesU_map2 (fun _ => rfl) fun _ _ => by rw [packed_eq]; rfl
  next o => cases h; exact givesU_map2 (fun _ => rfl) fun _ _ => by rw [packed_eq]; rfl
  next o => cases h; exact givesU_map3 (fun _ => rfl) fun _ _ _ => by rw [packed_eq]; rfl
  next o => cases h; exact givesU_map3 (fun _ => rfl) fun _ _ _ => rfl
  next o => cases h; exact givesU_map3 (fun _ => rfl) fun _ _ _ => rfl
  next => cases h

theorem uniform_resultIs {i : Instr} {sh : Shape} {s : State} {t : Thread} (h : intShape i = some sh ∨ fltShape i = some sh)
    (ha : Acts s t sh.g) (hp : sh.plain s t = true) (ht : takesU t sh.d sh.w = true) :
    ResultIs i s t sh.d sh.w (sh.val ((sh.opds s t).map Opd.u)) :=
  (h.elim givesU_of_intShape givesU_of_fltShape).resultIs ha hp ht

end Sys2Proof.Machine
end

section
/-!
The values of a floating-point format on its grid of magnitudes (04 R98), and one rounding to it (04 R99, R104).
-/

namespace Sys2Proof.Machine

open Sys2Proof Sys2Proof.Spec

/-! ### The grid of a format -/

/-- The fraction bits of a format. -/
abbrev fracBits (f : Fmt) : Nat := (fmtFacts f).2.1

/-- The exponent of a format's least bit. -/
def leastExp (f : Fmt) : Int := 1 - (fmtFacts f).2.2 - fracBits f

section
variable {f : Fmt} {j k n : Nat}

theorem gridVal_of_lt (h : k / 2 ^ fracBits f = 0) : gridVal f k = (k % 2 ^ fracBits f : Nat) * (2 : ℚ) ^ leastExp f := by
  simp only [gridVal, leastExp, h, if_true]

theorem gridVal_of_ge (h : k / 2 ^ fracBits f ≠ 0) :
    gridVal f k = ((2 ^ fracBits f + k % 2 ^ fracBits f : Nat) : ℚ) * (2 : ℚ) ^ (leastExp f + (k / 2 ^ fracBits f : Nat) - 1) := by
  simp only [gridVal, leastExp, h, if_false]
  push_cast
  congr 2
  ring

/-- 04 R98: n units of the j-th exponent. -/
theorem gridVal_scaled (hn : n ≤ 2 ^ (fracBits f + 1)) (h : 2 ^ fracBits f ≤ n ∨ j = 0) :
    gridVal f (j * 2 ^ fracBits f + n) = n * (2 : ℚ) ^ (leastExp f + j) := by
  have hpos : 0 < 2 ^ fracBits f := by positivity
  have hpow : 2 ^ (fracBits f + 1) = 2 ^ fracBits f + 2 ^ fracBits f := by ring
  rcases lt_or_ge n (2 ^ fracBits f) with hlt | hge
  · obtain rfl : j = 0 := h.resolve_left (by omega)
    rw [Nat.zero_mul, Nat.zero_add, gridVal_of_lt (Nat.div_eq_of_lt hlt), Nat.mod_eq_of_lt hlt]
    simp
  · obtain ⟨i, rfl⟩ := Nat.exists_eq_add_of_le hge
    have hk : j * 2 ^ fracBits f + (2 ^ fracBits f + i) = (j + 1) * 2 ^ fracBits f + i := by ring
    rcases lt_or_ge i (2 ^ fracBits f) with hi | hi
    · have hdiv : ((j + 1) * 2 ^ fracBits f + i) / 2 ^ fracBits f = j + 1 := by
        rw [Nat.mul_comm, Nat.mul_add_div hpos, Nat.div_eq_of_lt hi, Nat.add_zero]
      have hmod : ((j + 1) * 2 ^ fracBits f + i) % 2 ^ fracBits f = i := by
        rw [Nat.mul_comm, Nat.mul_add_mod, Nat.mod_eq_of_lt hi]
      rw [hk, gridVal_of_ge (by omega), hdiv, hmod]
      congr 2
      push_cast
      ring
    · obtain rfl : i = 2 ^ fracBits f := by omega
      have hk' : (j + 1) * 2 ^ fracBits f + 2 ^ fracBits f = (j + 2) * 2 ^ fracBits f := by ring
      rw [hk, hk', gridVal_of_ge (by rw [Nat.mul_div_cancel _ hpos]; omega), Nat.mul_div_cancel _ hpos, Nat.mul_mod_left]
      have hexp : leastExp f + ((j + 2 : Nat) : Int) - 1 = leastExp f + j + 1 := by push_cast; ring
      rw [hexp, zpow_add_one₀ (by norm_num)]
      push_cast
      ring

/-- Every magnitude is so many units of an exponent. -/
theorem exists_scaled (f : Fmt) (k : Nat) :
    ∃ j n, k = j * 2 ^ fracBits f + n ∧ n < 2 ^ (fracBits f + 1) ∧ (2 ^ fracBits f ≤ n ∨ j = 0) := by
  have hpow : 2 ^ (fracBits f + 1) = 2 ^ fracBits f + 2 ^ fracBits f := by ring
  have hmod := Nat.mod_lt k (show 0 < 2 ^ fracBits f by positivity)
  have hk := Nat.div_add_mod' k (2 ^ fracBits f)
  cases hd : k / 2 ^ fracBits f with
  | zero =>
    rw [hd] at hk
    exact ⟨0, k, by omega, by omega, .inr rfl⟩
  | succ j =>
    rw [hd, Nat.succ_mul] at hk
    exact ⟨j, 2 ^ fracBits f + k % 2 ^ fracBits f, by omega, by omega, .inl (by omega)⟩

theorem gridVal_lt_succ (f : Fmt) (k : Nat) : gridVal f k < gridVal f (k + 1) := by
  obtain ⟨j, n, rfl, hn, h⟩ := exists_scaled f k
  rw [Nat.add_assoc, gridVal_scaled hn.le h, gridVal_scaled (Nat.succ_le_of_lt hn) (h.imp_left Nat.le_succ_of_le)]
  have : (0 : ℚ) < 2 ^ (leastExp f + j) := by positivity
  push_cast
  linarith

theorem gridVal_strictMono (f : Fmt) : StrictMono (gridVal f) := strictMono_nat_of_lt_succ (gridVal_lt_succ f)

theorem gridVal_zero : gridVal f 0 = 0 := by
  have h := gridVal_scaled (f := f) (j := 0) (n := 0) (Nat.zero_le _) (.inr rfl)
  simpa using h

theorem gridVal_pos (h : 0 < k) : 0 < gridVal f k := by
  rw [← gridVal_zero (f := f)]
  exact gridVal_strictMono f h

end

/-! ### Rounding to a grid and to integers, over the rationals and the reals -/

section
variable {K : Type} [Field K] [LinearOrder K] [IsStrictOrderedRing K] {f : Fmt} {r : Rnd} {neg : Bool} {x y : K} {j k n m : Nat}

/-- A mode rounds a magnitude down, up, or to the nearest. -/
inductive Way where
  | near
  | down
  | up

def wayOf : Rnd → Bool → Way
  | .rne, _ => .near
  | .rtz, _ => .down
  | .rup, true => .down
  | .rup, false => .up
  | .rdn, true => .up
  | .rdn, false => .down

/-- The integer n is what y rounds to. -/
def Way.toInt (w : Way) (y : K) (n : Nat) : Prop :=
  match w with
  | .near => (2 * (n : K) - 1 ≤ 2 * y ∧ (2 * (n : K) - 1 = 2 * y → n % 2 = 0)) ∧ 2 * y ≤ 2 * n + 1 ∧ (2 * y = 2 * n + 1 → n % 2 = 0)
  | .down => (n : K) ≤ y ∧ y < n + 1
  | .up => y ≤ n ∧ (n : K) - 1 < y

/-- A point of the grid. -/
def gridIn (K : Type) [Field K] (f : Fmt) (k : Nat) : K := (gridVal f k : ℚ)

/-- The grid point k is what x rounds to. -/
def Way.toGrid (w : Way) (f : Fmt) (x : K) (k : Nat) : Prop :=
  match w with
  | .near => (0 < k → gridIn K f (k - 1) + gridIn K f k ≤ 2 * x ∧ (gridIn K f (k - 1) + gridIn K f k = 2 * x → k % 2 = 0)) ∧
      2 * x ≤ gridIn K f k + gridIn K f (k + 1) ∧ (2 * x = gridIn K f k + gridIn K f (k + 1) → k % 2 = 0)
  | .down => gridIn K f k ≤ x ∧ x < gridIn K f (k + 1)
  | .up => x ≤ gridIn K f k ∧ (0 < k → gridIn K f (k - 1) < x)

theorem gridIn_strictMono : StrictMono (gridIn K f) := fun a b h => by
  unfold gridIn
  exact_mod_cast gridVal_strictMono f h

omit [Field K] [LinearOrder K] [IsStrictOrderedRing K] in
theorem roundsOnGrid_iff {x : ℚ} : RoundsOnGrid f r neg x k ↔ (wayOf r neg).toGrid f x k := by
  cases r <;> cases neg <;> simp only [RoundsOnGrid, wayOf, Way.toGrid, gridIn, Rat.cast_id]

/-- A value between two integers rounds to a number between them. -/
theorem Way.toInt_bounds {w : Way} (h : w.toInt y n) : ((m : K) ≤ y → m ≤ n) ∧ (y < m → n ≤ m) := by
  have hcast (a b : Nat) (hab : (a : K) < b + 1) : a ≤ b := by exact_mod_cast Nat.lt_succ_iff.1 (by exact_mod_cast hab)
  cases w with
  | near =>
    obtain ⟨⟨h1, -⟩, h2, -⟩ := h
    exact ⟨fun hm => hcast m n (by linarith), fun hm => hcast n m (by linarith)⟩
  | down =>
    obtain ⟨h1, h2⟩ := h
    exact ⟨fun hm => hcast m n (by linarith), fun hm => hcast n m (by linarith)⟩
  | up =>
    obtain ⟨h1, h2⟩ := h
    exact ⟨fun hm => hcast m n (by linarith), fun hm => hcast n m (by linarith)⟩

/-- A value of y units of an exponent rounds to as many units as y to an integer: the grid has the integers of that exponent up to the
next, and below the least of them its points lie closer. -/
theorem Way.toGrid_of_toInt {w : Way} (hx : x = y * (2 : K) ^ (leastExp f + j)) (h : w.toInt y n) (hfrac : 1 ≤ fracBits f)
    (hlow : (2 : K) ^ fracBits f ≤ y ∨ j = 0) (hup : y < (2 : K) ^ (fracBits f + 1)) :
    (n ≤ 2 ^ (fracBits f + 1) ∧ (2 ^ fracBits f ≤ n ∨ j = 0)) ∧ w.toGrid f x (j * 2 ^ fracBits f + n) := by
  have hle : n ≤ 2 ^ (fracBits f + 1) := (Way.toInt_bounds h).2 (by exact_mod_cast hup)
  have hge : 2 ^ fracBits f ≤ n ∨ j = 0 := hlow.imp_left fun hl => (Way.toInt_bounds h).1 (by exact_mod_cast hl)
  refine ⟨⟨hle, hge⟩, ?_⟩
  obtain ⟨c, hc, hpos⟩ : ∃ c : K, c = 2 ^ (leastExp f + j) ∧ 0 < c := ⟨_, rfl, by positivity⟩
  rw [← hc] at hx
  have hval {i : Nat} (hi : i ≤ 2 ^ (fracBits f + 1)) (hg : 2 ^ fracBits f ≤ i ∨ j = 0) :
      gridIn K f (j * 2 ^ fracBits f + i) = i * c := by
    rw [gridIn, gridVal_scaled hi hg, hc]
    push_cast
    rfl
  have hmono {a b : Nat} (hab : a < b) : gridIn K f a < gridIn K f b := gridIn_strictMono hab
  have hparity : (j * 2 ^ fracBits f + n) % 2 = n % 2 := by
    obtain ⟨i, hi⟩ := Nat.exists_eq_add_of_le hfrac
    rw [hi, Nat.pow_add, Nat.mul_comm, Nat.mul_assoc]
    omega
  have hn := hval hle hge
  -- the point above: either the next integer, or beyond the whole value
  have hnext : gridIn K f (j * 2 ^ fracBits f + n + 1) = (n + 1) * c ∨ (y < n ∧ n * c <
      gridIn K f (j * 2 ^ fracBits f + n + 1)) := by
    rcases hle.lt_or_eq with hlt | heq
    · left
      rw [Nat.add_assoc, hval hlt (hge.imp_left Nat.le_succ_of_le)]
      push_cast
      rfl
    · right
      refine ⟨?_, hn ▸ hmono (Nat.lt_succ_self _)⟩
      rw [heq]
      exact_mod_cast hup
  -- the point below: either the integer before, or one that the whole value exceeds
  have hprev (hk : 0 < j * 2 ^ fracBits f + n) : gridIn K f (j * 2 ^ fracBits f + n - 1) = (n - 1) * c ∨ ((n : K) ≤ y ∧
      gridIn K f (j * 2 ^ fracBits f + n - 1) < n * c) := by
    have hsub : (2 ^ fracBits f < n ∨ j = 0) ∨ (2 ^ fracBits f = n ∧ j ≠ 0) := by
      rcases hge with hge | hj
      · rcases hge.lt_or_eq with hlt | heq
        · exact .inl (.inl hlt)
        · by_cases hj : j = 0
          · exact .inl (.inr hj)
          · exact .inr ⟨heq, hj⟩
      · exact .inl (.inr hj)
    rcases hsub with hsub | ⟨heq, hj⟩
    · left
      have hn1 : 1 ≤ n := by
        rcases hsub with h | rfl
        · omega
        · omega
      rw [Nat.add_sub_assoc hn1, hval (by omega) (hsub.imp_left Nat.le_sub_one_of_lt), Nat.cast_sub hn1]
      push_cast
      rfl
    · right
      refine ⟨?_, hn ▸ hmono (by omega)⟩
      rw [← heq]
      push_cast
      exact hlow.resolve_right hj
  cases w with
  | near =>
    obtain ⟨⟨h1, t1⟩, h2, t2⟩ := h
    refine ⟨fun hk => ?_, ?_⟩
    · rw [hn, hparity, hx]
      rcases hprev hk with hp | ⟨hy, hp⟩
      · rw [hp]
        refine ⟨by nlinarith, fun he => t1 (mul_right_cancel₀ hpos.ne' ?_)⟩
        linarith
      · have hyc := mul_le_mul_of_nonneg_right hy hpos.le
        exact ⟨by linarith, fun he => absurd he (by linarith)⟩
    · rw [hn, hparity, hx]
      rcases hnext with hp | ⟨hy, hp⟩
      · rw [hp]
        refine ⟨by nlinarith, fun he => t2 (mul_right_cancel₀ hpos.ne' ?_)⟩
        linarith
      · have hyc := mul_lt_mul_of_pos_right hy hpos
        exact ⟨by linarith, fun he => absurd he (by linarith)⟩
  | down =>
    obtain ⟨h1, h2⟩ := h
    refine ⟨?_, ?_⟩
    · rw [hn, hx]
      exact mul_le_mul_of_nonneg_right h1 hpos.le
    · rw [hx]
      rcases hnext with hp | ⟨hy, hp⟩
      · rw [hp]
        exact mul_lt_mul_of_pos_right h2 hpos
      · exact (mul_lt_mul_of_pos_right hy hpos).trans hp
  | up =>
    obtain ⟨h1, h2⟩ := h
    refine ⟨?_, fun hk => ?_⟩
    · rw [hn, hx]
      exact mul_le_mul_of_nonneg_right h1 hpos.le
    · rw [hx]
      rcases hprev hk with hp | ⟨hy, hp⟩
      · rw [hp]
        exact mul_lt_mul_of_pos_right h2 hpos
      · exact hp.trans_le (mul_le_mul_of_nonneg_right hy hpos.le)

/-- What a whole part q and a fraction round to: q or q + 1. -/
theorem Way.toInt_split {w : Way} {q : Nat} {u : K} (up : Bool) (h0 : 0 ≤ u) (h1 : u < 1) (hy : y = q + u)
    (h : match w with
      | .near => up = true ↔ 1 < 2 * u ∨ (2 * u = 1 ∧ q % 2 = 1)
      | .down => up = false
      | .up => up = true ↔ u ≠ 0) : w.toInt y (if up then q + 1 else q) := by
  subst hy
  cases w with
  | near =>
    cases up with
    | true =>
      simp only [if_true]
      rcases h.1 rfl with hu | ⟨hu, hq⟩
      · exact ⟨⟨by push_cast; linarith, fun he => absurd he (by push_cast; linarith)⟩, by push_cast; linarith,
          fun he => absurd he (by push_cast; linarith)⟩
      · exact ⟨⟨by push_cast; linarith, fun _ => by omega⟩, by push_cast; linarith, fun he => absurd he (by push_cast; linarith)⟩
    | false =>
      simp only [Bool.false_eq_true, if_false]
      have hu : 2 * u ≤ 1 := not_lt.1 fun hu => nomatch h.2 (.inl hu)
      refine ⟨⟨by linarith, fun he => absurd he (by linarith)⟩, by linarith, fun he => ?_⟩
      have hq : ¬ q % 2 = 1 := fun hq => nomatch h.2 (.inr ⟨by linarith, hq⟩)
      omega
  | down =>
    obtain rfl : up = false := h
    exact ⟨by simpa using h0, by simpa using h1⟩
  | up =>
    cases up with
    | true =>
      have hu : 0 < u := h0.lt_of_ne' (h.1 rfl)
      exact ⟨by simp only [if_true]; push_cast; linarith, by simp only [if_true]; push_cast; linarith⟩
    | false =>
      obtain rfl : u = 0 := by_contra fun hu => nomatch h.2 hu
      exact ⟨by simp, by simp⟩

/-- Dividing by a power of two with a rounding mode. -/
theorem roundShift_toInt (r : Rnd) (neg : Bool) (m k : Nat) : (wayOf r neg).toInt ((m : K) / 2 ^ k) (roundShift r neg m k) := by
  have hpos : 0 < 2 ^ k := by positivity
  have hposK : (0 : K) < 2 ^ k := by positivity
  obtain ⟨q, hq⟩ : ∃ q, q = m / 2 ^ k := ⟨_, rfl⟩
  obtain ⟨i, hi⟩ : ∃ i, i = m % 2 ^ k := ⟨_, rfl⟩
  have hlt : i < 2 ^ k := hi ▸ Nat.mod_lt m hpos
  have hy : (m : K) / 2 ^ k = q + i / 2 ^ k := by
    have hm : m = 2 ^ k * q + i := by rw [hq, hi, Nat.div_add_mod]
    rw [hm]
    push_cast
    field_simp
  have h1 : (i : K) / 2 ^ k < 1 := (div_lt_one hposK).2 (by exact_mod_cast hlt)
  have hgt : 2 ^ k < 2 * i ↔ 1 < 2 * ((i : K) / 2 ^ k) := by
    rw [← mul_div_assoc, lt_div_iff₀ hposK, one_mul]
    exact_mod_cast Iff.rfl
  have heq : 2 * i = 2 ^ k ↔ 2 * ((i : K) / 2 ^ k) = 1 := by
    rw [← mul_div_assoc, div_eq_one_iff_eq hposK.ne']
    exact_mod_cast Iff.rfl
  have hz : i ≠ 0 ↔ (i : K) / 2 ^ k ≠ 0 := by
    rw [ne_eq, ne_eq, div_eq_zero_iff, or_iff_left hposK.ne', Nat.cast_eq_zero]
  have hnz (h : 1 < 2 * ((i : K) / 2 ^ k) ∨ (2 * ((i : K) / 2 ^ k) = 1 ∧ q % 2 = 1)) : (i : K) / 2 ^ k ≠ 0 := by
    rw [← hgt, ← heq] at h
    exact hz.1 (by omega)
  unfold roundShift
  rw [← hq, ← hi]
  refine Way.toInt_split _ (by positivity) h1 hy ?_
  cases r with
  | rne =>
    simp only [wayOf, Bool.and_eq_true, Bool.or_eq_true, decide_eq_true_eq, hgt, heq, hz]
    exact ⟨And.right, fun h => ⟨hnz h, h⟩⟩
  | rtz => simp [wayOf]
  | rup => cases neg <;> simp only [wayOf, Bool.and_eq_true, decide_eq_true_eq, Bool.not_false, Bool.not_true, Bool.false_and,
      Bool.and_false, true_and, hz, and_self]
  | rdn => cases neg <;> simp only [wayOf, Bool.and_eq_true, decide_eq_true_eq, Bool.false_and, Bool.true_and, Bool.and_false, hz,
      and_self]

/-- A significand shifted left is exact. -/
theorem toInt_self (w : Way) (n : Nat) : w.toInt (n : K) n := by
  have h := Way.toInt_split (K := K) (w := w) (q := n) (u := 0) (y := (n : K)) false le_rfl one_pos (by simp) (by cases w <;> simp)
  simpa using h

/-! ### Significands -/

/-- The significand of a rounded value before a carry out of it, and its exponent. -/
def rawSig (fb : Nat) (emin : Int) (r : Rnd) (neg : Bool) (m : Nat) (e : Int) : Nat × Int :=
  let q : Int := max (emin - fb) (m.log2 + e - fb)
  (if q ≤ e then m * 2 ^ (e - q).toNat else roundShift r neg m (q - e).toNat, q)

theorem roundSig_eq (fb : Nat) (emin : Int) (r : Rnd) (neg : Bool) (m : Nat) (e : Int) : roundSig fb emin r neg m e =
    if (rawSig fb emin r neg m e).1 = 2 ^ (fb + 1) then (2 ^ fb, (rawSig fb emin r neg m e).2 + 1) else rawSig fb emin r neg m e := rfl

/-- Units of e in units of q. -/
theorem units_eq {e q : Int} : y * 2 ^ e = y * 2 ^ (e - q) * 2 ^ q := by
  rw [mul_assoc, ← zpow_add₀ (by norm_num), sub_add_cancel]

theorem rawSig_toInt {fb : Nat} {emin e q : Int} (hq : q = (rawSig fb emin r neg m e).2) :
    (wayOf r neg).toInt ((m : K) * 2 ^ (e - q)) (rawSig fb emin r neg m e).1 := by
  simp only [rawSig] at hq ⊢
  rw [← hq]
  split
  next h =>
    obtain ⟨d, hd⟩ : ∃ d : Nat, e - q = d := ⟨(e - q).toNat, by omega⟩
    rw [hd, Int.toNat_natCast, zpow_natCast]
    have := toInt_self (K := K) (wayOf r neg) (m * 2 ^ d)
    push_cast at this
    exact this
  next h =>
    obtain ⟨d, hd⟩ : ∃ d : Nat, q - e = d := ⟨(q - e).toNat, by omega⟩
    rw [hd, Int.toNat_natCast, show e - q = -(d : Int) by omega, zpow_neg, zpow_natCast, ← div_eq_mul_inv]
    exact roundShift_toInt ..

/-- The exponent of a significand is that of its greatest bit, or the least. -/
theorem rawSig_bounds {e : Int} (hm : 0 < m) : ∃ j : Nat, (rawSig (fracBits f) (1 - (fmtFacts f).2.2) r neg m e).2 = leastExp f + j ∧
    ((2 : K) ^ fracBits f ≤ (m : K) * 2 ^ (e - (leastExp f + j)) ∨ j = 0) ∧
      (m : K) * 2 ^ (e - (leastExp f + j)) < 2 ^ (fracBits f + 1) := by
  have hexp : (rawSig (fracBits f) (1 - (fmtFacts f).2.2) r neg m e).2 = max (leastExp f) (m.log2 + e - fracBits f) := rfl
  obtain ⟨j, hj⟩ : ∃ j : Nat, max (leastExp f) (m.log2 + e - fracBits f) = leastExp f + j :=
    ⟨(max (leastExp f) (m.log2 + e - fracBits f) - leastExp f).toNat, by omega⟩
  have hlo : (2 : K) ^ (m.log2 : Int) ≤ m := by
    rw [zpow_natCast]
    exact_mod_cast Nat.log2_self_le hm.ne'
  have hhi : (m : K) < 2 ^ ((m.log2 : Int) + 1) := by
    rw [← Nat.cast_succ, zpow_natCast]
    exact_mod_cast Nat.lt_log2_self
  have hpos : (0 : K) < 2 ^ (e - (leastExp f + j)) := by positivity
  refine ⟨j, hexp.trans hj, ?_, ?_⟩
  · by_cases hc : leastExp f < m.log2 + e - fracBits f
    · left
      calc (2 : K) ^ fracBits f = 2 ^ ((m.log2 : Int) + (e - (leastExp f + j))) := by
            rw [show (m.log2 : Int) + (e - (leastExp f + j)) = (fracBits f : Nat) by omega, zpow_natCast]
        _ = 2 ^ (m.log2 : Int) * 2 ^ (e - (leastExp f + j)) := zpow_add₀ (by norm_num) _ _
        _ ≤ m * 2 ^ (e - (leastExp f + j)) := mul_le_mul_of_nonneg_right hlo hpos.le
    · right
      omega
  · calc (m : K) * 2 ^ (e - (leastExp f + j)) < 2 ^ ((m.log2 : Int) + 1) * 2 ^ (e - (leastExp f + j)) :=
          mul_lt_mul_of_pos_right hhi hpos
      _ = 2 ^ ((m.log2 : Int) + 1 + (e - (leastExp f + j))) := (zpow_add₀ (by norm_num) _ _).symm
      _ ≤ 2 ^ ((fracBits f + 1 : Nat) : Int) := zpow_le_zpow_right₀ (by norm_num) (by push_cast; omega)
      _ = 2 ^ (fracBits f + 1) := zpow_natCast _ _

/-- A significand that y units round to names the grid point to which they round. -/
theorem roundSig_toGrid_of {e : Int} (hj : (rawSig (fracBits f) (1 - (fmtFacts f).2.2) r neg m e).2 = leastExp f + j)
    (hx : x = y * 2 ^ (leastExp f + j)) (hint : (wayOf r neg).toInt y (rawSig (fracBits f) (1 - (fmtFacts f).2.2) r neg m e).1)
    (hfrac : 1 ≤ fracBits f) (hlow : (2 : K) ^ fracBits f ≤ y ∨ j = 0) (hup : y < 2 ^ (fracBits f + 1)) :
    ∃ j n : Nat, roundSig (fracBits f) (1 - (fmtFacts f).2.2) r neg m e = (n, leastExp f + j) ∧ n < 2 ^ (fracBits f + 1) ∧
      (2 ^ fracBits f ≤ n ∨ j = 0) ∧ (wayOf r neg).toGrid f x (j * 2 ^ fracBits f + n) := by
  obtain ⟨⟨hn, hg⟩, hgrid⟩ := Way.toGrid_of_toInt hx hint hfrac hlow hup
  rw [roundSig_eq]
  split
  next hc =>
    refine ⟨j + 1, 2 ^ fracBits f, by rw [hj, add_assoc]; rfl, Nat.pow_lt_pow_right (by omega) (by omega), .inl le_rfl, ?_⟩
    rw [hc] at hgrid
    rwa [show (j + 1) * 2 ^ fracBits f + 2 ^ fracBits f = j * 2 ^ fracBits f + 2 ^ (fracBits f + 1) by ring]
  next hc => exact ⟨j, _, Prod.ext rfl hj, lt_of_le_of_ne hn hc, hg, hgrid⟩

/-- 04 R99: the significand of a rounded value names the grid point to which it rounds. -/
theorem roundSig_toGrid {e : Int} (hfrac : 1 ≤ fracBits f) (hm : 0 < m) :
    ∃ j n : Nat, roundSig (fracBits f) (1 - (fmtFacts f).2.2) r neg m e = (n, leastExp f + j) ∧ n < 2 ^ (fracBits f + 1) ∧
      (2 ^ fracBits f ≤ n ∨ j = 0) ∧ (wayOf r neg).toGrid f ((m : K) * 2 ^ e) (j * 2 ^ fracBits f + n) := by
  obtain ⟨j, hj, hlow, hup⟩ := rawSig_bounds (K := K) (f := f) (r := r) (neg := neg) (e := e) hm
  exact roundSig_toGrid_of hj units_eq (rawSig_toInt hj.symm) hfrac hlow hup

end

end Sys2Proof.Machine
end

section
/-!
What bits stand for (04 R98, R100, R103), and the bits of rounded values (04 R99, R104).
-/

namespace Sys2Proof.Machine

open Sys2Proof Sys2Proof.Spec

/-! ### The fields of a format -/

/-- The exponent bits of a format. -/
abbrev expBits (f : Fmt) : Nat := (fmtFacts f).1

section
variable {f : Fmt} {v k m : Nat} {neg : Bool} {r : Rnd} {e : Int} {ty : FTy}

theorem fpOfFmt_fb : (fpOfFmt f).fb = fracBits f := by cases f <;> rfl
theorem fpOfFmt_eb : (fpOfFmt f).eb = expBits f := by cases f <;> rfl
theorem fpOfFmt_bias : (fpOfFmt f).bias = (fmtFacts f).2.2 := by cases f <;> rfl
theorem fpOfFmt_e4 : (fpOfFmt f).e4 = decide (f = .e4m3) := by cases f <;> rfl
theorem fpOf_eq : fpOf ty = fpOfFmt (ftyFmt ty) := by cases ty <;> rfl
theorem ftyFmt_ne : ftyFmt ty ≠ .e4m3 := by cases ty <;> decide

theorem one_le_fracBits (f : Fmt) : 1 ≤ fracBits f := by cases f <;> decide
theorem two_le_expBits (f : Fmt) : 2 ≤ expBits f := by cases f <;> decide

theorem topOf_succ (h : f ≠ .e4m3) : topOf f + 1 = (2 ^ expBits f - 1) * 2 ^ fracBits f := by
  revert h
  cases f <;> decide

theorem topOf_e4m3 : topOf .e4m3 = 126 := rfl

theorem qnan_eq : (fpOfFmt f).qnan = canonicalNaN f := by cases f <;> rfl
theorem maxBits_eq : (fpOfFmt f).maxBits = topOf f := by cases f <;> rfl
theorem sign_eq : (fpOfFmt f).sign neg = if neg then signBit f else 0 := by
  unfold FpFmt.sign signBit
  rw [fpOfFmt_eb, fpOfFmt_fb]
theorem infBits_eq (h : f ≠ .e4m3) : (fpOfFmt f).infBits neg = (if neg then signBit f else 0) + topOf f + 1 := by
  rw [FpFmt.infBits, sign_eq, fpOfFmt_eb, fpOfFmt_fb, Nat.add_assoc, topOf_succ h]

theorem signBit_eq : signBit f = 2 ^ fracBits f * 2 ^ expBits f := by
  unfold signBit
  rw [Nat.pow_add, Nat.mul_comm]

theorem signBit_pos : 0 < signBit f := by
  unfold signBit
  positivity

/-- The fields of a value, of its sign and magnitude. -/
theorem field_frac : v % 2 ^ fracBits f = v % signBit f % 2 ^ fracBits f := by
  rw [signBit_eq, Nat.mod_mul_right_mod]

theorem field_exp : v / 2 ^ fracBits f % 2 ^ expBits f = v % signBit f / 2 ^ fracBits f := by
  rw [signBit_eq, Nat.mod_mul_right_div_self]

theorem field_sign (hv : v < 2 * signBit f) : (v / 2 ^ (fracBits f + expBits f) % 2 = 1) = (signBit f ≤ v) := by
  rw [Nat.pow_add, ← signBit_eq]
  have hq := Nat.div_add_mod v (signBit f)
  have hm := Nat.mod_lt v (signBit_pos (f := f))
  have h2 : v / signBit f < 2 := Nat.div_lt_of_lt_mul (by rwa [Nat.mul_comm] at hv)
  apply propext
  generalize v / signBit f = q at hq h2 ⊢
  rcases (show q = 0 ∨ q = 1 by omega) with rfl | rfl <;> omega

theorem dec_eq (hv : v < 2 * signBit f) : (fpOfFmt f).dec v =
    let k := v % signBit f
    let neg := decide (signBit f ≤ v)
    if k / 2 ^ fracBits f = 2 ^ expBits f - 1 ∧ f ≠ .e4m3 then (if k % 2 ^ fracBits f = 0 then .inf neg else .nan)
    else if f = .e4m3 ∧ k / 2 ^ fracBits f = 15 ∧ k % 2 ^ fracBits f = 7 then .nan
    else if k / 2 ^ fracBits f = 0 then .fin neg (k % 2 ^ fracBits f) (leastExp f)
    else .fin neg (2 ^ fracBits f + k % 2 ^ fracBits f) ((k / 2 ^ fracBits f : Nat) - (fmtFacts f).2.2 - fracBits f) := by
  have hfrac := field_frac (f := f) (v := v)
  have hexp := field_exp (f := f) (v := v)
  generalize v % signBit f = k at hfrac hexp
  simp only [FpFmt.dec, fpOfFmt_fb, fpOfFmt_eb, fpOfFmt_bias, fpOfFmt_e4, hfrac, hexp, field_sign hv, leastExp]
  by_cases h4 : f = .e4m3 <;> simp [h4]

/-- The greatest exponent is that of the infinities and NaNs. -/
theorem exp_top (h4 : f ≠ .e4m3) : v % signBit f / 2 ^ fracBits f = 2 ^ expBits f - 1 ↔ topOf f < v % signBit f := by
  have hpos : 0 < 2 ^ fracBits f := by positivity
  have hlt : v % signBit f / 2 ^ fracBits f < 2 ^ expBits f :=
    Nat.div_lt_of_lt_mul (signBit_eq (f := f) ▸ Nat.mod_lt v signBit_pos)
  have hle := Nat.le_div_iff_mul_le hpos (x := 2 ^ expBits f - 1) (y := v % signBit f)
  rw [← topOf_succ h4] at hle
  omega

/-- Of them the infinity has no fraction. -/
theorem frac_top (h4 : f ≠ .e4m3) (h : topOf f < v % signBit f) :
    v % signBit f % 2 ^ fracBits f = v % signBit f - (topOf f + 1) := by
  have hdm := Nat.div_add_mod' (v % signBit f) (2 ^ fracBits f)
  rw [(exp_top h4).2 h, ← topOf_succ h4] at hdm
  omega

/-- 04 R98, R103: the finite values. -/
theorem dec_fin (hv : v < 2 * signBit f) (hk : v % signBit f ≤ topOf f) : ∃ j n : Nat,
    v % signBit f = j * 2 ^ fracBits f + n ∧ n < 2 ^ (fracBits f + 1) ∧ (2 ^ fracBits f ≤ n ∨ j = 0) ∧
      (fpOfFmt f).dec v = .fin (decide (signBit f ≤ v)) n (leastExp f + j) := by
  have hpos : 0 < 2 ^ fracBits f := by positivity
  have hinf : ¬ (v % signBit f / 2 ^ fracBits f = 2 ^ expBits f - 1 ∧ f ≠ .e4m3) := by
    rintro ⟨h, h4⟩
    exact absurd hk (not_le.2 ((exp_top h4).1 h))
  have hnan : ¬ (f = .e4m3 ∧ v % signBit f / 2 ^ fracBits f = 15 ∧ v % signBit f % 2 ^ fracBits f = 7) := by
    rintro ⟨rfl, h15, h7⟩
    have := Nat.div_add_mod (v % signBit .e4m3) (2 ^ fracBits .e4m3)
    rw [h15, h7] at this
    rw [topOf_e4m3, ← this] at hk
    exact absurd hk (by decide)
  rw [dec_eq hv]
  simp only [if_neg hinf, if_neg hnan]
  have hpow : 2 ^ (fracBits f + 1) = 2 ^ fracBits f + 2 ^ fracBits f := by ring
  have hmod := Nat.mod_lt (v % signBit f) hpos
  have hdm := Nat.div_add_mod' (v % signBit f) (2 ^ fracBits f)
  cases hd : v % signBit f / 2 ^ fracBits f with
  | zero =>
    rw [hd] at hdm
    exact ⟨0, v % signBit f % 2 ^ fracBits f, by omega, by omega, .inr rfl, by simp⟩
  | succ j =>
    rw [hd, Nat.succ_mul] at hdm
    refine ⟨j, 2 ^ fracBits f + v % signBit f % 2 ^ fracBits f, by omega, by omega, .inl (by omega), ?_⟩
    rw [if_neg (Nat.succ_ne_zero j)]
    congr 1
    unfold leastExp
    push_cast
    ring

/-- Their magnitude is that of the grid. -/
theorem dec_gridVal (hv : v < 2 * signBit f) (hk : v % signBit f ≤ topOf f) :
    ∃ m e, (fpOfFmt f).dec v = .fin (decide (signBit f ≤ v)) m e ∧ (m : ℚ) * (2 : ℚ) ^ e = gridVal f (v % signBit f) := by
  obtain ⟨j, n, hj, hn, hg, hd⟩ := dec_fin hv hk
  exact ⟨n, _, hd, by rw [hj, gridVal_scaled hn.le hg]⟩

/-- 04 R98, R100, R103: infinities and NaNs. -/
theorem dec_top (hv : v < 2 * signBit f) (hk : topOf f < v % signBit f) :
    (fpOfFmt f).dec v = if f ≠ .e4m3 ∧ v % signBit f = topOf f + 1 then .inf (decide (signBit f ≤ v)) else .nan := by
  rw [dec_eq hv]
  by_cases h4 : f = .e4m3
  · subst h4
    have hlt := Nat.mod_lt v (signBit_pos (f := .e4m3))
    have hk' : v % signBit .e4m3 = 127 := by
      rw [topOf_e4m3] at hk
      rw [show signBit .e4m3 = 128 from rfl] at hlt hk ⊢
      omega
    rw [hk']
    rfl
  · have hz : v % signBit f - (topOf f + 1) = 0 ↔ v % signBit f = topOf f + 1 := by omega
    simp only [(exp_top h4).2 hk, frac_top h4 hk, true_and, ne_eq, h4, not_false_eq_true, if_true, hz]

/-- What a value of 16, 32 or 64 bits is. -/
theorem dec_cases (h4 : f ≠ .e4m3) (hv : v < 2 * signBit f) :
    (v % signBit f ≤ topOf f ∧ ∃ m e, (fpOfFmt f).dec v = .fin (decide (signBit f ≤ v)) m e ∧
      (m : ℚ) * (2 : ℚ) ^ e = gridVal f (v % signBit f)) ∨
    (v % signBit f = topOf f + 1 ∧ (fpOfFmt f).dec v = .inf (decide (signBit f ≤ v))) ∨
    (topOf f + 1 < v % signBit f ∧ (fpOfFmt f).dec v = .nan) := by
  rcases le_or_gt (v % signBit f) (topOf f) with h | h
  · exact .inl ⟨h, dec_gridVal hv h⟩
  · rw [dec_top hv h]
    rcases (show v % signBit f = topOf f + 1 ∨ topOf f + 1 < v % signBit f by omega) with he | he
    · exact .inr (.inl ⟨he, if_pos ⟨h4, he⟩⟩)
    · exact .inr (.inr ⟨he, if_neg fun hc => he.ne' hc.2⟩)

/-! ### The bits of a rounded value -/

theorem pow_le_topOf (f : Fmt) : 2 ^ fracBits f ≤ topOf f + 1 := by cases f <;> decide

theorem overflowInf_iff : overflowInf r neg = true ↔ r = .rne ∨ (r = .rup ∧ neg = false) ∨ (r = .rdn ∧ neg = true) := by
  cases r <;> cases neg <;> decide

/-- 04 R99: the bits that a significand and its exponent give, or what an overflow gives. -/
theorem round_of_roundSig {j n : Nat} (h4 : f ≠ .e4m3) (hm : 0 < m)
    (hsig : roundSig (fracBits f) (1 - (fmtFacts f).2.2) r neg m e = (n, leastExp f + j)) (hn : n < 2 ^ (fracBits f + 1))
    (hg : 2 ^ fracBits f ≤ n ∨ j = 0) : (fpOfFmt f).round r neg m e = ieeeBits f r neg (j * 2 ^ fracBits f + n) := by
  have htop := topOf_succ h4
  have hpow : 2 ^ (fracBits f + 1) = 2 ^ fracBits f + 2 ^ fracBits f := by ring
  have hexp : leastExp f + j + fracBits f + (fmtFacts f).2.2 = (j + 1 : Nat) := by
    unfold leastExp
    push_cast
    ring
  have hover : ((2 : Int) ^ expBits f - 1 ≤ (j + 1 : Nat)) ↔ 2 ^ expBits f - 1 ≤ j + 1 := by
    have := Nat.one_le_two_pow (n := expBits f)
    rw [← Nat.cast_le (α := Int), Nat.cast_sub this]
    push_cast
    rfl
  simp only [FpFmt.round, hm.ne', if_false, fpOfFmt_fb, fpOfFmt_bias, fpOfFmt_eb, hsig, hexp, hover, sign_eq, infBits_eq h4,
    maxBits_eq, ieeeBits]
  generalize (if neg = true then signBit f else 0) = sg
  by_cases hsub : n < 2 ^ fracBits f
  · obtain rfl : j = 0 := hg.resolve_left (by omega)
    have := pow_le_topOf f
    rw [if_pos hsub, if_pos (by omega), Nat.zero_mul, Nat.zero_add]
  · rw [if_neg hsub]
    obtain ⟨i, rfl⟩ := Nat.exists_eq_add_of_le (not_lt.1 hsub)
    have hk : j * 2 ^ fracBits f + (2 ^ fracBits f + i) = (j + 1) * 2 ^ fracBits f + i := by ring
    rw [hk]
    by_cases hbig : 2 ^ expBits f - 1 ≤ j + 1
    · have := Nat.mul_le_mul_right (2 ^ fracBits f) hbig
      rw [if_pos hbig, if_neg (show ¬ (j + 1) * 2 ^ fracBits f + i ≤ topOf f by omega)]
      by_cases ho : overflowInf r neg = true
      · rw [if_pos ho, if_pos (overflowInf_iff.1 ho), Nat.add_assoc]
      · rw [if_neg ho, if_neg fun h => ho (overflowInf_iff.2 h)]
    · have hle : (j + 1 + 1) * 2 ^ fracBits f ≤ (2 ^ expBits f - 1) * 2 ^ fracBits f := Nat.mul_le_mul_right _ (by omega)
      have hexpand : (j + 1 + 1) * 2 ^ fracBits f = (j + 1) * 2 ^ fracBits f + 2 ^ fracBits f := by ring
      rw [if_neg hbig, if_pos (by omega), Int.toNat_natCast, Nat.add_sub_cancel_left, Nat.add_assoc]

/-- 04 R99: the bits of the grid point to which a value rounds. -/
theorem round_eq_ieeeBits {K : Type} [Field K] [LinearOrder K] [IsStrictOrderedRing K] (h4 : f ≠ .e4m3) (hm : 0 < m) :
    ∃ k, (wayOf r neg).toGrid f ((m : K) * 2 ^ e) k ∧ (fpOfFmt f).round r neg m e = ieeeBits f r neg k := by
  obtain ⟨j, n, hsig, hn, hg, hgrid⟩ := roundSig_toGrid (K := K) (r := r) (neg := neg) (e := e) (one_le_fracBits f) hm
  exact ⟨_, hgrid, round_of_roundSig h4 hm hsig hn hg⟩

/-- 04 R104: the bits of a value rounded to e4m3 or e5m2. -/
theorem toFp8_eq_fp8Bits {nosat : Bool} (hf : f = .e4m3 ∨ f = .e5m2) (hm : 0 < m) :
    ∃ k, (wayOf r neg).toGrid f ((m : ℚ) * 2 ^ e) k ∧ toFp8 (fpOfFmt f) r nosat (.fin neg m e) = fp8Bits f nosat neg k := by
  obtain ⟨j, n, hsig, hn, hg, hgrid⟩ := roundSig_toGrid (K := ℚ) (r := r) (neg := neg) (e := e) (one_le_fracBits f) hm
  refine ⟨_, hgrid, ?_⟩
  have hexp : leastExp f + j + fracBits f + (fmtFacts f).2.2 = (j + 1 : Nat) := by
    unfold leastExp
    push_cast
    ring
  simp only [toFp8, hm.ne', if_false, fpOfFmt_fb, fpOfFmt_bias, fpOfFmt_e4, hsig, hexp, sign_eq, maxBits_eq, fp8Bits]
  have hinf (h : f = .e5m2) : (fpOfFmt f).infBits neg = (if neg = true then signBit f else 0) + topOf f + 1 := infBits_eq (by simp [h])
  generalize (if neg = true then signBit f else 0) = sg at hinf ⊢
  by_cases hsub : n < 2 ^ fracBits f
  · obtain rfl : j = 0 := hg.resolve_left (by omega)
    have := pow_le_topOf f
    rw [if_pos hsub, if_pos (by omega), Nat.zero_mul, Nat.zero_add]
  · rw [if_neg hsub]
    obtain ⟨i, rfl⟩ := Nat.exists_eq_add_of_le (not_lt.1 hsub)
    have hk : j * 2 ^ fracBits f + (2 ^ fracBits f + i) = (j + 1) * 2 ^ fracBits f + i := by ring
    have hbits : ((j + 1 : Nat) : Int) * 2 ^ fracBits f + ((2 ^ fracBits f + i : Nat) - 2 ^ fracBits f) =
        ((j + 1) * 2 ^ fracBits f + i : Nat) := by
      push_cast
      ring
    rw [hk, hbits]
    by_cases hbig : (j + 1) * 2 ^ fracBits f + i ≤ topOf f
    · rw [if_neg (by omega), if_pos hbig, Int.toNat_natCast]
    · rw [if_pos (by omega), if_neg hbig]
      rcases hf with rfl | rfl
      · cases nosat <;> rfl
      · cases nosat
        · rfl
        · exact hinf rfl

end

end Sys2Proof.Machine
end

section
/-!
Exact arithmetic (06 R156), the least and greatest (04 R101) and classes (06 R159).
-/

namespace Sys2Proof.Machine

open Sys2Proof Sys2Proof.Spec

/-! ### Exact arithmetic -/

section
variable {na nb neg rdn : Bool} {ma mb m : Nat} {ea eb e : Int} {x : Machine.Num}

theorem ratOf_fin : ratOf (.fin neg m e) = (Num.int m neg : ℚ) * 2 ^ e := by
  cases neg <;> simp [ratOf, Num.int]

theorem ratOf_eq_zero : ratOf (.fin neg m e) = 0 ↔ m = 0 := by
  have h2 : (2 : ℚ) ^ e ≠ 0 := by positivity
  cases neg <;> simp [ratOf, h2]

/-- A number in units of a lesser exponent. -/
theorem ratOf_units (h : e ≤ ea) : ratOf (.fin na ma ea) = ((Num.int ma na * 2 ^ (ea - e).toNat : Int) : ℚ) * 2 ^ e := by
  obtain ⟨d, hd⟩ : ∃ d : Nat, ea = e + d := ⟨(ea - e).toNat, by omega⟩
  subst hd
  rw [ratOf_fin, add_sub_cancel_left, Int.toNat_natCast, add_comm, zpow_add₀ (by norm_num), zpow_natCast]
  push_cast
  ring

theorem int_natAbs (v : Int) : Num.int v.natAbs (decide (v < 0)) = v := by
  by_cases h : v < 0 <;> simp only [Num.int, h, decide_true, decide_false, if_true, Bool.false_eq_true, if_false] <;> omega

/-- 06 R156: the exact sum, and the sign of an exact zero. -/
theorem add_fin : ∃ n m e, Num.add rdn (.fin na ma ea) (.fin nb mb eb) = .fin n m e ∧
    ratOf (.fin n m e) = ratOf (.fin na ma ea) + ratOf (.fin nb mb eb) ∧
    (ratOf (.fin na ma ea) + ratOf (.fin nb mb eb) = 0 → n = if na = nb then na else rdn) := by
  unfold Num.add
  by_cases hz : ma = 0 ∧ mb = 0
  · obtain ⟨rfl, rfl⟩ := hz
    exact ⟨_, _, _, rfl, by simp [ratOf], fun _ => rfl⟩
  · have hsum : ratOf (.fin na ma ea) + ratOf (.fin nb mb eb) = ((Num.int ma na * 2 ^ (ea - min ea eb).toNat +
        Num.int mb nb * 2 ^ (eb - min ea eb).toNat : Int) : ℚ) * 2 ^ min ea eb := by
      rw [ratOf_units (min_le_left ea eb), ratOf_units (min_le_right ea eb)]
      push_cast
      ring
    simp only [Bool.and_eq_true, decide_eq_true_eq, if_neg hz]
    by_cases hv : Num.int ma na * 2 ^ (ea - min ea eb).toNat + Num.int mb nb * 2 ^ (eb - min ea eb).toNat = 0
    · rw [if_pos hv]
      rw [hv, Int.cast_zero, zero_mul] at hsum
      refine ⟨_, _, _, rfl, by rw [hsum]; simp [ratOf], fun _ => ?_⟩
      rw [if_neg]
      rintro rfl
      have hpa := Int.pow_pos (n := 2) (m := (ea - min ea eb).toNat) two_pos
      have hpb := Int.pow_pos (n := 2) (m := (eb - min ea eb).toNat) two_pos
      have ha := mul_nonneg (Int.natCast_nonneg ma) hpa.le
      have hb := mul_nonneg (Int.natCast_nonneg mb) hpb.le
      have h0 : (ma : Int) * 2 ^ (ea - min ea eb).toNat = 0 ∧ (mb : Int) * 2 ^ (eb - min ea eb).toNat = 0 := by
        cases na <;> simp only [Num.int, if_true, Bool.false_eq_true, if_false, neg_mul] at hv <;> omega
      exact hz ⟨by simpa [hpa.ne'] using h0.1, by simpa [hpb.ne'] using h0.2⟩
    · rw [if_neg hv]
      refine ⟨_, _, _, rfl, by rw [ratOf_fin, int_natAbs, hsum], fun h0 => absurd h0 ?_⟩
      rw [hsum]
      exact mul_ne_zero (by exact_mod_cast hv) (by positivity)

theorem mul_fin : Num.mul (.fin na ma ea) (.fin nb mb eb) = .fin (na != nb) (ma * mb) (ea + eb) := rfl

theorem ratOf_mul : ratOf (Num.mul (.fin na ma ea) (.fin nb mb eb)) = ratOf (.fin na ma ea) * ratOf (.fin nb mb eb) := by
  rw [mul_fin, ratOf_fin, ratOf_fin, ratOf_fin, zpow_add₀ (by norm_num)]
  cases na <;> cases nb <;> simp [Num.int] <;> ring

theorem ratOf_neg : ratOf (Num.neg (.fin na ma ea)) = -ratOf (.fin na ma ea) := by
  cases na <;> simp [ratOf, Num.neg]

theorem add_nan : Num.add rdn x .nan = .nan := by cases x <;> rfl

theorem mul_inf : Num.mul (.fin nb mb eb) (.inf na) = if mb = 0 then .nan else .inf (na != nb) := by
  rw [bne_comm (a := na)]
  rfl

theorem mul_nan : Num.mul x .nan = .nan := by cases x <;> rfl

/-- The order of finite numbers is that of their values. -/
theorem lt_fin : (Num.fin na ma ea).lt (.fin nb mb eb) = decide (ratOf (.fin na ma ea) < ratOf (.fin nb mb eb)) := by
  unfold Num.lt
  rw [ratOf_units (min_le_left ea eb), ratOf_units (min_le_right ea eb)]
  refine decide_eq_decide.2 ?_
  rw [mul_lt_mul_iff_left₀ (by positivity), Int.cast_lt]

end

/-! ### The least and the greatest -/

section
variable {f : Fmt} {a b v : Nat}

/-- 04 R101: the value before the other one, -0 before +0. -/
def Num.before (x y : Machine.Num) : Bool := if x.isZero && y.isZero then x.isNeg && !y.isNeg else x.lt y

theorem minMax_eq {g : FpFmt} {mx : Bool} : g.minMax mx a b =
    if (g.dec a).isNan && (g.dec b).isNan then g.qnan else if (g.dec a).isNan then b else if (g.dec b).isNan then a
    else if mx then (if (g.dec a).before (g.dec b) then b else a) else if (g.dec a).before (g.dec b) then a else b := rfl

theorem isNan_dec (h4 : f ≠ .e4m3) (hv : v < 2 * signBit f) : ((fpOfFmt f).dec v).isNan = decide (topOf f + 1 < v % signBit f) := by
  rcases dec_cases h4 hv with ⟨hk, m, e, hd, -⟩ | ⟨hk, hd⟩ | ⟨hk, hd⟩ <;> rw [hd] <;> simp [Num.isNan] <;> omega

theorem orderKey_eq (hv : v < 2 * signBit f) :
    orderKey f v = if signBit f ≤ v then -((v % signBit f : Nat) : Int) - 1 else ((v % signBit f : Nat) : Int) := by
  unfold orderKey
  by_cases h : v < signBit f
  · rw [if_pos h, if_neg (by omega), Nat.mod_eq_of_lt h]
  · rw [if_neg h, if_pos (by omega), Nat.mod_eq_sub_mod (by omega), Nat.mod_eq_of_lt (by omega)]

/-- A finite value is that of its grid point, with its sign. -/
theorem ratOf_of_gridVal {neg : Bool} {m k : Nat} {e : Int} (h : (m : ℚ) * 2 ^ e = gridVal f k) :
    ratOf (.fin neg m e) = if neg then -gridVal f k else gridVal f k := by
  rw [← h]
  cases neg <;> simp [ratOf]

theorem isZero_of_gridVal {neg : Bool} {m k : Nat} {e : Int} (h : (m : ℚ) * 2 ^ e = gridVal f k) :
    (Num.fin neg m e).isZero = decide (k = 0) := by
  have hm : m = 0 ↔ k = 0 := by
    constructor
    · rintro rfl
      by_contra hk
      exact (gridVal_pos (Nat.pos_of_ne_zero hk)).ne (by simpa using h)
    · rintro rfl
      rw [gridVal_zero] at h
      exact_mod_cast (mul_eq_zero.1 h).resolve_right (by positivity)
  cases m <;> simp_all [Num.isZero]

/-- Finite values stand in the order of their keys. -/
theorem before_fin {na nb : Bool} {ma mb i j : Nat} {ea eb : Int} (ha : (ma : ℚ) * 2 ^ ea = gridVal f i)
    (hb : (mb : ℚ) * 2 ^ eb = gridVal f j) : (Num.fin na ma ea).before (.fin nb mb eb) = true ↔
      (if na then -(i : Int) - 1 else i) < (if nb then -(j : Int) - 1 else j) := by
  have hmono : gridVal f i < gridVal f j ↔ i < j := (gridVal_strictMono f).lt_iff_lt
  have hmono' : gridVal f j < gridVal f i ↔ j < i := (gridVal_strictMono f).lt_iff_lt
  have hpos {k : Nat} : 0 ≤ gridVal f k := gridVal_zero (f := f) ▸ (gridVal_strictMono f).monotone (Nat.zero_le k)
  have hi := hpos (k := i)
  have hj := hpos (k := j)
  unfold Num.before
  rw [isZero_of_gridVal ha, isZero_of_gridVal hb, lt_fin, ratOf_of_gridVal ha, ratOf_of_gridVal hb]
  by_cases hz : i = 0 ∧ j = 0
  · obtain ⟨rfl, rfl⟩ := hz
    cases na <;> cases nb <;> simp [Num.isNeg]
  · have hz' : ¬ ((decide (i = 0) && decide (j = 0)) = true) := by simpa using hz
    rw [if_neg hz', decide_eq_true_eq]
    cases na <;> cases nb <;> simp only [Bool.false_eq_true, if_true, if_false]
    · rw [hmono, Int.ofNat_lt]
    · exact iff_of_false (by linarith) (by omega)
    · refine iff_of_true ?_ (by omega)
      rcases Nat.eq_zero_or_pos i with h0 | h0
      · have := gridVal_pos (f := f) (Nat.pos_of_ne_zero fun hj0 => hz ⟨h0, hj0⟩)
        linarith
      · have := gridVal_pos (f := f) h0
        linarith
    · rw [neg_lt_neg_iff, hmono']
      omega

/-- Values that are no NaN stand in the order of their keys. -/
theorem before_dec (h4 : f ≠ .e4m3) (ha : a < 2 * signBit f) (hb : b < 2 * signBit f) (hna : ¬ topOf f + 1 < a % signBit f)
    (hnb : ¬ topOf f + 1 < b % signBit f) :
    ((fpOfFmt f).dec a).before ((fpOfFmt f).dec b) = true ↔ orderKey f a < orderKey f b := by
  rw [orderKey_eq ha, orderKey_eq hb]
  rcases dec_cases h4 ha with ⟨hka, ma, ea, hda, hga⟩ | ⟨hka, hda⟩ | ⟨hka, -⟩
  · rcases dec_cases h4 hb with ⟨hkb, mb, eb, hdb, hgb⟩ | ⟨hkb, hdb⟩ | ⟨hkb, -⟩
    · rw [hda, hdb, before_fin hga hgb]
      simp only [decide_eq_true_eq]
    · rw [hda, hdb, hkb]
      simp only [Num.before, Num.isZero, Bool.and_false, Bool.false_eq_true, if_false, Num.lt, Bool.not_eq_true',
        decide_eq_false_iff_not]
      split <;> split <;> omega
    · exact absurd hkb hnb
  · rcases dec_cases h4 hb with ⟨hkb, mb, eb, hdb, -⟩ | ⟨hkb, hdb⟩ | ⟨hkb, -⟩
    · rw [hda, hdb, hka]
      simp only [Num.before, Num.isZero, Bool.false_and, Bool.false_eq_true, if_false, Num.lt, decide_eq_true_eq]
      split <;> split <;> omega
    · rw [hda, hdb, hka, hkb]
      simp only [Num.before, Num.isZero, Bool.and_false, Bool.false_eq_true, if_false, Num.lt, Bool.and_eq_true, Bool.not_eq_true',
        decide_eq_true_eq, decide_eq_false_iff_not]
      split <;> split <;> omega
    · exact absurd hkb hnb
  · exact absurd hka hna

/-- 06 R159: the class of a value. -/
theorem fclass_eq (h4 : f ≠ .e4m3) (hv : v < 2 * signBit f) : fclass (fpOfFmt f) v =
    if topOf f + 1 < v % signBit f then (if 2 ^ fracBits f / 2 ≤ v % signBit f % 2 ^ fracBits f then 512 else 256)
    else if v % signBit f = topOf f + 1 then (if decide (v < signBit f) then 128 else 1)
    else if 2 ^ fracBits f ≤ v % signBit f then (if decide (v < signBit f) then 64 else 2)
    else if 0 < v % signBit f then (if decide (v < signBit f) then 32 else 4)
    else if decide (v < signBit f) then 16 else 8 := by
  have htop := exp_top (v := v) h4
  have hfrac := frac_top (v := v) h4
  have hone : 1 ≤ 2 ^ expBits f - 1 := by
    have := Nat.pow_le_pow_right (show 0 < 2 by norm_num) (two_le_expBits f)
    omega
  have hz : v % signBit f / 2 ^ fracBits f = 0 ↔ v % signBit f < 2 ^ fracBits f := Nat.div_eq_zero_iff_lt (by positivity)
  have hhalf : v % signBit f % 2 ^ fracBits f / 2 ^ (fracBits f - 1) = 1 ↔ 2 ^ fracBits f / 2 ≤ v % signBit f % 2 ^ fracBits f := by
    have hp : 2 ^ fracBits f = 2 * 2 ^ (fracBits f - 1) := by
      rw [← Nat.pow_succ', Nat.succ_eq_add_one, Nat.sub_add_cancel (one_le_fracBits f)]
    have hlt := Nat.mod_lt (v % signBit f) (show 0 < 2 ^ fracBits f by positivity)
    rw [Nat.div_eq_iff (by positivity)]
    omega
  unfold fclass
  simp only [fpOfFmt_fb, fpOfFmt_eb, field_sign hv]
  rw [field_exp, field_frac]
  simp only [htop, hz, hhalf]
  have hsg : decide (v < signBit f) = !decide (signBit f ≤ v) := by rw [← decide_not, decide_eq_decide, not_le]
  rw [hsg]
  rcases lt_or_ge (topOf f) (v % signBit f) with ht | ht
  · rw [if_pos ht, hfrac ht]
    rcases (show topOf f + 1 < v % signBit f ∨ v % signBit f = topOf f + 1 by omega) with hnan | hinf
    · simp only [if_pos hnan, if_neg (show ¬ v % signBit f - (topOf f + 1) = 0 by omega)]
      split <;> rfl
    · simp only [hinf, Nat.sub_self, lt_irrefl, if_true, if_false]
      by_cases hn : signBit f ≤ v <;> simp [hn]
  · simp only [if_neg (not_lt.2 ht), if_neg (show ¬ topOf f + 1 < v % signBit f by omega),
      if_neg (show ¬ v % signBit f = topOf f + 1 by omega)]
    rcases lt_or_ge (v % signBit f) (2 ^ fracBits f) with hs | hs
    · rw [if_pos hs, if_neg (not_le.2 hs), Nat.mod_eq_of_lt hs]
      rcases Nat.eq_zero_or_pos (v % signBit f) with h0 | h0
      · by_cases hn : signBit f ≤ v <;> simp [hn, h0]
      · by_cases hn : signBit f ≤ v <;> simp [hn, h0, h0.ne']
    · rw [if_neg (not_lt.2 hs), if_pos hs]
      by_cases hn : signBit f ≤ v <;> simp [hn]

end

end Sys2Proof.Machine
end

section
/-!
Rounding to integers (04 R106, 06 R161), and integers in registers (04 R95, R105).
-/

namespace Sys2Proof.Machine

open Sys2Proof Sys2Proof.Spec

/-! ### Rounding to an integer -/

section
variable {f : Fmt} {r : Rnd} {neg : Bool} {j k m n v : Nat} {e : Int} {y : ℚ}

theorem roundInt_toInt : (wayOf r neg).toInt ((m : ℚ) * 2 ^ e) (roundInt r neg m e) := by
  unfold roundInt
  split
  next h =>
    obtain ⟨d, rfl⟩ : ∃ d : Nat, e = d := ⟨e.toNat, by omega⟩
    rw [Int.toNat_natCast, zpow_natCast]
    exact_mod_cast toInt_self (K := ℚ) (wayOf r neg) (m * 2 ^ d)
  next h =>
    obtain ⟨d, rfl⟩ : ∃ d : Nat, e = -d := ⟨(-e).toNat, by omega⟩
    rw [neg_neg, Int.toNat_natCast, zpow_neg, zpow_natCast, ← div_eq_mul_inv]
    exact roundShift_toInt ..

/-- 04 R106: a magnitude rounded the way of its mode and sign. -/
theorem roundsTo_of_toInt (hy : 0 ≤ y) (h : (wayOf r neg).toInt y n) : RoundsTo r (if neg then -y else y) (Num.int n neg) := by
  have hfloor (h : Way.toInt .down y n) : Int.floor y = n := Int.floor_eq_iff.2 ⟨by exact_mod_cast h.1, by exact_mod_cast h.2⟩
  have hceil (h : Way.toInt .up y n) : Int.ceil y = n := Int.ceil_eq_iff.2 ⟨by exact_mod_cast h.2, by exact_mod_cast h.1⟩
  cases r with
  | rne =>
    obtain ⟨⟨h1, t1⟩, h2, t2⟩ := h
    have habs : |(if neg then -y else y) - (Num.int n neg : ℚ)| = |y - n| := by
      cases neg
      · simp [Num.int]
      · simp only [Num.int, if_true]
        rw [← abs_neg]
        congr 1
        push_cast
        ring
    have hpar : Num.int n neg % 2 = 0 ↔ n % 2 = 0 := by
      cases neg <;> simp only [Num.int, if_true, Bool.false_eq_true, if_false] <;> omega
    unfold RoundsTo
    rw [habs, hpar, abs_le]
    refine ⟨⟨by linarith, by linarith⟩, fun he => ?_⟩
    rcases (abs_eq (by norm_num)).1 he with he | he
    · exact t2 (by linarith)
    · exact t1 (by linarith)
  | rtz =>
    have hn := hfloor h
    cases neg
    · simp only [RoundsTo, Num.int, Bool.false_eq_true, if_false, if_neg (not_lt.2 hy), hn]
    · simp only [RoundsTo, Num.int, if_true, Int.ceil_neg, hn]
      split
      next => rfl
      next h0 =>
        have : y = 0 := le_antisymm (by linarith) hy
        subst this
        rw [Int.floor_zero] at hn
        simp [← hn]
  | rup =>
    cases neg
    · exact (hceil h).symm
    · simp only [RoundsTo, Num.int, if_true, Int.ceil_neg, hfloor h]
  | rdn =>
    cases neg
    · exact (hfloor h).symm
    · simp only [RoundsTo, Num.int, if_true, Int.floor_neg, hceil h]

theorem ratOf_signed : ratOf (.fin neg m e) = if neg then -((m : ℚ) * 2 ^ e) else (m : ℚ) * 2 ^ e := by
  cases neg <;> simp [ratOf]

theorem roundInt_roundsTo : RoundsTo r (ratOf (.fin neg m e)) (Num.int (roundInt r neg m e) neg) := by
  rw [ratOf_signed]
  exact roundsTo_of_toInt (by positivity) roundInt_toInt

/-! ### Values that need no rounding -/

section
variable {K : Type} [Field K] [LinearOrder K] [IsStrictOrderedRing K] {way : Way} {x : K}

/-- What lies at or below a grid point rounds to it or below it. -/
theorem Way.toGrid_le (h : way.toGrid f x n) (hx : x ≤ gridIn K f k) : n ≤ k := by
  by_contra hc
  have hn : 0 < n := by omega
  have hlt : gridIn K f k < gridIn K f n := gridIn_strictMono (not_le.1 hc)
  have hle : gridIn K f k ≤ gridIn K f (n - 1) := gridIn_strictMono.monotone (Nat.le_sub_one_of_lt (not_le.1 hc))
  cases way with
  | near => linarith [(h.1 hn).1]
  | down => linarith [h.1]
  | up => linarith [h.2 hn]

/-- What lies at or above a grid point rounds to it or above it. -/
theorem Way.le_toGrid (h : way.toGrid f x n) (hx : gridIn K f k ≤ x) : k ≤ n := by
  by_contra hc
  have hlt : gridIn K f n < gridIn K f k := gridIn_strictMono (not_le.1 hc)
  have hle : gridIn K f (n + 1) ≤ gridIn K f k := gridIn_strictMono.monotone (Nat.succ_le_of_lt (not_le.1 hc))
  cases way with
  | near => linarith [h.2.1]
  | down => linarith [h.2]
  | up => linarith [h.1]

end

theorem round_of_gridVal (h4 : f ≠ .e4m3) (hk : k ≤ topOf f) (h : (m : ℚ) * 2 ^ e = gridVal f k) :
    (fpOfFmt f).round r neg m e = (if neg then signBit f else 0) + k := by
  rcases Nat.eq_zero_or_pos m with rfl | hm
  · have hk0 : k = 0 := by
      by_contra hk0
      exact (gridVal_pos (f := f) (Nat.pos_of_ne_zero hk0)).ne (by simpa using h)
    simp only [FpFmt.round, if_true, sign_eq, hk0, Nat.add_zero]
  · obtain ⟨n, hn, hbits⟩ := round_eq_ieeeBits (K := ℚ) (r := r) (neg := neg) (e := e) h4 hm
    have hg : gridIn ℚ f k = gridVal f k := by simp [gridIn]
    rw [h, ← hg] at hn
    rw [hbits, le_antisymm (Way.toGrid_le hn le_rfl) (Way.le_toGrid hn le_rfl), ieeeBits, if_pos hk]

/-- The integers of no more than the significand's bits are grid points. -/
theorem exists_gridVal_nat (h4 : f ≠ .e4m3) (hn : n ≤ 2 ^ fracBits f) : ∃ k, k ≤ topOf f ∧ gridVal f k = n := by
  rcases Nat.eq_zero_or_pos n with rfl | hpos
  · exact ⟨0, Nat.zero_le _, by simp [gridVal_zero]⟩
  · have hlo := Nat.log2_self_le hpos.ne'
    have hhi := Nat.lt_log2_self (n := n)
    have hl : n.log2 ≤ fracBits f := (Nat.pow_le_pow_iff_right (by norm_num)).1 (hlo.trans hn)
    obtain ⟨d, hd⟩ := Nat.exists_eq_add_of_le hl
    have hfacts : 1 ≤ (fmtFacts f).2.2 ∧ fracBits f + (fmtFacts f).2.2 + 1 ≤ 2 ^ expBits f - 1 := by
      revert h4
      cases f <;> decide
    have hsc : 2 ^ fracBits f ≤ n * 2 ^ d ∧ n * 2 ^ d < 2 ^ (fracBits f + 1) := by
      rw [show fracBits f + 1 = n.log2 + 1 + d by omega, hd, Nat.pow_add, Nat.pow_add]
      exact ⟨Nat.mul_le_mul_right _ hlo, Nat.mul_lt_mul_of_pos_right hhi (by positivity)⟩
    refine ⟨(n.log2 + (fmtFacts f).2.2 - 1) * 2 ^ fracBits f + n * 2 ^ d, ?_, ?_⟩
    · have hpow : 2 ^ (fracBits f + 1) = 2 ^ fracBits f + 2 ^ fracBits f := by ring
      have hle : (n.log2 + (fmtFacts f).2.2 - 1 + 2) * 2 ^ fracBits f ≤ (2 ^ expBits f - 1) * 2 ^ fracBits f :=
        Nat.mul_le_mul_right _ (by omega)
      have htop := topOf_succ h4
      rw [Nat.add_mul] at hle
      omega
    · rw [gridVal_scaled hsc.2.le (.inl hsc.1)]
      have hexp : leastExp f + ((n.log2 + (fmtFacts f).2.2 - 1 : Nat) : Int) = -(d : Int) := by
        unfold leastExp
        omega
      rw [hexp, zpow_neg, zpow_natCast]
      push_cast
      field_simp

/-- A value rounded to an integer is a value of its format. -/
theorem exists_gridVal_roundInt (h4 : f ≠ .e4m3) (hk : j * 2 ^ fracBits f + n ≤ topOf f) (hn : n < 2 ^ (fracBits f + 1))
    (hg : 2 ^ fracBits f ≤ n ∨ j = 0) : ∃ k, k ≤ topOf f ∧ gridVal f k = roundInt r neg n (leastExp f + j) := by
  rcases le_or_gt 0 (leastExp f + j) with he | he
  · refine ⟨_, hk, ?_⟩
    rw [gridVal_scaled hn.le hg, roundInt, if_pos he]
    obtain ⟨d, hd⟩ : ∃ d : Nat, leastExp f + j = d := ⟨_, (Int.toNat_of_nonneg he).symm⟩
    rw [hd, Int.toNat_natCast, zpow_natCast]
    push_cast
    rfl
  · refine exists_gridVal_nat h4 ((Way.toInt_bounds roundInt_toInt).2 ?_)
    have hn' : (n : ℚ) < 2 * 2 ^ fracBits f := by
      rw [← pow_succ']
      exact_mod_cast hn
    have hhalf : (2 : ℚ) ^ (leastExp f + j) ≤ 1 / 2 := by
      have : (2 : ℚ) ^ (leastExp f + j) ≤ 2 ^ (-1 : Int) := zpow_le_zpow_right₀ (by norm_num) (by omega)
      simpa using this
    push_cast
    nlinarith [mul_le_mul_of_nonneg_left hhalf (Nat.cast_nonneg (α := ℚ) n)]

/-- 06 R161: an integral value. -/
theorem rnd_finite (h4 : f ≠ .e4m3) (hv : v < 2 * signBit f) (hk : v % signBit f ≤ topOf f) :
    ∃ (m : Nat) (e : Int) (k : Nat), (fpOfFmt f).dec v = .fin (decide (signBit f ≤ v)) m e ∧ k ≤ topOf f ∧
      gridVal f k = roundInt r (decide (signBit f ≤ v)) m e ∧
      (fpOfFmt f).rnd r v = (if decide (signBit f ≤ v) then signBit f else 0) + k := by
  obtain ⟨j, n, hj, hn, hg, hd⟩ := dec_fin hv hk
  obtain ⟨k, hk', hgrid⟩ := exists_gridVal_roundInt (r := r) (neg := decide (signBit f ≤ v)) h4 (hj ▸ hk) hn hg
  refine ⟨_, _, k, hd, hk', hgrid, ?_⟩
  unfold FpFmt.rnd
  rw [hd]
  exact round_of_gridVal h4 hk' (by rw [zpow_zero, mul_one, hgrid])

theorem topOf_lt_signBit (f : Fmt) : topOf f < signBit f := by cases f <;> decide

/-- Sign and magnitude of the bits of a value. -/
theorem bits_mod (hk : k ≤ topOf f) : ((if neg then signBit f else 0) + k) % signBit f = k := by
  have hlt := hk.trans_lt (topOf_lt_signBit f)
  cases neg <;> simp [Nat.mod_eq_of_lt hlt]

theorem bits_sign (hk : k ≤ topOf f) : decide (signBit f ≤ (if neg then signBit f else 0) + k) = neg := by
  have hlt := hk.trans_lt (topOf_lt_signBit f)
  cases neg <;> simp [hlt]

theorem bits_lt (hk : k ≤ topOf f) : (if neg then signBit f else 0) + k < 2 * signBit f := by
  have hlt := hk.trans_lt (topOf_lt_signBit f)
  split <;> omega

theorem rnd_eq (h4 : f ≠ .e4m3) (hv : v < 2 * signBit f) (hk : v % signBit f ≤ topOf f) :
    ∃ k, RoundsTo r (ratOf ((fpOfFmt f).dec v)) k ∧ ratOf ((fpOfFmt f).dec ((fpOfFmt f).rnd r v)) = k ∧
      ((fpOfFmt f).dec ((fpOfFmt f).rnd r v)).isNeg = decide (signBit f ≤ v) ∧ (fpOfFmt f).rnd r v % signBit f ≤ topOf f := by
  obtain ⟨m, e, k, hd, hk', hgrid, hr⟩ := rnd_finite (r := r) h4 hv hk
  have hmod := bits_mod (neg := decide (signBit f ≤ v)) hk'
  obtain ⟨m', e', hd', hval⟩ := dec_gridVal (bits_lt (neg := decide (signBit f ≤ v)) hk') (by rw [hmod]; exact hk')
  rw [hmod, hgrid] at hval
  rw [bits_sign hk'] at hd'
  rw [hr, hd', hd, hmod]
  refine ⟨_, roundInt_roundsTo, ?_, rfl, hk'⟩
  rw [ratOf_signed, hval]
  by_cases hs : signBit f ≤ v <;> simp [hs, Num.int]

end

/-! ### Conversions to integers -/

section
variable {d : Fmt} {r : Rnd} {g : FpFmt} {v : Nat} {x : Int} {w : Word}

theorem intOfFmt_eq : intOfFmt d w = readInt d.bits d.signed w.toNat := by
  unfold intOfFmt readInt
  simp only [Bool.and_eq_true, decide_eq_true_eq]

theorem max_min_eq {lo hi : Int} (h : lo ≤ hi) : max lo (min hi x) = if x < lo then lo else if hi < x then hi else x := by
  split
  · omega
  · split <;> omega

/-- 04 R95: what the low bits hold goes into a register with its sign, or into a pair. -/
theorem placeFmt_of_lt {u : Nat} (hd : d.isInt = true) (hu : u < 2 ^ d.bits) : placeFmt d u =
    if d.bits = 64 then BitVec.ofInt 64 (readInt d.bits d.signed u) else (BitVec.ofInt 32 (readInt d.bits d.signed u)).setWidth 64 := by
  have hmod : u % 2 ^ d.bits = u := Nat.mod_eq_of_lt hu
  have hbits : d.bits = 64 ∨ d.bits = 32 ∨ d.bits = 16 ∨ d.bits = 8 := by
    revert hd
    cases d <;> decide
  unfold placeFmt readInt
  simp only [hmod, Bool.and_eq_true, decide_eq_true_eq, placeFmt.low32v]
  apply BitVec.eq_of_toNat_eq
  by_cases hneg : d.signed = true ∧ 2 ^ (d.bits - 1) ≤ u
  · simp only [hneg.1, hneg.2, and_true, true_and, if_true]
    rcases hbits with hb | hb | hb | hb <;> simp only [hb] at hu ⊢ <;> norm_num <;> omega
  · have hneg' : ¬ ((d.signed = true ∧ d.bits < 32) ∧ 2 ^ (d.bits - 1) ≤ u) := fun h => hneg ⟨h.1.1, h.2⟩
    rw [if_neg hneg, if_neg hneg']
    rcases hbits with hb | hb | hb | hb <;> simp only [hb] at hu ⊢ <;> norm_num <;> omega

/-- 04 R95: an integer in a register. -/
theorem placeFmt_eq (hd : d.isInt = true) : placeFmt d (x % (2 ^ d.bits : Nat)).toNat = placed d x := by
  have hpos : (0 : Int) < (2 ^ d.bits : Nat) := by positivity
  have hlt := Int.emod_lt_of_pos x hpos
  have hnn := Int.emod_nonneg x hpos.ne'
  exact placeFmt_of_lt hd (by omega)

end

end Sys2Proof.Machine
end

section
/-!
Conversions between formats (06 R162), and sums rounded once (04 R114, 06 R166, R167).
-/

namespace Sys2Proof.Machine

open Sys2Proof Sys2Proof.Spec

/-! ### Conversions -/

section
variable {c d : Fmt} {r : Rnd} {ns : Bool} {w : Word} {ty : FTy}

theorem fcvt_int (hd : d.isInt = true) : fcvt d c r ns w = placed d (readInt c.bits c.signed w.toNat) := by
  unfold fcvt
  rw [if_pos hd, placeFmt_eq hd, intOfFmt_eq]

theorem fcvt_fp8 (hd : d.isFp8 = true) :
    fcvt d c r ns w = BitVec.ofNat 64 (toFp8 (fpOfFmt d) r ns ((fpOfFmt c).dec (w.toNat % 2 ^ c.bits))) := by
  have hint : d.isInt = false := by
    revert hd
    cases d <;> decide
  unfold fcvt
  rw [if_neg (by simp [hint]), if_pos hd]

theorem fcvt_float : fcvt (ftyFmt ty) c r ns w = BitVec.ofNat 64 (rnd ty r ((fpOfFmt c).dec (w.toNat % 2 ^ c.bits))) := by
  have hint : (ftyFmt ty).isInt = false := by cases ty <;> rfl
  have hfp8 : (ftyFmt ty).isFp8 = false := by cases ty <;> rfl
  unfold fcvt
  rw [if_neg (by simp [hint]), if_neg (by simp [hfp8]), ← fpOf_eq]

end

/-! ### Sums -/

section
variable {r : Rnd} {rdn : Bool} {x z : Machine.Num} {ps ts : List Machine.Num} {y w : Word} {a b : Fmt} {ty : FTy} {i : Int}

theorem eq_fin_of_ne (hn : x ≠ .nan) (ht : x ≠ .inf true) (hf : x ≠ .inf false) : ∃ n m e, x = .fin n m e := by
  cases x with
  | nan => exact absurd rfl hn
  | inf n => cases n <;> contradiction
  | fin n m e => exact ⟨n, m, e, rfl⟩

/-- Finite terms have a finite exact sum. -/
theorem foldl_add_fin (hts : ∀ x ∈ z :: ps, ∃ n m e, x = .fin n m e) :
    ∃ n m e, ps.foldl (Num.add rdn) z = .fin n m e ∧ ratOf (.fin n m e) = ((z :: ps).map ratOf).sum := by
  induction ps generalizing z with
  | nil =>
    obtain ⟨n, m, e, rfl⟩ := hts z (by simp)
    exact ⟨n, m, e, rfl, by simp⟩
  | cons p ps ih =>
    obtain ⟨n, m, e, rfl⟩ := hts z (by simp)
    obtain ⟨n', m', e', rfl⟩ := hts p (by simp)
    obtain ⟨n1, m1, e1, hadd, hval, -⟩ := add_fin (rdn := rdn) (na := n) (ma := m) (ea := e) (nb := n') (mb := m') (eb := e')
    rw [List.foldl_cons, hadd]
    obtain ⟨n2, m2, e2, hfold, hsum⟩ := ih (z := .fin n1 m1 e1)
      (List.forall_mem_cons.2 ⟨⟨_, _, _, rfl⟩, fun x hx => hts x (by simp [hx])⟩)
    refine ⟨n2, m2, e2, hfold, ?_⟩
    rw [hsum, List.map_cons, List.sum_cons, hval]
    simp only [List.map_cons, List.sum_cons]
    ring

/-- A finite number rounded once to f32. -/
theorem enc_fin {n : Bool} {m : Nat} {e : Int} (hx : ratOf (.fin n m e) ≠ 0) :
    ∃ k, RoundsOnGrid .f32 r (decide (ratOf (.fin n m e) < 0)) |ratOf (.fin n m e)| k ∧
      fpF32.enc r (.fin n m e) = ieeeBits .f32 r (decide (ratOf (.fin n m e) < 0)) k := by
  have hm : 0 < m := Nat.pos_of_ne_zero fun h0 => hx (ratOf_eq_zero.2 h0)
  have hpos : (0 : ℚ) < m * 2 ^ e := by positivity
  have hneg : decide (ratOf (.fin n m e) < 0) = n := by
    rw [ratOf_signed]
    cases n
    · simp [hpos.le]
    · simp [hpos]
  have habs : |ratOf (.fin n m e)| = m * 2 ^ e := by
    rw [ratOf_signed]
    cases n
    · simp [abs_of_pos hpos]
    · simp [abs_of_pos hpos]
  rw [hneg, habs]
  obtain ⟨k, hk, hbits⟩ := round_eq_ieeeBits (K := ℚ) (f := .f32) (r := r) (neg := n) (e := e) (by decide) hm
  exact ⟨k, roundsOnGrid_iff.2 hk, hbits⟩

/-- 04 R114: one rounding step. -/
theorem oneStep_roundedSum : RoundedSum r (z :: ps) (oneStep fpF32 r z ps) := by
  have hany : ((z :: ps).any Num.isNan = true) ↔ .nan ∈ z :: ps := by
    rw [List.any_eq_true]
    constructor
    · rintro ⟨x, hx, hn⟩
      cases x <;> simp_all [Num.isNan]
    · exact fun h => ⟨_, h, rfl⟩
  unfold oneStep
  simp only [Bool.or_eq_true, Bool.and_eq_true, hany, List.contains_iff_mem]
  refine ⟨fun h => ?_, fun hn ht hf => ?_, fun hn hf ht => ?_, fun hn hf ht => ?_⟩
  · rw [if_pos h]
    rfl
  · rw [if_neg (by tauto), if_pos hf]
    rfl
  · rw [if_neg (by tauto), if_neg hf, if_pos ht]
    rfl
  · rw [if_neg (by tauto), if_neg hf, if_neg ht]
    obtain ⟨n, m, e, hfold, hsum⟩ := foldl_add_fin (rdn := decide (r = .rdn)) (z := z) (ps := ps) fun x hx =>
      eq_fin_of_ne (ne_of_mem_of_not_mem hx hn) (ne_of_mem_of_not_mem hx ht) (ne_of_mem_of_not_mem hx hf)
    rw [hfold, ← hsum]
    refine ⟨fun h0 => ?_, enc_fin⟩
    rw [ratOf_eq_zero.1 h0]
    cases n
    · exact .inl rfl
    · exact .inr rfl

/-! ### Dot products -/

theorem ofInt_low32 : wordOf false ((low32 w).toNat + i) = (BitVec.ofInt 32 (w.toNat + i)).setWidth 64 := by
  unfold wordOf low32
  rw [if_neg (by decide)]
  congr 1
  apply BitVec.eq_of_toNat_eq
  simp only [BitVec.toNat_ofInt, BitVec.toNat_setWidth]
  omega

/-- A byte of a register as an integer. -/
theorem intOfFmt_elem (ha : a.bits = 8) (j : Nat) : intOfFmt a (BitVec.ofNat 64 (elem 8 j w)) = readInt 8 a.signed (elem 8 j w) := by
  have hlt : elem 8 j w < 2 ^ 8 := Nat.mod_lt _ (by norm_num)
  rw [intOfFmt_eq, ha, BitVec.toNat_ofNat, Nat.mod_eq_of_lt (hlt.trans (by norm_num))]

theorem dot4V_int (ha : a = .i8 ∨ a = .n8) (hb : b = .i8 ∨ b = .n8) {u v : Word} : dot4V a b r u v w = (BitVec.ofInt 32 (w.toNat +
    ([0, 1, 2, 3].map fun j => readInt 8 a.signed (elem 8 j u) * readInt 8 b.signed (elem 8 j v)).sum)).setWidth 64 := by
  have hbits {c : Fmt} (hc : c = .i8 ∨ c = .n8) : c.bits = 8 ∧ c.isInt = true := by rcases hc with rfl | rfl <;> decide
  unfold dot4V
  rw [if_pos (hbits ha).2]
  simp only [intOfFmt_elem (hbits ha).1, intOfFmt_elem (hbits hb).1, add_assoc, ofInt_low32, List.map_cons, List.map_nil,
    List.sum_cons, List.sum_nil, add_zero]

theorem fbits_f32 : fbits fpF32 w = elem 32 0 w := by
  unfold fbits elem
  rw [Nat.mul_zero, Nat.pow_zero, Nat.div_one]
  rfl

theorem dot4V_float (ha : a = .e4m3 ∨ a = .e5m2) {u v : Word} : ∃ s, dot4V a b r u v w = BitVec.ofNat 64 s ∧
    RoundedSum r (num .f32 (elem 32 0 w) :: [0, 1, 2, 3].map fun j =>
      ((fpOfFmt a).dec (elem 8 j u)).mul ((fpOfFmt b).dec (elem 8 j v))) s := by
  have hint : a.isInt = false := by rcases ha with rfl | rfl <;> rfl
  unfold dot4V
  rw [if_neg (by simp [hint]), fbits_f32]
  exact ⟨_, rfl, oneStep_roundedSum⟩

theorem dot2hV_eq {u v : Word} : ∃ s, dot2hV ty r u v w = BitVec.ofNat 64 s ∧
    RoundedSum r (num .f32 (elem 32 0 w) :: [0, 1].map fun j => (num ty (elem 16 j u)).mul (num ty (elem 16 j v))) s := by
  unfold dot2hV
  rw [fbits_f32]
  exact ⟨_, rfl, oneStep_roundedSum⟩

end

end Sys2Proof.Machine
end

section
/-!
Square roots (04 R99, 06 R157): the integer root with a sticky bit rounds as the real root does.
-/

namespace Sys2Proof.Machine

open Sys2Proof Sys2Proof.Spec

/-! ### The integer root -/

theorem isqrt_invariant {k n r : Nat} (hlo : r * r ≤ n) (hhi : n < (r + 2 ^ k) * (r + 2 ^ k)) :
    isqrt k n r * isqrt k n r ≤ n ∧ n < (isqrt k n r + 1) * (isqrt k n r + 1) := by
  induction k generalizing r with
  | zero => exact ⟨hlo, by simpa [isqrt] using hhi⟩
  | succ k ih =>
    unfold isqrt
    split
    next h =>
      refine ih h ?_
      rwa [Nat.add_assoc, ← Nat.two_mul, ← Nat.pow_succ']
    next h => exact ih hlo (not_le.1 h)

/-- Enough digits give the integer root. -/
theorem isqrt_root (n : Nat) : isqrt (n.log2 / 2 + 1) n 0 * isqrt (n.log2 / 2 + 1) n 0 ≤ n ∧
    n < (isqrt (n.log2 / 2 + 1) n 0 + 1) * (isqrt (n.log2 / 2 + 1) n 0 + 1) := by
  refine isqrt_invariant (by simp) ?_
  rw [Nat.zero_add, ← Nat.pow_add]
  exact Nat.lt_log2_self.trans_le (Nat.pow_le_pow_right (by norm_num) (by omega))

/-! ### The sticky bit -/

/-- The number n stands for t: it is t, or it is odd and t lies between its neighbours. -/
def Sticky (n : Nat) (t : ℝ) : Prop := t = n ∨ (n % 2 = 1 ∧ (n : ℝ) - 1 < t ∧ t < n + 1)

/-- Two values that no half integer separates. -/
def SameCuts (y z : ℝ) : Prop := ∀ h : ℤ, ((h : ℝ) ≤ 2 * y ↔ (h : ℝ) ≤ 2 * z) ∧ (2 * y ≤ h ↔ 2 * z ≤ h)

section
variable {m n k d : Nat} {e q : Int} {t x y z : ℝ} {f : Fmt} {r : Rnd} {neg : Bool} {way : Way} {v : Nat}

/-- A number that stands for t lies on its side of every even number. -/
theorem Sticky.even_cut (h : Sticky n t) (i : ℤ) : ((2 * i : ℝ) ≤ n ↔ 2 * i ≤ t) ∧ ((n : ℝ) ≤ 2 * i ↔ t ≤ 2 * i) := by
  rcases h with rfl | ⟨hodd, hlo, hhi⟩
  · exact ⟨Iff.rfl, Iff.rfl⟩
  · have hbelow (hi : 2 * i ≤ n) : (2 * i : ℝ) ≤ n - 1 := by
      have : 2 * i ≤ (n : ℤ) - 1 := by omega
      exact_mod_cast this
    have habove (hi : (n : ℤ) < 2 * i) : (n : ℝ) + 1 ≤ 2 * i := by exact_mod_cast hi
    rcases le_or_gt (2 * i) (n : ℤ) with hi | hi
    · have := hbelow hi
      exact ⟨iff_of_true (by linarith) (by linarith), iff_of_false (by linarith) (by linarith)⟩
    · have := habove hi
      exact ⟨iff_of_false (by linarith) (by linarith), iff_of_true (by linarith) (by linarith)⟩

/-- In units of four or more, no half unit separates a number from what it stands for. -/
theorem Sticky.sameCuts (h : Sticky n t) (hd : 2 ≤ d) : SameCuts (n * 2 ^ (-(d : ℤ))) (t * 2 ^ (-(d : ℤ))) := by
  intro i
  obtain ⟨c, rfl⟩ := Nat.exists_eq_add_of_le hd
  have hpos : (0 : ℝ) < 2 ^ c := by positivity
  obtain ⟨hle, hge⟩ := h.even_cut (i * 2 ^ c)
  have hunit (u : ℝ) : 2 * (u * 2 ^ (-((2 + c : Nat) : ℤ))) = u / (2 * 2 ^ c) := by
    rw [zpow_neg, zpow_natCast, pow_add]
    field_simp
  rw [hunit, hunit, le_div_iff₀ (by positivity), le_div_iff₀ (by positivity), div_le_iff₀ (by positivity), div_le_iff₀ (by positivity)]
  push_cast at hle hge
  rw [show (i : ℝ) * (2 * 2 ^ c) = 2 * (i * 2 ^ c) by ring]
  exact ⟨hle, hge⟩

/-- Values that no half integer separates round to the same integers. -/
theorem SameCuts.toInt (h : SameCuts y z) (hy : way.toInt y k) : way.toInt z k := by
  have heq (i : ℤ) : (i : ℝ) = 2 * y ↔ (i : ℝ) = 2 * z := by rw [le_antisymm_iff, le_antisymm_iff, (h i).1, (h i).2]
  have hm := h (2 * k - 1)
  have hp := h (2 * k + 1)
  have h0 := h (2 * k)
  have h2 := h (2 * (k + 1))
  have hl := h (2 * (k - 1))
  have em := heq (2 * k - 1)
  have ep := heq (2 * k + 1)
  push_cast at hm hp h0 h2 hl em ep
  cases way with
  | near =>
    obtain ⟨⟨h1, t1⟩, h2, t2⟩ := hy
    exact ⟨⟨hm.1.1 h1, fun hz => t1 (em.2 hz)⟩, hp.2.1 h2, fun hz => t2 (ep.2 hz.symm).symm⟩
  | down =>
    obtain ⟨h1, h3⟩ := hy
    have hz1 := h0.1.1 (by linarith)
    have hz2 := mt h2.1.2 (by linarith)
    exact ⟨by linarith, by linarith⟩
  | up =>
    obtain ⟨h1, h3⟩ := hy
    have hz1 := h0.2.1 (by linarith)
    have hz2 := mt hl.2.2 (by linarith)
    exact ⟨by linarith, by linarith⟩

/-- A number of enough bits that stands for t rounds to the grid point to which t rounds. -/
theorem Sticky.round_toGrid (h : Sticky n t) (h4 : f ≠ .e4m3) (hn : 2 ^ (fracBits f + 2) ≤ n) :
    ∃ k, (wayOf r neg).toGrid f (t * 2 ^ q) k ∧ (fpOfFmt f).round r neg n q = ieeeBits f r neg k := by
  have hn0 : 0 < n := lt_of_lt_of_le (by positivity) hn
  obtain ⟨j, hj, hlow, hup⟩ := rawSig_bounds (K := ℝ) (f := f) (r := r) (neg := neg) (e := q) hn0
  have hint := rawSig_toInt (K := ℝ) (r := r) (neg := neg) hj.symm
  have hlog : fracBits f + 2 ≤ n.log2 := (Nat.le_log2 hn0.ne').2 hn
  obtain ⟨d, hd⟩ : ∃ d : Nat, leastExp f + j = q + 2 + d := by
    have hexp : (rawSig (fracBits f) (1 - (fmtFacts f).2.2) r neg n q).2 = max (leastExp f) (n.log2 + q - fracBits f) := rfl
    exact ⟨(leastExp f + j - q - 2).toNat, by omega⟩
  have hq : q - (leastExp f + j) = -((d + 2 : Nat) : ℤ) := by omega
  have hcuts := h.sameCuts (d := d + 2) (by omega)
  rw [hq] at hint hlow hup
  obtain ⟨htlow, -⟩ := hcuts (2 * 2 ^ fracBits f)
  obtain ⟨htup, -⟩ := hcuts (2 * 2 ^ (fracBits f + 1))
  push_cast at htlow htup
  simp only [mul_le_mul_iff_right₀ (zero_lt_two' ℝ)] at htlow htup
  obtain ⟨j, i, hsig, hi, hg, hgrid⟩ := roundSig_toGrid_of (x := t * 2 ^ q) hj (by rw [← hq]; exact units_eq) (hcuts.toInt hint)
    (one_le_fracBits f) (hlow.imp_left htlow.1) (not_le.1 (mt htup.2 (not_le.2 hup)))
  exact ⟨_, hgrid, round_of_roundSig h4 hn0 hsig hi hg⟩

/-! ### Square roots -/

theorem sqrtSticky_eq : sqrtSticky m e = let b := (if e % 2 = 0 then (m, e) else (2 * m, e - 1))
    (2 * isqrt ((b.1 * 2 ^ 128).log2 / 2 + 1) (b.1 * 2 ^ 128) 0 + (if isqrt ((b.1 * 2 ^ 128).log2 / 2 + 1) (b.1 * 2 ^ 128) 0 *
      isqrt ((b.1 * 2 ^ 128).log2 / 2 + 1) (b.1 * 2 ^ 128) 0 = b.1 * 2 ^ 128 then 0 else 1), b.2 / 2 - 65) := rfl

/-- Twice the integer root with the sticky bit stands for twice the root. -/
theorem sticky_of_root (hlo : k * k ≤ m) (hhi : m < (k + 1) * (k + 1)) : Sticky (2 * k + if k * k = m then 0 else 1) √(4 * m : ℝ) := by
  split
  next h =>
    left
    rw [← h, Real.sqrt_eq_iff_mul_self_eq (by positivity) (by positivity)]
    push_cast
    ring
  next h =>
    have hlt : (k : ℝ) * k < m := by exact_mod_cast lt_of_le_of_ne hlo h
    have hlt' : (m : ℝ) < (k + 1) * (k + 1) := by exact_mod_cast hhi
    refine .inr ⟨by omega, ?_, ?_⟩
    · refine Real.lt_sqrt_of_sq_lt ?_
      push_cast
      linarith
    · rw [Real.sqrt_lt' (by positivity)]
      push_cast
      linarith

/-- m·2^e has a root of which the sticky root's number stands for the units. -/
theorem sqrtSticky_root (hm : 0 < m) : ∃ t, Sticky (sqrtSticky m e).1 t ∧ 2 ^ 65 ≤ (sqrtSticky m e).1 ∧
    √((m : ℝ) * 2 ^ e) = t * 2 ^ (sqrtSticky m e).2 := by
  obtain ⟨b, hb⟩ : ∃ b : Nat × Int, b = if e % 2 = 0 then (m, e) else (2 * m, e - 1) := ⟨_, rfl⟩
  have hval : 0 < b.1 ∧ (b.1 : ℝ) * 2 ^ b.2 = m * 2 ^ e ∧ b.2 = 2 * (b.2 / 2) := by
    rw [hb]
    split
    next h => exact ⟨hm, rfl, by omega⟩
    next h =>
      refine ⟨by omega, ?_, by omega⟩
      rw [zpow_sub_one₀ (by norm_num)]
      push_cast
      field_simp
  obtain ⟨hpos, hval, heven⟩ := hval
  rw [sqrtSticky_eq, ← hb]
  obtain ⟨M, hM⟩ : ∃ M, M = b.1 * 2 ^ 128 := ⟨_, rfl⟩
  obtain ⟨hlo, hhi⟩ := isqrt_root M
  simp only [← hM]
  generalize isqrt (M.log2 / 2 + 1) M 0 = k at hlo hhi
  refine ⟨_, sticky_of_root hlo hhi, ?_, ?_⟩
  · have hbig : 2 ^ 64 * 2 ^ 64 ≤ M := by
      rw [hM]
      omega
    have hk : 2 ^ 64 < k + 1 := Nat.mul_self_lt_mul_self_iff.1 (hbig.trans_lt hhi)
    omega
  · rw [← hval, heven, hM, Real.sqrt_eq_iff_mul_self_eq (by positivity) (by positivity)]
    have hunit : (2 : ℝ) ^ (2 * (b.2 / 2) / 2 - 65) * 2 ^ (2 * (b.2 / 2) / 2 - 65) * 2 ^ 130 = 2 ^ (2 * (b.2 / 2)) := by
      rw [← zpow_natCast, ← zpow_add₀ (by norm_num), ← zpow_add₀ (by norm_num)]
      congr 1
      omega
    rw [mul_mul_mul_comm, Real.mul_self_sqrt (by positivity), ← hunit]
    push_cast
    ring

/-- What it says of squares that the root of X rounds to a grid point. -/
theorem squares_of_toGrid {X : ℚ} (hX : 0 ≤ X) (h : way.toGrid f √(X : ℝ) k) :
    match way with
    | .near => (0 < k → (gridVal f (k - 1) + gridVal f k) ^ 2 ≤ 4 * X) ∧ 4 * X ≤ (gridVal f k + gridVal f (k + 1)) ^ 2
    | .up => X ≤ gridVal f k ^ 2 ∧ (0 < k → gridVal f (k - 1) ^ 2 < X)
    | .down => gridVal f k ^ 2 ≤ X ∧ X < gridVal f (k + 1) ^ 2 := by
  have hnn (i : Nat) : 0 ≤ gridIn ℝ f i := by
    have h0 : gridIn ℝ f 0 = 0 := by simp [gridIn, gridVal_zero]
    exact h0 ▸ gridIn_strictMono.monotone (Nat.zero_le i)
  have hXr : (0 : ℝ) ≤ X := by exact_mod_cast hX
  have hsq : √(X : ℝ) ^ 2 = X := Real.sq_sqrt hXr
  have hroot : 0 ≤ √(X : ℝ) := Real.sqrt_nonneg _
  have hcast (i : Nat) : ((gridVal f i : ℚ) : ℝ) = gridIn ℝ f i := rfl
  have h4 : 4 * (X : ℝ) = (2 * √(X : ℝ)) ^ 2 := by rw [mul_pow, hsq]; norm_num
  cases way with
  | near =>
    obtain ⟨h1, h2, -⟩ := h
    refine ⟨fun hk => ?_, ?_⟩
    · rw [← Rat.cast_le (K := ℝ)]
      push_cast
      rw [hcast, hcast, h4]
      exact pow_le_pow_left₀ (add_nonneg (hnn _) (hnn _)) (h1 hk).1 2
    · rw [← Rat.cast_le (K := ℝ)]
      push_cast
      rw [hcast, hcast, h4]
      exact pow_le_pow_left₀ (by positivity) h2 2
  | down =>
    obtain ⟨h1, h2⟩ := h
    constructor
    · rw [← Rat.cast_le (K := ℝ)]
      push_cast
      rw [hcast, ← hsq]
      exact pow_le_pow_left₀ (hnn _) h1 2
    · rw [← Rat.cast_lt (K := ℝ)]
      push_cast
      rw [hcast, ← hsq]
      exact pow_lt_pow_left₀ h2 hroot two_ne_zero
  | up =>
    obtain ⟨h1, h2⟩ := h
    refine ⟨?_, fun hk => ?_⟩
    · rw [← Rat.cast_le (K := ℝ)]
      push_cast
      rw [hcast, ← hsq]
      exact pow_le_pow_left₀ hroot h1 2
    · rw [← Rat.cast_lt (K := ℝ)]
      push_cast
      rw [hcast, ← hsq]
      exact pow_lt_pow_left₀ (h2 hk) (hnn _) two_ne_zero

/-- The root of a finite value is no greater than the greatest. -/
theorem sqrt_le_top (h4 : f ≠ .e4m3) (hv : v ≤ topOf f) : √((gridVal f v : ℚ) : ℝ) ≤ gridIn ℝ f (topOf f) := by
  obtain ⟨i, hi, hone⟩ := exists_gridVal_nat (n := 1) h4 Nat.one_le_two_pow
  have h1 : (1 : ℝ) ≤ gridIn ℝ f (topOf f) := by
    have h := gridIn_strictMono (K := ℝ) (f := f).monotone hi
    rwa [gridIn, hone, Nat.cast_one, Rat.cast_one] at h
  refine Real.sqrt_le_iff.2 ⟨by linarith, ?_⟩
  calc ((gridVal f v : ℚ) : ℝ) ≤ gridIn ℝ f (topOf f) := gridIn_strictMono.monotone hv
    _ ≤ gridIn ℝ f (topOf f) ^ 2 := by nlinarith

/-- 06 R157: the root of a positive finite value. -/
theorem sqrt_finite (h4 : f ≠ .e4m3) (hv0 : 0 < v) (hv : v ≤ topOf f) : (fpOfFmt f).sqrt r v ≤ topOf f ∧
    (wayOf r false).toGrid f √((gridVal f v : ℚ) : ℝ) ((fpOfFmt f).sqrt r v) := by
  have hlt := hv.trans_lt (topOf_lt_signBit f)
  have hmod : v % signBit f = v := Nat.mod_eq_of_lt hlt
  obtain ⟨m, e, hd, hval⟩ := dec_gridVal (f := f) (v := v) (by omega) (by rwa [hmod])
  rw [hmod] at hval
  have hm : m ≠ 0 := by
    rintro rfl
    exact (gridVal_pos (f := f) hv0).ne (by simpa using hval)
  obtain ⟨t, hst, hbig, hroot⟩ := sqrtSticky_root (e := e) (Nat.pos_of_ne_zero hm)
  have hfb : 2 ^ (fracBits f + 2) ≤ (sqrtSticky m e).1 := by
    refine le_trans (Nat.pow_le_pow_right (by norm_num) ?_) hbig
    cases f <;> decide
  obtain ⟨k, hk, hbits⟩ := hst.round_toGrid (r := r) (neg := false) (q := (sqrtSticky m e).2) h4 hfb
  have hX : ((gridVal f v : ℚ) : ℝ) = m * 2 ^ e := by
    rw [← hval]
    push_cast
    rfl
  rw [← hroot, ← hX] at hk
  have hktop := Way.toGrid_le hk (sqrt_le_top h4 hv)
  have hsqrt : (fpOfFmt f).sqrt r v = k := by
    have hneg : decide (signBit f ≤ v) = false := by simpa using hlt
    unfold FpFmt.sqrt
    rw [hd]
    simp only [hm, if_false, hneg, Bool.false_eq_true, hbits, ieeeBits, if_pos hktop, Nat.zero_add]
  rw [hsqrt]
  exact ⟨hktop, hk⟩

/-- 06 R157: no other value than a zero and the positive infinity has a root, and they are their own. -/
theorem sqrt_nan (h4 : f ≠ .e4m3) (hv : v < 2 * signBit f) (h : topOf f + 1 < v % signBit f ∨ signBit f < v) :
    (fpOfFmt f).sqrt r v = canonicalNaN f := by
  unfold FpFmt.sqrt
  rcases dec_cases h4 hv with ⟨hk, m, e, hd, hval⟩ | ⟨hk, hd⟩ | ⟨hk, hd⟩
  · have hs : signBit f < v := h.resolve_left (by omega)
    have hm : m ≠ 0 := by
      rintro rfl
      have hpos : 0 < v % signBit f := by
        rw [Nat.mod_eq_sub_mod hs.le, Nat.mod_eq_of_lt (by omega)]
        omega
      exact (gridVal_pos (f := f) hpos).ne (by simpa using hval)
    rw [hd]
    simp only [hm, if_false, hs.le, decide_true, if_true, qnan_eq]
  · have hs : signBit f < v := h.resolve_left (by omega)
    rw [hd]
    simp only [hs.le, decide_true, if_true, qnan_eq]
  · rw [hd, qnan_eq]

theorem sqrt_self (h4 : f ≠ .e4m3) (h : v = 0 ∨ v = signBit f ∨ v = topOf f + 1) : (fpOfFmt f).sqrt r v = v := by
  have hpos := signBit_pos (f := f)
  have htop : topOf f + 1 < signBit f := by
    rw [topOf_succ h4, signBit_eq, Nat.mul_comm]
    exact Nat.mul_lt_mul_of_pos_left (by have := Nat.one_le_two_pow (n := expBits f); omega) (by positivity)
  unfold FpFmt.sqrt
  rcases dec_cases (v := v) h4 (by omega) with ⟨hk, m, e, hd, hval⟩ | ⟨hk, hd⟩ | ⟨hk, hd⟩
  · have hm : m = 0 := by
      have h0 : v % signBit f = 0 := by
        rcases h with rfl | rfl | rfl
        · exact Nat.zero_mod _
        · exact Nat.mod_self _
        · rw [Nat.mod_eq_of_lt htop] at hk
          omega
      rw [h0, gridVal_zero] at hval
      exact_mod_cast (mul_eq_zero.1 hval).resolve_right (by positivity)
    rw [hd]
    simp only [hm, if_true]
  · have hs : v < signBit f := by
      rcases h with rfl | rfl | rfl
      · exact hpos
      · rw [Nat.mod_self] at hk
        omega
      · exact htop
    rw [hd]
    simp only [not_le.2 hs, decide_false, Bool.false_eq_true, if_false]
  · rcases h with rfl | rfl | rfl
    · rw [Nat.zero_mod] at hk
      omega
    · rw [Nat.mod_self] at hk
      omega
    · rw [Nat.mod_eq_of_lt htop] at hk
      omega

end

end Sys2Proof.Machine
end

section
/-!
O9: the results of the instructions on uniform operands, and the values of the floating-point operators.
-/

namespace Sys2Proof.Machine

open Sys2Proof Sys2Proof.Spec

section
variable {f : Fmt} {ty : FTy} {r : Rnd} {neg nosat : Bool} {m v a b : Nat} {e : Int}

/-- 04 R99: rounding to an IEEE format. -/
theorem rnd_fin (hm : 0 < m) : ∃ k, RoundsOnGrid (ftyFmt ty) r neg ((m : ℚ) * (2 : ℚ) ^ e) k ∧
    rnd ty r (.fin neg m e) = ieeeBits (ftyFmt ty) r neg k := by
  obtain ⟨k, hk, hbits⟩ := round_eq_ieeeBits (K := ℚ) (r := r) (neg := neg) (e := e) (ftyFmt_ne (ty := ty)) hm
  exact ⟨k, roundsOnGrid_iff.2 hk, by rw [rnd, fpOf_eq, FpFmt.enc, hbits]⟩

theorem rnd_zero : rnd ty r (.fin neg 0 e) = if neg then signBit (ftyFmt ty) else 0 := by
  rw [rnd, fpOf_eq, FpFmt.enc, FpFmt.round, if_pos rfl, sign_eq]

theorem rnd_nan : rnd ty r .nan = canonicalNaN (ftyFmt ty) := by
  rw [rnd, fpOf_eq, FpFmt.enc, qnan_eq]

theorem rnd_inf : rnd ty r (.inf neg) = (if neg then signBit (ftyFmt ty) else 0) + topOf (ftyFmt ty) + 1 := by
  rw [rnd, fpOf_eq, FpFmt.enc, infBits_eq ftyFmt_ne]

theorem toFp8_inf (hf : f = .e4m3 ∨ f = .e5m2) : toFp8 (fpOfFmt f) r nosat (.inf neg) =
    if f = .e5m2 then (if neg then signBit f else 0) + 0x7C else if nosat then 0x7F else (if neg then signBit f else 0) + 0x7E := by
  rcases hf with rfl | rfl <;> cases neg <;> cases nosat <;> rfl

theorem toFp8_fin (hf : f = .e4m3 ∨ f = .e5m2) (hm : 0 < m) : ∃ k, RoundsOnGrid f r neg ((m : ℚ) * (2 : ℚ) ^ e) k ∧
    toFp8 (fpOfFmt f) r nosat (.fin neg m e) = fp8Bits f nosat neg k := by
  obtain ⟨k, hk, hbits⟩ := toFp8_eq_fp8Bits (r := r) (neg := neg) (nosat := nosat) (e := e) hf hm
  exact ⟨k, roundsOnGrid_iff.2 hk, hbits⟩

/-- 04 R101: the least and the greatest. -/
theorem minMax_spec {mx : Bool} (h4 : f ≠ .e4m3) (ha : a < 2 * signBit f) (hb : b < 2 * signBit f) :
    let nan (v : Nat) : Prop := topOf f + 1 < v % signBit f
    let w := (fpOfFmt f).minMax mx a b
    (nan a → nan b → w = canonicalNaN f) ∧ (nan a → ¬ nan b → w = b) ∧ (¬ nan a → nan b → w = a) ∧
      (¬ nan a → ¬ nan b → w = if mx then (if orderKey f a < orderKey f b then b else a)
        else if orderKey f a < orderKey f b then a else b) := by
  simp only [minMax_eq, isNan_dec h4 ha, isNan_dec h4 hb, qnan_eq, Bool.and_eq_true, decide_eq_true_eq]
  refine ⟨fun hna hnb => ?_, fun hna hnb => ?_, fun hna hnb => ?_, fun hna hnb => ?_⟩
  · rw [if_pos ⟨hna, hnb⟩]
  · rw [if_neg fun h => hnb h.2, if_pos hna]
  · rw [if_neg fun h => hna h.1, if_neg hna, if_pos hnb]
  · rw [if_neg fun h => hna h.1, if_neg hna, if_neg hnb]
    simp only [before_dec h4 ha hb hna hnb]

/-- 06 R157: the root of a positive finite value, by its square. -/
theorem sqrt_squares (h4 : f ≠ .e4m3) (hv0 : 0 < v) (hv : v ≤ topOf f) :
    let w := (fpOfFmt f).sqrt r v
    let y := gridVal f
    w ≤ topOf f ∧ match r with
      | .rne => (0 < w → (y (w - 1) + y w) ^ 2 ≤ 4 * y v) ∧ 4 * y v ≤ (y w + y (w + 1)) ^ 2
      | .rup => y v ≤ y w ^ 2 ∧ (0 < w → y (w - 1) ^ 2 < y v)
      | _ => y w ^ 2 ≤ y v ∧ y v < y (w + 1) ^ 2 := by
  obtain ⟨htop, hgrid⟩ := sqrt_finite (r := r) h4 hv0 hv
  have h := squares_of_toGrid (gridVal_pos hv0).le hgrid
  refine ⟨htop, ?_⟩
  cases r <;> exact h

/-- 06 R161: integral values. -/
theorem rnd_special (h4 : f ≠ .e4m3) (hv : v < 2 * signBit f) :
    (topOf f + 1 < v % signBit f → (fpOfFmt f).rnd r v = canonicalNaN f) ∧
      (v % signBit f = topOf f + 1 → (fpOfFmt f).rnd r v = v) := by
  unfold FpFmt.rnd
  rcases dec_cases h4 hv with ⟨hk, -⟩ | ⟨hk, hd⟩ | ⟨hk, hd⟩
  · exact ⟨fun h => by omega, fun h => by omega⟩
  · rw [hd]
    exact ⟨fun h => by omega, fun _ => rfl⟩
  · rw [hd]
    exact ⟨fun _ => qnan_eq, fun h => by omega⟩

/-- 04 R106: an integer type's least value is no more than its greatest. -/
theorem int_range (d : Fmt) : (if d.signed then -(2 ^ (d.bits - 1)) else 0 : Int) ≤
    if d.signed then 2 ^ (d.bits - 1) - 1 else 2 ^ d.bits - 1 := by
  cases d <;> decide

/-- 04 R106: what a NaN and an infinity give. -/
theorem ftoi_nan {g : FpFmt} {d : Fmt} (h : g.dec v = .nan) : ftoi g d r v = 0 := by
  unfold ftoi
  rw [h]

theorem ftoi_inf {g : FpFmt} {d : Fmt} (h : g.dec v = .inf neg) : ftoi g d r v =
    if neg then (if d.signed then -(2 ^ (d.bits - 1)) else 0) else if d.signed then 2 ^ (d.bits - 1) - 1 else 2 ^ d.bits - 1 := by
  unfold ftoi
  rw [h]

/-- 04 R106: conversions to integers saturate. -/
theorem ftoi_fin {g : FpFmt} {d : Fmt} (h : g.dec v = .fin neg m e) :
    let lo : Int := if d.signed then -(2 ^ (d.bits - 1)) else 0
    let hi : Int := if d.signed then 2 ^ (d.bits - 1) - 1 else 2 ^ d.bits - 1
    ∃ k, RoundsTo r (ratOf (g.dec v)) k ∧ ftoi g d r v = if k < lo then lo else if hi < k then hi else k := by
  refine ⟨_, h ▸ roundInt_roundsTo, ?_⟩
  unfold ftoi
  rw [h]
  exact max_min_eq (int_range d)

end

/-- Settles O9: a uniform operation writes its value and nothing else (`uniform_resultIs`); rounding to the grid of a format is
rounding to an integer in units of the last bit (`Way.toGrid_of_toInt`), and the sticky bit of a square root makes the integer root
round as the real root does (`Sticky.round_toGrid`). -/
theorem scalarResults : Obligations.ScalarResults := by
  unfold Obligations.ScalarResults
  refine ⟨fun _ _ _ _ => uniform_resultIs, ?_, ?_, ?_, ?_, ?_, ?_, ?_, ?_, ?_, ?_, ?_, ?_⟩
  · exact fun f _ v hv => ⟨dec_gridVal hv, dec_top hv⟩
  · exact fun ty r neg m e => ⟨fpOf_eq, rnd_nan, rnd_inf, fun h => by rw [h, rnd_zero], rnd_fin⟩
  · intro f hf r nosat neg m e
    have hf' : f = .e4m3 ∨ f = .e5m2 := by simpa using hf
    exact ⟨qnan_eq, toFp8_inf hf', fun h => by rw [h, ← sign_eq]; rfl, toFp8_fin hf'⟩
  · intro rdn na nb ma mb ea eb
    obtain ⟨n, m, e, hadd, hval, hzero⟩ := add_fin (rdn := rdn) (na := na) (ma := ma) (ea := ea) (nb := nb) (mb := mb) (eb := eb)
    exact ⟨by rw [hadd, hval], ⟨n, m, e, hadd, hzero⟩, ratOf_mul, ⟨_, _, mul_fin⟩, ratOf_neg, rfl, rfl, rfl, rfl,
      rfl, mul_inf, rfl, rfl⟩
  · exact fun x => ⟨fun rdn => ⟨add_nan, rfl⟩, mul_nan, rfl, rfl⟩
  · intro ty mx a b
    rw [fpOf_eq]
    exact minMax_spec ftyFmt_ne
  · intro ty v
    rw [fpOf_eq]
    exact fclass_eq ftyFmt_ne
  · intro ty r v
    rw [fpOf_eq]
    exact fun hv => ⟨sqrt_nan ftyFmt_ne hv, sqrt_self ftyFmt_ne, sqrt_squares ftyFmt_ne⟩
  · intro ty r v
    rw [num, num, fpOf_eq]
    exact fun hv => ⟨(rnd_special ftyFmt_ne hv).1, (rnd_special ftyFmt_ne hv).2, rnd_eq ftyFmt_ne hv⟩
  · intro ty d r v hd
    refine ⟨fun h => ?_, fun n h => ?_, fun n m e h => ftoi_fin h, fun x => placeFmt_eq hd⟩
    · exact ftoi_nan h
    · exact ftoi_inf h
  · exact fun d c r ns w => ⟨fun hd _ => fcvt_int hd, fcvt_fp8, fun ty hd => hd ▸ fcvt_float⟩
  · intro r x y z
    refine ⟨fun a ha b hb => dot4V_int (by simpa using ha) (by simpa using hb), fun a ha b _ => dot4V_float (by simpa using ha),
      fun ty _ => dot2hV_eq⟩

end Sys2Proof.Machine
end
